-- ==== Sys2Proof/Word.lean ====
section
/-!
DEFINITION. Word.lean: the word types of the Renwald D96 (Dersor), and the names of register fields.
A vector register holds 32 bits (R18), an s-register 64 (R157), an instruction word 64 (R45).
-/
namespace Sys2Proof

/-- A vector register's contents (R18). -/
abbrev Word := BitVec 32
/-- A pair, an s-register, an instruction word or a literal (R19, R45, R47, R157). -/
abbrev DWord := BitVec 64
/-- One byte of memory. -/
abbrev Byte := BitVec 8

/-- A vector register number, D, A, B or C of a team form (R45). -/
abbrev VReg := Fin 256
/-- A predicate number (R20). -/
abbrev PReg := Fin 16
/-- An s-register number of a Foyer form (R48). -/
abbrev SReg := Fin 64
/-- A shape register number (R248). -/
abbrev ShReg := Fin 16
/-- A capsule register number (R441). -/
abbrev CReg := Fin 16

/-- A cause code of R51, R394: the number that stands in a trap record's CAUSE field. -/
abbrev Cause := BitVec 8

end Sys2Proof
end

