-- ==== Sys2Proof/Config.lean ====
section
/-!
DEFINITION. Config.lean: what the module or its maker fixes, and the free values: constants without a body, of which
no proof can learn anything.
-/
namespace Sys2Proof.Config

/-- A fresh value for each count (R481: whether a lost access has performed); notes/assumptions/2. -/
opaque freeBit : Nat → Bool
/-- A fresh number for each count: what a context image does not hold and the spec does not state (R424, R425);
notes/assumptions/2. -/
opaque freeNat : Nat → Nat
/-- The final solve count of a block that completed before its launch was restored (R425, R452). -/
opaque lostCount : (launch block : Nat) → Nat
/-- The bytes of HBM that do not hold after a reset what was last written to them, with what they then hold, by a count (R471). -/
opaque afterReset : (ctr : Nat) → List (Nat × BitVec 8)
/-- Whether, at a tick, an operand of a fragment or a STALL count of its team is still pending (R152), which is performance behaviour: by
launch, block, team (8 for the Foyer context) and fragment. -/
opaque late : (tick launch block team frag : Nat) → Bool
/-- The cycles in which this stepping writes the result of an opcode: a performance matter (R62). -/
opaque latency : (op : Nat) → Nat
/-- Which of the values that a register has held a read gives that stands too near its writer, by a count (R62). -/
opaque heldAt : (ctr seat reg : Nat) → Nat
/-- Which word a fetch of code sees that has changed since its launch began, by the tick and the address (R44). -/
opaque fetchSees : (tick va : Nat) → Nat
/-- The set, of the 65,536 of its die, in which the L2 holds a line: the slice hash is a performance matter (R205). -/
opaque l2Set : (line : Nat) → Nat
/-- Which of the allowed L2 ways the fill of a line takes at a tick: the order of fills and replacement is a performance matter
(R205). -/
opaque l2Pick : (tick line : Nat) → Nat
/-- Whether the Porch controller refuses a FORMAT packet of a function that physical-function software has barred, by a count; the
spec does not say how a function is barred (R372). -/
opaque barred : (ctr fn : Nat) → Bool
/-- A byte of a neighbour's scratch where that block is no longer resident (R262 states no value), by a count. -/
opaque staleByte : Nat → BitVec 8
/-- SERIAL of the module (R486). -/
opaque serial : BitVec 64
/-- FUSE of a die (R487), before the constraint that 36 bits are set. -/
opaque fuse : Nat → BitVec 40
/-- Aelyn's format key record, fused into the security block (R345). -/
opaque aelynKey : List Byte
/-- The Aelyn firmware keys fused into the security block (R488). -/
opaque firmwareKeys : List (List Byte)
/-- The image of the boot ROM, of which a measurement is taken (R490). -/
opaque bootRom : List Byte
/-- The secret of the device identity key, an ECDSA P-384 key (R490). -/
opaque identitySecret : Nat
/-- The chain that certifies the device identity key, rooted in Aelyn's keys (R490). -/
opaque identityChain : List Byte

end Sys2Proof.Config
end

