-- ==== Sys2Proof/Syntax.lean ====
section
/-!
DEFINITION. Syntax.lean: the operand forms and the ONE inductive Instr, a constructor for each row of
spec/opcode_table.json: 227 instructions of the team and Foyer streams and 97 steps of the device, the host
and the peers (spec/95_what_each_step_holds.md), whose constructors carry what the step is about.
-/
namespace Sys2Proof

/-! ### Fields shared by the forms -/

/-- A guard: G and GN of R45. -/
structure Guard where
  p   : PReg
  neg : Bool
  deriving DecidableEq, Repr

/-- The integer types of R93, in the order of their codes. -/
inductive IntTy where
  | i32 | n32 | i16 | n16 | i8 | n8 | i64 | n64
  deriving DecidableEq, Repr

/-- The relations of SETP and SCMP (R106, R186). -/
inductive Cmp where
  | eq | ne | lt | le | gt | ge
  deriving DecidableEq, Repr

/-- The relations of FSETP (R117). -/
inductive FCmp where
  | eq | ne | lt | le | gt | ge | equ | neu | ltu | leu | gtu | geu | num | nan
  deriving DecidableEq, Repr

/-- FT of R112. -/
inductive FTy where
  | f32 | f16 | bf16
  deriving DecidableEq, Repr

/-- The rounding modifier of R46. -/
inductive Rnd where
  | rn | rz | rd | ru
  deriving DecidableEq, Repr

/-- The type codes of CVT (R120). -/
inductive CvtTy where
  | i8 | n8 | i16 | n16 | i32 | n32 | i64 | n64 | f16 | bf16 | f32 | f64
  deriving DecidableEq, Repr

/-- The width WD of SEL and MOV (R109). -/
inductive CopyW where
  | w32 | w64 | w128
  deriving DecidableEq, Repr

/-- The size codes of LD (R124). -/
inductive LdSz where
  | i8 | n8 | i16 | n16 | b32 | b64 | b128
  deriving DecidableEq, Repr

/-- The size codes of ST (R124). -/
inductive StSz where
  | b8 | b16 | b32 | b64 | b128
  deriving DecidableEq, Repr

/-- The scopes of R212 and R222. -/
inductive Scope where
  | team | core | clu | die | dev | sys
  deriving DecidableEq, Repr

/-- The ordering modifier ORD of R188 and R216. -/
inductive Ord2 where
  | none | acq | rel | ar
  deriving DecidableEq, Repr

/-- ORD of FENCE and SFENCE: code 0 is illegal (R242, R189). -/
inductive FenceOrd where
  | acq | rel | ar
  deriving DecidableEq, Repr

/-- The level codes of R194. -/
inductive Level where
  | global | slice | scratch | cluster | pantry
  deriving DecidableEq, Repr

/-- The levels that ATOM reaches (R216). -/
inductive AtomLevel where
  | global | scratch | cluster | pantry
  deriving DecidableEq, Repr

/-- The atomic operations without a compare operand; sg is SG of R188 and R216. -/
inductive AtomOp where
  | add | min (sg : Bool) | max (sg : Bool) | and | or | xor | exch
  deriving DecidableEq, Repr

/-- The readable special registers of R21. -/
inductive SpecReg where
  | lid | seat | sweep | team | block | launch | core | cluster | die | asf | ate | trapres
  | occ (k : Fin 16)
  deriving DecidableEq, Repr

/-! ### Integer, logic and move forms (04) -/

/-- D, A, B of a type with SAT: ADD, SUB, MUL (R98). -/
structure IntRRS where
  g : Guard
  d : VReg
  a : VReg
  b : VReg
  ty : IntTy
  sat : Bool
  deriving DecidableEq, Repr

/-- D, A, B of a type (R98, R102). -/
structure IntRR where
  g : Guard
  d : VReg
  a : VReg
  b : VReg
  ty : IntTy
  deriving DecidableEq, Repr

/-- D, A, B, C of a type with SAT: MAD (R98). -/
structure IntRRRS where
  g : Guard
  d : VReg
  a : VReg
  b : VReg
  c : VReg
  ty : IntTy
  sat : Bool
  deriving DecidableEq, Repr

/-- D, A, B, C of a type: BFE, BFI (R104). -/
structure IntRRR where
  g : Guard
  d : VReg
  a : VReg
  b : VReg
  c : VReg
  ty : IntTy
  deriving DecidableEq, Repr

/-- D, A of a type with SAT: ABS, NEG (R98). -/
structure IntRS where
  g : Guard
  d : VReg
  a : VReg
  ty : IntTy
  sat : Bool
  deriving DecidableEq, Repr

/-- D, A of a type: NOT, POPC, CLZ, BREV (R102, R104). -/
structure IntR where
  g : Guard
  d : VReg
  a : VReg
  ty : IntTy
  deriving DecidableEq, Repr

/-- D, A and a signed 29-bit immediate (R98, R102). -/
structure IntRI where
  g : Guard
  d : VReg
  a : VReg
  ty : IntTy
  imm : BitVec 29
  deriving DecidableEq, Repr

/-- D, A and a literal, with SAT (R98). -/
structure IntRLS where
  g : Guard
  d : VReg
  a : VReg
  ty : IntTy
  sat : Bool
  lit : DWord
  deriving DecidableEq, Repr

/-- D, A and a literal (R98, R102). -/
structure IntRL where
  g : Guard
  d : VReg
  a : VReg
  ty : IntTy
  lit : DWord
  deriving DecidableEq, Repr

/-- SETP of two registers (R106). -/
structure SetpRR where
  g : Guard
  pd : PReg
  a : VReg
  b : VReg
  ty : IntTy
  cmp : Cmp
  deriving DecidableEq, Repr

/-- SETP with an immediate (R106). -/
structure SetpRI where
  g : Guard
  pd : PReg
  a : VReg
  ty : IntTy
  cmp : Cmp
  imm : BitVec 29
  deriving DecidableEq, Repr

/-- SETP with a literal (R106). -/
structure SetpRL where
  g : Guard
  pd : PReg
  a : VReg
  ty : IntTy
  cmp : Cmp
  lit : DWord
  deriving DecidableEq, Repr

/-- PAND, POR, PXOR (R108). -/
structure PredRR where
  g : Guard
  pd : PReg
  pa : PReg
  na : Bool
  pb : PReg
  nb : Bool
  deriving DecidableEq, Repr

/-- PNOT (R108). -/
structure PredR where
  g : Guard
  pd : PReg
  pa : PReg
  na : Bool
  deriving DecidableEq, Repr

/-- SEL (R109). -/
structure SelOp where
  g : Guard
  d : VReg
  a : VReg
  b : VReg
  pc : PReg
  wd : CopyW
  deriving DecidableEq, Repr

/-- MOV (R109). -/
structure MovOp where
  g : Guard
  d : VReg
  a : VReg
  wd : CopyW
  deriving DecidableEq, Repr

/-- MOVI (R110). -/
structure MoviOp where
  g : Guard
  d : VReg
  w64 : Bool
  imm : BitVec 29
  deriving DecidableEq, Repr

/-- MOVL (R110). -/
structure MovlOp where
  g : Guard
  d : VReg
  w64 : Bool
  lit : DWord
  deriving DecidableEq, Repr

/-- LEA (R111). -/
structure LeaOp where
  g : Guard
  d : VReg
  a : VReg
  b : VReg
  sh : Fin 32
  sx : Bool
  deriving DecidableEq, Repr

/-! ### Floating-point forms and conversions (04) -/

/-- D, A, B under RM and FTZ (R112). -/
structure FloRR where
  g : Guard
  d : VReg
  a : VReg
  b : VReg
  ft : FTy
  rm : Rnd
  ftz : Bool
  deriving DecidableEq, Repr

/-- FFMA (R112). -/
structure FloRRR where
  g : Guard
  d : VReg
  a : VReg
  b : VReg
  c : VReg
  ft : FTy
  rm : Rnd
  ftz : Bool
  deriving DecidableEq, Repr

/-- D, A under RM and FTZ: FSQRT, FRCP, FRSQ, FEXP2, FLOG2 (R112). -/
structure FloR where
  g : Guard
  d : VReg
  a : VReg
  ft : FTy
  rm : Rnd
  ftz : Bool
  deriving DecidableEq, Repr

/-- D, A, B without rounding: FMIN, FMAX, FSGN (R112). -/
structure FloMM where
  g : Guard
  d : VReg
  a : VReg
  b : VReg
  ft : FTy
  deriving DecidableEq, Repr

/-- D, A without rounding: FABS, FNEG, FCLASS (R112). -/
structure FloS where
  g : Guard
  d : VReg
  a : VReg
  ft : FTy
  deriving DecidableEq, Repr

/-- D, A and a literal under RM and FTZ (R112). -/
structure FloRL where
  g : Guard
  d : VReg
  a : VReg
  ft : FTy
  rm : Rnd
  ftz : Bool
  lit : DWord
  deriving DecidableEq, Repr

/-- D, A and a literal without rounding (R112). -/
structure FloML where
  g : Guard
  d : VReg
  a : VReg
  ft : FTy
  lit : DWord
  deriving DecidableEq, Repr

/-- FSETP of two registers (R117). -/
structure FsetpRR where
  g : Guard
  pd : PReg
  a : VReg
  b : VReg
  ft : FTy
  cmp : FCmp
  deriving DecidableEq, Repr

/-- FSETP with a literal (R117). -/
structure FsetpRL where
  g : Guard
  pd : PReg
  a : VReg
  ft : FTy
  cmp : FCmp
  lit : DWord
  deriving DecidableEq, Repr

/-- FP64 D, A, B under RM and FTZ (R118). -/
structure DblRR where
  g : Guard
  d : VReg
  a : VReg
  b : VReg
  rm : Rnd
  ftz : Bool
  deriving DecidableEq, Repr

/-- FFMA.f64 (R118). -/
structure DblRRR where
  g : Guard
  d : VReg
  a : VReg
  b : VReg
  c : VReg
  rm : Rnd
  ftz : Bool
  deriving DecidableEq, Repr

/-- FSQRT.f64 (R118). -/
structure DblR where
  g : Guard
  d : VReg
  a : VReg
  rm : Rnd
  ftz : Bool
  deriving DecidableEq, Repr

/-- FMIN.f64, FMAX.f64 (R118). -/
structure DblMM where
  g : Guard
  d : VReg
  a : VReg
  b : VReg
  deriving DecidableEq, Repr

/-- FP64 D, A and a literal under RM and FTZ (R118). -/
structure DblRL where
  g : Guard
  d : VReg
  a : VReg
  rm : Rnd
  ftz : Bool
  lit : DWord
  deriving DecidableEq, Repr

/-- FMIN.f64, FMAX.f64 with a literal (R118). -/
structure DblML where
  g : Guard
  d : VReg
  a : VReg
  lit : DWord
  deriving DecidableEq, Repr

/-- FSETP.f64 (R118). -/
structure DsetpRR where
  g : Guard
  pd : PReg
  a : VReg
  b : VReg
  cmp : FCmp
  deriving DecidableEq, Repr

/-- FSETP.f64 with a literal (R118). -/
structure DsetpRL where
  g : Guard
  pd : PReg
  a : VReg
  cmp : FCmp
  lit : DWord
  deriving DecidableEq, Repr

/-- Scalar CVT (R120). -/
structure CvtOp where
  g : Guard
  d : VReg
  a : VReg
  st : CvtTy
  dt : CvtTy
  sat : Bool
  ftz : Bool
  rm : Rnd
  deriving DecidableEq, Repr

/-- The INT4 packing forms of CVT (R120). -/
structure CvtPk where
  g : Guard
  d : VReg
  a : VReg
  deriving DecidableEq, Repr

/-! ### Loads, stores, atomics and control (04, 06, 07) -/

/-- LD, plain global (R124). -/
structure LdOp where
  g : Guard
  d : VReg
  b : VReg
  sz : LdSz
  ofs : BitVec 21
  deriving DecidableEq, Repr

/-- ST, plain global (R124). -/
structure StOp where
  g : Guard
  d : VReg
  b : VReg
  sz : StSz
  ofs : BitVec 21
  deriving DecidableEq, Repr

/-- LD with a level or ordering; acq is the scope of .acq (R212, R213). -/
structure LdLvOp where
  g : Guard
  d : VReg
  b : VReg
  lv : Level
  sz : LdSz
  acq : Option Scope
  ofs : BitVec 21
  deriving DecidableEq, Repr

/-- ST with a level or ordering; rel is the scope of .rel (R212, R213). -/
structure StLvOp where
  g : Guard
  d : VReg
  b : VReg
  lv : Level
  sz : StSz
  rel : Option Scope
  ofs : BitVec 21
  deriving DecidableEq, Repr

/-- The operation of ATOM with its data operand A and, for .cas, its compare operand C (R216). -/
inductive AtomSel where
  | op (o : AtomOp)
  | cas (c : VReg)
  deriving DecidableEq, Repr

/-- ATOM (R216). -/
structure AtomOpnd where
  g : Guard
  d : VReg
  a : VReg
  b : VReg
  sel : AtomSel
  lv : AtomLevel
  w64 : Bool
  ord : Ord2
  sc : Scope
  deriving DecidableEq, Repr

/-- BRA (R128). -/
structure BraOp where
  g : Guard
  div : Bool
  imm : BitVec 29
  deriving DecidableEq, Repr

/-- BRX (R129). -/
structure BrxOp where
  g : Guard
  div : Bool
  a : VReg
  deriving DecidableEq, Repr

/-- SRD (R133). -/
structure SrdOp where
  g : Guard
  d : VReg
  r : SpecReg
  deriving DecidableEq, Repr

/-- SWR of %ate, the only writable special register (R135), and CALL, RET, capsule results: a guard and one register. -/
structure GuardReg where
  g : Guard
  r : VReg
  deriving DecidableEq, Repr

/-- CALL (R171). -/
structure CallOp where
  g : Guard
  d : VReg
  imm : BitVec 29
  deriving DecidableEq, Repr

/-- The modes of VOTE (R176). -/
inductive VoteMode where
  | any | all | uni
  deriving DecidableEq, Repr

/-- VOTE; mm is the member mask register (R174, R176). -/
structure VoteOp where
  g : Guard
  mode : VoteMode
  pd : PReg
  pa : PReg
  mm : Option VReg
  deriving DecidableEq, Repr

/-- BALLOT of the lane's own sweep (R176). -/
structure BallotOp where
  g : Guard
  d : VReg
  pa : PReg
  mm : Option VReg
  deriving DecidableEq, Repr

/-- BALLOT with a sweep number in B (R176). -/
structure BallotIxOp where
  g : Guard
  d : VReg
  pa : PReg
  b : VReg
  mm : Option VReg
  deriving DecidableEq, Repr

/-- The modes of SWX (R178). -/
inductive SwxMode where
  | pick | rot | flip | slide
  deriving DecidableEq, Repr

/-- The segment widths of SWX (R178). -/
inductive SwxSeg where
  | w32 | w16 | w8 | w4 | w2
  deriving DecidableEq, Repr

/-- The operand b of SWX: SI or a register (R178). -/
inductive SwxB where
  | reg (r : VReg)
  | imm (v : BitVec 5)
  deriving DecidableEq, Repr

/-- SWX (R178). -/
structure SwxOp where
  g : Guard
  mode : SwxMode
  w64 : Bool
  d : VReg
  a : VReg
  b : SwxB
  seg : SwxSeg
  mm : Option VReg
  deriving DecidableEq, Repr

/-- The partners of QXCH (R180). -/
inductive QxchMode where
  | h | v | d
  deriving DecidableEq, Repr

/-- QXCH (R180). -/
structure QxchOp where
  g : Guard
  mode : QxchMode
  w64 : Bool
  d : VReg
  a : VReg
  deriving DecidableEq, Repr

/-! ### Foyer forms (06) -/

/-- D, A, B of s-registers (R185). -/
structure SclRR where
  d : SReg
  a : SReg
  b : SReg
  deriving DecidableEq, Repr

/-- D, A and an immediate (R185). -/
structure SclRI where
  d : SReg
  a : SReg
  imm : BitVec 29
  deriving DecidableEq, Repr

/-- D, A and a literal (R185). -/
structure SclRL where
  d : SReg
  a : SReg
  lit : DWord
  deriving DecidableEq, Repr

/-- SSEL (R185). -/
structure SclSel where
  d : SReg
  a : SReg
  b : SReg
  c : SReg
  deriving DecidableEq, Repr

/-- SCMP; sgn is the .i64 relation (R186). -/
structure ScmpRR where
  d : SReg
  a : SReg
  b : SReg
  sgn : Bool
  cmp : Cmp
  deriving DecidableEq, Repr

/-- SCMP with an immediate (R186). -/
structure ScmpRI where
  d : SReg
  a : SReg
  sgn : Bool
  cmp : Cmp
  imm : BitVec 29
  deriving DecidableEq, Repr

/-- The sizes of SLD (R187). -/
inductive SldSz where
  | i8 | n8 | i16 | n16 | n32 | b64 | i32
  deriving DecidableEq, Repr

/-- The sizes of SST (R187). -/
inductive SstSz where
  | b8 | b16 | b32 | b64
  deriving DecidableEq, Repr

/-- SLD (R187). -/
structure SldOp where
  d : SReg
  b : SReg
  sz : SldSz
  ofs : BitVec 21
  deriving DecidableEq, Repr

/-- SST (R187). -/
structure SstOp where
  d : SReg
  b : SReg
  sz : SstSz
  ofs : BitVec 21
  deriving DecidableEq, Repr

/-- The operation of SATOM, with the compare register of .cas (R188). -/
inductive SAtomSel where
  | op (o : AtomOp)
  | cas (c : SReg)
  deriving DecidableEq, Repr

/-- SATOM (R188). -/
structure SatomOp where
  d : SReg
  a : SReg
  b : SReg
  sel : SAtomSel
  w64 : Bool
  ord : Ord2
  sc : Scope
  deriving DecidableEq, Repr

/-- SBZ, SBNZ (R190). -/
structure SbrOp where
  a : SReg
  imm : BitVec 29
  deriving DecidableEq, Repr

/-- SCALL (R190). -/
structure ScallOp where
  d : SReg
  imm : BitVec 29
  deriving DecidableEq, Repr

/-- FMBIND, FMSWAP (R353). -/
structure FmOp where
  d : SReg
  a : SReg
  b : SReg
  k : Fin 8
  deriving DecidableEq, Repr

/-! ### Ordering, copies, shapes (08, 09) -/

/-- FENCE, SFENCE (R242, R189). -/
structure FenceOp where
  ord : FenceOrd
  sc : Scope
  deriving DecidableEq, Repr

/-- BAR, BAR.ARV; cnt is CNT, whose limit hangs on cl (R244). -/
structure BarOp where
  bn : Fin 256
  cl : Bool
  cnt : Fin 64
  deriving DecidableEq, Repr

/-- BOARR; cnt is the count register, none for IC = 1 (R247). -/
structure BoarrOp where
  g : Guard
  d : VReg
  b : VReg
  cnt : Option VReg
  sc : Scope
  deriving DecidableEq, Repr

/-- BOWAIT (R247). -/
structure BowaitOp where
  g : Guard
  a : VReg
  b : VReg
  sc : Scope
  deriving DecidableEq, Repr

/-- TLWAIT; sys is scope .sys, else .dev (R271). -/
structure TlwaitOp where
  a : VReg
  b : VReg
  sys : Bool
  deriving DecidableEq, Repr

/-- SHLD, SHST (R254). -/
structure ShMemOp where
  g : Guard
  sh : ShReg
  b : VReg
  ofs : BitVec 21
  deriving DecidableEq, Repr

/-- The fields that SHSET writes (R255). -/
inductive ShField where
  | base | fmt | lvl | flags | ext (d : Fin 4) | str (d : Fin 4) | grp | halo | anch | spn | sbase | mbase
  deriving DecidableEq, Repr

/-- SHSET (R255). -/
structure ShsetOp where
  g : Guard
  f : ShField
  sh : ShReg
  a : VReg
  deriving DecidableEq, Repr

/-- CPY (R258); bo is the pair that holds the barrier object's address. -/
structure CpyOp where
  g : Guard
  d : ShReg
  a : ShReg
  cv : Bool
  bo : Option VReg
  deriving DecidableEq, Repr

/-- CPY.HALO (R258). -/
structure HaloOp where
  g : Guard
  d : ShReg
  a : ShReg
  hd : Fin 4
  bo : Option VReg
  deriving DecidableEq, Repr

/-- CPY.RED (R258). -/
structure RedOp where
  g : Guard
  d : ShReg
  a : ShReg
  bo : Option VReg
  deriving DecidableEq, Repr

/-- The scopes that CWAIT and MWAIT accept (R265, R336). -/
inductive WaitScope where
  | clu | die | dev | sys
  deriving DecidableEq, Repr

/-- CWAIT, MWAIT (R265, R336). -/
structure WaitOp where
  a : VReg
  sc : WaitScope
  deriving DecidableEq, Repr

/-! ### Quantisation and the Hearth (10, 11) -/

/-- QSCAN, QCVT of a logical slot (R295, R299). -/
structure QOp where
  g : Guard
  d : ShReg
  a : ShReg
  k : Fin 8
  deriving DecidableEq, Repr

/-- GS of QROT (R296). -/
inductive RotSz where
  | g32 | g64 | g128
  deriving DecidableEq, Repr

/-- QROT (R296). -/
structure QrotOp where
  g : Guard
  d : ShReg
  a : ShReg
  b : VReg
  gs : RotSz
  deriving DecidableEq, Repr

/-- QSMOOTH (R298). -/
structure QsmOp where
  g : Guard
  d : ShReg
  a : ShReg
  b : ShReg
  deriving DecidableEq, Repr

/-- XCVT; scl is the scale register (R300). -/
structure XcvtOp where
  g : Guard
  d : VReg
  a : VReg
  scl : Option VReg
  ft : FTy
  sel : Fin 4
  k : Fin 8
  deriving DecidableEq, Repr

/-- MOPEN; num is the pair that receives the operation's number (R331). -/
structure MopenOp where
  g : Guard
  num : Option VReg
  c : ShReg
  deriving DecidableEq, Repr

/-- MCLOSE (R331). -/
structure McloseOp where
  g : Guard
  num : Option VReg
  c : ShReg
  os : BitVec 7
  deriving DecidableEq, Repr

/-- The sparsity SP of R332. -/
inductive SpMode where
  | dense | sp8 | sp16 | sp24
  deriving DecidableEq, Repr

/-- The element formats of R306. -/
inductive FmFmt where
  | i8 | n8 | i4 | i16 | f16 | bf16
  | slot (k : Fin 8)
  deriving DecidableEq, Repr

/-- MMA, MDIST; np is the pass count, less 1 (R332). -/
structure MmaOp where
  g : Guard
  c : ShReg
  a : VReg
  b : ShReg
  np : Fin 16
  sa : Option ShReg
  hf : Bool
  sp : SpMode
  fm : FmFmt
  deriving DecidableEq, Repr

/-- MTOPK; k is one of 1 to 16, less 1 (R334). -/
structure MtopkOp where
  g : Guard
  d : VReg
  a : ShReg
  b : VReg
  k : Fin 16
  deriving DecidableEq, Repr

/-! ### Capsules, solve regions, system (14, 16, 17) -/

/-- CAPENTER; len is LEN − 1 (R442). -/
structure CapenterOp where
  a : VReg
  b : VReg
  len : Fin 64
  deriving DecidableEq, Repr

/-- CAPLD (R446). -/
structure CapldOp where
  w64 : Bool
  d : CReg
  b : CReg
  ofs : BitVec 21
  deriving DecidableEq, Repr

/-- CAPST (R446). -/
structure CapstOp where
  w64 : Bool
  a : CReg
  b : CReg
  deriving DecidableEq, Repr

/-- CAPCAS (R446). -/
structure CapcasOp where
  w64 : Bool
  d : CReg
  a : CReg
  b : CReg
  c : CReg
  deriving DecidableEq, Repr

/-- The binary operations of CAPOP (R446). -/
inductive CapBin where
  | add | sub | and | or | xor | shl | shr | sar
  deriving DecidableEq, Repr

/-- The operand b of CAPOP (R446). -/
inductive CapB where
  | reg (r : CReg)
  | imm (v : BitVec 9)
  deriving DecidableEq, Repr

/-- CAPOP, with .mov reading no A (R446). -/
inductive CapopOp where
  | bin (o : CapBin) (d a : CReg) (b : CapB)
  | mov (d : CReg) (b : CapB)
  deriving DecidableEq, Repr

/-- The conditions of CAPBR that compare two registers (R446). -/
inductive CapCond where
  | eq | ne | lt | ge | ltu | geu
  deriving DecidableEq, Repr

/-- CAPBR (R446); disp is the signed displacement in instructions. -/
inductive CapbrOp where
  | al (disp : BitVec 8)
  | cond (c : CapCond) (a b : CReg) (disp : BitVec 8)
  deriving DecidableEq, Repr

/-- The carried shapes of SOLVE.BEGIN and SOLVE.END, one to four (R467). -/
inductive SolveTiles where
  | one (t1 : ShReg)
  | two (t1 t2 : ShReg)
  | three (t1 t2 t3 : ShReg)
  | four (t1 t2 t3 t4 : ShReg)
  deriving DecidableEq, Repr

/-- The parameters of SOLVE.SET (R468). -/
inductive SolveParam where
  | thresh | ceil | depth | hbase
  deriving DecidableEq, Repr

/-- SOLVE.SET (R468). -/
structure SolveSetOp where
  p : SolveParam
  a : VReg
  deriving DecidableEq, Repr

/-- SOLVE.STAT, FEATQ: a pair and a selector (R469, R402). -/
structure SelRead where
  d : VReg
  sel : Fin 4
  deriving DecidableEq, Repr

/-- TRAP (R396). -/
structure TrapOp where
  a : VReg
  code : BitVec 16
  deriving DecidableEq, Repr

/-! ### Steps of the device, the host and the peers (95) -/

/-- An access from outside the module: by the host (R475) or a peer (R479, R483). A contribution is a list of cells with
the exact value m * 2^e, or a mark, of each element (R263). -/
inductive ExtAcc where
  | load (n : Nat)
  | store (bs : List Byte)
  | atomic (o : AtomOp) (w64 : Bool) (v : DWord)
  | cas (w64 : Bool) (old new : DWord)
  | contribute (elems : List (Nat × Nat × Int × Int))
  deriving DecidableEq, Repr

/-- A native region of a translation (R69, R149). -/
structure XlatRegion where
  start : Nat
  len : Nat
  foyer : Bool
  dialect : Nat
  jmap : Option (List Byte)
  deriving DecidableEq, Repr

/-- What the background translator installs: regions, and the native address of each safe point (R69). -/
structure XlatArg where
  regions : List XlatRegion
  points : List (DWord × DWord)
  deriving DecidableEq, Repr

/-- The instructions of the Renwald D96, in the order of spec/opcode_table.json: first those of the team and Foyer
streams, then the steps of the device, the host and the peers, with what each is about: fn a function, q a queue ID,
k a packet or record key, l a %launch, b a %block, t a %team, f a fragment's place in the split table. -/
inductive Instr where
  | add (x : IntRRS)
  | sub (x : IntRRS)
  | mul (x : IntRRS)
  | mulhi (x : IntRR)
  | mad (x : IntRRRS)
  | min (x : IntRR)
  | max (x : IntRR)
  | div (x : IntRR)
  | rem (x : IntRR)
  | abs (x : IntRS)
  | neg (x : IntRS)
  | addImm (x : IntRI)
  | subImm (x : IntRI)
  | mulImm (x : IntRI)
  | minImm (x : IntRI)
  | maxImm (x : IntRI)
  | addLit (x : IntRLS)
  | subLit (x : IntRLS)
  | mulLit (x : IntRLS)
  | mulhiLit (x : IntRL)
  | minLit (x : IntRL)
  | maxLit (x : IntRL)
  | divLit (x : IntRL)
  | remLit (x : IntRL)
  | and (x : IntRR)
  | or (x : IntRR)
  | xor (x : IntRR)
  | andn (x : IntRR)
  | not (x : IntR)
  | shl (x : IntRR)
  | shr (x : IntRR)
  | sar (x : IntRR)
  | rot (x : IntRR)
  | andImm (x : IntRI)
  | orImm (x : IntRI)
  | xorImm (x : IntRI)
  | andnImm (x : IntRI)
  | shlImm (x : IntRI)
  | shrImm (x : IntRI)
  | sarImm (x : IntRI)
  | rotImm (x : IntRI)
  | andLit (x : IntRL)
  | orLit (x : IntRL)
  | xorLit (x : IntRL)
  | andnLit (x : IntRL)
  | shlLit (x : IntRL)
  | shrLit (x : IntRL)
  | sarLit (x : IntRL)
  | rotLit (x : IntRL)
  | popc (x : IntR)
  | clz (x : IntR)
  | brev (x : IntR)
  | bfe (x : IntRRR)
  | bfi (x : IntRRR)
  | setp (x : SetpRR)
  | setpImm (x : SetpRI)
  | setpLit (x : SetpRL)
  | pand (x : PredRR)
  | por (x : PredRR)
  | pxor (x : PredRR)
  | pnot (x : PredR)
  | sel (x : SelOp)
  | mov (x : MovOp)
  | movi (x : MoviOp)
  | movl (x : MovlOp)
  | lea (x : LeaOp)
  | fadd (x : FloRR)
  | fsub (x : FloRR)
  | fmul (x : FloRR)
  | ffma (x : FloRRR)
  | fdiv (x : FloRR)
  | fsqrt (x : FloR)
  | frcp (x : FloR)
  | frsq (x : FloR)
  | fexp2 (x : FloR)
  | flog2 (x : FloR)
  | fmin (x : FloMM)
  | fmax (x : FloMM)
  | fabs (x : FloS)
  | fneg (x : FloS)
  | fsgn (x : FloMM)
  | fclass (x : FloS)
  | faddLit (x : FloRL)
  | fsubLit (x : FloRL)
  | fmulLit (x : FloRL)
  | fdivLit (x : FloRL)
  | fminLit (x : FloML)
  | fmaxLit (x : FloML)
  | fsetp (x : FsetpRR)
  | fsetpLit (x : FsetpRL)
  | faddF64 (x : DblRR)
  | fsubF64 (x : DblRR)
  | fmulF64 (x : DblRR)
  | ffmaF64 (x : DblRRR)
  | fdivF64 (x : DblRR)
  | fsqrtF64 (x : DblR)
  | fminF64 (x : DblMM)
  | fmaxF64 (x : DblMM)
  | faddF64Lit (x : DblRL)
  | fsubF64Lit (x : DblRL)
  | fmulF64Lit (x : DblRL)
  | fdivF64Lit (x : DblRL)
  | fminF64Lit (x : DblML)
  | fmaxF64Lit (x : DblML)
  | fsetpF64 (x : DsetpRR)
  | fsetpF64Lit (x : DsetpRL)
  | cvt (x : CvtOp)
  | cvtPackInt4 (x : CvtPk)
  | cvtUnpackInt4 (x : CvtPk)
  | ld (x : LdOp)
  | st (x : StOp)
  | ldLevel (x : LdLvOp)
  | stLevel (x : StLvOp)
  | atom (x : AtomOpnd)
  | bra (x : BraOp)
  | brx (x : BrxOp)
  | nop (x : Guard)
  | srd (x : SrdOp)
  | swr (x : GuardReg)
  | bru (imm : BitVec 29)
  | dqpop (d : VReg)
  | call (x : CallOp)
  | ret (x : GuardReg)
  | exit (x : Guard)
  | vote (x : VoteOp)
  | ballot (x : BallotOp)
  | ballotIndexed (x : BallotIxOp)
  | swx (x : SwxOp)
  | qxch (x : QxchOp)
  | regroup (pa : PReg) (imm : BitVec 29)
  | regroupLit (pa : PReg) (lit : DWord)
  | regather (imm : BitVec 29)
  | regatherLit (lit : DWord)
  | sadd (x : SclRR)
  | ssub (x : SclRR)
  | smul (x : SclRR)
  | sand (x : SclRR)
  | sor (x : SclRR)
  | sxor (x : SclRR)
  | sshl (x : SclRR)
  | sshr (x : SclRR)
  | ssar (x : SclRR)
  | smov (d : SReg) (a : SReg)
  | ssel (x : SclSel)
  | saddImm (x : SclRI)
  | ssubImm (x : SclRI)
  | smulImm (x : SclRI)
  | sandImm (x : SclRI)
  | sorImm (x : SclRI)
  | sxorImm (x : SclRI)
  | sshlImm (x : SclRI)
  | sshrImm (x : SclRI)
  | ssarImm (x : SclRI)
  | smovi (d : SReg) (imm : BitVec 29)
  | saddLit (x : SclRL)
  | ssubLit (x : SclRL)
  | smulLit (x : SclRL)
  | sandLit (x : SclRL)
  | sorLit (x : SclRL)
  | sxorLit (x : SclRL)
  | sshlLit (x : SclRL)
  | sshrLit (x : SclRL)
  | ssarLit (x : SclRL)
  | smovl (d : SReg) (lit : DWord)
  | scmp (x : ScmpRR)
  | scmpImm (x : ScmpRI)
  | sld (x : SldOp)
  | sst (x : SstOp)
  | satom (x : SatomOp)
  | sbra (imm : BitVec 29)
  | sbz (x : SbrOp)
  | sbnz (x : SbrOp)
  | scall (x : ScallOp)
  | sret (a : SReg)
  | sexit
  | sfence (x : FenceOp)
  | dqpush (a : SReg)
  | fmbind (x : FmOp)
  | fmswap (x : FmOp)
  | fmquery (d : SReg) (k : Fin 8)
  | plaunch (a : SReg)
  | pcancel (a : SReg)
  | prepeat (a : SReg)
  | fence (x : FenceOp)
  | bar (x : BarOp)
  | barArv (x : BarOp)
  | boarr (x : BoarrOp)
  | bowait (x : BowaitOp)
  | tlwait (x : TlwaitOp)
  | shld (x : ShMemOp)
  | shst (x : ShMemOp)
  | shset (x : ShsetOp)
  | cpy (x : CpyOp)
  | cpyHalo (x : HaloOp)
  | cpyRed (x : RedOp)
  | cbatch (d : VReg)
  | cwait (x : WaitOp)
  | qscan (x : QOp)
  | qrot (x : QrotOp)
  | qsmooth (x : QsmOp)
  | qcvt (x : QOp)
  | xcvtEncode (x : XcvtOp)
  | xcvtDecode (x : XcvtOp)
  | mopen (x : MopenOp)
  | mclose (x : McloseOp)
  | mma (x : MmaOp)
  | mdist (x : MmaOp)
  | mtopk (x : MtopkOp)
  | mwait (x : WaitOp)
  | mwaitAll (sc : WaitScope)
  | capenter (x : CapenterOp)
  | capexit (a : CReg)
  | capres (d : VReg)
  | capld (x : CapldOp)
  | capst (x : CapstOp)
  | capcas (x : CapcasOp)
  | capop (x : CapopOp)
  | capbr (x : CapbrOp)
  | solveBegin (x : SolveTiles)
  | solveEnd (x : SolveTiles)
  | solveSet (x : SolveSetOp)
  | solveStat (x : SelRead)
  | trap (x : TrapOp)
  | tfence
  | clrf (mask : BitVec 7)
  | brk
  | featq (x : SelRead)
  | hardwareBreakpoint
  | singleStepTrap
  | trapRecordWrite (k : Nat)
  | starvationLift (l b t f : Nat) (long : Bool)
  | joinParkRelease (l b t f : Nat)
  | foyerStarvationLift (l b : Nat)
  | safePointMove (l b : Nat) (t : Option Nat)
  | translationInstall (l : Nat) (x : XlatArg)
  | translationUninstall (l : Nat)
  | hostLinkTrain
  | powerOnReset
  | cxlReset
  | thermalTrip
  | supplyFault
  | auxSupplyLoss
  | bootVerify
  | firmwareWatchdogReset
  | watchdogCountClear
  | rcvcmd (v : DWord)
  | firmwareMailboxUpdate (addr : DWord)
  | spdmRequest (ix : Nat)
  | keyEnrol (fn : Nat) (key : List Byte)
  | keyRemove (fn ix : Nat)
  | registerWrite (fn off : Nat) (v : DWord)
  | qcreate (fn : Nat) (v : DWord)
  | qcreateAdopt (v : DWord)
  | qctlResume (fn q : Nat)
  | qctlHalt (fn q : Nat)
  | qctlDestroy (fn q : Nat)
  | queueDestroyEffect (q : Nat)
  | notify (fn q : Nat) (v : DWord)
  | classmin (c : Nat) (v : DWord)
  | porchMap
  | parserReadWidx (q : Nat)
  | packetConsume (q : Nat)
  | nopPacket (k : Nat)
  | launch (k : Nat)
  | blockResident (l die cluster core : Nat)
  | blockComplete (l b : Nat)
  | launchComplete (l : Nat)
  | launchInd (k : Nat)
  | prologueRepeat (k : Nat)
  | fencePacket (k : Nat)
  | fencePacketComplete (k : Nat)
  | signal (k : Nat)
  | timeline (k : Nat)
  | copyPacket (k : Nat)
  | format (k : Nat)
  | graph (k : Nat)
  | graphInstanceComplete (k : Nat)
  | bulkPacket (q : Nat)
  | bulkRecordWrite (q : Nat)
  | bulkPacketFault (q : Nat)
  | copyComplete (l b t batch pos : Nat)
  | copySuspend (l b t batch pos : Nat)
  | hearthGrant
  | mopenCellsAvailable (l b t n : Nat)
  | hearthPass (l b t n : Nat)
  | hearthOpComplete (l b t n : Nat)
  | hearthEngineFault (l b t n : Nat)
  | fmRequest (fn : Nat)
  | fmDrainEnd (fn : Nat)
  | fmReconfigDone (fn : Nat)
  | solveActivationCopy (l b : Nat)
  | solveEvaluation (l b : Nat)
  | solveDecision (l b : Nat)
  | solveEngineFault (l b : Nat)
  | resume (fn : Nat) (v : DWord)
  | term (fn : Nat) (v : DWord)
  | ctxStop (l : Nat)
  | ctxEvict (l : Nat)
  | ctxResume (l : Nat)
  | ctxDetach (l : Nat)
  | ctxRestore
  | ctxQuiesce (fn : Nat)
  | ctxstatRead
  | tlbInvPage (fn asid : Nat)
  | tlbInvAsid (fn asid : Nat)
  | tlbInvFunc (fn : Nat)
  | tlbstatRead (fn : Nat)
  | dirtyLogRearm (v : Nat) (isEnd : Bool) (x : DWord)
  | peerPortTrained (port dev wlen : Nat)
  | peerWindowWrite (dev : Nat) (isLen : Bool) (v : DWord)
  | peerPortTimeout (port : Nat)
  | flitReplay (port : Nat)
  | inboundPeerAccess (dev : Nat) (o : Nat) (acc : ExtAcc)
  | hostMemoryAccess (pa : Nat) (acc : ExtAcc)
  | illegalInstruction (c : Cause)
  | instructionFetchFault (c : Cause) (addr : DWord)
  | resultWriteBack (l b : Nat) (t : Option Nat) (k : Nat)
  | parserPoll (q : Nat)
  | tlbInvalidationComplete (fn : Nat)
  | peerPortLoss (port : Nat)
  | recoveryComplete
  | functionLevelReset (fn : Nat)
  | functionCreate (fn : Nat)
  | cxlCacheSnoop (line : Nat) (inv : Bool)
  deriving DecidableEq, Repr

end Sys2Proof
end

