-- ==== Sys2Proof/WellFormed.lean ====
section
/-!
DEFINITION. WellFormed.lean: the illegal operand combinations of order 5 of R53, which raise 0x03: those that the
word alone decides (Instr.wf) and those that the team's register count decides besides (Instr.okFor).
-/
namespace Sys2Proof

/-- Whether a type occupies a pair (R94). -/
def IntTy.wide : IntTy → Bool
  | .i64 | .n64 => true
  | _ => false

/-- Whether a type is signed (R93). -/
def IntTy.signed : IntTy → Bool
  | .i32 | .i16 | .i8 | .i64 => true
  | _ => false

/-- Whether a CVT type is a floating-point one (R120). -/
def CvtTy.isFloat : CvtTy → Bool
  | .f16 | .bf16 | .f32 | .f64 => true
  | _ => false

/-- Whether a CVT type occupies a pair (R121). -/
def CvtTy.wide : CvtTy → Bool
  | .i64 | .n64 | .f64 => true
  | _ => false

/-- Vector registers that an operand names: the first, how many, and the alignment of the first (R18, R19). -/
structure VOp where
  reg   : Nat
  count : Nat
  align : Nat
  deriving DecidableEq, Repr

/-- A single register. -/
def v1 (r : VReg) : VOp := ⟨r.val, 1, 1⟩
/-- The even register of a pair (R19). -/
def v2 (r : VReg) : VOp := ⟨r.val, 2, 2⟩
/-- The first register of a quadruple (R19). -/
def v4 (r : VReg) : VOp := ⟨r.val, 4, 4⟩
/-- A pair where the flag is set, else a single register. -/
def vw (wide : Bool) (r : VReg) : VOp := if wide then v2 r else v1 r

/-- The registers of a width WD (R109). -/
def CopyW.vop (w : CopyW) (r : VReg) : VOp :=
  match w with
  | .w32 => v1 r
  | .w64 => v2 r
  | .w128 => v4 r

/-- The destination registers of a load size (R124). -/
def LdSz.vop (s : LdSz) (r : VReg) : VOp :=
  match s with
  | .b64 => v2 r
  | .b128 => v4 r
  | _ => v1 r

/-- The data registers of a store size (R124). -/
def StSz.vop (s : StSz) (r : VReg) : VOp :=
  match s with
  | .b64 => v2 r
  | .b128 => v4 r
  | _ => v1 r

/-- An operand that a form may lack. -/
def vopt (f : VReg → VOp) : Option VReg → List VOp
  | none => []
  | some r => [f r]

/-- The source registers of SHSET by field (R255). -/
def ShField.vop (f : ShField) (r : VReg) : VOp :=
  match f with
  | .base | .str _ | .sbase | .mbase => v2 r
  | _ => v1 r

/-- Registers of operand A in one pass, for a format whose code alone decides it (R306). -/
def FmFmt.rppHard (f : FmFmt) (sparse : Bool) : Option Nat :=
  match f with
  | .i8 | .n8 | .i4 => some (if sparse then 16 else 4)
  | .i16 | .f16 | .bf16 => some 4
  | .slot _ => none

/-- Whether a sparse form is asked for. -/
def SpMode.sparse : SpMode → Bool
  | .dense => false
  | _ => true

/-- The registers of operand A of MMA and MDIST that the word decides (R307, R333). -/
def MmaOp.aVop (x : MmaOp) : VOp :=
  match x.fm.rppHard x.sp.sparse with
  | some r => ⟨x.a.val, (x.np.val + 1) * r, 4⟩
  | none => ⟨x.a.val, 4, 4⟩

/-- Every vector register operand of an instruction (R18, R19); a step of the device names none. -/
def Instr.vops : Instr → List VOp
  | .add x | .sub x | .mul x => [vw x.ty.wide x.d, vw x.ty.wide x.a, vw x.ty.wide x.b]
  | .mulhi x | .min x | .max x | .div x | .rem x | .and x | .or x | .xor x | .andn x =>
    [vw x.ty.wide x.d, vw x.ty.wide x.a, vw x.ty.wide x.b]
  | .shl x | .shr x | .sar x | .rot x => [vw x.ty.wide x.d, vw x.ty.wide x.a, v1 x.b]
  | .mad x => [vw x.ty.wide x.d, vw x.ty.wide x.a, vw x.ty.wide x.b, vw x.ty.wide x.c]
  | .abs x | .neg x => [vw x.ty.wide x.d, vw x.ty.wide x.a]
  | .addImm x | .subImm x | .mulImm x | .minImm x | .maxImm x | .andImm x | .orImm x | .xorImm x | .andnImm x
  | .shlImm x | .shrImm x | .sarImm x | .rotImm x => [vw x.ty.wide x.d, vw x.ty.wide x.a]
  | .addLit x | .subLit x | .mulLit x => [vw x.ty.wide x.d, vw x.ty.wide x.a]
  | .mulhiLit x | .minLit x | .maxLit x | .divLit x | .remLit x | .andLit x | .orLit x | .xorLit x | .andnLit x
  | .shlLit x | .shrLit x | .sarLit x | .rotLit x => [vw x.ty.wide x.d, vw x.ty.wide x.a]
  | .not x | .brev x => [vw x.ty.wide x.d, vw x.ty.wide x.a]
  | .popc x | .clz x => [v1 x.d, vw x.ty.wide x.a]
  | .bfe x | .bfi x => [vw x.ty.wide x.d, vw x.ty.wide x.a, v1 x.b, v1 x.c]
  | .setp x => [vw x.ty.wide x.a, vw x.ty.wide x.b]
  | .setpImm x => [vw x.ty.wide x.a]
  | .setpLit x => [vw x.ty.wide x.a]
  | .sel x => [x.wd.vop x.d, x.wd.vop x.a, x.wd.vop x.b]
  | .mov x => [x.wd.vop x.d, x.wd.vop x.a]
  | .movi x => [vw x.w64 x.d]
  | .movl x => [vw x.w64 x.d]
  | .lea x => [v2 x.d, v2 x.a, v1 x.b]
  | .fadd x | .fsub x | .fmul x | .fdiv x => [v1 x.d, v1 x.a, v1 x.b]
  | .ffma x => [v1 x.d, v1 x.a, v1 x.b, v1 x.c]
  | .fsqrt x | .frcp x | .frsq x | .fexp2 x | .flog2 x => [v1 x.d, v1 x.a]
  | .fmin x | .fmax x | .fsgn x => [v1 x.d, v1 x.a, v1 x.b]
  | .fabs x | .fneg x | .fclass x => [v1 x.d, v1 x.a]
  | .faddLit x | .fsubLit x | .fmulLit x | .fdivLit x => [v1 x.d, v1 x.a]
  | .fminLit x | .fmaxLit x => [v1 x.d, v1 x.a]
  | .fsetp x => [v1 x.a, v1 x.b]
  | .fsetpLit x => [v1 x.a]
  | .faddF64 x | .fsubF64 x | .fmulF64 x | .fdivF64 x => [v2 x.d, v2 x.a, v2 x.b]
  | .ffmaF64 x => [v2 x.d, v2 x.a, v2 x.b, v2 x.c]
  | .fsqrtF64 x => [v2 x.d, v2 x.a]
  | .fminF64 x | .fmaxF64 x => [v2 x.d, v2 x.a, v2 x.b]
  | .faddF64Lit x | .fsubF64Lit x | .fmulF64Lit x | .fdivF64Lit x => [v2 x.d, v2 x.a]
  | .fminF64Lit x | .fmaxF64Lit x => [v2 x.d, v2 x.a]
  | .fsetpF64 x => [v2 x.a, v2 x.b]
  | .fsetpF64Lit x => [v2 x.a]
  | .cvt x => [vw x.dt.wide x.d, vw x.st.wide x.a]
  | .cvtPackInt4 x => [v1 x.d, v2 x.a]
  | .cvtUnpackInt4 x => [v2 x.d, v1 x.a]
  | .ld x => [x.sz.vop x.d, v2 x.b]
  | .st x => [x.sz.vop x.d, v2 x.b]
  | .ldLevel x => [x.sz.vop x.d, vw (x.lv == .global) x.b]
  | .stLevel x => [x.sz.vop x.d, vw (x.lv == .global) x.b]
  | .atom x =>
    [vw x.w64 x.d, vw x.w64 x.a, vw (x.lv == .global) x.b]
      ++ (match x.sel with
          | .op _ => []
          | .cas c => [vw x.w64 c])
  | .brx x => [v2 x.a]
  | .srd x => [vw (x.r == .trapres) x.d]
  | .swr x => [v1 x.r]
  | .dqpop d => [v2 d]
  | .call x => [v2 x.d]
  | .ret x => [v2 x.r]
  | .vote x => vopt v1 x.mm
  | .ballot x => v1 x.d :: vopt v1 x.mm
  | .ballotIndexed x => v1 x.d :: v1 x.b :: vopt v1 x.mm
  | .swx x =>
    vw x.w64 x.d :: vw x.w64 x.a ::
      ((match x.b with
        | .reg r => [v1 r]
        | .imm _ => []) ++ vopt v1 x.mm)
  | .qxch x => [vw x.w64 x.d, vw x.w64 x.a]
  | .boarr x => v1 x.d :: v2 x.b :: vopt v1 x.cnt
  | .bowait x => [v1 x.a, v2 x.b]
  | .tlwait x => [v1 x.a, v2 x.b]
  | .shld x => [v2 x.b]
  | .shst x => [v2 x.b]
  | .shset x => [x.f.vop x.a]
  | .cpy x => vopt v2 x.bo
  | .cpyHalo x => vopt v2 x.bo
  | .cpyRed x => vopt v2 x.bo
  | .cbatch d => [v2 d]
  | .cwait x => [v2 x.a]
  | .qrot x =>
    [match x.gs with
     | .g32 => v1 x.b
     | .g64 => v2 x.b
     | .g128 => v4 x.b]
  | .xcvtEncode x | .xcvtDecode x => v1 x.d :: v1 x.a :: vopt v1 x.scl
  | .mopen x => vopt v2 x.num
  | .mclose x => vopt v2 x.num
  | .mma x | .mdist x => [x.aVop]
  | .mtopk x => [⟨x.d.val, x.k.val + 1, 1⟩, v1 x.b]
  | .mwait x => [v2 x.a]
  | .capenter x => [v4 x.a, v2 x.b]
  | .capres d => [v4 d]
  | .solveSet x => [v1 x.a]
  | .solveStat x => [v2 x.d]
  | .trap x => [v4 x.a]
  | .featq x => [v2 x.d]
  | _ => []

/-- The modifiers that CVT allows with its types (R121). -/
def CvtOp.modsOk (x : CvtOp) : Bool :=
  (x.rm == .rn || x.st.isFloat || x.dt.isFloat) && (!x.ftz || x.st.isFloat)
    && (!x.sat || (!x.st.isFloat && !x.dt.isFloat))

/-- A CNT within its limit (R244). -/
def BarOp.cntOk (x : BarOp) : Bool := x.cnt.val ≤ (if x.cl then 32 else 8)

/-- Whether a format is a hard one of two bytes, which no sparse form takes (R306). -/
def FmFmt.hard16 : FmFmt → Bool
  | .i16 | .f16 | .bf16 => true
  | _ => false

/-- The combinations beyond register numbers that the word decides (R99, R121, R244, R333, R447). -/
def Instr.formOk : Instr → Bool
  | .abs x => x.ty.signed
  | .cvt x => x.modsOk
  | .bar x | .barArv x => x.cntOk
  | .mma x => !(x.sp.sparse && x.fm.hard16)
  | .mdist x => !x.sp.sparse
  | .capcas x => x.d != x.b
  | _ => true

/-- The word decides no 0x03 (order 5 of R53). -/
def Instr.wf (i : Instr) : Bool :=
  i.vops.all (fun o => o.reg % o.align == 0) && i.formOk

/-- The registers of a REGROUP or REGATHER mask lie below n (R181). -/
def maskBelow (n : Nat) (mask : DWord) : Bool :=
  (List.range 64).all (fun k => !mask.getLsbD k || 4 * k < n)

/-- The mask of REGROUP and REGATHER: 64 bits, from the immediate or the literal (R181). -/
def Instr.groupMask : Instr → Option DWord
  | .regroup _ imm => some (imm.signExtend 64)
  | .regroupLit _ lit => some lit
  | .regather imm => some (imm.signExtend 64)
  | .regatherLit lit => some lit
  | _ => none

/-- No 0x03 of order 5 in a team of n vector registers (R18, R19, R53, R181). -/
def Instr.okFor (n : Nat) (i : Instr) : Bool :=
  i.wf && i.vops.all (fun o => o.reg + o.count ≤ n)
    && (match i.groupMask with
        | none => true
        | some m => maskBelow n m)

end Sys2Proof
end

