-- ==== Sys2Proof/Decode.lean ====
section
/-!
DEFINITION. Decode.lean: the decoder of core words (R45 to R51 and the encoding tables of each chapter), total on
any word and any literal, and the encoder written from the same tables. A word is a natural number below 2^64,
taken apart by division, so that arithmetic decides what a field holds.
-/
namespace Sys2Proof

/-! ### The fields of a word (R45, R46) -/

/-- The fields of a core word; b, c, x, imm and ofs are overlapping views of bits [28:0] (R46). -/
structure Fields where
  op : Nat
  g : Nat
  gn : Nat
  fn : Nat
  d : Nat
  a : Nat
  b : Nat
  c : Nat
  x : Nat
  imm : Nat
  ofs : Nat
  deriving DecidableEq, Repr

/-- Take a word apart (R45, R46). -/
def Fields.ofWord (w : Nat) : Fields where
  op := w / 2 ^ 56 % 256
  g := w / 2 ^ 52 % 16
  gn := w / 2 ^ 51 % 2
  fn := w / 2 ^ 45 % 64
  d := w / 2 ^ 37 % 256
  a := w / 2 ^ 29 % 256
  b := w / 2 ^ 21 % 256
  c := w / 2 ^ 13 % 256
  x := w % 2 ^ 13
  imm := w % 2 ^ 29
  ofs := w % 2 ^ 21

/-- Register number of an 8-bit field. -/
def vreg (n : Nat) : VReg := Fin.ofNat 256 n
/-- Predicate number of a field whose upper bits are zero. -/
def preg (n : Nat) : PReg := Fin.ofNat 16 n
/-- s-register number (R48). -/
def sreg (n : Nat) : SReg := Fin.ofNat 64 n
/-- Shape or capsule register number. -/
def reg16 (n : Nat) : Fin 16 := Fin.ofNat 16 n
/-- A one-bit field. -/
def flag (n : Nat) : Bool := n % 2 == 1
/-- Bits [lo+w-1:lo] of a number. -/
def bits (n lo w : Nat) : Nat := n / 2 ^ lo % 2 ^ w

/-- The guard of a word (R45). -/
def Fields.guard (f : Fields) : Guard := ⟨preg f.g, flag f.gn⟩

/-! ### Codes of the small fields -/

/-- IT of R93. -/
def IntTy.ofCode : Nat → IntTy
  | 0 => .i32 | 1 => .n32 | 2 => .i16 | 3 => .n16 | 4 => .i8 | 5 => .n8 | 6 => .i64 | _ => .n64
/-- IT of R93. -/
def IntTy.code : IntTy → Nat
  | .i32 => 0 | .n32 => 1 | .i16 => 2 | .n16 => 3 | .i8 => 4 | .n8 => 5 | .i64 => 6 | .n64 => 7

/-- The relation codes of R106. -/
def Cmp.ofCode : Nat → Option Cmp
  | 0 => some .eq | 1 => some .ne | 2 => some .lt | 3 => some .le | 4 => some .gt | 5 => some .ge | _ => none
/-- The relation codes of R106. -/
def Cmp.code : Cmp → Nat
  | .eq => 0 | .ne => 1 | .lt => 2 | .le => 3 | .gt => 4 | .ge => 5

/-- The relation codes of R117. -/
def FCmp.ofCode : Nat → Option FCmp
  | 0 => some .eq | 1 => some .ne | 2 => some .lt | 3 => some .le | 4 => some .gt | 5 => some .ge
  | 6 => some .equ | 7 => some .neu | 8 => some .ltu | 9 => some .leu | 10 => some .gtu | 11 => some .geu
  | 12 => some .num | 13 => some .nan | _ => none
/-- The relation codes of R117. -/
def FCmp.code : FCmp → Nat
  | .eq => 0 | .ne => 1 | .lt => 2 | .le => 3 | .gt => 4 | .ge => 5 | .equ => 6 | .neu => 7 | .ltu => 8
  | .leu => 9 | .gtu => 10 | .geu => 11 | .num => 12 | .nan => 13

/-- FT of R112; 3 is illegal. -/
def FTy.ofCode : Nat → Option FTy
  | 0 => some .f32 | 1 => some .f16 | 2 => some .bf16 | _ => none
/-- FT of R112. -/
def FTy.code : FTy → Nat
  | .f32 => 0 | .f16 => 1 | .bf16 => 2

/-- RM of R46. -/
def Rnd.ofCode : Nat → Rnd
  | 0 => .rn | 1 => .rz | 2 => .rd | _ => .ru
/-- RM of R46. -/
def Rnd.code : Rnd → Nat
  | .rn => 0 | .rz => 1 | .rd => 2 | .ru => 3

/-- The type codes of CVT (R120). -/
def CvtTy.ofCode : Nat → Option CvtTy
  | 0 => some .i8 | 1 => some .n8 | 2 => some .i16 | 3 => some .n16 | 4 => some .i32 | 5 => some .n32
  | 6 => some .i64 | 7 => some .n64 | 8 => some .f16 | 9 => some .bf16 | 10 => some .f32 | 11 => some .f64
  | _ => none
/-- The type codes of CVT (R120). -/
def CvtTy.code : CvtTy → Nat
  | .i8 => 0 | .n8 => 1 | .i16 => 2 | .n16 => 3 | .i32 => 4 | .n32 => 5 | .i64 => 6 | .n64 => 7
  | .f16 => 8 | .bf16 => 9 | .f32 => 10 | .f64 => 11

/-- WD of R109; 3 is illegal. -/
def CopyW.ofCode : Nat → Option CopyW
  | 0 => some .w32 | 1 => some .w64 | 2 => some .w128 | _ => none
/-- WD of R109. -/
def CopyW.code : CopyW → Nat
  | .w32 => 0 | .w64 => 1 | .w128 => 2

/-- The size codes of loads (R124). -/
def LdSz.ofCode : Nat → Option LdSz
  | 0 => some .i8 | 1 => some .n8 | 2 => some .i16 | 3 => some .n16 | 4 => some .b32 | 5 => some .b64
  | 6 => some .b128 | _ => none
/-- The size codes of loads (R124). -/
def LdSz.code : LdSz → Nat
  | .i8 => 0 | .n8 => 1 | .i16 => 2 | .n16 => 3 | .b32 => 4 | .b64 => 5 | .b128 => 6

/-- The size codes of stores (R124). -/
def StSz.ofCode : Nat → Option StSz
  | 1 => some .b8 | 3 => some .b16 | 4 => some .b32 | 5 => some .b64 | 6 => some .b128 | _ => none
/-- The size codes of stores (R124). -/
def StSz.code : StSz → Nat
  | .b8 => 1 | .b16 => 3 | .b32 => 4 | .b64 => 5 | .b128 => 6

/-- The scope codes of R212; 6 and 7 are illegal. -/
def Scope.ofCode : Nat → Option Scope
  | 0 => some .team | 1 => some .core | 2 => some .clu | 3 => some .die | 4 => some .dev | 5 => some .sys | _ => none
/-- The scope codes of R212. -/
def Scope.code : Scope → Nat
  | .team => 0 | .core => 1 | .clu => 2 | .die => 3 | .dev => 4 | .sys => 5

/-- ORD of R188. -/
def Ord2.ofCode : Nat → Ord2
  | 0 => .none | 1 => .acq | 2 => .rel | _ => .ar
/-- ORD of R188. -/
def Ord2.code : Ord2 → Nat
  | .none => 0 | .acq => 1 | .rel => 2 | .ar => 3

/-- ORD of R242; 0 is illegal. -/
def FenceOrd.ofCode : Nat → Option FenceOrd
  | 1 => some .acq | 2 => some .rel | 3 => some .ar | _ => none
/-- ORD of R242. -/
def FenceOrd.code : FenceOrd → Nat
  | .acq => 1 | .rel => 2 | .ar => 3

/-- The scopes of CWAIT and MWAIT; 0, 1, 6 and 7 are illegal (R265). -/
def WaitScope.ofCode : Nat → Option WaitScope
  | 2 => some .clu | 3 => some .die | 4 => some .dev | 5 => some .sys | _ => none
/-- The scopes of CWAIT and MWAIT (R265). -/
def WaitScope.code : WaitScope → Nat
  | .clu => 2 | .die => 3 | .dev => 4 | .sys => 5

/-- LV of R194; 5 to 7 are unassigned. -/
def Level.ofCode : Nat → Option Level
  | 0 => some .global | 1 => some .slice | 2 => some .scratch | 3 => some .cluster | 4 => some .pantry | _ => none
/-- LV of R194. -/
def Level.code : Level → Nat
  | .global => 0 | .slice => 1 | .scratch => 2 | .cluster => 3 | .pantry => 4

/-- LV of R216; 1 and 5 to 7 are illegal. -/
def AtomLevel.ofCode : Nat → Option AtomLevel
  | 0 => some .global | 2 => some .scratch | 3 => some .cluster | 4 => some .pantry | _ => none
/-- LV of R216. -/
def AtomLevel.code : AtomLevel → Nat
  | .global => 0 | .scratch => 2 | .cluster => 3 | .pantry => 4

/-- FN of an atomic without compare operand (R188). -/
def AtomOp.ofCode (fn : Nat) (sg : Bool) : Option AtomOp :=
  match fn with
  | 0 => some .add | 1 => some (.min sg) | 2 => some (.max sg) | 3 => some .and | 4 => some .or | 5 => some .xor
  | 6 => some .exch | _ => none
/-- FN of an atomic (R188). -/
def AtomOp.code : AtomOp → Nat
  | .add => 0 | .min _ => 1 | .max _ => 2 | .and => 3 | .or => 4 | .xor => 5 | .exch => 6
/-- SG of an atomic (R188). -/
def AtomOp.sg : AtomOp → Nat
  | .min true | .max true => 1
  | _ => 0

/-- The special register indexes of R21; a reserved index is illegal. -/
def SpecReg.ofCode (n : Nat) : Option SpecReg :=
  match n with
  | 0 => some .lid | 1 => some .seat | 2 => some .sweep | 3 => some .team | 4 => some .block | 5 => some .launch
  | 6 => some .core | 7 => some .cluster | 8 => some .die | 9 => some .asf | 10 => some .ate | 11 => some .trapres
  | _ => if n / 16 = 1 then some (.occ (reg16 n)) else none
/-- The special register indexes of R21. -/
def SpecReg.code : SpecReg → Nat
  | .lid => 0 | .seat => 1 | .sweep => 2 | .team => 3 | .block => 4 | .launch => 5 | .core => 6 | .cluster => 7
  | .die => 8 | .asf => 9 | .ate => 10 | .trapres => 11 | .occ k => 16 + k.val

/-- SEG of R178; 5 to 7 are illegal. -/
def SwxSeg.ofCode : Nat → Option SwxSeg
  | 0 => some .w32 | 1 => some .w16 | 2 => some .w8 | 3 => some .w4 | 4 => some .w2 | _ => none
/-- SEG of R178. -/
def SwxSeg.code : SwxSeg → Nat
  | .w32 => 0 | .w16 => 1 | .w8 => 2 | .w4 => 3 | .w2 => 4

/-- The modes of SWX in FN[1:0] (R178). -/
def SwxMode.ofCode : Nat → SwxMode
  | 0 => .pick | 1 => .rot | 2 => .flip | _ => .slide
/-- The modes of SWX (R178). -/
def SwxMode.code : SwxMode → Nat
  | .pick => 0 | .rot => 1 | .flip => 2 | .slide => 3

/-- The partners of QXCH in FN[1:0] (R180). -/
def QxchMode.ofCode : Nat → Option QxchMode
  | 0 => some .h | 1 => some .v | 2 => some .d | _ => none
/-- The partners of QXCH (R180). -/
def QxchMode.code : QxchMode → Nat
  | .h => 0 | .v => 1 | .d => 2

/-- The size codes of SLD (R187). -/
def SldSz.ofCode : Nat → Option SldSz
  | 0 => some .i8 | 1 => some .n8 | 2 => some .i16 | 3 => some .n16 | 4 => some .n32 | 5 => some .b64
  | 6 => some .i32 | _ => none
/-- The size codes of SLD (R187). -/
def SldSz.code : SldSz → Nat
  | .i8 => 0 | .n8 => 1 | .i16 => 2 | .n16 => 3 | .n32 => 4 | .b64 => 5 | .i32 => 6

/-- The size codes of SST (R187). -/
def SstSz.ofCode : Nat → Option SstSz
  | 1 => some .b8 | 3 => some .b16 | 4 => some .b32 | 5 => some .b64 | _ => none
/-- The size codes of SST (R187). -/
def SstSz.code : SstSz → Nat
  | .b8 => 1 | .b16 => 3 | .b32 => 4 | .b64 => 5

/-- The fields of SHSET by FN (R255). -/
def ShField.ofCode : Nat → Option ShField
  | 0 => some .base | 1 => some .fmt | 2 => some .lvl | 3 => some .flags
  | 4 => some (.ext 0) | 5 => some (.ext 1) | 6 => some (.ext 2) | 7 => some (.ext 3)
  | 8 => some (.str 0) | 9 => some (.str 1) | 10 => some (.str 2) | 11 => some (.str 3)
  | 12 => some .grp | 13 => some .halo | 14 => some .anch | 15 => some .spn | 16 => some .sbase | 17 => some .mbase
  | _ => none
/-- The fields of SHSET by FN (R255). -/
def ShField.code : ShField → Nat
  | .base => 0 | .fmt => 1 | .lvl => 2 | .flags => 3 | .ext d => 4 + d.val | .str d => 8 + d.val
  | .grp => 12 | .halo => 13 | .anch => 14 | .spn => 15 | .sbase => 16 | .mbase => 17

/-- GS of R296; 0 is illegal. -/
def RotSz.ofCode : Nat → Option RotSz
  | 1 => some .g32 | 2 => some .g64 | 3 => some .g128 | _ => none
/-- GS of R296. -/
def RotSz.code : RotSz → Nat
  | .g32 => 1 | .g64 => 2 | .g128 => 3

/-- SP of R332. -/
def SpMode.ofCode : Nat → SpMode
  | 0 => .dense | 1 => .sp8 | 2 => .sp16 | _ => .sp24
/-- SP of R332. -/
def SpMode.code : SpMode → Nat
  | .dense => 0 | .sp8 => 1 | .sp16 => 2 | .sp24 => 3

/-- FM of R306; every other value is illegal. -/
def FmFmt.ofCode (n : Nat) : Option FmFmt :=
  match n with
  | 0 => some .i8 | 1 => some .n8 | 2 => some .i4 | 3 => some .i16 | 5 => some .f16 | 6 => some .bf16
  | _ => if n / 8 = 2 then some (.slot (Fin.ofNat 8 n)) else none
/-- FM of R306. -/
def FmFmt.code : FmFmt → Nat
  | .i8 => 0 | .n8 => 1 | .i4 => 2 | .i16 => 3 | .f16 => 5 | .bf16 => 6 | .slot k => 16 + k.val

/-- FN of CAPOP without .mov (R446). -/
def CapBin.ofCode : Nat → Option CapBin
  | 0 => some .add | 1 => some .sub | 2 => some .and | 3 => some .or | 4 => some .xor | 5 => some .shl
  | 6 => some .shr | 7 => some .sar | _ => none
/-- FN of CAPOP (R446). -/
def CapBin.code : CapBin → Nat
  | .add => 0 | .sub => 1 | .and => 2 | .or => 3 | .xor => 4 | .shl => 5 | .shr => 6 | .sar => 7

/-- FN of CAPBR without .al (R446). -/
def CapCond.ofCode : Nat → Option CapCond
  | 1 => some .eq | 2 => some .ne | 3 => some .lt | 4 => some .ge | 5 => some .ltu | 6 => some .geu | _ => none
/-- FN of CAPBR (R446). -/
def CapCond.code : CapCond → Nat
  | .eq => 1 | .ne => 2 | .lt => 3 | .ge => 4 | .ltu => 5 | .geu => 6

/-- FN of SOLVE.SET (R468). -/
def SolveParam.ofCode : Nat → Option SolveParam
  | 0 => some .thresh | 1 => some .ceil | 2 => some .depth | 3 => some .hbase | _ => none
/-- FN of SOLVE.SET (R468). -/
def SolveParam.code : SolveParam → Nat
  | .thresh => 0 | .ceil => 1 | .depth => 2 | .hbase => 3

/-! ### Decoding -/

/-- Unassigned opcode or FN, or the wrong stream: cause 0x01 (R51). -/
def bad1 : Except Cause Instr := .error 0x01#8
/-- An illegal operand combination: cause 0x03 (R51). -/
def bad3 : Except Cause Instr := .error 0x03#8

/-- The reserved fields must be zero, else 0x02 (order 4 of R53). -/
def rsv (l : List Nat) (k : Except Cause Instr) : Except Cause Instr :=
  if l.all (· == 0) then k else .error 0x02#8

/-- A field that holds no legal code raises 0x03 (order 5 of R53). -/
def legal {α : Type} (o : Option α) (k : α → Except Cause Instr) : Except Cause Instr :=
  match o with
  | some v => k v
  | none => bad3

/-- An FN that holds no assigned code raises 0x01 (order 3 of R53). -/
def assigned {α : Type} (o : Option α) (k : α → Except Cause Instr) : Except Cause Instr :=
  match o with
  | some v => k v
  | none => bad1

/-- IT of X[5:3]. -/
def Fields.it (f : Fields) : IntTy := IntTy.ofCode (bits f.x 3 3)
/-- The signed 29-bit immediate. -/
def Fields.immv (f : Fields) : BitVec 29 := BitVec.ofNat 29 f.imm
/-- The signed 21-bit offset. -/
def Fields.ofsv (f : Fields) : BitVec 21 := BitVec.ofNat 21 f.ofs
/-- The bits of X beside IT and SAT. -/
def Fields.xInt (f : Fields) : List Nat := [bits f.x 7 6, bits f.x 0 3]

/-- Opcode 0x01 (R98, R99). -/
def decInt (f : Fields) : Except Cause Instr :=
  let g := f.guard; let d := vreg f.d; let a := vreg f.a; let b := vreg f.b; let ty := f.it
  let sat := flag (bits f.x 6 1)
  let rrs (c : IntRRS → Instr) := rsv (f.c :: f.xInt) (.ok (c ⟨g, d, a, b, ty, sat⟩))
  let rr (c : IntRR → Instr) := rsv (f.c :: f.xInt) (if sat then bad3 else .ok (c ⟨g, d, a, b, ty⟩))
  let rs (c : IntRS → Instr) := rsv (f.b :: f.c :: f.xInt) (.ok (c ⟨g, d, a, ty, sat⟩))
  match f.fn with
  | 0 => rrs .add
  | 1 => rrs .sub
  | 2 => rrs .mul
  | 3 => rr .mulhi
  | 4 => rsv f.xInt (.ok (.mad ⟨g, d, a, b, vreg f.c, ty, sat⟩))
  | 5 => rr .min
  | 6 => rr .max
  | 7 => rr .div
  | 8 => rr .rem
  | 9 => rs .abs
  | 10 => rs .neg
  | _ => bad1

/-- Opcode 0x02 (R98). -/
def decIntI (f : Fields) : Except Cause Instr :=
  let x : IntRI := ⟨f.guard, vreg f.d, vreg f.a, IntTy.ofCode (bits f.fn 3 3), f.immv⟩
  match bits f.fn 0 3 with
  | 0 => .ok (.addImm x)
  | 1 => .ok (.subImm x)
  | 2 => .ok (.mulImm x)
  | 3 => .ok (.minImm x)
  | 4 => .ok (.maxImm x)
  | _ => bad1

/-- Opcode 0x03 (R98, R99). -/
def decIntL (f : Fields) (lit : DWord) : Except Cause Instr :=
  let sat := flag (bits f.x 6 1)
  let rs (c : IntRLS → Instr) :=
    rsv (f.b :: f.c :: f.xInt) (.ok (c ⟨f.guard, vreg f.d, vreg f.a, f.it, sat, lit⟩))
  let r (c : IntRL → Instr) :=
    rsv (f.b :: f.c :: f.xInt) (if sat then bad3 else .ok (c ⟨f.guard, vreg f.d, vreg f.a, f.it, lit⟩))
  match f.fn with
  | 0 => rs .addLit
  | 1 => rs .subLit
  | 2 => rs .mulLit
  | 3 => r .mulhiLit
  | 5 => r .minLit
  | 6 => r .maxLit
  | 7 => r .divLit
  | 8 => r .remLit
  | _ => bad1

/-- The reserved bits of X beside IT alone. -/
def Fields.xIt (f : Fields) : List Nat := [bits f.x 6 7, bits f.x 0 3]

/-- Opcode 0x04 (R102). -/
def decLog (f : Fields) : Except Cause Instr :=
  let rr (c : IntRR → Instr) :=
    rsv (f.c :: f.xIt) (.ok (c ⟨f.guard, vreg f.d, vreg f.a, vreg f.b, f.it⟩))
  match f.fn with
  | 0 => rr .and
  | 1 => rr .or
  | 2 => rr .xor
  | 3 => rr .andn
  | 4 => rsv (f.b :: f.c :: f.xIt) (.ok (.not ⟨f.guard, vreg f.d, vreg f.a, f.it⟩))
  | 5 => rr .shl
  | 6 => rr .shr
  | 7 => rr .sar
  | 8 => rr .rot
  | _ => bad1

/-- Opcode 0x05 (R102). -/
def decLogI (f : Fields) : Except Cause Instr :=
  let x : IntRI := ⟨f.guard, vreg f.d, vreg f.a, IntTy.ofCode (bits f.fn 3 3), f.immv⟩
  match bits f.fn 0 3 with
  | 0 => .ok (.andImm x)
  | 1 => .ok (.orImm x)
  | 2 => .ok (.xorImm x)
  | 3 => .ok (.andnImm x)
  | 4 => .ok (.shlImm x)
  | 5 => .ok (.shrImm x)
  | 6 => .ok (.sarImm x)
  | _ => .ok (.rotImm x)

/-- Opcode 0x06 (R102). -/
def decLogL (f : Fields) (lit : DWord) : Except Cause Instr :=
  let r (c : IntRL → Instr) :=
    rsv (f.b :: f.c :: f.xIt) (.ok (c ⟨f.guard, vreg f.d, vreg f.a, f.it, lit⟩))
  match f.fn with
  | 0 => r .andLit
  | 1 => r .orLit
  | 2 => r .xorLit
  | 3 => r .andnLit
  | 5 => r .shlLit
  | 6 => r .shrLit
  | 7 => r .sarLit
  | 8 => r .rotLit
  | _ => bad1

/-- Opcode 0x07 (R104). -/
def decBits (f : Fields) : Except Cause Instr :=
  let r (c : IntR → Instr) := rsv (f.b :: f.c :: f.xIt) (.ok (c ⟨f.guard, vreg f.d, vreg f.a, f.it⟩))
  let rrr (c : IntRRR → Instr) :=
    rsv f.xIt (.ok (c ⟨f.guard, vreg f.d, vreg f.a, vreg f.b, vreg f.c, f.it⟩))
  match f.fn with
  | 0 => r .popc
  | 1 => r .clz
  | 2 => r .brev
  | 3 => rrr .bfe
  | 4 => rrr .bfi
  | _ => bad1

/-- Opcode 0x08 (R106). -/
def decSetp (f : Fields) : Except Cause Instr :=
  assigned (Cmp.ofCode f.fn) fun c =>
    rsv (f.d / 16 :: f.c :: f.xIt) (.ok (.setp ⟨f.guard, preg f.d, vreg f.a, vreg f.b, f.it, c⟩))

/-- Opcode 0x09 (R106). -/
def decSetpI (f : Fields) : Except Cause Instr :=
  assigned (Cmp.ofCode (bits f.fn 0 3)) fun c =>
    rsv [f.d / 16] (.ok (.setpImm ⟨f.guard, preg f.d, vreg f.a, IntTy.ofCode (bits f.fn 3 3), c, f.immv⟩))

/-- Opcode 0x0A (R106). -/
def decSetpL (f : Fields) (lit : DWord) : Except Cause Instr :=
  assigned (Cmp.ofCode f.fn) fun c =>
    rsv (f.d / 16 :: f.b :: f.c :: f.xIt) (.ok (.setpLit ⟨f.guard, preg f.d, vreg f.a, f.it, c, lit⟩))

/-- Opcode 0x0B (R108). -/
def decPred (f : Fields) : Except Cause Instr :=
  let na := flag (bits f.x 3 1); let nb := flag (bits f.x 4 1)
  let rr (c : PredRR → Instr) :=
    rsv [f.d / 16, f.a / 16, f.b / 16, f.c, bits f.x 5 8, bits f.x 0 3]
      (.ok (c ⟨f.guard, preg f.d, preg f.a, na, preg f.b, nb⟩))
  match f.fn with
  | 0 => rr .pand
  | 1 => rr .por
  | 2 => rr .pxor
  | 3 => rsv [f.d / 16, f.a / 16, f.b, f.c, bits f.x 4 9, bits f.x 0 3] (.ok (.pnot ⟨f.guard, preg f.d, preg f.a, na⟩))
  | _ => bad1

/-- Opcode 0x0C (R109). -/
def decSel (f : Fields) : Except Cause Instr :=
  match f.fn with
  | 0 => rsv [f.c / 16, bits f.x 5 8, bits f.x 0 3] (legal (CopyW.ofCode (bits f.x 3 2)) fun w =>
      .ok (.sel ⟨f.guard, vreg f.d, vreg f.a, vreg f.b, preg f.c, w⟩))
  | 1 => rsv [f.b, f.c, bits f.x 5 8, bits f.x 0 3] (legal (CopyW.ofCode (bits f.x 3 2)) fun w =>
      .ok (.mov ⟨f.guard, vreg f.d, vreg f.a, w⟩))
  | _ => bad1

/-- Opcode 0x0D (R110). -/
def decMovi (f : Fields) : Except Cause Instr :=
  match f.fn with
  | 0 => rsv [f.a] (.ok (.movi ⟨f.guard, vreg f.d, false, f.immv⟩))
  | 1 => rsv [f.a] (.ok (.movi ⟨f.guard, vreg f.d, true, f.immv⟩))
  | _ => bad1

/-- Opcode 0x0E (R110). -/
def decMovl (f : Fields) (lit : DWord) : Except Cause Instr :=
  match f.fn with
  | 0 => rsv [f.a, f.b, f.c, bits f.x 5 8, bits f.x 0 3]
      (match bits f.x 3 2 with
       | 0 => .ok (.movl ⟨f.guard, vreg f.d, false, lit⟩)
       | 1 => .ok (.movl ⟨f.guard, vreg f.d, true, lit⟩)
       | _ => bad3)
  | _ => bad1

/-- Opcode 0x0F (R111). -/
def decLea (f : Fields) : Except Cause Instr :=
  match f.fn with
  | 0 => rsv [f.c, bits f.x 9 4, bits f.x 0 3]
      (.ok (.lea ⟨f.guard, vreg f.d, vreg f.a, vreg f.b, Fin.ofNat 32 (bits f.x 3 5), flag (bits f.x 8 1)⟩))
  | _ => bad1

/-- Opcode 0x20 (R112). -/
def decFlo (f : Fields) : Except Cause Instr :=
  let g := f.guard; let d := vreg f.d; let a := vreg f.a; let b := vreg f.b
  let rm := Rnd.ofCode (bits f.x 0 2); let z := flag (bits f.x 2 1)
  let ft (k : FTy → Instr) := legal (FTy.ofCode (bits f.x 3 2)) fun t => .ok (k t)
  let rr (c : FloRR → Instr) := rsv [f.c, bits f.x 5 8] (ft fun t => c ⟨g, d, a, b, t, rm, z⟩)
  let r (c : FloR → Instr) := rsv [f.b, f.c, bits f.x 5 8] (ft fun t => c ⟨g, d, a, t, rm, z⟩)
  let mm (c : FloMM → Instr) := rsv [f.c, bits f.x 5 8, bits f.x 0 3] (ft fun t => c ⟨g, d, a, b, t⟩)
  let s (c : FloS → Instr) := rsv [f.b, f.c, bits f.x 5 8, bits f.x 0 3] (ft fun t => c ⟨g, d, a, t⟩)
  match f.fn with
  | 0 => rr .fadd
  | 1 => rr .fsub
  | 2 => rr .fmul
  | 3 => rsv [bits f.x 5 8] (ft fun t => .ffma ⟨g, d, a, b, vreg f.c, t, rm, z⟩)
  | 4 => rr .fdiv
  | 5 => r .fsqrt
  | 6 => r .frcp
  | 7 => r .frsq
  | 8 => r .fexp2
  | 9 => r .flog2
  | 10 => mm .fmin
  | 11 => mm .fmax
  | 12 => s .fabs
  | 13 => s .fneg
  | 14 => mm .fsgn
  | 15 => s .fclass
  | _ => bad1

/-- Opcode 0x21 (R112). -/
def decFloL (f : Fields) (lit : DWord) : Except Cause Instr :=
  let rm := Rnd.ofCode (bits f.x 0 2); let z := flag (bits f.x 2 1)
  let ft (k : FTy → Instr) := legal (FTy.ofCode (bits f.x 3 2)) fun t => .ok (k t)
  let r (c : FloRL → Instr) :=
    rsv [f.b, f.c, bits f.x 5 8] (ft fun t => c ⟨f.guard, vreg f.d, vreg f.a, t, rm, z, lit⟩)
  let m (c : FloML → Instr) :=
    rsv [f.b, f.c, bits f.x 5 8, bits f.x 0 3] (ft fun t => c ⟨f.guard, vreg f.d, vreg f.a, t, lit⟩)
  match f.fn with
  | 0 => r .faddLit
  | 1 => r .fsubLit
  | 2 => r .fmulLit
  | 4 => r .fdivLit
  | 10 => m .fminLit
  | 11 => m .fmaxLit
  | _ => bad1

/-- Opcodes 0x22 and 0x23 (R117). -/
def decFsetp (f : Fields) : Except Cause Instr :=
  assigned (FCmp.ofCode f.fn) fun c =>
    rsv [f.d / 16, f.c, bits f.x 5 8, bits f.x 0 3] (legal (FTy.ofCode (bits f.x 3 2)) fun t =>
      .ok (.fsetp ⟨f.guard, preg f.d, vreg f.a, vreg f.b, t, c⟩))

/-- Opcode 0x23 (R117). -/
def decFsetpL (f : Fields) (lit : DWord) : Except Cause Instr :=
  assigned (FCmp.ofCode f.fn) fun c =>
    rsv [f.d / 16, f.b, f.c, bits f.x 5 8, bits f.x 0 3] (legal (FTy.ofCode (bits f.x 3 2)) fun t =>
      .ok (.fsetpLit ⟨f.guard, preg f.d, vreg f.a, t, c, lit⟩))

/-- Opcode 0x30 (R118). -/
def decDbl (f : Fields) : Except Cause Instr :=
  let g := f.guard; let d := vreg f.d; let a := vreg f.a; let b := vreg f.b
  let rm := Rnd.ofCode (bits f.x 0 2); let z := flag (bits f.x 2 1)
  let rr (c : DblRR → Instr) := rsv [f.c, bits f.x 3 10] (.ok (c ⟨g, d, a, b, rm, z⟩))
  let mm (c : DblMM → Instr) := rsv [f.c, f.x] (.ok (c ⟨g, d, a, b⟩))
  match f.fn with
  | 0 => rr .faddF64
  | 1 => rr .fsubF64
  | 2 => rr .fmulF64
  | 3 => rsv [bits f.x 3 10] (.ok (.ffmaF64 ⟨g, d, a, b, vreg f.c, rm, z⟩))
  | 4 => rr .fdivF64
  | 5 => rsv [f.b, f.c, bits f.x 3 10] (.ok (.fsqrtF64 ⟨g, d, a, rm, z⟩))
  | 10 => mm .fminF64
  | 11 => mm .fmaxF64
  | _ => bad1

/-- Opcode 0x31 (R118). -/
def decDblL (f : Fields) (lit : DWord) : Except Cause Instr :=
  let rm := Rnd.ofCode (bits f.x 0 2); let z := flag (bits f.x 2 1)
  let r (c : DblRL → Instr) := rsv [f.b, f.c, bits f.x 3 10] (.ok (c ⟨f.guard, vreg f.d, vreg f.a, rm, z, lit⟩))
  let m (c : DblML → Instr) := rsv [f.b, f.c, f.x] (.ok (c ⟨f.guard, vreg f.d, vreg f.a, lit⟩))
  match f.fn with
  | 0 => r .faddF64Lit
  | 1 => r .fsubF64Lit
  | 2 => r .fmulF64Lit
  | 4 => r .fdivF64Lit
  | 10 => m .fminF64Lit
  | 11 => m .fmaxF64Lit
  | _ => bad1

/-- Opcode 0x32 (R118). -/
def decDsetp (f : Fields) : Except Cause Instr :=
  assigned (FCmp.ofCode f.fn) fun c =>
    rsv [f.d / 16, f.c, f.x] (.ok (.fsetpF64 ⟨f.guard, preg f.d, vreg f.a, vreg f.b, c⟩))

/-- Opcode 0x33 (R118). -/
def decDsetpL (f : Fields) (lit : DWord) : Except Cause Instr :=
  assigned (FCmp.ofCode f.fn) fun c =>
    rsv [f.d / 16, f.b, f.c, f.x] (.ok (.fsetpF64Lit ⟨f.guard, preg f.d, vreg f.a, c, lit⟩))

/-- Opcode 0x38 (R120). -/
def decCvt (f : Fields) : Except Cause Instr :=
  match f.fn with
  | 0 => rsv [f.b, f.c, bits f.x 12 1]
      (legal (CvtTy.ofCode (bits f.x 7 4)) fun st => legal (CvtTy.ofCode (bits f.x 3 4)) fun dt =>
        .ok (.cvt ⟨f.guard, vreg f.d, vreg f.a, st, dt, flag (bits f.x 11 1), flag (bits f.x 2 1),
          Rnd.ofCode (bits f.x 0 2)⟩))
  | 1 => rsv [f.b, f.c, f.x] (.ok (.cvtPackInt4 ⟨f.guard, vreg f.d, vreg f.a⟩))
  | 2 => rsv [f.b, f.c, f.x] (.ok (.cvtUnpackInt4 ⟨f.guard, vreg f.d, vreg f.a⟩))
  | _ => bad1

/-- Opcode 0x40 (R124). -/
def decLd (f : Fields) : Except Cause Instr :=
  assigned (LdSz.ofCode f.fn) fun s => rsv [f.a] (.ok (.ld ⟨f.guard, vreg f.d, vreg f.b, s, f.ofsv⟩))

/-- Opcode 0x41 (R124). -/
def decSt (f : Fields) : Except Cause Instr :=
  assigned (StSz.ofCode f.fn) fun s => rsv [f.a] (.ok (.st ⟨f.guard, vreg f.d, vreg f.b, s, f.ofsv⟩))

/-- The A field of 0x42 and 0x43: ORD in [4:3], SC in [2:0]; want is the ORD that the form takes (R212, R213). -/
def decLvOrd (f : Fields) (want : Nat) (k : Option Scope → Instr) : Except Cause Instr :=
  match bits f.a 3 2 with
  | 0 => rsv [bits f.a 5 3, bits f.a 0 3] (.ok (k none))
  | o => rsv [bits f.a 5 3]
      (if o = want then legal (Scope.ofCode (bits f.a 0 3)) fun s => .ok (k (some s)) else bad3)

/-- Opcode 0x42 (R212, R213). -/
def decLdLv (f : Fields) : Except Cause Instr :=
  assigned (Level.ofCode (bits f.fn 3 3)) fun lv => assigned (LdSz.ofCode (bits f.fn 0 3)) fun s =>
    decLvOrd f 1 fun o => .ldLevel ⟨f.guard, vreg f.d, vreg f.b, lv, s, o, f.ofsv⟩

/-- Opcode 0x43 (R212, R213). -/
def decStLv (f : Fields) : Except Cause Instr :=
  assigned (Level.ofCode (bits f.fn 3 3)) fun lv => assigned (StSz.ofCode (bits f.fn 0 3)) fun s =>
    decLvOrd f 2 fun o => .stLevel ⟨f.guard, vreg f.d, vreg f.b, lv, s, o, f.ofsv⟩

/-- FN 1 and 2, .min and .max, are the operations that take SG (R188, R216). -/
def sgFree (fn sg : Nat) : Nat := if fn = 1 ∨ fn = 2 then 0 else sg

/-- Opcode 0x46 (R216, R217). -/
def decAtom (f : Fields) : Except Cause Instr :=
  let sg := bits f.x 9 1
  let fin (sel : AtomSel) : Except Cause Instr :=
    legal (AtomLevel.ofCode (bits f.x 10 3)) fun lv => legal (Scope.ofCode (bits f.x 3 3)) fun sc =>
      .ok (.atom ⟨f.guard, vreg f.d, vreg f.a, vreg f.b, sel, lv, flag (bits f.x 8 1), Ord2.ofCode (bits f.x 6 2), sc⟩)
  if f.fn = 7 then rsv [sg, bits f.x 0 3] (fin (.cas (vreg f.c)))
  else assigned (AtomOp.ofCode f.fn (flag sg)) fun o =>
    rsv [f.c, sgFree f.fn sg, bits f.x 0 3] (fin (.op o))

/-- Opcode 0x50 (R128). -/
def decBra (f : Fields) : Except Cause Instr :=
  match f.fn with
  | 0 => rsv [f.d, f.a] (.ok (.bra ⟨f.guard, false, f.immv⟩))
  | 1 => rsv [f.d, f.a] (.ok (.bra ⟨f.guard, true, f.immv⟩))
  | _ => bad1

/-- Opcode 0x51 (R129). -/
def decBrx (f : Fields) : Except Cause Instr :=
  match f.fn with
  | 0 => rsv [f.d, f.b, f.c, f.x] (.ok (.brx ⟨f.guard, false, vreg f.a⟩))
  | 1 => rsv [f.d, f.b, f.c, f.x] (.ok (.brx ⟨f.guard, true, vreg f.a⟩))
  | _ => bad1

/-- Opcode 0x98 (R133, R135, R136). -/
def decSys (f : Fields) : Except Cause Instr :=
  match f.fn with
  | 0 => rsv [f.d, f.a, f.b, f.c, f.x] (.ok (.nop f.guard))
  | 1 => rsv [f.b, f.c, f.x] (legal (SpecReg.ofCode f.a) fun r => .ok (.srd ⟨f.guard, vreg f.d, r⟩))
  | 2 => rsv [f.b, f.c, f.x] (if f.d = 10 then .ok (.swr ⟨f.guard, vreg f.a⟩) else bad3)
  | _ => bad1

/-- Opcodes 0x52, 0x53 and 0x54 (R169, R171). -/
def decBru (f : Fields) : Except Cause Instr :=
  if f.fn = 0 then rsv [f.g, f.gn, f.d, f.a] (.ok (.bru f.immv)) else bad1
/-- Opcode 0x53 (R171). -/
def decCall (f : Fields) : Except Cause Instr :=
  if f.fn = 0 then rsv [f.a] (.ok (.call ⟨f.guard, vreg f.d, f.immv⟩)) else bad1
/-- Opcode 0x54 (R171). -/
def decRet (f : Fields) : Except Cause Instr :=
  match f.fn with
  | 0 => rsv [f.d, f.b, f.c, f.x] (.ok (.ret ⟨f.guard, vreg f.a⟩))
  | 1 => rsv [f.d, f.a, f.b, f.c, f.x] (.ok (.exit f.guard))
  | _ => bad1

/-- MM in X[3] with the mask register in C (R174). -/
def Fields.mm (f : Fields) : Option VReg := if flag (bits f.x 3 1) then some (vreg f.c) else none
/-- C is reserved without a mask (R174). -/
def Fields.mmRsv (f : Fields) : Nat := if flag (bits f.x 3 1) then 0 else f.c

/-- Opcode 0x58 (R176). -/
def decVote (f : Fields) : Except Cause Instr :=
  let r := [f.a / 16, bits f.x 4 9, bits f.x 0 3, f.mmRsv]
  let vote (m : VoteMode) := rsv (f.d / 16 :: f.b :: r) (.ok (.vote ⟨f.guard, m, preg f.d, preg f.a, f.mm⟩))
  match f.fn with
  | 0 => vote .any
  | 1 => vote .all
  | 2 => vote .uni
  | 3 => rsv (f.b :: r) (.ok (.ballot ⟨f.guard, vreg f.d, preg f.a, f.mm⟩))
  | 4 => rsv r (.ok (.ballotIndexed ⟨f.guard, vreg f.d, preg f.a, vreg f.b, f.mm⟩))
  | _ => bad1

/-- Opcode 0x59 (R178). -/
def decSwx (f : Fields) : Except Cause Instr :=
  let im := flag (bits f.x 4 1)
  let b : SwxB := if im then .imm (BitVec.ofNat 5 (bits f.x 5 5)) else .reg (vreg f.b)
  if f.fn < 8 then
    rsv [if im then f.b else bits f.x 5 5, bits f.x 0 3, f.mmRsv]
      (legal (SwxSeg.ofCode (bits f.x 10 3)) fun s =>
        .ok (.swx ⟨f.guard, SwxMode.ofCode (bits f.fn 0 2), flag (bits f.fn 2 1), vreg f.d, vreg f.a, b, s, f.mm⟩))
  else bad1

/-- Opcode 0x5A (R180). -/
def decQxch (f : Fields) : Except Cause Instr :=
  if f.fn < 8 then
    assigned (QxchMode.ofCode (bits f.fn 0 2)) fun m =>
      rsv [f.b, f.c, f.x] (.ok (.qxch ⟨f.guard, m, flag (bits f.fn 2 1), vreg f.d, vreg f.a⟩))
  else bad1

/-- Opcode 0x5B (R181). -/
def decRegroup (f : Fields) : Except Cause Instr :=
  if f.fn = 0 then rsv [f.g, f.gn, f.d, f.a / 16] (.ok (.regroup (preg f.a) f.immv)) else bad1
/-- Opcode 0x5C (R181). -/
def decRegroupL (f : Fields) (lit : DWord) : Except Cause Instr :=
  if f.fn = 0 then rsv [f.g, f.gn, f.d, f.a / 16, f.b, f.c, f.x] (.ok (.regroupLit (preg f.a) lit)) else bad1
/-- Opcode 0x5D (R181). -/
def decRegather (f : Fields) : Except Cause Instr :=
  if f.fn = 0 then rsv [f.g, f.gn, f.d, f.a] (.ok (.regather f.immv)) else bad1
/-- Opcode 0x5E (R181). -/
def decRegatherL (f : Fields) (lit : DWord) : Except Cause Instr :=
  if f.fn = 0 then rsv [f.g, f.gn, f.d, f.a, f.b, f.c, f.x] (.ok (.regatherLit lit)) else bad1

/-- Bits [7:6] of a Foyer register field are reserved (R48). -/
def hi (n : Nat) : Nat := n / 64

/-- Opcode 0xC0 (R185). -/
def decS (f : Fields) : Except Cause Instr :=
  let rr (c : SclRR → Instr) :=
    rsv [f.g, f.gn, hi f.d, hi f.a, hi f.b, f.c, f.x] (.ok (c ⟨sreg f.d, sreg f.a, sreg f.b⟩))
  match f.fn with
  | 0 => rr .sadd
  | 1 => rr .ssub
  | 2 => rr .smul
  | 3 => rr .sand
  | 4 => rr .sor
  | 5 => rr .sxor
  | 6 => rr .sshl
  | 7 => rr .sshr
  | 8 => rr .ssar
  | 9 => rsv [f.g, f.gn, hi f.d, hi f.a, f.b, f.c, f.x] (.ok (.smov (sreg f.d) (sreg f.a)))
  | 10 => rsv [f.g, f.gn, hi f.d, hi f.a, hi f.b, hi f.c, f.x]
      (.ok (.ssel ⟨sreg f.d, sreg f.a, sreg f.b, sreg f.c⟩))
  | _ => bad1

/-- Opcode 0xC1 (R185). -/
def decSI (f : Fields) : Except Cause Instr :=
  let ri (c : SclRI → Instr) := rsv [f.g, f.gn, hi f.d, hi f.a] (.ok (c ⟨sreg f.d, sreg f.a, f.immv⟩))
  match f.fn with
  | 0 => ri .saddImm
  | 1 => ri .ssubImm
  | 2 => ri .smulImm
  | 3 => ri .sandImm
  | 4 => ri .sorImm
  | 5 => ri .sxorImm
  | 6 => ri .sshlImm
  | 7 => ri .sshrImm
  | 8 => ri .ssarImm
  | 9 => rsv [f.g, f.gn, hi f.d, f.a] (.ok (.smovi (sreg f.d) f.immv))
  | _ => bad1

/-- Opcode 0xC2 (R185). -/
def decSL (f : Fields) (lit : DWord) : Except Cause Instr :=
  let rl (c : SclRL → Instr) :=
    rsv [f.g, f.gn, hi f.d, hi f.a, f.b, f.c, f.x] (.ok (c ⟨sreg f.d, sreg f.a, lit⟩))
  match f.fn with
  | 0 => rl .saddLit
  | 1 => rl .ssubLit
  | 2 => rl .smulLit
  | 3 => rl .sandLit
  | 4 => rl .sorLit
  | 5 => rl .sxorLit
  | 6 => rl .sshlLit
  | 7 => rl .sshrLit
  | 8 => rl .ssarLit
  | 9 => rsv [f.g, f.gn, hi f.d, f.a, f.b, f.c, f.x] (.ok (.smovl (sreg f.d) lit))
  | _ => bad1

/-- FN of SCMP: 0 to 5 signed, 8 to 13 unsigned (R186). -/
def scmpCode (fn : Nat) : Option (Bool × Cmp) :=
  if fn < 8 then (Cmp.ofCode fn).map (fun c => (true, c))
  else if fn < 16 then (Cmp.ofCode (fn - 8)).map (fun c => (false, c)) else none

/-- Opcode 0xC3 (R186). -/
def decScmp (f : Fields) : Except Cause Instr :=
  assigned (scmpCode f.fn) fun p =>
    rsv [f.g, f.gn, hi f.d, hi f.a, hi f.b, f.c, f.x] (.ok (.scmp ⟨sreg f.d, sreg f.a, sreg f.b, p.1, p.2⟩))
/-- Opcode 0xC4 (R186). -/
def decScmpI (f : Fields) : Except Cause Instr :=
  assigned (scmpCode f.fn) fun p =>
    rsv [f.g, f.gn, hi f.d, hi f.a] (.ok (.scmpImm ⟨sreg f.d, sreg f.a, p.1, p.2, f.immv⟩))
/-- Opcode 0xC5 (R187). -/
def decSld (f : Fields) : Except Cause Instr :=
  assigned (SldSz.ofCode f.fn) fun s =>
    rsv [f.g, f.gn, hi f.d, f.a, hi f.b] (.ok (.sld ⟨sreg f.d, sreg f.b, s, f.ofsv⟩))
/-- Opcode 0xC6 (R187). -/
def decSst (f : Fields) : Except Cause Instr :=
  assigned (SstSz.ofCode f.fn) fun s =>
    rsv [f.g, f.gn, hi f.d, f.a, hi f.b] (.ok (.sst ⟨sreg f.d, sreg f.b, s, f.ofsv⟩))
/-- Opcode 0xC7 (R188). -/
def decSatom (f : Fields) : Except Cause Instr :=
  let sg := bits f.x 9 1
  let r := [f.g, f.gn, hi f.d, hi f.a, hi f.b, bits f.x 10 3, bits f.x 0 3]
  let fin (sel : SAtomSel) : Except Cause Instr :=
    legal (Scope.ofCode (bits f.x 3 3)) fun sc =>
      .ok (.satom ⟨sreg f.d, sreg f.a, sreg f.b, sel, flag (bits f.x 8 1), Ord2.ofCode (bits f.x 6 2), sc⟩)
  if f.fn = 7 then rsv (sg :: hi f.c :: r) (fin (.cas (sreg f.c)))
  else assigned (AtomOp.ofCode f.fn (flag sg)) fun o =>
    rsv (f.c :: sgFree f.fn sg :: r) (fin (.op o))
/-- Opcode 0xC8 (R190). -/
def decSbr (f : Fields) : Except Cause Instr :=
  match f.fn with
  | 0 => rsv [f.g, f.gn, f.d, f.a] (.ok (.sbra f.immv))
  | 1 => rsv [f.g, f.gn, f.d, hi f.a] (.ok (.sbz ⟨sreg f.a, f.immv⟩))
  | 2 => rsv [f.g, f.gn, f.d, hi f.a] (.ok (.sbnz ⟨sreg f.a, f.immv⟩))
  | 3 => rsv [f.g, f.gn, hi f.d, f.a] (.ok (.scall ⟨sreg f.d, f.immv⟩))
  | _ => bad1
/-- Opcode 0xC9 (R190). -/
def decSret (f : Fields) : Except Cause Instr :=
  match f.fn with
  | 0 => rsv [f.g, f.gn, f.d, hi f.a, f.b, f.c, f.x] (.ok (.sret (sreg f.a)))
  | 1 => rsv [f.g, f.gn, f.d, f.a, f.b, f.c, f.x] (.ok .sexit)
  | _ => bad1

/-- ORD and SC of FENCE and SFENCE in X[7:6] and X[5:3] (R189, R242). -/
def decFenceWith (f : Fields) (k : FenceOp → Instr) : Except Cause Instr :=
  if f.fn = 0 then
    rsv [f.g, f.gn, f.d, f.a, f.b, f.c, bits f.x 8 5, bits f.x 0 3]
      (legal (FenceOrd.ofCode (bits f.x 6 2)) fun o => legal (Scope.ofCode (bits f.x 3 3)) fun s => .ok (k ⟨o, s⟩))
  else bad1

/-- Opcode 0xCB (R191). -/
def decDqpush (f : Fields) : Except Cause Instr :=
  if f.fn = 0 then rsv [f.g, f.gn, f.d, hi f.a, f.b, f.c, f.x] (.ok (.dqpush (sreg f.a))) else bad1
/-- Opcode 0xCC (R192, R353). -/
def decFm (f : Fields) : Except Cause Instr :=
  let k : Fin 8 := Fin.ofNat 8 (bits f.x 0 3)
  let r := [f.g, f.gn, hi f.d, f.c, bits f.x 3 10]
  let o : FmOp := ⟨sreg f.d, sreg f.a, sreg f.b, k⟩
  match f.fn with
  | 0 => rsv (hi f.a :: hi f.b :: r) (.ok (.fmbind o))
  | 1 => rsv (hi f.a :: hi f.b :: r) (.ok (.fmswap o))
  | 2 => rsv (f.a :: f.b :: r) (.ok (.fmquery (sreg f.d) k))
  | _ => bad1
/-- Opcode 0xCD (R193, R375). -/
def decPl (f : Fields) : Except Cause Instr :=
  let r := [f.g, f.gn, f.d, hi f.a, f.b, f.c, f.x]
  match f.fn with
  | 0 => rsv r (.ok (.plaunch (sreg f.a)))
  | 1 => rsv r (.ok (.pcancel (sreg f.a)))
  | 2 => rsv r (.ok (.prepeat (sreg f.a)))
  | _ => bad1

/-- Opcode 0x61 (R244). -/
def decBar (f : Fields) : Except Cause Instr :=
  let r := [f.g, f.gn, f.a, f.b, f.c, bits f.x 10 3, bits f.x 0 3]
  let o : BarOp := ⟨vreg f.d, flag (bits f.x 9 1), Fin.ofNat 64 (bits f.x 3 6)⟩
  match f.fn with
  | 0 => rsv r (.ok (.bar o))
  | 1 => rsv r (.ok (.barArv o))
  | _ => bad1
/-- Opcode 0x62 (R247). -/
def decBoarr (f : Fields) : Except Cause Instr :=
  let ic := flag (bits f.x 8 1)
  if f.fn = 0 then
    rsv [f.c, bits f.x 9 4, bits f.x 6 2, bits f.x 0 3, if ic then f.a else 0]
      (legal (Scope.ofCode (bits f.x 3 3)) fun s =>
        .ok (.boarr ⟨f.guard, vreg f.d, vreg f.b, if ic then none else some (vreg f.a), s⟩))
  else bad1
/-- Opcode 0x63 (R247). -/
def decBowait (f : Fields) : Except Cause Instr :=
  if f.fn = 0 then
    rsv [f.d, f.c, bits f.x 6 7, bits f.x 0 3]
      (legal (Scope.ofCode (bits f.x 3 3)) fun s => .ok (.bowait ⟨f.guard, vreg f.a, vreg f.b, s⟩))
  else bad1
/-- Opcode 0x64 (R271). -/
def decTlwait (f : Fields) : Except Cause Instr :=
  if f.fn = 0 then
    rsv [f.g, f.gn, f.d, f.c, bits f.x 6 7, bits f.x 0 3]
      (match bits f.x 3 3 with
       | 4 => .ok (.tlwait ⟨vreg f.a, vreg f.b, false⟩)
       | 5 => .ok (.tlwait ⟨vreg f.a, vreg f.b, true⟩)
       | _ => bad3)
  else bad1
/-- Opcode 0x68 (R254). -/
def decShMem (f : Fields) : Except Cause Instr :=
  let o : ShMemOp := ⟨f.guard, reg16 f.d, vreg f.b, f.ofsv⟩
  match f.fn with
  | 0 => rsv [f.d / 16, f.a] (.ok (.shld o))
  | 1 => rsv [f.d / 16, f.a] (.ok (.shst o))
  | _ => bad1
/-- Opcode 0x69 (R255). -/
def decShset (f : Fields) : Except Cause Instr :=
  assigned (ShField.ofCode f.fn) fun k =>
    rsv [f.d / 16, f.b, f.c, f.x] (.ok (.shset ⟨f.guard, k, reg16 f.d, vreg f.a⟩))
/-- Opcode 0x6A (R258). -/
def decCpy (f : Fields) : Except Cause Instr :=
  let isBo := flag (bits f.x 4 1)
  let bo := if isBo then some (vreg f.b) else none
  let r := [f.d / 16, f.a / 16, f.c, bits f.x 7 6, bits f.x 0 3, if isBo then 0 else f.b]
  match f.fn with
  | 0 => rsv (bits f.x 5 2 :: r) (.ok (.cpy ⟨f.guard, reg16 f.d, reg16 f.a, flag (bits f.x 3 1), bo⟩))
  | 1 => rsv (bits f.x 3 1 :: r) (.ok (.cpyHalo ⟨f.guard, reg16 f.d, reg16 f.a, Fin.ofNat 4 (bits f.x 5 2), bo⟩))
  | 2 => rsv (bits f.x 5 2 :: bits f.x 3 1 :: r) (.ok (.cpyRed ⟨f.guard, reg16 f.d, reg16 f.a, bo⟩))
  | _ => bad1
/-- Opcode 0x6B (R264, R265). -/
def decBatch (f : Fields) : Except Cause Instr :=
  match f.fn with
  | 0 => rsv [f.g, f.gn, f.a, f.b, f.c, f.x] (.ok (.cbatch (vreg f.d)))
  | 1 => rsv [f.g, f.gn, f.d, f.b, f.c, bits f.x 6 7, bits f.x 0 3]
      (legal (WaitScope.ofCode (bits f.x 3 3)) fun s => .ok (.cwait ⟨vreg f.a, s⟩))
  | _ => bad1
/-- The slot of X[5:3] (R289). -/
def Fields.slot (f : Fields) : Fin 8 := Fin.ofNat 8 (bits f.x 3 3)
/-- Opcodes 0x80 and 0x83 (R295, R299). -/
def decQ (f : Fields) (k : QOp → Instr) : Except Cause Instr :=
  if f.fn = 0 then
    rsv [f.d / 16, f.a / 16, f.b, f.c, bits f.x 6 7, bits f.x 0 3] (.ok (k ⟨f.guard, reg16 f.d, reg16 f.a, f.slot⟩))
  else bad1
/-- Opcode 0x81 (R296). -/
def decQrot (f : Fields) : Except Cause Instr :=
  if f.fn = 0 then
    rsv [f.d / 16, f.a / 16, f.c, bits f.x 5 8, bits f.x 0 3]
      (legal (RotSz.ofCode (bits f.x 3 2)) fun s => .ok (.qrot ⟨f.guard, reg16 f.d, reg16 f.a, vreg f.b, s⟩))
  else bad1
/-- Opcode 0x82 (R298). -/
def decQsm (f : Fields) : Except Cause Instr :=
  if f.fn = 0 then
    rsv [f.d / 16, f.a / 16, f.b / 16, f.c, f.x] (.ok (.qsmooth ⟨f.guard, reg16 f.d, reg16 f.a, reg16 f.b⟩))
  else bad1
/-- Opcode 0x84 (R300). -/
def decXcvt (f : Fields) : Except Cause Instr :=
  let scl := flag (bits f.x 10 1)
  let go (k : XcvtOp → Instr) :=
    rsv [f.c, bits f.x 11 2, bits f.x 0 3, if scl then 0 else f.b]
      (legal (FTy.ofCode (bits f.x 8 2)) fun t =>
        .ok (k ⟨f.guard, vreg f.d, vreg f.a, if scl then some (vreg f.b) else none, t,
          Fin.ofNat 4 (bits f.x 6 2), f.slot⟩))
  match f.fn with
  | 0 => go .xcvtEncode
  | 1 => go .xcvtDecode
  | _ => bad1
/-- Opcode 0x70 (R331). -/
def decMopen (f : Fields) : Except Cause Instr :=
  let tn := flag (bits f.x 3 1)
  let num := if tn then some (vreg f.d) else none
  let r := [f.a / 16, f.b, f.c, bits f.x 11 2, bits f.x 0 3, if tn then 0 else f.d]
  match f.fn with
  | 0 => rsv (bits f.x 4 7 :: r) (.ok (.mopen ⟨f.guard, num, reg16 f.a⟩))
  | 1 => rsv r (.ok (.mclose ⟨f.guard, num, reg16 f.a, BitVec.ofNat 7 (bits f.x 4 7)⟩))
  | _ => bad1
/-- Opcode 0x71 (R332, R333). -/
def decMma (f : Fields) : Except Cause Instr :=
  let sa := flag (bits f.x 11 1)
  let go (k : MmaOp → Instr) :=
    rsv [f.d / 16, f.b / 16, bits f.x 12 1, bits f.x 0 3, if sa then 0 else bits f.c 0 4]
      (legal (FmFmt.ofCode (bits f.x 3 5)) fun fm =>
        .ok (k ⟨f.guard, reg16 f.d, vreg f.a, reg16 f.b, reg16 (bits f.c 4 4),
          if sa then some (reg16 (bits f.c 0 4)) else none, flag (bits f.x 10 1), SpMode.ofCode (bits f.x 8 2), fm⟩))
  match f.fn with
  | 0 => go .mma
  | 1 => go .mdist
  | _ => bad1
/-- k of MTOPK, 1 to 16, less 1 (R334). -/
def topkCode (n : Nat) : Option (Fin 16) := if 1 ≤ n ∧ n ≤ 16 then some (reg16 (n - 1)) else none
/-- Opcode 0x72 (R334). -/
def decMtopk (f : Fields) : Except Cause Instr :=
  if f.fn = 0 then
    rsv [f.a / 16, f.c, bits f.x 8 5, bits f.x 0 3]
      (legal (topkCode (bits f.x 3 5)) fun k => .ok (.mtopk ⟨f.guard, vreg f.d, reg16 f.a, vreg f.b, k⟩))
  else bad1
/-- Opcode 0x73 (R336). -/
def decMwait (f : Fields) : Except Cause Instr :=
  let r := [f.g, f.gn, f.d, f.b, f.c, bits f.x 6 7, bits f.x 0 3]
  match f.fn with
  | 0 => rsv r (legal (WaitScope.ofCode (bits f.x 3 3)) fun s => .ok (.mwait ⟨vreg f.a, s⟩))
  | 1 => rsv (f.a :: r) (legal (WaitScope.ofCode (bits f.x 3 3)) fun s => .ok (.mwaitAll s))
  | _ => bad1
/-- Opcode 0x88 (R442). -/
def decCapenter (f : Fields) : Except Cause Instr :=
  if f.fn = 0 then
    rsv [f.g, f.gn, f.d, f.c, bits f.x 9 4, bits f.x 0 3]
      (.ok (.capenter ⟨vreg f.a, vreg f.b, Fin.ofNat 64 (bits f.x 3 6)⟩))
  else bad1
/-- Opcode 0x89 (R444). -/
def decCapexit (f : Fields) : Except Cause Instr :=
  if f.fn = 0 then rsv [f.g, f.gn, f.a / 16, f.d, f.b, f.c, f.x] (.ok (.capexit (reg16 f.a))) else bad1
/-- Opcode 0x8A (R445). -/
def decCapres (f : Fields) : Except Cause Instr :=
  if f.fn = 0 then rsv [f.g, f.gn, f.a, f.b, f.c, f.x] (.ok (.capres (vreg f.d))) else bad1
/-- FN 0 is .n32 and FN 1 .n64 of CAPLD, CAPST and CAPCAS (R441). -/
def capW (fn : Nat) : Option Bool := if fn = 0 then some false else if fn = 1 then some true else none
/-- Opcode 0x8B (R446). -/
def decCapld (f : Fields) : Except Cause Instr :=
  assigned (capW f.fn) fun w =>
    rsv [f.g, f.gn, f.a, f.d / 16, f.b / 16] (.ok (.capld ⟨w, reg16 f.d, reg16 f.b, f.ofsv⟩))
/-- Opcode 0x8C (R446). -/
def decCapst (f : Fields) : Except Cause Instr :=
  assigned (capW f.fn) fun w =>
    rsv [f.g, f.gn, f.d, f.a / 16, f.b / 16, f.c, f.x] (.ok (.capst ⟨w, reg16 f.a, reg16 f.b⟩))
/-- Opcode 0x8D (R446). -/
def decCapcas (f : Fields) : Except Cause Instr :=
  assigned (capW f.fn) fun w =>
    rsv [f.g, f.gn, f.d / 16, f.a / 16, f.b / 16, f.c / 16, f.x]
      (.ok (.capcas ⟨w, reg16 f.d, reg16 f.a, reg16 f.b, reg16 f.c⟩))
/-- Opcode 0x8E (R446). -/
def decCapop (f : Fields) : Except Cause Instr :=
  let im := flag (bits f.x 3 1)
  let b : CapB := if im then .imm (BitVec.ofNat 9 (bits f.x 4 9)) else .reg (reg16 f.b)
  let r := [f.g, f.gn, f.d / 16, f.c, bits f.x 0 3, if im then f.b else f.b / 16, if im then 0 else bits f.x 4 9]
  if f.fn = 8 then rsv (f.a :: r) (.ok (.capop (.mov (reg16 f.d) b)))
  else assigned (CapBin.ofCode f.fn) fun o =>
    rsv (f.a / 16 :: r) (.ok (.capop (.bin o (reg16 f.d) (reg16 f.a) b)))
/-- Opcode 0x8F (R446). -/
def decCapbr (f : Fields) : Except Cause Instr :=
  let disp := BitVec.ofNat 8 (bits f.x 5 8)
  let r := [f.g, f.gn, f.d, f.c, bits f.x 0 5]
  if f.fn = 0 then rsv (f.a :: f.b :: r) (.ok (.capbr (.al disp)))
  else assigned (CapCond.ofCode f.fn) fun c =>
    rsv (f.a / 16 :: f.b / 16 :: r) (.ok (.capbr (.cond c (reg16 f.a) (reg16 f.b) disp)))
/-- Opcode 0x90 (R467): shape fields beyond the count are reserved. -/
def decSolve (f : Fields) : Except Cause Instr :=
  let r := [f.g, f.gn, f.d / 16, bits f.x 5 8, bits f.x 0 3]
  let t1 := reg16 f.d; let t2 := reg16 f.a; let t3 := reg16 f.b; let t4 := reg16 f.c
  let go (k : SolveTiles → Instr) :=
    match bits f.x 3 2 with
    | 0 => rsv (f.a :: f.b :: f.c :: r) (.ok (k (.one t1)))
    | 1 => rsv (f.a / 16 :: f.b :: f.c :: r) (.ok (k (.two t1 t2)))
    | 2 => rsv (f.a / 16 :: f.b / 16 :: f.c :: r) (.ok (k (.three t1 t2 t3)))
    | _ => rsv (f.a / 16 :: f.b / 16 :: f.c / 16 :: r) (.ok (k (.four t1 t2 t3 t4)))
  match f.fn with
  | 0 => go .solveBegin
  | 1 => go .solveEnd
  | _ => bad1
/-- Opcode 0x91 (R468). -/
def decSolveSet (f : Fields) : Except Cause Instr :=
  assigned (SolveParam.ofCode f.fn) fun p =>
    rsv [f.g, f.gn, f.d, f.b, f.c, f.x] (.ok (.solveSet ⟨p, vreg f.a⟩))
/-- Opcode 0x92 (R469). -/
def decSolveStat (f : Fields) : Except Cause Instr :=
  if f.fn = 0 then
    rsv [f.g, f.gn, f.a, f.b, f.c, bits f.x 5 8, bits f.x 0 3]
      (.ok (.solveStat ⟨vreg f.d, Fin.ofNat 4 (bits f.x 3 2)⟩))
  else bad1
/-- Opcode 0x99 (R169). -/
def decDqpop (f : Fields) : Except Cause Instr :=
  if f.fn = 0 then rsv [f.g, f.gn, f.a, f.b, f.c, f.x] (.ok (.dqpop (vreg f.d))) else bad1
/-- Opcode 0x9A (R396). -/
def decTrap (f : Fields) : Except Cause Instr :=
  if f.fn = 0 then
    rsv [f.g, f.gn, f.d, bits f.imm 16 13] (.ok (.trap ⟨vreg f.a, BitVec.ofNat 16 (bits f.imm 0 16)⟩))
  else bad1
/-- Opcode 0x9B (R397, R398, R399). -/
def decTfence (f : Fields) : Except Cause Instr :=
  let r := [f.g, f.gn, f.d, f.a, f.b, f.c]
  match f.fn with
  | 0 => rsv (f.x :: r) (.ok .tfence)
  | 1 => rsv (bits f.x 10 3 :: bits f.x 0 3 :: r) (.ok (.clrf (BitVec.ofNat 7 (bits f.x 3 7))))
  | 2 => rsv (f.x :: r) (.ok .brk)
  | _ => bad1
/-- Opcode 0x9C (R402). -/
def decFeatq (f : Fields) : Except Cause Instr :=
  if f.fn = 0 then
    rsv [f.g, f.gn, f.a, f.b, f.c, bits f.x 8 5, bits f.x 0 3]
      (if bits f.x 3 5 < 4 then .ok (.featq ⟨vreg f.d, Fin.ofNat 4 (bits f.x 3 5)⟩) else bad3)
  else bad1

/-- The opcodes of the literal class, whose word is followed by a literal (R46, R47, R92, R166). -/
def isLiteralOp (op : Nat) : Bool :=
  [0x03, 0x06, 0x0A, 0x0E, 0x21, 0x23, 0x31, 0x33, 0x5C, 0x5E, 0xC2].contains op

/-- The Foyer opcodes (R48, R51). -/
def isFoyerOp (op : Nat) : Bool := 0xC0 ≤ op && op ≤ 0xEF

/-- The opcode map (R49): the chapter's table that reads each opcode. -/
def decodeOp (f : Fields) (lit : DWord) : Except Cause Instr :=
  match f.op with
  | 0x01 => decInt f
  | 0x02 => decIntI f
  | 0x03 => decIntL f lit
  | 0x04 => decLog f
  | 0x05 => decLogI f
  | 0x06 => decLogL f lit
  | 0x07 => decBits f
  | 0x08 => decSetp f
  | 0x09 => decSetpI f
  | 0x0A => decSetpL f lit
  | 0x0B => decPred f
  | 0x0C => decSel f
  | 0x0D => decMovi f
  | 0x0E => decMovl f lit
  | 0x0F => decLea f
  | 0x20 => decFlo f
  | 0x21 => decFloL f lit
  | 0x22 => decFsetp f
  | 0x23 => decFsetpL f lit
  | 0x30 => decDbl f
  | 0x31 => decDblL f lit
  | 0x32 => decDsetp f
  | 0x33 => decDsetpL f lit
  | 0x38 => decCvt f
  | 0x40 => decLd f
  | 0x41 => decSt f
  | 0x42 => decLdLv f
  | 0x43 => decStLv f
  | 0x46 => decAtom f
  | 0x50 => decBra f
  | 0x51 => decBrx f
  | 0x52 => decBru f
  | 0x53 => decCall f
  | 0x54 => decRet f
  | 0x58 => decVote f
  | 0x59 => decSwx f
  | 0x5A => decQxch f
  | 0x5B => decRegroup f
  | 0x5C => decRegroupL f lit
  | 0x5D => decRegather f
  | 0x5E => decRegatherL f lit
  | 0x60 => decFenceWith f .fence
  | 0x61 => decBar f
  | 0x62 => decBoarr f
  | 0x63 => decBowait f
  | 0x64 => decTlwait f
  | 0x68 => decShMem f
  | 0x69 => decShset f
  | 0x6A => decCpy f
  | 0x6B => decBatch f
  | 0x70 => decMopen f
  | 0x71 => decMma f
  | 0x72 => decMtopk f
  | 0x73 => decMwait f
  | 0x80 => decQ f .qscan
  | 0x81 => decQrot f
  | 0x82 => decQsm f
  | 0x83 => decQ f .qcvt
  | 0x84 => decXcvt f
  | 0x88 => decCapenter f
  | 0x89 => decCapexit f
  | 0x8A => decCapres f
  | 0x8B => decCapld f
  | 0x8C => decCapst f
  | 0x8D => decCapcas f
  | 0x8E => decCapop f
  | 0x8F => decCapbr f
  | 0x90 => decSolve f
  | 0x91 => decSolveSet f
  | 0x92 => decSolveStat f
  | 0x98 => decSys f
  | 0x99 => decDqpop f
  | 0x9A => decTrap f
  | 0x9B => decTfence f
  | 0x9C => decFeatq f
  | 0xC0 => decS f
  | 0xC1 => decSI f
  | 0xC2 => decSL f lit
  | 0xC3 => decScmp f
  | 0xC4 => decScmpI f
  | 0xC5 => decSld f
  | 0xC6 => decSst f
  | 0xC7 => decSatom f
  | 0xC8 => decSbr f
  | 0xC9 => decSret f
  | 0xCA => decFenceWith f .sfence
  | 0xCB => decDqpush f
  | 0xCC => decFm f
  | 0xCD => decPl f
  | _ => bad1

/-- Order 5 of R53 as far as the word decides it. -/
def wfGate : Except Cause Instr → Except Cause Instr
  | .ok i => if i.wf then .ok i else .error 0x03#8
  | .error c => .error c

/-- Decode a word and its literal, whichever the stream: the instruction, or the cause of R51 in the order of R53. -/
def decodeAny (w : Nat) (lit : DWord) : Except Cause Instr := wfGate (decodeOp (Fields.ofWord w) lit)

/-- Decode in a stream: a Foyer opcode in a team stream, or another in a Foyer stream, raises 0x01 (R51). -/
def decode (foyer : Bool) (w : Nat) (lit : DWord) : Except Cause Instr :=
  if isFoyerOp (Fields.ofWord w).op == foyer then decodeAny w lit else bad1

/-! ### Encoding (R45, R46 and the same tables) -/

/-- The guard bits of a word. -/
def Guard.enc (g : Guard) : Nat := g.p.val * 2 ^ 52 + (if g.neg then 2 ^ 51 else 0)
/-- The guard that names p0. -/
def g0 : Guard := ⟨0, false⟩
/-- A flag as a bit. -/
def bit (b : Bool) : Nat := if b then 1 else 0
/-- The number of an optional register; 0 where it is absent and its field reserved. -/
def ov {n : Nat} (r : Option (Fin n)) : Nat := match r with
  | some r => r.val
  | none => 0

/-- A word of the register or literal class (R46). -/
def encR (op : Nat) (g : Guard) (fn d a b c x : Nat) : Nat :=
  op * 2 ^ 56 + g.enc + fn * 2 ^ 45 + d * 2 ^ 37 + a * 2 ^ 29 + b * 2 ^ 21 + c * 2 ^ 13 + x
/-- A word of the immediate class (R46). -/
def encI (op : Nat) (g : Guard) (fn d a : Nat) (imm : BitVec 29) : Nat :=
  op * 2 ^ 56 + g.enc + fn * 2 ^ 45 + d * 2 ^ 37 + a * 2 ^ 29 + imm.toNat
/-- A word of the memory class (R46). -/
def encM (op : Nat) (g : Guard) (fn d a b : Nat) (ofs : BitVec 21) : Nat :=
  op * 2 ^ 56 + g.enc + fn * 2 ^ 45 + d * 2 ^ 37 + a * 2 ^ 29 + b * 2 ^ 21 + ofs.toNat

def IntRRS.enc (x : IntRRS) (fn : Nat) : Nat := encR 0x01 x.g fn x.d x.a x.b 0 (bit x.sat * 64 + x.ty.code * 8)
def IntRR.enc (x : IntRR) (op fn : Nat) : Nat := encR op x.g fn x.d x.a x.b 0 (x.ty.code * 8)
def IntRS.enc (x : IntRS) (fn : Nat) : Nat := encR 0x01 x.g fn x.d x.a 0 0 (bit x.sat * 64 + x.ty.code * 8)
def IntR.enc (x : IntR) (op fn : Nat) : Nat := encR op x.g fn x.d x.a 0 0 (x.ty.code * 8)
def IntRRR.enc (x : IntRRR) (fn : Nat) : Nat := encR 0x07 x.g fn x.d x.a x.b x.c (x.ty.code * 8)
def IntRI.enc (x : IntRI) (op k : Nat) : Nat := encI op x.g (x.ty.code * 8 + k) x.d x.a x.imm
def IntRLS.enc (x : IntRLS) (fn : Nat) : Nat := encR 0x03 x.g fn x.d x.a 0 0 (bit x.sat * 64 + x.ty.code * 8)
def IntRL.enc (x : IntRL) (op fn : Nat) : Nat := encR op x.g fn x.d x.a 0 0 (x.ty.code * 8)
def PredRR.enc (x : PredRR) (fn : Nat) : Nat := encR 0x0B x.g fn x.pd x.pa x.pb 0 (bit x.nb * 16 + bit x.na * 8)
def fx (ft : FTy) (rm : Rnd) (ftz : Bool) : Nat := ft.code * 8 + bit ftz * 4 + rm.code
def FloRR.enc (x : FloRR) (fn : Nat) : Nat := encR 0x20 x.g fn x.d x.a x.b 0 (fx x.ft x.rm x.ftz)
def FloR.enc (x : FloR) (fn : Nat) : Nat := encR 0x20 x.g fn x.d x.a 0 0 (fx x.ft x.rm x.ftz)
def FloMM.enc (x : FloMM) (fn : Nat) : Nat := encR 0x20 x.g fn x.d x.a x.b 0 (x.ft.code * 8)
def FloS.enc (x : FloS) (fn : Nat) : Nat := encR 0x20 x.g fn x.d x.a 0 0 (x.ft.code * 8)
def FloRL.enc (x : FloRL) (fn : Nat) : Nat := encR 0x21 x.g fn x.d x.a 0 0 (fx x.ft x.rm x.ftz)
def FloML.enc (x : FloML) (fn : Nat) : Nat := encR 0x21 x.g fn x.d x.a 0 0 (x.ft.code * 8)
def dx (rm : Rnd) (ftz : Bool) : Nat := bit ftz * 4 + rm.code
def DblRR.enc (x : DblRR) (fn : Nat) : Nat := encR 0x30 x.g fn x.d x.a x.b 0 (dx x.rm x.ftz)
def DblMM.enc (x : DblMM) (fn : Nat) : Nat := encR 0x30 x.g fn x.d x.a x.b 0 0
def DblRL.enc (x : DblRL) (fn : Nat) : Nat := encR 0x31 x.g fn x.d x.a 0 0 (dx x.rm x.ftz)
def DblML.enc (x : DblML) (fn : Nat) : Nat := encR 0x31 x.g fn x.d x.a 0 0 0
def lvA (ord : Nat) (s : Option Scope) : Nat := match s with
  | none => 0
  | some s => ord * 8 + s.code
def atX (lv sg : Nat) (w64 : Bool) (ord : Ord2) (sc : Scope) : Nat :=
  lv * 1024 + sg * 512 + bit w64 * 256 + ord.code * 64 + sc.code * 8
def AtomOpnd.enc (x : AtomOpnd) : Nat :=
  match x.sel with
  | .op o => encR 0x46 x.g o.code x.d x.a x.b 0 (atX x.lv.code o.sg x.w64 x.ord x.sc)
  | .cas c => encR 0x46 x.g 7 x.d x.a x.b c (atX x.lv.code 0 x.w64 x.ord x.sc)
def SatomOp.enc (x : SatomOp) : Nat :=
  match x.sel with
  | .op o => encR 0xC7 g0 o.code x.d x.a x.b 0 (atX 0 o.sg x.w64 x.ord x.sc)
  | .cas c => encR 0xC7 g0 7 x.d x.a x.b c (atX 0 0 x.w64 x.ord x.sc)
def mmX (mm : Option VReg) : Nat := bit mm.isSome * 8
def SwxOp.enc (x : SwxOp) : Nat :=
  let fn := bit x.w64 * 4 + x.mode.code
  match x.b with
  | .reg r => encR 0x59 x.g fn x.d x.a r (ov x.mm) (x.seg.code * 1024 + mmX x.mm)
  | .imm v => encR 0x59 x.g fn x.d x.a 0 (ov x.mm) (x.seg.code * 1024 + v.toNat * 32 + 16 + mmX x.mm)
def SclRR.enc (x : SclRR) (fn : Nat) : Nat := encR 0xC0 g0 fn x.d x.a x.b 0 0
def SclRI.enc (x : SclRI) (fn : Nat) : Nat := encI 0xC1 g0 fn x.d x.a x.imm
def SclRL.enc (x : SclRL) (fn : Nat) : Nat := encR 0xC2 g0 fn x.d x.a 0 0 0
def scmpFn (sgn : Bool) (c : Cmp) : Nat := (if sgn then 0 else 8) + c.code
def FmOp.enc (x : FmOp) (fn : Nat) : Nat := encR 0xCC g0 fn x.d x.a x.b 0 x.k
def FenceOp.enc (x : FenceOp) (op : Nat) : Nat := encR op g0 0 0 0 0 0 (x.ord.code * 64 + x.sc.code * 8)
def BarOp.enc (x : BarOp) (fn : Nat) : Nat := encR 0x61 g0 fn x.bn 0 0 0 (bit x.cl * 512 + x.cnt.val * 8)
def ShMemOp.enc (x : ShMemOp) (fn : Nat) : Nat := encM 0x68 x.g fn x.sh 0 x.b x.ofs
def boX (bo : Option VReg) : Nat := bit bo.isSome * 16
def QOp.enc (x : QOp) (op : Nat) : Nat := encR op x.g 0 x.d x.a 0 0 (x.k.val * 8)
def XcvtOp.enc (x : XcvtOp) (fn : Nat) : Nat :=
  encR 0x84 x.g fn x.d x.a (ov x.scl) 0
    (bit x.scl.isSome * 1024 + x.ft.code * 256 + x.sel.val * 64 + x.k.val * 8)
def MmaOp.enc (x : MmaOp) (fn : Nat) : Nat :=
  encR 0x71 x.g fn x.c x.a x.b (x.np.val * 16 + ov x.sa)
    (bit x.sa.isSome * 2048 + bit x.hf * 1024 + x.sp.code * 256 + x.fm.code * 8)
def capWfn (w64 : Bool) : Nat := bit w64
def CapopOp.enc (x : CapopOp) : Nat :=
  match x with
  | .bin o d a (.reg r) => encR 0x8E g0 o.code d a r 0 0
  | .bin o d a (.imm v) => encR 0x8E g0 o.code d a 0 0 (v.toNat * 16 + 8)
  | .mov d (.reg r) => encR 0x8E g0 8 d 0 r 0 0
  | .mov d (.imm v) => encR 0x8E g0 8 d 0 0 0 (v.toNat * 16 + 8)
def CapbrOp.enc (x : CapbrOp) : Nat :=
  match x with
  | .al disp => encR 0x8F g0 0 0 0 0 0 (disp.toNat * 32)
  | .cond c a b disp => encR 0x8F g0 c.code 0 a b 0 (disp.toNat * 32)
def SolveTiles.enc (x : SolveTiles) (fn : Nat) : Nat :=
  match x with
  | .one t1 => encR 0x90 g0 fn t1 0 0 0 0
  | .two t1 t2 => encR 0x90 g0 fn t1 t2 0 0 8
  | .three t1 t2 t3 => encR 0x90 g0 fn t1 t2 t3 0 16
  | .four t1 t2 t3 t4 => encR 0x90 g0 fn t1 t2 t3 t4 24

/-- The word of an instruction and its literal (0 outside the literal class); a step of the device has none. -/
def encode : Instr → Option (Nat × DWord)
  | .add x => some (x.enc 0, 0)
  | .sub x => some (x.enc 1, 0)
  | .mul x => some (x.enc 2, 0)
  | .mulhi x => some (x.enc 0x01 3, 0)
  | .mad x => some (encR 0x01 x.g 4 x.d x.a x.b x.c (bit x.sat * 64 + x.ty.code * 8), 0)
  | .min x => some (x.enc 0x01 5, 0)
  | .max x => some (x.enc 0x01 6, 0)
  | .div x => some (x.enc 0x01 7, 0)
  | .rem x => some (x.enc 0x01 8, 0)
  | .abs x => some (x.enc 9, 0)
  | .neg x => some (x.enc 10, 0)
  | .addImm x => some (x.enc 0x02 0, 0)
  | .subImm x => some (x.enc 0x02 1, 0)
  | .mulImm x => some (x.enc 0x02 2, 0)
  | .minImm x => some (x.enc 0x02 3, 0)
  | .maxImm x => some (x.enc 0x02 4, 0)
  | .addLit x => some (x.enc 0, x.lit)
  | .subLit x => some (x.enc 1, x.lit)
  | .mulLit x => some (x.enc 2, x.lit)
  | .mulhiLit x => some (x.enc 0x03 3, x.lit)
  | .minLit x => some (x.enc 0x03 5, x.lit)
  | .maxLit x => some (x.enc 0x03 6, x.lit)
  | .divLit x => some (x.enc 0x03 7, x.lit)
  | .remLit x => some (x.enc 0x03 8, x.lit)
  | .and x => some (x.enc 0x04 0, 0)
  | .or x => some (x.enc 0x04 1, 0)
  | .xor x => some (x.enc 0x04 2, 0)
  | .andn x => some (x.enc 0x04 3, 0)
  | .not x => some (x.enc 0x04 4, 0)
  | .shl x => some (x.enc 0x04 5, 0)
  | .shr x => some (x.enc 0x04 6, 0)
  | .sar x => some (x.enc 0x04 7, 0)
  | .rot x => some (x.enc 0x04 8, 0)
  | .andImm x => some (x.enc 0x05 0, 0)
  | .orImm x => some (x.enc 0x05 1, 0)
  | .xorImm x => some (x.enc 0x05 2, 0)
  | .andnImm x => some (x.enc 0x05 3, 0)
  | .shlImm x => some (x.enc 0x05 4, 0)
  | .shrImm x => some (x.enc 0x05 5, 0)
  | .sarImm x => some (x.enc 0x05 6, 0)
  | .rotImm x => some (x.enc 0x05 7, 0)
  | .andLit x => some (x.enc 0x06 0, x.lit)
  | .orLit x => some (x.enc 0x06 1, x.lit)
  | .xorLit x => some (x.enc 0x06 2, x.lit)
  | .andnLit x => some (x.enc 0x06 3, x.lit)
  | .shlLit x => some (x.enc 0x06 5, x.lit)
  | .shrLit x => some (x.enc 0x06 6, x.lit)
  | .sarLit x => some (x.enc 0x06 7, x.lit)
  | .rotLit x => some (x.enc 0x06 8, x.lit)
  | .popc x => some (x.enc 0x07 0, 0)
  | .clz x => some (x.enc 0x07 1, 0)
  | .brev x => some (x.enc 0x07 2, 0)
  | .bfe x => some (x.enc 3, 0)
  | .bfi x => some (x.enc 4, 0)
  | .setp x => some (encR 0x08 x.g x.cmp.code x.pd x.a x.b 0 (x.ty.code * 8), 0)
  | .setpImm x => some (encI 0x09 x.g (x.ty.code * 8 + x.cmp.code) x.pd x.a x.imm, 0)
  | .setpLit x => some (encR 0x0A x.g x.cmp.code x.pd x.a 0 0 (x.ty.code * 8), x.lit)
  | .pand x => some (x.enc 0, 0)
  | .por x => some (x.enc 1, 0)
  | .pxor x => some (x.enc 2, 0)
  | .pnot x => some (encR 0x0B x.g 3 x.pd x.pa 0 0 (bit x.na * 8), 0)
  | .sel x => some (encR 0x0C x.g 0 x.d x.a x.b x.pc (x.wd.code * 8), 0)
  | .mov x => some (encR 0x0C x.g 1 x.d x.a 0 0 (x.wd.code * 8), 0)
  | .movi x => some (encI 0x0D x.g (bit x.w64) x.d 0 x.imm, 0)
  | .movl x => some (encR 0x0E x.g 0 x.d 0 0 0 (bit x.w64 * 8), x.lit)
  | .lea x => some (encR 0x0F x.g 0 x.d x.a x.b 0 (bit x.sx * 256 + x.sh.val * 8), 0)
  | .fadd x => some (x.enc 0, 0)
  | .fsub x => some (x.enc 1, 0)
  | .fmul x => some (x.enc 2, 0)
  | .ffma x => some (encR 0x20 x.g 3 x.d x.a x.b x.c (fx x.ft x.rm x.ftz), 0)
  | .fdiv x => some (x.enc 4, 0)
  | .fsqrt x => some (x.enc 5, 0)
  | .frcp x => some (x.enc 6, 0)
  | .frsq x => some (x.enc 7, 0)
  | .fexp2 x => some (x.enc 8, 0)
  | .flog2 x => some (x.enc 9, 0)
  | .fmin x => some (x.enc 10, 0)
  | .fmax x => some (x.enc 11, 0)
  | .fabs x => some (x.enc 12, 0)
  | .fneg x => some (x.enc 13, 0)
  | .fsgn x => some (x.enc 14, 0)
  | .fclass x => some (x.enc 15, 0)
  | .faddLit x => some (x.enc 0, x.lit)
  | .fsubLit x => some (x.enc 1, x.lit)
  | .fmulLit x => some (x.enc 2, x.lit)
  | .fdivLit x => some (x.enc 4, x.lit)
  | .fminLit x => some (x.enc 10, x.lit)
  | .fmaxLit x => some (x.enc 11, x.lit)
  | .fsetp x => some (encR 0x22 x.g x.cmp.code x.pd x.a x.b 0 (x.ft.code * 8), 0)
  | .fsetpLit x => some (encR 0x23 x.g x.cmp.code x.pd x.a 0 0 (x.ft.code * 8), x.lit)
  | .faddF64 x => some (x.enc 0, 0)
  | .fsubF64 x => some (x.enc 1, 0)
  | .fmulF64 x => some (x.enc 2, 0)
  | .ffmaF64 x => some (encR 0x30 x.g 3 x.d x.a x.b x.c (dx x.rm x.ftz), 0)
  | .fdivF64 x => some (x.enc 4, 0)
  | .fsqrtF64 x => some (encR 0x30 x.g 5 x.d x.a 0 0 (dx x.rm x.ftz), 0)
  | .fminF64 x => some (x.enc 10, 0)
  | .fmaxF64 x => some (x.enc 11, 0)
  | .faddF64Lit x => some (x.enc 0, x.lit)
  | .fsubF64Lit x => some (x.enc 1, x.lit)
  | .fmulF64Lit x => some (x.enc 2, x.lit)
  | .fdivF64Lit x => some (x.enc 4, x.lit)
  | .fminF64Lit x => some (x.enc 10, x.lit)
  | .fmaxF64Lit x => some (x.enc 11, x.lit)
  | .fsetpF64 x => some (encR 0x32 x.g x.cmp.code x.pd x.a x.b 0 0, 0)
  | .fsetpF64Lit x => some (encR 0x33 x.g x.cmp.code x.pd x.a 0 0 0, x.lit)
  | .cvt x => some (encR 0x38 x.g 0 x.d x.a 0 0
      (bit x.sat * 2048 + x.st.code * 128 + x.dt.code * 8 + bit x.ftz * 4 + x.rm.code), 0)
  | .cvtPackInt4 x => some (encR 0x38 x.g 1 x.d x.a 0 0 0, 0)
  | .cvtUnpackInt4 x => some (encR 0x38 x.g 2 x.d x.a 0 0 0, 0)
  | .ld x => some (encM 0x40 x.g x.sz.code x.d 0 x.b x.ofs, 0)
  | .st x => some (encM 0x41 x.g x.sz.code x.d 0 x.b x.ofs, 0)
  | .ldLevel x => some (encM 0x42 x.g (x.lv.code * 8 + x.sz.code) x.d (lvA 1 x.acq) x.b x.ofs, 0)
  | .stLevel x => some (encM 0x43 x.g (x.lv.code * 8 + x.sz.code) x.d (lvA 2 x.rel) x.b x.ofs, 0)
  | .atom x => some (x.enc, 0)
  | .bra x => some (encI 0x50 x.g (bit x.div) 0 0 x.imm, 0)
  | .brx x => some (encR 0x51 x.g (bit x.div) 0 x.a 0 0 0, 0)
  | .nop g => some (encR 0x98 g 0 0 0 0 0 0, 0)
  | .srd x => some (encR 0x98 x.g 1 x.d x.r.code 0 0 0, 0)
  | .swr x => some (encR 0x98 x.g 2 10 x.r 0 0 0, 0)
  | .bru imm => some (encI 0x52 g0 0 0 0 imm, 0)
  | .dqpop d => some (encR 0x99 g0 0 d 0 0 0 0, 0)
  | .call x => some (encI 0x53 x.g 0 x.d 0 x.imm, 0)
  | .ret x => some (encR 0x54 x.g 0 0 x.r 0 0 0, 0)
  | .exit g => some (encR 0x54 g 1 0 0 0 0 0, 0)
  | .vote x => some (encR 0x58 x.g (match x.mode with | .any => 0 | .all => 1 | .uni => 2) x.pd x.pa 0 (ov x.mm)
      (mmX x.mm), 0)
  | .ballot x => some (encR 0x58 x.g 3 x.d x.pa 0 (ov x.mm) (mmX x.mm), 0)
  | .ballotIndexed x => some (encR 0x58 x.g 4 x.d x.pa x.b (ov x.mm) (mmX x.mm), 0)
  | .swx x => some (x.enc, 0)
  | .qxch x => some (encR 0x5A x.g (bit x.w64 * 4 + x.mode.code) x.d x.a 0 0 0, 0)
  | .regroup pa imm => some (encI 0x5B g0 0 0 pa imm, 0)
  | .regroupLit pa lit => some (encR 0x5C g0 0 0 pa 0 0 0, lit)
  | .regather imm => some (encI 0x5D g0 0 0 0 imm, 0)
  | .regatherLit lit => some (encR 0x5E g0 0 0 0 0 0 0, lit)
  | .sadd x => some (x.enc 0, 0)
  | .ssub x => some (x.enc 1, 0)
  | .smul x => some (x.enc 2, 0)
  | .sand x => some (x.enc 3, 0)
  | .sor x => some (x.enc 4, 0)
  | .sxor x => some (x.enc 5, 0)
  | .sshl x => some (x.enc 6, 0)
  | .sshr x => some (x.enc 7, 0)
  | .ssar x => some (x.enc 8, 0)
  | .smov d a => some (encR 0xC0 g0 9 d a 0 0 0, 0)
  | .ssel x => some (encR 0xC0 g0 10 x.d x.a x.b x.c 0, 0)
  | .saddImm x => some (x.enc 0, 0)
  | .ssubImm x => some (x.enc 1, 0)
  | .smulImm x => some (x.enc 2, 0)
  | .sandImm x => some (x.enc 3, 0)
  | .sorImm x => some (x.enc 4, 0)
  | .sxorImm x => some (x.enc 5, 0)
  | .sshlImm x => some (x.enc 6, 0)
  | .sshrImm x => some (x.enc 7, 0)
  | .ssarImm x => some (x.enc 8, 0)
  | .smovi d imm => some (encI 0xC1 g0 9 d 0 imm, 0)
  | .saddLit x => some (x.enc 0, x.lit)
  | .ssubLit x => some (x.enc 1, x.lit)
  | .smulLit x => some (x.enc 2, x.lit)
  | .sandLit x => some (x.enc 3, x.lit)
  | .sorLit x => some (x.enc 4, x.lit)
  | .sxorLit x => some (x.enc 5, x.lit)
  | .sshlLit x => some (x.enc 6, x.lit)
  | .sshrLit x => some (x.enc 7, x.lit)
  | .ssarLit x => some (x.enc 8, x.lit)
  | .smovl d lit => some (encR 0xC2 g0 9 d 0 0 0 0, lit)
  | .scmp x => some (encR 0xC3 g0 (scmpFn x.sgn x.cmp) x.d x.a x.b 0 0, 0)
  | .scmpImm x => some (encI 0xC4 g0 (scmpFn x.sgn x.cmp) x.d x.a x.imm, 0)
  | .sld x => some (encM 0xC5 g0 x.sz.code x.d 0 x.b x.ofs, 0)
  | .sst x => some (encM 0xC6 g0 x.sz.code x.d 0 x.b x.ofs, 0)
  | .satom x => some (x.enc, 0)
  | .sbra imm => some (encI 0xC8 g0 0 0 0 imm, 0)
  | .sbz x => some (encI 0xC8 g0 1 0 x.a x.imm, 0)
  | .sbnz x => some (encI 0xC8 g0 2 0 x.a x.imm, 0)
  | .scall x => some (encI 0xC8 g0 3 x.d 0 x.imm, 0)
  | .sret a => some (encR 0xC9 g0 0 0 a 0 0 0, 0)
  | .sexit => some (encR 0xC9 g0 1 0 0 0 0 0, 0)
  | .sfence x => some (x.enc 0xCA, 0)
  | .dqpush a => some (encR 0xCB g0 0 0 a 0 0 0, 0)
  | .fmbind x => some (x.enc 0, 0)
  | .fmswap x => some (x.enc 1, 0)
  | .fmquery d k => some (encR 0xCC g0 2 d 0 0 0 k, 0)
  | .plaunch a => some (encR 0xCD g0 0 0 a 0 0 0, 0)
  | .pcancel a => some (encR 0xCD g0 1 0 a 0 0 0, 0)
  | .prepeat a => some (encR 0xCD g0 2 0 a 0 0 0, 0)
  | .fence x => some (x.enc 0x60, 0)
  | .bar x => some (x.enc 0, 0)
  | .barArv x => some (x.enc 1, 0)
  | .boarr x => some (encR 0x62 x.g 0 x.d (ov x.cnt) x.b 0 (bit x.cnt.isNone * 256 + x.sc.code * 8), 0)
  | .bowait x => some (encR 0x63 x.g 0 0 x.a x.b 0 (x.sc.code * 8), 0)
  | .tlwait x => some (encR 0x64 g0 0 0 x.a x.b 0 ((if x.sys then 5 else 4) * 8), 0)
  | .shld x => some (x.enc 0, 0)
  | .shst x => some (x.enc 1, 0)
  | .shset x => some (encR 0x69 x.g x.f.code x.sh x.a 0 0 0, 0)
  | .cpy x => some (encR 0x6A x.g 0 x.d x.a (ov x.bo) 0 (boX x.bo + bit x.cv * 8), 0)
  | .cpyHalo x => some (encR 0x6A x.g 1 x.d x.a (ov x.bo) 0 (x.hd.val * 32 + boX x.bo), 0)
  | .cpyRed x => some (encR 0x6A x.g 2 x.d x.a (ov x.bo) 0 (boX x.bo), 0)
  | .cbatch d => some (encR 0x6B g0 0 d 0 0 0 0, 0)
  | .cwait x => some (encR 0x6B g0 1 0 x.a 0 0 (x.sc.code * 8), 0)
  | .qscan x => some (x.enc 0x80, 0)
  | .qrot x => some (encR 0x81 x.g 0 x.d x.a x.b 0 (x.gs.code * 8), 0)
  | .qsmooth x => some (encR 0x82 x.g 0 x.d x.a x.b 0 0, 0)
  | .qcvt x => some (x.enc 0x83, 0)
  | .xcvtEncode x => some (x.enc 0, 0)
  | .xcvtDecode x => some (x.enc 1, 0)
  | .mopen x => some (encR 0x70 x.g 0 (ov x.num) x.c 0 0 (bit x.num.isSome * 8), 0)
  | .mclose x => some (encR 0x70 x.g 1 (ov x.num) x.c 0 0 (x.os.toNat * 16 + bit x.num.isSome * 8), 0)
  | .mma x => some (x.enc 0, 0)
  | .mdist x => some (x.enc 1, 0)
  | .mtopk x => some (encR 0x72 x.g 0 x.d x.a x.b 0 ((x.k.val + 1) * 8), 0)
  | .mwait x => some (encR 0x73 g0 0 0 x.a 0 0 (x.sc.code * 8), 0)
  | .mwaitAll sc => some (encR 0x73 g0 1 0 0 0 0 (sc.code * 8), 0)
  | .capenter x => some (encR 0x88 g0 0 0 x.a x.b 0 (x.len.val * 8), 0)
  | .capexit a => some (encR 0x89 g0 0 0 a 0 0 0, 0)
  | .capres d => some (encR 0x8A g0 0 d 0 0 0 0, 0)
  | .capld x => some (encM 0x8B g0 (capWfn x.w64) x.d 0 x.b x.ofs, 0)
  | .capst x => some (encR 0x8C g0 (capWfn x.w64) 0 x.a x.b 0 0, 0)
  | .capcas x => some (encR 0x8D g0 (capWfn x.w64) x.d x.a x.b x.c 0, 0)
  | .capop x => some (x.enc, 0)
  | .capbr x => some (x.enc, 0)
  | .solveBegin x => some (x.enc 0, 0)
  | .solveEnd x => some (x.enc 1, 0)
  | .solveSet x => some (encR 0x91 g0 x.p.code 0 x.a 0 0 0, 0)
  | .solveStat x => some (encR 0x92 g0 0 x.d 0 0 0 (x.sel.val * 8), 0)
  | .trap x => some (encI 0x9A g0 0 0 x.a (x.code.zeroExtend 29), 0)
  | .tfence => some (encR 0x9B g0 0 0 0 0 0 0, 0)
  | .clrf m => some (encR 0x9B g0 1 0 0 0 0 (m.toNat * 8), 0)
  | .brk => some (encR 0x9B g0 2 0 0 0 0 0, 0)
  | .featq x => some (encR 0x9C g0 0 x.d 0 0 0 (x.sel.val * 8), 0)
  | _ => none

/-- The words of an instruction in fetch order: the literal follows its word (R47). -/
def encodeWords (i : Instr) : List DWord :=
  match encode i with
  | none => []
  | some (w, lit) =>
    if isLiteralOp (Fields.ofWord w).op then [BitVec.ofNat 64 w, lit] else [BitVec.ofNat 64 w]

/-! ### The table's numbering of an instruction's bits -/

/-- The instruction that the decoder reads from bits w, bit 0 the least significant of the first 64-bit word and a
literal's bits counted on from bit 64; bits above the nbits that the table gives are 0. -/
def decodeTableWord (nbits w : Nat) : Option Instr :=
  let v := w % 2 ^ nbits
  match decodeAny (v % 2 ^ 64) (BitVec.ofNat 64 (v / 2 ^ 64)) with
  | .ok i => some i
  | .error _ => none

end Sys2Proof
end

