-- ==== Sys2Proof/Machine/State.lean ====
section
/-!
DEFINITION. Machine/State.lean: the machine's state, as plain data, and the machine right after power-on reset.
Memories are lists of cells in one canonical form. Registers hold bit vectors; counts, identifiers and addresses
of cells are natural numbers; what may be absent is an Option; what has an order is a List.
-/
namespace Sys2Proof.Machine

/-! ### Reasons a step can stop -/

/-- Faults of the model. -/
inductive Fault where
  /-- A core instruction was run while State.cur names no agent that exists and has the matching stream (raised by
  the meanings of team and Foyer instructions); no run of step meets it, so it is safe. -/
  | noAgent
  deriving DecidableEq, Repr

/-- Refusals of the model. -/
inductive Refusal where
  /-- The instruction has no meaning yet (raised by Dispatch only); safe: nothing can be proved of what it does. -/
  | notModelled (mnemonic : String)
  deriving DecidableEq, Repr

/-! ### Memory -/

/-- A memory: cells at strictly rising addresses, none holding 0, which is what an unlisted address reads as. -/
abbrev Memory := List Host.Cell

/-- What an address that is not listed reads as: 0 on chip (R195); in HBM, host and peer memory the device defines
no value (R471), and the model fixes 0 (DESIGN CHOICE, notes/assumptions/3). -/
def Memory.unlisted : Byte := 0#8

/-- The canonical form: addresses strictly rise and no cell holds the unlisted value. -/
def Memory.wf : Memory → Bool
  | [] => true
  | [c] => c.2 != Memory.unlisted
  | c :: d :: m => c.2 != Memory.unlisted && c.1 < d.1 && Memory.wf (d :: m)

/-- A table from numbers to 64-bit words, in rising order, with 0 for what is not listed. -/
abbrev Regs := List (Nat × DWord)

/-! ### Agents and marks (R221, R235) -/

/-- The agents and engine contexts whose accesses the device tells apart (R221); l, b, t are %launch, %block, %team. -/
inductive AgentId where
  | team (l b t : Nat)
  | foyer (l b : Nat)
  | hearth (l b t : Nat)
  | copy (l b t : Nat)
  | solve (l b : Nat)
  | bulk (q : Nat)
  | format (fn : Nat)
  | porch (k : Nat)
  | prologue (k : Nat)
  | host
  deriving DecidableEq, Repr

/-- A mark of an open region on a 32-byte granule of physical memory (R235); va is the granule's virtual address, op the
engine operation whose region it is (R223), 0 where the agent has one region. -/
structure Mark where
  granule : Nat
  va : Nat
  agent : AgentId
  op : Nat
  write : Bool
  deriving DecidableEq, Repr

/-! ### The L1 data caches (R203, R204, R210, R230) -/

/-- A core of the device by its physical place: die, cluster, core (R2). -/
structure Unit3 where
  die : Nat
  cluster : Nat
  core : Nat
  deriving DecidableEq, Repr

/-- A line of an L1: its address divided by 128, its way and class, which bytes are valid and which dirty. -/
structure Line where
  tag : Nat
  way : Nat
  cls : Nat
  valid : BitVec 128
  dirty : BitVec 128
  data : BitVec 1024
  deriving DecidableEq, Repr

/-- The L1 of one core: its lines, the most recently used first, and the dirty FIFO, its head first. -/
structure L1 where
  core : Unit3
  lines : List Line
  fifo : List Nat
  deriving DecidableEq, Repr

/-- A line held in the L2 of a die: where it lies, its address divided by 128, and its class (R205, R209). Its bytes are
those of State.mem: the L2 is coherent (R205). -/
structure L2Line where
  die : Nat
  set : Nat
  way : Nat
  tag : Nat
  cls : Nat
  deriving DecidableEq, Repr

/-! ### Translation (R404 to R415) -/

/-- The attributes of a translation (R410) and the D values it was built with (R411). -/
structure Attrs where
  writable : Bool
  readable : Bool
  exec : Bool
  checked : Bool
  cls : Option (Fin 16)
  d1 : Bool
  d2 : Bool
  deriving DecidableEq, Repr

/-- A TLB entry: one page of one address space; die none stands for the I/O die (R412). -/
structure TlbEntry where
  die : Option Nat
  fn : Nat
  asid : Nat
  va : Nat
  bits : Nat
  pa : Nat
  gpa : Nat
  attrs : Attrs
  deriving DecidableEq, Repr

/-- An invalidation written to TLBINV and not complete (R413). -/
inductive Inval where
  | page (asid : Nat) (va : Nat)
  | asid (asid : Nat)
  | func (fn : Nat)
  deriving DecidableEq, Repr

/-! ### A lane's seat, a fragment, a team (R18 to R23, R141 to R156) -/

/-- The lane states of R141. -/
inductive LaneSt where
  | absent | active | parked | exited
  deriving DecidableEq, Repr

/-- A seat: the lane it holds, with the lane's state, helper mark and predicates (bit k is pk), and the seat's own
vector registers (R156, R182). -/
structure Seat where
  lane : Nat
  st : LaneSt
  helper : Bool
  preds : BitVec 16
  vregs : List Word
  deriving DecidableEq, Repr

/-- A result held in a bypass latch: the register it was written to and, by seat, the words (R61). -/
structure Latch where
  reg : Nat
  words : List (List Word)
  deriving DecidableEq, Repr

/-- How a fragment or Foyer context has been lifted in issue priority (R154, R158). -/
inductive Lift where
  | none | waited1024 | waited16384
  deriving DecidableEq, Repr

/-- A fragment: PC, mask by seat, and the facts of R151 to R154; since is the tick from which it has been ready without issuing
(R154); chain holds the latches of the open chain, newest first, and chainPc its head; stalled says that its last issue had to
wait, holds that it waits in an instruction after which its team issues nothing (R241, R289), counts that it waits for the
scratch completion counter (R199); skip is the breakpoint's PC at which it does not stop again (R162). -/
structure Frag where
  pc : DWord
  mask : BitVec 1024
  parked : Bool
  released : Bool
  bec : Nat
  lift : Lift
  since : Nat
  stalled : Bool
  holds : Bool
  counts : Bool
  skip : Option DWord
  chain : Option (List (Option Latch))
  chainPc : DWord
  deriving DecidableEq, Repr

/-- A load whose data is not yet written to its destination: register, count, the words by seat (none: the seat takes
no part), whether it is posted (R199), the scoreboard it set (R59), and of the lanes that read peer memory the seat, the
device and the address (R481). -/
structure Pending where
  reg : Nat
  count : Nat
  words : List (Option (List Word))
  posted : Bool
  sb : Nat
  peers : List (Nat × Nat × DWord)
  deriving DecidableEq, Repr

/-- A named barrier (R243). -/
structure Bar where
  phase : BitVec 8
  cnt : BitVec 6
  isOpen : Bool
  arr : BitVec 32
  deriving DecidableEq, Repr

/-- An arrival that a team waits on: barrier number, .clu, and whether the phase in which it arrived has completed
(R245). -/
structure BarWait where
  bn : Nat
  clu : Bool
  done : Bool
  deriving DecidableEq, Repr

/-- Why an engine operation is suspended (R266, R324): the cause, INNER, the address, and the agent that it conflicts
with. -/
structure Susp where
  cause : Cause
  inner : BitVec 8
  addr : DWord
  who : Option AgentId
  deriving DecidableEq, Repr

/-- A committed copy; the fields follow the copy entry of R424, but for key, the model's own name of its region (R223). -/
structure CopyOp where
  key : Nat
  batch : Nat
  pos : Nat
  form : Nat
  xbits : Nat
  src : BitVec 512
  dst : BitVec 512
  bo : Option DWord
  pc : DWord
  progress : Nat
  susp : Option Susp
  done : Bool
  flags : BitVec 7
  bind : Option Nat
  deriving DecidableEq, Repr

/-- A team's copy context (R256, R261): copies not complete, the next batch number, the timeline, the flags of
complete batches not delivered, and the highest batch each CWAIT has covered. -/
structure CopyCtx where
  ops : List CopyOp
  nextBatch : Nat
  timeline : Nat
  flags : List (Nat × BitVec 7)
  deriving DecidableEq, Repr

/-- The kinds of Hearth operation (R329). -/
inductive HKind where
  | mopen | mclose | mma | mdist | mtopk
  deriving DecidableEq, Repr

/-- A Hearth operation issued and not complete (R321, R424): sweep is the elected lane's; cSh is the C shape or MTOPK's
tile; reg is the first register of operand A or of MTOPK's destination, rpp the registers of one pass, np the passes
(MTOPK: its k), passes those done; waiting is a posted reservation entry, or a wait for merge cells; granted that it
holds its quadrants; sb and wbs are MTOPK's SBSET and WBS (R59). -/
structure HOp where
  num : Nat
  kind : HKind
  word : DWord
  pc : DWord
  sweep : Nat
  cSh : BitVec 512
  bSh : BitVec 512
  aSh : BitVec 512
  base : Word
  reg : Nat
  rpp : Nat
  np : Nat
  passes : Nat
  waiting : Bool
  granted : Bool
  age : Nat
  susp : Option Susp
  bind : Option Nat
  sb : Nat := 0
  wbs : Bool := false
  deriving DecidableEq, Repr

/-- A team's Hearth context (R330, R336): operations not complete, the next number, the timeline, and the MO and ML
bits of closed tiles not delivered. -/
structure HearthCtx where
  ops : List HOp
  nextNum : Nat
  timeline : Nat
  flags : List (Nat × BitVec 7)
  deriving DecidableEq, Repr

/-- What a team does in the block's solve region (R457, R458): it has arrived and waits, or may leave; failed: it raises
0xA8 when it issues again (R461). -/
inductive SolveWait where
  | none
  | atBegin
  | atEnd
  | repeatTo
  | exitNow
  | failed
  deriving DecidableEq, Repr

/-- One of the last sixteen words that a team issued in honoured native code: the instruction, its opcode, the scoreboard it set, whether
every later reader finds its result written, the cycles that STALL counts have put between it and the next word, and the
registers as they stood before it (R62). -/
structure Past where
  ins : Instr
  op : Nat
  sb : Nat
  settled : Bool
  since : Nat
  seats : List Seat
  asf : Word
  ate : Word
  trapres : DWord
  deriving DecidableEq, Repr

/-- A team (R137, R424). Registers lie with the seats; parked is the pending record that holds the team; adopt is the
epoch and lock object of an adoption in progress (R440); capDue is the store of a committed CAPST or CAPCAS that has not
performed yet, its physical address and bytes (R438); past lists its last words in honoured native code, the newest
first, the model's own (notes/assumptions/33). -/
structure Team where
  seats : List Seat
  frags : List Frag
  asf : Word
  ate : Word
  trapres : DWord
  qprog : DWord
  dqPos : Nat
  shapes : List (BitVec 512)
  creg : List DWord
  inCap : Bool
  adopt : Option (Nat × DWord)
  capDue : Option (Nat × List Byte) := none
  saved : Option (List Nat)
  parked : Option Nat
  stop : Bool
  stepping : Bool
  stepDone : Bool
  pend : List Pending
  scratch : Nat
  sb : BitVec 4
  bar : Option BarWait
  solve : SolveWait
  copy : CopyCtx
  hearth : HearthCtx
  past : List Past := []
  deriving DecidableEq, Repr

/-! ### Foyer context, solve context, block (R157, R159, R243, R451) -/

/-- A load of a Foyer context whose data is not yet written: register, value, scoreboard, and for peer memory the device and
the address. -/
structure FPending where
  reg : Nat
  val : DWord
  sb : Nat
  peer : Option (Nat × DWord)
  deriving DecidableEq, Repr

/-- One of the last sixteen words that a Foyer context issued in honoured native code (R62, R65). -/
structure FPast where
  ins : Instr
  op : Nat
  sb : Nat
  settled : Bool
  since : Nat
  s : List DWord
  deriving DecidableEq, Repr

/-- A Foyer context (R157); since is the tick from which it has been ready without issuing (R158). -/
structure Foyer where
  pc : DWord
  s : List DWord
  sexit : Bool
  parked : Option Nat
  stop : Bool
  stepping : Bool
  stepDone : Bool
  stalled : Bool
  lift : Lift
  since : Nat
  skip : Option DWord
  chain : Option (List (Option (Nat × DWord)))
  chainPc : DWord
  pend : List FPending
  sb : BitVec 4
  past : List FPast := []
  deriving DecidableEq, Repr

/-- What the solve context's mixing engine is doing (R457 to R464): stage 0 starts the evaluation, n + 1 has written back n
elements. -/
inductive SolvePhase where
  | idle
  | copying
  | evaluating (stage : Nat)
  | decided (rep : Bool)
  | suspended (why : Susp) (stage : Nat)
  deriving DecidableEq, Repr

/-- A block's solve context (R451, R452, R465): repeats and exits are the decisions pending for the Foyer, cols (mk), gam and
flags belong to the evaluation in hand; which teams have arrived stands with the teams. -/
structure Solve where
  thresh : Word
  ceil : BitVec 16
  depth : BitVec 4
  hbase : Word
  state : Nat
  iter : Nat
  norm : Word
  timeline : Nat
  tiles : List (BitVec 512)
  repeats : Nat
  exits : Nat
  cols : Nat
  gam : List Word
  flags : BitVec 7
  phase : SolvePhase
  deriving DecidableEq, Repr

/-- A block made resident (R139, R423). -/
structure Block where
  id : Nat
  place : Unit3
  runsOn : Unit3
  age : Nat
  foyer : Foyer
  teams : List Team
  dq : List DWord
  dqFreed : Nat
  bars : List (Nat × Bar)
  scratch : Memory
  slices : Memory
  solve : Solve
  deriving DecidableEq, Repr

/-! ### Launch (R366 to R370) -/

/-- A code region of an image, or a native region of an installed translation (R55, R149, R367). -/
structure Region where
  start : Nat
  len : Nat
  foyer : Bool
  native : Bool
  dialect : Nat
  jmap : Option (List Byte)
  deriving DecidableEq, Repr

/-- The header of a loaded kernel image, its offsets resolved against KADDR (R367, R368). -/
structure Image where
  kaddr : Nat
  regs : Nat
  lanes : Nat
  teams : Nat
  pfm : Nat
  scra : Nat
  slice : Nat
  clg : Nat
  cmem : Nat
  regions : List Region
  fent : DWord
  tent : DWord
  stab : List (DWord × DWord)
  safe : List DWord
  deriving DecidableEq, Repr

/-- An installed translation: native regions and the native address of each safe point (R69); one that has been
uninstalled stays in the code map, not active, for the agents that still run it (R71). -/
structure Xlat where
  regions : List Region
  points : List (DWord × DWord)
  active : Bool
  deriving DecidableEq, Repr

/-- A cluster group with a resident block: its cluster memory and barriers (R138, R195, R243). -/
structure Group where
  id : Nat
  mem : Memory
  bars : List (Nat × Bar)
  deriving DecidableEq, Repr

/-- Where a launch stands (R369, R392, R417). -/
inductive LaunchSt where
  | waiting | running | stopped | evicted | ended
  deriving DecidableEq, Repr

/-- A launch that is present on the device (R370): its installed translations, the newest first (R69, R71); cores, those that
have held agents of it since it last became resident (R417); code, memory as the launch found it when it began (R44). -/
structure Launch where
  id : Nat
  queue : Nat
  pkt : Nat
  asid : Nat
  fn : Nat
  prio : Nat
  ac : Nat
  lpkt : List Byte
  param : DWord
  nblk : Nat
  pant : Nat
  sig : DWord
  pin : Option Unit3
  diem : Nat
  ring : Option Nat
  dstop : Bool
  st : LaunchSt
  saves : Nat
  img : Image
  xlats : List Xlat
  nextB : Nat
  finals : List (Nat × Nat)
  blocks : List Block
  groups : List Group
  pantry : List (Nat × Memory)
  cores : List Unit3
  code : Memory
  deriving DecidableEq, Repr

/-! ### Merge tiles (R315 to R320), bindings and the format manager (R337 to R355) -/

/-- A merge cell: the marks of R317 and the exact sum. -/
structure MCell where
  nan : Bool
  pinf : Bool
  ninf : Bool
  mo : Bool
  n : Int
  deriving DecidableEq, Repr

/-- An open tile (R315), named by its physical address. -/
structure Tile where
  pa : Nat
  cva : DWord
  asid : Nat
  anchor : Int
  w : Nat
  count : Nat
  mo : Bool
  ml : Bool
  cells : List MCell
  owner : AgentId
  num : Nat
  spilled : Bool
  deriving DecidableEq, Repr

/-- A verified container held in a hardware slot (R337, R340 to R343): its hash, descriptor and tables as read. -/
structure Container where
  hash : List Byte
  bytes : List Byte
  deriving DecidableEq, Repr

/-- A hardware slot of a die (R337). -/
structure HwSlot where
  die : Nat
  ix : Nat
  ct : Option Container
  deriving DecidableEq, Repr

/-- A binding that an entry holds or that earlier uses still hold (R338, R349). -/
structure Binding where
  id : Nat
  ct : Container
  ctVa : DWord
  held : List AgentId
  deriving DecidableEq, Repr

/-- An entry of an address space's binding table (R338, R355). -/
structure BindEntry where
  asid : Nat
  k : Nat
  bound : Option Nat
  req : BitVec 16
  lstat : BitVec 8
  pend : Nat
  blocked : Bool
  deriving DecidableEq, Repr

/-- The phases of the request that a stream is processing (R348, R349). -/
inductive FmPhase where
  | queued | draining | reconfig
  deriving DecidableEq, Repr

/-- A format-manager request (R346, R354): loaded is the container once verified, bind the binding it prepares, pkt the
FORMAT packet or origin the launch and block whose Foyer made it. -/
structure FmReq where
  num : Nat
  asid : Nat
  k : Nat
  swap : Bool
  ct : DWord
  obj : DWord
  pkt : Option Nat
  origin : Option (Nat × Nat)
  phase : FmPhase
  loaded : Option Container
  bind : Option Nat
  deriving DecidableEq, Repr

/-- A function's format-manager request stream (R346). -/
structure FmStream where
  reqs : List FmReq
  next : Nat
  timeline : Nat
  deriving DecidableEq, Repr

/-! ### Functions and their registers (R357, R390, R402, R405, R413, R414, R429) -/

/-- The state of one function: 0 is the physical function; live says that it exists (SR-IOV, R429, R473). -/
structure Func where
  id : Nat
  live : Bool
  fenv : List DWord
  fenvFixed : Bool
  keys : List (List Byte)
  s2ctl : DWord
  shctl : DWord
  s2fault : DWord
  tlbinva : DWord
  tlbq : List Inval
  dlbase : DWord
  dlend : DWord
  dlptr : DWord
  dlEn : Bool
  dlIrq : Bool
  qresult : DWord
  qrange : DWord
  dstop : Bool
  lerr : DWord
  resumel : DWord
  hwbp : List DWord
  stream : FmStream
  deriving DecidableEq, Repr

/-! ### Queues and packets (R356 to R379) -/

/-- A queue (R356, R357, R362, R379): creator wrote its QCREATE; lastMap is 0 where it has never been mapped, else its last
mapping's tick plus 1; launches is the count of R370. -/
structure Queue where
  id : Nat
  fn : Nat
  creator : Nat
  bulk : Bool
  asid : Nat
  prio : Nat
  ac : Nat
  irqe : Bool
  watch : Bool
  lsize : Nat
  clsz : Nat
  ring : DWord
  widxa : DWord
  ridxa : DWord
  cring : DWord
  cidxa : DWord
  ridx : Nat
  widx : Nat
  notify : DWord
  notified : Bool
  mapped : Bool
  lastMap : Nat
  reclaim : Bool
  halted : Bool
  status : BitVec 8
  detail : BitVec 16
  launches : Nat
  destroy : Bool
  timeline : Nat
  deriving DecidableEq, Repr

/-- How far a packet in flight has come (R359, R365): in hand and not consumed, started, or halted with its queue. -/
inductive PktSt where
  | held | started | waiting
  deriving DecidableEq, Repr

/-- A packet that a queue or a graph run holds (R359, R377): parent is the GRAPH packet of its run; sub is what its
TYPE counts (the FENCE counters met, as bits; bytes done; 1 once performed or begun); aux holds the list of a FENCE, the result
of a FORMAT, or the status and cause of a bulk packet that is done; img is the image of a LAUNCH that has passed its checks
(R359, R369). -/
structure Pkt where
  key : Nat
  queue : Nat
  parent : Option Nat
  ix : Nat
  bytes : List Byte
  st : PktSt
  sub : Nat
  aux : List DWord
  img : Option Image
  deriving DecidableEq, Repr

/-- A running graph run (R377). -/
structure Graph where
  key : Nat
  bytes : Nat
  pkts : List (List Byte)
  next : Nat
  deriving DecidableEq, Repr

/-- A run of a prologue on the prologue engine (R374). -/
structure Prologue where
  key : Nat
  runs : Nat
  launches : Nat
  steps : Nat
  pc : DWord
  s : List DWord
  active : Bool
  outcome : Option (Nat × Nat)
  repeats : Bool
  launch : Option Nat
  deriving DecidableEq, Repr

/-! ### Service rings and records (R384 to R391, R493) -/

/-- The producer state of a service ring header (R493). -/
structure Ring where
  hdr : Nat
  base : DWord
  lsize : Nat
  pidx : Nat
  deriving DecidableEq, Repr

/-- What a resume of a record continues (R391, R394). -/
inductive ResumeTo where
  | reissue
  | after (pc : DWord)
  | syscall (pc : DWord)
  | skip
  | step
  | none
  | copyOp (batch pos : Nat)
  | hearthOp (num : Nat)
  deriving DecidableEq, Repr

/-- A record that waits for its place in the ring or for its resume (R385 to R391). -/
structure Record where
  id : Nat
  launch : Nat
  agent : AgentId
  kind : Nat
  cause : Cause
  len : Nat
  body : List Byte
  pc : DWord
  low : Nat
  onResume : ResumeTo
  ix : Option Nat
  deriving DecidableEq, Repr

/-! ### The schedule of the model -/

/-- What moves next (DESIGN CHOICE, notes/assumptions/1): a fragment of a team (none: the candidate of R152), a Foyer
context, a prologue run, or an event. -/
inductive Turn where
  | team (l b t : Nat) (f : Option Nat)
  | foyer (l b : Nat)
  | prologue (k : Nat)
  | event (i : Instr)
  deriving DecidableEq, Repr

/-- The agent whose instruction runs. -/
inductive Agent where
  | team (l b t f : Nat)
  | foyer (l b : Nat)
  | prologue (k : Nat)
  deriving DecidableEq, Repr

/-- The instruction being issued: the agent, the address, the word and literal as fetched, the schedule field (none
outside honoured or interlocked native code), and the fall-through address (R54, R56, R58). -/
structure Cur where
  agent : Agent
  pc : DWord
  word : DWord
  lit : DWord
  sched : Option (BitVec 21)
  fall : DWord
  deriving DecidableEq, Repr

/-- BOOTSTAT.STATE of R485. -/
inductive BootSt where
  | rom | verifying | recovery | ready | halted
  deriving DecidableEq, Repr

/-- A peer port (R477, R481): whether it has trained, the device reached, the window it grants, and whether it has lost its
link and is training again. -/
structure Port where
  ix : Nat
  trained : Bool
  dev : Nat
  wlen : Nat
  retraining : Bool
  deriving DecidableEq, Repr

/-- A store or atomic to peer memory that its target may not have acknowledged (R472, R481): where it went, and the bytes
before and after it. -/
structure PeerOp where
  agent : AgentId
  dev : Nat
  va : DWord
  pa : Nat
  old : List Byte
  new : List Byte
  deriving DecidableEq, Repr

/-- An answer of the security block to an SPDM request (R490): the measurement's index and value, the certificate chain of the
device identity key, and the signature over index and value under that key. -/
structure SpdmAnswer where
  index : Nat
  value : List Byte
  chain : List Byte
  sig : List Byte
  deriving DecidableEq, Repr

/-- The machine; ctxcmd is the OP and operand of a CTXCMD that is in progress (BUSY of R416); mmio is what the host's last read
of a register returned (R10). -/
structure State where
  mem : Memory
  l1 : List L1
  l2 : List L2Line
  tlb : List TlbEntry
  acmask : List DWord
  asidctl : Regs
  funcs : List Func
  marks : List Mark
  tiles : List Tile
  slots : List HwSlot
  bindings : List Binding
  binds : List BindEntry
  classmin : List Nat
  queues : List Queue
  pkts : List Pkt
  graphs : List Graph
  prologues : List Prologue
  launches : List Launch
  rings : List Ring
  records : List Record
  intrs : List (Nat × Nat)
  ctxaddr : DWord
  ctxlen : DWord
  ctxmap : DWord
  ctxq : DWord
  ctxstat : DWord
  ctxcmd : Option (Nat × Nat)
  mydev : DWord
  peerrt : Regs
  pwbase : Regs
  pwlen : Regs
  ports : List Port
  peerOut : List PeerOp
  linkUp : Bool
  boot : BootSt
  lastrst : BitVec 8
  err : BitVec 8
  fwver : BitVec 16
  wdCount : Nat
  floor : BitVec 16
  flash : List Byte
  rcvaddr : DWord
  recovering : Bool
  spdm : List SpdmAnswer
  mmio : DWord
  nextKey : Nat
  agenda : List Turn
  cur : Option Cur
  tick : Nat
  freeCtr : Nat
  deriving DecidableEq, Repr

/-! ### Reset -/

/-- FENV words of the whole device (R402, R429): DIALECT 1, ISAVER 1; 4 dies, 36 clusters, 8 slots, 768 units of Pantry,
every page size; every feature; 768 GiB. -/
def Func.wholeDevice : List DWord :=
  [0x0101#64, BitVec.ofNat 64 (4 + 36 * 8 + 8 * 2 ^ 12 + 768 * 2 ^ 16 + 0xFF * 2 ^ 32), 0x3F#64, 768#64]

/-- A request stream with no request: numbers start at 1 (R346). -/
def FmStream.empty : FmStream := ⟨[], 1, 0⟩

/-- A function at reset. -/
def Func.fresh (id : Nat) (keys : List (List Byte)) : Func where
  id := id
  live := id == 0
  fenv := Func.wholeDevice
  fenvFixed := false
  keys := keys
  s2ctl := 0
  shctl := 0
  s2fault := 0
  tlbinva := 0
  tlbq := []
  dlbase := 0
  dlend := 0
  dlptr := 0
  dlEn := false
  dlIrq := false
  qresult := 0
  qrange := 0
  dstop := false
  lerr := 0
  resumel := 0
  hwbp := [0, 0, 0, 0]
  stream := FmStream.empty

/-- The 64 functions at a reset: Aelyn's format key is enrolled for each (R345). -/
def Func.all : List Func := (List.range 64).map fun k => Func.fresh k [Config.aelynKey]

/-- The machine right after power-on reset (R484, R485, R491): BOOTSTAT.STATE is ROM, LASTRST 0, nothing runs. -/
def State.reset : State where
  mem := []
  l1 := []
  l2 := []
  tlb := []
  acmask := List.replicate 16 0xFFFFFFFF#64
  asidctl := []
  funcs := Func.all
  marks := []
  tiles := []
  slots := []
  bindings := []
  binds := []
  classmin := [16, 16, 16, 16]
  queues := []
  pkts := []
  graphs := []
  prologues := []
  launches := []
  rings := []
  records := []
  intrs := []
  ctxaddr := 0
  ctxlen := 0
  ctxmap := 0
  ctxq := 0
  ctxstat := 0
  ctxcmd := none
  mydev := 0
  peerrt := []
  pwbase := []
  pwlen := []
  ports := []
  peerOut := []
  linkUp := false
  boot := .rom
  lastrst := 0
  err := 0
  fwver := 0
  wdCount := 0
  floor := 0
  flash := []
  rcvaddr := 0
  recovering := false
  spdm := []
  mmio := 0
  nextKey := 0
  agenda := []
  cur := none
  tick := 0
  freeCtr := 0

end Sys2Proof.Machine
end

