-- ==== Sys2Proof/Machine/Base.lean ====
section
/-!
DEFINITION. Machine/Base.lean: numbers and bytes, memories in canonical form, and finding and replacing parts of the
state.
-/
namespace Sys2Proof.Machine

/-- What an instruction's meaning answers. -/
abbrev Out := Host.Outcome State Fault Refusal

/-! ### Numbers and bytes -/

/-- The little-endian bytes of a number (R9). -/
def leBytes : Nat → Nat → List Byte
  | 0, _ => []
  | n + 1, v => BitVec.ofNat 8 v :: leBytes n (v / 256)

/-- The number of little-endian bytes (R9). -/
def leNat : List Byte → Nat
  | [] => 0
  | b :: bs => b.toNat + 256 * leNat bs

/-- n bytes of a list from an offset, as a number. -/
def fieldAt (bs : List Byte) (off n : Nat) : Nat := leNat ((bs.drop off).take n)

/-- Bits [lo+w-1:lo] of a word, as a number. -/
def bitsAt {n : Nat} (x : BitVec n) (lo w : Nat) : Nat := x.toNat / 2 ^ lo % 2 ^ w

/-- The largest number whose d-th power is at most x, of k bits above those of r already found. -/
def rootBelow (d x : Nat) : Nat → Nat → Nat
  | 0, r => r
  | k + 1, r => rootBelow d x k (if (r + 2 ^ k) ^ d ≤ x then r + 2 ^ k else r)

/-- A number whose listed bits are set. -/
def maskOf (is : List Nat) : BitVec 1024 := is.foldl (fun m i => m ||| BitVec.twoPow 1024 i) 0

/-- The lowest of the listed numbers, or the default. -/
def lowest (d : Nat) : List Nat → Nat
  | [] => d
  | x :: xs => if x ≤ lowest x xs then x else lowest x xs

/-! ### Memories -/

/-- The byte at an address. -/
def Memory.get (m : Memory) (a : Nat) : Byte :=
  match m with
  | [] => Memory.unlisted
  | c :: m => if c.1 = a then c.2 else Memory.get m a

/-- Write a byte, keeping the canonical form. -/
def Memory.set (m : Memory) (a : Nat) (v : Byte) : Memory :=
  match m with
  | [] => if v = Memory.unlisted then [] else [(a, v)]
  | c :: m =>
    if a < c.1 then (if v = Memory.unlisted then c :: m else (a, v) :: c :: m)
    else if a = c.1 then (if v = Memory.unlisted then m else (a, v) :: m)
    else c :: Memory.set m a v

/-- n bytes from an address. -/
def Memory.bytes (m : Memory) (a : Nat) : Nat → List Byte
  | 0 => []
  | n + 1 => m.get a :: m.bytes (a + 1) n

/-- Write bytes from an address. -/
def Memory.put (m : Memory) (a : Nat) : List Byte → Memory
  | [] => m
  | b :: bs => (m.set a b).put (a + 1) bs

/-- An n-byte little-endian number at an address. -/
def Memory.num (m : Memory) (a n : Nat) : Nat := leNat (m.bytes a n)

/-- A register of a table. -/
def Regs.get (r : Regs) (k : Nat) : DWord :=
  match r with
  | [] => 0
  | c :: r => if c.1 = k then c.2 else Regs.get r k

/-- Write a register of a table, keeping its form. -/
def Regs.set (r : Regs) (k : Nat) (v : DWord) : Regs :=
  match r with
  | [] => if v = 0 then [] else [(k, v)]
  | c :: r =>
    if k < c.1 then (if v = 0 then c :: r else (k, v) :: c :: r)
    else if k = c.1 then (if v = 0 then r else (k, v) :: r)
    else c :: Regs.set r k v

/-! ### Finding and replacing parts of the state -/

/-- Replace the elements that a test picks. -/
def upd {α : Type} (p : α → Bool) (f : α → α) (xs : List α) : List α := xs.map fun x => if p x then f x else x

/-- The function of an identifier. -/
def State.func (s : State) (fn : Nat) : Option Func := s.funcs.find? (fun f => f.id == fn)
/-- The launch of an identifier that is present (R370). -/
def State.launch (s : State) (l : Nat) : Option Launch := s.launches.find? (fun x => x.id == l)
/-- The queue of an ID. -/
def State.queue (s : State) (q : Nat) : Option Queue := s.queues.find? (fun x => x.id == q)
/-- The packet of a key. -/
def State.pkt (s : State) (k : Nat) : Option Pkt := s.pkts.find? (fun x => x.key == k)
/-- A resident block of a launch. -/
def Launch.block (l : Launch) (b : Nat) : Option Block := l.blocks.find? (fun x => x.id == b)

/-- Change a function's registers. -/
def State.updFunc (s : State) (fn : Nat) (f : Func → Func) : State := { s with funcs := upd (fun x => x.id == fn) f s.funcs }
/-- Change a launch. -/
def State.updLaunch (s : State) (l : Nat) (f : Launch → Launch) : State :=
  { s with launches := upd (fun x => x.id == l) f s.launches }
/-- Change a queue. -/
def State.updQueue (s : State) (q : Nat) (f : Queue → Queue) : State := { s with queues := upd (fun x => x.id == q) f s.queues }
/-- Change a packet. -/
def State.updPkt (s : State) (k : Nat) (f : Pkt → Pkt) : State := { s with pkts := upd (fun x => x.key == k) f s.pkts }
/-- Change a block. -/
def State.updBlock (s : State) (l b : Nat) (f : Block → Block) : State :=
  s.updLaunch l fun x => { x with blocks := upd (fun y => y.id == b) f x.blocks }
/-- Change a team. -/
def State.updTeam (s : State) (l b t : Nat) (f : Team → Team) : State :=
  s.updBlock l b fun x => { x with teams := x.teams.modify t f }

/-- A team. -/
def State.team (s : State) (l b t : Nat) : Option Team := do
  let ln ← s.launch l
  let bk ← ln.block b
  bk.teams[t]?

/-- Raise an MSI-X vector of a function (R474). -/
def State.interrupt (s : State) (fn vec : Nat) : State :=
  if s.intrs.contains (fn, vec) then s else { s with intrs := s.intrs ++ [(fn, vec)] }

/-- The registers of a function respond: the link has trained, the firmware is READY and the function exists (R484). -/
def State.responds (s : State) (fn : Nat) : Bool :=
  s.linkUp && s.boot == .ready && (match s.func fn with
    | some f => f.live
    | none => false)

/-- A write to a register of a function: ignored where the registers do not respond (R484). -/
def onRegister (fn : Nat) (s : State) (k : Unit → Out) : Out := if s.responds fn then k () else .next s

end Sys2Proof.Machine
end

