-- ==== Sys2Proof/Machine/Crypto.lean ====
section
/-!
DEFINITION. Machine/Crypto.lean: the digests and signatures that the spec names by their standards: SHA-384 and SHA-256
(FIPS 180-4), ECDSA over P-384 (FIPS 186-5, SP 800-186) and LMS (RFC 8554), for R340, R344, R345, R424, R488 and R490.
PRESUMED: the standards' own text, which the spec cites and does not repeat; notes/assumptions/17.
-/
namespace Sys2Proof.Machine

/-! ### Big-endian bytes, as the standards order them -/

/-- The n big-endian bytes of a number. -/
def beBytes (n v : Nat) : List Byte := (List.range n).map fun i => BitVec.ofNat 8 (v >>> (8 * (n - 1 - i)))

/-- The number of big-endian bytes. -/
def beNat (bs : List Byte) : Nat := bs.foldl (fun v b => 256 * v + b.toNat) 0

/-- Bytes cut into pieces of n, as many as the fuel. -/
def pieces (n : Nat) : Nat → List Byte → List (List Byte)
  | 0, _ => []
  | k + 1, bs => bs.take n :: pieces n k (bs.drop n)

/-! ### The Secure Hash Standard, for a word of w bits -/

/-- The first 80 primes. -/
def primes : List Nat :=
  [2, 3, 5, 7, 11, 13, 17, 19, 23, 29, 31, 37, 41, 43, 47, 53, 59, 61, 67, 71]
    ++ [73, 79, 83, 89, 97, 101, 103, 107, 109, 113, 127, 131, 137, 139, 149, 151, 157, 163, 167, 173]
    ++ [179, 181, 191, 193, 197, 199, 211, 223, 227, 229, 233, 239, 241, 251, 257, 263, 269, 271, 277, 281]
    ++ [283, 293, 307, 311, 313, 317, 331, 337, 347, 349, 353, 359, 367, 373, 379, 383, 389, 397, 401, 409]

/-- f of x, where x is evaluated first. -/
def eager {w : Nat} {α : Type} (x : BitVec w) (f : BitVec w → α) : α :=
  match x.toNat with
  | 0 => f 0
  | n + 1 => f (BitVec.ofNat w (n + 1))
theorem eager_eq {w : Nat} {α : Type} (x : BitVec w) (f : BitVec w → α) : eager x f = f x := by
  unfold eager
  split <;> rename_i h
  · rw [show x = 0 from BitVec.eq_of_toNat_eq (by simpa using h)]
  · rw [← Nat.succ_eq_add_one, ← h, BitVec.ofNat_toNat, BitVec.setWidth_eq]

/-- The first w bits of the fractional part of the d-th root of a prime. -/
def rootBits (d w p : Nat) : BitVec w := BitVec.ofNat w (rootBelow d (p * 2 ^ (d * w)) (w + 5) 0)

/-- What the standard fixes for one of its functions: the rotations and shifts of its four sigmas. -/
structure ShaKind where
  /-- Σ0, three rotations. -/
  big0 : Nat × Nat × Nat
  /-- Σ1, three rotations. -/
  big1 : Nat × Nat × Nat
  /-- σ0, two rotations and a shift. -/
  small0 : Nat × Nat × Nat
  /-- σ1, two rotations and a shift. -/
  small1 : Nat × Nat × Nat
  deriving DecidableEq, Repr

/-- A Σ of a word. -/
def bigSigma {w : Nat} (r : Nat × Nat × Nat) (x : BitVec w) : BitVec w :=
  x.rotateRight r.1 ^^^ x.rotateRight r.2.1 ^^^ x.rotateRight r.2.2

/-- A σ of a word. -/
def smallSigma {w : Nat} (r : Nat × Nat × Nat) (x : BitVec w) : BitVec w :=
  x.rotateRight r.1 ^^^ x.rotateRight r.2.1 ^^^ x >>> r.2.2

/-- The message schedule: the newest word first, as many new ones as the fuel. -/
def schedule {w : Nat} (k : ShaKind) : Nat → List (BitVec w) → List (BitVec w)
  | 0, ws => ws
  | n + 1, ws =>
    eager (smallSigma k.small1 (ws.getD 1 0) + ws.getD 6 0 + smallSigma k.small0 (ws.getD 14 0) + ws.getD 15 0)
      fun x => schedule k n (x :: ws)

/-- One round on the eight working variables. -/
def shaRound {w : Nat} (k : ShaKind) (v : List (BitVec w)) (kw : BitVec w × BitVec w) : List (BitVec w) :=
  match v with
  | [a, b, c, d, e, f, g, h] =>
    let t1 := h + bigSigma k.big1 e + ((e &&& f) ^^^ (~~~e &&& g)) + kw.1 + kw.2
    let t2 := bigSigma k.big0 a + ((a &&& b) ^^^ (a &&& c) ^^^ (b &&& c))
    eager (t1 + t2) fun x => eager (d + t1) fun y => [x, a, b, c, y, e, f, g]
  | _ => v

/-- One block, added into the hash value. -/
def shaBlock {w : Nat} (k : ShaKind) (ks hash : List (BitVec w)) (block : List Byte) : List (BitVec w) :=
  let ws := ((pieces (w / 8) 16 block).map fun b => BitVec.ofNat w (beNat b)).reverse
  let ws := (schedule k (ks.length - 16) ws).reverse
  List.zipWith (· + ·) hash ((ks.zip ws).foldl (shaRound k) hash)

/-- The padding: a one bit, zeros, and the length in bits in the last eighth of a block of B bytes. -/
def shaPad (b n : Nat) : List Byte :=
  128 :: List.replicate ((2 * b - 1 - b / 8 - n % b) % b) 0 ++ beBytes (b / 8) (8 * n)

/-- The hash value of a message, as bytes. -/
def sha {w : Nat} (k : ShaKind) (ks init : List (BitVec w)) (bs : List Byte) : List Byte :=
  let padded := bs ++ shaPad (2 * w) bs.length
  let blocks := pieces (2 * w) (padded.length / (2 * w)) padded
  (blocks.foldl (shaBlock k ks) init).flatMap fun x => beBytes (w / 8) x.toNat

/-- The sigmas of the functions with words of 64 bits. -/
def sha64 : ShaKind := ⟨(28, 34, 39), (14, 18, 41), (1, 8, 7), (19, 61, 6)⟩
/-- The sigmas of the functions with words of 32 bits. -/
def sha32 : ShaKind := ⟨(2, 13, 22), (6, 11, 25), (7, 18, 3), (17, 19, 10)⟩
/-- The round constants of 64 bits: cube roots of the first 80 primes. -/
def sha64K : List (BitVec 64) := (primes.take 80).map (rootBits 3 64)
/-- The round constants of 32 bits: cube roots of the first 64 primes. -/
def sha32K : List (BitVec 32) := (primes.take 64).map (rootBits 3 32)

/-- SHA-384: its first hash value is the square roots of the ninth to the sixteenth prime. -/
def sha384Long (bs : List Byte) : List Byte := sha sha64 sha64K ((primes.drop 8).take 8 |>.map (rootBits 2 64)) bs
/-- SHA-384, the first 48 bytes of its hash value (R340). -/
def sha384 (bs : List Byte) : List Byte := (List.range 48).map fun i => (sha384Long bs).getD i 0
theorem sha384_length (bs : List Byte) : (sha384 bs).length = 48 := by simp [sha384]

/-- SHA-256: its first hash value is the square roots of the first eight primes. -/
def sha256 (bs : List Byte) : List Byte := sha sha32 sha32K (primes.take 8 |>.map (rootBits 2 32)) bs

/-! ### ECDSA over P-384 -/

/-- b to a power modulo m, of an exponent of so many bits. -/
def powMod (m b : Nat) : Nat → Nat → Nat
  | 0, _ => 1 % m
  | k + 1, e =>
    let h := powMod m b k (e / 2)
    if e % 2 = 1 then h * h % m * b % m else h * h % m

/-- The inverse modulo a prime of 384 bits. -/
def invMod (m x : Nat) : Nat := powMod m (x % m) 384 (m - 2)

namespace P384

/-- The field's prime. -/
def p : Nat := 2 ^ 384 - 2 ^ 128 - 2 ^ 96 + 2 ^ 32 - 1
/-- The order of the base point. -/
def n : Nat := 0xFFFFFFFFFFFFFFFFFFFFFFFFFFFFFFFFFFFFFFFFFFFFFFFFC7634D81F4372DDF581A0DB248B0A77AECEC196ACCC52973
/-- The coefficient b of y² = x³ − 3x + b. -/
def b : Nat := 0xB3312FA7E23EE7E4988E056BE3F82D19181D9C6EFE8141120314088F5013875AC656398D8A2ED19D2A85C8EDD3EC2AEF
/-- A point: none for the point at infinity. -/
abbrev Point := Option (Nat × Nat)
/-- The base point. -/
def g : Point := some
  (0xAA87CA22BE8B05378EB1C71EF320AD746E1D3B628BA79B9859F741E082542A385502F25DBF55296C3A545E3872760AB7,
   0x3617DE4A96262C6F5D9E98BF9292DC29F8F41DBD289A147CE9DA3113B5F0B8C00A60B1CE1D7E819D7A431D7C90EA0E5F)

/-- Whether a pair of coordinates is a point of the curve. -/
def onCurve (x y : Nat) : Bool := x < p && y < p && y * y % p == (x * x * x + (p - 3) * x + b) % p

/-- The sum of two points. -/
def add : Point → Point → Point
  | none, r => r
  | q, none => q
  | some (x1, y1), some (x2, y2) =>
    if x1 = x2 ∧ (y1 + y2) % p = 0 then none
    else
      let m := if x1 = x2 then (3 * x1 * x1 + (p - 3)) * invMod p (2 * y1) % p
        else (y2 + (p - y1)) * invMod p (x2 + (p - x1)) % p
      let x := (m * m + (p - x1) + (p - x2)) % p
      some (x, (m * (x1 + (p - x)) + (p - y1)) % p)

/-- A multiple of a point, of a factor of so many bits. -/
def mul (q : Point) : Nat → Nat → Point
  | 0, _ => none
  | k + 1, e =>
    let h := mul q k (e / 2)
    if e % 2 = 1 then add (add h h) q else add h h

/-- Whether a signature, r then s, of a digest verifies under a public key, an uncompressed point of SEC 1. -/
def verify (key digest sig : List Byte) : Bool :=
  let x := beNat ((key.drop 1).take 48)
  let y := beNat ((key.drop 49).take 48)
  let r := beNat (sig.take 48)
  let s := beNat ((sig.drop 48).take 48)
  if key.length = 97 ∧ key.head? = some 4 ∧ onCurve x y ∧ sig.length = 96 ∧ 1 ≤ r ∧ r < n ∧ 1 ≤ s ∧ s < n then
    let w := invMod n s
    match add (mul g 384 (beNat (digest.take 48) * w % n)) (mul (some (x, y)) 384 (r * w % n)) with
    | some (x1, _) => x1 % n == r
    | none => false
  else false

/-- The public key of a secret: an uncompressed point of SEC 1. -/
def publicKey (secret : Nat) : List Byte :=
  match mul g 384 secret with
  | some (x, y) => 4 :: beBytes 48 x ++ beBytes 48 y
  | none => []

/-- The signature of a digest by a secret, with a nonce for which neither r nor s is 0. -/
def sign (secret nonce : Nat) (digest : List Byte) : List Byte :=
  match mul g 384 nonce with
  | some (x, _) => beBytes 48 (x % n) ++ beBytes 48 (invMod n nonce * (beNat (digest.take 48) + x % n * secret) % n)
  | none => []

end P384

/-! ### LMS -/

namespace Lms

/-- The LM-OTS parameters of a type, n = 32: w, p and ls. -/
def otsOf (t : Nat) : Option (Nat × Nat × Nat) :=
  if t = 1 then some (1, 265, 7) else if t = 2 then some (2, 133, 6) else if t = 3 then some (4, 67, 4)
  else if t = 4 then some (8, 34, 0) else none

/-- The height of an LMS type of m = 32. -/
def heightOf (t : Nat) : Option Nat := if 5 ≤ t ∧ t ≤ 9 then some (5 * (t - 4)) else none

/-- The i-th w-bit field of a byte string, the most significant bits of a byte first. -/
def coef (s : List Byte) (i w : Nat) : Nat := (s.getD (i * w / 8) 0).toNat / 2 ^ (8 - (w * (i % (8 / w)) + w)) % 2 ^ w

/-- The checksum of a digest of 32 bytes. -/
def checksum (q : List Byte) (w ls : Nat) : Nat :=
  ((List.range (256 / w)).foldl (fun c i => c + (2 ^ w - 1 - coef q i w)) 0) * 2 ^ ls

/-- A Winternitz chain of piece i, from step j, as many steps as the fuel. -/
def chain (pre : List Byte) (i : Nat) : Nat → Nat → List Byte → List Byte
  | 0, _, y => y
  | k + 1, j, y => chain pre i k (j + 1) (sha256 (pre ++ beBytes 2 i ++ beBytes 1 j ++ y))

/-- The candidate of the one-time public key. -/
def otsCandidate (pre msg c ys : List Byte) (w p ls : Nat) : List Byte :=
  let q := sha256 (pre ++ beBytes 2 0x8181 ++ c ++ msg)
  let qs := q ++ beBytes 2 (checksum q w ls)
  let zs := ((pieces 32 p ys).zip (List.range p)).flatMap fun y =>
    chain pre y.2 (2 ^ w - 1 - coef qs y.2 w) (coef qs y.2 w) y.1
  sha256 (pre ++ beBytes 2 0x8080 ++ zs)

/-- The candidate of the root, up the path from a node. -/
def rootOf (id : List Byte) : Nat → List Byte → List (List Byte) → List Byte
  | _, t, [] => t
  | node, t, x :: xs =>
    let pre := id ++ beBytes 4 (node / 2) ++ beBytes 2 0x8383
    rootOf id (node / 2) (sha256 (if node % 2 = 1 then pre ++ x ++ t else pre ++ t ++ x)) xs

/-- Whether an LMS signature of a message verifies under a public key. -/
def verify (key msg sig : List Byte) : Bool :=
  let id := (key.drop 8).take 16
  let q := beNat (sig.take 4)
  match heightOf (beNat (key.take 4)), otsOf (beNat ((key.drop 4).take 4)) with
  | some h, some (w, p, ls) =>
    if key.length = 56 ∧ sig.length = 12 + 32 * (p + 1) + 32 * h ∧ (sig.drop 4).take 4 = (key.drop 4).take 4
        ∧ (sig.drop (8 + 32 * (p + 1))).take 4 = key.take 4 ∧ q < 2 ^ h then
      let k := otsCandidate (id ++ beBytes 4 q) msg ((sig.drop 8).take 32) (sig.drop 40) w p ls
      let leaf := sha256 (id ++ beBytes 4 (2 ^ h + q) ++ beBytes 2 0x8282 ++ k)
      rootOf id (2 ^ h + q) leaf (pieces 32 h (sig.drop (12 + 32 * (p + 1)))) == key.drop 24
    else false
  | _, _ => false

end Lms

end Sys2Proof.Machine
end

