-- ==== Sys2Proof/Machine/Translate.lean ====
section
/-!
DEFINITION. Machine/Translate.lean: translation of global addresses: the two stages of page tables (R404 to R411), the
TLB and its invalidation (R412, R413), the dirty log (R414, R415), and the checks of R125 on one access.
-/
namespace Sys2Proof.Machine

/-! ### Kinds, failures and results -/

/-- What an access is, for the permissions of R409. An arrival on a barrier object is checked as a store (R247). -/
inductive AKind where
  | load | store | atomic | arrive | fetch
  deriving DecidableEq, Repr

/-- Whether an access writes. -/
def AKind.writes : AKind → Bool
  | .store | .atomic | .arrive => true
  | _ => false

/-- Whether an access needs R = 1 (R409). -/
def AKind.reads : AKind → Bool
  | .store | .arrive => false
  | _ => true

/-- Whether an access reads and writes in one (INNER of R386). -/
def AKind.rmw : AKind → Bool
  | .atomic | .arrive => true
  | _ => false

/-- A failing access: its cause, and for 0x24 the function and the guest-physical page (R405). -/
structure XErr where
  cause : Cause
  s2 : Option (Nat × Nat)
  deriving DecidableEq, Repr

/-- A failure of stage 1. -/
def XErr.of (c : Cause) : XErr := ⟨c, none⟩
/-- A failure of stage 2 of a function at a guest-physical address (R409). -/
def XErr.stage2 (fn gpa : Nat) : XErr := ⟨0x24#8, some (fn, gpa)⟩

/-- The leaf that a walk of one stage reached: the entry, its group's first entry, which holds A and D, with its address
(R408), and the page's size. -/
structure Leaf where
  entry : Nat
  head : Nat
  first : Nat
  bits : Nat
  deriving DecidableEq, Repr

/-- A translation: addresses, page size, attributes, whether a TLB entry gave it, and else the physical addresses of the
leaf entries that hold A and D (R411), with the size code and the guest-physical page base of the stage-2 leaf (R415). -/
structure Tr where
  pa : Nat
  gpa : Nat
  bits : Nat
  attrs : Attrs
  hit : Bool
  leaf1 : Nat
  leaf2 : Option Nat
  sz2 : Nat
  page2 : Nat
  deriving DecidableEq, Repr

/-! ### Physical memory (R471) -/

/-- HBM. -/
def isHbm (pa : Nat) : Bool := pa < 0xC000000000
/-- Peer memory. -/
def isPeer (pa : Nat) : Bool := pa / 2 ^ 51 % 2 == 1
/-- Host memory. -/
def isHostMem (pa : Nat) : Bool := pa / 2 ^ 50 % 4 == 1
/-- A physical address that something backs. -/
def backed (pa : Nat) : Bool := isHbm pa || isPeer pa || isHostMem pa

/-! ### One stage's tables (R406 to R409) -/

/-- The size of a leaf by SZ: its address bits. -/
def szBits : Nat → Nat
  | 0 => 12 | 1 => 16 | 2 => 21 | 3 => 25 | 4 => 30 | 5 => 34 | 6 => 36 | _ => 38
/-- The level at which a leaf of SZ stands. -/
def szLevel : Nat → Nat
  | 0 => 4 | 1 => 4 | 2 => 3 | 3 => 3 | _ => 2
/-- The entries in a group of SZ. -/
def szCount : Nat → Nat
  | 0 => 1 | 1 => 16 | 2 => 1 | 3 => 16 | 4 => 1 | 5 => 16 | 6 => 64 | _ => 256

/-- ADDR of an entry. -/
def pteAddr (e : Nat) : Nat := e / 2 ^ 12 % 2 ^ 40 * 2 ^ 12
/-- One bit of an entry. -/
def pteBit (e k : Nat) : Bool := e / 2 ^ k % 2 == 1
/-- SZ of an entry. -/
def pteSz (e : Nat) : Nat := bits e 9 3

/-- Bits that are reserved in every entry. -/
def pteReserved (e : Nat) : Bool := bits e 52 5 != 0 || bits e 8 1 != 0 || bits e 3 2 != 0

/-- An entry that points to a table is well formed (R407). -/
def tableOk (e : Nat) : Bool :=
  !pteReserved e && bits e 57 7 == 0 && bits e 9 3 == 0 && bits e 6 2 == 0 && bits e 1 2 == 0

/-- A leaf at a level is well formed (R407 to R409). -/
def leafOk (e level : Nat) : Bool :=
  !pteReserved e && szLevel (pteSz e) == level && pteAddr e % 2 ^ szBits (pteSz e) == 0

/-- The group of a leaf is in place: at the multiple of its entry count stands a leaf of the same SZ (R408, R409; DEDUCED,
notes/assumptions/34). -/
def groupOk (e head : Nat) : Bool := pteBit head 0 && pteBit head 5 && pteSz head == pteSz e

/-- Walk the levels listed from a table, reading entries by rd; any malformed entry fails with bad (R406 to R409). -/
def walkTable (rd : Nat → Except XErr Nat) (bad : XErr) (va : Nat) : List Nat → Nat → Except XErr Leaf
  | [], _ => .error bad
  | l :: ls, table =>
    let ix := va / 2 ^ (48 - 9 * l) % 512
    match rd (table + 8 * ix) with
    | .error e => .error e
    | .ok e =>
      if !pteBit e 0 then .error bad
      else if pteBit e 5 then
        let n := szCount (pteSz e)
        let first := table + 8 * (ix / n * n)
        match rd first with
        | .error e => .error e
        | .ok head => if leafOk e l && groupOk e head then .ok ⟨e, head, first, szBits (pteSz e)⟩ else .error bad
      else if tableOk e then walkTable rd bad va ls (pteAddr e)
      else .error bad

/-- The address that a leaf gives. -/
def Leaf.addr (l : Leaf) (va : Nat) : Nat := pteAddr l.entry + va % 2 ^ l.bits

/-! ### Both stages (R404, R405, R409, R410) -/

/-- S2ROOT and EN of a function. -/
def State.s2 (s : State) (fn : Nat) : Nat × Bool :=
  match s.func fn with
  | some f => (bitsAt f.s2ctl 12 40 * 2 ^ 12, f.s2ctl.getLsbD 0)
  | none => (0, false)

/-- A bit of word 2 of a function's envelope (R402). -/
def State.feature (s : State) (fn k : Nat) : Bool :=
  match s.func fn with
  | some f => (f.fenv.getD 2 0).getLsbD k
  | none => false

/-- The final physical address is backed (R471). -/
def backedOr (s : State) (fn gpa pa : Nat) : Except XErr Unit :=
  if backed pa then .ok ()
  else if (s.s2 fn).2 then .error (.stage2 fn gpa) else .error (.of 0x20#8)

/-- Stage 2 of a guest-physical address: the leaf (none: the physical function without stage 2) and the address. -/
def State.stage2 (s : State) (fn gpa : Nat) (kind : AKind) : Except XErr (Option Leaf × Nat) :=
  let bad := XErr.stage2 fn gpa
  if (s.s2 fn).2 then
    if 2 ^ 52 ≤ gpa then .error bad
    else
      match walkTable (fun a => if backed a then .ok (s.mem.num a 8) else .error bad) bad gpa [0, 1, 2, 3, 4] (s.s2 fn).1 with
      | .error e => .error e
      | .ok l =>
        if (kind.reads && !pteBit l.entry 1) || (kind.writes && !pteBit l.entry 2) || (kind == .fetch && pteBit l.entry 63)
        then .error bad
        else
          match backedOr s fn gpa (l.addr gpa) with
          | .error e => .error e
          | .ok _ => .ok (some l, l.addr gpa)
  else if fn == 0 then
    match backedOr s fn gpa gpa with
    | .error e => .error e
    | .ok _ => .ok (none, gpa)
  else .error bad

/-- ACO of an entry. -/
def pteAco (e : Nat) : Fin 16 := Fin.ofNat 16 (bits e 59 4)

/-- ACO where ACV is set. -/
def Leaf.cls (l : Leaf) : Option (Fin 16) :=
  if pteBit l.entry 58 then some (pteAco l.entry) else none

/-- The permission check at the stage-1 leaf (R409). -/
def leafPerm (l : Leaf) (kind : AKind) : Option Cause :=
  if kind.reads && !pteBit l.entry 1 then some 0x20#8
  else if kind.writes && !pteBit l.entry 2 then some 0x21#8
  else if kind == .fetch && pteBit l.entry 63 then some 0x22#8
  else none

/-- The attributes of R410 of a page; the D values are those of the groups' first entries (R408). -/
def mkAttrs (s : State) (fn pa : Nat) (l1 : Leaf) (l2 : Option Leaf) : Attrs :=
  let b (k : Nat) : Bool := match l2 with
    | some l => pteBit l.entry k
    | none => true
  { writable := pteBit l1.entry 2 && b 2
    readable := pteBit l1.entry 1 && b 1
    exec := !pteBit l1.entry 63 && (match l2 with
      | some l => !pteBit l.entry 63
      | none => true)
    checked := isHbm pa && s.feature fn 3 && (pteBit l1.entry 57 || (match l2 with
      | some l => pteBit l.entry 57
      | none => false))
    cls := match l2 with
      | some l => (match l.cls with
        | some c => some c
        | none => l1.cls)
      | none => l1.cls
    d1 := pteBit l1.head 7
    d2 := match l2 with
      | some l => pteBit l.head 7
      | none => true }

/-- The walk of both stages for an address of an address space (R409). -/
def State.walk (s : State) (fn root va : Nat) (kind : AKind) : Except XErr Tr :=
  let rd (gpa : Nat) : Except XErr Nat := match s.stage2 fn gpa .load with
    | .ok (_, pa) => .ok (s.mem.num pa 8)
    | .error e => .error e
  match walkTable rd (.of 0x20#8) (va % 2 ^ 57) [0, 1, 2, 3, 4] root with
  | .error e => .error e
  | .ok l1 =>
    match leafPerm l1 kind with
    | some c => .error (.of c)
    | none =>
      let gpa := l1.addr (va % 2 ^ 57)
      match s.stage2 fn gpa kind with
      | .error e => .error e
      | .ok (l2, pa) =>
        let first := match s.stage2 fn l1.first .load with
          | .ok (_, p) => p
          | .error _ => 0
        .ok { pa := pa, gpa := gpa, attrs := mkAttrs s fn pa l1 l2, hit := false, leaf1 := first,
              bits := (match l2 with
                | some l => min l1.bits l.bits
                | none => l1.bits)
              leaf2 := l2.map Leaf.first
              sz2 := (match l2 with
                | some l => pteSz l.entry
                | none => 0)
              page2 := (match l2 with
                | some l => gpa / 2 ^ l.bits * 2 ^ l.bits
                | none => 0) }

/-! ### The TLB (R412) -/

/-- Whether a TLB entry permits an access without another walk (R409, R411, R412). -/
def TlbEntry.permits (t : TlbEntry) (kind : AKind) : Bool :=
  (!kind.reads || t.attrs.readable) && (!kind.writes || (t.attrs.writable && t.attrs.d1 && t.attrs.d2))
    && (kind != .fetch || t.attrs.exec)

/-- The entry that translates an address. -/
def State.tlbFind (s : State) (die : Option Nat) (fn asid va : Nat) : Option TlbEntry :=
  s.tlb.find? fun t => t.die == die && t.fn == fn && t.asid == asid && t.va / 2 ^ t.bits == va % 2 ^ 57 / 2 ^ t.bits

/-- EN, FUNC and S1ROOT of an address space (R404). -/
def State.asid (s : State) (a : Nat) : Bool × Nat × Nat :=
  let r := Regs.get s.asidctl a
  (r.getLsbD 0, bitsAt r 1 6, bitsAt r 12 40 * 2 ^ 12)

/-- Translate an address: a TLB entry that permits the access, else a walk (R404, R412). -/
def State.translate (s : State) (die : Option Nat) (asid : Nat) (va : DWord) (kind : AKind) : Except XErr Tr :=
  let a := s.asid asid
  if !a.1 then .error (.of 0x20#8)
  else
    match s.tlbFind die a.2.1 asid va.toNat with
    | some t =>
      if t.permits kind then
        let o := va.toNat % 2 ^ t.bits
        .ok { pa := t.pa + o, gpa := t.gpa + o, bits := t.bits, attrs := t.attrs, hit := true,
              leaf1 := 0, leaf2 := none, sz2 := 0, page2 := 0 }
      else s.walk a.2.1 a.2.2 va.toNat kind
    | none => s.walk a.2.1 a.2.2 va.toNat kind

/-! ### A, D and the dirty log (R411, R414, R415) -/

/-- Whether a page-table entry in memory has D set. -/
def State.dirtyAt (s : State) (pa : Nat) : Bool := (s.mem.get pa).getLsbD 7

/-- OR bits into the low byte of an entry (R411). -/
def State.orEntry (s : State) (pa : Nat) (v : Byte) : State := { s with mem := s.mem.set pa (s.mem.get pa ||| v) }

/-- FULL of a function's dirty log (R414). -/
def Func.logFull (f : Func) : Bool := f.dlEn && f.dlptr == f.dlend

/-- Append a record to a function's dirty log (R415). -/
def State.logDirty (s : State) (fn page sz : Nat) : State :=
  match s.func fn with
  | none => s
  | some f =>
    if f.dlEn && !f.logFull then
      let s := { s with mem := s.mem.put f.dlptr.toNat (leBytes 8 (page + sz)) }
      let p := f.dlptr + 8
      let s := s.updFunc fn fun g => { g with dlptr := p, dlIrq := g.dlIrq || p == f.dlend }
      if p == f.dlend then s.interrupt 0 2 else s
    else s

/-- Perform what a translation leaves behind: A and D bits, the dirty record, the TLB entry; none when a full dirty log
makes the access wait (R415). -/
def State.commitTr (s : State) (die : Option Nat) (asid : Nat) (va : DWord) (kind : AKind) (t : Tr) : Option State :=
  if t.hit then some s
  else
    let fn := (s.asid asid).2.1
    let newD := match t.leaf2 with
      | some p => kind.writes && !s.dirtyAt p
      | none => false
    let full := match s.func fn with
      | some f => f.logFull
      | none => false
    if newD && full then none
    else
      let v : Byte := if kind.writes then 0xC0#8 else 0x40#8
      let s := if newD then s.logDirty fn t.page2 t.sz2 else s
      let s := s.orEntry t.leaf1 v
      let s := match t.leaf2 with
        | some p => s.orEntry p v
        | none => s
      let o := va.toNat % 2 ^ t.bits
      let e : TlbEntry :=
        { die := die, fn := fn, asid := asid, va := va.toNat % 2 ^ 57 - o, bits := t.bits, pa := t.pa - o, gpa := t.gpa - o,
          attrs := { t.attrs with d1 := t.attrs.d1 || kind.writes, d2 := t.attrs.d2 || kind.writes } }
      let keep := s.tlb.filter fun x => !(x.die == die && x.fn == fn && x.asid == asid && x.va == e.va && x.bits == e.bits)
      some { s with tlb := (e :: keep).take (5 * 32768) }

/-- S2FAULT and its interrupt, for a failure of stage 2 (R405). -/
def State.noteErr (s : State) (e : XErr) : State :=
  match e.s2 with
  | none => s
  | some (fn, gpa) =>
    (s.updFunc fn fun f => { f with s2fault := BitVec.ofNat 64 (gpa % 2 ^ 52 / 4096 * 4096 + 1) }).interrupt 0 2

/-! ### The checks of R125 -/

/-- A canonical address (R24). -/
def canonical (va : DWord) : Bool := (va.extractLsb' 0 57).signExtend 64 == va

/-- UP of the route to a device (R477). -/
def State.peerUp (s : State) (k : Nat) : Bool :=
  let r := Regs.get s.peerrt k
  r.getLsbD 0 && k != bitsAt s.mydev 0 6
    && s.ports.any fun p => p.ix == bitsAt r 16 4 && p.trained && p.dev == k

/-- WLEN of the route to a device (R477). -/
def State.peerLen (s : State) (k : Nat) : Nat :=
  match s.ports.find? fun p => p.ix == bitsAt (Regs.get s.peerrt k) 16 4 && p.trained && p.dev == k with
  | some p => p.wlen
  | none => 0

/-- The check of order 5 in R125 (R403, R478). -/
def State.peerCheck (s : State) (fn pa size : Nat) : Option Cause :=
  if !isPeer pa then none
  else if !s.feature fn 2 then some 0xC1#8
  else
    let k := pa / 2 ^ 45 % 64
    if s.peerUp k && pa % 2 ^ 45 + size ≤ s.peerLen k * 4096 then none else some 0x28#8

/-- The checks of R125 on an access, in order. -/
def State.check (s : State) (die : Option Nat) (asid : Nat) (va : DWord) (size : Nat) (kind : AKind) : Except XErr Tr :=
  if !canonical va then .error (.of 0x20#8)
  else if va.toNat % size != 0 then .error (.of 0x23#8)
  else
    match s.translate die asid va kind with
    | .error e => .error e
    | .ok t =>
      match s.peerCheck (s.asid asid).2.1 t.pa size with
      | some c => .error (.of c)
      | none => .ok t

/-- What a failing access notes where it has no other effect: S2FAULT (R405). -/
def State.noteAccess (s : State) (die : Option Nat) (asid : Nat) (va : DWord) (size : Nat) (kind : AKind) : State :=
  match s.check die asid va size kind with
  | .error x => s.noteErr x
  | .ok _ => s

/-! ### Invalidation (R413) -/

/-- Whether an invalidation covers a TLB entry. -/
def Inval.covers (i : Inval) (t : TlbEntry) : Bool :=
  match i with
  | .page a va => t.asid == a && t.va / 2 ^ t.bits == va % 2 ^ 57 / 2 ^ t.bits
  | .asid a => t.asid == a
  | .func fn => t.fn == fn

end Sys2Proof.Machine
end

