-- ==== Sys2Proof/Machine/Cache.lean ====
section
/-!
DEFINITION. Machine/Cache.lean: the L1 of a core and its dirty FIFO (R203 to R206, R210, R230), the lines that the L2 holds
(R205, R207, R209), what a release and an acquire do there (R231 to R233), and the marks of open regions on checked pages
(R234 to R236). State.mem is what the home L2 slices hold: the point of coherence of .clu and wider (R472).
-/
namespace Sys2Proof.Machine

/-! ### Lines -/

/-- The bytes of a line, as one vector. -/
def lineOf (bs : List Byte) : BitVec 1024 := BitVec.ofNat 1024 (leNat bs)

/-- Byte i of a line. -/
def Line.byte (l : Line) (i : Nat) : Byte := l.data.extractLsb' (8 * i) 8

/-- A run of n bits from bit i, as a byte mask of a line. -/
def byteMask (i n : Nat) : BitVec 128 := BitVec.ofNat 128 ((2 ^ n - 1) * 2 ^ i)

/-- The bits of a line's data that a byte mask covers. -/
def spread (m : BitVec 128) : BitVec 1024 :=
  BitVec.ofNat 1024 (leNat ((List.range 128).map fun i => if m.getLsbD i then 0xFF#8 else 0#8))

/-- Put bytes into a line from byte i. -/
def putBytes (d : BitVec 1024) (i : Nat) (bs : List Byte) : BitVec 1024 :=
  let m := BitVec.ofNat 1024 ((2 ^ (8 * bs.length) - 1) * 2 ^ (8 * i))
  (d &&& ~~~m) ||| BitVec.ofNat 1024 (leNat bs * 2 ^ (8 * i))

/-- n bytes of a line from byte i. -/
def Line.bytes (l : Line) (i n : Nat) : List Byte := (List.range n).map fun k => l.byte (i + k)

/-- Take into a line, from memory, every byte that is not valid (R203, R233). -/
def Line.refill (m : Memory) (l : Line) : Line :=
  { l with data := (List.range 128).foldl
             (fun d i => if l.valid.getLsbD i then d else putBytes d i [m.get (128 * l.tag + i)]) l.data
           valid := BitVec.allOnes 128 }

/-- Write a line's dirty bytes back (R230). -/
def Line.flush (m : Memory) (l : Line) : Memory :=
  (List.range 128).foldl (fun m i => if l.dirty.getLsbD i then m.set (128 * l.tag + i) (l.byte i) else m) m

/-! ### The L2 (R205, R207, R209) -/

/-- The die that is home of an HBM address (R471). -/
def homeDie (pa : Nat) : Option Nat := if isHbm pa then some (pa / 0x3000000000) else none

/-- The home slice's die and set of a line: an HBM line's die is its stack's, a host line's is open (R205). -/
def l2Place (tag : Nat) : Nat × Nat := ((homeDie (128 * tag)).getD (Config.l2Set tag / 65536 % 4), Config.l2Set tag % 65536)

/-- L2WAYS of a class (R208). -/
def State.l2ways (s : State) (cls : Nat) : Nat := bitsAt (s.acmask.getD cls 0) 16 16

/-- The lines of the L2 after an access of a class reaches the home slice: a line that is not there is filled into a way that the
class's mask allows, where it allows one (R207); a line in peer memory is never held (R478). -/
def State.l2With (s : State) (cls tag : Nat) : List L2Line :=
  if isPeer (128 * tag) || s.l2.any fun x => x.tag == tag then s.l2
  else
    let allowed := (List.range 16).filter (s.l2ways cls).testBit
    match allowed[Config.l2Pick s.tick tag % allowed.length]? with
    | none => s.l2
    | some w =>
      let p := l2Place tag
      ⟨p.1, p.2, w, tag, cls⟩ :: s.l2.filter fun x => x.die != p.1 || x.set != p.2 || x.way != w

/-- An access of a class reaches the home L2 slice. -/
def State.l2Touch (s : State) (cls tag : Nat) : State := { s with l2 := s.l2With cls tag }

/-- LINES of a class in the L2 of a die (R209). -/
def State.l2Lines (s : State) (die cls : Nat) : Nat := (s.l2.filter fun x => x.die == die && x.cls == cls).length

/-! ### The L1 of a core -/

/-- The L1 of a core; a core that has filled nothing holds no line. -/
def State.l1Of (s : State) (u : Unit3) : L1 :=
  match s.l1.find? fun c => c.core == u with
  | some c => c
  | none => ⟨u, [], []⟩

/-- Replace the L1 of a core. -/
def State.putL1 (s : State) (c : L1) : State :=
  if s.l1.any fun x => x.core == c.core then { s with l1 := upd (fun x => x.core == c.core) (fun _ => c) s.l1 }
  else if c.lines.isEmpty then s
  else { s with l1 := c :: s.l1 }

/-- The line of a tag. -/
def L1.find (c : L1) (tag : Nat) : Option Line := c.lines.find? fun l => l.tag == tag

/-- Put a line in front: the most recently used (R204). -/
def L1.touch (c : L1) (l : Line) : L1 := { c with lines := l :: c.lines.filter fun x => x.tag != l.tag }

/-- Replace a line in its place. -/
def L1.replace (c : L1) (l : Line) : L1 := { c with lines := upd (fun x => x.tag == l.tag) (fun _ => l) c.lines }

/-- Drop a line. -/
def L1.drop (c : L1) (tag : Nat) : L1 :=
  { c with lines := c.lines.filter (fun x => x.tag != tag), fifo := c.fifo.filter (fun t => t != tag) }

/-- L1WAYS of a class (R208). -/
def State.l1ways (s : State) (cls : Nat) : Nat := bitsAt (s.acmask.getD cls 0) 0 16

/-- Write a line of a core back to its home slice and leave it clean (R230). -/
def State.writeBack (s : State) (u : Unit3) (tag : Nat) : State :=
  let c := s.l1Of u
  match c.find tag with
  | none => s
  | some l =>
    let s := if l.dirty == 0 then s else ({ s with mem := l.flush s.mem } : State).l2Touch l.cls tag
    s.putL1 { (c.replace { l with dirty := 0 }) with fifo := c.fifo.filter fun t => t != tag }

/-- The way that a fill of a class takes in the set of a tag (R204); none when the mask allows no way. -/
def L1.pickWay (c : L1) (ways cls tag : Nat) : Option Nat :=
  let set := c.lines.filter fun l => l.tag % 64 == tag % 64
  let allowed := (List.range 16).filter ways.testBit
  match allowed.find? fun w => !set.any fun l => l.way == w with
  | some w => some w
  | none =>
    match allowed.find? fun w => set.any fun l => l.way == w && l.cls != cls with
    | some w => some w
    | none => (set.reverse.find? fun l => allowed.contains l.way).map Line.way

/-- Free a way of the set of a tag, writing a dirty victim back first (R204). -/
def State.freeWay (s : State) (u : Unit3) (tag w : Nat) : State :=
  match (s.l1Of u).lines.find? fun l => l.tag % 64 == tag % 64 && l.way == w with
  | none => s
  | some v =>
    let s := s.writeBack u v.tag
    s.putL1 ((s.l1Of u).drop v.tag)

/-- Place a new line of a class, with no byte valid, in front; none when the class allocates nothing (R207). -/
def State.allocLine (s : State) (u : Unit3) (cls tag : Nat) : Option State :=
  match (s.l1Of u).pickWay (s.l1ways cls) cls tag with
  | none => none
  | some w =>
    let s := s.freeWay u tag w
    some (s.putL1 ((s.l1Of u).touch ⟨tag, w, cls, 0, 0, 0⟩))

/-- Read n bytes at a physical address through the L1; a line or byte that it does not hold comes from the L2, whole where the
class may allocate (R203, R204, R207). -/
def State.l1Read (s : State) (u : Unit3) (cls pa n : Nat) : State × List Byte :=
  let tag := pa / 128
  let c := s.l1Of u
  match c.find tag with
  | some l =>
    if l.valid &&& byteMask (pa % 128) n == byteMask (pa % 128) n then (s.putL1 (c.touch l), l.bytes (pa % 128) n)
    else
      let l := l.refill s.mem
      ((s.putL1 (c.touch l)).l2Touch cls tag, l.bytes (pa % 128) n)
  | none =>
    match s.allocLine u cls tag with
    | none => (s.l2Touch cls tag, s.mem.bytes pa n)
    | some s =>
      match (s.l1Of u).find tag with
      | none => (s, s.mem.bytes pa n)
      | some l =>
        let l := l.refill s.mem
        ((s.putL1 ((s.l1Of u).replace l)).l2Touch cls tag, l.bytes (pa % 128) n)

/-- The bytes of a line that the core has not written since its last write-back are no longer valid. -/
def State.staleLine (s : State) (u : Unit3) (tag : Nat) : State :=
  let c := s.l1Of u
  match c.find tag with
  | none => s
  | some l => s.putL1 (c.replace { l with valid := l.dirty })

/-- Read n bytes as an acquire load at .clu or wider does: a byte that the core has not written since its line's last write-back
comes from the point of coherence, any other from the L1 (R203, R204, R233). -/
def State.l1Acquire (s : State) (u : Unit3) (cls pa n : Nat) : State × List Byte :=
  (s.staleLine u (pa / 128)).l1Read u cls pa n

/-- Enter a line that becomes dirty at the FIFO's tail, writing the head back when it is full (R230). -/
def State.pushDirty (s : State) (u : Unit3) (tag : Nat) : State :=
  let s := match (s.l1Of u).fifo with
    | h :: rest => if rest.length + 1 ≥ 64 then s.writeBack u h else s
    | [] => s
  let c := s.l1Of u
  s.putL1 { c with fifo := c.fifo ++ [tag] }

/-- Write bytes into a line that the L1 holds (R203, R230). -/
def State.dirtyLine (s : State) (u : Unit3) (pa : Nat) (bs : List Byte) : State :=
  let tag := pa / 128
  let s := match (s.l1Of u).find tag with
    | some l => if l.dirty == 0 then s.pushDirty u tag else s
    | none => s
  let c := s.l1Of u
  match c.find tag with
  | none => s
  | some l =>
    let m := byteMask (pa % 128) bs.length
    s.putL1 (c.touch { l with valid := l.valid ||| m, dirty := l.dirty ||| m, data := putBytes l.data (pa % 128) bs })

/-- Write bytes at a physical address through the L1 (R203, R207). -/
def State.l1Write (s : State) (u : Unit3) (cls pa : Nat) (bs : List Byte) : State :=
  match (s.l1Of u).find (pa / 128) with
  | some _ => s.dirtyLine u pa bs
  | none =>
    match s.allocLine u cls (pa / 128) with
    | none => ({ s with mem := s.mem.put pa bs } : State).l2Touch cls (pa / 128)
    | some s => s.dirtyLine u pa bs

/-- The line of an address is written back and dropped, before an atomic at .clu or wider performs (R206). -/
def State.l1Evict (s : State) (u : Unit3) (pa : Nat) : State :=
  let s := s.writeBack u (pa / 128)
  s.putL1 ((s.l1Of u).drop (pa / 128))

/-- No L1 holds the line of an address any longer: each core writes its dirty bytes back and drops its copy (R234). -/
def State.l1Purge (s : State) (pa : Nat) : State := s.l1.foldl (fun s c => s.l1Evict c.core pa) s

/-- An access that translates to a checked page leaves no L1 with a line of it (R234). -/
def State.purgeFor (s : State) (t : Tr) : State := if t.attrs.checked then s.l1Purge t.pa else s

/-- The L1's copy of bytes that a release store has performed at the L2: updated, or allocated with only them valid, and clean
(R203, R204, R232). -/
def State.l1Refresh (s : State) (u : Unit3) (cls pa : Nat) (bs : List Byte) : State :=
  let s := match (s.l1Of u).find (pa / 128) with
    | some _ => s
    | none => (s.allocLine u cls (pa / 128)).getD s
  let c := s.l1Of u
  match c.find (pa / 128) with
  | none => s
  | some l =>
    s.putL1 (c.touch { l with valid := l.valid ||| byteMask (pa % 128) bs.length, data := putBytes l.data (pa % 128) bs })

/-- Bytes as a core that has dirty ones sees them: those from its L1, others from the home slice (R233). -/
def State.coherentRead (s : State) (u : Unit3) (pa n : Nat) : List Byte :=
  (List.range n).map fun k =>
    match (s.l1Of u).find ((pa + k) / 128) with
    | some l => if l.dirty.getLsbD ((pa + k) % 128) then l.byte ((pa + k) % 128) else s.mem.get (pa + k)
    | none => s.mem.get (pa + k)

/-! ### Release and acquire (R232, R233) -/

/-- A scope of .clu or wider (R231). -/
def wideScope : Scope → Bool
  | .team | .core => false
  | _ => true

/-- Write back every line in the dirty FIFO of a core, head first. -/
def State.drainL1 (s : State) (u : Unit3) : State := (s.l1Of u).fifo.foldl (fun s tag => s.writeBack u tag) s

/-- Make invalid every byte of a core's L1 that it has not written since the last write-back; a line left with no valid
byte is no longer held (R210, R233). -/
def State.invalidateL1 (s : State) (u : Unit3) : State :=
  let c := s.l1Of u
  s.putL1 { c with lines := (c.lines.map fun l => { l with valid := l.dirty }).filter fun l => l.valid != 0 }

/-- A release at a scope by an agent of a core: its earlier stores to peer memory have been acknowledged, and at .clu or wider
the core's dirty lines are written back (R232, R472). -/
def State.release (s : State) (u : Unit3) (a : AgentId) (sc : Scope) : State :=
  let s := { s with peerOut := s.peerOut.filter fun p => p.agent != a }
  if wideScope sc then s.drainL1 u else s

/-- An acquire at a scope by an agent of a core (R233). -/
def State.acquire (s : State) (u : Unit3) (sc : Scope) : State := if wideScope sc then s.invalidateL1 u else s

/-- The valid lines of a class in a core's L1: %occ (R210). -/
def State.occ (s : State) (u : Unit3) (cls : Nat) : Nat := ((s.l1Of u).lines.filter fun l => l.cls == cls).length

/-! ### Marks (R234 to R236) -/

/-- The kinds of access of R235: plain, or atomic and ordered. -/
inductive MKind where
  | plainLoad | plainStore | syncRead | syncWrite
  deriving DecidableEq, Repr

/-- Whether a mark conflicts with an access. -/
def MKind.meets (k : MKind) (w : Bool) : Bool :=
  match k with
  | .plainLoad | .syncRead => w
  | .plainStore | .syncWrite => true

/-- Two names of one agent: the Porch is one, whatever its packet (R221). -/
def AgentId.same (a b : AgentId) : Bool :=
  match a, b with
  | .porch _, .porch _ => true
  | _, _ => a == b

/-- The other agent whose open region an access to a granule conflicts with (R235). -/
def State.conflict (s : State) (a : AgentId) (granule : Nat) (k : MKind) : Option AgentId :=
  (s.marks.find? fun m => m.granule == granule && !m.agent.same a && k.meets m.write).map Mark.agent

/-- Set the mark of an access, of an engine's operation op (R223, R235). -/
def State.mark (s : State) (a : AgentId) (granule va : Nat) (k : MKind) (op : Nat := 0) : State :=
  let add (w : Bool) : State :=
    let m : Mark := ⟨granule, va, a, op, w⟩
    if s.marks.contains m then s else { s with marks := s.marks ++ [m] }
  match k with
  | .plainLoad => add false
  | .plainStore => add true
  | _ => s

/-- The region of an agent ends: its marks are removed (R223, R235). -/
def State.endRegion (s : State) (a : AgentId) : State := { s with marks := s.marks.filter fun m => m.agent != a }

/-- The region of one operation of an engine context ends (R223, R235). -/
def State.endOp (s : State) (a : AgentId) (op : Nat) : State :=
  { s with marks := s.marks.filter fun m => m.agent != a || m.op != op }

/-- INNER of a 0x60 record: 1 read, 2 write, 3 read-modify-write (R386). -/
def MKind.inner (k : MKind) (rmw : Bool) : BitVec 8 :=
  if rmw then 3#8
  else match k with
    | .plainLoad | .syncRead => 1#8
    | _ => 2#8

end Sys2Proof.Machine
end

