-- ==== Sys2Proof/Machine/Ops.lean ====
section
/-!
DEFINITION. Machine/Ops.lean: the named operations over registers, fragments and agents; taking a trap (R380 to R389),
resuming from one (R391), and ending a launch (R392, R393).
-/
namespace Sys2Proof.Machine

/-! ### Registers of a lane (R18 to R20) -/

/-- A vector register of a seat. -/
def Seat.rd (x : Seat) (r : Nat) : Word := x.vregs.getD r 0
/-- Write a vector register of a seat. -/
def Seat.wr (x : Seat) (r : Nat) (v : Word) : Seat := { x with vregs := x.vregs.set r v }
/-- A pair (R19). -/
def Seat.rd2 (x : Seat) (r : Nat) : DWord := x.rd (r + 1) ++ x.rd r
/-- Write a pair (R19). -/
def Seat.wr2 (x : Seat) (r : Nat) (v : DWord) : Seat :=
  (x.wr r (v.truncate 32)).wr (r + 1) (v.extractLsb' 32 32)
/-- A quadruple, its words in ascending register order (R19). -/
def Seat.rd4 (x : Seat) (r : Nat) : BitVec 128 := x.rd2 (r + 2) ++ x.rd2 r
/-- Write a quadruple. -/
def Seat.wr4 (x : Seat) (r : Nat) (v : BitVec 128) : Seat :=
  (x.wr2 r (v.truncate 64)).wr2 (r + 2) (v.extractLsb' 64 64)
/-- Write words to consecutive registers. -/
def Seat.wrs (x : Seat) (r : Nat) : List Word → Seat
  | [] => x
  | w :: ws => (x.wr r w).wrs (r + 1) ws
/-- A predicate; p0 reads 1 (R20). -/
def Seat.pred (x : Seat) (p : PReg) : Bool := p.val == 0 || x.preds.getLsbD p.val
/-- Write a predicate; a write to p0 is discarded (R20). -/
def Seat.setPred (x : Seat) (p : PReg) (v : Bool) : Seat :=
  if p.val = 0 then x
  else { x with preds := if v then x.preds ||| BitVec.twoPow 16 p.val else x.preds &&& ~~~(BitVec.twoPow 16 p.val) }
/-- Whether a guard enables the lane of a seat (R20). -/
def Seat.guard (x : Seat) (g : Guard) : Bool := x.pred g.p != g.neg

/-- An s-register; s0 reads 0 (R157). -/
def Foyer.rd (f : Foyer) (r : SReg) : DWord := if r.val = 0 then 0 else f.s.getD r.val 0
/-- Write an s-register; a write to s0 is discarded (R157). -/
def Foyer.wr (f : Foyer) (r : SReg) (v : DWord) : Foyer := if r.val = 0 then f else { f with s := f.s.set r.val v }

/-! ### The agent whose instruction runs -/

/-- A team with the fragment that issues. -/
structure TEnv where
  cur : Cur
  l : Launch
  b : Block
  ti : Nat
  t : Team
  fi : Nat
  f : Frag
  deriving DecidableEq, Repr

/-- A Foyer context that issues. -/
structure FEnv where
  cur : Cur
  l : Launch
  b : Block
  deriving DecidableEq, Repr

/-- The team that State.cur names. -/
def State.teamEnv (s : State) : Option TEnv :=
  match s.cur with
  | none => none
  | some c =>
    match c.agent with
    | .team l b t f =>
      match s.launch l with
      | none => none
      | some ln =>
        match ln.block b with
        | none => none
        | some bk =>
          match bk.teams[t]? with
          | none => none
          | some tm =>
            match tm.frags[f]? with
            | none => none
            | some fr => some ⟨c, ln, bk, t, tm, f, fr⟩
    | _ => none

/-- The Foyer context that State.cur names. -/
def State.foyerEnv (s : State) : Option FEnv :=
  match s.cur with
  | none => none
  | some c =>
    match c.agent with
    | .foyer l b =>
      match s.launch l with
      | none => none
      | some ln =>
        match ln.block b with
        | none => none
        | some bk => some ⟨c, ln, bk⟩
    | _ => none

/-- Run a meaning on the team that issues. -/
def withTeam (s : State) (k : TEnv → Out) : Out :=
  match s.teamEnv with
  | some e => k e
  | none => .fault .noAgent

/-- Run a meaning on the Foyer context that issues. -/
def withFoyer (s : State) (k : FEnv → Out) : Out :=
  match s.foyerEnv with
  | some e => k e
  | none => .fault .noAgent

/-- The agent identity of the team. -/
def TEnv.agent (e : TEnv) : AgentId := .team e.l.id e.b.id e.ti
/-- The agent identity of the Foyer context. -/
def FEnv.agent (e : FEnv) : AgentId := .foyer e.l.id e.b.id
/-- The team's seats with their numbers. -/
def Team.ixSeats (t : Team) : List (Nat × Seat) := (List.range t.seats.length).zip t.seats
/-- A seat of a team. -/
def Team.seat (t : Team) (i : Nat) : Seat := t.seats.getD i ⟨0, .absent, false, 0, []⟩
/-- The seats of the fragment's active lanes, ascending (R13, R144). -/
def TEnv.active (e : TEnv) : List Nat := (List.range e.t.seats.length).filter e.f.mask.getLsbD
/-- The active seats that a guard enables (R20). -/
def TEnv.enabled (e : TEnv) (g : Guard) : List Nat := e.active.filter fun i => (e.t.seat i).guard g
/-- The enabled seats whose lanes are not helper lanes (R142). -/
def TEnv.workers (e : TEnv) (g : Guard) : List Nat := (e.enabled g).filter fun i => !(e.t.seat i).helper

/-- The lowest active seat of a mask. -/
def lowSeat (t : Team) (m : BitVec 1024) : Nat := lowest 0 ((List.range t.seats.length).filter m.getLsbD)

/-- Write a team back. -/
def State.putTeam (s : State) (e : TEnv) (t : Team) : State := s.updTeam e.l.id e.b.id e.ti fun _ => t

/-- Every present lane has exited (R143). -/
def Team.exited (t : Team) : Bool := t.seats.all fun x => x.st == .absent || x.st == .exited

/-! ### Code regions and joins (R55, R148, R149) -/

/-- The code region that holds an address, among the image's and those of the launch's translations (R55, R69, R71). -/
def Launch.region (l : Launch) (pc : Nat) : Option Region :=
  (l.img.regions ++ l.xlats.flatMap Xlat.regions).find? fun r => r.start ≤ pc && pc < r.start + r.len

/-- Whether the instruction at an address is a join (R148, R149). -/
def Launch.isJoin (l : Launch) (pc : DWord) : Bool :=
  match l.region pc.toNat with
  | none => false
  | some r =>
    match r.jmap with
    | none => true
    | some bs =>
      let k := (pc.toNat - r.start) / 8
      (bs.getD (k / 8) 0).getLsbD (k % 8)

/-! ### Fragments (R146 to R153) -/

/-- A fragment that starts at an address with a mask: ready, at a chain head; its waiting count starts when its turn ends. -/
def Frag.at (pc : DWord) (mask : BitVec 1024) : Frag where
  pc := pc
  mask := mask
  parked := false
  released := false
  bec := 0
  lift := .none
  since := 0
  stalled := false
  holds := false
  counts := false
  skip := none
  chain := none
  chainPc := pc

/-- Fuse a fragment that arrives at a join with those that stand there (R148). DESIGN CHOICE (the spec is silent,
notes/assumptions/35): the fused fragment begins afresh, so a release by 1,024 backward branches (R153), a waiting count
(R154) and a breakpoint already stopped at (R162) are not taken over from either. -/
def fuseInto (l : Launch) (fs : List Frag) (f : Frag) : List Frag :=
  if l.isJoin f.pc && fs.any (fun g => g.pc == f.pc) then
    let same := fs.filter fun g => g.pc == f.pc
    fs.filter (fun g => g.pc != f.pc)
      ++ [Frag.at f.pc (same.foldl (fun m g => m ||| g.mask) f.mask)]
  else fs ++ [f]

/-- Parking at a join (R153): a fragment at a join parks while a fragment of lower PC remains, its count starting at 0;
one that no lower fragment holds leaves the parked state. -/
def settle (l : Launch) (fs : List Frag) : List Frag :=
  fs.map fun f =>
    let lower := fs.any fun g => g.pc.toNat < f.pc.toNat
    if lower && l.isJoin f.pc && !f.released then (if f.parked then f else { f with parked := true, bec := 0 })
    else { f with parked := false }

/-- The team after fragment number fi has been replaced by fragments that arrive at their addresses (R130, R147). -/
def Team.arrive (l : Launch) (t : Team) (fi : Nat) (new : List Frag) : Team :=
  { t with frags := settle l (new.foldl (fuseInto l) (t.frags.eraseIdx fi)) }

/-- Count a backward branch for every fragment parked above an address (R153). -/
def Team.countBackward (t : Team) (pc : DWord) : Team :=
  { t with frags := t.frags.map fun f =>
      if f.parked && pc.toNat < f.pc.toNat then { f with bec := min 1024 (f.bec + 1) } else f }

/-- The fragment goes whole to an address (R130). -/
def TEnv.goto (e : TEnv) (t : Team) (pc : DWord) : Team := t.arrive e.l e.fi [Frag.at pc e.f.mask]

/-- The instruction completes: the fragment stands at the fall-through (R56, R58). -/
def retire (s : State) (e : TEnv) (t : Team) : Out := .next (s.putTeam e (e.goto t e.cur.fall))

/-- The issuing fragment changed where it stands. -/
def TEnv.still (e : TEnv) (f : Frag → Frag) : Team := { e.t with frags := e.t.frags.modify e.fi f }

/-- The instruction has to wait: the fragment is stalled at its PC (R152). -/
def stall (s : State) (e : TEnv) : Out := .next (s.putTeam e (e.still fun f => { f with stalled := true }))

/-- The same for an instruction after which the team issues nothing until it completes (R241, R289). -/
def stallTeam (s : State) (e : TEnv) : Out := .next (s.putTeam e (e.still fun f => { f with stalled := true, holds := true }))

/-- The instruction goes on in the fragment's next turn, and its team issues nothing else until it completes (R293, R440). -/
def TEnv.going (e : TEnv) (t : Team) : Team :=
  { t with frags := t.frags.modify e.fi fun f => { f with stalled := false, holds := true, since := 0, lift := .none } }

/-- Change the seats that a test picks by number. -/
def Team.mapSeats (t : Team) (p : Nat → Bool) (f : Seat → Seat) : Team :=
  { t with seats := t.seats.mapIdx fun i x => if p i then f x else x }

/-- Write the Foyer context back. -/
def State.putFoyer (s : State) (e : FEnv) (f : Foyer) : State := s.updBlock e.l.id e.b.id fun b => { b with foyer := f }

/-- A Foyer instruction completes at an address. -/
def retireFoyer (s : State) (e : FEnv) (f : Foyer) (pc : DWord) : Out :=
  .next (s.putFoyer e { f with pc := pc, stalled := false, lift := .none, since := 0, skip := e.b.foyer.skip.filter fun p => p != e.cur.pc })

/-- A Foyer instruction has to wait. -/
def stallFoyer (s : State) (e : FEnv) : Out := .next (s.putFoyer e { e.b.foyer with stalled := true })

/-- A fragment found waiting may have become ready, and its count starts (R152, R154). -/
def Frag.wake (f : Frag) : Frag := if f.stalled then { f with stalled := false, since := 0, lift := .none } else f

/-- The same for a Foyer context (R158). -/
def Foyer.wake (f : Foyer) : Foyer := if f.stalled then { f with stalled := false, since := 0, lift := .none } else f

/-- A fragment or context that waits may have become ready: forget which were found waiting (R152). -/
def Block.wake (b : Block) : Block :=
  { b with foyer := b.foyer.wake, teams := b.teams.map fun t => { t with frags := t.frags.map Frag.wake } }

/-- The same for the whole device. -/
def State.wake (s : State) : State :=
  { s with launches := s.launches.map fun l => { l with blocks := l.blocks.map Block.wake } }

/-! ### Loads whose data is pending (R62, R199) -/

/-- Write a pending load to its destination by seat. -/
def Team.land (t : Team) (p : Pending) : Team :=
  { t with seats := t.seats.mapIdx fun i x => match p.words.getD i none with
      | some ws => x.wrs p.reg ws
      | none => x }

/-- A set of scoreboards, of sb1 to sb3. -/
def scoreboards (sbs : List Nat) : BitVec 4 := sbs.foldl (fun m k => if k = 0 then m else m ||| BitVec.twoPow 4 k) 0

/-- The scoreboards set while the loads listed are pending and the team's MTOPKs run (R59). -/
def Team.boards (t : Team) (ps : List Pending) : BitVec 4 := scoreboards (ps.map Pending.sb ++ t.hearth.ops.map HOp.sb)

/-- Write every pending load, oldest first; the scratch completion counter reaches 0 (R199, R382). -/
def Team.drain (t : Team) : Team := { t.pend.foldl Team.land t with pend := [], scratch := 0, sb := t.boards [] }

/-- Write every posted load, oldest first: the counter reaches 0 (R199, R382). -/
def Team.drainPosted (t : Team) : Team :=
  let ps := t.pend.filter fun p => !p.posted
  { (t.pend.filter Pending.posted).foldl Team.land t with pend := ps, scratch := 0, sb := t.boards ps }

/-- A pending load whose registers, in part, have a newer write: in honoured native code nothing waits there, and the newer value
stays (R62). It stands for each of its registers by itself, without the seats where the newer write went. A posted load is
interlocked and has none. -/
def Pending.without (p : Pending) (newer : Nat → Nat → Bool) : List Pending :=
  if p.posted || !((List.range p.words.length).any fun i => (List.range p.count).any fun j => newer i (p.reg + j)) then [p]
  else (List.range p.count).map fun j =>
    { p with
      reg := p.reg + j
      count := 1
      words := p.words.mapIdx fun i ws => if newer i (p.reg + j) then none else ws.map fun l => (l.drop j).take 1
      peers := p.peers.filter fun q => !newer q.1 (p.reg + j) }

/-- A Foyer context's pending load, whose scoreboard stays set where a newer write has its register (R62). -/
def FPending.without (p : FPending) (r : Nat) : FPending := if p.reg == r then ⟨0, 0, p.sb, none⟩ else p

/-- Write every pending load of a Foyer context. -/
def Foyer.drain (f : Foyer) : Foyer :=
  { f.pend.foldl (fun f p => f.wr (sreg p.reg) p.val) f with pend := [], sb := 0 }

/-! ### Atomics that notify a queue (R360) -/

/-- An atomic at .dev or wider on n bytes notifies each queue whose WIDX word it meets and whose WATCH is set (R360). -/
def State.watch (s : State) (pa n : Nat) : State :=
  { s with queues := s.queues.map fun q =>
      if !q.watch then q
      else match s.check none q.asid q.widxa 8 .load with
        | .ok t => if pa < t.pa + 8 && t.pa < pa + n then { q with notified := true } else q
        | .error _ => q }

/-! ### A capsule's executor that stops (R439, R448) -/

/-- The lock object, the epoch and the ADOPTING bit under which a team executes a capsule: as holder, or as adopter. -/
def Team.lockOf (t : Team) : Option (DWord × Nat × Bool) :=
  match t.adopt with
  | some (e, a) => some (a, e, true)
  | none => if t.inCap then some (t.creg.getD 15 0, bitsAt (t.creg.getD 14 0) 0 32, false) else none

/-- A lock word that the executor of an epoch holds: HELD, with its ADOPTING bit (R432, R438). -/
def lockHeldBy (w epoch : Nat) (adopting : Bool) : Bool :=
  w % 2 == 1 && w / 2 ^ 32 == epoch && (w / 4 % 2 == 1) == adopting

/-- Write a lock word by a compare-and-swap at .dev (R360, R439, R448). -/
def State.putLock (s : State) (pa w : Nat) : State := ({ s with mem := s.mem.put pa (leBytes 8 w) } : State).watch pa 8

/-- A team stops issuing while it executes a capsule: the device releases at .dev and makes the lock adoptable (R439). -/
def State.deschedule (s : State) (asid : Nat) (u : Unit3) (t : Team) : State :=
  match t.lockOf with
  | none => s
  | some (a, e, ad) =>
    let s := s.drainL1 u
    match s.check (some u.die) asid a 16 .atomic with
    | .error _ => s
    | .ok tr =>
      let w := s.mem.num tr.pa 8
      if lockHeldBy w e ad && w / 8 % 2 == 0 then s.putLock tr.pa (w ||| 2) else s

/-- Every team of a launch stops issuing (R439). -/
def State.descheduleLaunch (s : State) (l : Nat) : State :=
  match s.launch l with
  | none => s
  | some ln => ln.blocks.foldl (fun s b => b.teams.foldl (fun s t => s.deschedule ln.asid b.runsOn t) s) s

/-- A violation ends the run: STATE 3, BCAUSE, and BROKEN with HELD 1 and ADOPTABLE 0 (R448). -/
def State.breakLock (s : State) (asid : Nat) (u : Unit3) (t : Team) (c : Cause) : State :=
  match t.lockOf with
  | none => s
  | some (a, e, ad) =>
    match s.check (some u.die) asid a 16 .atomic with
    | .error _ => s
    | .ok tr =>
      let w := s.mem.num tr.pa 8
      if lockHeldBy w e ad then
        let s := s.putLock tr.pa (w - w / 2 % 2 * 2 ||| 8)
        -- the object may span two pages: STATE and BCAUSE are reached by their own address
        match s.check (some u.die) asid (a + 0x30) 16 .atomic with
        | .ok t => { s with mem := (s.mem.set (t.pa + 1) 3#8).set (t.pa + 3) c }
        | .error _ => s
      else s

/-! ### Traps (R380 to R391) -/

/-- How the agent of a cause continues when its record is resumed (R394): fall is the next instruction's address. -/
def resumeOf (c : Cause) (fall : DWord) : ResumeTo :=
  if c == 0x08#8 || (0x40#8 ≤ c && c ≤ 0x46#8) then .after fall
  else if c == 0x09#8 then .skip
  else if c == 0x0A#8 then .step
  else if [0x20#8, 0x21#8, 0x22#8, 0x24#8, 0x28#8, 0x60#8, 0x84#8].contains c then .reissue
  else .none

/-- The fields of a trap record that a cause fills (R386). -/
structure TrapInfo where
  pc : DWord
  word : DWord
  lit : DWord
  addr : DWord := 0
  inner : BitVec 8 := 0
  mask : BitVec 1024 := 0
  sched : BitVec 21 := 0
  opnum : Nat := 0
  oppos : Nat := 0
  opkind : Nat := 0
  conflict : Option AgentId := none
  onResume : ResumeTo
  deriving DecidableEq, Repr

/-- CKIND, CTEAM, CLAUNCH and CBLOCK of the agent that conflicts (R386). For the Porch and a prologue run, which R386 gives no
code, CKIND, CLAUNCH and CBLOCK are 0 (DESIGN CHOICE, notes/assumptions/36). -/
def conflictFields : Option AgentId → Nat × Nat × Nat × Nat
  | some (.team l b t) => (1, t, l, b)
  | some (.foyer l b) => (2, 0xFF, l, b)
  | some (.hearth l b t) => (3, t, l, b)
  | some (.copy l b t) => (4, t, l, b)
  | some (.bulk q) => (5, 0xFF, 0, q)
  | some (.format fn) => (6, 0xFF, 0, fn)
  | some (.solve l b) => (7, 0xFF, l, b)
  | some _ => (0, 0xFF, 0, 0)
  | none => (0, 0, 0, 0)

/-- The words of a mask that are not zero (MSUM of R386, R144). -/
def maskSummary (m : BitVec 1024) : Nat :=
  (List.range 32).foldl (fun a k => if m.extractLsb' (32 * k) 32 == 0 then a else a + 2 ^ k) 0

/-- The 256 bytes of a trap record but for its header (R386). -/
def trapBody (i : TrapInfo) (l : Launch) (b : Block) (team lowSeat : Nat) (qprog : DWord) : List Byte :=
  let c := conflictFields i.conflict
  let seats := (List.range 1024).filter i.mask.getLsbD
  leBytes 8 0 ++ leBytes 8 i.pc.toNat ++ leBytes 8 i.word.toNat ++ leBytes 8 i.lit.toNat ++ leBytes 8 i.addr.toNat
    ++ leBytes 4 l.id ++ leBytes 4 b.id ++ leBytes 1 team ++ leBytes 1 i.inner.toNat ++ leBytes 2 lowSeat
    ++ leBytes 2 (lowest 0xFFFF seats) ++ leBytes 2 0 ++ leBytes 4 i.sched.toNat
    ++ leBytes 1 b.place.die ++ leBytes 1 b.place.cluster ++ leBytes 1 b.place.core ++ leBytes 1 0
    ++ leBytes 8 qprog.toNat ++ leBytes 8 i.opnum ++ leBytes 4 i.oppos ++ leBytes 1 i.opkind
    ++ leBytes 1 c.1 ++ leBytes 1 c.2.1 ++ leBytes 1 0 ++ leBytes 4 c.2.2.1 ++ leBytes 4 c.2.2.2
    ++ leBytes 4 (maskSummary i.mask) ++ leBytes 28 0 ++ leBytes 128 i.mask.toNat

/-- The value of LERR for an error (R390). -/
def lerrOf (l : Nat) (cause : Cause) (reason : Nat) : DWord :=
  BitVec.ofNat 64 (l * 2 ^ 32 + cause.toNat * 2 ^ 16 + reason * 2 ^ 8 + 1)

/-- Set LERR of a function and raise its vector 3 (R389, R390, R474). -/
def State.setLerr (s : State) (fn l : Nat) (cause : Cause) (reason : Nat) : State :=
  (s.updFunc fn fun f => { f with lerr := lerrOf l cause reason }).interrupt fn 3

/-- Whether an agent belongs to a launch. -/
def AgentId.ofLaunch (l : Nat) : AgentId → Bool
  | .team l' _ _ | .foyer l' _ | .hearth l' _ _ | .copy l' _ _ | .solve l' _ => l' == l
  | _ => false

/-- End a launch as TERM does (R392, R393): no agent of it goes on, its open tiles are discarded, LERR is set; the LAUNCH
packet then completes (LAUNCH_COMPLETE). -/
def State.endLaunch (s : State) (l : Nat) (cause : Cause) (reason : Nat) : State :=
  match s.launch l with
  | none => s
  | some ln =>
    let s := (s.descheduleLaunch l).updLaunch l fun x => { x with st := .ended }
    let s := { s with
      tiles := s.tiles.filter fun t => !t.owner.ofLaunch l
      marks := s.marks.filter fun m => !m.agent.ofLaunch l
      records := s.records.filter fun r => r.launch != l || r.kind == 3 }
    s.setLerr ln.fn l cause reason

/-- Append a record; its core stops until it is written (R382, R385). -/
def State.addRecord (s : State) (r : Record) : State := { s with records := s.records ++ [r], nextKey := s.nextKey + 1 }

/-- The core of a team or Foyer context. -/
def State.coreOf (s : State) : AgentId → Option Unit3
  | .team l b _ | .foyer l b => ((s.launch l).bind fun x => x.block b).map Block.runsOn
  | _ => none

/-- A record during whose writing its agent's core stops: of a system call or a trap (R382). -/
def Record.stops (r : Record) : Bool := r.ix.isNone && (r.kind == 1 || r.kind == 2)

/-- The record for which a core is stopped: the first of those raised on it (R382). -/
def State.coreStop (s : State) (u : Unit3) : Option Record := s.records.find? fun r => r.stops && s.coreOf r.agent == some u

/-- A chain of the team is open (R63). -/
def Team.chained (t : Team) : Bool := t.frags.any fun f => f.chain.isSome

/-- An agent of the core that is not parked has an open chain, which first runs to its end (R382). -/
def State.coreChained (s : State) (u : Unit3) : Bool :=
  s.launches.any fun l => l.st == .running && l.blocks.any fun b => b.runsOn == u
    && ((b.foyer.parked.isNone && b.foyer.chain.isSome) || b.teams.any fun t => t.parked.isNone && t.chained)

/-- Every posted load of a core's teams is written (R199, R382). -/
def State.drainCore (s : State) (u : Unit3) : State :=
  { s with launches := s.launches.map fun l => { l with blocks := l.blocks.map fun b =>
      if b.runsOn == u then { b with teams := b.teams.map Team.drainPosted } else b } }

/-- A debug-stop launch stops whole: its agents stop issuing, and the store of a capsule step that has committed does not perform
(R383, R438). -/
def State.debugStop (s : State) (l : Nat) : State :=
  (s.descheduleLaunch l).updLaunch l fun ln => { ln with blocks := ln.blocks.map fun b =>
    { b with foyer := { b.foyer with stop := true }, teams := b.teams.map fun t => { t with stop := true, capDue := none } } }

/-- A launch that a debug stop holds (R383). -/
def Launch.held (l : Launch) : Bool := l.blocks.any fun b => b.foyer.stop || b.teams.any Team.stop

/-- What a trap stops beyond its core, whose stop lasts while its record is not written: in debug-stop mode the launch (R383). -/
def State.stopFor (s : State) (l : Launch) : State := if l.dstop then s.debugStop l.id else s

/-- A team parks with a pending record, its earlier instructions complete (R380). -/
def Team.park (t : Team) (k : Nat) : Team := { t.drain with parked := some k, stepping := false, stepDone := false }

/-- A Foyer context parks with a pending record (R380). -/
def Foyer.park (f : Foyer) (k : Nat) : Foyer := { f.drain with parked := some k, stepping := false, stepDone := false }

/-- What a trap of a team inside a capsule does to its lock: a violation breaks it, any other parking makes it adoptable
(R439, R448); 0xA2 changes nothing (R449). -/
def State.capTrap (s : State) (e : TEnv) (c : Cause) : State :=
  if c == 0xA2#8 then s
  else if resumeOf c 0 == .none && c != 0xC0#8 then s.breakLock e.l.asid e.b.runsOn e.t c
  else s.deschedule e.l.asid e.b.runsOn e.t

/-- Take a precise trap in a team: the instruction has no effect, the team parks whole with a pending record (R380); a
launch without a service ring ends (R393). -/
def takeTrap (s : State) (e : TEnv) (c : Cause) (i : TrapInfo) : State :=
  let s := s.capTrap e c
  match e.l.ring with
  | none => s.endLaunch e.l.id c 4
  | some _ =>
    let k := s.nextKey
    let s := (s.stopFor e.l).updTeam e.l.id e.b.id e.ti fun t => t.park k
    s.addRecord { id := k, launch := e.l.id, agent := e.agent, kind := 2, cause := c, len := 4,
                  body := trapBody i e.l e.b e.ti (lowSeat e.t e.f.mask) e.t.qprog,
                  pc := e.f.pc, low := lowSeat e.t e.f.mask, onResume := i.onResume, ix := none }

/-- Take a precise trap in a Foyer context (R380). -/
def takeTrapFoyer (s : State) (e : FEnv) (c : Cause) (i : TrapInfo) : State :=
  match e.l.ring with
  | none => s.endLaunch e.l.id c 4
  | some _ =>
    let k := s.nextKey
    let s := (s.stopFor e.l).updBlock e.l.id e.b.id fun b => { b with foyer := b.foyer.park k }
    s.addRecord { id := k, launch := e.l.id, agent := e.agent, kind := 2, cause := c, len := 4,
                  body := trapBody i e.l e.b 0xFF 0 0, pc := e.b.foyer.pc, low := 0, onResume := i.onResume, ix := none }

/-- The record's fields of the word that traps: MASK holds the fragment's active lanes (R387). -/
def TEnv.info (e : TEnv) (c : Cause) : TrapInfo where
  pc := e.cur.pc
  word := e.cur.word
  lit := e.cur.lit
  mask := e.f.mask
  sched := e.cur.sched.getD 0
  onResume := resumeOf c e.cur.fall

/-- The record's fields of a Foyer word that traps: no lane (R387). -/
def FEnv.info (e : FEnv) (c : Cause) : TrapInfo where
  pc := e.cur.pc
  word := e.cur.word
  lit := e.cur.lit
  sched := e.cur.sched.getD 0
  onResume := resumeOf c e.cur.fall

/-- A team's instruction traps with a cause. -/
def trap (s : State) (e : TEnv) (c : Cause) : Out := .next (takeTrap s e c (e.info c))
/-- A Foyer instruction traps with a cause. -/
def trapF (s : State) (e : FEnv) (c : Cause) : Out := .next (takeTrapFoyer s e c (e.info c))

/-- A memory fault of a team's instruction: the cause and address of the lowest failing seat, the mask of all (R381). -/
def trapMem (s : State) (e : TEnv) (c : Cause) (addr : DWord) (seats : List Nat) (inner : BitVec 8 := 0)
    (conflict : Option AgentId := none) : Out :=
  .next (takeTrap s e c { e.info c with addr := addr, mask := maskOf seats, inner := inner, conflict := conflict })

/-- A launch error: a KIND 3 record, LERR, and the launch goes on (R389); without a ring the launch ends (R393). -/
def State.launchError (s : State) (l : Nat) (reason : Nat) (cause : Cause) (agent : AgentId) (blk team : Nat)
    (inner : BitVec 8) (opkind oppos opnum : Nat) (addr : DWord) (onResume : ResumeTo) : State :=
  match s.launch l with
  | none => s
  | some ln =>
    match ln.ring with
    | none => s.endLaunch l cause reason
    | some _ =>
      let body := leBytes 8 0 ++ leBytes 4 l ++ leBytes 4 blk ++ leBytes 1 team ++ leBytes 1 inner.toNat
        ++ leBytes 1 opkind ++ leBytes 1 reason ++ leBytes 4 oppos ++ leBytes 8 opnum ++ leBytes 8 addr.toNat
        ++ leBytes 24 0
      (s.setLerr ln.fn l cause reason).addRecord
        { id := s.nextKey, launch := l, agent := agent, kind := 3, cause := cause, len := 1, body := body,
          pc := 0, low := 0, onResume := onResume, ix := none }

end Sys2Proof.Machine
end

