-- ==== Sys2Proof/Machine/Operands.lean ====
section
/-!
DEFINITION. Machine/Operands.lean: what decides whether an instruction may issue (orders 5 and 6 of R53, the capsule
rule of R437, the interlocks of R56, R62 and R199), the election of R142, and applying an effect to the lanes that a
guard enables (R20, R40).
-/
namespace Sys2Proof.Machine

/-! ### Order 6: privilege and the feature envelope (R396, R403) -/

/-- The logical slots that a word names (R403). -/
def slotOf : Instr → Option (Fin 8)
  | .qscan x | .qcvt x => some x.k
  | .xcvtEncode x | .xcvtDecode x => some x.k
  | .fmbind x | .fmswap x => some x.k
  | .fmquery _ k => some k
  | .mma x | .mdist x => match x.fm with
    | .slot k => some k
    | _ => none
  | _ => none

/-- An FP64 opcode or an .f64 conversion (R403). -/
def usesFp64 : Instr → Bool
  | .faddF64 _ | .fsubF64 _ | .fmulF64 _ | .ffmaF64 _ | .fdivF64 _ | .fsqrtF64 _ | .fminF64 _ | .fmaxF64 _
  | .faddF64Lit _ | .fsubF64Lit _ | .fmulF64Lit _ | .fdivF64Lit _ | .fminF64Lit _ | .fmaxF64Lit _ | .fsetpF64 _
  | .fsetpF64Lit _ => true
  | .cvt x => x.st == .f64 || x.dt == .f64
  | _ => false

/-- A capsule instruction (R441). -/
def capsInstr : Instr → Bool
  | .capenter _ | .capexit _ | .capres _ | .capld _ | .capst _ | .capcas _ | .capop _ | .capbr _ => true
  | _ => false

/-- What a team issues inside a capsule, and only there (R437). -/
def insideForm : Instr → Bool
  | .capexit _ | .capld _ | .capst _ | .capcas _ | .capop _ | .capbr _ => true
  | _ => false

/-- A solve-region instruction (R403). -/
def solveInstr : Instr → Bool
  | .solveBegin _ | .solveEnd _ | .solveSet _ | .solveStat _ => true
  | _ => false

/-- A sparse Hearth form (R403). -/
def sparseForm : Instr → Bool
  | .mma x => x.sp.sparse
  | _ => false

/-- NSLOT of a function's envelope (R402). -/
def State.nslot (s : State) (fn : Nat) : Nat :=
  match s.func fn with
  | some f => bitsAt (f.fenv.getD 1 0) 12 4
  | none => 0

/-- Whether the envelope of a function withholds what an instruction uses (R403). -/
def withheld (s : State) (fn : Nat) (i : Instr) : Bool :=
  (sparseForm i && !s.feature fn 0) || (usesFp64 i && !s.feature fn 1) || (capsInstr i && !s.feature fn 4)
    || (solveInstr i && !s.feature fn 5)
    || (match slotOf i with
        | some k => s.nslot fn ≤ k.val
        | none => false)

/-- A TRAP code of a system launch (R396). -/
def systemCode : Instr → Bool
  | .trap x => 0xFF00 ≤ x.code.toNat
  | _ => false

/-- The cause of order 6 that an instruction of a launch raises. -/
def order6 (s : State) (fn : Nat) (i : Instr) : Option Cause :=
  if systemCode i && fn != 0 then some 0x04#8
  else if withheld s fn i then some 0xC1#8
  else none

/-! ### Order 5: what the word, the register count and the launch decide (R53) -/

/-- A .clu barrier form (R244). -/
def cluBarrier : Instr → Bool
  | .bar x | .barArv x => x.cl
  | _ => false

/-- A form that needs a cluster group: .clu barriers and CPY.HALO (R244, R262). -/
def needsGroup : Instr → Bool
  | .cpyHalo _ => true
  | i => cluBarrier i

/-- No 0x03 of order 5 in a launch (R53, R244, R262). -/
def order5 (l : Launch) (i : Instr) : Bool := i.okFor l.img.regs && (!needsGroup i || l.img.clg != 0)

/-! ### Interlocks (R56, R62, R199) -/

/-- The region of an address is native code of this stepping's dialect, 1: honoured mode (R66). -/
def Launch.honoured (l : Launch) (pc : DWord) : Bool :=
  match l.region pc.toNat with
  | some r => r.native && r.dialect == 1
  | none => false

/-- Whether two runs of registers meet. -/
def meets (a n b m : Nat) : Bool := a < b + m && b < a + n

/-- The vector registers that an instruction writes. -/
def dests : Instr → List VOp
  | .setp _ | .setpImm _ | .setpLit _ | .fsetp _ | .fsetpLit _ | .fsetpF64 _ | .fsetpF64Lit _ | .st _ | .stLevel _
  | .brx _ | .ret _ | .swr _ | .vote _ | .bowait _ | .tlwait _ | .shld _ | .shst _ | .shset _ | .cpy _ | .cpyHalo _
  | .cpyRed _ | .cwait _ | .qrot _ | .mma _ | .mdist _ | .mwait _ | .capenter _ | .solveSet _ | .trap _ => []
  | i => i.vops.take 1

/-- The vector registers that REGROUP and REGATHER move (R181). -/
def moved (i : Instr) : List Nat :=
  match i.groupMask with
  | some m => (List.range 256).filter fun r => m.getLsbD (r / 4)
  | none => []

/-- An instruction reads or writes one of n registers from a. -/
def touches (i : Instr) (a n : Nat) : Bool :=
  (i.vops.any fun v => meets v.reg v.count a n) || (moved i).any fun r => a ≤ r && r < a + n

/-- A Hearth operation still has to read its A registers (R183, R308). -/
def HOp.reading (o : HOp) : Bool := (o.kind == .mma || o.kind == .mdist) && o.passes < o.np

/-- An instruction has to wait for a Hearth operation: it writes a register of A that a pass has not read, or names a
destination of an MTOPK (R308, R335). REGROUP and REGATHER wait after their own checks (R183). -/
def hearthWaits (ops : List HOp) (i : Instr) : Bool :=
  ops.any fun o =>
    if o.kind == .mtopk then touches i o.reg o.np
    else o.reading && (dests i).any fun v => meets v.reg v.count (o.reg + o.passes * o.rpp) ((o.np - o.passes) * o.rpp)

/-- An instruction has to wait for the scratch completion counter: it reads or writes a register that an outstanding posted load
will write, or has met one and the counter is not yet 0 (R199). -/
def TEnv.waitsCount (e : TEnv) (i : Instr) : Bool :=
  e.t.pend.any fun p => p.posted && (e.f.counts || touches i p.reg p.count)

/-- An instruction has to wait for a load, outside honoured mode for any whose destination it reads or writes; for the counter;
or for the Hearth. -/
def TEnv.waits (e : TEnv) (i : Instr) : Bool :=
  (!e.l.honoured e.cur.pc && e.t.pend.any fun p => touches i p.reg p.count) || e.waitsCount i || hearthWaits e.t.hearth.ops i

/-- An instruction waits before its own meaning. -/
def stallBefore (s : State) (e : TEnv) (i : Instr) : Out :=
  .next (s.putTeam e (e.still fun f => { f with stalled := true, counts := f.counts || e.waitsCount i }))

/-- The s-registers that a Foyer instruction reads or writes. -/
def sregs : Instr → List SReg
  | .sadd x | .ssub x | .smul x | .sand x | .sor x | .sxor x | .sshl x | .sshr x | .ssar x => [x.d, x.a, x.b]
  | .smov d a => [d, a]
  | .ssel x => [x.d, x.a, x.b, x.c]
  | .saddImm x | .ssubImm x | .smulImm x | .sandImm x | .sorImm x | .sxorImm x | .sshlImm x | .sshrImm x
  | .ssarImm x => [x.d, x.a]
  | .smovi d _ => [d]
  | .saddLit x | .ssubLit x | .smulLit x | .sandLit x | .sorLit x | .sxorLit x | .sshlLit x | .sshrLit x
  | .ssarLit x => [x.d, x.a]
  | .smovl d _ => [d]
  | .scmp x => [x.d, x.a, x.b]
  | .scmpImm x => [x.d, x.a]
  | .sld x => [x.d, x.b]
  | .sst x => [x.d, x.b]
  | .satom x => [x.d, x.a, x.b] ++ (match x.sel with
    | .op _ => []
    | .cas c => [c])
  | .sbz x | .sbnz x => [x.a]
  | .scall x => [x.d]
  | .sret a => [a]
  | .dqpush a => [a]
  | .fmbind x | .fmswap x => [x.d, x.a, x.b]
  | .fmquery d _ => [d]
  | .plaunch a | .pcancel a | .prepeat a => [a]
  | _ => []

/-- A Foyer instruction has to wait for a pending load outside honoured mode. -/
def FEnv.waits (e : FEnv) (i : Instr) : Bool :=
  !e.l.honoured e.cur.pc && e.b.foyer.pend.any fun p => (sregs i).any fun r => r.val == p.reg

/-! ### Issuing -/

/-- What stands before an instruction's own conditions in a team: order 5; inside a capsule its rule, before everything else
(R437); order 6, 0xC1 of a withheld capsule form among it (R441); and the capsule rule of a team outside. -/
def preCause (s : State) (e : TEnv) (i : Instr) : Option Cause :=
  if !order5 e.l i then some 0x03#8
  else if e.t.inCap && !insideForm i then some 0xA1#8
  else
    match order6 s e.l.fn i with
    | some c => some c
    | none => if !e.t.inCap && insideForm i then some 0xA1#8 else none

/-- Issue a team's instruction: the conditions that precede its own, then the interlocks, then its own meaning. -/
def issueTeam (i : Instr) (s : State) (k : TEnv → Out) : Out :=
  withTeam s fun e =>
    match preCause s e i with
    | some c => trap s e c
    | none => if e.waits i then stallBefore s e i else k e

/-- Issue a Foyer instruction. -/
def issueFoyer (i : Instr) (s : State) (k : FEnv → Out) : Out :=
  withFoyer s fun e =>
    match order6 s e.l.fn i with
    | some c => trapF s e c
    | none => if e.waits i then stallFoyer s e else k e

/-! ### Election (R142) -/

/-- Act through the elected lane: the lowest enabled seat that is no helper; a fragment with no enabled lane does
nothing, and one with only helper lanes enabled raises 0x03. -/
def elect (s : State) (e : TEnv) (g : Guard) (k : Nat → Out) : Out :=
  match e.workers g with
  | i :: _ => k i
  | [] => if (e.enabled g).isEmpty then retire s e e.t else trap s e 0x03#8

/-- The guard that enables every active lane. -/
def always : Guard := ⟨0, false⟩

/-! ### Effects on lanes (R20, R40) -/

/-- OR flags into %asf (R22, R40). -/
def Team.raise (t : Team) (f : BitVec 7) : Team := { t with asf := t.asf ||| f.zeroExtend 32 }

/-- The flags that an effect raises in the enabled lanes that are not helper lanes (R40). -/
def raised (e : TEnv) (g : Guard) (f : Seat → BitVec 7) : BitVec 7 :=
  (e.workers g).foldl (fun a i => a ||| f (e.t.seat i)) 0

/-- The team after an effect on each enabled lane. -/
def TEnv.each (e : TEnv) (g : Guard) (f : Seat → Seat) : Team :=
  e.t.mapSeats (fun i => (e.enabled g).contains i) f

/-- An instruction that writes registers or predicates of the enabled lanes and raises flags. -/
def laneOp (i : Instr) (s : State) (g : Guard) (f : Seat → Seat) (fl : Seat → BitVec 7) : Out :=
  issueTeam i s fun e => retire s e ((e.each g f).raise (raised e g fl))

/-! ### Integer operands (R93, R94) -/

/-- width(T) (R93). -/
def tyWidth : IntTy → Nat
  | .i32 | .n32 => 32
  | .i16 | .n16 => 16
  | .i8 | .n8 => 8
  | .i64 | .n64 => 64
/-- lo(T) (R93). -/
def tyLo (t : IntTy) : Int := if t.signed then -(2 ^ (tyWidth t - 1)) else 0
/-- hi(T) (R93). -/
def tyHi (t : IntTy) : Int := if t.signed then 2 ^ (tyWidth t - 1) - 1 else 2 ^ tyWidth t - 1
/-- wrap(x, T): the value in the range of T congruent to x modulo 2^w. -/
def wrapTo (t : IntTy) (x : Int) : Int :=
  let u := x.emod (2 ^ tyWidth t)
  if t.signed && 2 ^ (tyWidth t - 1) ≤ u then u - 2 ^ tyWidth t else u
/-- clamp(x, T). -/
def clampTo (t : IntTy) (x : Int) : Int := if x < tyLo t then tyLo t else if tyHi t < x then tyHi t else x
/-- as_type(bits, T). -/
def asType (t : IntTy) (b : Nat) : Int := wrapTo t b
/-- The unsigned type of the same width. -/
def unsignedOf : IntTy → IntTy
  | .i32 | .n32 => .n32
  | .i16 | .n16 => .n16
  | .i8 | .n8 => .n8
  | .i64 | .n64 => .n64
/-- src(k, T). -/
def Seat.src (x : Seat) (r : VReg) (t : IntTy) : Int :=
  if t.wide then asType t (x.rd2 r.val).toNat else asType t (x.rd r.val).toNat
/-- cnt(k): a single register as .n32. -/
def Seat.cnt (x : Seat) (r : VReg) : Nat := (x.rd r.val).toNat
/-- put(k, T, x) for a value x in the range of T, with the fill of R27. -/
def Seat.put (x : Seat) (r : VReg) (t : IntTy) (v : Int) : Seat :=
  if t.wide then x.wr2 r.val (BitVec.ofInt 64 v) else x.wr r.val (BitVec.ofInt 32 v)
/-- imm(T). -/
def immOf (t : IntTy) (imm : BitVec 29) : Int := asType t (imm.signExtend 64).toNat
/-- lit(T). -/
def litOf (t : IntTy) (lit : DWord) : Int := asType t lit.toNat

/-- No flag. -/
def noFlag (_ : Seat) : BitVec 7 := 0

end Sys2Proof.Machine
end

