-- ==== Sys2Proof/Machine/Integer.lean ====
section
/-!
DEFINITION. Machine/Integer.lean: integer arithmetic (R98 to R100), logic and shifts (R102, R103), bit fields and counts
(R104, R105), compares (R106, R107), predicates (R108), selects and moves (R109, R110) and LEA (R111).
-/
namespace Sys2Proof.Machine

/-! ### Integer arithmetic (R100) -/

/-- The end of an integer operation: clamp under .sat, else wrap. -/
def finish (t : IntTy) (sat : Bool) (x : Int) : Int := if sat then clampTo t x else wrapTo t x

/-- DIV of R100. -/
def divInt (t : IntTy) (a b : Int) : Int := if b = 0 then (if a < 0 then tyLo t else tyHi t) else Int.tdiv a b
/-- REM of R100. -/
def remInt (_ : IntTy) (a b : Int) : Int := if b = 0 then a else a - b * Int.tdiv a b
/-- MULHI of R100. -/
def mulhiInt (t : IntTy) (a b : Int) : Int := Int.fdiv (a * b) (2 ^ tyWidth t)

/-- An operation on D, A and B. -/
def binRR (t : IntTy) (sat : Bool) (op : Int → Int → Int) (d a b : VReg) (x : Seat) : Seat :=
  x.put d t (finish t sat (op (x.src a t) (x.src b t)))
/-- An operation on D, A and a constant. -/
def binRC (t : IntTy) (sat : Bool) (op : Int → Int → Int) (d a : VReg) (c : Int) (x : Seat) : Seat :=
  x.put d t (finish t sat (op (x.src a t) c))
/-- An operation on D and A. -/
def unR (t : IntTy) (sat : Bool) (op : Int → Int) (d a : VReg) (x : Seat) : Seat :=
  x.put d t (finish t sat (op (x.src a t)))

/-- ADD of two registers. -/
def execAdd (x : IntRRS) (s : State) : Out :=
  laneOp (.add x) s x.g (binRR x.ty x.sat (fun a b => a + b) x.d x.a x.b) noFlag
/-- SUB of two registers. -/
def execSub (x : IntRRS) (s : State) : Out :=
  laneOp (.sub x) s x.g (binRR x.ty x.sat (fun a b => a - b) x.d x.a x.b) noFlag
/-- MUL of two registers. -/
def execMul (x : IntRRS) (s : State) : Out :=
  laneOp (.mul x) s x.g (binRR x.ty x.sat (fun a b => a * b) x.d x.a x.b) noFlag
/-- MULHI of two registers. -/
def execMulhi (x : IntRR) (s : State) : Out :=
  laneOp (.mulhi x) s x.g (binRR x.ty false (mulhiInt x.ty) x.d x.a x.b) noFlag
/-- MAD: exact, with one wrap or clamp. -/
def execMad (x : IntRRRS) (s : State) : Out :=
  laneOp (.mad x) s x.g
    (fun y => y.put x.d x.ty (finish x.ty x.sat (y.src x.a x.ty * y.src x.b x.ty + y.src x.c x.ty))) noFlag
/-- MIN of two registers. -/
def execMin (x : IntRR) (s : State) : Out :=
  laneOp (.min x) s x.g (binRR x.ty false min x.d x.a x.b) noFlag
/-- MAX of two registers. -/
def execMax (x : IntRR) (s : State) : Out :=
  laneOp (.max x) s x.g (binRR x.ty false max x.d x.a x.b) noFlag
/-- DIV of two registers. -/
def execDiv (x : IntRR) (s : State) : Out :=
  laneOp (.div x) s x.g (binRR x.ty false (divInt x.ty) x.d x.a x.b) noFlag
/-- REM of two registers. -/
def execRem (x : IntRR) (s : State) : Out :=
  laneOp (.rem x) s x.g (binRR x.ty false (remInt x.ty) x.d x.a x.b) noFlag
/-- ABS. -/
def execAbs (x : IntRS) (s : State) : Out :=
  laneOp (.abs x) s x.g (unR x.ty x.sat (fun a => a.natAbs) x.d x.a) noFlag
/-- NEG. -/
def execNeg (x : IntRS) (s : State) : Out :=
  laneOp (.neg x) s x.g (unR x.ty x.sat (fun a => -a) x.d x.a) noFlag

/-- ADD with an immediate. -/
def execAddImm (x : IntRI) (s : State) : Out :=
  laneOp (.addImm x) s x.g (binRC x.ty false (fun a b => a + b) x.d x.a (immOf x.ty x.imm)) noFlag
/-- SUB with an immediate. -/
def execSubImm (x : IntRI) (s : State) : Out :=
  laneOp (.subImm x) s x.g (binRC x.ty false (fun a b => a - b) x.d x.a (immOf x.ty x.imm)) noFlag
/-- MUL with an immediate. -/
def execMulImm (x : IntRI) (s : State) : Out :=
  laneOp (.mulImm x) s x.g (binRC x.ty false (fun a b => a * b) x.d x.a (immOf x.ty x.imm)) noFlag
/-- MIN with an immediate. -/
def execMinImm (x : IntRI) (s : State) : Out :=
  laneOp (.minImm x) s x.g (binRC x.ty false min x.d x.a (immOf x.ty x.imm)) noFlag
/-- MAX with an immediate. -/
def execMaxImm (x : IntRI) (s : State) : Out :=
  laneOp (.maxImm x) s x.g (binRC x.ty false max x.d x.a (immOf x.ty x.imm)) noFlag

/-- ADD with a literal. -/
def execAddLit (x : IntRLS) (s : State) : Out :=
  laneOp (.addLit x) s x.g (binRC x.ty x.sat (fun a b => a + b) x.d x.a (litOf x.ty x.lit)) noFlag
/-- SUB with a literal. -/
def execSubLit (x : IntRLS) (s : State) : Out :=
  laneOp (.subLit x) s x.g (binRC x.ty x.sat (fun a b => a - b) x.d x.a (litOf x.ty x.lit)) noFlag
/-- MUL with a literal. -/
def execMulLit (x : IntRLS) (s : State) : Out :=
  laneOp (.mulLit x) s x.g (binRC x.ty x.sat (fun a b => a * b) x.d x.a (litOf x.ty x.lit)) noFlag
/-- MULHI with a literal. -/
def execMulhiLit (x : IntRL) (s : State) : Out :=
  laneOp (.mulhiLit x) s x.g (binRC x.ty false (mulhiInt x.ty) x.d x.a (litOf x.ty x.lit)) noFlag
/-- MIN with a literal. -/
def execMinLit (x : IntRL) (s : State) : Out :=
  laneOp (.minLit x) s x.g (binRC x.ty false min x.d x.a (litOf x.ty x.lit)) noFlag
/-- MAX with a literal. -/
def execMaxLit (x : IntRL) (s : State) : Out :=
  laneOp (.maxLit x) s x.g (binRC x.ty false max x.d x.a (litOf x.ty x.lit)) noFlag
/-- DIV by a literal. -/
def execDivLit (x : IntRL) (s : State) : Out :=
  laneOp (.divLit x) s x.g (binRC x.ty false (divInt x.ty) x.d x.a (litOf x.ty x.lit)) noFlag
/-- REM by a literal. -/
def execRemLit (x : IntRL) (s : State) : Out :=
  laneOp (.remLit x) s x.g (binRC x.ty false (remInt x.ty) x.d x.a (litOf x.ty x.lit)) noFlag

/-! ### Logic and shifts (R102, R103) -/

/-- The w-bit pattern of register A. -/
def Seat.pat (x : Seat) (r : VReg) (t : IntTy) : Nat := (x.src r (unsignedOf t)).toNat
/-- The w-bit pattern of a constant. -/
def patOf (t : IntTy) (n : Nat) : Nat := n % 2 ^ tyWidth t
/-- Write a pattern with the fill of the type (R27, R103). -/
def Seat.putPat (x : Seat) (r : VReg) (t : IntTy) (n : Nat) : Seat := x.put r t (wrapTo t n)

/-- a & ~b on w bits (R102). -/
def andnPat (t : IntTy) (a b : Nat) : Nat := a &&& (2 ^ tyWidth t - 1 - b)
/-- SHL (R103). -/
def shlPat (t : IntTy) (a c : Nat) : Nat := if c < tyWidth t then a * 2 ^ c % 2 ^ tyWidth t else 0
/-- SHR (R103). -/
def shrPat (t : IntTy) (a c : Nat) : Nat := if c < tyWidth t then a / 2 ^ c else 0
/-- The signed value of a pattern. -/
def signedPat (t : IntTy) (a : Nat) : Int := if 2 ^ (tyWidth t - 1) ≤ a then (a : Int) - 2 ^ tyWidth t else a
/-- SAR (R103). -/
def sarPat (t : IntTy) (a c : Nat) : Nat :=
  let v := signedPat t a
  let x : Int := if c < tyWidth t then Int.fdiv v (2 ^ c) else if v < 0 then -1 else 0
  (x.emod (2 ^ tyWidth t)).toNat
/-- ROT (R103). -/
def rotPat (t : IntTy) (a c : Nat) : Nat :=
  let k := c % tyWidth t
  (a * 2 ^ k ||| a / 2 ^ (tyWidth t - k)) % 2 ^ tyWidth t

/-- A logic operation on D, A and B. -/
def logRR (x : IntRR) (op : Nat → Nat → Nat) (y : Seat) : Seat :=
  y.putPat x.d x.ty (op (y.pat x.a x.ty) (y.pat x.b x.ty))
/-- A logic operation with an immediate. -/
def logRI (x : IntRI) (op : Nat → Nat → Nat) (y : Seat) : Seat :=
  y.putPat x.d x.ty (op (y.pat x.a x.ty) (patOf x.ty (x.imm.signExtend 64).toNat))
/-- A logic operation with a literal. -/
def logRL (x : IntRL) (op : Nat → Nat → Nat) (y : Seat) : Seat :=
  y.putPat x.d x.ty (op (y.pat x.a x.ty) (patOf x.ty x.lit.toNat))
/-- A shift by register B. -/
def shfRR (x : IntRR) (op : Nat → Nat → Nat) (y : Seat) : Seat :=
  y.putPat x.d x.ty (op (y.pat x.a x.ty) (y.cnt x.b))
/-- A shift by an immediate, read as .n32. -/
def shfRI (x : IntRI) (op : Nat → Nat → Nat) (y : Seat) : Seat :=
  y.putPat x.d x.ty (op (y.pat x.a x.ty) (x.imm.signExtend 32).toNat)
/-- A shift by a literal, its low 32 bits. -/
def shfRL (x : IntRL) (op : Nat → Nat → Nat) (y : Seat) : Seat :=
  y.putPat x.d x.ty (op (y.pat x.a x.ty) (x.lit.toNat % 2 ^ 32))

/-- AND of two registers. -/
def execAnd (x : IntRR) (s : State) : Out := laneOp (.and x) s x.g (logRR x (· &&& ·)) noFlag
/-- OR of two registers. -/
def execOr (x : IntRR) (s : State) : Out := laneOp (.or x) s x.g (logRR x (· ||| ·)) noFlag
/-- XOR of two registers. -/
def execXor (x : IntRR) (s : State) : Out := laneOp (.xor x) s x.g (logRR x (· ^^^ ·)) noFlag
/-- ANDN of two registers. -/
def execAndn (x : IntRR) (s : State) : Out := laneOp (.andn x) s x.g (logRR x (andnPat x.ty)) noFlag
/-- NOT. -/
def execNot (x : IntR) (s : State) : Out :=
  laneOp (.not x) s x.g (fun y => y.putPat x.d x.ty (2 ^ tyWidth x.ty - 1 - y.pat x.a x.ty)) noFlag
/-- SHL by a register. -/
def execShl (x : IntRR) (s : State) : Out := laneOp (.shl x) s x.g (shfRR x (shlPat x.ty)) noFlag
/-- SHR by a register. -/
def execShr (x : IntRR) (s : State) : Out := laneOp (.shr x) s x.g (shfRR x (shrPat x.ty)) noFlag
/-- SAR by a register. -/
def execSar (x : IntRR) (s : State) : Out := laneOp (.sar x) s x.g (shfRR x (sarPat x.ty)) noFlag
/-- ROT by a register. -/
def execRot (x : IntRR) (s : State) : Out := laneOp (.rot x) s x.g (shfRR x (rotPat x.ty)) noFlag
/-- AND with an immediate. -/
def execAndImm (x : IntRI) (s : State) : Out := laneOp (.andImm x) s x.g (logRI x (· &&& ·)) noFlag
/-- OR with an immediate. -/
def execOrImm (x : IntRI) (s : State) : Out := laneOp (.orImm x) s x.g (logRI x (· ||| ·)) noFlag
/-- XOR with an immediate. -/
def execXorImm (x : IntRI) (s : State) : Out := laneOp (.xorImm x) s x.g (logRI x (· ^^^ ·)) noFlag
/-- ANDN with an immediate. -/
def execAndnImm (x : IntRI) (s : State) : Out := laneOp (.andnImm x) s x.g (logRI x (andnPat x.ty)) noFlag
/-- SHL by an immediate. -/
def execShlImm (x : IntRI) (s : State) : Out := laneOp (.shlImm x) s x.g (shfRI x (shlPat x.ty)) noFlag
/-- SHR by an immediate. -/
def execShrImm (x : IntRI) (s : State) : Out := laneOp (.shrImm x) s x.g (shfRI x (shrPat x.ty)) noFlag
/-- SAR by an immediate. -/
def execSarImm (x : IntRI) (s : State) : Out := laneOp (.sarImm x) s x.g (shfRI x (sarPat x.ty)) noFlag
/-- ROT by an immediate. -/
def execRotImm (x : IntRI) (s : State) : Out := laneOp (.rotImm x) s x.g (shfRI x (rotPat x.ty)) noFlag
/-- AND with a literal. -/
def execAndLit (x : IntRL) (s : State) : Out := laneOp (.andLit x) s x.g (logRL x (· &&& ·)) noFlag
/-- OR with a literal. -/
def execOrLit (x : IntRL) (s : State) : Out := laneOp (.orLit x) s x.g (logRL x (· ||| ·)) noFlag
/-- XOR with a literal. -/
def execXorLit (x : IntRL) (s : State) : Out := laneOp (.xorLit x) s x.g (logRL x (· ^^^ ·)) noFlag
/-- ANDN with a literal. -/
def execAndnLit (x : IntRL) (s : State) : Out := laneOp (.andnLit x) s x.g (logRL x (andnPat x.ty)) noFlag
/-- SHL by a literal. -/
def execShlLit (x : IntRL) (s : State) : Out := laneOp (.shlLit x) s x.g (shfRL x (shlPat x.ty)) noFlag
/-- SHR by a literal. -/
def execShrLit (x : IntRL) (s : State) : Out := laneOp (.shrLit x) s x.g (shfRL x (shrPat x.ty)) noFlag
/-- SAR by a literal. -/
def execSarLit (x : IntRL) (s : State) : Out := laneOp (.sarLit x) s x.g (shfRL x (sarPat x.ty)) noFlag
/-- ROT by a literal. -/
def execRotLit (x : IntRL) (s : State) : Out := laneOp (.rotLit x) s x.g (shfRL x (rotPat x.ty)) noFlag

/-! ### Bit fields and counts (R104, R105) -/

/-- The number of 1 bits below bit w. -/
def popcount (a w : Nat) : Nat := ((List.range w).filter a.testBit).length
/-- The number of bits of a number below 2^w. -/
def bitLength (a : Nat) : Nat := if a = 0 then 0 else a.log2 + 1
/-- A w-bit pattern reversed. -/
def reverseBits (a w : Nat) : Nat := (List.range w).foldl (fun n i => n * 2 + a / 2 ^ i % 2) 0
/-- The field of BFE as a value (R105). -/
def bfeInt (t : IntTy) (a pos len : Nat) : Int :=
  let fld : Nat := a / 2 ^ pos % 2 ^ len
  if len = 0 then 0
  else if t.signed && fld.testBit (len - 1) then (fld : Int) - 2 ^ len
  else fld
/-- The pattern of BFI (R105). -/
def bfiPat (w d a pos len : Nat) : Nat :=
  (List.range w).foldl (fun n i =>
    n + (if pos ≤ i && i < pos + len then a / 2 ^ (i - pos) % 2 else d / 2 ^ i % 2) * 2 ^ i) 0

/-- POPC. -/
def execPopc (x : IntR) (s : State) : Out :=
  laneOp (.popc x) s x.g (fun y => y.wr x.d.val (BitVec.ofNat 32 (popcount (y.pat x.a x.ty) (tyWidth x.ty)))) noFlag
/-- CLZ. -/
def execClz (x : IntR) (s : State) : Out :=
  laneOp (.clz x) s x.g (fun y => y.wr x.d.val (BitVec.ofNat 32 (tyWidth x.ty - bitLength (y.pat x.a x.ty)))) noFlag
/-- BREV. -/
def execBrev (x : IntR) (s : State) : Out :=
  laneOp (.brev x) s x.g (fun y => y.putPat x.d x.ty (reverseBits (y.pat x.a x.ty) (tyWidth x.ty))) noFlag
/-- BFE. -/
def execBfe (x : IntRRR) (s : State) : Out :=
  laneOp (.bfe x) s x.g (fun y =>
    y.put x.d x.ty (wrapTo x.ty (bfeInt x.ty (y.pat x.a x.ty) (y.cnt x.b % 256) (min (y.cnt x.c % 256) (tyWidth x.ty)))))
    noFlag
/-- BFI. -/
def execBfi (x : IntRRR) (s : State) : Out :=
  laneOp (.bfi x) s x.g (fun y =>
    y.putPat x.d x.ty (bfiPat (tyWidth x.ty) (y.pat x.d x.ty) (y.pat x.a x.ty) (y.cnt x.b % 256)
      (min (y.cnt x.c % 256) (tyWidth x.ty)))) noFlag

/-! ### Compares and predicates (R106 to R108) -/

/-- The relations of R106. -/
def cmpInt (c : Cmp) (a b : Int) : Bool :=
  match c with
  | .eq => a == b
  | .ne => a != b
  | .lt => a < b
  | .le => a ≤ b
  | .gt => b < a
  | .ge => b ≤ a

/-- SETP of two registers. -/
def execSetp (x : SetpRR) (s : State) : Out :=
  laneOp (.setp x) s x.g (fun y => y.setPred x.pd (cmpInt x.cmp (y.src x.a x.ty) (y.src x.b x.ty))) noFlag
/-- SETP with an immediate. -/
def execSetpImm (x : SetpRI) (s : State) : Out :=
  laneOp (.setpImm x) s x.g (fun y => y.setPred x.pd (cmpInt x.cmp (y.src x.a x.ty) (immOf x.ty x.imm))) noFlag
/-- SETP with a literal. -/
def execSetpLit (x : SetpRL) (s : State) : Out :=
  laneOp (.setpLit x) s x.g (fun y => y.setPred x.pd (cmpInt x.cmp (y.src x.a x.ty) (litOf x.ty x.lit))) noFlag

/-- An operation on two predicates, each negated where its flag says so. -/
def predOp (x : PredRR) (op : Bool → Bool → Bool) (y : Seat) : Seat :=
  y.setPred x.pd (op (y.pred x.pa != x.na) (y.pred x.pb != x.nb))

/-- PAND. -/
def execPand (x : PredRR) (s : State) : Out := laneOp (.pand x) s x.g (predOp x (· && ·)) noFlag
/-- POR. -/
def execPor (x : PredRR) (s : State) : Out := laneOp (.por x) s x.g (predOp x (· || ·)) noFlag
/-- PXOR. -/
def execPxor (x : PredRR) (s : State) : Out := laneOp (.pxor x) s x.g (predOp x (· != ·)) noFlag
/-- PNOT. -/
def execPnot (x : PredR) (s : State) : Out :=
  laneOp (.pnot x) s x.g (fun y => y.setPred x.pd (!(y.pred x.pa != x.na))) noFlag

/-! ### Selects, moves and LEA (R109 to R111) -/

/-- Copy a register, pair or quadruple. -/
def Seat.copyW (x : Seat) (wd : CopyW) (d a : VReg) : Seat :=
  match wd with
  | .w32 => x.wr d.val (x.rd a.val)
  | .w64 => x.wr2 d.val (x.rd2 a.val)
  | .w128 => x.wr4 d.val (x.rd4 a.val)

/-- SEL. -/
def execSel (x : SelOp) (s : State) : Out :=
  laneOp (.sel x) s x.g (fun y => y.copyW x.wd x.d (if y.pred x.pc then x.a else x.b)) noFlag
/-- MOV. -/
def execMov (x : MovOp) (s : State) : Out := laneOp (.mov x) s x.g (fun y => y.copyW x.wd x.d x.a) noFlag
/-- MOVI. -/
def execMovi (x : MoviOp) (s : State) : Out :=
  laneOp (.movi x) s x.g (fun y =>
    if x.w64 then y.wr2 x.d.val (x.imm.signExtend 64) else y.wr x.d.val (x.imm.signExtend 32)) noFlag
/-- MOVL. -/
def execMovl (x : MovlOp) (s : State) : Out :=
  laneOp (.movl x) s x.g (fun y =>
    if x.w64 then y.wr2 x.d.val x.lit else y.wr x.d.val (x.lit.truncate 32)) noFlag
/-- LEA. -/
def execLea (x : LeaOp) (s : State) : Out :=
  laneOp (.lea x) s x.g (fun y =>
    let ix : DWord := if x.sx then (y.rd x.b.val).signExtend 64 else (y.rd x.b.val).zeroExtend 64
    y.wr2 x.d.val (y.rd2 x.a.val + ix <<< x.sh.val)) noFlag

end Sys2Proof.Machine
end

