-- ==== Sys2Proof/Machine/Access.lean ====
section
/-!
DEFINITION. Machine/Access.lean: the accesses of team and Foyer instructions: the checks of every lane before any
performs (R125, R126, R214), conflicts on checked pages (R235, R236), a full dirty log (R415), and reading and writing
bytes at each level of memory (R194 to R206, R230 to R233).
-/
namespace Sys2Proof.Machine

/-! ### Levels (R25, R194 to R202) -/

/-- The cause of an offset outside a level's region (R25). -/
def levelCause : Level → Cause
  | .cluster => 0x26#8
  | .pantry => 0x27#8
  | _ => 0x25#8

/-- The number of a block's cluster group (R138). -/
def groupOf (l : Launch) (b : Nat) : Nat := b / l.img.clg

/-- The bytes of a level's region as a context of a block sees it (R194, R201, R202). -/
def levelSize (l : Launch) : Level → Nat
  | .global => 0
  | .slice => l.img.slice
  | .scratch => l.img.scra
  | .cluster => l.img.clg * l.img.cmem
  | .pantry => l.pant

/-- The memory that holds a level for a block of a launch; the Pantry is that of the die on which the block runs (R202, R428). -/
def levelMem (l : Launch) (b : Block) : Level → Memory
  | .global => []
  | .slice => b.slices
  | .scratch => b.scratch
  | .cluster => match l.groups.find? fun g => g.id == groupOf l b.id with
    | some g => g.mem
    | none => []
  | .pantry => match l.pantry.find? fun p => p.1 == b.runsOn.die with
    | some p => p.2
    | none => []

/-- Change the memory that holds a level for a block. -/
def State.updLevel (s : State) (l b : Nat) (lv : Level) (f : Memory → Memory) : State :=
  match lv with
  | .global => s
  | .slice => s.updBlock l b fun x => { x with slices := f x.slices }
  | .scratch => s.updBlock l b fun x => { x with scratch := f x.scratch }
  | .cluster => s.updLaunch l fun x =>
    { x with groups := upd (fun g => g.id == groupOf x b) (fun g => { g with mem := f g.mem }) x.groups }
  | .pantry => s.updLaunch l fun x => match x.block b with
    | none => x
    | some bk => { x with pantry := upd (fun p => p.1 == bk.runsOn.die) (fun p => (p.1, f p.2)) x.pantry }

/-- Read bytes of a level as the state holds it. -/
def State.levelBytes (s : State) (l b : Nat) (lv : Level) (a n : Nat) : List Byte :=
  match s.launch l with
  | none => []
  | some ln => match ln.block b with
    | none => []
    | some bk => (levelMem ln bk lv).bytes a n

/-- Where an offset of a seat's lane lies in the memory that holds the level (R197). -/
def TEnv.place (e : TEnv) (lv : Level) (seat off : Nat) : Nat :=
  match lv with
  | .slice => (e.ti * e.t.seats.length + (e.t.seat seat).lane) * e.l.img.slice + off
  | _ => off

/-! ### One lane's checked access -/

/-- An access that passed its checks: the seat, the address as formed, where it lies, and the translation of a global
one. -/
structure Acc where
  seat : Nat
  va : DWord
  at_ : Nat
  tr : Option Tr
  deriving DecidableEq, Repr

/-- The die of the TLB that an agent of a core uses. -/
def Block.die (b : Block) : Option Nat := some b.runsOn.die

/-- The checks on one lane's access at a level (R125, R214). -/
def checkLane (s : State) (e : TEnv) (lv : Level) (size : Nat) (kind : AKind) (seat : Nat) (va : DWord) : Except XErr Acc :=
  match lv with
  | .global => match s.check e.b.die e.l.asid va size kind with
    | .error x => .error x
    | .ok t => .ok ⟨seat, va, t.pa, some t⟩
  | _ =>
    if va.toNat % size != 0 then .error (.of 0x23#8)
    else if levelSize e.l lv < va.toNat + size then .error (.of (levelCause lv))
    else .ok ⟨seat, va, e.place lv seat va.toNat, none⟩

/-- The lanes whose accesses pass their checks, and those that fail, each with its address. -/
def checkLanes (s : State) (e : TEnv) (lv : Level) (size : Nat) (kind : AKind) :
    List (Nat × DWord) → List Acc × List (Nat × DWord × XErr)
  | [] => ([], [])
  | (i, va) :: rest =>
    let r := checkLanes s e lv size kind rest
    match checkLane s e lv size kind i va with
    | .ok a => (a :: r.1, r.2)
    | .error x => (r.1, (i, va, x) :: r.2)

/-- The granule of an access (R235). -/
def Acc.granule (a : Acc) : Nat := a.at_ / 32
/-- The granule's virtual address. -/
def Acc.granuleVa (a : Acc) : Nat := a.va.toNat / 32 * 32
/-- Whether the access lies on a checked page (R410). -/
def Acc.checked (a : Acc) : Bool := match a.tr with
  | some t => t.attrs.checked
  | none => false

/-- Perform what translating leaves behind for each access; the second answer says that all went through (R411, R415). -/
def commitAll (s : State) (die : Option Nat) (asid : Nat) (kind : AKind) : List Acc → State × Bool
  | [] => (s, true)
  | a :: as => match a.tr with
    | none => commitAll s die asid kind as
    | some t => match s.commitTr die asid a.va kind t with
      | some s => commitAll s die asid kind as
      | none => (s, false)

/-- The granules that an access of n bytes touches on a checked page, each with its virtual address (R235). -/
def Acc.granules (a : Acc) (n : Nat) : List (Nat × Nat) :=
  if a.checked then (List.range ((n + 31) / 32)).map fun k => (a.granule + k, a.granuleVa + 32 * k) else []

/-- The granule's address and the agent that an access of n bytes conflicts with first (R235, R236). -/
def State.conflictIn (s : State) (ag : AgentId) (a : Acc) (n : Nat) (k : MKind) : Option (Nat × AgentId) :=
  (a.granules n).findSome? fun g => (s.conflict ag g.1 k).map fun w => (g.2, w)

/-- Mark the granules of an access of n bytes (R235). -/
def State.markAcc (s : State) (ag : AgentId) (n : Nat) (k : MKind) (a : Acc) (op : Nat := 0) : State :=
  (a.granules n).foldl (fun s g => s.mark ag g.1 g.2 k op) s

/-- Mark each access of n bytes that lies on a checked page (R235). -/
def markAll (s : State) (ag : AgentId) (k : MKind) (n : Nat) (as : List Acc) : State :=
  as.foldl (fun s x => s.markAcc ag n k x) s

/-- The seats that MASK of a data access's trap record names: those that failed, but for a cause outside 0x20 to 0x28 the
fragment's active lanes (R387). -/
def TEnv.failMask (e : TEnv) (c : Cause) (seats : List Nat) : List Nat :=
  if 0x20#8 ≤ c && c ≤ 0x28#8 then seats else e.active

/-- A team's access: every lane's checks; a cause of the form itself; conflicts; the dirty log; then what the instruction
does with accesses that all perform (R126, R214, R217, R236, R415). -/
def teamAccess (s : State) (e : TEnv) (lv : Level) (size : Nat) (kind : AKind) (mk : MKind) (lanes : List (Nat × DWord))
    (own : List Acc → Option Cause) (k : State → List Acc → Out) : Out :=
  let r := checkLanes s e lv size kind lanes
  match r.2 with
  | (_, va, x) :: _ => trapMem (s.noteErr x) e x.cause va (e.failMask x.cause (r.2.map Prod.fst))
  | [] =>
    match own r.1 with
    | some c => trap s e c
    | none =>
      let bad := r.1.filterMap fun a => (s.conflictIn e.agent a size mk).map fun c => (a.seat, c)
      match bad with
      | (_, va, w) :: _ => trapMem s e 0x60#8 (BitVec.ofNat 64 va) (bad.map Prod.fst) (mk.inner kind.rmw) (some w)
      | [] =>
        let c := commitAll s e.b.die e.l.asid kind r.1
        if c.2 then k (markAll c.1 e.agent mk size r.1) r.1 else stall c.1 e

/-! ### Bytes (R203, R206, R232 to R234) -/

/-- The class that a fill uses (R207, R410). -/
def fillClass (l : Launch) (t : Tr) : Nat := match t.attrs.cls with
  | some c => c.val
  | none => l.ac

/-- Whether an access performs beyond the L1 whatever its scope: on a checked page or in peer memory (R234, R478). -/
def bypass (t : Tr) : Bool := t.attrs.checked || isPeer t.pa

/-- An access that performs beyond the L1 reaches memory: no L1 holds a line of a checked page (R234), and the home slice takes the
line in, but for peer memory (R207, R478). -/
def State.atHome (s : State) (l : Launch) (t : Tr) : State :=
  (s.purgeFor t).l2Touch (fillClass l t) (t.pa / 128)

/-- Read bytes of global memory; wide is an acquire at .clu or wider (R203, R233). -/
def State.globalRead (s : State) (l : Launch) (u : Unit3) (t : Tr) (n : Nat) (wide : Bool) : State × List Byte :=
  if bypass t then
    let s := s.atHome l t
    (s, s.mem.bytes t.pa n)
  else if wide then s.l1Acquire u (fillClass l t) t.pa n
  else s.l1Read u (fillClass l t) t.pa n

/-- Write bytes of global memory; wide is a release at .clu or wider (R203, R232). -/
def State.globalWrite (s : State) (l : Launch) (u : Unit3) (t : Tr) (bs : List Byte) (wide : Bool) : State :=
  if bypass t then
    let s := s.atHome l t
    { s with mem := s.mem.put t.pa bs }
  else if wide then
    let s := s.l2Touch (fillClass l t) (t.pa / 128)
    ({ s with mem := s.mem.put t.pa bs } : State).l1Refresh u (fillClass l t) t.pa bs
  else s.l1Write u (fillClass l t) t.pa bs

/-- Read and write bytes of global memory as one atomic at a scope (R206, R218). -/
def State.globalAtomic (s : State) (l : Launch) (u : Unit3) (t : Tr) (n : Nat) (wide : Bool)
    (f : List Byte → List Byte) : State × List Byte :=
  if bypass t || wide then
    let s := (if bypass t then s else s.l1Evict u t.pa).atHome l t
    let old := s.mem.bytes t.pa n
    ({ s with mem := s.mem.put t.pa (f old) }, old)
  else
    let r := s.l1Read u (fillClass l t) t.pa n
    (r.1.l1Write u (fillClass l t) t.pa (f r.2), r.2)

/-- DEV of a peer address (R471). -/
def devOf (pa : Nat) : Nat := pa / 2 ^ 45 % 64

/-- The lanes of a load that read peer memory: seat, device and address. -/
def peersOf (as : List Acc) : List (Nat × Nat × DWord) :=
  as.filterMap fun a => a.tr.bind fun t => if isPeer t.pa then some (a.seat, devOf t.pa, a.va) else none

/-- A write to peer memory that has gone out: s is the state before it, s' after it (R472). -/
def State.notePeer (s s' : State) (a : AgentId) (va : DWord) (pa n : Nat) : State :=
  if isPeer pa then { s' with peerOut := s'.peerOut ++ [⟨a, devOf pa, va, pa, s.mem.bytes pa n, s'.mem.bytes pa n⟩] } else s'

/-- A scope of .dev or wider. -/
def devScope : Scope → Bool
  | .dev | .sys => true
  | _ => false

/-- What an atomic of a scope on the accesses listed leaves for the queues. -/
def State.watchAll (s : State) (sc : Scope) (n : Nat) (as : List Acc) : State :=
  if devScope sc then as.foldl (fun s a => match a.tr with
    | some t => s.watch t.pa n
    | none => s) s
  else s

/-- Read the bytes of a team's checked access. -/
def readAcc (s : State) (e : TEnv) (lv : Level) (n : Nat) (wide : Bool) (a : Acc) : State × List Byte :=
  match a.tr with
  | some t => s.globalRead e.l e.b.runsOn t n wide
  | none => (s, s.levelBytes e.l.id e.b.id lv a.at_ n)

/-- Write the bytes of a team's checked access. -/
def writeAcc (s : State) (e : TEnv) (lv : Level) (bs : List Byte) (wide : Bool) (a : Acc) : State :=
  match a.tr with
  | some t => s.notePeer (s.globalWrite e.l e.b.runsOn t bs wide) e.agent a.va t.pa bs.length
  | none => s.updLevel e.l.id e.b.id lv fun m => m.put a.at_ bs

/-- Perform a team's checked access as an atomic. -/
def atomicAcc (s : State) (e : TEnv) (lv : Level) (n : Nat) (wide : Bool) (f : List Byte → List Byte) (a : Acc) :
    State × List Byte :=
  match a.tr with
  | some t =>
    let r := s.globalAtomic e.l e.b.runsOn t n wide f
    (s.notePeer r.1 e.agent a.va t.pa n, r.2)
  | none =>
    let old := s.levelBytes e.l.id e.b.id lv a.at_ n
    (s.updLevel e.l.id e.b.id lv fun m => m.put a.at_ (f old), old)

/-- The byte that an earlier lane of the instruction has read, else the one read now (R227). -/
def sameByte (seen : List (Nat × Byte)) (a : Nat) (b : Byte) : Byte :=
  match seen.find? fun p => p.1 == a with
  | some p => p.2
  | none => b

/-- Perform accesses in ascending seat order, collecting what each reads; lanes that read one byte receive one value (R43,
R227). -/
def readAll (s : State) (e : TEnv) (lv : Level) (n : Nat) (wide : Bool) (seen : List (Nat × Byte)) :
    List Acc → State × List (Nat × List Byte)
  | [] => (s, [])
  | a :: as =>
    let r := readAcc s e lv n wide a
    let bs := r.2.mapIdx fun k b => sameByte seen (a.at_ + k) b
    let q := readAll r.1 e lv n wide (seen ++ bs.mapIdx fun k b => (a.at_ + k, b)) as
    (q.1, (a.seat, bs) :: q.2)

/-! ### Values of atomics (R188, R218) -/

/-- The value that an atomic stores. -/
def atomNew (o : AtomOp) (w64 : Bool) (old v : Nat) : Nat :=
  let t : IntTy := if w64 then .i64 else .i32
  let lt (sg : Bool) (a b : Nat) : Bool := if sg then asType t a < asType t b else a < b
  match o with
  | .add => (old + v) % 2 ^ tyWidth t
  | .min sg => if lt sg v old then v else old
  | .max sg => if lt sg old v then v else old
  | .and => old &&& v
  | .or => old ||| v
  | .xor => old ^^^ v
  | .exch => v

/-- Bytes of an atomic's operand. -/
def atomSize (w64 : Bool) : Nat := if w64 then 8 else 4

/-- Whether ORD acquires. -/
def ordAcq : Ord2 → Bool
  | .acq | .ar => true
  | _ => false
/-- Whether ORD releases. -/
def ordRel : Ord2 → Bool
  | .rel | .ar => true
  | _ => false

/-! ### Pending loads (R62, R199) -/

/-- SBSET of the word in hand, where the schedule is honoured (R59). -/
def TEnv.sbSet (e : TEnv) : Nat :=
  match e.cur.sched with
  | some f => if e.l.honoured e.cur.pc then bitsAt f 16 2 else 0
  | none => 0

/-- SBSET of a Foyer word (R59). -/
def FEnv.sbSet (e : FEnv) : Nat :=
  match e.cur.sched with
  | some f => if e.l.honoured e.cur.pc then bitsAt f 16 2 else 0
  | none => 0

/-- The words that a load writes in each seat: data for the seats that performed, 0 for enabled helper lanes (R126). -/
def loadWords (e : TEnv) (g : Guard) (n : Nat) (got : List (Nat × List Word)) : List (Option (List Word)) :=
  (List.range e.t.seats.length).map fun i =>
    if !(e.enabled g).contains i then none
    else match got.find? fun p => p.1 == i with
      | some p => some p.2
      | none => some (List.replicate n 0)

/-- The team with a load's data pending. -/
def Team.post (t : Team) (p : Pending) : Team :=
  let ps := t.pend ++ [p]
  { t with pend := ps, scratch := t.scratch + (if p.posted then 1 else 0), sb := t.boards ps }

/-- Deliver a load's words: at once for the lane slice, else pending; posted for levels 2 and 3 (R199, R215). -/
def deliver (e : TEnv) (lv : Level) (t : Team) (reg n : Nat) (words : List (Option (List Word))) (as : List Acc) : Team :=
  match lv with
  | .slice => t.land ⟨reg, n, words, false, 0, []⟩
  | .scratch | .cluster => t.post ⟨reg, n, words, true, e.sbSet, []⟩
  | _ => t.post ⟨reg, n, words, false, e.sbSet, peersOf as⟩

/-! ### Accesses of a Foyer context (R187, R188) -/

/-- A Foyer context's access: its checks, a cause of the form, conflicts, the dirty log, then the access. -/
def foyerAccess (s : State) (e : FEnv) (va : DWord) (size : Nat) (kind : AKind) (mk : MKind) (own : Tr → Option Cause)
    (k : State → Tr → Out) : Out :=
  match s.check e.b.die e.l.asid va size kind with
  | .error x => .next (takeTrapFoyer (s.noteErr x) e x.cause { e.info x.cause with addr := va })
  | .ok t =>
    match own t with
    | some c => trapF s e c
    | none =>
      let a : Acc := ⟨0, va, t.pa, some t⟩
      match s.conflictIn e.agent a size mk with
      | some c =>
        .next (takeTrapFoyer s e 0x60#8 { e.info 0x60#8 with
          addr := BitVec.ofNat 64 c.1, inner := mk.inner kind.rmw, conflict := some c.2 })
      | none =>
        match s.commitTr e.b.die e.l.asid va kind t with
        | none => stallFoyer s e
        | some s => k (s.markAcc e.agent size mk a) t

end Sys2Proof.Machine
end

