-- ==== Sys2Proof/Machine/MemoryOps.lean ====
section
/-!
DEFINITION. Machine/MemoryOps.lean: LD and ST (R124 to R127), LD and ST with a level or an ordering (R212 to R215), and
ATOM (R216 to R219).
-/
namespace Sys2Proof.Machine

/-! ### Sizes (R124) -/

/-- Bytes of a load. -/
def ldBytes : LdSz → Nat
  | .i8 | .n8 => 1
  | .i16 | .n16 => 2
  | .b32 => 4
  | .b64 => 8
  | .b128 => 16

/-- Registers that a load writes. -/
def ldRegs : LdSz → Nat
  | .b64 => 2
  | .b128 => 4
  | _ => 1

/-- Bytes of a store. -/
def stBytes : StSz → Nat
  | .b8 => 1
  | .b16 => 2
  | .b32 => 4
  | .b64 => 8
  | .b128 => 16

/-- The words of 32 bits that bytes make. -/
def wordsOf (n : Nat) (bs : List Byte) : List Word :=
  (List.range n).map fun k => BitVec.ofNat 32 (fieldAt bs (4 * k) 4)

/-- The words that a load writes, extended by its size code (R124). -/
def ldWords (sz : LdSz) (bs : List Byte) : List Word :=
  match sz with
  | .i8 => [((bs.getD 0 0).signExtend 32)]
  | .i16 => [(BitVec.ofNat 16 (leNat bs)).signExtend 32]
  | .b64 => wordsOf 2 bs
  | .b128 => wordsOf 4 bs
  | _ => wordsOf 1 bs

/-- The bytes that a store takes from its data registers. -/
def stData (x : Seat) (sz : StSz) (r : VReg) : List Byte :=
  match sz with
  | .b64 => leBytes 8 (x.rd2 r.val).toNat
  | .b128 => leBytes 16 (x.rd4 r.val).toNat
  | z => leBytes (stBytes z) (x.rd r.val).toNat

/-! ### Addresses (R125, R214) -/

/-- The effective address of a lane: 64 bits from a pair for global memory, else a 32-bit offset. -/
def effective (lv : Level) (x : Seat) (b : VReg) (ofs : BitVec 21) : DWord :=
  match lv with
  | .global => x.rd2 b.val + ofs.signExtend 64
  | _ => (x.rd b.val + ofs.signExtend 32).zeroExtend 64

/-- The lanes that access memory, ascending, each with its address. -/
def TEnv.lanes (e : TEnv) (g : Guard) (lv : Level) (b : VReg) (ofs : BitVec 21) : List (Nat × DWord) :=
  (e.workers g).map fun i => (i, effective lv (e.t.seat i) b ofs)

/-- No cause of the form's own. -/
def noOwn (_ : List Acc) : Option Cause := none

/-! ### Loads (R126, R214, R215) -/

/-- A team's synchronisation operation at a scope ends: an acquire where asked for, and the region ends (R223, R233). A
fragment with no enabled lane synchronises nothing. -/
def syncEnd (s : State) (e : TEnv) (g : Guard) (acq : Bool) (sc : Scope) : State :=
  if (e.enabled g).isEmpty then s
  else ((if acq then s.acquire e.b.runsOn sc else s).endRegion e.agent)

/-- A load; acq is the scope of an acquire. -/
def loadOp (s : State) (e : TEnv) (g : Guard) (d b : VReg) (lv : Level) (sz : LdSz) (acq : Option Scope)
    (ofs : BitVec 21) : Out :=
  if (lv == .scratch || lv == .cluster) && 255 ≤ e.t.scratch then stall s e
  else
    let mk : MKind := if acq.isSome then .syncRead else .plainLoad
    teamAccess s e lv (ldBytes sz) .load mk (e.lanes g lv b ofs) noOwn fun s as =>
      let wide := match acq with
        | some sc => wideScope sc
        | none => false
      let r := readAll s e lv (ldBytes sz) wide [] as
      let words := loadWords e g (ldRegs sz) (r.2.map fun p => (p.1, ldWords sz p.2))
      let s := match acq with
        | some sc => syncEnd r.1 e g true sc
        | none => r.1
      if (e.enabled g).isEmpty then retire s e e.t
      else retire s e (deliver e lv e.t d.val (ldRegs sz) words as)

/-- LD, plain global. -/
def execLd (x : LdOp) (s : State) : Out :=
  issueTeam (.ld x) s fun e => loadOp s e x.g x.d x.b .global x.sz none x.ofs
/-- LD with a level or an ordering. -/
def execLdLevel (x : LdLvOp) (s : State) : Out :=
  issueTeam (.ldLevel x) s fun e => loadOp s e x.g x.d x.b x.lv x.sz x.acq x.ofs

/-! ### Stores -/

/-- A store; rel is the scope of a release (R126, R214, R232). -/
def storeOp (s : State) (e : TEnv) (g : Guard) (d b : VReg) (lv : Level) (sz : StSz) (rel : Option Scope)
    (ofs : BitVec 21) : Out :=
  let mk : MKind := if rel.isSome then .syncWrite else .plainStore
  teamAccess s e lv (stBytes sz) .store mk (e.lanes g lv b ofs) noOwn fun s as =>
    let wide := match rel with
      | some sc => wideScope sc
      | none => false
    let s := match rel with
      | some sc => if (e.enabled g).isEmpty then s else s.release e.b.runsOn e.agent sc
      | none => s
    let s := as.foldl (fun s a => writeAcc s e lv (stData (e.t.seat a.seat) sz d) wide a) s
    let s := match rel with
      | some sc => syncEnd s e g false sc
      | none => s
    retire s e e.t

/-- ST, plain global. -/
def execSt (x : StOp) (s : State) : Out :=
  issueTeam (.st x) s fun e => storeOp s e x.g x.d x.b .global x.sz none x.ofs
/-- ST with a level or an ordering. -/
def execStLevel (x : StLvOp) (s : State) : Out :=
  issueTeam (.stLevel x) s fun e => storeOp s e x.g x.d x.b x.lv x.sz x.rel x.ofs

/-! ### Atomics (R216 to R219) -/

/-- The level of an ATOM. -/
def atomLevel : AtomLevel → Level
  | .global => .global
  | .scratch => .scratch
  | .cluster => .cluster
  | .pantry => .pantry

/-- A scope as a number, in the order of R222. -/
def scopeRank : Scope → Nat
  | .team => 0
  | .core => 1
  | .clu => 2
  | .die => 3
  | .dev => 4
  | .sys => 5

/-- The widest scope of an atomic at a level (R217). -/
def levelCap : AtomLevel → Nat
  | .global => 5
  | .scratch => 1
  | .cluster => 2
  | .pantry => 3

/-- The scope check: a level's cap, and .sys for peer memory (R217, R478). -/
def atomOwn (lv : AtomLevel) (sc : Scope) (as : List Acc) : Option Cause :=
  if levelCap lv < scopeRank sc then some 0x63#8
  else if sc != .sys && as.any (fun a => match a.tr with
    | some t => isPeer t.pa
    | none => false) then some 0x63#8
  else none

/-- The function of an atomic on the bytes of its operand, for the values of one lane. -/
def atomFun (sel : AtomSel) (w64 : Bool) (x : Seat) (a : VReg) (old : List Byte) : List Byte :=
  let rd (r : VReg) : Nat := if w64 then (x.rd2 r.val).toNat else (x.rd r.val).toNat
  let o := leNat old
  leBytes (atomSize w64) (match sel with
    | .op f => atomNew f w64 o (rd a)
    | .cas c => if o = rd c then rd a else o)

/-- Perform an atomic in each lane, ascending, each on the value that the lane before left (R43). -/
def atomAll (s : State) (e : TEnv) (x : AtomOpnd) (wide : Bool) : List Acc → State × List (Nat × List Byte)
  | [] => (s, [])
  | a :: as =>
    let r := atomicAcc s e (atomLevel x.lv) (atomSize x.w64) wide (atomFun x.sel x.w64 (e.t.seat a.seat) x.a) a
    let q := atomAll r.1 e x wide as
    (q.1, (a.seat, r.2) :: q.2)

/-- ATOM. -/
def execAtom (x : AtomOpnd) (s : State) : Out :=
  issueTeam (.atom x) s fun e =>
    teamAccess s e (atomLevel x.lv) (atomSize x.w64) .atomic .syncWrite (e.lanes x.g (atomLevel x.lv) x.b 0)
      (atomOwn x.lv x.sc) fun s as =>
      let n := if x.w64 then 2 else 1
      let live := !(e.enabled x.g).isEmpty
      let s := if ordRel x.ord && live then s.release e.b.runsOn e.agent x.sc else s
      let r := atomAll s e x (wideScope x.sc) as
      let words := loadWords e x.g n (r.2.map fun p => (p.1, wordsOf n p.2))
      let s := r.1.watchAll x.sc (atomSize x.w64) as
      let s := if x.ord == .none then s else syncEnd s e x.g (ordAcq x.ord) x.sc
      if !live then retire s e e.t
      else retire s e (e.t.post ⟨x.d.val, n, words, false, e.sbSet, peersOf as⟩)

end Sys2Proof.Machine
end

