-- ==== Sys2Proof/Machine/Control.lean ====
section
/-!
DEFINITION. Machine/Control.lean: branches (R128 to R132), decisions (R169, R170), calls and exit (R171 to R173), system
registers and NOP (R133 to R136).
-/
namespace Sys2Proof.Machine

/-! ### Destinations (R130, R153) -/

/-- The target of a PC-relative branch (R128). -/
def relTarget (pc : DWord) (imm : BitVec 29) : DWord := pc + imm.signExtend 64 * 8

/-- The values of a list, each once, in order of first appearance. -/
def distinct (xs : List DWord) : List DWord := xs.foldl (fun a x => if a.contains x then a else a ++ [x]) []

/-- The fragment's active seats move to their destinations, one fragment for each (R130); a fragment with an empty mask
goes whole to the default. -/
def TEnv.scatter (e : TEnv) (t : Team) (dest : Nat → DWord) (dflt : DWord) : Team :=
  match e.active with
  | [] => t.arrive e.l e.fi [Frag.at dflt e.f.mask]
  | as =>
    let backward := as.any fun i => (dest i).toNat ≤ e.cur.pc.toNat
    let t := if backward then t.countBackward e.cur.pc else t
    t.arrive e.l e.fi ((distinct (as.map dest)).map fun d => Frag.at d (maskOf (as.filter fun i => dest i == d)))

/-- A branch of the enabled lanes to a target of their own (R130). -/
def branchOp (s : State) (e : TEnv) (t : Team) (g : Guard) (target : Seat → DWord) : Out :=
  let on := e.enabled g
  .next (s.putTeam e (e.scatter t (fun i => if on.contains i then target (e.t.seat i) else e.cur.fall) e.cur.fall))

/-- BRA. -/
def execBra (x : BraOp) (s : State) : Out :=
  issueTeam (.bra x) s fun e => branchOp s e e.t x.g fun _ => relTarget e.cur.pc x.imm
/-- BRX. -/
def execBrx (x : BrxOp) (s : State) : Out :=
  issueTeam (.brx x) s fun e => branchOp s e e.t x.g fun y => y.rd2 x.a.val
/-- CALL. -/
def execCall (x : CallOp) (s : State) : Out :=
  issueTeam (.call x) s fun e =>
    branchOp s e (e.each x.g fun y => y.wr2 x.d.val e.cur.fall) x.g fun _ => relTarget e.cur.pc x.imm
/-- RET. -/
def execRet (x : GuardReg) (s : State) : Out :=
  issueTeam (.ret x) s fun e => branchOp s e e.t x.g fun y => y.rd2 x.r.val

/-! ### The decision queue (R159 to R161, R169, R170) -/

/-- Free the entries that every team not exited has popped (R159). -/
def Block.freeDq (b : Block) : Block :=
  let ends := (b.teams.filter fun t => !t.exited).map Team.dqPos
  let upto := lowest (b.dqFreed + b.dq.length) ends
  { b with dq := b.dq.drop (upto - b.dqFreed), dqFreed := max b.dqFreed upto }

/-- Pop an entry: the value, or whether the pop traps; none while it has to wait. -/
def popDq (e : TEnv) : Option (Option DWord) :=
  if 1 < e.t.frags.length then none
  else
    match e.b.dq[e.t.dqPos - e.b.dqFreed]? with
    | some v => some (some v)
    | none => if e.b.foyer.sexit then some none else none

/-- Go on after a pop: the read position advances, freed entries go, and the region ends (R159, R223). -/
def afterPop (s : State) (e : TEnv) (t : Team) : Out :=
  let s := (s.putTeam e { t with dqPos := e.t.dqPos + 1 }).updBlock e.l.id e.b.id Block.freeDq
  .next (s.endRegion e.agent)

/-- DQPOP. -/
def execDqpop (d : VReg) (s : State) : Out :=
  issueTeam (.dqpop d) s fun e =>
    match popDq e with
    | none => stall s e
    | some none => trap s e 0x03#8
    | some (some v) =>
      afterPop s e (e.goto (e.t.mapSeats (fun i => e.active.contains i) fun y => y.wr2 d.val v) e.cur.fall)

/-- BRU. -/
def execBru (imm : BitVec 29) (s : State) : Out :=
  issueTeam (.bru imm) s fun e =>
    match popDq e with
    | none => stall s e
    | some none => trap s e 0x03#8
    | some (some v) =>
      let d := if v = 0 then e.cur.fall else relTarget e.cur.pc imm
      afterPop s e (e.scatter e.t (fun _ => d) d)

/-! ### Named barriers: completing a phase (R243, R245) -/

/-- A named barrier that nothing has reached reads 0. -/
def Bar.zero : Bar := ⟨0, 0, false, 0⟩

/-- A barrier of a set. -/
def barGet (bs : List (Nat × Bar)) (n : Nat) : Bar := match bs.find? fun p => p.1 == n with
  | some p => p.2
  | none => Bar.zero

/-- Replace a barrier of a set, numbers rising. -/
def barPut (bs : List (Nat × Bar)) (n : Nat) (b : Bar) : List (Nat × Bar) :=
  (bs.filter fun p => p.1 < n) ++ [(n, b)] ++ (bs.filter fun p => n < p.1)

/-- Complete the phase of an open barrier whose arrivals have reached what it expects; team numbers and whether each has
exited are given. A team that exited without arriving is not expected (R245). -/
def settleBar (teams : List (Nat × Bool)) (b : Bar) : Bar :=
  let want := if b.cnt != 0 then b.cnt.toNat else (teams.filter fun p => !p.2 || b.arr.getLsbD p.1).length
  if b.isOpen && popcount b.arr.toNat 32 == want then { b with arr := 0, isOpen := false, phase := b.phase + 1 } else b

/-- Numbers of a block's teams, and whether each has exited. -/
def Block.roll (b : Block) : List (Nat × Bool) :=
  (List.range b.teams.length).map fun i => (i, match b.teams[i]? with
    | some t => t.exited
    | none => true)

/-- Numbers of a group's teams, 8 i + %team; those of a completed block count as exited (R243, R245). -/
def Launch.roll (l : Launch) (g : Nat) : List (Nat × Bool) :=
  (List.range l.img.clg).flatMap fun i =>
    match l.block (g * l.img.clg + i) with
    | some b => b.roll.map fun p => (8 * i + p.1, p.2)
    | none => (List.range l.img.teams).map fun t => (8 * i + t, true)

/-- Mark the waits that a completed phase of a barrier ends. -/
def Team.passBar (clu : Bool) (n : Nat) (t : Team) : Team :=
  match t.bar with
  | some w => if w.clu == clu && w.bn == n then { t with bar := some { w with done := true } } else t
  | none => t

/-- Settle a block barrier. -/
def Block.settleBar (b : Block) (n : Nat) : Block :=
  let x := barGet b.bars n
  let y := Machine.settleBar b.roll x
  if y == x then b
  else { b with bars := barPut b.bars n y, teams := b.teams.map (Team.passBar false n) }

/-- Settle a cluster barrier of a group. -/
def Launch.settleBar (l : Launch) (g n : Nat) : Launch :=
  match l.groups.find? fun x => x.id == g with
  | none => l
  | some gr =>
    let x := barGet gr.bars n
    let y := Machine.settleBar (l.roll g) x
    if y == x then l
    else
      { l with
        groups := upd (fun z => z.id == g) (fun z => { z with bars := barPut z.bars n y }) l.groups
        blocks := l.blocks.map fun b =>
          if groupOf l b.id == g then { b with teams := b.teams.map (Team.passBar true n) } else b }

/-- Settle every barrier that a team's exit may complete (R245). -/
def Launch.settleAll (l : Launch) (b : Nat) : Launch :=
  let own (x : Block) : Block := x.bars.foldl (fun x p => x.settleBar p.1) x
  let l := { l with blocks := upd (fun x => x.id == b) own l.blocks }
  if l.img.clg = 0 then l
  else match l.groups.find? fun x => x.id == groupOf l b with
    | none => l
    | some g => g.bars.foldl (fun l p => l.settleBar g.id p.1) l

/-! ### EXIT (R173) -/

/-- A copy batch closes with the copies of the pending set (R256, R268). -/
def CopyCtx.close (c : CopyCtx) : CopyCtx :=
  { c with ops := c.ops.map fun o => if o.batch = 0 then { o with batch := c.nextBatch } else o
           nextBatch := c.nextBatch + 1 }

/-- Complete every batch that can be: it and every lower one have completed their copies. -/
def CopyCtx.settle (c : CopyCtx) : Nat → CopyCtx
  | 0 => c
  | n + 1 =>
    let b := c.timeline + 1
    let mine := c.ops.filter fun o => o.batch == b
    if b < c.nextBatch && mine.all fun o => o.done then
      let fl := mine.foldl (fun f o => f ||| o.flags) 0
      { c with ops := c.ops.filter (fun o => o.batch != b), timeline := b
               flags := if fl = 0 then c.flags else c.flags ++ [(b, fl)] : CopyCtx }.settle n
    else c

/-- Complete batches, as many as are closed. -/
def CopyCtx.advance (c : CopyCtx) : CopyCtx := c.settle (c.nextBatch - c.timeline)

/-- What an exited team leaves: its region ends, its entries count as popped, its barriers are settled, its pending set
closes as a batch, and its suspended operations are reported as launch errors (R159, R223, R245, R268, R328). -/
def State.teamExited (s : State) (l b t : Nat) : State :=
  let s := (s.endRegion (.team l b t)).updBlock l b Block.freeDq
  let s := s.updLaunch l fun x => x.settleAll b
  match s.team l b t with
  | none => s
  | some tm =>
    let n := tm.copy.nextBatch
    let s := s.updTeam l b t fun x => { x with copy := x.copy.close.advance }
    let s := tm.copy.ops.foldl (fun s o => match o.susp with
      | none => s
      | some w =>
        s.launchError l 1 w.cause (.copy l b t) b t w.inner 1 o.pos (if o.batch = 0 then n else o.batch) w.addr
          (.copyOp (if o.batch = 0 then n else o.batch) o.pos)) s
    tm.hearth.ops.foldl (fun s o => match o.susp with
      | none => s
      | some w => s.launchError l 1 w.cause (.hearth l b t) b t w.inner 2 o.passes o.num w.addr (.hearthOp o.num)) s

/-- Lanes exit: those listed, or every parked lane when none of the team would stay active under a REGROUP. -/
def Team.exitLanes (t : Team) (out : List Nat) (rest : Bool) : Team :=
  let t := t.mapSeats (fun i => out.contains i) fun y => { y with st := .exited }
  if rest then t else t.mapSeats (fun _ => true) fun y => if y.st == .parked then { y with st := .exited } else y

/-- EXIT. -/
def execExit (x : Guard) (s : State) : Out :=
  issueTeam (.exit x) s fun e =>
    let out := e.enabled x
    let stay := e.active.filter fun i => !out.contains i
    let gone := stay.isEmpty
    let others := 1 < e.t.frags.length
    let t := e.t.exitLanes out (!gone || others)
    let t := if gone then t.arrive e.l e.fi [] else t.arrive e.l e.fi [Frag.at e.cur.fall (maskOf stay)]
    -- a REGROUP in force ends with the team (R184)
    let t := if t.exited then { t with saved := none } else t
    let s := s.putTeam e t
    .next (if t.exited then s.teamExited e.l.id e.b.id e.ti else s)

/-! ### System registers and NOP (R133 to R136) -/

/-- Change the enabled seats with their numbers in hand. -/
def TEnv.eachIx (e : TEnv) (g : Guard) (f : Nat → Seat → Seat) : Team :=
  { e.t with seats := e.t.seats.mapIdx fun i y => if (e.enabled g).contains i then f i y else y }

/-- A 32-bit special register in a seat (R21). -/
def specialOf (s : State) (e : TEnv) (i : Nat) (y : Seat) : SpecReg → Nat
  | .lid => y.lane
  | .seat => i
  | .sweep => i / 32
  | .team => e.ti
  | .block => e.b.id
  | .launch => e.l.id
  | .core => e.b.place.core
  | .cluster => e.b.place.cluster
  | .die => e.b.place.die
  | .asf => e.t.asf.toNat
  | .ate => e.t.ate.toNat
  | .trapres => e.t.trapres.toNat
  | .occ k => s.occ e.b.runsOn k.val

/-- SRD. -/
def execSrd (x : SrdOp) (s : State) : Out :=
  issueTeam (.srd x) s fun e =>
    retire s e (e.eachIx x.g fun i y =>
      if x.r == .trapres then y.wr2 x.d.val e.t.trapres else y.wr x.d.val (BitVec.ofNat 32 (specialOf s e i y x.r)))

/-- SWR of %ate: the value of the highest enabled seat that is no helper; bits [31:7] are ignored. -/
def execSwr (x : GuardReg) (s : State) : Out :=
  issueTeam (.swr x) s fun e =>
    match (e.workers x.g).getLast? with
    | none => retire s e e.t
    | some i => retire s e { e.t with ate := (e.t.seat i).rd x.r.val &&& 0x7F }

/-- NOP. -/
def execNop (x : Guard) (s : State) : Out := issueTeam (.nop x) s fun e => retire s e e.t

end Sys2Proof.Machine
end

