-- ==== Sys2Proof/Machine/Sync.lean ====
section
/-!
DEFINITION. Machine/Sync.lean: FENCE (R242), named barriers (R243 to R245) and barrier objects (R246, R247).
-/
namespace Sys2Proof.Machine

/-! ### FENCE -/

/-- Whether ORD of a fence acquires. -/
def fenceAcq : FenceOrd → Bool
  | .rel => false
  | _ => true
/-- Whether ORD of a fence releases. -/
def fenceRel : FenceOrd → Bool
  | .acq => false
  | _ => true

/-- What a fence does to the L1 of an agent's core (R232, R233). -/
def State.fence (s : State) (u : Unit3) (a : AgentId) (x : FenceOp) : State :=
  let s := if fenceRel x.ord then s.release u a x.sc else s
  if fenceAcq x.ord then s.acquire u x.sc else s

/-- FENCE: an acquire waits until every earlier load has written its destination; meanwhile the team issues nothing (R241). -/
def execFence (x : FenceOp) (s : State) : Out :=
  issueTeam (.fence x) s fun e =>
    if fenceAcq x.ord && !e.t.pend.isEmpty then stallTeam s e
    else retire ((s.fence e.b.runsOn e.agent x).endRegion e.agent) e e.t

/-! ### Named barriers -/

/-- The scope of a named barrier (R245). -/
def barScope (clu : Bool) : Scope := if clu then .clu else .core

/-- The barrier that a team's word names, and the team's number there (R243). -/
def TEnv.barOf (e : TEnv) (clu : Bool) (n : Nat) : Bar × Nat :=
  if clu then
    (match e.l.groups.find? fun g => g.id == groupOf e.l e.b.id with
      | some g => barGet g.bars n
      | none => Bar.zero,
     8 * (e.b.id % e.l.img.clg) + e.ti)
  else (barGet e.b.bars n, e.ti)

/-- Write a barrier and settle it. -/
def State.putBar (s : State) (e : TEnv) (clu : Bool) (n : Nat) (b : Bar) : State :=
  s.updLaunch e.l.id fun l =>
    if clu then
      let g := groupOf l e.b.id
      ({ l with groups := upd (fun z => z.id == g) (fun z => { z with bars := barPut z.bars n b }) l.groups } : Launch).settleBar
        g n
    else
      let own (x : Block) : Block := ({ x with bars := barPut x.bars n b } : Block).settleBar n
      { l with blocks := upd (fun x => x.id == e.b.id) own l.blocks }

/-- A barrier before an arrival: a phase whose expectation an exit has lowered completes first. -/
def TEnv.barNow (e : TEnv) (clu : Bool) (n : Nat) : Bar :=
  settleBar (if clu then e.l.roll (groupOf e.l e.b.id) else e.b.roll) (e.barOf clu n).1

/-- The arrival on a barrier, and for BAR the wait (R245). -/
def barArrive (s : State) (e : TEnv) (x : BarOp) (wait : Bool) : Out :=
  let i := (e.barOf x.cl x.bn.val).2
  let b := e.barNow x.cl x.bn.val
  if b.arr.getLsbD i || (b.isOpen && b.cnt != BitVec.ofNat 6 x.cnt.val) then trap s e 0x62#8
  else
    let b := if b.isOpen then b else { b with isOpen := true, cnt := BitVec.ofNat 6 x.cnt.val }
    let b := { b with arr := b.arr ||| BitVec.twoPow 32 i }
    let s := (s.release e.b.runsOn e.agent (barScope x.cl)).endRegion e.agent
    let s := if wait then s.putTeam e { e.t with bar := some ⟨x.bn.val, x.cl, false⟩ } else s
    let s := s.putBar e x.cl x.bn.val b
    match s.teamEnv with
    | none => .next s
    | some e =>
      match e.t.bar with
      | some w =>
        if w.done then retire (s.acquire e.b.runsOn (barScope x.cl)) e { e.t with bar := none } else stall s e
      | none => retire s e e.t

/-- BAR: a team already waiting goes on once its phase has completed; it does not arrive again. -/
def execBar (x : BarOp) (s : State) : Out :=
  issueTeam (.bar x) s fun e =>
    if 1 < e.t.frags.length then stall s e
    else
      match e.t.bar with
      | some w =>
        if w.done then retire (s.acquire e.b.runsOn (barScope x.cl)) e { e.t with bar := none } else stall s e
      | none => barArrive s e x true

/-- BAR.ARV. -/
def execBarArv (x : BarOp) (s : State) : Out :=
  issueTeam (.barArv x) s fun e => if 1 < e.t.frags.length then stall s e else barArrive s e x false

/-! ### Barrier objects -/

/-- An arrival of count n on an object's 16 bytes: refused (over-arrival or EXPECT 0), or the bytes after it. -/
def objArrive (bs : List Byte) (n : Nat) : Option (List Byte) :=
  let expect := fieldAt bs 0 4
  let arrived := fieldAt bs 4 4
  let phase := fieldAt bs 8 4
  if expect = 0 || expect < arrived + n then none
  else if n = 0 then some bs
  else
    let full := arrived + n == expect
    some (leBytes 4 expect ++ leBytes 4 (if full then 0 else arrived + n)
      ++ leBytes 4 (if full then phase + 1 else phase) ++ bs.drop 12)

/-- BOARR. -/
def execBoarr (x : BoarrOp) (s : State) : Out :=
  issueTeam (.boarr x) s fun e =>
    elect s e x.g fun i =>
      let y := e.t.seat i
      teamAccess s e .global 16 .arrive .syncWrite [(i, y.rd2 x.b.val)] noOwn fun s as =>
        match as with
        | a :: _ =>
          match a.tr with
          | some t =>
            let n := match x.cnt with
              | some r => y.cnt r
              | none => 1
            let s' := s.release e.b.runsOn e.agent x.sc
            let old := (s'.globalAtomic e.l e.b.runsOn t 16 (wideScope x.sc) id).2
            match objArrive old n with
            | none => trap s e 0x62#8
            | some new =>
              let w := (s'.globalAtomic e.l e.b.runsOn t 16 (wideScope x.sc) fun _ => new).1
              let s := (s'.notePeer w e.agent a.va t.pa 16).watchAll x.sc 16 [a]
              let phase : Word := BitVec.ofNat 32 (fieldAt old 8 4)
              let words := loadWords e always 1 (e.active.map fun j => (j, [phase]))
              retire (s.endRegion e.agent) e (e.t.post ⟨x.d.val, 1, words, false, e.sbSet, peersOf [a]⟩)
          | none => retire s e e.t
        | [] => retire s e e.t

/-- BOWAIT: waits while PHASE equals p, its team issuing nothing (R241), then acquires. -/
def execBowait (x : BowaitOp) (s : State) : Out :=
  issueTeam (.bowait x) s fun e =>
    elect s e x.g fun i =>
      let y := e.t.seat i
      teamAccess s e .global 16 .load .syncRead [(i, y.rd2 x.b.val)] noOwn fun s as =>
        match as with
        | a :: _ =>
          match a.tr with
          | some t =>
            let r := s.globalRead e.l e.b.runsOn t 16 (wideScope x.sc)
            if fieldAt r.2 8 4 == y.cnt x.a then stallTeam r.1 e
            else retire ((r.1.acquire e.b.runsOn x.sc).endRegion e.agent) e e.t
          | none => retire s e e.t
        | [] => retire s e e.t

end Sys2Proof.Machine
end

