-- ==== Sys2Proof/Machine/Foyer.lean ====
section
/-!
DEFINITION. Machine/Foyer.lean: the Foyer forms (R185 to R191), in a kernel's Foyer stream and, where R374 permits them,
in a run of a prologue.
-/
namespace Sys2Proof.Machine

/-! ### A run of a prologue (R374) -/

/-- A prologue run that issues: the run, its packet and its queue. -/
structure PEnv where
  cur : Cur
  p : Prologue
  pk : Pkt
  q : Queue
  deriving DecidableEq, Repr

/-- The prologue run that State.cur names. -/
def State.prologueEnv (s : State) : Option PEnv :=
  match s.cur with
  | none => none
  | some c =>
    match c.agent with
    | .prologue k =>
      match s.prologues.find? (fun p => p.key == k), s.pkt k with
      | some p, some pk => match s.queue pk.queue with
        | some q => some ⟨c, p, pk, q⟩
        | none => none
      | _, _ => none
    | _ => none

/-- Whether State.cur names a prologue run. -/
def State.inPrologue (s : State) : Bool := match s.cur with
  | some c => match c.agent with
    | .prologue _ => true
    | _ => false
  | none => false

/-- Run a meaning on the prologue run that issues. -/
def withPrologue (s : State) (k : PEnv → Out) : Out :=
  match s.prologueEnv with
  | some e => k e
  | none => .fault .noAgent

/-- An s-register of a run: s0 to s15; s0 reads 0. -/
def Prologue.rd (p : Prologue) (r : SReg) : DWord := if r.val = 0 then 0 else p.s.getD r.val 0
/-- Write an s-register of a run. -/
def Prologue.wr (p : Prologue) (r : SReg) (v : DWord) : Prologue :=
  if r.val = 0 then p else { p with s := p.s.set r.val v }

/-- Change the run. -/
def State.putPrologue (s : State) (p : Prologue) : State :=
  { s with prologues := upd (fun x => x.key == p.key) (fun _ => p) s.prologues }

/-- The run ends with an outcome and the value of RES[63:32]; its region ends (R223, R374). -/
def endRun (s : State) (p : Prologue) (outcome value : Nat) : State :=
  (s.putPrologue { p with active := false, outcome := some (outcome, value) }).endRegion (.prologue p.key)

/-- A step of a run goes on at an address; the 4,096th ends the run with outcome 2. -/
def stepRun (s : State) (p : Prologue) (pc : DWord) : Out :=
  let p := { p with pc := pc, steps := p.steps + 1 }
  .next (if p.steps < 4096 then s.putPrologue p else endRun s p 2 0)

/-- The forms that a prologue may use (R374). -/
def permitted : Instr → Bool
  | .sadd _ | .ssub _ | .smul _ | .sand _ | .sor _ | .sxor _ | .sshl _ | .sshr _ | .ssar _ | .smov _ _ | .ssel _
  | .saddImm _ | .ssubImm _ | .smulImm _ | .sandImm _ | .sorImm _ | .sxorImm _ | .sshlImm _ | .sshrImm _ | .ssarImm _
  | .smovi _ _ | .saddLit _ | .ssubLit _ | .smulLit _ | .sandLit _ | .sorLit _ | .sxorLit _ | .sshlLit _ | .sshrLit _
  | .ssarLit _ | .smovl _ _ | .scmp _ | .scmpImm _ | .sld _ | .sst _ | .satom _ | .sbra _ | .sbz _ | .sbnz _ | .plaunch _
  | .pcancel _ | .prepeat _ => true
  | _ => false

/-- Issue a Foyer form in a prologue run: a form not permitted or a register above s15 ends it with outcome 3. -/
def issuePrologue (i : Instr) (s : State) (k : PEnv → Out) : Out :=
  withPrologue s fun e =>
    if permitted i && (sregs i).all fun r => r.val < 16 then k e else .next (endRun s e.p 3 0)

/-- Issue a Foyer form in whichever of the two streams the agent runs. -/
def issueScalar (i : Instr) (s : State) (kf : FEnv → Out) (kp : PEnv → Out) : Out :=
  if s.inPrologue then issuePrologue i s kp else issueFoyer i s kf

/-- A Foyer form that is not for a prologue. -/
def issueKernel (i : Instr) (s : State) (kf : FEnv → Out) : Out :=
  issueScalar i s kf fun e => .next (endRun s e.p 3 0)

/-! ### Arithmetic and moves (R185) -/

/-- A form that writes one s-register from others and never traps. -/
def scalarOp (i : Instr) (s : State) (d : SReg) (v : (SReg → DWord) → DWord) : Out :=
  issueScalar i s (fun e => retireFoyer s e (e.b.foyer.wr d (v e.b.foyer.rd)) e.cur.fall)
    fun e => stepRun s (e.p.wr d (v e.p.rd)) e.cur.fall

/-- a + b. -/
def sAdd (a b : DWord) : DWord := a + b
/-- a - b. -/
def sSub (a b : DWord) : DWord := a - b
/-- The low 64 bits of a * b. -/
def sMul (a b : DWord) : DWord := a * b
/-- a and b, bit by bit. -/
def sAnd (a b : DWord) : DWord := a &&& b
/-- a or b, bit by bit. -/
def sOr (a b : DWord) : DWord := a ||| b
/-- a exclusive-or b, bit by bit. -/
def sXor (a b : DWord) : DWord := a ^^^ b
/-- a shifted left; 0 from 64 places on. -/
def sShl (a b : DWord) : DWord := if b.toNat < 64 then a <<< b.toNat else 0
/-- a shifted right with zeros in. -/
def sShr (a b : DWord) : DWord := if b.toNat < 64 then a >>> b.toNat else 0
/-- a shifted right with copies of bit 63 in. -/
def sSar (a b : DWord) : DWord := a.sshiftRight (min b.toNat 64)

/-- SADD. -/
def execSadd (x : SclRR) (s : State) : Out := scalarOp (.sadd x) s x.d fun r => sAdd (r x.a) (r x.b)
/-- SADD with an immediate. -/
def execSaddImm (x : SclRI) (s : State) : Out :=
  scalarOp (.saddImm x) s x.d fun r => sAdd (r x.a) (x.imm.signExtend 64)
/-- SADD with a literal. -/
def execSaddLit (x : SclRL) (s : State) : Out := scalarOp (.saddLit x) s x.d fun r => sAdd (r x.a) x.lit
/-- SSUB. -/
def execSsub (x : SclRR) (s : State) : Out := scalarOp (.ssub x) s x.d fun r => sSub (r x.a) (r x.b)
/-- SSUB with an immediate. -/
def execSsubImm (x : SclRI) (s : State) : Out :=
  scalarOp (.ssubImm x) s x.d fun r => sSub (r x.a) (x.imm.signExtend 64)
/-- SSUB with a literal. -/
def execSsubLit (x : SclRL) (s : State) : Out := scalarOp (.ssubLit x) s x.d fun r => sSub (r x.a) x.lit
/-- SMUL. -/
def execSmul (x : SclRR) (s : State) : Out := scalarOp (.smul x) s x.d fun r => sMul (r x.a) (r x.b)
/-- SMUL with an immediate. -/
def execSmulImm (x : SclRI) (s : State) : Out :=
  scalarOp (.smulImm x) s x.d fun r => sMul (r x.a) (x.imm.signExtend 64)
/-- SMUL with a literal. -/
def execSmulLit (x : SclRL) (s : State) : Out := scalarOp (.smulLit x) s x.d fun r => sMul (r x.a) x.lit
/-- SAND. -/
def execSand (x : SclRR) (s : State) : Out := scalarOp (.sand x) s x.d fun r => sAnd (r x.a) (r x.b)
/-- SAND with an immediate. -/
def execSandImm (x : SclRI) (s : State) : Out :=
  scalarOp (.sandImm x) s x.d fun r => sAnd (r x.a) (x.imm.signExtend 64)
/-- SAND with a literal. -/
def execSandLit (x : SclRL) (s : State) : Out := scalarOp (.sandLit x) s x.d fun r => sAnd (r x.a) x.lit
/-- SOR. -/
def execSor (x : SclRR) (s : State) : Out := scalarOp (.sor x) s x.d fun r => sOr (r x.a) (r x.b)
/-- SOR with an immediate. -/
def execSorImm (x : SclRI) (s : State) : Out :=
  scalarOp (.sorImm x) s x.d fun r => sOr (r x.a) (x.imm.signExtend 64)
/-- SOR with a literal. -/
def execSorLit (x : SclRL) (s : State) : Out := scalarOp (.sorLit x) s x.d fun r => sOr (r x.a) x.lit
/-- SXOR. -/
def execSxor (x : SclRR) (s : State) : Out := scalarOp (.sxor x) s x.d fun r => sXor (r x.a) (r x.b)
/-- SXOR with an immediate. -/
def execSxorImm (x : SclRI) (s : State) : Out :=
  scalarOp (.sxorImm x) s x.d fun r => sXor (r x.a) (x.imm.signExtend 64)
/-- SXOR with a literal. -/
def execSxorLit (x : SclRL) (s : State) : Out := scalarOp (.sxorLit x) s x.d fun r => sXor (r x.a) x.lit
/-- SSHL. -/
def execSshl (x : SclRR) (s : State) : Out := scalarOp (.sshl x) s x.d fun r => sShl (r x.a) (r x.b)
/-- SSHL with an immediate. -/
def execSshlImm (x : SclRI) (s : State) : Out :=
  scalarOp (.sshlImm x) s x.d fun r => sShl (r x.a) (x.imm.signExtend 64)
/-- SSHL with a literal. -/
def execSshlLit (x : SclRL) (s : State) : Out := scalarOp (.sshlLit x) s x.d fun r => sShl (r x.a) x.lit
/-- SSHR. -/
def execSshr (x : SclRR) (s : State) : Out := scalarOp (.sshr x) s x.d fun r => sShr (r x.a) (r x.b)
/-- SSHR with an immediate. -/
def execSshrImm (x : SclRI) (s : State) : Out :=
  scalarOp (.sshrImm x) s x.d fun r => sShr (r x.a) (x.imm.signExtend 64)
/-- SSHR with a literal. -/
def execSshrLit (x : SclRL) (s : State) : Out := scalarOp (.sshrLit x) s x.d fun r => sShr (r x.a) x.lit
/-- SSAR. -/
def execSsar (x : SclRR) (s : State) : Out := scalarOp (.ssar x) s x.d fun r => sSar (r x.a) (r x.b)
/-- SSAR with an immediate. -/
def execSsarImm (x : SclRI) (s : State) : Out :=
  scalarOp (.ssarImm x) s x.d fun r => sSar (r x.a) (x.imm.signExtend 64)
/-- SSAR with a literal. -/
def execSsarLit (x : SclRL) (s : State) : Out := scalarOp (.ssarLit x) s x.d fun r => sSar (r x.a) x.lit
/-- SMOV. -/
def execSmov (d a : SReg) (s : State) : Out := scalarOp (.smov d a) s d fun r => r a
/-- SMOVI. -/
def execSmovi (d : SReg) (imm : BitVec 29) (s : State) : Out := scalarOp (.smovi d imm) s d fun _ => imm.signExtend 64
/-- SMOVL. -/
def execSmovl (d : SReg) (lit : DWord) (s : State) : Out := scalarOp (.smovl d lit) s d fun _ => lit
/-- SSEL. -/
def execSsel (x : SclSel) (s : State) : Out := scalarOp (.ssel x) s x.d fun r => if r x.c = 0 then r x.b else r x.a

/-! ### SCMP (R186) -/

/-- A relation on two 64-bit values, signed or unsigned. -/
def relates (c : Cmp) (sgn : Bool) (a b : DWord) : Bool :=
  let lt (a b : DWord) : Bool := if sgn then a.slt b else a.ult b
  match c with
  | .eq => a == b
  | .ne => a != b
  | .lt => lt a b
  | .le => !lt b a
  | .gt => lt b a
  | .ge => !lt a b

/-- SCMP of two registers. -/
def execScmp (x : ScmpRR) (s : State) : Out :=
  scalarOp (.scmp x) s x.d fun r => if relates x.cmp x.sgn (r x.a) (r x.b) then 1 else 0
/-- SCMP with an immediate. -/
def execScmpImm (x : ScmpRI) (s : State) : Out :=
  scalarOp (.scmpImm x) s x.d fun r => if relates x.cmp x.sgn (r x.a) (x.imm.signExtend 64) then 1 else 0

/-! ### Accesses of a prologue run: plain accesses of the queue, on the I/O die, with no L1 (R374) -/

/-- A checked access of a run; a failing one ends it with outcome 4 and the cause. -/
def prologueAccess (s : State) (e : PEnv) (va : DWord) (size : Nat) (kind : AKind) (mk : MKind) (own : Tr → Option Cause)
    (k : State → Tr → Out) : Out :=
  match s.check none e.q.asid va size kind with
  | .error x => .next (endRun (s.noteErr x) e.p 4 x.cause.toNat)
  | .ok t =>
    match own t with
    | some c => .next (endRun s e.p 4 c.toNat)
    | none =>
      let a : Acc := ⟨0, va, t.pa, some t⟩
      if (s.conflictIn (.prologue e.p.key) a size mk).isSome then .next (endRun s e.p 4 0x60)
      else
        match s.commitTr none e.q.asid va kind t with
        | none => .next s
        | some s => k ((s.markAcc (.prologue e.p.key) size mk a).purgeFor t) t

/-! ### SLD, SST (R187) -/

/-- Bytes of an SLD. -/
def sldBytes : SldSz → Nat
  | .i8 | .n8 => 1
  | .i16 | .n16 => 2
  | .n32 | .i32 => 4
  | .b64 => 8

/-- The value that an SLD writes. -/
def sldValue (sz : SldSz) (bs : List Byte) : DWord :=
  let n := leNat bs
  match sz with
  | .i8 => (BitVec.ofNat 8 n).signExtend 64
  | .i16 => (BitVec.ofNat 16 n).signExtend 64
  | .i32 => (BitVec.ofNat 32 n).signExtend 64
  | .n8 | .n16 | .n32 | .b64 => BitVec.ofNat 64 n

/-- Bytes of an SST. -/
def sstBytes : SstSz → Nat
  | .b8 => 1
  | .b16 => 2
  | .b32 => 4
  | .b64 => 8

/-- No cause of the form's own. -/
def noOwnS (_ : Tr) : Option Cause := none

/-- A load's value is pending in a Foyer context until RESULT_WRITE_BACK (R62, R167). -/
def Foyer.post (f : Foyer) (d : SReg) (v : DWord) (sb : Nat) (va : DWord) (t : Tr) : Foyer :=
  let ps := f.pend ++ [⟨d.val, v, sb, if isPeer t.pa then some (devOf t.pa, va) else none⟩]
  { f with pend := ps, sb := scoreboards (ps.map FPending.sb) }

/-- SLD. -/
def execSld (x : SldOp) (s : State) : Out :=
  issueScalar (.sld x) s
    (fun e => foyerAccess s e (e.b.foyer.rd x.b + x.ofs.signExtend 64) (sldBytes x.sz) .load .plainLoad noOwnS fun s t =>
      let r := s.globalRead e.l e.b.runsOn t (sldBytes x.sz) false
      retireFoyer r.1 e (e.b.foyer.post x.d (sldValue x.sz r.2) e.sbSet (e.b.foyer.rd x.b + x.ofs.signExtend 64) t)
        e.cur.fall)
    fun e => prologueAccess s e (e.p.rd x.b + x.ofs.signExtend 64) (sldBytes x.sz) .load .plainLoad noOwnS fun s t =>
      stepRun s (e.p.wr x.d (sldValue x.sz (s.mem.bytes t.pa (sldBytes x.sz)))) e.cur.fall

/-- SST. -/
def execSst (x : SstOp) (s : State) : Out :=
  issueScalar (.sst x) s
    (fun e => foyerAccess s e (e.b.foyer.rd x.b + x.ofs.signExtend 64) (sstBytes x.sz) .store .plainStore noOwnS fun s t =>
      let s' := s.globalWrite e.l e.b.runsOn t (leBytes (sstBytes x.sz) (e.b.foyer.rd x.d).toNat) false
      let va := e.b.foyer.rd x.b + x.ofs.signExtend 64
      retireFoyer (s.notePeer s' e.agent va t.pa (sstBytes x.sz)) e e.b.foyer e.cur.fall)
    fun e => prologueAccess s e (e.p.rd x.b + x.ofs.signExtend 64) (sstBytes x.sz) .store .plainStore noOwnS fun s t =>
      stepRun { s with mem := s.mem.put t.pa (leBytes (sstBytes x.sz) (e.p.rd x.d).toNat) } e.p e.cur.fall

/-! ### SATOM (R188) -/

/-- The scope check of an atomic on peer memory (R478). -/
def peerScope (sc : Scope) (t : Tr) : Option Cause := if sc != .sys && isPeer t.pa then some 0x63#8 else none

/-- The function of SATOM on the bytes of its operand. -/
def satomFun (x : SatomOp) (rd : SReg → DWord) (old : List Byte) : List Byte :=
  let n := atomSize x.w64
  let o := leNat old
  let v := (rd x.a).toNat % 2 ^ (8 * n)
  leBytes n (match x.sel with
    | .op f => atomNew f x.w64 o v
    | .cas c => if o = (rd c).toNat % 2 ^ (8 * n) then v else o)

/-- SG of a SATOM. -/
def satomSigned : SAtomSel → Bool
  | .op (.min sg) | .op (.max sg) => sg
  | _ => false

/-- What SATOM writes to its destination: the old value, sign-extended where SG is set. -/
def satomOld (x : SatomOp) (old : List Byte) : DWord :=
  if x.w64 then BitVec.ofNat 64 (leNat old)
  else if satomSigned x.sel then (BitVec.ofNat 32 (leNat old)).signExtend 64
  else BitVec.ofNat 64 (leNat old)

/-- SATOM. Its old value is pending until RESULT_WRITE_BACK, as that of a variable-latency result is (DESIGN CHOICE,
notes/assumptions/33: R167 names no class for SATOM). -/
def execSatom (x : SatomOp) (s : State) : Out :=
  let n := atomSize x.w64
  issueScalar (.satom x) s
    (fun e => foyerAccess s e (e.b.foyer.rd x.b) n .atomic .syncWrite (peerScope x.sc) fun s t =>
      let s := if ordRel x.ord then s.release e.b.runsOn e.agent x.sc else s
      let r := s.globalAtomic e.l e.b.runsOn t n (wideScope x.sc) (satomFun x e.b.foyer.rd)
      let w := s.notePeer r.1 e.agent (e.b.foyer.rd x.b) t.pa n
      let s := if devScope x.sc then w.watch t.pa n else w
      let s := if ordAcq x.ord then s.acquire e.b.runsOn x.sc else s
      let s := if x.ord == .none then s else s.endRegion e.agent
      retireFoyer s e (e.b.foyer.post x.d (satomOld x r.2) e.sbSet (e.b.foyer.rd x.b) t) e.cur.fall)
    fun e => prologueAccess s e (e.p.rd x.b) n .atomic .syncWrite (peerScope x.sc) fun s t =>
      let old := s.mem.bytes t.pa n
      let s : State := { s with mem := s.mem.put t.pa (satomFun x e.p.rd old) }
      stepRun (if devScope x.sc then s.watch t.pa n else s) (e.p.wr x.d (satomOld x old)) e.cur.fall

/-! ### Control (R190) and the rest -/

/-- A branch of a Foyer form: taken or not. -/
def scalarBranch (i : Instr) (s : State) (imm : BitVec 29) (taken : (SReg → DWord) → Bool) : Out :=
  issueScalar i s
    (fun e => retireFoyer s e e.b.foyer (if taken e.b.foyer.rd then relTarget e.cur.pc imm else e.cur.fall))
    fun e => stepRun s e.p (if taken e.p.rd then relTarget e.cur.pc imm else e.cur.fall)

/-- The portable address that an address stands for: in a translation that of the last safe point at or below it (R69). -/
def Launch.portable (l : Launch) (pc : DWord) : DWord :=
  match l.region pc.toNat with
  | some r =>
    if r.native then
      ((l.xlats.flatMap Xlat.points).foldl (fun (a : Nat × DWord) p =>
        if p.2.toNat ≤ pc.toNat && a.1 ≤ p.2.toNat && r.start ≤ p.2.toNat then (p.2.toNat, p.1) else a) (r.start, pc)).2
    else pc
  | none => pc

/-- The restart point of the region that holds an address: the last one at or below it, of a list (R90, R367). -/
def restartOf (starts : List DWord) (pc : DWord) : DWord :=
  (starts.foldl (fun (a : Option DWord) x =>
    if x.toNat ≤ pc.toNat then (match a with
      | some y => if y.toNat ≤ x.toNat then some x else a
      | none => some x) else a) none).getD pc

/-- The Foyer's solve end (R454): a pending repeat, else a pending exit, is taken with an acquire at .clu; an active
region or one that has ended by a trap makes the context wait. -/
def solveEndFoyer (s : State) (e : FEnv) : Out :=
  let v := e.b.solve
  let take (f : Solve → Solve) : State := (s.acquire e.b.runsOn .clu).updBlock e.l.id e.b.id fun b => { b with solve := f b.solve }
  if v.repeats != 0 then
    retireFoyer (take fun x => { x with repeats := x.repeats - 1 }) e e.b.foyer
      (restartOf (e.l.img.stab.map Prod.fst) (e.l.portable e.cur.pc))
  else if v.exits != 0 then
    retireFoyer (take fun x => { x with exits := x.exits - 1 }) e e.b.foyer e.cur.fall
  else if v.state == 1 || v.state == 3 then stallFoyer s e
  else retireFoyer s e e.b.foyer e.cur.pc

/-- SBRA; with IMM 0 in a kernel it is the Foyer's solve end. -/
def execSbra (imm : BitVec 29) (s : State) : Out :=
  issueScalar (.sbra imm) s
    (fun e => if imm = 0 then solveEndFoyer s e else retireFoyer s e e.b.foyer (relTarget e.cur.pc imm))
    fun e => stepRun s e.p (relTarget e.cur.pc imm)
/-- SBZ. -/
def execSbz (x : SbrOp) (s : State) : Out := scalarBranch (.sbz x) s x.imm fun r => r x.a == 0
/-- SBNZ. -/
def execSbnz (x : SbrOp) (s : State) : Out := scalarBranch (.sbnz x) s x.imm fun r => r x.a != 0
/-- SCALL. -/
def execScall (x : ScallOp) (s : State) : Out :=
  issueKernel (.scall x) s fun e => retireFoyer s e (e.b.foyer.wr x.d e.cur.fall) (relTarget e.cur.pc x.imm)
/-- SRET. -/
def execSret (a : SReg) (s : State) : Out :=
  issueKernel (.sret a) s fun e => retireFoyer s e e.b.foyer (e.b.foyer.rd a)
/-- SEXIT: the context ends (R157); its region stays open until its block completes, for SEXIT closes none (R223). -/
def execSexit (s : State) : Out :=
  issueKernel .sexit s fun e =>
    retireFoyer s e { e.b.foyer with sexit := true } e.cur.fall
/-- SFENCE (R189): the effect of FENCE with the Foyer context as the agent. -/
def execSfence (x : FenceOp) (s : State) : Out :=
  issueKernel (.sfence x) s fun e =>
    if fenceAcq x.ord && !e.b.foyer.pend.isEmpty then stallFoyer s e
    else retireFoyer ((s.fence e.b.runsOn e.agent x).endRegion e.agent) e e.b.foyer e.cur.fall
/-- DQPUSH (R159, R161, R191): waits while 64 entries are held. -/
def execDqpush (a : SReg) (s : State) : Out :=
  issueKernel (.dqpush a) s fun e =>
    if 64 ≤ e.b.dq.length then stallFoyer s e
    else
      let s := (s.endRegion e.agent).updBlock e.l.id e.b.id fun b =>
        ({ b with dq := b.dq ++ [e.b.foyer.rd a] } : Block).freeDq
      retireFoyer s e e.b.foyer e.cur.fall

end Sys2Proof.Machine
end

