-- ==== Sys2Proof/Machine/Flags.lean ====
section
/-!
DEFINITION. Machine/Flags.lean: floating-point values (R30 to R33), rounding once with the flags that it raises (R34 to
R39), the arithmetic of R113 to R117, and the conversions of R122, each answering a bit pattern and the flags.
A value is exact: a sign, a magnitude and a power of two.
-/
namespace Sys2Proof.Machine

/-! ### Formats and values (R30, R31) -/

/-- A binary format: exponent and fraction widths. -/
structure FFmt where
  e : Nat
  p : Nat
  deriving DecidableEq, Repr

/-- FP32. -/
def fmtF32 : FFmt := ⟨8, 23⟩
/-- FP16. -/
def fmtF16 : FFmt := ⟨5, 10⟩
/-- BF16. -/
def fmtBf16 : FFmt := ⟨8, 7⟩
/-- FP64. -/
def fmtF64 : FFmt := ⟨11, 52⟩

/-- The format of FT (R112). -/
def fmtOf : FTy → FFmt
  | .f32 => fmtF32
  | .f16 => fmtF16
  | .bf16 => fmtBf16

/-- Bits of a format. -/
def FFmt.width (f : FFmt) : Nat := 1 + f.e + f.p
/-- The exponent bias. -/
def FFmt.bias (f : FFmt) : Nat := 2 ^ (f.e - 1) - 1
/-- The exponent of the last place of subnormals. -/
def FFmt.qmin (f : FFmt) : Int := 1 - f.bias - f.p
/-- The exponent of the last place of the largest finite value. -/
def FFmt.qmax (f : FFmt) : Int := (2 ^ f.e : Nat) - 2 - f.bias - f.p

/-- A decoded value: a NaN (signalling or quiet), an infinity, or (-1)^s m 2^e. -/
inductive FVal where
  | nan (sig : Bool)
  | inf (s : Bool)
  | fin (s : Bool) (m : Nat) (e : Int)
  deriving DecidableEq, Repr

/-- Decode a bit pattern (R31). -/
def FFmt.unpack (f : FFmt) (b : Nat) : FVal :=
  let s := b.testBit (f.e + f.p)
  let ex := b / 2 ^ f.p % 2 ^ f.e
  let fr := b % 2 ^ f.p
  if ex = 2 ^ f.e - 1 then (if fr = 0 then .inf s else .nan (!fr.testBit (f.p - 1)))
  else if ex = 0 then .fin s fr f.qmin
  else .fin s (2 ^ f.p + fr) (f.qmin + (ex - 1 : Nat))

/-- Whether a value is a signalling NaN. -/
def FVal.isSig : FVal → Bool
  | .nan g => g
  | _ => false
/-- Whether a value is a NaN. -/
def FVal.isNan : FVal → Bool
  | .nan _ => true
  | _ => false
/-- The sign of a value that is not a NaN. -/
def FVal.sign : FVal → Bool
  | .nan _ => false
  | .inf s => s
  | .fin s _ _ => s
/-- Negate. -/
def FVal.neg : FVal → FVal
  | .nan g => .nan g
  | .inf s => .inf (!s)
  | .fin s m e => .fin (!s) m e

/-- Read an operand; with .ftz a subnormal reads as zero of its sign (R37). -/
def FFmt.read (f : FFmt) (ftz : Bool) (b : Nat) : FVal :=
  match f.unpack b with
  | .fin s m e => if ftz && m < 2 ^ f.p then .fin s 0 e else .fin s m e
  | v => v

/-- The sign bit in its place. -/
def FFmt.signBit (f : FFmt) (s : Bool) : Nat := if s then 2 ^ (f.e + f.p) else 0
/-- Zero of a sign. -/
def FFmt.zero (f : FFmt) (s : Bool) : Nat := f.signBit s
/-- Infinity of a sign (R32). -/
def FFmt.infinity (f : FFmt) (s : Bool) : Nat := f.signBit s + (2 ^ f.e - 1) * 2 ^ f.p
/-- The largest finite value of a sign (R32). -/
def FFmt.largest (f : FFmt) (s : Bool) : Nat := f.signBit s + (2 ^ f.e - 1) * 2 ^ f.p - 1
/-- The canonical NaN (R32). -/
def FFmt.cnan (f : FFmt) : Nat := (2 ^ f.e - 1) * 2 ^ f.p + 2 ^ (f.p - 1)

/-! ### Flags (R22, R39) -/

/-- IV. -/
def flIV : BitVec 7 := 1
/-- DZ. -/
def flDZ : BitVec 7 := 2
/-- OF and NX. -/
def flOFNX : BitVec 7 := 4 + 16
/-- UF and NX. -/
def flUFNX : BitVec 7 := 8 + 16
/-- NX. -/
def flNX : BitVec 7 := 16

/-- A result: a bit pattern and the flags raised with it. -/
abbrev FRes := Nat × BitVec 7

/-! ### Rounding (R34 to R37) -/

/-- Round (m + d) 2^e, with 0 < d < 1 when sticky and d = 0 else, to a multiple n 2^q: n, and whether it is inexact.
Where sticky holds, q is above e. -/
def quantize (rm : Rnd) (s : Bool) (m : Nat) (e : Int) (sticky : Bool) (q : Int) : Nat × Bool :=
  if q ≤ e then (m * 2 ^ (e - q).toNat, sticky)
  else
    let d := (q - e).toNat
    let n := m / 2 ^ d
    let r := m % 2 ^ d
    let half := 2 ^ (d - 1)
    let inexact := r != 0 || sticky
    let up := match rm with
      | .rn => half < r || (r == half && (sticky || n % 2 == 1))
      | .rz => false
      | .rd => s && inexact
      | .ru => !s && inexact
    (if up then n + 1 else n, inexact)

/-- The result of an overflow (R35). -/
def FFmt.overflow (f : FFmt) (rm : Rnd) (s : Bool) : Nat :=
  match rm with
  | .rn => f.infinity s
  | .rz => f.largest s
  | .rd => if s then f.infinity s else f.largest s
  | .ru => if s then f.largest s else f.infinity s

/-- Round a nonzero value (m + d) 2^e of a sign once (R34, R35, R37). -/
def FFmt.round (f : FFmt) (rm : Rnd) (ftz : Bool) (s : Bool) (m : Nat) (e : Int) (sticky : Bool) : FRes :=
  let q := e + (bitLength m : Int) - (f.p + 1 : Nat)
  let r := quantize rm s m e sticky q
  let carry := r.1 == 2 ^ (f.p + 1)
  let n := if carry then 2 ^ f.p else r.1
  let q := if carry then q + 1 else q
  if f.qmax < q then (f.overflow rm s, flOFNX)
  else if q < f.qmin then
    if ftz then (f.zero s, flUFNX)
    else
      let t := quantize rm s m e sticky f.qmin
      (f.signBit s + t.1, if t.2 then flUFNX else 0)
  else (f.signBit s + ((q - f.qmin).toNat + 1) * 2 ^ f.p + (n - 2 ^ f.p), if r.2 then flNX else 0)

/-- Round an exact value of a sign; zero keeps the sign. -/
def FFmt.roundFin (f : FFmt) (rm : Rnd) (ftz : Bool) (s : Bool) (m : Nat) (e : Int) : FRes :=
  if m = 0 then (f.zero s, 0) else f.round rm ftz s m e false

/-- A NaN result: canonical, with IV where the operation or an operand asks for it (R33, R39). -/
def FFmt.nanRes (f : FFmt) (iv : Bool) : FRes := (f.cnan, if iv then flIV else 0)

/-! ### Arithmetic (R36, R113) -/

/-- The exact sum of two finite values, with the sign of an exact zero (R36): sign, magnitude, exponent. -/
def addFin (rm : Rnd) (s1 : Bool) (m1 : Nat) (e1 : Int) (s2 : Bool) (m2 : Nat) (e2 : Int) : Bool × Nat × Int :=
  let e := if m1 = 0 then e2 else if m2 = 0 then e1 else min e1 e2
  let v1 : Int := m1 * 2 ^ (e1 - e).toNat
  let v2 : Int := m2 * 2 ^ (e2 - e).toNat
  let v := (if s1 then -v1 else v1) + (if s2 then -v2 else v2)
  if v = 0 then (if m1 = 0 && m2 = 0 && s1 == s2 then s1 else rm == .rd, 0, e)
  else (v < 0, v.natAbs, e)

/-- Addition of two values. -/
def FFmt.addV (f : FFmt) (rm : Rnd) (ftz : Bool) (a b : FVal) : FRes :=
  match a, b with
  | .nan g, .nan h => f.nanRes (g || h)
  | .nan g, _ => f.nanRes g
  | _, .nan g => f.nanRes g
  | .inf s, .inf t => if s == t then (f.infinity s, 0) else f.nanRes true
  | .inf s, .fin _ _ _ => (f.infinity s, 0)
  | .fin _ _ _, .inf s => (f.infinity s, 0)
  | .fin s1 m1 e1, .fin s2 m2 e2 =>
    let r := addFin rm s1 m1 e1 s2 m2 e2
    f.roundFin rm ftz r.1 r.2.1 r.2.2

/-- FADD. -/
def FFmt.add (f : FFmt) (rm : Rnd) (ftz : Bool) (a b : Nat) : FRes := f.addV rm ftz (f.read ftz a) (f.read ftz b)
/-- FSUB. -/
def FFmt.sub (f : FFmt) (rm : Rnd) (ftz : Bool) (a b : Nat) : FRes := f.addV rm ftz (f.read ftz a) (f.read ftz b).neg

/-- FMUL. -/
def FFmt.mul (f : FFmt) (rm : Rnd) (ftz : Bool) (a b : Nat) : FRes :=
  match f.read ftz a, f.read ftz b with
  | .nan g, .nan h => f.nanRes (g || h)
  | .nan g, _ => f.nanRes g
  | _, .nan g => f.nanRes g
  | .inf s, .inf t => (f.infinity (s != t), 0)
  | .inf s, .fin t m _ => if m = 0 then f.nanRes true else (f.infinity (s != t), 0)
  | .fin s m _, .inf t => if m = 0 then f.nanRes true else (f.infinity (s != t), 0)
  | .fin s m e, .fin t n d => f.roundFin rm ftz (s != t) (m * n) (e + d)

/-- The exact product for FFMA: none where it is 0 times infinity or an operand is a NaN. -/
def mulV (a b : FVal) : Option FVal :=
  match a, b with
  | .nan _, _ => none
  | _, .nan _ => none
  | .inf s, .inf t => some (.inf (s != t))
  | .inf s, .fin t m _ => if m = 0 then none else some (.inf (s != t))
  | .fin s m _, .inf t => if m = 0 then none else some (.inf (s != t))
  | .fin s m e, .fin t n d => some (.fin (s != t) (m * n) (e + d))

/-- FFMA: IV for 0 times infinity even when c is a NaN (R113). -/
def FFmt.fma (f : FFmt) (rm : Rnd) (ftz : Bool) (a b c : Nat) : FRes :=
  let va := f.read ftz a
  let vb := f.read ftz b
  let vc := f.read ftz c
  match mulV va vb with
  | none => f.nanRes ((!va.isNan && !vb.isNan) || va.isSig || vb.isSig || vc.isSig)
  | some v => f.addV rm ftz v vc

/-- The quotient of two nonzero finite values, with enough bits and a sticky flag. -/
def divFin (p m1 m2 : Nat) : Nat × Int × Bool :=
  let sh := p + 4 + bitLength m2
  (m1 * 2 ^ sh / m2, -(sh : Int), m1 * 2 ^ sh % m2 != 0)

/-- Division of two values. -/
def FFmt.divV (f : FFmt) (rm : Rnd) (ftz : Bool) (a b : FVal) : FRes :=
  match a, b with
  | .nan g, .nan h => f.nanRes (g || h)
  | .nan g, _ => f.nanRes g
  | _, .nan g => f.nanRes g
  | .inf _, .inf _ => f.nanRes true
  | .inf s, .fin t _ _ => (f.infinity (s != t), 0)
  | .fin s _ _, .inf t => (f.zero (s != t), 0)
  | .fin s m e, .fin t n d =>
    if n = 0 then (if m = 0 then f.nanRes true else (f.infinity (s != t), flDZ))
    else if m = 0 then (f.zero (s != t), 0)
    else
      let r := divFin f.p m n
      f.round rm ftz (s != t) r.1 (e - d + r.2.1) r.2.2

/-- FDIV. -/
def FFmt.div (f : FFmt) (rm : Rnd) (ftz : Bool) (a b : Nat) : FRes := f.divV rm ftz (f.read ftz a) (f.read ftz b)

/-- The integer square root, bit by bit. -/
def isqrt (n : Nat) : Nat :=
  (List.range (bitLength n / 2 + 1)).reverse.foldl (fun r i => if (r + 2 ^ i) * (r + 2 ^ i) ≤ n then r + 2 ^ i else r) 0

/-- FSQRT. -/
def FFmt.sqrt (f : FFmt) (rm : Rnd) (ftz : Bool) (a : Nat) : FRes :=
  match f.read ftz a with
  | .nan g => f.nanRes g
  | .inf s => if s then f.nanRes true else (f.infinity false, 0)
  | .fin s m e =>
    if m = 0 then (f.zero s, 0)
    else if s then f.nanRes true
    else
      let odd : Nat := (e.emod 2).toNat
      let n := m * 2 ^ (odd + 2 * (f.p + 5))
      let r := isqrt n
      f.round rm ftz false r ((e - odd) / 2 - (f.p + 5 : Nat)) (r * r != n)

/-! ### FRCP, FRSQ, FEXP2, FLOG2 (R114) -/

/-- FRCP. -/
def FFmt.rcp (f : FFmt) (rm : Rnd) (ftz : Bool) (a : Nat) : FRes := f.divV rm ftz (.fin false 1 0) (f.read ftz a)

/-- FRSQ. -/
def FFmt.rsq (f : FFmt) (rm : Rnd) (ftz : Bool) (a : Nat) : FRes :=
  match f.read ftz a with
  | .nan g => f.nanRes g
  | .inf s => if s then f.nanRes true else (f.zero false, 0)
  | .fin s m e =>
    if m = 0 then (f.infinity s, flDZ)
    else if s then f.nanRes true
    else
      let odd : Nat := (e.emod 2).toNat
      let m := m * 2 ^ odd
      let k := f.p + 5 + bitLength m
      let r := isqrt (2 ^ (2 * k) / m)
      f.round rm ftz false r (-((e - odd) / 2) - (k : Nat)) (r * r * m != 2 ^ (2 * k))

/-- Bits of working precision of FEXP2 and FLOG2. -/
def workBits : Nat := 200
/-- Bits dropped from an enclosure before it is rounded. -/
def dropBits : Nat := 80

/-- The bits of 2^f below 2^n, f = fr / 2^k in (0, 1), exactly: the largest r with r^(2^k) at most 2^(fr + n 2^k). -/
def exp2Exact (k fr n : Nat) : Nat := rootBelow (2 ^ k) (2 ^ (fr + n * 2 ^ k)) (n + 1) 0

/-- An enclosure of 2^f in units of 2^-workBits, for f given by its binary digits, first place first; root is 2^(2^-j)
from below for the digit in hand. -/
def exp2Frac : List Bool → Nat → Nat × Nat → Nat × Nat
  | [], _, acc => acc
  | d :: ds, root, acc =>
    let r := isqrt (root * 2 ^ workBits)
    exp2Frac ds r
      (if d then (acc.1 * r / 2 ^ workBits, acc.2 * (r + 4) / 2 ^ workBits + 1) else acc)

/-- FEXP2. -/
def FFmt.exp2 (f : FFmt) (rm : Rnd) (ftz : Bool) (a : Nat) : FRes :=
  match f.read ftz a with
  | .nan g => f.nanRes g
  | .inf s => if s then (f.zero false, 0) else (f.infinity false, 0)
  | .fin s m e =>
    if m = 0 then f.round rm ftz false 1 0 false
    else
      let big : Bool := 13 < e + (bitLength m : Int)
      if big then f.round rm ftz false 1 (if s then -5000 else 5000) false
      else if 0 ≤ e then
        let n : Int := m * 2 ^ e.toNat
        f.round rm ftz false 1 (if s then -n else n) false
      else
        let k := (-e).toNat
        if e + (bitLength m : Int) < -30 then
          (if s then f.round rm ftz false (2 ^ (f.p + 7) - 1) (-(f.p + 7 : Nat)) true
           else f.round rm ftz false (2 ^ (f.p + 7)) (-(f.p + 7 : Nat)) true)
        else
          let v : Int := if s then -(m : Int) else m
          let i := v.fdiv (2 ^ k)
          let fr := (v - i * 2 ^ k).toNat
          if fr = 0 then f.round rm ftz false 1 i false
          else
            let r := exp2Frac ((List.range k).map fun j => fr.testBit (k - 1 - j)) (2 * 2 ^ workBits)
              (2 ^ workBits, 2 ^ workBits)
            let g := 2 ^ dropBits
            -- the enclosure decides the bits that are kept, else the exact root does
            if r.1 / g == r.2 / g then f.round rm ftz false (r.1 / g) (i - workBits + dropBits) true
            else f.round rm ftz false (exp2Exact k fr (f.p + 8)) (i - (f.p + 8 : Nat)) true

/-- Binary digits of log2 y by repeated squaring, y between lo and hi in units of 2^-workBits and in [1, 2): the digits
so far, and whether every digit was certain. -/
def log2Digits : Nat → Nat × Nat → Nat → Nat × Bool
  | 0, _, acc => (acc, true)
  | n + 1, y, acc =>
    let lo := y.1 * y.1 / 2 ^ workBits
    let hi := y.2 * y.2 / 2 ^ workBits + 1
    if 2 * 2 ^ workBits ≤ lo then log2Digits n (lo / 2, hi / 2 + 1) (2 * acc + 1)
    else if hi < 2 * 2 ^ workBits then log2Digits n (lo, hi) (2 * acc)
    else (acc, false)

/-- Digits of log2 that are computed. -/
def logDigits : Nat := 110

/-- The first n binary digits of log2 (m / 2^l), m / 2^l in (1, 2), exactly: the largest t with 2^t at most (m / 2^l)^(2^n). -/
def log2Exact (m l n : Nat) : Nat := Nat.log2 (m ^ 2 ^ n) - l * 2 ^ n

/-- FLOG2. -/
def FFmt.log2 (f : FFmt) (rm : Rnd) (ftz : Bool) (a : Nat) : FRes :=
  match f.read ftz a with
  | .nan g => f.nanRes g
  | .inf s => if s then f.nanRes true else (f.infinity false, 0)
  | .fin s m e =>
    if m = 0 then (f.infinity true, flDZ)
    else if s then f.nanRes true
    else
      let l := bitLength m - 1
      let ex : Int := e + l
      if m = 2 ^ l then f.roundFin rm ftz (ex < 0) ex.natAbs 0
      else
        let y := m * 2 ^ (workBits - l)
        let r := log2Digits logDigits (y, y) 0
        -- where an interval meets a boundary of digits, the exact power decides
        let t : Int := ex * 2 ^ logDigits + (if r.2 then r.1 else log2Exact m l logDigits)
        if t < 0 then f.round rm ftz true (-t - 1).toNat (-(logDigits : Int)) true
        else f.round rm ftz false t.toNat (-(logDigits : Int)) true

/-! ### Minimum, maximum, sign and class (R115, R116) -/

/-- The order of two values that are not NaNs, with -0 below +0 when zs holds: whether a is below b. -/
def FVal.less (zs : Bool) (a b : FVal) : Bool :=
  match a, b with
  | .inf s, .inf t => s && !t
  | .inf s, _ => s
  | _, .inf t => !t
  | .fin s m e, .fin t n d =>
    if m = 0 && n = 0 then zs && s && !t
    else
      let q := min e d
      let x : Int := m * 2 ^ (e - q).toNat
      let y : Int := n * 2 ^ (d - q).toNat
      decide ((if s then -x else x) < (if t then -y else y))
  | _, _ => false

/-- FMIN and FMAX; max chooses the greater. -/
def FFmt.minmax (f : FFmt) (max : Bool) (a b : Nat) : FRes :=
  let va := f.unpack a
  let vb := f.unpack b
  let fl := if va.isSig || vb.isSig then flIV else 0
  if va.isNan && vb.isNan then (f.cnan, fl)
  else if va.isNan then (b, fl)
  else if vb.isNan then (a, fl)
  else if max then (if FVal.less true va vb then b else a, fl)
  else (if FVal.less true vb va then b else a, fl)

/-- FABS. -/
def FFmt.abs (f : FFmt) (a : Nat) : Nat := a % 2 ^ (f.e + f.p)
/-- FNEG. -/
def FFmt.negate (f : FFmt) (a : Nat) : Nat := f.abs a + f.signBit (!a.testBit (f.e + f.p))
/-- FSGN. -/
def FFmt.copySign (f : FFmt) (a b : Nat) : Nat := f.abs a + f.signBit (b.testBit (f.e + f.p))

/-- FCLASS. -/
def FFmt.classOf (f : FFmt) (a : Nat) : Nat :=
  match f.unpack a with
  | .nan g => if g then 1 else 2
  | .inf s => if s then 4 else 2 ^ 9
  | .fin s m _ =>
    if m = 0 then (if s then 2 ^ 5 else 2 ^ 6)
    else if m < 2 ^ f.p then (if s then 2 ^ 4 else 2 ^ 7)
    else (if s then 2 ^ 3 else 2 ^ 8)

/-! ### Comparison (R117) -/

/-- The relation of FSETP on two values: its truth, and whether a quiet NaN sets IV. -/
def FFmt.compare (f : FFmt) (c : FCmp) (a b : Nat) : Bool × BitVec 7 :=
  let va := f.unpack a
  let vb := f.unpack b
  let un := va.isNan || vb.isNan
  let lt := FVal.less false va vb
  let gt := FVal.less false vb va
  let eq := !lt && !gt
  let sig := va.isSig || vb.isSig
  let quiet := match c with
    | .lt | .le | .gt | .ge => un
    | _ => false
  let r := match c with
    | .eq => !un && eq
    | .ne => !un && !eq
    | .lt => !un && lt
    | .le => !un && (lt || eq)
    | .gt => !un && gt
    | .ge => !un && (gt || eq)
    | .equ => un || eq
    | .neu => un || !eq
    | .ltu => un || lt
    | .leu => un || lt || eq
    | .gtu => un || gt
    | .geu => un || gt || eq
    | .num => !un
    | .nan => un
  (r, if sig || quiet then flIV else 0)

/-! ### Conversions (R38, R122) -/

/-- Round a value to an integer: the integer and whether it is inexact. -/
def roundInt (rm : Rnd) (s : Bool) (m : Nat) (e : Int) : Int × Bool :=
  let r := quantize rm s m e false 0
  (if s then -(r.1 : Int) else r.1, r.2)

/-- A floating-point value to an integer range (R38). -/
def toInt (rm : Rnd) (lo hi : Int) (v : FVal) : Int × BitVec 7 :=
  match v with
  | .nan _ => (0, flIV)
  | .inf s => (if s then lo else hi, flIV)
  | .fin s m e =>
    let r := roundInt rm s m e
    if r.1 < lo then (lo, flIV)
    else if hi < r.1 then (hi, flIV)
    else (r.1, if r.2 then flNX else 0)

/-- An integer to a format (R38). -/
def FFmt.ofInt (f : FFmt) (rm : Rnd) (x : Int) : FRes := f.roundFin rm false (x < 0) x.natAbs 0

/-- A value to a format (R122). -/
def FFmt.ofVal (f : FFmt) (rm : Rnd) (ftz : Bool) (v : FVal) : FRes :=
  match v with
  | .nan g => f.nanRes g
  | .inf s => (f.infinity s, 0)
  | .fin s m e => f.roundFin rm ftz s m e

end Sys2Proof.Machine
end

