-- ==== Sys2Proof/Machine/Float.lean ====
section
/-!
DEFINITION. Machine/Float.lean: the floating-point instructions (R112 to R119) and the conversions (R120 to R123).
-/
namespace Sys2Proof.Machine

/-! ### Operands -/

/-- A source of a 32- or 16-bit format: the low bits of a register (R30). -/
def Seat.fsrc (x : Seat) (r : VReg) (f : FFmt) : Nat := (x.rd r.val).toNat % 2 ^ f.width
/-- An FP64 source: a pair. -/
def Seat.dsrc (x : Seat) (r : VReg) : Nat := (x.rd2 r.val).toNat
/-- Write a 32- or 16-bit result, upper bits 0 (R30). -/
def Seat.fput (x : Seat) (r : VReg) (n : Nat) : Seat := x.wr r.val (BitVec.ofNat 32 n)
/-- Write an FP64 result. -/
def Seat.dput (x : Seat) (r : VReg) (n : Nat) : Seat := x.wr2 r.val (BitVec.ofNat 64 n)
/-- The literal in place of B (R112). -/
def flit (f : FFmt) (lit : DWord) : Nat := lit.toNat % 2 ^ f.width

/-- An instruction that writes a 32- or 16-bit result with its flags. -/
def floOp (i : Instr) (s : State) (g : Guard) (d : VReg) (r : Seat → FRes) : Out :=
  laneOp i s g (fun y => y.fput d (r y).1) (fun y => (r y).2)
/-- An instruction that writes an FP64 result with its flags. -/
def dblOp (i : Instr) (s : State) (g : Guard) (d : VReg) (r : Seat → FRes) : Out :=
  laneOp i s g (fun y => y.dput d (r y).1) (fun y => (r y).2)

/-! ### FP32, FP16 and BF16 (R112 to R116) -/

/-- FADD. -/
def execFadd (x : FloRR) (s : State) : Out :=
  floOp (.fadd x) s x.g x.d fun y => (fmtOf x.ft).add x.rm x.ftz (y.fsrc x.a (fmtOf x.ft)) (y.fsrc x.b (fmtOf x.ft))
/-- FSUB. -/
def execFsub (x : FloRR) (s : State) : Out :=
  floOp (.fsub x) s x.g x.d fun y => (fmtOf x.ft).sub x.rm x.ftz (y.fsrc x.a (fmtOf x.ft)) (y.fsrc x.b (fmtOf x.ft))
/-- FMUL. -/
def execFmul (x : FloRR) (s : State) : Out :=
  floOp (.fmul x) s x.g x.d fun y => (fmtOf x.ft).mul x.rm x.ftz (y.fsrc x.a (fmtOf x.ft)) (y.fsrc x.b (fmtOf x.ft))
/-- FFMA. -/
def execFfma (x : FloRRR) (s : State) : Out :=
  floOp (.ffma x) s x.g x.d fun y =>
    (fmtOf x.ft).fma x.rm x.ftz (y.fsrc x.a (fmtOf x.ft)) (y.fsrc x.b (fmtOf x.ft)) (y.fsrc x.c (fmtOf x.ft))
/-- FDIV. -/
def execFdiv (x : FloRR) (s : State) : Out :=
  floOp (.fdiv x) s x.g x.d fun y => (fmtOf x.ft).div x.rm x.ftz (y.fsrc x.a (fmtOf x.ft)) (y.fsrc x.b (fmtOf x.ft))
/-- FSQRT. -/
def execFsqrt (x : FloR) (s : State) : Out :=
  floOp (.fsqrt x) s x.g x.d fun y => (fmtOf x.ft).sqrt x.rm x.ftz (y.fsrc x.a (fmtOf x.ft))
/-- FRCP. -/
def execFrcp (x : FloR) (s : State) : Out :=
  floOp (.frcp x) s x.g x.d fun y => (fmtOf x.ft).rcp x.rm x.ftz (y.fsrc x.a (fmtOf x.ft))
/-- FRSQ. -/
def execFrsq (x : FloR) (s : State) : Out :=
  floOp (.frsq x) s x.g x.d fun y => (fmtOf x.ft).rsq x.rm x.ftz (y.fsrc x.a (fmtOf x.ft))
/-- FEXP2. -/
def execFexp2 (x : FloR) (s : State) : Out :=
  floOp (.fexp2 x) s x.g x.d fun y => (fmtOf x.ft).exp2 x.rm x.ftz (y.fsrc x.a (fmtOf x.ft))
/-- FLOG2. -/
def execFlog2 (x : FloR) (s : State) : Out :=
  floOp (.flog2 x) s x.g x.d fun y => (fmtOf x.ft).log2 x.rm x.ftz (y.fsrc x.a (fmtOf x.ft))
/-- FMIN. -/
def execFmin (x : FloMM) (s : State) : Out :=
  floOp (.fmin x) s x.g x.d fun y => (fmtOf x.ft).minmax false (y.fsrc x.a (fmtOf x.ft)) (y.fsrc x.b (fmtOf x.ft))
/-- FMAX. -/
def execFmax (x : FloMM) (s : State) : Out :=
  floOp (.fmax x) s x.g x.d fun y => (fmtOf x.ft).minmax true (y.fsrc x.a (fmtOf x.ft)) (y.fsrc x.b (fmtOf x.ft))
/-- FABS. -/
def execFabs (x : FloS) (s : State) : Out :=
  floOp (.fabs x) s x.g x.d fun y => ((fmtOf x.ft).abs (y.fsrc x.a (fmtOf x.ft)), 0)
/-- FNEG. -/
def execFneg (x : FloS) (s : State) : Out :=
  floOp (.fneg x) s x.g x.d fun y => ((fmtOf x.ft).negate (y.fsrc x.a (fmtOf x.ft)), 0)
/-- FSGN. -/
def execFsgn (x : FloMM) (s : State) : Out :=
  floOp (.fsgn x) s x.g x.d fun y =>
    ((fmtOf x.ft).copySign (y.fsrc x.a (fmtOf x.ft)) (y.fsrc x.b (fmtOf x.ft)), 0)
/-- FCLASS. -/
def execFclass (x : FloS) (s : State) : Out :=
  floOp (.fclass x) s x.g x.d fun y => ((fmtOf x.ft).classOf (y.fsrc x.a (fmtOf x.ft)), 0)
/-- FADD with a literal. -/
def execFaddLit (x : FloRL) (s : State) : Out :=
  floOp (.faddLit x) s x.g x.d fun y => (fmtOf x.ft).add x.rm x.ftz (y.fsrc x.a (fmtOf x.ft)) (flit (fmtOf x.ft) x.lit)
/-- FSUB with a literal. -/
def execFsubLit (x : FloRL) (s : State) : Out :=
  floOp (.fsubLit x) s x.g x.d fun y => (fmtOf x.ft).sub x.rm x.ftz (y.fsrc x.a (fmtOf x.ft)) (flit (fmtOf x.ft) x.lit)
/-- FMUL with a literal. -/
def execFmulLit (x : FloRL) (s : State) : Out :=
  floOp (.fmulLit x) s x.g x.d fun y => (fmtOf x.ft).mul x.rm x.ftz (y.fsrc x.a (fmtOf x.ft)) (flit (fmtOf x.ft) x.lit)
/-- FDIV by a literal. -/
def execFdivLit (x : FloRL) (s : State) : Out :=
  floOp (.fdivLit x) s x.g x.d fun y => (fmtOf x.ft).div x.rm x.ftz (y.fsrc x.a (fmtOf x.ft)) (flit (fmtOf x.ft) x.lit)
/-- FMIN with a literal. -/
def execFminLit (x : FloML) (s : State) : Out :=
  floOp (.fminLit x) s x.g x.d fun y =>
    (fmtOf x.ft).minmax false (y.fsrc x.a (fmtOf x.ft)) (flit (fmtOf x.ft) x.lit)
/-- FMAX with a literal. -/
def execFmaxLit (x : FloML) (s : State) : Out :=
  floOp (.fmaxLit x) s x.g x.d fun y =>
    (fmtOf x.ft).minmax true (y.fsrc x.a (fmtOf x.ft)) (flit (fmtOf x.ft) x.lit)
/-- FSETP. -/
def execFsetp (x : FsetpRR) (s : State) : Out :=
  let r (y : Seat) := (fmtOf x.ft).compare x.cmp (y.fsrc x.a (fmtOf x.ft)) (y.fsrc x.b (fmtOf x.ft))
  laneOp (.fsetp x) s x.g (fun y => y.setPred x.pd (r y).1) (fun y => (r y).2)
/-- FSETP with a literal. -/
def execFsetpLit (x : FsetpRL) (s : State) : Out :=
  let r (y : Seat) := (fmtOf x.ft).compare x.cmp (y.fsrc x.a (fmtOf x.ft)) (flit (fmtOf x.ft) x.lit)
  laneOp (.fsetpLit x) s x.g (fun y => y.setPred x.pd (r y).1) (fun y => (r y).2)

/-! ### FP64 (R118, R119) -/

/-- FADD.f64. -/
def execFaddF64 (x : DblRR) (s : State) : Out :=
  dblOp (.faddF64 x) s x.g x.d fun y => fmtF64.add x.rm x.ftz (y.dsrc x.a) (y.dsrc x.b)
/-- FSUB.f64. -/
def execFsubF64 (x : DblRR) (s : State) : Out :=
  dblOp (.fsubF64 x) s x.g x.d fun y => fmtF64.sub x.rm x.ftz (y.dsrc x.a) (y.dsrc x.b)
/-- FMUL.f64. -/
def execFmulF64 (x : DblRR) (s : State) : Out :=
  dblOp (.fmulF64 x) s x.g x.d fun y => fmtF64.mul x.rm x.ftz (y.dsrc x.a) (y.dsrc x.b)
/-- FFMA.f64. -/
def execFfmaF64 (x : DblRRR) (s : State) : Out :=
  dblOp (.ffmaF64 x) s x.g x.d fun y => fmtF64.fma x.rm x.ftz (y.dsrc x.a) (y.dsrc x.b) (y.dsrc x.c)
/-- FDIV.f64. -/
def execFdivF64 (x : DblRR) (s : State) : Out :=
  dblOp (.fdivF64 x) s x.g x.d fun y => fmtF64.div x.rm x.ftz (y.dsrc x.a) (y.dsrc x.b)
/-- FSQRT.f64. -/
def execFsqrtF64 (x : DblR) (s : State) : Out :=
  dblOp (.fsqrtF64 x) s x.g x.d fun y => fmtF64.sqrt x.rm x.ftz (y.dsrc x.a)
/-- FMIN.f64. -/
def execFminF64 (x : DblMM) (s : State) : Out :=
  dblOp (.fminF64 x) s x.g x.d fun y => fmtF64.minmax false (y.dsrc x.a) (y.dsrc x.b)
/-- FMAX.f64. -/
def execFmaxF64 (x : DblMM) (s : State) : Out :=
  dblOp (.fmaxF64 x) s x.g x.d fun y => fmtF64.minmax true (y.dsrc x.a) (y.dsrc x.b)
/-- FADD.f64 with a literal. -/
def execFaddF64Lit (x : DblRL) (s : State) : Out :=
  dblOp (.faddF64Lit x) s x.g x.d fun y => fmtF64.add x.rm x.ftz (y.dsrc x.a) x.lit.toNat
/-- FSUB.f64 with a literal. -/
def execFsubF64Lit (x : DblRL) (s : State) : Out :=
  dblOp (.fsubF64Lit x) s x.g x.d fun y => fmtF64.sub x.rm x.ftz (y.dsrc x.a) x.lit.toNat
/-- FMUL.f64 with a literal. -/
def execFmulF64Lit (x : DblRL) (s : State) : Out :=
  dblOp (.fmulF64Lit x) s x.g x.d fun y => fmtF64.mul x.rm x.ftz (y.dsrc x.a) x.lit.toNat
/-- FDIV.f64 by a literal. -/
def execFdivF64Lit (x : DblRL) (s : State) : Out :=
  dblOp (.fdivF64Lit x) s x.g x.d fun y => fmtF64.div x.rm x.ftz (y.dsrc x.a) x.lit.toNat
/-- FMIN.f64 with a literal. -/
def execFminF64Lit (x : DblML) (s : State) : Out :=
  dblOp (.fminF64Lit x) s x.g x.d fun y => fmtF64.minmax false (y.dsrc x.a) x.lit.toNat
/-- FMAX.f64 with a literal. -/
def execFmaxF64Lit (x : DblML) (s : State) : Out :=
  dblOp (.fmaxF64Lit x) s x.g x.d fun y => fmtF64.minmax true (y.dsrc x.a) x.lit.toNat
/-- FSETP.f64. -/
def execFsetpF64 (x : DsetpRR) (s : State) : Out :=
  let r (y : Seat) := fmtF64.compare x.cmp (y.dsrc x.a) (y.dsrc x.b)
  laneOp (.fsetpF64 x) s x.g (fun y => y.setPred x.pd (r y).1) (fun y => (r y).2)
/-- FSETP.f64 with a literal. -/
def execFsetpF64Lit (x : DsetpRL) (s : State) : Out :=
  let r (y : Seat) := fmtF64.compare x.cmp (y.dsrc x.a) x.lit.toNat
  laneOp (.fsetpF64Lit x) s x.g (fun y => y.setPred x.pd (r y).1) (fun y => (r y).2)

/-! ### Conversions (R120 to R123) -/

/-- The two kinds of a CVT type: an integer type, or a binary format. -/
def cvtKind : CvtTy → IntTy ⊕ FFmt
  | .i8 => .inl .i8
  | .n8 => .inl .n8
  | .i16 => .inl .i16
  | .n16 => .inl .n16
  | .i32 => .inl .i32
  | .n32 => .inl .n32
  | .i64 => .inl .i64
  | .n64 => .inl .n64
  | .f16 => .inr fmtF16
  | .bf16 => .inr fmtBf16
  | .f32 => .inr fmtF32
  | .f64 => .inr fmtF64

/-- Convert one value between hard formats: the pattern in w bits of the destination, and the flags (R122). A source is
given as its pattern. -/
def convert (st dt : CvtTy) (sat ftz : Bool) (rm : Rnd) (a : Nat) : FRes :=
  match cvtKind st, cvtKind dt with
  | .inl t, .inl u =>
    let v := asType t a
    (((if sat then clampTo u v else wrapTo u v).emod (2 ^ tyWidth u)).toNat, 0)
  | .inl t, .inr f => f.ofInt rm (asType t a)
  | .inr f, .inl u =>
    let r := toInt rm (tyLo u) (tyHi u) (f.read ftz a)
    ((r.1.emod (2 ^ tyWidth u)).toNat, r.2)
  | .inr f, .inr h => h.ofVal rm ftz (f.read ftz a)

/-- The pattern of a CVT source. -/
def Seat.cvtSrc (x : Seat) (r : VReg) (t : CvtTy) : Nat :=
  if t.wide then x.dsrc r
  else match cvtKind t with
    | .inl u => (x.rd r.val).toNat % 2 ^ tyWidth u
    | .inr f => x.fsrc r f

/-- Write a CVT result with the fill of its type (R27, R30). -/
def Seat.cvtPut (x : Seat) (r : VReg) (t : CvtTy) (n : Nat) : Seat :=
  match cvtKind t with
  | .inl u => x.put r u (asType u n)
  | .inr _ => if t.wide then x.dput r n else x.fput r n

/-- CVT between hard formats. -/
def execCvt (x : CvtOp) (s : State) : Out :=
  let r (y : Seat) := convert x.st x.dt x.sat x.ftz x.rm (y.cvtSrc x.a x.st)
  laneOp (.cvt x) s x.g (fun y => y.cvtPut x.d x.dt (r y).1) (fun y => (r y).2)

/-- Pack eight INT8 of 64 bits into eight INT4, each clamped (R123). -/
def packInt4 (v : Nat) : Nat :=
  (List.range 8).foldl (fun n i =>
    let e := asType .i8 (v / 2 ^ (8 * i) % 256)
    let c : Int := if e < -8 then -8 else if 7 < e then 7 else e
    n + (c.emod 16).toNat * 2 ^ (4 * i)) 0

/-- Unpack eight INT4 of 32 bits into eight INT8 (R123). -/
def unpackInt4 (v : Nat) : Nat :=
  (List.range 8).foldl (fun n i =>
    let e := v / 2 ^ (4 * i) % 16
    n + (if 8 ≤ e then e + 240 else e) * 2 ^ (8 * i)) 0

/-- CVT.b32.b64. -/
def execCvtPackInt4 (x : CvtPk) (s : State) : Out :=
  laneOp (.cvtPackInt4 x) s x.g (fun y => y.fput x.d (packInt4 (y.dsrc x.a))) noFlag
/-- CVT.b64.b32. -/
def execCvtUnpackInt4 (x : CvtPk) (s : State) : Out :=
  laneOp (.cvtUnpackInt4 x) s x.g (fun y => y.dput x.d (unpackInt4 (y.rd x.a.val).toNat)) noFlag

end Sys2Proof.Machine
end

