-- ==== Sys2Proof/Machine/Formats.lean ====
section
/-!
DEFINITION. Machine/Formats.lean: decoded words and slot formats (R279 to R288), containers as the loader holds them
(R340 to R343), the binding that a slot of an address space holds (R338, R349), and XCVT (R300, R301).
-/
namespace Sys2Proof.Machine

/-! ### Containers (R340 to R343) -/

/-- A field of a container's header. -/
def Container.field (c : Container) (off n : Nat) : Nat := fieldAt c.bytes off n
/-- FID. -/
def Container.fid (c : Container) : Nat := c.field 0x06 2
/-- EW: the element width. -/
def Container.ew (c : Container) : Nat := c.field 0x08 1
/-- CB: the container's bytes. -/
def Container.cb (c : Container) : Nat := c.field 0x09 1
/-- A field of the encode descriptor (R342). -/
def Container.enc (c : Container) (off n : Nat) : Nat := c.field (c.field 0x18 4 + off) n
/-- Entries of the decode table (R341). -/
def Container.entries (c : Container) : Nat := 2 ^ min c.ew 16
/-- Entry i of the decode table. -/
def Container.entry (c : Container) (i : Nat) : Nat := c.field (c.field 0x10 4 + 4 * i) 4
/-- Bits of a code that take no part in its decoded value. -/
def Container.low (c : Container) : Nat := c.ew - 16

/-! ### T8, T6 and L5 (R281 to R283) -/

/-- A decoded word from its fields (R279). -/
def wordOf (neg : Bool) (cls : Nat) (exp : Int) (sig : Nat) : Nat :=
  (if neg then 2 ^ 31 else 0) + cls * 2 ^ 29 + (exp.emod 128).toNat * 2 ^ 22 + sig

/-- The bits equal to the top one, from bit n - 1 of g downward (R281). -/
def runLength (g : Nat) (b : Bool) : Nat → Nat
  | 0 => 0
  | n + 1 => if g.testBit n == b then 1 + runLength g b n else 0

/-- decode_tapered of R281: T8 with m = 7, T6 with m = 5. -/
def decodeTapered (c m : Nat) : Nat :=
  let s := c.testBit m
  let g := c % 2 ^ m
  if g = 0 then wordOf false (if s then 3 else 0) 0 0
  else
    let b := g.testBit (m - 1)
    let k := runLength g b m
    let r : Int := if b then k - 1 else -k
    let rem := if k = m then 0 else m - k - 1
    let e : Int := if 1 ≤ rem && g.testBit (rem - 1) then 1 else 0
    let fw := rem - 1
    wordOf s 1 (2 * r + e) ((2 ^ fw + g % 2 ^ fw) * 2 ^ (15 - fw))

/-- The decoded word of an L5 code (R283). -/
def decodeL5 (c : Nat) : Nat :=
  let s := c.testBit 4
  let q := c % 16
  if q = 0 then wordOf false (if s then 3 else 0) 0 0
  else wordOf s 1 (((q : Int) - 8).fdiv 2) (if q % 2 = 1 then 0xB505 else 0x8000)

/-- The decode table of one of Aelyn's formats by FID (R343). -/
def aelynTable (fid : Nat) : Option (Nat → Nat) :=
  if fid = 1 then some fun c => decodeTapered c 7
  else if fid = 2 then some fun c => decodeTapered c 5
  else if fid = 3 then some decodeL5
  else none

/-- Entry i of a container's decode table; a container under Aelyn's format key with FID 1, 2 or 3 is T8, T6 or L5 (R343;
DEDUCED, notes/assumptions/37). -/
def Container.tableWord (c : Container) (i : Nat) : Nat :=
  match aelynTable c.fid with
  | some t => if (c.bytes.drop 0x30).take 16 == Config.aelynKey.take 16 then t i else c.entry i
  | none => c.entry i

/-! ### Decoded words (R279) -/

/-- The value of a decoded word: SIG 2^(EXP - 15) with its sign, 0, an infinity or a NaN. -/
def decoded (w : Nat) : FVal :=
  let s := bits w 31 1 == 1
  match bits w 29 2 with
  | 0 => .fin false 0 0
  | 1 => .fin s (bits w 0 16) ((BitVec.ofNat 7 (bits w 22 7)).toInt - 15)
  | 2 => .inf s
  | _ => .nan false

/-- The decoded word of a code (R280, R341). -/
def Container.word (c : Container) (code : Nat) : Nat := c.tableWord (code % 2 ^ c.ew / 2 ^ c.low)
/-- The value of a code. -/
def Container.decode (c : Container) (code : Nat) : FVal := decoded (c.word code)

/-- A finite decoded value in units of 2^-79, the least of which all are multiples. -/
def scaledOf : FVal → Option Int
  | .fin s m e => some (let v : Int := (m * 2 ^ (e + 79).toNat : Nat); if s then -v else v)
  | _ => none

/-- The candidates of an encoding, code and value, in ascending code order: of the codes of one value the lowest is met
first (R284, R342). -/
def Container.candidates (c : Container) : List (Nat × Int) :=
  (List.range c.entries).filterMap fun i => (scaledOf (decoded (c.tableWord i))).map fun v => (i * 2 ^ c.low, v)

/-- The candidate of the greatest value, in units of 2^-79 (R280). -/
def greatest (cs : List (Nat × Int)) : Nat × Int :=
  match cs with
  | [] => (0, 0)
  | x :: xs => xs.foldl (fun a y => if a.2 < y.2 then y else a) x
/-- The candidate of the least value. -/
def least (cs : List (Nat × Int)) : Nat × Int :=
  match cs with
  | [] => (0, 0)
  | x :: xs => xs.foldl (fun a y => if y.2 < a.2 then y else a) x

/-! ### S16 scales (R287) -/

/-- The value of an S16 code: none for a NaN, else a magnitude m 2^e. -/
def s16 (c : Nat) : Option (Nat × Int) :=
  let e := bits c 7 8
  if bits c 15 1 == 1 || e == 255 then none
  else if e = 0 then some (bits c 0 7, -133)
  else some (128 + bits c 0 7, (e : Int) - 134)

/-- The S16 code of 1. -/
def s16One : Nat := 0x3F80

/-! ### Encoding (R284, R342) -/

/-- A fraction num/den, den positive, in units of 2^-79, of (-1)^s m 2^e / (n 2^d). -/
def quotient (s : Bool) (m : Nat) (e : Int) (n : Nat) (d : Int) : Int × Nat :=
  let k := e - d + 79
  let a : Nat := m * 2 ^ k.toNat
  (if s then -(a : Int) else a, n * 2 ^ (-k).toNat)

/-- Whether candidate y is to be preferred to an earlier candidate x for the fraction num/den under RND; a code is a
candidate only where no lower code has its value. -/
def prefer (cs : List (Nat × Int)) (rnd : Nat) (num : Int) (den : Nat) (x y : Nat × Int) : Bool :=
  let dx := (x.2 * den - num).natAbs
  let dy := (y.2 * den - num).natAbs
  match rnd with
  | 0 => dy < dx || (dy == dx && x.2 != y.2 && x.1 % 2 == 1 && y.1 % 2 == 0 && cs.find? (fun c => c.2 == y.2) == some y)
  | _ => dy < dx

/-- The candidates among which a directed rounding chooses (R34, R342). -/
def directed (rnd : Nat) (num : Int) (den : Nat) (cs : List (Nat × Int)) : List (Nat × Int) :=
  cs.filter fun c =>
    match rnd with
    | 0 => true
    | 1 => if num < 0 then num ≤ c.2 * den && c.2 ≤ 0 else c.2 * den ≤ num && 0 ≤ c.2
    | 2 => c.2 * den ≤ num
    | _ => num ≤ c.2 * den

/-- The code of a zero result (R342). -/
def Container.zeroCode (c : Container) (neg : Bool) : Nat :=
  if neg && c.enc 0x0C 4 != 0xFFFFFFFF then c.enc 0x0C 4 else c.enc 0x08 4

/-- The code of a candidate; that of value 0 is written by the zero rule. -/
def Container.codeOf (c : Container) (neg : Bool) (x : Nat × Int) : Nat := if x.2 = 0 then c.zeroCode neg else x.1

/-- slot_encode of R284 with the changes of R342: a code and the flags raised. -/
def Container.encode (c : Container) (x : FVal) (scale : Nat) : FRes :=
  let cs := c.candidates
  let sat := c.enc 0x01 1 == 1
  let outside (neg : Bool) : FRes :=
    if sat then (c.enc (if neg then 0x14 else 0x10) 4, flOFNX)
    else (c.codeOf neg (if neg then least cs else greatest cs), flOFNX)
  match x, s16 scale with
  | .nan g, _ => (c.enc 0x04 4, if g then flIV else 0)
  | _, none => (c.enc 0x04 4, 0)
  | .inf s, some (n, _) =>
    if n = 0 then (c.enc 0x04 4, flIV)
    else if sat then (c.enc (if s then 0x14 else 0x10) 4, 0)
    else outside s
  | .fin s m e, some (n, d) =>
    if n = 0 then (c.zeroCode s, if m = 0 then 0 else flNX)
    else if m = 0 then (c.zeroCode s, 0)
    else
      let q := quotient s m e n d
      if (greatest cs).2 * q.2 < q.1 then outside false
      else if q.1 < (least cs).2 * q.2 then outside true
      else
        let rnd := c.enc 0x00 1
        match directed rnd q.1 q.2 cs with
        | [] => (c.zeroCode s, flUFNX)
        | y :: ys =>
          let b := ys.foldl (fun a z => if prefer cs rnd q.1 q.2 a z then z else a) y
          (c.codeOf s b, if b.2 * q.2 = q.1 then 0 else if b.2 = 0 then flUFNX else flNX)

/-! ### Decoding (R286) -/

/-- slot_decode of R286 to a hard format. -/
def Container.decodeTo (c : Container) (code scale : Nat) (f : FFmt) : FRes :=
  match c.decode code, s16 scale with
  | .nan _, _ => (f.cnan, 0)
  | _, none => (f.cnan, 0)
  | .inf s, some (n, _) => if n = 0 then (f.cnan, flIV) else (f.infinity s, 0)
  | .fin s m e, some (n, d) => if m = 0 || n = 0 then (0, 0) else f.roundFin .rn false s (m * n) (e + d)

/-! ### Bindings (R338, R339, R349) -/

/-- The entry of a logical slot in the binding table of an address space; none: unbound from the start. -/
def State.bindEntry (s : State) (asid k : Nat) : Option BindEntry := s.binds.find? fun e => e.asid == asid && e.k == k

/-- The binding in force for a logical slot. -/
def State.boundTo (s : State) (asid k : Nat) : Option Binding :=
  match s.bindEntry asid k with
  | none => none
  | some e => match e.bound with
    | none => none
    | some i => s.bindings.find? fun b => b.id == i

/-- A use of the slot has to wait: the entry is blocked (R349). -/
def State.slotBlocked (s : State) (asid k : Nat) : Bool := match s.bindEntry asid k with
  | some e => e.blocked
  | none => false

/-- A use of an agent takes a reference to a binding (R339). -/
def State.hold (s : State) (i : Option Nat) (a : AgentId) : State :=
  match i with
  | none => s
  | some i => { s with bindings := upd (fun b => b.id == i) (fun b => { b with held := a :: b.held }) s.bindings }

/-- Whether a binding is in force for some entry. -/
def State.inForce (s : State) (i : Nat) : Bool := s.binds.any fun e => e.bound == some i

/-- Drop bindings that no entry and no use holds (R337, R348). -/
def State.dropBindings (s : State) : State :=
  { s with bindings := s.bindings.filter fun b => !b.held.isEmpty || s.inForce b.id }

/-- A use of an agent gives its reference back. -/
def State.release1 (s : State) (i : Option Nat) (a : AgentId) : State :=
  match i with
  | none => s
  | some i =>
    ({ s with bindings := upd (fun b => b.id == i) (fun b => { b with held := b.held.erase a }) s.bindings } : State).dropBindings

/-! ### XCVT (R300, R301) -/

/-- The container position is one of the register's (R300). -/
def selOk (cb sel : Nat) : Bool := if cb = 1 then true else if cb = 2 then sel < 2 else sel = 0

/-- The S16 scale of a lane: B[15:0], else 1. -/
def Seat.scale (x : Seat) (r : Option VReg) : Nat := match r with
  | some b => (x.rd b.val).toNat % 2 ^ 16
  | none => s16One

/-- Replace container k of a register by a code. -/
def putContainer (w : Word) (cb k code : Nat) : Word :=
  let m : Word := BitVec.ofNat 32 ((2 ^ (8 * cb) - 1) * 2 ^ (8 * cb * k))
  (w &&& ~~~m) ||| BitVec.ofNat 32 (code % 2 ^ (8 * cb) * 2 ^ (8 * cb * k))

/-- Container k of a register. -/
def getContainer (w : Word) (cb k : Nat) : Nat := bitsAt w (8 * cb * k) (8 * cb)

/-- Issue an XCVT: a blocked slot makes it wait, an unbound one raises 0x84, a position outside the register 0x03. -/
def xcvtOp (i : Instr) (s : State) (x : XcvtOp) (f : Container → Seat → Seat) (fl : Container → Seat → BitVec 7) : Out :=
  issueTeam i s fun e =>
    if s.slotBlocked e.l.asid x.k.val then stall s e
    else
      match s.boundTo e.l.asid x.k.val with
      | none => trap s e 0x84#8
      | some b =>
        if !selOk b.ct.cb x.sel.val then trap s e 0x03#8
        else retire s e ((e.each x.g (f b.ct)).raise (raised e x.g (fl b.ct)))

/-- The encoding of one lane. -/
def xcvtEnc (x : XcvtOp) (c : Container) (y : Seat) : FRes :=
  c.encode ((fmtOf x.ft).unpack (y.fsrc x.a (fmtOf x.ft))) (y.scale x.scl)
/-- The decoding of one lane. -/
def xcvtDec (x : XcvtOp) (c : Container) (y : Seat) : FRes :=
  c.decodeTo (getContainer (y.rd x.a.val) c.cb x.sel.val) (y.scale x.scl) (fmtOf x.ft)

/-- XCVT, encoding. -/
def execXcvtEncode (x : XcvtOp) (s : State) : Out :=
  xcvtOp (.xcvtEncode x) s x
    (fun c y => y.wr x.d.val (putContainer (y.rd x.d.val) c.cb x.sel.val ((xcvtEnc x c y).1 % 2 ^ c.ew)))
    fun c y => (xcvtEnc x c y).2
/-- XCVT, decoding. -/
def execXcvtDecode (x : XcvtOp) (s : State) : Out :=
  xcvtOp (.xcvtDecode x) s x (fun c y => y.fput x.d (xcvtDec x c y).1) fun c y => (xcvtDec x c y).2

end Sys2Proof.Machine
end

