-- ==== Sys2Proof/Machine/Shapes.lean ====
section
/-!
DEFINITION. Machine/Shapes.lean: shape registers: their fields and checks (R248, R249), the addresses of elements and
scales (R250), one access of a tile by a team or an engine, and SHLD, SHST and SHSET (R253 to R255).
-/
namespace Sys2Proof.Machine

/-! ### Fields (R248) -/

/-- A shape as an instruction reads it. -/
abbrev Shape := BitVec 512

/-- BASE. -/
def shBase (x : Shape) : Nat := bitsAt x 0 64
/-- FMT. -/
def shFmt (x : Shape) : Nat := bitsAt x 64 8
/-- LVL. -/
def shLvl (x : Shape) : Nat := bitsAt x 72 4
/-- HZ. -/
def shHz (x : Shape) : Bool := x.getLsbD 76
/-- EXTd. -/
def shExt (x : Shape) (d : Nat) : Nat := bitsAt x (80 + 64 * d) 24
/-- STRd, signed. -/
def shStr (x : Shape) (d : Nat) : Int := (x.extractLsb' (104 + 64 * d) 40).toInt
/-- GRP. -/
def shGrp (x : Shape) : Nat := bitsAt x 336 16
/-- The low halo width of dimension d. -/
def shHaloLo (x : Shape) (d : Nat) : Nat := bitsAt x (352 + 4 * d) 2
/-- The high halo width of dimension d. -/
def shHaloHi (x : Shape) (d : Nat) : Nat := bitsAt x (354 + 4 * d) 2
/-- ANCH: the merge anchor exponent; none where the field is 0x80. -/
def shAnch (x : Shape) : Option Int := if bitsAt x 368 8 = 0x80 then none else some (x.extractLsb' 368 8).toInt
/-- SPN. -/
def shSpn (x : Shape) : Nat := bitsAt x 376 8
/-- SBASE. -/
def shSbase (x : Shape) : Nat := bitsAt x 384 64
/-- MBASE. -/
def shMbase (x : Shape) : Nat := bitsAt x 448 64
/-- The logical slot of a slot FMT. -/
def shSlot (x : Shape) : Option Nat := if 0x10 ≤ shFmt x && shFmt x ≤ 0x17 then some (shFmt x - 0x10) else none
/-- FMT is INT4. -/
def shInt4 (x : Shape) : Bool := shFmt x == 0x02

/-- Bytes of a hard element; INT4 counts 1, the byte that holds a pair. -/
def hardBytes : Nat → Nat
  | 0x00 | 0x01 | 0x02 => 1
  | 0x03 | 0x05 | 0x06 => 2
  | 0x04 | 0x07 => 4
  | 0x08 => 8
  | _ => 0

/-- A hard floating-point format of FMT. -/
def hardFloat : Nat → Option FFmt
  | 0x05 => some fmtF16
  | 0x06 => some fmtBf16
  | 0x07 => some fmtF32
  | 0x08 => some fmtF64
  | _ => none

/-- A format that XCVT converts: FP16, BF16, FP32. -/
def slotFloat : Nat → Option FFmt
  | 0x05 => some fmtF16
  | 0x06 => some fmtBf16
  | 0x07 => some fmtF32
  | _ => none

/-- A level code of LVL; codes above 4 do not pass the checks. -/
def lvlOf : Nat → Level
  | 0 => .global
  | 1 => .slice
  | 2 => .scratch
  | 3 => .cluster
  | _ => .pantry

/-! ### The checks (R249) -/

/-- The container of a shape's slot, where it has one. -/
abbrev SlotCt := Option Container

/-- The binding that a shape's slot has in an address space. -/
def State.shapeBinding (s : State) (asid : Nat) (x : Shape) : Option Binding :=
  match shSlot x with
  | some k => s.boundTo asid k
  | none => none

/-- Whether a shape names a slot whose entry is blocked (R349). -/
def State.shapeBlocked (s : State) (asid : Nat) (x : Shape) : Bool :=
  match shSlot x with
  | some k => s.slotBlocked asid k
  | none => false

/-- The container in force for a shape among the operands of an operation: only a slot format has one. -/
def ofShape (x : Shape) (ct : SlotCt) : SlotCt := if (shSlot x).isSome then ct else none

/-- Element bytes of a shape. -/
def elemBytes (x : Shape) (ct : SlotCt) : Nat :=
  match ofShape x ct with
  | some c => c.cb
  | none => hardBytes (shFmt x)

/-- The dimensions. -/
def dims : List Nat := [0, 1, 2, 3]

/-- Stage 1 of the checks. -/
def shapeStage1 (x : Shape) : Bool :=
  (shFmt x ≤ 0x08 || (shSlot x).isSome) && shLvl x ≤ 4 && bitsAt x 78 2 == 0

/-- Stage 3 of the checks, with the element size known. -/
def shapeStage3 (x : Shape) (e : Nat) : Bool :=
  dims.all (fun d => shExt x d != 0)
    && (shGrp x == 0 || ([32, 64, 128].contains (shGrp x) && shExt x 0 % shGrp x == 0))
    && [0, 8, 16, 24].contains (shSpn x)
    && (shLvl x == 0 || shBase x / 2 ^ 32 == 0)
    && shBase x % e == 0
    && dims.all (fun d => shExt x d ≤ 1 || (shStr x d).natAbs % e == 0)
    && (!shInt4 x || (shStr x 0 == 0 && shExt x 0 % 2 == 0))

/-- The cause of an invalid shape (R249); a slot beyond the envelope raises 0xC1 where an unbound one raises 0x84
(DEDUCED from R403). -/
def State.shapeCause (s : State) (fn asid : Nat) (x : Shape) : Option Cause :=
  if !shapeStage1 x then some 0x83#8
  else
    match shSlot x with
    | some k =>
      if s.nslot fn ≤ k then some 0xC1#8
      else match s.boundTo asid k with
        | none => some 0x84#8
        | some b => if shapeStage3 x b.ct.cb then none else some 0x83#8
    | none => if shapeStage3 x (hardBytes (shFmt x)) then none else some 0x83#8

/-- The first cause among shapes, in order. -/
def State.shapesCause (s : State) (fn asid : Nat) : List Shape → Option Cause
  | [] => none
  | x :: xs => match s.shapeCause fn asid x with
    | some c => some c
    | none => s.shapesCause fn asid xs

/-! ### Addresses (R250) -/

/-- An index of a tile. -/
structure Ix where
  i0 : Nat
  i1 : Nat
  i2 : Nat
  i3 : Nat
  deriving DecidableEq, Repr

/-- The modulus of a shape's addresses. -/
def shMod (x : Shape) : Int := if shLvl x = 0 then 2 ^ 64 else 2 ^ 32

/-- The byte address of an element. -/
def elemAddr (x : Shape) (i : Ix) : Nat :=
  let o0 : Int := if shInt4 x then (i.i0 / 2 : Nat) else i.i0 * shStr x 0
  ((shBase x + o0 + i.i1 * shStr x 1 + i.i2 * shStr x 2 + i.i3 * shStr x 3).emod (shMod x)).toNat

/-- The address of an element's scale. -/
def scaleAddr (x : Shape) (i : Ix) : Nat :=
  let n0 := shExt x 0 / shGrp x
  let k := i.i0 / shGrp x + n0 * (i.i1 + shExt x 1 * (i.i2 + shExt x 2 * i.i3))
  ((shSbase x + 2 * k : Nat) % (shMod x).toNat)

/-- Elements of a tile. -/
def shCount (x : Shape) : Nat := shExt x 0 * shExt x 1 * shExt x 2 * shExt x 3

/-- The n-th index of a shape's extents in the order (i3, i2, i1, i0) (R292). -/
def ixOf (x : Shape) (n : Nat) : Ix :=
  ⟨n % shExt x 0, n / shExt x 0 % shExt x 1, n / (shExt x 0 * shExt x 1) % shExt x 2,
   n / (shExt x 0 * shExt x 1 * shExt x 2)⟩

/-- The lowest and highest byte of a tile, before reduction (R259, R291). -/
def shSpan (x : Shape) (e : Nat) : Int × Int :=
  let r (d : Nat) : Int := if d = 0 && shInt4 x then ((shExt x 0 - 1) / 2 : Nat) else ((shExt x d - 1 : Nat) : Int) * shStr x d
  (dims.foldl (fun a d => a + min 0 (r d)) (shBase x : Int), dims.foldl (fun a d => a + max 0 (r d)) (shBase x : Int) + e - 1)

/-- A cause and the address that its record names (R386). -/
abbrev CauseAt := Cause × DWord

/-- A team's instruction traps with a cause at an address. -/
def trapAt (s : State) (e : TEnv) (c : CauseAt) : Out := .next (takeTrap s e c.1 { e.info c.1 with addr := c.2 })

/-- The cause of a run of on-chip bytes, of which the lowest and the highest must lie in their level's region, at the lowest of the
two that does not (R25, R291; the address DEDUCED from R386, notes/assumptions/36). -/
def rangeCause (l : Launch) (x : Shape) (lo hi : Int) : Option CauseAt :=
  let lv := lvlOf (shLvl x)
  let out (a : Int) : Bool := a < 0 || (levelSize l lv : Int) ≤ a
  if out lo then some (levelCause lv, BitVec.ofInt 64 lo)
  else if out hi then some (levelCause lv, BitVec.ofInt 64 hi)
  else none

/-- The cause of an on-chip shape whose tile leaves its level's region (R259). -/
def spanCause (l : Launch) (x : Shape) (e : Nat) : Option CauseAt :=
  if shLvl x = 0 then none else rangeCause l x (shSpan x e).1 (shSpan x e).2

/-- The cause of an on-chip scale table that leaves its level's region (R291). -/
def scaleSpanCause (l : Launch) (x : Shape) : Option CauseAt :=
  if shLvl x = 0 || shGrp x = 0 then none
  else rangeCause l x (shSbase x) ((shSbase x + 2 * (shCount x / shGrp x) : Nat) - 1)

/-! ### A team's shape registers -/

/-- A shape register of a team. -/
def Team.shape (t : Team) (r : ShReg) : Shape := t.shapes.getD r.val 0
/-- Write a shape register. -/
def Team.setShape (t : Team) (r : ShReg) (v : Shape) : Team := { t with shapes := t.shapes.set r.val v }

/-! ### SHLD, SHST, SHSET (R253 to R255) -/

/-- The lane and address of a shape's memory operand. -/
def shLanes (e : TEnv) (x : ShMemOp) (i : Nat) : List (Nat × DWord) := [(i, effective .global (e.t.seat i) x.b x.ofs)]

/-- The access of SHLD or SHST: alignment to 64 bytes comes before the other checks of R125 (R254). -/
def shAccess (s : State) (e : TEnv) (x : ShMemOp) (i : Nat) (kind : AKind) (mk : MKind) (k : State → List Acc → Out) : Out :=
  let va := effective .global (e.t.seat i) x.b x.ofs
  if va.toNat % 64 != 0 then trapMem s e 0x23#8 va [i] else teamAccess s e .global 64 kind mk (shLanes e x i) noOwn k

/-- SHLD. -/
def execShld (x : ShMemOp) (s : State) : Out :=
  issueTeam (.shld x) s fun e =>
    elect s e x.g fun i =>
      shAccess s e x i .load .plainLoad fun s as =>
        let r := readAll s e .global 64 false [] as
        match r.2 with
        | p :: _ => retire r.1 e (e.t.setShape x.sh (BitVec.ofNat 512 (leNat p.2)))
        | [] => retire r.1 e e.t

/-- SHST. -/
def execShst (x : ShMemOp) (s : State) : Out :=
  issueTeam (.shst x) s fun e =>
    elect s e x.g fun i =>
      shAccess s e x i .store .plainStore fun s as =>
        retire (as.foldl (fun s a => writeAcc s e .global (leBytes 64 (e.t.shape x.sh).toNat) false a) s) e e.t

/-- Where a field of SHSET lies and its width. -/
def shField : ShField → Nat × Nat
  | .base => (0, 64)
  | .fmt => (64, 8)
  | .lvl => (72, 4)
  | .flags => (76, 4)
  | .ext d => (80 + 64 * d.val, 24)
  | .str d => (104 + 64 * d.val, 40)
  | .grp => (336, 16)
  | .halo => (352, 16)
  | .anch => (368, 8)
  | .spn => (376, 8)
  | .sbase => (384, 64)
  | .mbase => (448, 64)

/-- Replace bits [lo+w-1:lo] of a shape. -/
def putField (x : Shape) (lo w v : Nat) : Shape :=
  let m : Shape := BitVec.ofNat 512 ((2 ^ w - 1) * 2 ^ lo)
  (x &&& ~~~m) ||| BitVec.ofNat 512 (v % 2 ^ w * 2 ^ lo)

/-- The source of SHSET in the elected lane: a pair for a field of more than 32 bits. -/
def shSource (y : Seat) (f : ShField) (r : VReg) : Nat :=
  if 32 < (shField f).2 then (y.rd2 r.val).toNat else (y.rd r.val).toNat

/-- SHSET. -/
def execShset (x : ShsetOp) (s : State) : Out :=
  issueTeam (.shset x) s fun e =>
    elect s e x.g fun i =>
      retire s e (e.t.setShape x.sh
        (putField (e.t.shape x.sh) (shField x.f).1 (shField x.f).2 (shSource (e.t.seat i) x.f x.a)))

end Sys2Proof.Machine
end

