-- ==== Sys2Proof/Machine/Engine.lean ====
section
/-!
DEFINITION. Machine/Engine.lean: accesses of engine contexts (R237, R266, R276 to R278, R323, R324), merge tiles and
contributions (R315 to R320), and the timelines that a wait can name (R269 to R271, R431, R452).
-/
namespace Sys2Proof.Machine

/-! ### What an engine's work comes to -/

/-- Work of an engine: done with a value, held back by a full dirty log or by something not yet there, or failing with a
suspension before the access that fails. -/
inductive Eng (α : Type) where
  | ok (s : State) (v : α)
  | wait
  | fail (s : State) (w : Susp)

/-- Go on with what work has given. -/
def Eng.andThen {α β : Type} (e : Eng α) (k : State → α → Eng β) : Eng β :=
  match e with
  | .ok s v => k s v
  | .wait => .wait
  | .fail s w => .fail s w

/-- An engine context at work: its agent, the operation whose region its accesses belong to (R223), and the launch and block
whose on-chip levels it reaches. -/
structure EngAgent where
  a : AgentId
  op : Nat
  l : Launch
  b : Block
  deriving DecidableEq, Repr

/-- A suspension for a memory fault: 0x87 with the cause of R125 in INNER. -/
def Susp.mem (c : Cause) (addr : DWord) : Susp := ⟨0x87#8, c, addr, none⟩
/-- A suspension for a condition of the operation itself. -/
def Susp.own (c : Cause) : Susp := ⟨c, 0, 0, none⟩

/-- A checked access of an engine: on-chip by range and alignment, global by R125 and R237; the answer is the global
translation. DESIGN CHOICE (R266 names global memory alone, notes/assumptions/36): an on-chip access that leaves its level's
region or is misaligned, as a converting copy's scale table can, suspends with 0x87 and the level's cause or 0x23 in INNER. -/
def engAccess (s : State) (x : EngAgent) (lv : Level) (addr size : Nat) (kind : AKind) (mk : MKind) : Eng (Option Tr) :=
  let va := BitVec.ofNat 64 addr
  match lv with
  | .global =>
    match s.check x.b.die x.l.asid va size kind with
    | .error e => .fail (s.noteErr e) (.mem e.cause va)
    | .ok t =>
      let a : Acc := ⟨0, va, t.pa, some t⟩
      match s.conflictIn x.a a size mk with
      | some c => .fail s ⟨0x60#8, mk.inner kind.rmw, BitVec.ofNat 64 c.1, some c.2⟩
      | none =>
        match s.commitTr x.b.die x.l.asid va kind t with
        | none => .wait
        | some s => .ok ((s.markAcc x.a size mk a x.op).atHome x.l t) (some t)
  | _ =>
    if addr % size != 0 then .fail s (.mem 0x23#8 va)
    else if levelSize x.l lv < addr + size then .fail s (.mem (levelCause lv) va)
    else .ok s none

/-- Read bytes: global memory at its home slice, never through an L1 (R203). -/
def engGet (s : State) (x : EngAgent) (lv : Level) (addr n : Nat) : Eng (List Byte) :=
  (engAccess s x lv addr n .load .plainLoad).andThen fun s t =>
    match t with
    | some t => .ok s (s.mem.bytes t.pa n)
    | none => .ok s (s.levelBytes x.l.id x.b.id lv addr n)

/-- Write bytes. -/
def engPut (s : State) (x : EngAgent) (lv : Level) (addr : Nat) (bs : List Byte) : Eng Unit :=
  (engAccess s x lv addr bs.length .store .plainStore).andThen fun s t =>
    match t with
    | some t => .ok { s with mem := s.mem.put t.pa bs } ()
    | none => .ok (s.updLevel x.l.id x.b.id lv fun m => m.put addr bs) ()

/-- The bits of an element among the bytes that hold it (R248, R250). -/
def elemOfBytes (x : Shape) (ct : SlotCt) (i : Ix) (n : Nat) : Nat :=
  if shInt4 x then (if i.i0 % 2 = 1 then n / 16 else n % 16)
  else match ofShape x ct with
    | some c => n % 2 ^ c.ew
    | none => n

/-- The bytes that hold an element once its bits are written; the old byte matters to INT4 alone (R248, R250). -/
def bytesOfElem (x : Shape) (ct : SlotCt) (i : Ix) (old : Byte) (v : Nat) : List Byte :=
  if shInt4 x then
    [if i.i0 % 2 = 1 then BitVec.ofNat 8 (old.toNat % 16 + v % 16 * 16) else BitVec.ofNat 8 (old.toNat / 16 * 16 + v % 16)]
  else match ofShape x ct with
    | some c => leBytes c.cb (v % 2 ^ c.ew)
    | none => leBytes (hardBytes (shFmt x)) v

/-- Read an element of a tile. -/
def engElem (s : State) (x : EngAgent) (sh : Shape) (ct : SlotCt) (i : Ix) : Eng Nat :=
  (engGet s x (lvlOf (shLvl sh)) (elemAddr sh i) (elemBytes sh ct)).andThen fun s bs => .ok s (elemOfBytes sh ct i (leNat bs))

/-- Write an element of a tile. -/
def engPutElem (s : State) (x : EngAgent) (sh : Shape) (ct : SlotCt) (i : Ix) (v : Nat) : Eng Unit :=
  let lv := lvlOf (shLvl sh)
  let a := elemAddr sh i
  (engAccess s x lv a (elemBytes sh ct) .store .plainStore).andThen fun s t =>
    match t with
    | some t => .ok { s with mem := s.mem.put t.pa (bytesOfElem sh ct i (s.mem.get t.pa) v) } ()
    | none =>
      let old := (s.levelBytes x.l.id x.b.id lv a 1).getD 0 0
      .ok (s.updLevel x.l.id x.b.id lv fun m => m.put a (bytesOfElem sh ct i old v)) ()

/-- Read the scale of an element's group; 1 where the shape has none (R250, R288). -/
def engScale (s : State) (x : EngAgent) (sh : Shape) (i : Ix) : Eng Nat :=
  if shGrp sh = 0 then .ok s s16One
  else (engGet s x (lvlOf (shLvl sh)) (scaleAddr sh i) 2).andThen fun s bs => .ok s (leNat bs)

/-- The arrival of a completed operation on a barrier object: count 1, scope .dev (R247). The answer says whether the
arrival was accepted. -/
def engArrive (s : State) (x : EngAgent) (obj : DWord) : Eng Bool :=
  (engAccess s x .global obj.toNat 16 .arrive .syncWrite).andThen fun s t =>
    match t with
    | some t => match objArrive (s.mem.bytes t.pa 16) 1 with
      | some bs => .ok { s with mem := s.mem.put t.pa bs } true
      | none => .ok s false
    | none => .ok s false

/-! ### Merge tiles (R315 to R318) -/

/-- The open tile at a physical address. -/
def State.tile (s : State) (pa : Nat) : Option Tile := s.tiles.find? fun t => t.pa == pa

/-- One contribution to one cell, and the MO and ML it sets (R317). -/
def addContribution (anchor : Int) (c : MCell) (x : FVal) : MCell × Bool × Bool :=
  match x with
  | .nan _ => ({ c with nan := true }, false, false)
  | .inf s => (if s then { c with ninf := true } else { c with pinf := true }, false, false)
  | .fin s m e =>
    let k := anchor + 14 - e
    if m = 0 then (c, false, false)
    else if k ≤ 0 || 2 ^ k.toNat ≤ m then ({ c with mo := true }, true, false)
    else
      let n := (quantize .rn s m e false (anchor - 96)).1
      ({ c with n := c.n + (if s then -(n : Int) else n) }, false, n == 0)

/-- Contributions to the cells of a tile from a place on, in cell order; those that begin at the first count one (R318). -/
def Tile.add (t : Tile) (at_ : Nat) (xs : List FVal) : Tile :=
  let rs := (t.cells.drop at_).zipWith (addContribution t.anchor) xs
  { t with cells := t.cells.take at_ ++ rs.map Prod.fst ++ t.cells.drop (at_ + rs.length)
           mo := t.mo || rs.any fun r => r.2.1
           ml := t.ml || rs.any fun r => r.2.2
           count := if at_ = 0 then t.count + 1 else t.count }

/-- One contribution of an operation to the tile at an address, or the rest of one from a cell on: 0x83 where no tile of that width is open, 0x82
beyond the limit; a spilled tile makes it wait (R318, R322, R326). -/
def contribute (s : State) (pa w at_ : Nat) (xs : List FVal) : Eng Unit :=
  match s.tile pa with
  | none => .fail s (.own 0x83#8)
  | some t =>
    if t.spilled then .wait
    else if t.w != w then .fail s (.own 0x83#8)
    else if at_ = 0 && 65535 ≤ t.count then .fail s (.own 0x82#8)
    else .ok { s with tiles := upd (fun x => x.pa == pa) (fun x => x.add at_ xs) s.tiles } ()

/-- The physical address that names the tile of a C shape or of a reduce-copy's destination, translated for a kind of access:
MCLOSE writes C, MOPEN reads it, the passes do neither (R323; as what they are checked is DEDUCED, notes/assumptions/23). -/
def tileAddress (s : State) (x : EngAgent) (sh : Shape) (kind : AKind) : Eng Nat :=
  let va := BitVec.ofNat 64 (shBase sh)
  match s.check x.b.die x.l.asid va 4 kind with
  | .error e => .fail (s.noteErr e) (.mem e.cause va)
  | .ok t => .ok s t.pa

/-- The same for a Hearth operation: a C tile in peer or host memory suspends it with 0x83 (R478). -/
def hearthTile (s : State) (x : EngAgent) (sh : Shape) (kind : AKind) : Eng Nat :=
  (tileAddress s x sh kind).andThen fun s pa => if isHbm pa then .ok s pa else .fail s (.own 0x83#8)

/-! ### Timelines that a TID names (R270, R271, R431, R452) -/

/-- The counter that a TID names for an agent of a function and launch; none is a foreign timeline. -/
def State.counter (s : State) (fn : Nat) (l : Option Launch) (tid : Nat) : Option Nat :=
  let ix := tid % 2 ^ 28
  match tid / 2 ^ 28 with
  | 1 => match s.queue ix with
    | some q => if q.bulk && q.fn == fn then some q.timeline else none
    | none => none
  | 2 => (s.func fn).map fun f => f.stream.timeline
  | 3 => match l with
    | none => none
    | some ln =>
      if ln.nblk ≤ ix then none
      else match ln.block ix with
        | some b => some b.solve.timeline
        | none => some (match ln.finals.find? fun p => p.1 == ix with
          | some p => p.2
          | none => if ix < ln.nextB then Config.lostCount ln.id ix else 0)
  | _ => none

end Sys2Proof.Machine
end

