-- ==== Sys2Proof/Machine/Copies.lean ====
section
/-!
DEFINITION. Machine/Copies.lean: the copy context and its batches (R256, R257), CPY, CPY.HALO and CPY.RED (R258 to R263),
CBATCH, CWAIT and TLWAIT (R264, R265, R271), and the events COPY_COMPLETE and COPY_SUSPEND (R256, R266).
-/
namespace Sys2Proof.Machine

/-! ### The copy context (R256, R269) -/

/-- Copies of the pending set. -/
def CopyCtx.pending (c : CopyCtx) : Nat := (c.ops.filter fun o => o.batch == 0).length

/-! ### Checks at issue (R259 to R263) -/

/-- The pair of formats of a converting copy is one that R261 and R288 accept. -/
def cvOk (s d : Shape) : Bool :=
  match shSlot s, shSlot d with
  | none, none =>
    shGrp s == 0 && shGrp d == 0
      && (if shInt4 s || shInt4 d then (shFmt s == 0x00 && shInt4 d) || (shInt4 s && shFmt d == 0x00) else true)
  | some _, none => (slotFloat (shFmt d)).isSome && shGrp d == 0
  | none, some _ => (slotFloat (shFmt s)).isSome && shGrp s == 0
  | some _, some _ => false

/-- Equal extents in every dimension. -/
def sameExt (s d : Shape) : Bool := dims.all fun k => shExt s k == shExt d k

/-- The extents of a halo copy (R262). -/
def haloOk (s d : Shape) (hd : Nat) : Bool :=
  shLvl s == 2 && shLvl d == 2 && shHaloLo s hd ≤ shExt s hd && shHaloHi s hd ≤ shExt s hd
    && dims.all fun k =>
      if k = hd then shExt d k == shHaloLo s hd + shExt s hd + shHaloHi s hd else shExt d k == shExt s k

/-- The shapes of a reduce-copy (R263). -/
def redOk (s d : Shape) : Bool :=
  shFmt d == 0x07 && shLvl d == 0 && (shExt d 0 == 16 || shExt d 0 == 32) && shExt d 1 == 16 && shExt d 2 == 1
    && shExt d 3 == 1 && shGrp d == 0 && shSpn d == 0 && (hardFloat (shFmt s)).isSome && sameExt s d

/-- The cause that a copy raises at issue, with its address (R259); own is what its form asks of the two shapes. -/
def copyCause (s : State) (e : TEnv) (src dst : Shape) (own : Bool) : Option CauseAt :=
  let size (x : Shape) : Nat := elemBytes x ((s.shapeBinding e.l.asid x).map Binding.ct)
  match s.shapesCause e.l.fn e.l.asid [src, dst] with
  | some c => some (c, 0)
  | none =>
    if shLvl src == 1 || shLvl dst == 1 || !own then some (0x83#8, 0)
    else spanCause e.l src (size src) <|> spanCause e.l dst (size dst)
      <|> (if 64 ≤ e.t.copy.pending then some (0x85#8, 0) else none)

/-- The position of the next copy of the pending set (R256). -/
def CopyCtx.nextPos (c : CopyCtx) : Nat := c.ops.foldl (fun n o => if o.batch = 0 then max n (o.pos + 1) else n) 0

/-- Issue a copy: through the elected lane, it joins the pending set after a release at .clu (R253, R256, R276). A reduce-copy
uses no slot, so no block holds it (R339, R349). -/
def issueCopy (i : Instr) (s : State) (g : Guard) (d a : ShReg) (form xbits : Nat) (bo : Option VReg)
    (own : Shape → Shape → Bool) : Out :=
  issueTeam i s fun e =>
    elect s e g fun k =>
      let src := e.t.shape a
      let dst := e.t.shape d
      if form != 2 && (s.shapeBlocked e.l.asid src || s.shapeBlocked e.l.asid dst) then stall s e
      else
        match copyCause s e src dst (own src dst) with
        | some c => trapAt s e c
        | none =>
          let b := match s.shapeBinding e.l.asid src with
            | some b => some b.id
            | none => (s.shapeBinding e.l.asid dst).map Binding.id
          let op : CopyOp :=
            { key := s.nextKey, batch := 0, pos := e.t.copy.nextPos, form := form, xbits := xbits, src := src, dst := dst
              bo := bo.map fun r => (e.t.seat k).rd2 r.val
              pc := e.cur.pc, progress := 0, susp := none, done := false, flags := 0, bind := b }
          let s := (s.release e.b.runsOn e.agent .clu).hold b (.copy e.l.id e.b.id e.ti)
          retire { s with nextKey := s.nextKey + 1 } e { e.t with copy := { e.t.copy with ops := e.t.copy.ops ++ [op] } }

/-- BO as a bit. -/
def boBit (bo : Option VReg) : Nat := if bo.isSome then 2 else 0

/-- CPY. -/
def execCpy (x : CpyOp) (s : State) : Out :=
  issueCopy (.cpy x) s x.g x.d x.a 0 (boBit x.bo + (if x.cv then 1 else 0)) x.bo fun a d =>
    sameExt a d && (if x.cv then cvOk a d else shFmt a == shFmt d)
/-- CPY.HALO. -/
def execCpyHalo (x : HaloOp) (s : State) : Out :=
  issueCopy (.cpyHalo x) s x.g x.d x.a 1 (x.hd.val * 4 + boBit x.bo) x.bo fun a d => haloOk a d x.hd.val && shFmt a == shFmt d
/-- CPY.RED. -/
def execCpyRed (x : RedOp) (s : State) : Out :=
  issueCopy (.cpyRed x) s x.g x.d x.a 2 (boBit x.bo) x.bo redOk

/-! ### The work of a copy (R260 to R263) -/

/-- CV of a copy. -/
def CopyOp.cv (o : CopyOp) : Bool := o.xbits % 2 == 1
/-- HD of a copy. -/
def CopyOp.hd (o : CopyOp) : Nat := o.xbits / 4 % 4

/-- The types of CVT by FMT (R248, R261). -/
def cvtOfFmt : Nat → CvtTy
  | 0x00 => .i8
  | 0x01 => .n8
  | 0x03 => .i16
  | 0x04 => .i32
  | 0x05 => .f16
  | 0x06 => .bf16
  | 0x07 => .f32
  | _ => .f64

/-- Convert one element between the formats of two shapes (R261): its bits and flags. -/
def convertElem (src dst : Shape) (ct : SlotCt) (v scale : Nat) : FRes :=
  match ct with
  | some c =>
    if (shSlot src).isSome then c.decodeTo v scale ((slotFloat (shFmt dst)).getD fmtF32)
    else c.encode (((slotFloat (shFmt src)).getD fmtF32).unpack v) scale
  | none =>
    if shInt4 src then (((BitVec.ofNat 4 v).signExtend 8).toNat, 0)
    else if shInt4 dst then
      let x := (BitVec.ofNat 8 v).toInt
      ((BitVec.ofInt 4 (if x < -8 then -8 else if 7 < x then 7 else x)).toNat, 0)
    else convert (cvtOfFmt (shFmt src)) (cvtOfFmt (shFmt dst)) false false .rn v

/-- An element to move: where from (none: a zero element; else the block whose level holds it and the index), where to. -/
structure Move where
  src : Option (Nat × Ix)
  dst : Ix
  deriving DecidableEq, Repr

/-- The index with dimension d replaced. -/
def Ix.at (i : Ix) (d v : Nat) : Ix :=
  match d with
  | 0 => { i with i0 := v }
  | 1 => { i with i1 := v }
  | 2 => { i with i2 := v }
  | _ => { i with i3 := v }

/-- Dimension d of an index. -/
def Ix.get (i : Ix) (d : Nat) : Nat :=
  match d with
  | 0 => i.i0
  | 1 => i.i1
  | 2 => i.i2
  | _ => i.i3

/-- The neighbour of a block in its group: one place down or up, round the ends unless HZ is set (R262). -/
def neighbour (l : Launch) (b : Nat) (hz up : Bool) : Option Nat :=
  let g := l.img.clg
  let i := b % g
  if up then (if i + 1 < g then some (b + 1) else if hz then none else some (b - i))
  else (if 0 < i then some (b - 1) else if hz then none else some (b + g - 1))

/-- The moves of a copy, in the order of its destination's indices (R260, R262). -/
def CopyOp.moves (o : CopyOp) (l : Launch) (b : Nat) : List Move :=
  (List.range (shCount o.dst)).filterMap fun n =>
    let i := ixOf o.dst n
    if o.form != 1 then some ⟨some (b, i), i⟩
    else
      let d := o.hd
      let lo := shHaloLo o.src d
      let e := shExt o.src d
      let k := i.get d
      if k < lo then some ⟨(neighbour l b (shHz o.src) false).map fun n => (n, i.at d (e - lo + k)), i⟩
      else if lo + e ≤ k then some ⟨(neighbour l b (shHz o.src) true).map fun n => (n, i.at d (k - lo - e)), i⟩
      else none

/-- Read the source element of a move; a neighbour that is not resident gives a value that nothing constrains. -/
def readMove (s : State) (x : EngAgent) (o : CopyOp) (ct : SlotCt) (m : Move) : Eng Nat :=
  match m.src with
  | none => .ok s 0
  | some (b, i) =>
    if b = x.b.id then engElem s x o.src ct i
    else match x.l.block b with
      | some nb => engElem s { x with b := nb } o.src ct i
      | none =>
        let n := elemBytes o.src ct
        .ok { s with freeCtr := s.freeCtr + n } (elemOfBytes o.src ct i
          (leNat ((List.range n).map fun k => Config.staleByte (s.freeCtr + k))))

/-- Read and convert the elements of moves: bits and flags of each, and how many were read before one failed. -/
def readMoves (s : State) (x : EngAgent) (o : CopyOp) (ct : SlotCt) : List Move → List (Ix × FRes) →
    List (Ix × FRes) × Eng Unit
  | [], acc => (acc.reverse, .ok s ())
  | m :: ms, acc =>
    let sh := if (shSlot o.src).isSome then o.src else o.dst
    let r := (readMove s x o ct m).andThen fun s v =>
      if o.cv then
        (if (shSlot o.src).isSome || (shSlot o.dst).isSome then engScale s x sh m.dst else .ok s s16One).andThen fun s sc =>
          .ok s (convertElem o.src o.dst ct v sc)
      else .ok s (v, 0)
    match r with
    | .ok s v => readMoves s x o ct ms ((m.dst, v) :: acc)
    | .wait => (acc.reverse, .wait)
    | .fail s w => (acc.reverse, .fail s w)

/-- Write elements in order; the number written before one failed. -/
def writeMoves (s : State) (x : EngAgent) (o : CopyOp) (ct : SlotCt) : List (Ix × FRes) → Nat → Nat × Eng Unit
  | [], n => (n, .ok s ())
  | v :: vs, n =>
    match engPutElem s x o.dst ct v.1 v.2.1 with
    | .ok s _ => writeMoves s x o ct vs (n + 1)
    | .wait => (n, .wait)
    | .fail s w => (n, .fail s w)

/-- The flags of elements. -/
def flagsOf (vs : List (Ix × FRes)) : BitVec 7 := vs.foldl (fun f v => f ||| v.2.2) 0

/-- Destination bytes of n elements (R424). -/
def destBytes (o : CopyOp) (ct : SlotCt) (n : Nat) : Nat := if shInt4 o.dst then n / 2 else n * elemBytes o.dst ct
/-- Elements of n destination bytes. -/
def destElems (o : CopyOp) (ct : SlotCt) (n : Nat) : Nat := if shInt4 o.dst then n * 2 else n / elemBytes o.dst ct

/-- Source and destination may share bytes, so nothing of the destination is written before all of the source is read
(R260). -/
def CopyOp.overlaps (o : CopyOp) (ct : SlotCt) : Bool :=
  let a := shSpan o.src (elemBytes o.src ct)
  let b := shSpan o.dst (elemBytes o.dst ct)
  o.form == 0 && shLvl o.src == shLvl o.dst && a.1 ≤ b.2 && b.1 ≤ a.2

/-- What the work of a copy from its progress comes to: all of it done with the flags of what was converted; or, with the state,
the progress and the flags up to a boundary, held back by a full dirty log or suspended. -/
inductive CopyRun where
  | done (s : State) (flags : BitVec 7)
  | held (s : State) (progress : Nat) (flags : BitVec 7)
  | stop (s : State) (progress : Nat) (flags : BitVec 7) (w : Susp)

/-- Reach the destinations of elements for their D bits and dirty records, as far as the log has room (R415). -/
def reachMoves (s : State) (x : EngAgent) (o : CopyOp) (ct : SlotCt) : List (Ix × FRes) → State
  | [] => s
  | v :: vs =>
    match engAccess s x (lvlOf (shLvl o.dst)) (elemAddr o.dst v.1) (elemBytes o.dst ct) .store .plainStore with
    | .ok s _ => reachMoves s x o ct vs
    | _ => s

/-- The state once the elements up to a boundary of 128 bytes are written: the progress and the flags up to there, and the
elements beyond it (R266, R415). -/
def stopAt (s : State) (x : EngAgent) (o : CopyOp) (ct : SlotCt) (from_ : Nat) (vs : List (Ix × FRes)) (n : Nat) :
    State × Nat × BitVec 7 × List (Ix × FRes) :=
  let keep := if o.overlaps ct then from_
    else max from_ (destElems o ct (destBytes o ct (from_ + n) / 128 * 128))
  let done := vs.take (keep - from_)
  match writeMoves s x o ct done 0 with
  | (_, .ok s _) => (s, destBytes o ct keep, flagsOf done, vs.drop (keep - from_))
  | _ => (s, destBytes o ct from_, 0, vs)

/-- The work of CPY and CPY.HALO. -/
def runMove (s : State) (x : EngAgent) (o : CopyOp) (ct : SlotCt) : CopyRun :=
  let from_ := destElems o ct o.progress
  match readMoves s x o ct ((o.moves x.l x.b.id).drop from_) [] with
  | (_, .wait) => .held s o.progress 0
  | (vs, .fail s w) =>
    let r := stopAt s x o ct from_ vs vs.length
    .stop r.1 r.2.1 r.2.2.1 w
  | (vs, .ok s _) =>
    match writeMoves s x o ct vs 0 with
    | (_, .ok s _) => .done s (flagsOf vs)
    | (n, .wait) =>
      let r := stopAt s x o ct from_ vs n
      .held (reachMoves r.1 x o ct r.2.2.2) r.2.1 r.2.2.1
    | (n, .fail s' w) =>
      let r := stopAt s x o ct from_ vs n
      .stop { r.1 with funcs := s'.funcs, intrs := s'.intrs } r.2.1 r.2.2.1 w

/-- The elements that a reduce-copy contributes, by cell. -/
def redElems (s : State) (x : EngAgent) (o : CopyOp) : List Nat → List FVal → Eng (List FVal)
  | [], acc => .ok s acc.reverse
  | n :: ns, acc =>
    match engElem s x o.src none (ixOf o.src n) with
    | .ok s v => redElems s x o ns (((hardFloat (shFmt o.src)).getD fmtF32).unpack v :: acc)
    | .wait => .wait
    | .fail s w => .fail s w

/-- The work of CPY.RED from its progress, in elements: one contribution, included or refused whole (R263, R322). One that leaves
the module for a peer's tile has no effect here (R483). -/
def runRed (s : State) (x : EngAgent) (o : CopyOp) : CopyRun :=
  let r := (tileAddress s x o.dst .store).andThen fun s pa =>
    (redElems s x o ((List.range (shCount o.src)).drop o.progress) []).andThen fun s xs =>
      if isPeer pa then .ok s () else contribute s pa (shExt o.dst 0) o.progress xs
  if shCount o.src ≤ o.progress then .done s 0
  else
    match r with
    | .ok s _ => .done s 0
    | .wait => .held s o.progress 0
    | .fail s w => .stop s o.progress 0 w

/-- The progress of a copy that has only its arrival left. -/
def CopyOp.whole (o : CopyOp) (ct : SlotCt) : Nat := if o.form = 2 then shCount o.src else destBytes o ct (shCount o.dst)

/-- The work of a copy up to its arrival. OPNUM of a refused arrival's record is the batch number, 0 while the copy stands in the
pending set (DESIGN CHOICE, notes/assumptions/36: R258 and R389 give none then). -/
def runCopy (s : State) (x : EngAgent) (o : CopyOp) (ct : SlotCt) : CopyRun :=
  match (if o.form = 2 then runRed s x o else runMove s x o ct) with
  | .done s f =>
    match o.bo with
    | none => .done s f
    | some a =>
      match engArrive s x a with
      | .ok s true => .done s f
      | .ok s false =>
        .done (match x.a with
          | .copy l b t => s.launchError l 7 0x62#8 x.a b t 0 1 o.pos o.batch a .none
          | _ => s) f
      | .wait => .held s (o.whole ct) f
      | .fail s' w => .stop { s with funcs := s'.funcs, intrs := s'.intrs } (o.whole ct) f w
  | r => r

/-! ### The events -/

/-- A copy of a team by its batch and position. -/
def CopyCtx.find (c : CopyCtx) (batch pos : Nat) : Option CopyOp := c.ops.find? fun o => o.batch == batch && o.pos == pos

/-- Change a copy. -/
def State.updCopy (s : State) (l b t batch pos : Nat) (f : CopyOp → CopyOp) : State :=
  s.updTeam l b t fun x => { x with copy := { x.copy with ops := upd (fun o => o.batch == batch && o.pos == pos) f x.copy.ops } }

/-- A copy that may go on: its launch holds it, it is not done and not suspended. -/
def State.copyEnv (s : State) (l b t batch pos : Nat) : Option (EngAgent × CopyOp × SlotCt) :=
  match s.launch l with
  | none => none
  | some ln => match ln.block b with
    | none => none
    | some bk => match bk.teams[t]? with
      | none => none
      | some tm => match tm.copy.find batch pos with
        | none => none
        | some o =>
          if o.done || o.susp.isSome || ln.st != .running || tm.stop then none
          else
            let ct := match o.bind with
              | some i => (s.bindings.find? fun b => b.id == i).map Binding.ct
              | none => none
            some (⟨.copy l b t, o.key, ln, bk⟩, o, ct)

/-- A copy's progress and flags up to a boundary, and the suspension there. -/
def CopyOp.upTo (o : CopyOp) (p : Nat) (f : BitVec 7) (w : Option Susp) : CopyOp :=
  { o with progress := p, flags := o.flags ||| f, susp := w }

/-- COPY_COMPLETE: the copy finishes its writes, arrives on its object, its region ends, and it may complete batches; with the
dirty log full it stops at its next boundary (R415). -/
def execCopyComplete (l b t batch pos : Nat) (s : State) : Out :=
  match s.copyEnv l b t batch pos with
  | none => .next s
  | some (x, o, ct) =>
    match runCopy s x o ct with
    | .done s f =>
      let s := s.updCopy l b t batch pos fun o => { o with done := true, flags := o.flags ||| f, bind := none }
      let s := (s.release1 o.bind x.a).endOp x.a o.key
      .next (s.updTeam l b t fun x => { x with copy := x.copy.advance })
    | .held s p f => .next (s.updCopy l b t batch pos fun o => o.upTo p f none)
    | .stop _ _ _ _ => .next s

/-- COPY_SUSPEND: the failing access suspends the copy at its boundary; one whose team has exited is reported as an error
of the launch (R268). A reduce-copy into a peer's tile may be refused there with 0x83 (R483). -/
def execCopySuspend (l b t batch pos : Nat) (s : State) : Out :=
  match s.copyEnv l b t batch pos with
  | none => .next s
  | some (x, o, ct) =>
    let stopped (s : State) (p : Nat) (f : BitVec 7) (w : Susp) : Out :=
      let s := s.updCopy l b t batch pos fun o => o.upTo p f (some w)
      match s.team l b t with
      | some tm =>
        .next (if tm.exited then s.launchError l 1 w.cause x.a b t w.inner 1 pos batch w.addr (.copyOp batch pos) else s)
      | none => .next s
    match runCopy s x o ct with
    | .stop s p f w => stopped s p f w
    | .done _ _ =>
      match (if o.form = 2 then tileAddress s x o.dst .store else .wait) with
      | .ok s pa => if isPeer pa then stopped s o.progress 0 (.own 0x83#8) else .next s
      | _ => .next s
    | .held _ _ _ => .next s

/-! ### CBATCH, CWAIT, TLWAIT (R264, R265, R271) -/

/-- CBATCH: waits while 32 closed batches are incomplete. -/
def execCbatch (d : VReg) (s : State) : Out :=
  issueTeam (.cbatch d) s fun e =>
    let n := e.t.copy.nextBatch
    if e.t.copy.timeline + 33 ≤ n then stall s e
    else
      let t := e.each always fun y => y.wr2 d.val (BitVec.ofNat 64 n)
      retire s e { t with copy := t.copy.close.advance }

/-- The lane whose operands a wait takes: the lowest active one that is no helper, else the lowest active one. -/
def TEnv.waitLane (e : TEnv) : Option Nat :=
  match e.active.find? fun i => !(e.t.seat i).helper with
  | some i => some i
  | none => e.active.head?

/-- The scope of a wait. -/
def waitScope : WaitScope → Scope
  | .clu => .clu
  | .die => .die
  | .dev => .dev
  | .sys => .sys

/-- A batch is complete, or holds a suspended copy. -/
def CopyCtx.resolved (c : CopyCtx) (b : Nat) : Bool :=
  let mine := c.ops.filter fun o => o.batch == b
  mine.all (fun o => o.done) || mine.any fun o => o.susp.isSome

/-- The suspended copy that a wait up to batch n reports: of the lowest such batch, the lowest position. -/
def CopyCtx.suspended (c : CopyCtx) (n : Nat) : Option CopyOp :=
  let xs := c.ops.filter fun o => 0 < o.batch && o.batch ≤ n && o.susp.isSome
  match xs with
  | [] => none
  | y :: ys => some (ys.foldl (fun a o => if o.batch < a.batch || (o.batch == a.batch && o.pos < a.pos) then o else a) y)

/-- Trap a wait with the cause of a suspended operation; the resumed wait is issued again and the operation goes on. -/
def trapWait (s : State) (e : TEnv) (w : Susp) (pc : DWord) (num pos kind : Nat) (onResume : ResumeTo) : Out :=
  .next (takeTrap s e w.cause { e.info w.cause with
    pc := pc, addr := w.addr, inner := w.inner, opnum := num, oppos := pos, opkind := kind, conflict := w.who, onResume := onResume })

/-- Deliver flags of operations up to n into %asf. -/
def Team.deliverFlags (t : Team) (fs : List (Nat × BitVec 7)) (n : Nat) : Team :=
  t.raise ((fs.filter fun p => p.1 ≤ n).foldl (fun f p => f ||| p.2) 0)

/-- CWAIT. -/
def execCwait (x : WaitOp) (s : State) : Out :=
  issueTeam (.cwait x) s fun e =>
    match e.waitLane with
    | none => retire s e e.t
    | some i =>
      let n := ((e.t.seat i).rd2 x.a.val).toNat
      let c := e.t.copy
      if c.nextBatch ≤ n then trap s e 0x03#8
      else if !(List.range (n - c.timeline)).all (fun k => c.resolved (c.timeline + 1 + k)) then stall s e
      else
        match c.suspended n with
        | some o => match o.susp with
          | some w => trapWait s e w o.pc o.batch o.pos 1 (.copyOp o.batch o.pos)
          | none => stall s e
        | none =>
          if c.timeline < n then stall s e
          else
            let t := e.t.deliverFlags c.flags n
            let t := { t with copy := { t.copy with flags := t.copy.flags.filter fun p => n < p.1 } }
            retire ((s.acquire e.b.runsOn (waitScope x.sc)).endRegion e.agent) e t

/-- TLWAIT. -/
def execTlwait (x : TlwaitOp) (s : State) : Out :=
  issueTeam (.tlwait x) s fun e =>
    match e.waitLane with
    | none => retire s e e.t
    | some i =>
      let y := e.t.seat i
      match s.counter e.l.fn (some e.l) (y.rd x.a.val).toNat with
      | none => trap s e 0x86#8
      | some k =>
        if k < (y.rd2 x.b.val).toNat then stall s e
        else retire ((s.acquire e.b.runsOn (if x.sys then .sys else .dev)).endRegion e.agent) e e.t

end Sys2Proof.Machine
end

