-- ==== Sys2Proof/Machine/Hearth.lean ====
section
/-!
DEFINITION. Machine/Hearth.lean: the Hearth: its reservation table (R302 to R305), operands (R306 to R311), the arithmetic
of a pass (R312 to R314), opening and closing merge tiles (R315 to R320), the instructions (R329 to R336) and the events
of an operation (R304, R315, R321, R324, R333).
-/
namespace Sys2Proof.Machine

/-! ### Formats (R306) -/

/-- Kd and the registers of one pass: for a dense or a sparse form; none where the form is not accepted. -/
def passShape (f : FmFmt) (ct : SlotCt) (sparse : Bool) : Option (Nat × Nat) :=
  let one (kd rpp : Nat) : Option (Nat × Nat) := some (if sparse then (4 * kd, 4 * rpp) else (kd, rpp))
  let two : Option (Nat × Nat) := if sparse then none else some (16, 4)
  match f with
  | .i8 | .n8 => one 32 4
  | .i4 => one 64 4
  | .i16 | .f16 | .bf16 => two
  | .slot _ => match ct with
    | none => none
    | some c => if c.ew ≤ 6 then one 64 8 else if c.ew ≤ 8 then one 32 4 else if c.ew ≤ 16 then two else none

/-- The FMT code of FM (R248, R306). -/
def fmtCode : FmFmt → Nat
  | .i8 => 0x00
  | .n8 => 0x01
  | .i4 => 0x02
  | .i16 => 0x03
  | .f16 => 0x05
  | .bf16 => 0x06
  | .slot k => 0x10 + k.val

/-- The stored elements of each group of 32 in a sparse form (R311). -/
def spN : SpMode → Nat
  | .dense => 0
  | .sp8 => 8
  | .sp16 => 16
  | .sp24 => 24

/-- FM of an operation's word. -/
def HOp.fm (o : HOp) : FmFmt := (FmFmt.ofCode (bitsAt o.word 3 5)).getD .i8
/-- SP of an operation's word. -/
def HOp.sp (o : HOp) : SpMode := SpMode.ofCode (bitsAt o.word 8 2)
/-- SA of an operation's word. -/
def HOp.sa (o : HOp) : Bool := o.word.getLsbD 11
/-- HF of an operation's word. -/
def HOp.hf (o : HOp) : Bool := o.word.getLsbD 10
/-- OS of MCLOSE. -/
def HOp.os (o : HOp) : Int := (o.word.extractLsb' 4 7).toInt

/-- The value of an element's bits in a format (R28, R31, R280). -/
def elemValue (f : FmFmt) (ct : SlotCt) (n : Nat) : FVal :=
  let int (v : Int) : FVal := .fin (v < 0) v.natAbs 0
  match f with
  | .i8 => int (BitVec.ofNat 8 n).toInt
  | .n8 => int (n % 256 : Nat)
  | .i4 => int (BitVec.ofNat 4 n).toInt
  | .i16 => int (BitVec.ofNat 16 n).toInt
  | .f16 => fmtF16.unpack (n % 2 ^ 16)
  | .bf16 => fmtBf16.unpack (n % 2 ^ 16)
  | .slot _ => match ct with
    | some c => c.decode (n % 2 ^ c.ew)
    | none => .nan false

/-! ### The arithmetic of a pass (R312 to R314) -/

/-- A scale's value in units of 2^-133; none for a NaN. -/
def scaleUnits (c : Nat) : Option Nat := (s16 c).map fun p => p.1 * 2 ^ (p.2 + 133).toNat

/-- A finite value in units of 2^-133. -/
def units133 : FVal → Int
  | .fin s m e => let v : Int := (m * 2 ^ (e + 133).toNat : Nat); if s then -v else v
  | _ => 0

/-- One present reduction index: the elements of A and B, and their scale codes. -/
structure PTerm where
  a : FVal
  b : FVal
  sa : Nat
  sb : Nat
  deriving DecidableEq, Repr

/-- Whether a value is an infinity. -/
def FVal.isInf : FVal → Bool
  | .inf _ => true
  | _ => false
/-- Whether a value is a zero. -/
def FVal.isZero : FVal → Bool
  | .fin _ m _ => m == 0
  | _ => false

/-- A NaN element or scale. -/
def PTerm.nan (t : PTerm) : Bool := t.a.isNan || t.b.isNan || (s16 t.sa).isNone || (s16 t.sb).isNone
/-- A scale is zero. -/
def PTerm.zeroScale (t : PTerm) : Bool := scaleUnits t.sa == some 0 || scaleUnits t.sb == some 0
/-- The sign of the product term. -/
def PTerm.sign (t : PTerm) : Bool := t.a.sign != t.b.sign
/-- The product term is infinite. -/
def PTerm.inf (t : PTerm) : Bool := t.a.isInf || t.b.isInf
/-- The product term is zero. -/
def PTerm.zero (t : PTerm) : Bool := t.a.isZero || t.b.isZero || t.zeroScale
/-- An infinite element meets a zero element or a zero scale. -/
def PTerm.infZero (t : PTerm) : Bool := t.inf && t.zero
/-- The product term in units of 2^-532. -/
def PTerm.value (t : PTerm) : Int :=
  units133 t.a * units133 t.b * ((scaleUnits t.sa).getD 0 * (scaleUnits t.sb).getD 0 : Nat)

/-- Round a sum in units of 2^-532 once to FP32; 0 gives +0. -/
def roundSum (v : Int) : Nat := (fmtF32.roundFin .rn false (v < 0) v.natAbs (-532)).1

/-- The partial of an MMA pass for one element of C. -/
def mmaPartial (ts : List PTerm) : Nat :=
  if ts.any PTerm.nan || ts.any PTerm.infZero then fmtF32.cnan
  else
    let pos := ts.any fun t => t.inf && !t.sign
    let neg := ts.any fun t => t.inf && t.sign
    if pos && neg then fmtF32.cnan
    else if pos then fmtF32.infinity false
    else if neg then fmtF32.infinity true
    else
      let v := ts.foldl (fun a t => a + t.value) 0
      if v = 0 && !ts.isEmpty && ts.all (fun t => t.zero && t.sign) then fmtF32.zero true else roundSum v

/-- An infinite element meets its own zero scale. -/
def PTerm.infOwnZero (t : PTerm) : Bool :=
  (t.a.isInf && scaleUnits t.sa == some 0) || (t.b.isInf && scaleUnits t.sb == some 0)
/-- Infinities of equal sign in one difference. -/
def PTerm.infInf (t : PTerm) : Bool := t.a.isInf && t.b.isInf && t.a.sign == t.b.sign
/-- The squared difference in units of 2^-532. -/
def PTerm.square (t : PTerm) : Int :=
  let d : Int := units133 t.a * (scaleUnits t.sa).getD 0 - units133 t.b * (scaleUnits t.sb).getD 0
  d * d

/-- The partial of an MDIST pass for one element of C. -/
def mdistPartial (ts : List PTerm) : Nat :=
  if ts.any PTerm.nan || ts.any PTerm.infOwnZero || ts.any PTerm.infInf then fmtF32.cnan
  else if ts.any PTerm.inf then fmtF32.infinity false
  else roundSum (ts.foldl (fun a t => a + t.square) 0)

/-! ### Operands of a pass (R307 to R311) -/

/-- The bits of an element at byte offset o within row i of A, of n bytes, in the registers of a pass. -/
def aBytes (t : Team) (sweep reg rpp i o n : Nat) : Nat :=
  leNat ((List.range n).map fun k =>
    let o := o + k
    let y := t.seat (32 * sweep + 2 * i + o / (4 * rpp))
    (y.rd (reg + o % (4 * rpp) / 4)).extractLsb' (8 * (o % 4)) 8)

/-- Element (i, k) of A in a pass whose registers start at reg (R307). -/
def aElem (t : Team) (o : HOp) (ct : SlotCt) (reg i k : Nat) : FVal :=
  match o.fm with
  | .i4 => elemValue .i4 ct (aBytes t o.sweep reg o.rpp i (k / 2) 1 / (if k % 2 = 1 then 16 else 1) % 16)
  | f =>
    let cb := elemBytes o.bSh ct
    elemValue f ct (aBytes t o.sweep reg o.rpp i (k * cb) cb)

/-- Run work over a list, collecting what it gives. -/
def engMap {α β : Type} (f : State → α → Eng β) : State → List α → Eng (List β)
  | s, [] => .ok s []
  | s, x :: xs => (f s x).andThen fun s v => (engMap f s xs).andThen fun s vs => .ok s (v :: vs)

/-- The dense indices, within a group of 32, that a bitmap holds. -/
def presentBits (m : Nat) : List Nat := (List.range 32).filter m.testBit

/-- The elements of column j of B in a pass: dense reduction index and bits (R309, R311). -/
def bColumn (s : State) (x : EngAgent) (o : HOp) (ct : SlotCt) (kd p j : Nat) : Eng (List (Nat × Nat)) :=
  let sh := o.bSh
  let lv := lvlOf (shLvl sh)
  match o.sp with
  | .dense =>
    engMap (fun s k => (engElem s x sh ct ⟨k, j, 0, 0⟩).andThen fun s v => .ok s (k, v)) s
      ((List.range kd).map fun k => p * kd + k)
  | sp =>
    let n := spN sp
    let groups := shExt sh 0 / 32
    let one (s : State) (g : Nat) : Eng (List (Nat × Nat)) :=
      (engGet s x lv (shMbase sh + 4 * (g + groups * j)) 4).andThen fun s bs =>
        let ks := presentBits (leNat bs)
        if ks.length != n then .fail s (.own 0x81#8)
        else engMap (fun s (q : Nat × Nat) =>
          (engElem s x sh ct ⟨g * n + q.1, j, 0, 0⟩).andThen fun s v => .ok s (32 * g + q.2, v)) s
            ((List.range n).zip ks)
    (engMap one s ((List.range (kd / 32)).map fun g => p * (kd / 32) + g)).andThen fun s vs => .ok s vs.flatten

/-- The group length of an operation's scales; 0 where neither operand has any (R310). -/
def HOp.grp (o : HOp) : Nat := max (shGrp o.bSh) (if o.sa then shGrp o.aSh else 0)

/-- The first reduction indices of the scale groups that a pass meets. -/
def groupHeads (grp kd p : Nat) : List Nat :=
  if grp = 0 then [p * kd]
  else ((List.range kd).map fun k => (p * kd + k) / grp).eraseDups.map fun g => g * grp

/-- The scales of a row of A or a column of B in a pass, by group (R310). -/
def scalesOf (s : State) (x : EngAgent) (sh : Shape) (on : Bool) (o : HOp) (kd p ij : Nat) : Eng (List Nat) :=
  engMap (fun s k => if on then engScale s x sh ⟨k, ij, 0, 0⟩ else .ok s s16One) s (groupHeads o.grp kd p)

/-- The place, among the groups of a pass, of the group of a reduction index. -/
def groupPlace (grp kd p k : Nat) : Nat := if grp = 0 then 0 else k / grp - p * kd / grp

/-- The columns of C. -/
def HOp.width (o : HOp) : Nat := shExt o.cSh 0

/-- The partials of a pass, element (i, j) at i × W + j (R333). -/
def passParts (s : State) (x : EngAgent) (t : Team) (o : HOp) (ct : SlotCt) (p : Nat) : Eng (List FVal) :=
  match passShape o.fm ct o.sp.sparse with
  | none => .fail s (.own 0x03#8)
  | some (kd, _) =>
    (engMap (fun s j => bColumn s x o ct kd p j) s (List.range o.width)).andThen fun s bs =>
    (engMap (fun s j => scalesOf s x o.bSh true o kd p j) s (List.range o.width)).andThen fun s sb =>
    (engMap (fun s i => scalesOf s x o.aSh o.sa o kd p i) s (List.range 16)).andThen fun s sa =>
      let reg := o.reg + p * o.rpp
      let part (i j : Nat) : FVal :=
        let ts : List PTerm := (bs.getD j []).map fun q =>
          let g := groupPlace o.grp kd p q.1
          ⟨aElem t o ct reg i (q.1 - p * kd), elemValue o.fm ct q.2, (sa.getD i []).getD g s16One,
           (sb.getD j []).getD g s16One⟩
        fmtF32.unpack (if o.kind == .mdist then mdistPartial ts else mmaPartial ts)
      .ok s ((List.range 16).flatMap fun i => (List.range o.width).map fun j => part i j)

/-! ### Opening and closing a tile (R315 to R320) -/

/-- The elements of the C tile in memory, in cell order. -/
def readTile (s : State) (x : EngAgent) (sh : Shape) : Eng (List FVal) :=
  engMap (fun s n => (engElem s x sh none (ixOf sh n)).andThen fun s v => .ok s (fmtF32.unpack v)) s (List.range (shCount sh))

/-- The anchor of a tile that opens (R316). -/
def anchorOf (sh : Shape) (vs : List FVal) : Int :=
  match shAnch sh with
  | some a => a
  | none =>
    let es := vs.filterMap fun v => match v with
      | .fin _ m e => if m = 0 then none else some (e + bitLength m - 1)
      | _ => none
    match es with
    | [] => 24
    | e :: es => max (-127) (min 127 (es.foldl max e + 8))

/-- The work of MOPEN: 0x83 where the tile is open already (R324, R331). -/
def openTile (s : State) (x : EngAgent) (o : HOp) : Eng Unit :=
  (hearthTile s x o.cSh .load).andThen fun s pa =>
    if (s.tile pa).isSome then .fail s (.own 0x83#8)
    else
      (readTile s x o.cSh).andThen fun s vs =>
        let t : Tile :=
          { pa := pa, cva := BitVec.ofNat 64 (shBase o.cSh), asid := x.l.asid, anchor := anchorOf o.cSh vs, w := o.width,
            count := 0, mo := false, ml := false
            cells := List.replicate (16 * o.width) ⟨false, false, false, false, 0⟩
            owner := x.a, num := o.num, spilled := false }
        .ok { s with tiles := s.tiles ++ [t.add 0 vs] } ()

/-- The bits that a cell closes to: never -0 (R319). -/
def closeCell (anchor os : Int) (c : MCell) : Nat :=
  if c.nan || c.mo || (c.pinf && c.ninf) then fmtF32.cnan
  else if c.pinf then fmtF32.infinity false
  else if c.ninf then fmtF32.infinity true
  else
    let r := (fmtF32.roundFin .rn false (c.n < 0) c.n.natAbs (anchor - 96 + os)).1
    if r = fmtF32.zero true then fmtF32.zero false else r

/-- Reach the elements of C from one on for their D bits and dirty records, as far as the log has room (R415). -/
def reachTile (x : EngAgent) (sh : Shape) : List Nat → State → State
  | [], s => s
  | n :: ns, s =>
    match engAccess s x (lvlOf (shLvl sh)) (elemAddr sh (ixOf sh n)) 4 .store .plainStore with
    | .ok s _ => reachTile x sh ns s
    | _ => s

/-- The work of MCLOSE, with the tile's MO and ML: 0x83 where no tile of that width is open (R322, R324). -/
def closeTile (s : State) (x : EngAgent) (o : HOp) : Eng (BitVec 7) :=
  (hearthTile s x o.cSh .store).andThen fun s pa =>
    match s.tile pa with
    | none => .fail s (.own 0x83#8)
    | some t =>
      if t.spilled then .wait
      else if t.w != o.width then .fail s (.own 0x83#8)
      else
        (engMap (fun s (q : Nat × MCell) => engPutElem s x o.cSh none (ixOf o.cSh q.1) (closeCell t.anchor o.os q.2)) s
          ((List.range t.cells.length).zip t.cells)).andThen fun s _ =>
            .ok { s with tiles := s.tiles.filter fun u => u.pa != pa } ((if t.mo then 0x20 else 0) ||| (if t.ml then 0x40 else 0))

/-- MCLOSE finds its tile in merge cells. -/
def State.closes (s : State) (x : EngAgent) (o : HOp) : Bool :=
  match hearthTile s x o.cSh .store with
  | .ok s pa => (s.tile pa).any fun t => !t.spilled
  | _ => false

/-! ### MTOPK (R334, R335) -/

/-- The order of MTOPK: NaN above +∞, -0 equal to +0. -/
def topKey (bits32 : Nat) : Int :=
  match fmtF32.unpack bits32 with
  | .nan _ => 2 ^ 31
  | _ => let m : Int := (bits32 % 2 ^ 31 : Nat); if bits32.testBit 31 then -m else m

/-- Put a candidate behind those that are not above it. -/
def insertTop (c : Nat × Nat) : List (Nat × Nat) → List (Nat × Nat)
  | [] => [c]
  | d :: ds => if topKey c.1 < topKey d.1 then c :: d :: ds else d :: insertTop c ds

/-- The k smallest of a row with their indices. -/
def topOf (k : Nat) (row : List Nat) : List (Nat × Nat) :=
  (row.zip (List.range row.length)).foldl (fun a c => (insertTop c a).take k) []

/-- The rows of the tile. -/
def topRows (s : State) (x : EngAgent) (sh : Shape) : Eng (List (List Nat)) :=
  engMap (fun s r => engMap (fun s n => engElem s x sh none ⟨n, r, 0, 0⟩) s (List.range (shExt sh 0))) s (List.range 16)

/-- Write the registers of a row's two seats. -/
def Team.putTop (t : Team) (o : HOp) (r : Nat) (best : List (Nat × Nat)) : Team :=
  let vals : List Word := (List.range o.np).map fun i => match best[i]? with
    | some c => BitVec.ofNat 32 c.1
    | none => 0x7F800000#32
  let ixs : List Word := (List.range o.np).map fun i => match best[i]? with
    | some c => o.base + BitVec.ofNat 32 c.2
    | none => 0xFFFFFFFF#32
  { t with seats := t.seats.mapIdx fun n y =>
      if n = 32 * o.sweep + 2 * r then y.wrs o.reg vals
      else if n = 32 * o.sweep + 2 * r + 1 then y.wrs o.reg ixs
      else y }

/-! ### Issue (R330 to R334) -/

/-- The conditions of MOPEN and MCLOSE on a C shape (R331). -/
def cOk (x : Shape) : Bool :=
  shFmt x == 0x07 && shLvl x == 0 && (shExt x 0 == 16 || shExt x 0 == 32) && shExt x 1 == 16 && shExt x 2 == 1
    && shExt x 3 == 1 && shGrp x == 0 && shSpn x == 0

/-- A kind that needs a quadrant (R302). -/
def HKind.quad : HKind → Bool
  | .mopen | .mclose => false
  | _ => true

/-- The operation holds a reservation entry (R303). -/
def HOp.entry (o : HOp) : Bool := o.kind.quad && (o.waiting || o.granted) && o.susp.isNone

/-- Reservation entries held in a cluster. -/
def State.entries (s : State) (die cluster : Nat) : Nat :=
  s.launches.foldl (fun n l => l.blocks.foldl (fun n b =>
    if b.runsOn.die = die && b.runsOn.cluster = cluster then
      b.teams.foldl (fun n t => n + (t.hearth.ops.filter HOp.entry).length) n
    else n) n) 0

/-- An operation as it is issued. -/
def HOp.new (kind : HKind) (e : TEnv) (k tick : Nat) : HOp where
  num := e.t.hearth.nextNum
  kind := kind
  word := e.cur.word
  pc := e.cur.pc
  sweep := k / 32
  cSh := 0
  bSh := 0
  aSh := 0
  base := 0
  reg := 0
  rpp := 0
  np := 0
  passes := 0
  waiting := kind.quad
  granted := false
  age := tick
  susp := none
  bind := none

/-- Issue an operation: it waits while 64 are incomplete or its table is full; a release at .clu precedes it (R303, R321,
R330). -/
def postOp (s : State) (e : TEnv) (o : HOp) (num : Option VReg) : Out :=
  if 64 ≤ e.t.hearth.ops.length || (o.kind.quad && 32 ≤ s.entries e.b.runsOn.die e.b.runsOn.cluster) then stall s e
  else
    let t := match num with
      | some r => e.each always fun y => y.wr2 r.val (BitVec.ofNat 64 o.num)
      | none => e.t
    let s := (s.release e.b.runsOn e.agent .clu).hold o.bind (.hearth e.l.id e.b.id e.ti)
    let t : Team := { t with hearth := { t.hearth with ops := t.hearth.ops ++ [o], nextNum := o.num + 1 } }
    retire s e { t with sb := t.boards t.pend }

/-- Issue MOPEN or MCLOSE, which use no slot, so that no block holds them (R339, R349). -/
def openClose (i : Instr) (s : State) (g : Guard) (c : ShReg) (num : Option VReg) (kind : HKind) : Out :=
  issueTeam i s fun e =>
    elect s e g fun k =>
      let sh := e.t.shape c
      match s.shapeCause e.l.fn e.l.asid sh with
      | some c => trap s e c
      | none =>
        if !cOk sh then trap s e 0x83#8
        else postOp s e { HOp.new kind e k s.tick with cSh := sh } num

/-- MOPEN. -/
def execMopen (x : MopenOp) (s : State) : Out := openClose (.mopen x) s x.g x.c x.num .mopen
/-- MCLOSE. -/
def execMclose (x : McloseOp) (s : State) : Out := openClose (.mclose x) s x.g x.c x.num .mclose

/-- Two extents of 1 in the outer dimensions. -/
def flat2 (x : Shape) : Bool := shExt x 2 == 1 && shExt x 3 == 1

/-- The shapes of MMA and MDIST agree (condition 4 of R333). -/
def mmaShapesOk (x : MmaOp) (c b : Shape) (a : Option Shape) (kd : Nat) : Bool :=
  cOk c && shExt c 0 == (if x.hf then 16 else 32)
    && (shLvl b == 2 || shLvl b == 3) && shExt b 0 == (x.np.val + 1) * kd && shExt b 1 == shExt c 0 && flat2 b
    && shSpn b == spN x.sp
    && (match a with
      | none => true
      | some a =>
        shExt a 0 == (x.np.val + 1) * kd && shExt a 1 == 16 && flat2 a && shGrp a != 0 && shLvl a != 1
          && (shGrp b == 0 || shGrp b == shGrp a))

/-- The stored tile of B: in a sparse form N elements for each 32 of dimension 0 (R311). -/
def storedB (x : MmaOp) (b : Shape) : Shape :=
  if x.sp.sparse then putField b 80 24 (shExt b 0 / 32 * spN x.sp) else b

/-- The cause of B's metadata outside its level. -/
def metaCause (l : Launch) (x : MmaOp) (b : Shape) : Option CauseAt :=
  if x.sp.sparse then rangeCause l b (shMbase b) ((shMbase b + 4 * (shExt b 0 / 32 * shExt b 1) : Nat) - 1) else none

/-- The conditions of order 7 of MMA and MDIST, in order (R333): the first cause with its address, or the registers of one pass. -/
def mmaCheck (s : State) (e : TEnv) (x : MmaOp) (c b : Shape) (a : Option Shape) : Except CauseAt Nat :=
  let ct (y : Shape) : SlotCt := (s.shapeBinding e.l.asid y).map Binding.ct
  match s.shapesCause e.l.fn e.l.asid ([c, b] ++ a.toList) with
  | some k => .error (k, 0)
  | none =>
    let fct : SlotCt := match x.fm with
      | .slot k => (s.boundTo e.l.asid k.val).map Binding.ct
      | _ => none
    let unbound := match x.fm with
      | .slot _ => fct.isNone
      | _ => false
    if unbound then .error (0x84#8, 0)
    else
      match passShape x.fm fct x.sp.sparse with
      | none => .error (0x03#8, 0)
      | some (kd, rpp) =>
        if shFmt b != fmtCode x.fm || a.any (fun y => shFmt y != fmtCode x.fm) then .error (0x80#8, 0)
        else if !mmaShapesOk x c b a kd then .error (0x83#8, 0)
        else if e.l.img.regs < x.a.val + (x.np.val + 1) * rpp then .error (0x03#8, 0)
        else
          match spanCause e.l (storedB x b) (elemBytes b (ct b)) <|> scaleSpanCause e.l b <|> metaCause e.l x b
              <|> a.bind (scaleSpanCause e.l) with
          | some k => .error k
          | none => .ok rpp

/-- Issue MMA or MDIST; only the slot of FM is used (R339), and its block holds the instruction (R349). -/
def mmaOp (i : Instr) (s : State) (x : MmaOp) (kind : HKind) : Out :=
  issueTeam i s fun e =>
    elect s e x.g fun k =>
      let c := e.t.shape x.c
      let b := e.t.shape x.b
      let a := x.sa.map e.t.shape
      let slot := match x.fm with
        | .slot j => some j.val
        | _ => none
      if slot.any (s.slotBlocked e.l.asid) then stall s e
      else
        match mmaCheck s e x c b a with
        | .error c => trapAt s e c
        | .ok rpp =>
          if e.t.pend.any fun p => meets p.reg p.count x.a.val ((x.np.val + 1) * rpp) then stall s e
          else
            postOp s e { HOp.new kind e k s.tick with
              cSh := c, bSh := b, aSh := a.getD 0, reg := x.a.val, rpp := rpp, np := x.np.val + 1
              bind := (slot.bind (s.boundTo e.l.asid)).map Binding.id } none

/-- MMA. -/
def execMma (x : MmaOp) (s : State) : Out := mmaOp (.mma x) s x .mma
/-- MDIST. -/
def execMdist (x : MmaOp) (s : State) : Out := mmaOp (.mdist x) s x .mdist

/-- The tile that MTOPK accepts. -/
def topOk (x : Shape) : Bool :=
  shFmt x == 0x07 && shLvl x != 1 && shExt x 1 == 16 && shExt x 0 ≤ 65536 && flat2 x && shGrp x == 0 && shSpn x == 0

/-- WBS of the word in hand, where the schedule is honoured (R59). -/
def TEnv.wbs (e : TEnv) : Bool := e.l.honoured e.cur.pc && (e.cur.sched.getD 0).getLsbD 15

/-- MTOPK: it uses no slot (R339), and its SBSET and WBS go with the operation (R59). -/
def execMtopk (x : MtopkOp) (s : State) : Out :=
  issueTeam (.mtopk x) s fun e =>
    elect s e x.g fun k =>
      let sh := e.t.shape x.a
      match s.shapeCause e.l.fn e.l.asid sh with
      | some c => trap s e c
      | none =>
        if !topOk sh then trap s e 0x83#8
        else
          match spanCause e.l sh 4 with
          | some c => trapAt s e c
          | none =>
            postOp s e { HOp.new .mtopk e k s.tick with
              cSh := sh, base := (e.t.seat k).rd x.b.val, reg := x.d.val, rpp := 1, np := x.k.val + 1
              sb := e.sbSet, wbs := e.wbs } none

/-! ### MWAIT (R336) -/

/-- MWAIT up to operation n: reports the operation that holds the timeline back suspended, else waits, else delivers MO
and ML and acquires. -/
def hearthWait (s : State) (e : TEnv) (n : Nat) (sc : WaitScope) : Out :=
  let h := e.t.hearth
  match h.ops.find? fun o => o.num ≤ n && o.susp.isSome with
  | some o => match o.susp with
    | some w => trapWait s e w e.cur.pc o.num o.passes 2 (.hearthOp o.num)
    | none => stall s e
  | none =>
    if h.timeline < n then stall s e
    else
      let t := e.t.deliverFlags h.flags n
      let t := { t with hearth := { t.hearth with flags := t.hearth.flags.filter fun p => n < p.1 } }
      retire ((s.acquire e.b.runsOn (waitScope sc)).endRegion e.agent) e t

/-- MWAIT. -/
def execMwait (x : WaitOp) (s : State) : Out :=
  issueTeam (.mwait x) s fun e =>
    match e.waitLane with
    | none => retire s e e.t
    | some i =>
      let n := ((e.t.seat i).rd2 x.a.val).toNat
      if e.t.hearth.nextNum ≤ n then trap s e 0x03#8 else hearthWait s e n x.sc

/-- MWAIT.all. -/
def execMwaitAll (sc : WaitScope) (s : State) : Out :=
  issueTeam (.mwaitAll sc) s fun e =>
    match e.waitLane with
    | none => retire s e e.t
    | some _ => hearthWait s e (e.t.hearth.nextNum - 1) sc

/-! ### The events of an operation -/

/-- Change an operation. -/
def State.updHOp (s : State) (l b t n : Nat) (f : HOp → HOp) : State :=
  s.updTeam l b t fun x => { x with hearth := { x.hearth with ops := upd (fun o => o.num == n) f x.hearth.ops } }

/-- The operation that may go on: the oldest of its context (R321), not suspended, of a launch that runs. -/
def State.hearthEnv (s : State) (l b t n : Nat) : Option (EngAgent × Team × HOp × SlotCt) :=
  match s.launch l with
  | none => none
  | some ln => match ln.block b with
    | none => none
    | some bk => match bk.teams[t]? with
      | none => none
      | some tm => match tm.hearth.ops with
        | [] => none
        | o :: _ =>
          if o.num != n || o.susp.isSome || ln.st != .running || tm.stop || (o.kind.quad && !o.granted) then none
          else
            let ct := match o.bind with
              | some i => (s.bindings.find? fun b => b.id == i).map Binding.ct
              | none => none
            some (⟨.hearth l b t, o.num, ln, bk⟩, tm, o, ct)

/-- The work of a pass: its partials merge whole as one contribution. DESIGN CHOICE (R324 gives no order of its causes,
notes/assumptions/36): the first that fails is reported, of C's address, B with its bitmaps column by column, B's scales, A's scales,
the tile not open, and the limit. -/
def passWork (s : State) (x : EngAgent) (t : Team) (o : HOp) (ct : SlotCt) : Eng Unit :=
  (hearthTile s x o.cSh .load).andThen fun s pa =>
    (passParts s x t o ct o.passes).andThen fun s vs => contribute s pa o.width 0 vs

/-- What the next work of an operation comes to: the state, the flags a close holds, and what it does to the team. -/
def opWork (s : State) (x : EngAgent) (t : Team) (o : HOp) (ct : SlotCt) : Eng (BitVec 7 × (Team → Team)) :=
  match o.kind with
  | .mopen => (openTile s x o).andThen fun s _ => .ok s (0, id)
  | .mclose => (closeTile s x o).andThen fun s f => .ok s (f, id)
  | .mtopk => (topRows s x o.cSh).andThen fun s rows => .ok s (0, fun t =>
      ((List.range rows.length).zip (rows.map (topOf o.np))).foldl (fun t q => t.putTop o q.1 q.2) t)
  | .mma | .mdist => if o.passes < o.np then (passWork s x t o ct).andThen fun s _ => .ok s (0, id) else .ok s (0, id)

/-- HEARTH_PASS: a granted MMA or MDIST reads A, forms its partials and merges them. -/
def execHearthPass (l b t n : Nat) (s : State) : Out :=
  match s.hearthEnv l b t n with
  | none => .next s
  | some (x, tm, o, ct) =>
    if o.kind.quad && o.kind != .mtopk && o.passes < o.np then
      match passWork s x tm o ct with
      | .ok s _ => .next (s.updHOp l b t n fun o => { o with passes := o.passes + 1 })
      | _ => .next s
    else .next s

/-- An operation retires: its entry is freed, its binding given back, its region ends, and the timeline advances. -/
def State.retireOp (s : State) (l b t : Nat) (o : HOp) (f : BitVec 7) (g : Team → Team) : State :=
  let s := (s.release1 o.bind (.hearth l b t)).endOp (.hearth l b t) o.num
  s.updTeam l b t fun x =>
    let x := if o.wbs then x else g x
    let x : Team := { x with hearth := { x.hearth with
      ops := x.hearth.ops.filter (fun p => p.num != o.num), timeline := o.num
      flags := if f = 0 then x.hearth.flags else x.hearth.flags ++ [(o.num, f)] } }
    { x with sb := x.boards x.pend }

/-- The merge cells of a die: 64 slices of 16,384 (R315). -/
def dieCells : Nat := 64 * 16384

/-- Tiles in merge cells. -/
def State.openTiles (s : State) : List Tile := s.tiles.filter fun t => !t.spilled

/-- The cells of tiles. -/
def cellsOf (ts : List Tile) : Nat := (ts.map fun t => t.cells.length).sum

/-- The tiles in merge cells whose home may lie on the die of an address's home. -/
def State.tilesNear (s : State) (pa : Nat) : List Tile :=
  s.openTiles.filter fun t => homeDie t.pa == homeDie pa || (homeDie t.pa).isNone || (homeDie pa).isNone

/-- Tiles fit, as far as the dies of their homes are known, into the cells of each die and of the device. -/
def cellsFit (ts : List Tile) : Bool :=
  cellsOf ts ≤ 4 * dieCells
    && (List.range 4).all fun d => cellsOf (ts.filter fun t => homeDie t.pa == some d) ≤ dieCells

/-- The work of MOPEN finds room for the tile's cells. -/
def State.roomToOpen (s : State) (x : EngAgent) (o : HOp) : Bool :=
  match openTile s x o with
  | .ok s _ => cellsFit s.openTiles
  | _ => true

/-- MOPEN may find no cells: 32 or more tiles may be open with their homes on the die of its own (R315). -/
def State.mayLackCells (s : State) (x : EngAgent) (o : HOp) : Bool :=
  match hearthTile s x o.cSh .load with
  | .ok _ pa => 32 ≤ (s.tilesNear pa).length
  | _ => false

/-- HEARTH_OP_COMPLETE: MMA and MDIST after their last pass; MOPEN, MCLOSE and MTOPK whole. An MOPEN finds its cells at
once while fewer than 32 tiles are open on its die; beyond that whether it does is a free value, and it waits else (R315). -/
def execHearthOpComplete (l b t n : Nat) (s : State) : Out :=
  match s.hearthEnv l b t n with
  | none => .next s
  | some (x, tm, o, ct) =>
    if (o.kind == .mma || o.kind == .mdist) && o.passes < o.np then .next s
    else if o.kind == .mopen && o.waiting then .next s
    else if o.kind == .mopen && s.mayLackCells x o && (!s.roomToOpen x o || Config.freeBit s.freeCtr) then
      .next ({ s with freeCtr := s.freeCtr + 1 }.updHOp l b t n fun o => { o with waiting := true })
    else
      match opWork s x tm o ct with
      | .ok s r => .next (s.retireOp l b t o r.1 r.2)
      | .wait => .next (if o.kind == .mclose && s.closes x o then reachTile x o.cSh (List.range (shCount o.cSh)) s else s)
      | _ => .next s

/-- MOPEN_CELLS_AVAILABLE: a waiting MOPEN proceeds. -/
def execMopenCellsAvailable (l b t n : Nat) (s : State) : Out :=
  match s.hearthEnv l b t n with
  | none => .next s
  | some (x, tm, o, ct) =>
    if o.kind == .mopen && o.waiting && s.roomToOpen x o then
      match opWork s x tm o ct with
      | .ok s r => .next (s.retireOp l b t o r.1 r.2)
      | _ => .next s
    else .next s

/-- HEARTH_ENGINE_FAULT: the failing work suspends the operation before it, and frees its entry; one whose team has
exited is reported as an error of the launch (R324, R328). -/
def execHearthEngineFault (l b t n : Nat) (s : State) : Out :=
  match s.hearthEnv l b t n with
  | none => .next s
  | some (x, tm, o, ct) =>
    match opWork s x tm o ct with
    | .fail s' w =>
      let s := { s with funcs := s'.funcs, intrs := s'.intrs }
      let s := s.updHOp l b t n fun o => { o with susp := some w, waiting := false, granted := false }
      .next (if tm.exited then s.launchError l 1 w.cause x.a b t w.inner 2 o.passes o.num w.addr (.hearthOp o.num) else s)
    | _ => .next s

/-! ### The arbiter (R303, R304) -/

/-- An entry of the table as the arbiter sees it. -/
structure Entry where
  l : Nat
  b : Nat
  t : Nat
  n : Nat
  prio : Nat
  age : Nat
  quads : List Nat
  granted : Bool
  deriving DecidableEq, Repr

/-- The quadrants that an operation needs (R302). -/
def HOp.quads (o : HOp) (core : Nat) : List Nat :=
  if o.kind == .mtopk || o.hf then [core % 4] else [core % 4, (core + 1) % 4]

/-- The operations that need a quadrant in a cluster. DESIGN CHOICE (R304 is silent on one that resumes or is restored,
notes/assumptions/36): it keeps its issue age and competes again without counting against the 32 entries until it is granted. -/
def State.clusterOps (s : State) (die cluster : Nat) : List Entry :=
  s.launches.flatMap fun l => if l.st != .running then [] else l.blocks.flatMap fun b =>
    if b.runsOn.die = die && b.runsOn.cluster = cluster then
      ((List.range b.teams.length).zip b.teams).flatMap fun q =>
        (q.2.hearth.ops.filter fun o => o.kind.quad && o.susp.isNone).map fun o =>
          ⟨l.id, b.id, q.1, o.num, l.prio, o.age, o.quads b.runsOn.core, o.granted⟩
    else []

/-- The rank of R304: which of two entries comes first. -/
def Entry.before (tick : Nat) (x y : Entry) : Bool :=
  let long (e : Entry) : Bool := e.age + 16384 ≤ tick
  if long x != long y then long x
  else if long x then x.age ≤ y.age
  else if x.prio != y.prio then x.prio < y.prio
  else x.age ≤ y.age

/-- Put an entry in its rank. -/
def rankInsert (tick : Nat) (e : Entry) : List Entry → List Entry
  | [] => [e]
  | x :: xs => if x.before tick e then x :: rankInsert tick e xs else e :: x :: xs

/-- The walk: an entry whose quadrants are free and not claimed is granted; another claims its own. -/
def walkEntries : List Entry → List Nat → List Entry → List Entry
  | [], _, acc => acc
  | e :: es, taken, acc =>
    let ok := e.quads.all fun q => !taken.contains q
    walkEntries es (e.quads ++ taken) (if ok then e :: acc else acc)

/-- One walk of a cluster's table. -/
def State.grantCluster (s : State) (die cluster : Nat) : State :=
  let all := s.clusterOps die cluster
  let busy := (all.filter Entry.granted).flatMap Entry.quads
  let ready := (all.filter fun e => !e.granted).foldl (fun a e => rankInsert s.tick e a) []
  (walkEntries (ready.take (32 - (all.filter Entry.granted).length)) busy []).foldl (fun s e =>
    s.updHOp e.l e.b e.t e.n fun o => { o with granted := true, waiting := false }) s

/-- Clusters that hold a block. -/
def State.liveClusters (s : State) : List (Nat × Nat) :=
  (s.launches.flatMap fun l => l.blocks.map fun b => (b.runsOn.die, b.runsOn.cluster)).eraseDups

/-- HEARTH_GRANT. -/
def execHearthGrant (s : State) : Out := .next (s.liveClusters.foldl (fun s c => s.grantCluster c.1 c.2) s)

end Sys2Proof.Machine
end

