-- ==== Sys2Proof/Machine/Manager.lean ====
section
/-!
DEFINITION. Machine/Manager.lean: accesses of the I/O die's engines, containers and the loader (R340 to R344), keys (R345),
the request streams (R346 to R352), FMBIND, FMSWAP and FMQUERY (R353 to R355).
-/
namespace Sys2Proof.Machine

/-! ### Accesses made on the I/O die (R412) -/

/-- A checked access of an engine of the I/O die in an address space. -/
def State.devAccess (s : State) (a : AgentId) (asid : Nat) (va : DWord) (size : Nat) (kind : AKind) (mk : MKind) : Eng Tr :=
  match s.check none asid va size kind with
  | .error e => .fail (s.noteErr e) (.mem e.cause va)
  | .ok t =>
    let c : Acc := ⟨0, va, t.pa, some t⟩
    match s.conflictIn a c size mk with
    | some w => .fail s ⟨0x60#8, mk.inner kind.rmw, BitVec.ofNat 64 w.1, some w.2⟩
    | none =>
      match s.commitTr none asid va kind t with
      | none => .wait
      | some s => .ok ((s.markAcc a size mk c).purgeFor t) t

/-- Read n bytes, as many as the fuel allows accesses: 8 at a time at multiples of 8, else one at a time. -/
def State.devRead (s : State) (a : AgentId) (asid : Nat) (va : DWord) (mk : MKind) : Nat → Nat → Eng (List Byte)
  | 0, _ => .ok s []
  | k + 1, n =>
    if n = 0 then .ok s []
    else
      let m := if 8 ≤ n && va.toNat % 8 == 0 then 8 else 1
      (s.devAccess a asid va m .load mk).andThen fun s t =>
        (s.devRead a asid (va + BitVec.ofNat 64 m) mk k (n - m)).andThen fun s' bs => .ok s' (s.mem.bytes t.pa m ++ bs)

/-- Write up to 8 bytes that lie in one aligned unit. -/
def State.devPut (s : State) (a : AgentId) (asid : Nat) (va : DWord) (bs : List Byte) (mk : MKind) : Eng Unit :=
  (s.devAccess a asid va bs.length .store mk).andThen fun s t => .ok { s with mem := s.mem.put t.pa bs } ()

/-- An arrival of count 1 on a barrier object; the answer says whether it was accepted (R247). -/
def State.devArrive (s : State) (a : AgentId) (asid : Nat) (obj : DWord) : Eng Bool :=
  (s.devAccess a asid obj 16 .arrive .syncWrite).andThen fun s t =>
    match objArrive (s.mem.bytes t.pa 16) 1 with
    | some bs => .ok { s with mem := s.mem.put t.pa bs } true
    | none => .ok s false

/-! ### The layout of a container (R340, R343) -/

/-- EW and CB of the table of R340. -/
def ewCbOk (ew cb : Nat) : Bool :=
  (2 ≤ ew && ew ≤ 8 && cb == 1) || (9 ≤ ew && ew ≤ 16 && cb == 2) || (17 ≤ ew && ew ≤ 32 && cb == 4)

/-- Every byte of a list is 0. -/
def zeros (bs : List Byte) : Bool := bs.all fun b => b == 0

/-- Two sections do not overlap. -/
def apart (a n b m : Nat) : Bool := a + n ≤ b || b + m ≤ a

/-- What the header alone decides (step 2 of R344). -/
def headerOk (h : List Byte) : Bool :=
  let f := fieldAt h
  let ew := f 0x08 1
  let plen := f 0x28 4
  let sec (o n : Nat) : Bool := 0x80 ≤ o && o % 8 == 0 && o + n ≤ plen
  f 0x00 4 == 0x53464E41 && f 0x04 2 == 1 && f 0x06 2 != 0 && ewCbOk ew (f 0x09 1) && zeros ((h.drop 0x0A).take 6)
    && zeros ((h.drop 0x40).take 64)
    && f 0x14 4 == 4 * 2 ^ min ew 16 && f 0x1C 4 == 32 && f 0x24 4 % 8 == 0 && plen % 8 == 0 && f 0x2C 4 ≤ 2 ^ 24
    && sec (f 0x10 4) (f 0x14 4) && sec (f 0x18 4) 32 && sec (f 0x20 4) (f 0x24 4)
    && apart (f 0x10 4) (f 0x14 4) (f 0x18 4) 32 && apart (f 0x10 4) (f 0x14 4) (f 0x20 4) (f 0x24 4)
    && apart (f 0x18 4) 32 (f 0x20 4) (f 0x24 4)

/-- The trailer's rules (step 4 of R344). -/
def trailerOk (bs : List Byte) : Bool :=
  let plen := fieldAt bs 0x28 4
  fieldAt bs (plen + 148) 4 == 0 && fieldAt bs 0x2C 4 == plen + 152 + fieldAt bs (plen + 144) 4

/-- The enrolled key that a container names (step 6 of R344). -/
def keyOf (f : Func) (bs : List Byte) : Option (List Byte) :=
  f.keys.find? fun k => k.take 16 == (bs.drop 0x30).take 16

/-- The hash matches the payload (step 5 of R344). -/
def hashOk (bs : List Byte) : Bool :=
  let plen := fieldAt bs 0x28 4
  sha384 (bs.take plen) == (bs.drop plen).take 48

/-- Both signatures of a trailer verify under a key's public keys (step 7 of R344). -/
def signedTrailer (key t : List Byte) : Bool :=
  let h := t.take 48
  P384.verify ((key.drop 16).take 97) h ((t.drop 48).take 96)
    && Lms.verify ((key.drop 113).take 56) h ((t.drop 152).take (fieldAt t 144 4))

/-- The same for a container. -/
def signed (key bs : List Byte) : Bool := signedTrailer key (bs.drop (fieldAt bs 0x28 4))

/-! ### The contract rules (R341, R342) -/

/-- CLS of a decoded word (R279). -/
def clsOf (w : Nat) : Nat := bits w 29 2

/-- An entry's own rule: reserved fields 0, and EXP and SIG as its class asks. -/
def entryOk (w : Nat) : Bool :=
  bits w 16 6 == 0 && (if clsOf w = 1 then bits w 15 1 == 1 else bits w 22 7 == 0 && bits w 0 16 == 0)

/-- A declared code. -/
def declared (c : Nat) : Bool := c != 0xFFFFFFFF

/-- A declared infinity code's entry has CLS 2 and the sign of the code. -/
def infOk (c : Container) (code sign : Nat) : Bool :=
  !declared code || (clsOf (c.word code) == 2 && bits (c.word code) 31 1 == sign)

/-- The rules of the decode table. -/
def tableRules (c : Container) : Bool :=
  let ws := (List.range c.entries).map c.entry
  ws.all entryOk && clsOf (c.word (c.enc 0x04 4)) == 3 && clsOf (c.word (c.enc 0x08 4)) == 0
    && infOk c (c.enc 0x10 4) 0 && infOk c (c.enc 0x14 4) 1 && ws.any fun w => clsOf w == 1

/-- The rules of the encode descriptor. -/
def descriptorRules (c : Container) : Bool :=
  let code (o : Nat) (opt : Bool) : Bool := (opt && !declared (c.enc o 4)) || c.enc o 4 < 2 ^ c.ew
  c.enc 0x00 1 ≤ 3 && c.enc 0x01 1 ≤ 1 && c.enc 0x02 2 == 0 && c.enc 0x18 8 == 0
    && code 0x04 false && code 0x08 false && code 0x0C true && code 0x10 true && code 0x14 true
    && (c.enc 0x01 1 == 0 || (declared (c.enc 0x10 4) && declared (c.enc 0x14 4)))

/-! ### Verification (R344) -/

/-- Verify the container at an address for a function: the container, or the status of R347. -/
def verify (s : State) (fn asid : Nat) (ca : DWord) : Eng (Except Nat Container) :=
  let a := AgentId.format fn
  match s.devRead a asid ca .plainLoad 128 128 with
  | .wait => .wait
  | .fail s _ => .ok s (.error 2)
  | .ok s h =>
    if ca.toNat % 8 != 0 || !headerOk h then .ok s (.error 1)
    else
      let tlen := fieldAt h 0x2C 4
      match s.devRead a asid (ca + 128) .plainLoad (tlen - 128) (tlen - 128) with
      | .wait => .wait
      | .fail s _ => .ok s (.error 2)
      | .ok s rest =>
        let bs := h ++ rest
        let c : Container := ⟨(bs.drop (fieldAt bs 0x28 4)).take 48, bs⟩
        .ok s
          (if !trailerOk bs then .error 1
           else if !hashOk bs then .error 3
           else match (s.func fn).bind fun f => keyOf f bs with
             | none => .error 4
             | some k =>
               if !signed k bs then .error 3
               else if !(descriptorRules c && tableRules c) then .error 7
               else .ok c)

/-! ### The binding table (R338, R355) -/

/-- An entry that nothing has touched. -/
def BindEntry.fresh (asid k : Nat) : BindEntry := ⟨asid, k, none, 0, 0, 0, false⟩

/-- Change an entry. -/
def State.updEntry (s : State) (asid k : Nat) (f : BindEntry → BindEntry) : State :=
  if (s.bindEntry asid k).isSome then { s with binds := upd (fun e => e.asid == asid && e.k == k) f s.binds }
  else { s with binds := s.binds ++ [f (BindEntry.fresh asid k)] }

/-- The value of FMQUERY. -/
def State.slotState (s : State) (asid k : Nat) : DWord :=
  let e := (s.bindEntry asid k).getD (BindEntry.fresh asid k)
  let b := match s.boundTo asid k with
    | some b => 2 ^ 32 + (if b.ct.ew ≤ 16 then 2 ^ 33 else 0) + b.ct.ew * 2 ^ 24 + b.ct.cb * 2 ^ 16 + b.ct.fid
    | none => 0
  BitVec.ofNat 64 (e.req.toNat * 2 ^ 48 + e.lstat.toNat * 2 ^ 40 + (if e.pend = 0 then 0 else 2 ^ 34) + b)

/-! ### Appending a request (R346, R354) -/

/-- Append a request to a function's stream: the state and the request's number; none while 256 are incomplete. -/
def State.appendReq (s : State) (fn asid k : Nat) (swap : Bool) (ct obj : DWord) (pkt : Option Nat)
    (origin : Option (Nat × Nat)) : Option (State × Nat) :=
  match s.func fn with
  | none => none
  | some f =>
    if 256 ≤ f.stream.reqs.length then none
    else
      let r : FmReq := ⟨f.stream.next, asid, k, swap, ct, obj, pkt, origin, .queued, none, none⟩
      let s := s.updFunc fn fun f => { f with stream := { f.stream with reqs := f.stream.reqs ++ [r], next := f.stream.next + 1 } }
      some (s.updEntry asid k fun e => { e with pend := e.pend + 1 }, r.num)

/-- Issue FMBIND or FMSWAP: the accesses before it are released to the request's engine (R351). -/
def formatOp (i : Instr) (s : State) (x : FmOp) (swap : Bool) : Out :=
  issueKernel i s fun e =>
    match s.appendReq e.l.fn e.l.asid x.k.val swap (e.b.foyer.rd x.a) (e.b.foyer.rd x.b) none (some (e.l.id, e.b.id)) with
    | none => stallFoyer s e
    | some (s, n) => retireFoyer (s.release e.b.runsOn e.agent .clu) e (e.b.foyer.wr x.d (BitVec.ofNat 64 n)) e.cur.fall

/-- FMBIND. -/
def execFmbind (x : FmOp) (s : State) : Out := formatOp (.fmbind x) s x false
/-- FMSWAP. -/
def execFmswap (x : FmOp) (s : State) : Out := formatOp (.fmswap x) s x true
/-- FMQUERY. -/
def execFmquery (d : SReg) (k : Fin 8) (s : State) : Out :=
  issueKernel (.fmquery d k) s fun e => retireFoyer s e (e.b.foyer.wr d (s.slotState e.l.asid k.val)) e.cur.fall

/-! ### Hardware slots (R337, R350) -/

/-- The dies' numbers. -/
def allDies : List Nat := [0, 1, 2, 3]

/-- A hardware slot of a die. -/
def State.hwSlot (s : State) (die ix : Nat) : Option Container :=
  match s.slots.find? fun h => h.die == die && h.ix == ix with
  | some h => h.ct
  | none => none

/-- Configure a hardware slot. -/
def State.putSlot (s : State) (die ix : Nat) (c : Container) : State :=
  { s with slots := s.slots.filter (fun h => !(h.die == die && h.ix == ix)) ++ [⟨die, ix, some c⟩] }

/-- The references to a hash, without those of one entry's old binding (R337). -/
def State.refs (s : State) (hash : List Byte) (old : Option Nat) : Bool :=
  s.bindings.any fun b => b.ct.hash == hash && (some b.id != old || !b.held.isEmpty
    || 1 < (s.binds.filter fun e => e.bound == some b.id).length)

/-- The hardware slot chosen on a die for a container that replaces a binding (R350). -/
def State.chooseSlot (s : State) (die : Nat) (c : Container) (old : Option Binding) : Option Nat :=
  let ixs := List.range 16
  let holds (h : List Byte) (ix : Nat) : Bool := ((s.hwSlot die ix).map Container.hash) == some h
  match ixs.find? (holds c.hash) with
  | some ix => some ix
  | none =>
    let own := match old with
      | none => none
      | some b => ixs.find? fun ix => holds b.ct.hash ix && !s.refs b.ct.hash (some b.id)
    match own with
    | some ix => some ix
    | none => ixs.find? fun ix => match s.hwSlot die ix with
      | none => true
      | some h => !s.refs h.hash none

/-- The hardware slots of a container on every die; none where some die has none. -/
def State.chooseAll (s : State) (c : Container) (old : Option Binding) : List Nat → Option (List (Nat × Nat))
  | [] => some []
  | d :: ds =>
    match s.chooseSlot d c old, s.chooseAll c old ds with
    | some ix, some rest => some ((d, ix) :: rest)
    | _, _ => none

/-! ### The stream at work (R348, R349) -/

/-- The request that a function's stream is at. -/
def State.fmHead (s : State) (fn : Nat) : Option FmReq := (s.func fn).bind fun f => f.stream.reqs.head?

/-- Change the request at the head of a stream. -/
def State.updReq (s : State) (fn : Nat) (g : FmReq → FmReq) : State :=
  s.updFunc fn fun f => { f with stream := { f.stream with reqs := match f.stream.reqs with
    | [] => []
    | r :: rs => g r :: rs } }

/-- The checks of a request's barrier object (R347). -/
def objectOk (s : State) (asid : Nat) (obj : DWord) : Bool :=
  obj == 0 || (match s.check none asid obj 16 .store with
    | .ok _ => true
    | .error _ => false)

/-- A request completes with a status: LSTAT and REQ, the timeline, the arrival on its object, and the FORMAT packet's
result; where the arrival has to wait, the device stays in the state given for that. -/
def fmFinish (back s : State) (fn : Nat) (r : FmReq) (st : Nat) (arrive : Bool) : Out :=
  let s0 := s.updEntry r.asid r.k fun e => { e with lstat := BitVec.ofNat 8 st, req := BitVec.ofNat 16 r.num, pend := e.pend - 1 }
  let s0 := s0.updFunc fn fun f => { f with stream := { f.stream with reqs := f.stream.reqs.drop 1, timeline := r.num } }
  let s0 := match r.pkt with
    | some k => s0.updPkt k fun p => { p with sub := 2, aux := [BitVec.ofNat 64 (r.num * 256 + st)] }
    | none => s0
  let a := AgentId.format fn
  let report (s : State) (c : Cause) (inner : BitVec 8) : State := match r.origin with
    | some (l, b) => s.launchError l 3 c (.foyer l b) b 0xFF inner 0 0 r.num r.obj .none
    | none => s
  if r.obj == 0 || !arrive then .next (s0.endRegion a)
  else
    match s0.devArrive a r.asid r.obj with
    | .ok s true => .next (s.endRegion a)
    | .ok s false => .next (report (s.endRegion a) 0x62#8 0)
    | .wait => .next back
    | .fail s w => .next (report (s.endRegion a) 0x87#8 (if w.cause == 0x87#8 then w.inner else w.cause))

/-- FM_REQUEST: the request at the head starts: its checks, verification, and the block of its entry. -/
def execFmRequest (fn : Nat) (s : State) : Out :=
  match s.fmHead fn with
  | none => .next s
  | some r =>
    if r.phase != .queued then .next s
    else if !objectOk s r.asid r.obj then fmFinish s s fn r 2 false
    else if !r.swap && (s.boundTo r.asid r.k).isSome then fmFinish s s fn r 6 true
    else if !r.swap && r.ct == 0 then fmFinish s s fn r 2 true
    else
      let go (s : State) (c : Option Container) : Out :=
        .next ((s.updReq fn fun r => { r with phase := .draining, loaded := c }).updEntry r.asid r.k fun e =>
          { e with blocked := true })
      if r.ct == 0 then go s none
      else
        match verify s fn r.asid r.ct with
        | .wait => .next s
        | .fail s _ => fmFinish s s fn r 2 true
        | .ok s (.error st) => fmFinish s s fn r st true
        | .ok s (.ok c) => go s (some c)

/-- A use of a binding that the drain waits for: of a launch that runs, not complete and not suspended (R349). -/
def State.inUse (s : State) (id : Nat) : Bool :=
  s.launches.any fun l => l.st == .running && l.blocks.any fun b => b.teams.any fun t =>
    (t.copy.ops.any fun o => o.bind == some id && !o.done && o.susp.isNone)
      || t.hearth.ops.any fun o => o.bind == some id && o.susp.isNone

/-- Replace an entry's binding, lift the block, and complete the request. -/
def fmReplace (s : State) (fn : Nat) (r : FmReq) (new : Option Nat) : Out :=
  fmFinish s (s.updEntry r.asid r.k fun e => { e with bound := new, blocked := false }).dropBindings fn r 0 true

/-- FM_DRAIN_END: no use of the old binding remains; the hardware slots are chosen, or the request ends with status 5. -/
def execFmDrainEnd (fn : Nat) (s : State) : Out :=
  match s.fmHead fn with
  | none => .next s
  | some r =>
    let old := s.boundTo r.asid r.k
    if r.phase != .draining || old.any (fun b => s.inUse b.id) then .next s
    else
      match r.loaded with
      | none => fmReplace s fn r none
      | some c =>
        match s.chooseAll c old allDies with
        | none => fmFinish s (s.updEntry r.asid r.k fun e => { e with blocked := false }) fn r 5 true
        | some xs =>
          let id := s.nextKey
          let s := { xs.foldl (fun s p => s.putSlot p.1 p.2 c) s with
            nextKey := id + 1, bindings := s.bindings ++ [Binding.mk id c r.ct [AgentId.format fn]] }
          .next (s.updReq fn fun r => { r with phase := .reconfig, bind := some id })

/-- FM_RECONFIG_DONE: the chosen slots hold the container; the entry is replaced. -/
def execFmReconfigDone (fn : Nat) (s : State) : Out :=
  match s.fmHead fn with
  | none => .next s
  | some r =>
    match r.bind with
    | none => .next s
    | some id =>
      if r.phase != .reconfig then .next s
      else
        let s' := s.updEntry r.asid r.k fun e => { e with bound := some id, blocked := false }
        fmFinish s (s'.release1 (some id) (.format fn)) fn r 0 true

/-! ### Keys (R345) -/

/-- A record that the security block accepts: its KEYID, the uncompressed point, LMS and LM-OTS types, and reserved
bytes. -/
def keyOk (k : List Byte) : Bool :=
  let be (o : Nat) : Nat := leNat ((k.drop o).take 4).reverse
  k.length == 176 && (sha384 ((k.drop 16).take 153)).take 16 == k.take 16 && k.getD 16 0 == 4
    && 5 ≤ be 113 && be 113 ≤ 9 && 1 ≤ be 117 && be 117 ≤ 4 && zeros (k.drop 169)

/-- KEY_ENROL: a function holds up to 8 keys; a record that is not accepted changes nothing. -/
def execKeyEnrol (fn : Nat) (key : List Byte) (s : State) : Out :=
  .next (s.updFunc fn fun f =>
    if keyOk key && f.keys.length < 8 && !f.keys.contains key then { f with keys := f.keys ++ [key] } else f)

/-- KEY_REMOVE: bindings already made with the key stay. -/
def execKeyRemove (fn ix : Nat) (s : State) : Out := .next (s.updFunc fn fun f => { f with keys := f.keys.eraseIdx ix })

end Sys2Proof.Machine
end

