-- ==== Sys2Proof/Machine/Traps.lean ====
section
/-!
DEFINITION. Machine/Traps.lean: the system instructions (R395 to R403), breakpoints and single step (R399 to R401), what
a failing fetch or decode raises (R51, R131), the record's way into the service ring (R384, R385), and the events of
issue: lifts, releases, moves at safe points, translations and results that are written (R69 to R71, R153, R154, R199).
-/
namespace Sys2Proof.Machine

/-! ### TRAP (R388, R396) -/

/-- The 64 bytes of a system-call record but for its header (R388). -/
def syscallBody (e : TEnv) (code : BitVec 16) (arg : BitVec 128) : List Byte :=
  leBytes 8 0 ++ leBytes 8 e.cur.pc.toNat ++ leBytes 4 e.l.id ++ leBytes 4 e.b.id ++ leBytes 1 e.ti
    ++ leBytes 1 e.b.place.die ++ leBytes 1 e.b.place.cluster ++ leBytes 1 e.b.place.core ++ leBytes 2 code.toNat
    ++ leBytes 2 0 ++ leBytes 16 arg.toNat ++ leBytes 8 0 ++ leBytes 8 0

/-- A team makes a system call: it parks, the core stops, and a record of KIND 1 waits for the ring. -/
def takeSyscall (s : State) (e : TEnv) (code : BitVec 16) (arg : BitVec 128) : State :=
  match e.l.ring with
  | none => s.endLaunch e.l.id 0xC0#8 4
  | some _ =>
    let k := s.nextKey
    let s := (s.stopFor e.l).updTeam e.l.id e.b.id e.ti fun t => t.park k
    s.addRecord { id := k, launch := e.l.id, agent := e.agent, kind := 1, cause := 0xC0#8, len := 1,
                  body := syscallBody e code arg, pc := e.f.pc, low := lowSeat e.t e.f.mask, onResume := .syscall e.cur.fall,
                  ix := none }

/-- TRAP. -/
def execTrap (x : TrapOp) (s : State) : Out :=
  issueTeam (.trap x) s fun e =>
    elect s e always fun i => .next (takeSyscall s e x.code ((e.t.seat i).rd4 x.a.val))

/-! ### TFENCE, CLRF, BRK, FEATQ (R397 to R399, R402) -/

/-- The lowest flag that is set and enabled (R397). -/
def flagHit (asf ate : Word) : Option Nat := (List.range 7).find? fun k => (asf &&& ate).getLsbD k

/-- TFENCE. -/
def execTfence (s : State) : Out :=
  issueTeam .tfence s fun e =>
    match flagHit e.t.asf e.t.ate with
    | some k => trap s e (BitVec.ofNat 8 (0x40 + k))
    | none => retire s e e.t

/-- CLRF. -/
def execClrf (mask : BitVec 7) (s : State) : Out :=
  issueTeam (.clrf mask) s fun e => retire s e { e.t with asf := e.t.asf &&& ~~~(mask.zeroExtend 32) }

/-- BRK. -/
def execBrk (s : State) : Out := issueTeam .brk s fun e => trap s e 0x08#8

/-- A word of a function's envelope (R402). -/
def State.envelope (s : State) (fn sel : Nat) : DWord :=
  match s.func fn with
  | some f => f.fenv.getD sel 0
  | none => 0

/-- FEATQ. -/
def execFeatq (x : SelRead) (s : State) : Out :=
  issueTeam (.featq x) s fun e => retire s e (e.each always fun y => y.wr2 x.d.val (s.envelope e.l.fn x.sel.val))

/-! ### Traps that no instruction of a chapter raises (R51, R131, R400, R401) -/

/-- Raise a cause in whichever agent State.cur names; a run of a prologue ends with an outcome. -/
def raise (s : State) (c : Cause) (addr : DWord) (outcome value : Nat) : Out :=
  if s.inPrologue then withPrologue s fun e => .next (endRun s e.p outcome value)
  else
    match s.teamEnv with
    | some e => .next (takeTrap s e c { e.info c with addr := addr })
    | none => withFoyer s fun e => .next (takeTrapFoyer s e c { e.info c with addr := addr })

/-- HARDWARE_BREAKPOINT: 0x09 before the instruction takes effect (R400). -/
def execHardwareBreakpoint (s : State) : Out := raise s 0x09#8 0 3 0

/-- SINGLE_STEP_TRAP: 0x0A after a chain, the PC that of the next instruction (R401). -/
def execSingleStepTrap (s : State) : Out := raise s 0x0A#8 0 3 0

/-- ILLEGAL_INSTRUCTION: a cause of R51 (R54); a prologue's outcome is 3 (R374). -/
def execIllegalInstruction (c : Cause) (s : State) : Out := raise s c 0 3 0

/-- The die and the address space in which the agent of State.cur fetches. -/
def State.fetchSpace (s : State) : Option (Option Nat × Nat) :=
  match s.teamEnv with
  | some e => some (e.b.die, e.l.asid)
  | none => match s.foyerEnv with
    | some e => some (e.b.die, e.l.asid)
    | none => s.prologueEnv.map fun e => (none, e.q.asid)

/-- INSTRUCTION_FETCH_FAULT: the cause at the target, with the target address in the record (R131); a prologue's outcome
is 4 with the cause. -/
def execInstructionFetchFault (c : Cause) (addr : DWord) (s : State) : Out :=
  let s := match s.fetchSpace with
    | none => s
    | some (die, asid) => match s.check die asid addr 8 .fetch with
      | .error x => if x.cause == c then s.noteErr x else s
      | .ok _ => s
  raise s c addr 4 c.toNat

/-! ### Writing a record to the service ring (R384, R385, R393) -/

/-- The header dword of an entry at an index (R385). -/
def entryHeader (size p len kind : Nat) (c : Cause) : Nat :=
  len * 2 ^ 24 + c.toNat * 2 ^ 16 + ((p / size + 1) % 2) * 2 ^ 8 + kind

/-- Entries of padding before a record of len entries at an index: a record never wraps. -/
def padding (size p len : Nat) : Nat := if size < p % size + len then size - p % size else 0

/-- An entry's bytes: those of the record that fall in it, its first dword the header where it is the record's first. -/
def entryBytes (size p : Nat) (r : Record) (i : Nat) : List Byte :=
  let bs := (r.body.drop (64 * i)).take 64
  if i = 0 then leBytes 8 (entryHeader size p r.len r.kind r.cause) ++ bs.drop 8 else bs

/-- Write one entry through the translation of a launch's address space, as the Porch; a failing access answers what it notes
(R405), a full dirty log waits. -/
def State.putEntry (s : State) (asid : Nat) (base : DWord) (size p : Nat) (bs : List Byte) : Except State (Option State) :=
  let va := base + BitVec.ofNat 64 (64 * (p % size))
  match s.check none asid va 64 .store with
  | .error x => .error (s.noteErr x)
  | .ok t =>
    match s.commitTr none asid va .store t with
    | none => .ok none
    | some s =>
      let s := s.purgeFor t
      .ok (some { s with mem := s.mem.put t.pa bs })

/-- Write entries from an index. -/
def State.putEntries (s : State) (asid : Nat) (base : DWord) (size p : Nat) : List (List Byte) → Except State (Option State)
  | [] => .ok (some s)
  | bs :: rest =>
    match s.putEntry asid base size p bs with
    | .error n => .error n
    | .ok none => .ok none
    | .ok (some s) => s.putEntries asid base size (p + 1) rest

/-- The reason that LERR holds when a record's ring is unreachable: 4 for a trap, else the record's own (R393). -/
def Record.reason (r : Record) : Nat := if r.kind = 3 then (r.body.getD 0x13 0).toNat else 4

/-- The core-wide stop for a record of a system call or a trap: it is the first raised on its core, no other agent of the core
has an open chain, and then every posted load of the core is written (R382); none: not yet. -/
def State.stopCore (s : State) (r : Record) : Option State :=
  match (if r.stops then s.coreOf r.agent else none) with
  | none => some s
  | some u => if (s.coreStop u).any (fun x => x.id == r.id) && !s.coreChained u then some (s.drainCore u) else none

/-- TRAP_RECORD_WRITE: the record's core stops; once CIDX leaves room the record is written with its padding, its index is fixed
and PIDX advances; until then the agent waits, parked, and its core stands still. A ring that cannot be reached ends the
launch. -/
def execTrapRecordWrite (k : Nat) (s : State) : Out :=
  match s.records.find? fun r => r.id == k with
  | none => .next s
  | some r =>
    match s.launch r.launch with
    | none => .next s
    | some ln =>
      match s.rings.find? fun g => some g.hdr == ln.ring with
      | none => .next s
      | some g =>
        let size := 2 ^ g.lsize
        let pad := padding size g.pidx r.len
        let p := g.pidx + pad
        if r.ix.isSome then .next s
        else match s.stopCore r with
        | none => .next s
        | some s =>
        if s.mem.num (g.hdr + 0x10) 8 + size < p + r.len then .next s
        else
          let pads := (List.range pad).map fun i => leBytes 8 (entryHeader size (g.pidx + i) 1 0 0) ++ leBytes 56 0
          let body := (List.range r.len).map (entryBytes size p r)
          match s.putEntries ln.asid g.base size g.pidx (pads ++ body) with
          | .error n =>
            .next (({ s with funcs := n.funcs, intrs := n.intrs, records := s.records.filter fun x => x.id != k } : State).endLaunch
              r.launch r.cause r.reason)
          | .ok none => .next s
          | .ok (some s) =>
            .next { s with
              mem := s.mem.put (g.hdr + 0x18) (leBytes 8 (p + r.len))
              rings := upd (fun x => x.hdr == g.hdr) (fun x => { x with pidx := p + r.len }) s.rings
              records := upd (fun x => x.id == k) (fun x => { x with ix := some p }) s.records }

/-! ### Lifts and releases (R153, R154, R158) -/

/-- Something ready since a tick has waited so many ticks: a tick stands for a cycle (R154; DESIGN CHOICE, notes/assumptions/1). -/
def State.waited (s : State) (since n : Nat) : Bool := since != 0 && since + n ≤ s.tick

/-- A fragment that waits to issue, and for how long (R152, R154). -/
def State.ready (s : State) (g : Frag) (n : Nat) : Bool := !g.parked && !g.stalled && s.waited g.since n

/-- A fragment lifted where it has waited long enough. -/
def State.lifted (s : State) (long : Bool) (g : Frag) : Frag :=
  if s.ready g (if long then 16384 else 1024) then { g with lift := if long then .waited16384 else .waited1024 } else g

/-- STARVATION_LIFT: a ready fragment that has not issued for 16,384 or 1,024 cycles. -/
def execStarvationLift (l b t f : Nat) (long : Bool) (s : State) : Out :=
  .next (s.updTeam l b t fun x => { x with frags := x.frags.modify f (s.lifted long) })

/-- JOIN_PARK_RELEASE: a parked fragment leaves the parked state after 1,024 backward branches of lower ones. -/
def execJoinParkRelease (l b t f : Nat) (s : State) : Out :=
  .next (s.updTeam l b t fun x => { x with frags := x.frags.modify f fun g =>
    if g.parked && 1024 ≤ g.bec then { g with parked := false, released := true } else g })

/-- FOYER_STARVATION_LIFT: a context ready without issue for 1,024 cycles. -/
def execFoyerStarvationLift (l b : Nat) (s : State) : Out :=
  .next (s.updBlock l b fun x =>
    if !x.foyer.stalled && s.waited x.foyer.since 1024 then { x with foyer := { x.foyer with lift := .waited1024 } } else x)

/-! ### Translations (R69 to R71) -/

/-- A safe point of a stream: one that the image lists, or the stream's entry point, in a region of that stream (R69, R368). -/
def Launch.safePoint (l : Launch) (foyer : Bool) (pc : DWord) : Bool :=
  (l.img.safe.contains pc || pc == (if foyer then l.img.fent else l.img.tent))
    && (match l.region pc.toNat with
        | some r => !r.native && r.foyer == foyer
        | none => false)

/-- An address lies in native code of a stream. -/
def Launch.nativeAt (l : Launch) (foyer : Bool) (pc : DWord) : Bool :=
  match l.region pc.toNat with
  | some r => r.native && r.foyer == foyer
  | none => false

/-- Where an agent of a stream at an address moves at a safe point: to native code of an active translation, or back to portable
code from one that has been uninstalled, whatever has been installed since (R70, R71). -/
def Launch.moveTo (l : Launch) (foyer : Bool) (pc : DWord) : Option DWord :=
  l.xlats.findSome? fun x =>
    (x.points.find? fun p => l.safePoint foyer p.1 && l.nativeAt foyer p.2 && (if x.active then p.1 else p.2) == pc).map fun p =>
      if x.active then p.2 else p.1

/-- A team's results are all written: its loads, and the registers of its MTOPKs (R70, R335). -/
def Team.written (t : Team) : Bool := t.pend.isEmpty && t.hearth.ops.all fun o => o.kind != .mtopk

/-- SAFE_POINT_MOVE: a team of one fragment, or a Foyer context, whose results are all written. -/
def execSafePointMove (l b : Nat) (t : Option Nat) (s : State) : Out :=
  match s.launch l with
  | none => .next s
  | some ln =>
    .next (match t with
      | some t => s.updTeam l b t fun x =>
        match x.frags with
        | [f] => match ln.moveTo false f.pc with
          | some pc => if x.written then { x with frags := [{ f with pc := pc, chain := none, chainPc := pc }] } else x
          | none => x
        | _ => x
      | none => s.updBlock l b fun x => match ln.moveTo true x.foyer.pc with
        | some pc => if x.foyer.pend.isEmpty then
            { x with foyer := { x.foyer with pc := pc, chain := none, chainPc := pc } } else x
        | none => x)

/-- TRANSLATION_INSTALL: native regions join the launch's code map; a translation that has been uninstalled stays as it is. -/
def execTranslationInstall (l : Nat) (x : XlatArg) (s : State) : Out :=
  let new : List Region := x.regions.map fun r => ⟨r.start, r.len, r.foyer, true, r.dialect, r.jmap⟩
  .next (s.updLaunch l fun ln => { ln with xlats := ⟨new, x.points, true⟩ :: ln.xlats })

/-- TRANSLATION_UNINSTALL: each agent goes back to portable code at its next safe point. -/
def execTranslationUninstall (l : Nat) (s : State) : Out :=
  .next (s.updLaunch l fun ln => { ln with xlats := ln.xlats.map fun o => { o with active := false } })

/-! ### RESULT_WRITE_BACK (R59, R199) -/

/-- A team's k-th pending load writes its destination: the counter falls, or its scoreboard clears. -/
def Team.writeBack (t : Team) (k : Nat) : Team :=
  match t.pend[k]? with
  | none => t
  | some p =>
    let newer (i r : Nat) : Bool := (p.words.getD i none).isSome && p.reg ≤ r && r < p.reg + p.count
    let ps := ((t.pend.take k).flatMap fun q => q.without newer) ++ t.pend.drop (k + 1)
    { t.land p with pend := ps, scratch := t.scratch - (if p.posted then 1 else 0), sb := t.boards ps }

/-- The same for a Foyer context. -/
def Foyer.writeBack (f : Foyer) (k : Nat) : Foyer :=
  match f.pend[k]? with
  | none => f
  | some p =>
    let ps := ((f.pend.take k).map fun q => q.without p.reg) ++ f.pend.drop (k + 1)
    { f.wr (sreg p.reg) p.val with pend := ps, sb := scoreboards (ps.map FPending.sb) }

/-- A load from a device whose port has lost its link is still outstanding (R481). -/
def State.linkDown (s : State) (dev : Nat) : Bool := s.ports.any fun p => p.retraining && p.dev == dev

/-- RESULT_WRITE_BACK. -/
def execResultWriteBack (l b : Nat) (t : Option Nat) (k : Nat) (s : State) : Out :=
  let out (t : Team) : Bool := (t.pend[k]?).any fun p => p.peers.any fun q => s.linkDown q.2.1
  let outF (f : Foyer) : Bool := (f.pend[k]?).any fun p => p.peer.any fun q => s.linkDown q.1
  .next (match t with
    | some t => s.updTeam l b t fun x => if out x then x else x.writeBack k
    | none => s.updBlock l b fun x => { x with foyer := if outF x.foyer then x.foyer else x.foyer.writeBack k })

end Sys2Proof.Machine
end

