-- ==== Sys2Proof/Machine/Launches.lean ====
section
/-!
DEFINITION. Machine/Launches.lean: kernel images (R367, R368), starting a launch (R369, R370, R493), residency (R138 to
R140, R195, R196, R202), completion (R157, R369), and prologues (R373 to R375).
-/
namespace Sys2Proof.Machine

/-! ### Packets as bits (R364, R366, R371, R373, R376) -/

/-- A field of a packet. -/
def pkBits (bs : List Byte) (lo w : Nat) : Nat := leNat bs / 2 ^ lo % 2 ^ w

/-- The bits from lo to hi. -/
def spanBits (hi lo : Nat) : Nat := (2 ^ (hi - lo + 1) - 1) * 2 ^ lo

/-- CONC may be set on a TYPE (R365). -/
def concType (t : Nat) : Bool := t == 1 || t == 2 || t == 3 || t == 7

/-- The bits of a packet that its TYPE assigns; none for an unassigned TYPE. -/
def assigned (bs : List Byte) : Option Nat :=
  let head := spanBits 8 0 + (if concType (pkBits bs 0 8) then 2 ^ 9 else 0)
  let body : Option Nat :=
    match pkBits bs 0 8 with
    | 0 => some 0
    | 1 => some ((if pkBits bs 399 1 = 1 then spanBits 403 389 else spanBits 403 399) + spanBits 383 256 + spanBits 239 64)
    | 2 => some (spanBits 271 64)
    | 3 => some (spanBits 231 64)
    | 4 => some (spanBits 131 64 + spanBits 159 136)
    | 5 => some (spanBits 194 64)
    | 6 => some (spanBits 95 64 + spanBits 191 128)
    | 7 => some (spanBits 191 64)
    | 8 => some (spanBits 259 64)
    | _ => none
  body.map fun b => b + head

/-- A packet that R364 accepts: an assigned TYPE, reserved fields 0, every field within its range and alignment. -/
def packetOk (bs : List Byte) : Bool :=
  match assigned bs with
  | none => false
  | some m =>
    leNat bs &&& m == leNat bs
      && (match pkBits bs 0 8 with
          | 1 => pkBits bs 192 32 != 0 && pkBits bs 64 64 % 4096 == 0 && (pkBits bs 399 1 == 0 || pkBits bs 391 6 ≤ 35)
          | 2 => pkBits bs 64 64 % 8 == 0 && pkBits bs 192 64 % 8 == 0
          | 4 => 1 ≤ pkBits bs 128 4 && pkBits bs 128 4 ≤ 12
          | 5 => pkBits bs 192 2 != 3 && pkBits bs 64 64 % 8 == 0
          | 8 => pkBits bs 192 64 % 8 == 0
          | _ => true)

/-! ### Halts and completions (R365, R379) -/

/-- A queue halts; IRQE interrupts the function that created it. -/
def State.haltQueue (s : State) (q status detail : Nat) : State :=
  let s' := s.updQueue q fun x =>
    { x with halted := true, status := BitVec.ofNat 8 status, detail := BitVec.ofNat 16 detail }
  match s.queue q with
  | some x => if x.irqe then s'.interrupt x.creator 0 else s'
  | none => s'

/-- A packet in flight halts its queue: it waits for the resume with its bytes held. In a graph the queue is the one that
owns the run, and DETAIL names the packet (R377). -/
def State.haltPacket (s : State) (k status detail : Nat) : State :=
  match s.pkt k with
  | none => s
  | some p =>
    (s.updPkt k fun p => { p with st := .waiting }).haltQueue p.queue status
      (match p.parent with
        | some _ => p.ix + 1
        | none => detail)

/-- A packet completes: its region of the Porch ends (R221, R365). -/
def State.completePkt (s : State) (k : Nat) : State :=
  ({ s with pkts := s.pkts.filter fun p => p.key != k } : State).endRegion (.porch k)

/-! ### Kernel images -/

/-- Team size of a block of L lanes in t teams (R84). -/
def teamSize (lanes teams : Nat) : Nat := 32 * ((lanes + 32 * teams - 1) / (32 * teams))

/-- The header of an image keeps R367 and the limits of R83 and R84. -/
def imageHeaderOk (h : List Byte) : Bool :=
  let f (off n : Nat) : Nat := fieldAt h off n
  let regs := f 0x06 2
  let lanes := f 0x08 2
  let teams := f 0x0A 1
  let pfm := f 0x0B 1
  f 0 4 == 0x4B4E4C41 && f 4 2 == 1 && regs % 16 == 0 && 16 ≤ regs && regs ≤ 256 && 1 ≤ lanes && lanes ≤ 2048
    && 1 ≤ teams && teams ≤ 8 && teamSize lanes teams ≤ 1024 && pfm ≤ 3 && f 0x0C 4 % 128 == 0 && f 0x0C 4 ≤ 524288
    && f 0x10 4 % 16 == 0 && (f 0x14 1 == 0 || (2 ≤ f 0x14 1 && f 0x14 1 ≤ 4)) && f 0x15 1 ≤ 8
    && (2 ≤ pfm || (f 0x15 1 == 0 && f 0x1C 4 == 0)) && f 0x16 2 == 0 && f 0x18 4 % 256 == 0 && f 0x1C 4 % 8 == 0
    && f 0x1C 4 ≤ 2 ^ 32 - 64 && 1 ≤ f 0x20 4 && f 0x20 4 ≤ 256 && f 0x48 8 % 4096 == 0 && f 0x78 1 ≤ 8
    && zeros ((h.drop 0x79).take 7)

/-- A region entry keeps R55 and R367. -/
def regionOk (kaddr : Nat) (r : List Byte) : Bool :=
  let start := kaddr + fieldAt r 0 8
  let len := fieldAt r 8 8
  let fl := fieldAt r 16 4
  let unit := if bits fl 1 1 = 1 then 32 else 8
  bits fl 2 6 == 0 && bits fl 16 16 == 0 && fieldAt r 20 4 == 0 && ((bits fl 1 1 == 1) == (bits fl 8 8 != 0))
    && start % unit == 0 && len % unit == 0

/-- The 32-byte entries of a table. -/
def entries32 : Nat → List Byte → List (List Byte)
  | 0, _ => []
  | n + 1, bs => bs.take 32 :: entries32 n (bs.drop 32)

/-- Bytes of an image; none where they cannot be read. -/
def readPart (s : State) (a : AgentId) (asid va n : Nat) : Eng (Option (List Byte)) :=
  match s.devRead a asid (BitVec.ofNat 64 va) .plainLoad n n with
  | .ok s bs => .ok s (some bs)
  | .wait => .wait
  | .fail s _ => .ok s none

/-- Read the join maps of region entries and make the regions; none where a map cannot be read. -/
def readRegions (s : State) (a : AgentId) (asid kaddr : Nat) : List (List Byte) → Eng (Option (List Region))
  | [] => .ok s (some [])
  | r :: rs =>
    let len := fieldAt r 8 8
    let fl := fieldAt r 16 4
    let jo := fieldAt r 24 8
    let jm : Eng (Option (Option (List Byte))) :=
      if jo = 0 then .ok s (some none)
      else (readPart s a asid (kaddr + jo) ((len / 8 + 7) / 8)).andThen fun s bs => .ok s (bs.map some)
    jm.andThen fun s m => (readRegions s a asid kaddr rs).andThen fun s rest =>
      .ok s (match m, rest with
        | some m, some rest =>
          some (⟨kaddr + fieldAt r 0 8, len, bits fl 0 1 == 1, bits fl 1 1 == 1, bits fl 8 8, m⟩ :: rest)
        | _, _ => none)

/-- The dwords of a byte list. -/
def dwords : Nat → List Byte → List Nat
  | 0, _ => []
  | n + 1, bs => leNat (bs.take 8) :: dwords n (bs.drop 8)

/-- Pairs of consecutive addresses of offsets. -/
def pairsFrom (kaddr : Nat) : List Nat → List (DWord × DWord)
  | a :: b :: rest => (BitVec.ofNat 64 (kaddr + a), BitVec.ofNat 64 (kaddr + b)) :: pairsFrom kaddr rest
  | _ => []

/-- The 16-byte entries of a relocation table keep R368: aligned fields, and KIND 1 or 2. -/
def relocsOk : List Nat → Bool
  | off :: x :: rest => off % 8 == 0 && (bits x 56 8 == 1 || bits x 56 8 == 2) && relocsOk rest
  | _ => true

/-- An offset is that of an instruction's place in a portable region. -/
def inPortable (es : List (List Byte)) (o : Nat) : Bool :=
  o % 8 == 0 && es.any fun r =>
    bits (fieldAt r 16 4) 1 1 == 0 && fieldAt r 0 8 ≤ o && o < fieldAt r 0 8 + fieldAt r 8 8

/-- The entries of a safe-point table keep R368: in ascending order, each in a portable region. -/
def safesOk (es : List (List Byte)) : List Nat → Bool
  | a :: b :: rest => inPortable es a && a < b && safesOk es (b :: rest)
  | [a] => inPortable es a
  | [] => true

/-- What the header of an image says of it. -/
def headerImage (kaddr : Nat) (h : List Byte) : Image :=
  let at_ (off : Nat) : DWord := BitVec.ofNat 64 (kaddr + off)
  { kaddr := kaddr, regs := fieldAt h 6 2, lanes := fieldAt h 8 2, teams := fieldAt h 0x0A 1
    pfm := fieldAt h 0x0B 1, scra := fieldAt h 0x0C 4, slice := fieldAt h 0x10 4
    clg := fieldAt h 0x14 1, cmem := fieldAt h 0x18 4, regions := []
    fent := at_ (fieldAt h 0x30 8), tent := at_ (fieldAt h 0x38 8), stab := [], safe := [] }

/-- An image as it is read: the image; or the reason of R369 that it gives, 1 or 7, with what its header says. -/
abbrev ImageRead := Except (Nat × Option Image) Image

/-- Read an image and the push list of its launch. A part that cannot be read does not hide a rule that another breaks, since of
several reasons the lowest counts (R369). -/
def readImage (s : State) (a : AgentId) (asid kaddr param : Nat) : Eng ImageRead :=
  (readPart s a asid kaddr 128).andThen fun s h =>
  match h with
  | none => .ok s (.error (7, none))
  | some h =>
    if !imageHeaderOk h then .ok s (.error (1, none))
    else
      let i := headerImage kaddr h
      let nr := fieldAt h 0x20 4
      let ns := fieldAt h 0x24 4
      let nf := fieldAt h 0x64 4
      let np := 8 * fieldAt h 0x15 1
      (readPart s a asid (kaddr + fieldAt h 0x28 8) (32 * nr)).andThen fun s rt =>
      (readPart s a asid (kaddr + fieldAt h 0x40 8) (16 * ns)).andThen fun s st =>
      (readPart s a asid (kaddr + fieldAt h 0x58 8) (16 * fieldAt h 0x60 4)).andThen fun s rl =>
      (readPart s a asid (kaddr + fieldAt h 0x68 8) (8 * nf)).andThen fun s sf =>
      (readPart s a asid (param + fieldAt h 0x1C 4) np).andThen fun s pl =>
        let es := entries32 nr (rt.getD [])
        let safes := dwords nf (sf.getD [])
        let bad := (rt.isSome && (!es.all (regionOk kaddr) || (sf.isSome && !safesOk es safes)))
          || !relocsOk (match rl with
            | some rl => dwords (2 * fieldAt h 0x60 4) rl
            | none => [])
        if bad then .ok s (.error (1, none))
        else if rt.isNone then .ok s (.error (7, some i))
        else
          (readRegions s a asid kaddr es).andThen fun s regions =>
            .ok s (match regions, st, rl, sf, pl with
              | some regions, some st, some _, some _, some _ => .ok { i with
                  regions := regions, stab := pairsFrom kaddr (dwords (2 * ns) st)
                  safe := safes.map fun o => BitVec.ofNat 64 (kaddr + o) }
              | _, _, _, _, _ => .error (7, some i))

/-! ### Limits of a core (R18, R196) -/

/-- The register share of a block: S × n over its teams. -/
def Image.regShare (i : Image) : Nat := i.teams * teamSize i.lanes i.teams * i.regs
/-- The lane-slice share of a block. -/
def Image.sliceShare (i : Image) : Nat := i.teams * teamSize i.lanes i.teams * i.slice
/-- The four shares of a block together. -/
def Image.sramShare (i : Image) : Nat :=
  i.scra + i.sliceShare + (if i.clg = 0 then 0 else i.cmem) + i.teams * teamSize i.lanes i.teams * 8

/-- The images of the blocks resident on a core. -/
def State.residents (s : State) (u : Unit3) : List Image :=
  s.launches.flatMap fun l => (l.blocks.filter fun b => b.runsOn == u).map fun _ => l.img

/-- Blocks of the listed images fit on one core. -/
def fitsCore (is : List Image) : Bool :=
  let sum (f : Image → Nat) : Nat := is.foldl (fun n i => n + f i) 0
  is.length ≤ 4 && sum Image.regShare ≤ 65536 && sum Image.sramShare ≤ 524288 && sum Image.sliceShare ≤ 65536

/-! ### Starting a launch (R369, R370) -/

/-- DIES and CLUS of a function's envelope (R402). -/
def State.units (s : State) (fn : Nat) : Nat × Nat :=
  match s.func fn with
  | some f => (bitsAt (f.fenv.getD 1 0) 0 3, bitsAt (f.fenv.getD 1 0) 3 6)
  | none => (0, 0)

/-- The refusal reasons that follow from the packet and the image, lowest first (R369). -/
def refusal (s : State) (fn : Nat) (bs : List Byte) (i : ImageRead) : Option Nat :=
  let u := s.units fn
  let pin := pkBits bs 399 1 == 1
  let badUnit := u.1 ≤ Nat.log2 (pkBits bs 400 4) && pkBits bs 400 4 != 0
    || (pin && (u.1 ≤ pkBits bs 397 2 || u.2 ≤ pkBits bs 391 6))
    || (pin && pkBits bs 400 4 != 0 && !(pkBits bs 400 4).testBit (pkBits bs 397 2))
  let late (clg : Nat) : Option Nat :=
    if badUnit || (pin && clg != 0) then some 5 else if 768 < pkBits bs 224 16 then some 6 else none
  let limits (i : Image) : Option Nat :=
    if 65536 < i.regShare then some 2
    else if 524288 < i.sramShare || 65536 < i.sliceShare then some 3
    else if i.clg != 0 && pkBits bs 192 32 % i.clg != 0 then some 4
    else late i.clg
  match i with
  | .error (1, _) => some 1
  | .error (r, none) => some ((late 0).getD r)
  | .error (r, some i) => some ((limits i).getD r)
  | .ok i => limits i

/-- The checks on a LAUNCH packet: its image, or the lowest reason for which it is refused. -/
def checkLaunch (s : State) (q : Queue) (k : Nat) (bs : List Byte) : Eng (Except Nat Image) :=
  (readImage s (.porch k) q.asid (pkBits bs 64 64) (pkBits bs 128 64)).andThen fun s i =>
    .ok s (match refusal s q.fn bs i, i with
      | some r, _ => .error r
      | none, .ok i => .ok i
      | none, .error e => .error e.1)

/-- The first count from c on whose %launch names no present launch, as far as the fuel allows. -/
def freeCount (present : List Nat) (q : Nat) : Nat → Nat → Option Nat
  | 0, _ => none
  | n + 1, c => if present.contains (q * 65536 + c % 65536) then freeCount present q n (c + 1) else some (c % 65536)

/-- The service ring of a launch: its header's physical address where it has one, with the producer state formed or joined
(R384, R493). -/
def attachRing (s : State) (k asid : Nat) (svc : DWord) : Eng (Option Nat) :=
  if svc == 0 || svc.toNat % 64 != 0 then .ok s none
  else
    match s.check none asid svc 8 .load with
    | .error _ => .ok s none
    | .ok t =>
      if s.rings.any fun g => g.hdr == t.pa then .ok s (some t.pa)
      else
        match s.devRead (.porch k) asid svc .syncRead 64 64 with
        | .wait => .wait
        | .fail s _ => .ok s none
        | .ok s h =>
          let lsize := fieldAt h 8 1
          if fieldAt h 0 8 % 4096 == 0 && 6 ≤ lsize && lsize ≤ 16 && zeros ((h.drop 9).take 7) && zeros (h.drop 32) then
            .ok { s with rings := s.rings ++ [⟨t.pa, BitVec.ofNat 64 (fieldAt h 0 8), lsize, fieldAt h 0x18 8⟩] } (some t.pa)
          else .ok s none

/-- The launch of a packet as it waits for its Pantry. -/
def Launch.new (s : State) (q : Queue) (k l : Nat) (bs : List Byte) (i : Image) (ring : Option Nat) : Launch where
  id := l
  queue := q.id
  pkt := k
  asid := q.asid
  fn := q.fn
  prio := q.prio
  ac := if q.fn = 0 then q.ac else (match s.func q.fn with
    | some f => bitsAt f.qrange 32 4
    | none => 0)
  lpkt := bs
  param := BitVec.ofNat 64 (pkBits bs 128 64)
  nblk := pkBits bs 192 32
  pant := pkBits bs 224 16 * 65536
  sig := BitVec.ofNat 64 (pkBits bs 256 64)
  pin := if pkBits bs 399 1 = 1 then some ⟨pkBits bs 397 2, pkBits bs 391 6, pkBits bs 389 2⟩ else none
  diem := pkBits bs 400 4
  ring := ring
  dstop := match s.func q.fn with
    | some f => f.dstop
    | none => false
  st := .waiting
  saves := 0
  img := i
  xlats := []
  nextB := 0
  finals := []
  blocks := []
  groups := []
  pantry := []
  cores := []
  code := s.mem

/-- The number that a queue's count gives its next launch (R370). -/
def State.nextCount (s : State) (q : Queue) : Option Nat := freeCount (s.launches.map Launch.id) q.id 65536 q.launches

/-- A launch takes its number, and the count advances: a refused one too (R370). -/
def State.countLaunch (s : State) (q c : Nat) : State := s.updQueue q fun x => { x with launches := (c + 1) % 65536 }

/-- What the checks on a LAUNCH packet come to: its image, a refusal with its reason, or a wait (R369). -/
inductive LaunchCheck where
  | ok (s : State) (i : Image)
  | refused (s : State) (reason : Nat)
  | wait

/-- The checks on a LAUNCH packet, a refusal counted. -/
def checkedLaunch (s : State) (q : Queue) (k : Nat) (bs : List Byte) : LaunchCheck :=
  match s.nextCount q with
  | none => .wait
  | some c =>
    match checkLaunch s q k bs with
    | .wait => .wait
    | .fail s _ => .refused (s.countLaunch q.id c) 7
    | .ok s (.error r) => .refused (s.countLaunch q.id c) r
    | .ok s (.ok i) => .ok s i

/-- Start a launch whose checks have passed: %launch and the service ring; the state and %launch. -/
def beginLaunch (s : State) (q : Queue) (k : Nat) (bs : List Byte) (i : Image) : Eng Nat :=
  match s.nextCount q with
  | none => .wait
  | some c =>
    (attachRing s k q.asid (BitVec.ofNat 64 (pkBits bs 320 64))).andThen fun s ring =>
      let l := q.id * 65536 + c
      .ok { s.countLaunch q.id c with launches := s.launches ++ [Launch.new s q k l bs i ring] } l

/-! ### Residency (R85, R138 to R140, R195, R202) -/

/-- The state of a lane at entry: block lane b of L (R84). -/
def laneAt (lanes b : Nat) : LaneSt × Bool :=
  if b < lanes then (.active, false) else if b / 4 == (lanes - 1) / 4 then (.active, true) else (.absent, false)

/-- A team at entry (R18, R20 to R23, R85, R156). DESIGN CHOICE (R84 says only that dersas refuses a shape that leaves a whole team
absent, and R369 names no reason for it, notes/assumptions/35): such a launch is accepted, and that team has no fragment and counts
as exited from the start. -/
def Team.entry (i : Image) (k : Nat) : Team :=
  let n := teamSize i.lanes i.teams
  let seats := (List.range n).map fun x =>
    let p := laneAt i.lanes (k * n + x)
    (⟨x, p.1, p.2, 0, List.replicate i.regs 0⟩ : Seat)
  let present := (List.range n).filter fun x => (laneAt i.lanes (k * n + x)).1 == .active
  { seats := seats
    frags := if present.isEmpty then [] else [Frag.at i.tent (maskOf present)]
    asf := 0, ate := 0, trapres := 0, qprog := 0, dqPos := 0
    shapes := List.replicate 16 0, creg := List.replicate 16 0
    inCap := false, adopt := none, saved := none, parked := none, stop := false, stepping := false, stepDone := false
    pend := [], scratch := 0, sb := 0, bar := none, solve := .none
    copy := ⟨[], 1, 0, []⟩, hearth := ⟨[], 1, 0, []⟩ }

/-- A Foyer context at entry (R85). -/
def Foyer.entry (i : Image) (param : DWord) (b : Nat) : Foyer where
  pc := i.fent
  s := ((List.replicate 64 (0 : DWord)).set 1 param).set 2 (BitVec.ofNat 64 b)
  sexit := false
  parked := none
  stop := false
  stepping := false
  stepDone := false
  stalled := false
  lift := .none
  since := 0
  skip := none
  chain := none
  chainPc := i.fent
  pend := []
  sb := 0

/-- A solve context as its block becomes resident (R451). -/
def Solve.fresh : Solve := ⟨0, 65535, 0, 0, 0, 0, 0, 0, [], 0, 0, 0, [], 0, .idle⟩

/-- Where an installed translation that is active has a native point for a PC of the image's old code. -/
def Launch.entryMove (l : Launch) (foyer : Bool) (pc : DWord) : Option DWord :=
  (l.xlats.filter Xlat.active).findSome? fun x =>
    (x.points.find? fun p => p.1 == pc && l.nativeAt foyer p.2).map Prod.snd

/-- The image with its entry points moved to native code where a translation is installed (R70). -/
def Launch.entryImage (l : Launch) : Image :=
  { l.img with fent := (l.entryMove true l.img.fent).getD l.img.fent, tent := (l.entryMove false l.img.tent).getD l.img.tent }

/-- A block at entry on a core. -/
def Block.entry (l : Launch) (b age : Nat) (u : Unit3) : Block where
  id := b
  place := u
  runsOn := u
  age := age
  foyer := Foyer.entry l.entryImage l.param b
  teams := (List.range l.img.teams).map (Team.entry l.entryImage)
  dq := []
  dqFreed := 0
  bars := []
  scratch := []
  slices := []
  solve := Solve.fresh

/-- The dies that a launch may use. -/
def State.diesOf (s : State) (l : Launch) : List Nat :=
  allDies.filter fun d => d < (s.units l.fn).1 && (l.diem == 0 || l.diem.testBit d)
    && (match l.pin with
        | some u => u.die == d
        | none => true)

/-- The Pantry that launches hold on a die, in bytes. -/
def State.pantryUsed (s : State) (d : Nat) : Nat :=
  s.launches.foldl (fun n l => if l.pantry.any fun p => p.1 == d then n + l.pant else n) 0

/-- A launch receives its Pantry on each die that it may use, once it fits on all of them (R202). -/
def State.givePantry (s : State) (l : Launch) : Option State :=
  if l.st != .waiting then some s
  else
    let ds := s.diesOf l
    if ds.all fun d => s.pantryUsed d + l.pant ≤ 48 * 2 ^ 20 then
      some (s.updLaunch l.id fun x => { x with st := .running, pantry := ds.map fun d => (d, []), code := s.mem })
    else none

/-- A core can take another block of a launch. -/
def State.canTake (s : State) (l : Launch) (u : Unit3) : Bool :=
  u.cluster < (s.units l.fn).2 && u.core < 4 && (s.diesOf l).contains u.die
    && (match l.pin with
        | some p => p == u
        | none => true)
    && fitsCore (l.img :: s.residents u)

/-- A block of a launch that a debug stop holds does not issue (R383). -/
def Block.hold (b : Block) : Block :=
  { b with foyer := { b.foyer with stop := true }, teams := b.teams.map fun t => { t with stop := true } }

/-- BLOCK_RESIDENT: the next block of a launch, or the next whole group on cores 0 to g - 1 of a cluster, becomes resident
and starts. The acquire at .sys with which its packet started reaches each core as it takes a block (R365, R226; DEDUCED,
notes/assumptions/36). -/
def execBlockResident (l die cluster core : Nat) (s : State) : Out :=
  match s.launch l with
  | none => .next s
  | some ln =>
    if (ln.st != .waiting && ln.st != .running) || ln.nblk ≤ ln.nextB then .next s
    else
      match s.givePantry ln with
      | none => .next s
      | some s =>
        let g := ln.img.clg
        let us : List Unit3 := if g = 0 then [⟨die, cluster, core⟩] else (List.range g).map fun i => ⟨die, cluster, i⟩
        if us.all (s.canTake ln) then
          let bs := (us.zip (List.range us.length)).map fun p => Block.entry ln (ln.nextB + p.2) s.tick p.1
          let bs := if ln.held then bs.map Block.hold else bs
          .next ((us.foldl (fun s u => s.acquire u .sys) s).updLaunch l fun x =>
            { x with blocks := x.blocks ++ bs, nextB := x.nextB + us.length, cores := (x.cores ++ us).eraseDups
                     groups := if g = 0 then x.groups else x.groups ++ [⟨ln.nextB / g, [], []⟩] })
        else .next s

/-! ### Completion (R157, R268, R328, R369) -/

/-- A team's engine operations have all completed. -/
def Team.quiet (t : Team) : Bool := t.copy.ops.all (fun o => o.done) && t.hearth.ops.isEmpty

/-- A block has completed. -/
def Block.over (b : Block) : Bool := b.foyer.sexit && b.teams.all fun t => t.exited && t.quiet

/-- BLOCK_COMPLETE: the block gives back its core; the final count of its solve timeline stays (R452). -/
def execBlockComplete (l b : Nat) (s : State) : Out :=
  match s.launch l with
  | none => .next s
  | some ln => match ln.block b with
    | none => .next s
    | some bk =>
      if ln.st != .running || !bk.over then .next s
      else
        let s := (s.endRegion (.foyer l b)).endRegion (.solve l b)
        .next (s.updLaunch l fun x =>
          let left := x.blocks.filter fun y => y.id != b
          { x with
            blocks := left
            finals := x.finals ++ [(b, bk.solve.timeline)]
            groups := x.groups.filter fun g => left.any fun y => groupOf x y.id == g.id })

/-- Every line that is dirty in an L1 is written back. -/
def State.drainAll (s : State) : State := s.l1.foldl (fun s c => s.drainL1 c.core) s

/-- The producer states of rings that no present launch names are dropped (R493). -/
def State.dropRings (s : State) : State :=
  { s with rings := s.rings.filter fun g => s.launches.any fun l => l.ring == some g.hdr }

/-- A launch leaves the device with its records and bindings' uses; its regions end. -/
def State.dropLaunch (s : State) (l : Nat) : State :=
  ({ s with
    launches := s.launches.filter fun x => x.id != l
    records := s.records.filter fun r => r.launch != l
    marks := s.marks.filter fun m => !m.agent.ofLaunch l
    bindings := s.bindings.map fun b => { b with held := b.held.filter fun a => !a.ofLaunch l } } : State).dropRings.dropBindings

/-- Subtract 1 from a completion signal by an atomic at .sys; an access that fails leaves it as it is (notes/assumptions/22). -/
def State.decSignal (s : State) (k asid : Nat) (sig : DWord) : State :=
  if sig == 0 then s
  else
    match s.devAccess (.porch k) asid sig 8 .atomic .syncWrite with
    | .ok s t =>
      ({ s with mem := s.mem.put t.pa (leBytes 8 ((s.mem.num t.pa 8 + (2 ^ 64 - 1)) % 2 ^ 64)) } : State).watch t.pa 8
    | _ => s

/-- The tiles that a launch has left open are discarded and reported (R328). -/
def State.reportTiles (s : State) (l : Nat) : State :=
  let open_ := s.tiles.filter fun t => t.owner.ofLaunch l
  open_.foldl (fun s t =>
    let p := match t.owner with
      | .hearth _ b k => (b, k)
      | _ => (0, 0)
    s.launchError l 2 0x83#8 t.owner p.1 p.2 0 2 0 t.num t.cva .none)
    { s with tiles := s.tiles.filter fun t => !t.owner.ofLaunch l }

/-- The LAUNCH packet of a launch that is over completes, or the prologue run that launched it is told (R375). -/
def State.finishPkt (s : State) (k : Nat) : State :=
  if s.prologues.any fun p => p.key == k then
    { s with prologues := upd (fun p => p.key == k) (fun p => { p with launch := none }) s.prologues }
  else s.completePkt k

/-- LAUNCH_COMPLETE: every block has completed, or the launch was ended. Tiles still open are reported first, and the
launch waits until its records are written; then a release at .sys, SIG, and the packet. -/
def execLaunchComplete (l : Nat) (s : State) : Out :=
  match s.launch l with
  | none => .next s
  | some ln =>
    let ended := ln.st == .ended || (ln.st == .running && ln.nblk ≤ ln.nextB && ln.blocks.isEmpty)
    if !ended then .next s
    else if ln.st != .ended && s.tiles.any (fun t => t.owner.ofLaunch l) then .next (s.reportTiles l)
    else if s.records.any fun r => r.launch == l && r.ix.isNone then .next s
    else
      let s := { s.drainAll with peerOut := s.peerOut.filter fun p => !p.agent.ofLaunch l }
      .next (((s.decSignal ln.pkt ln.asid ln.sig).dropLaunch l).finishPkt ln.pkt)

/-- An earlier LAUNCH packet of the same queue or graph instance that has yet to start (R365). -/
def State.launchBefore (s : State) (p : Pkt) : Bool :=
  s.pkts.any fun x => x.queue == p.queue && x.parent == p.parent && x.ix < p.ix && pkBits x.bytes 0 8 == 1 && x.sub == 0

/-- LAUNCH: a LAUNCH packet that has passed its checks and been consumed starts, in index order. -/
def execLaunch (k : Nat) (s : State) : Out :=
  match s.pkt k with
  | none => .next s
  | some p => match s.queue p.queue, p.img with
    | some q, some i =>
      if pkBits p.bytes 0 8 != 1 || p.st != .started || p.sub != 0 || s.launchBefore p then .next s
      else
        match beginLaunch s q k p.bytes i with
        | .ok s _ => .next (s.updPkt k fun p => { p with sub := 1 })
        | _ => .next s
    | _, _ => .next s

/-! ### Indirect launch (R373 to R375) -/

/-- The registers of a run: s1 = ARGS, s2 = the number of earlier runs. -/
def runRegs (args : DWord) (runs : Nat) : List DWord :=
  ((List.replicate 16 (0 : DWord)).set 1 args).set 2 (BitVec.ofNat 64 runs)

/-- Begin a run of a packet's prologue. -/
def beginRun (bs : List Byte) (p : Prologue) : Prologue :=
  { p with
    steps := 0
    pc := BitVec.ofNat 64 (pkBits bs 64 64)
    s := runRegs (BitVec.ofNat 64 (pkBits bs 128 64)) p.runs
    runs := p.runs + 1
    active := true
    outcome := none
    repeats := false
    launch := none }

/-- Write a result word of a packet; an access that fails leaves it as it is (notes/assumptions/22). -/
def State.writeRes (s : State) (k asid : Nat) (res : DWord) (v : Nat) : State :=
  if res == 0 then s
  else match s.devPut (.porch k) asid res (leBytes 8 v) .plainStore with
    | .ok s _ => s
    | _ => s

/-- A packet's prologue is to run again: PREPEAT's launch has completed and fewer than RLIM runs have launched. -/
def runsAgain (bs : List Byte) (p : Prologue) : Bool :=
  !p.active && p.outcome.isSome && p.launch.isNone && p.repeats && p.launches < pkBits bs 256 16

/-- LAUNCH_IND: the packet's first run begins; once its last run has ended and the last launch has completed, RES is
written and the packet completes. -/
def execLaunchInd (k : Nat) (s : State) : Out :=
  match s.pkt k with
  | none => .next s
  | some pk =>
    if pkBits pk.bytes 0 8 != 2 || pk.st != .started then .next s
    else
      match s.prologues.find? fun p => p.key == k with
      | none =>
        .next { s with prologues := s.prologues ++ [beginRun pk.bytes ⟨k, 0, 0, 0, 0, [], false, none, false, none⟩] }
      | some p =>
        match p.outcome with
        | none => .next s
        | some o =>
          if p.active || p.launch.isSome || runsAgain pk.bytes p then .next s
          else
            let asid := match s.queue pk.queue with
              | some q => q.asid
              | none => 0
            let s := s.writeRes k asid (BitVec.ofNat 64 (pkBits pk.bytes 192 64))
              (o.1 + p.launches % 65536 * 65536 + o.2 % 2 ^ 32 * 2 ^ 32)
            .next (({ s with prologues := s.prologues.filter fun p => p.key != k } : State).completePkt k)

/-- PROLOGUE_REPEAT: the prologue runs again. -/
def execPrologueRepeat (k : Nat) (s : State) : Out :=
  match s.prologues.find? (fun p => p.key == k), s.pkt k with
  | some p, some pk =>
    .next (if pk.st == .started && runsAgain pk.bytes p then s.putPrologue (beginRun pk.bytes p) else s)
  | _, _ => .next s

/-- Issue a prologue form; in a kernel's Foyer stream it raises 0x01 (R193). -/
def prologueForm (i : Instr) (s : State) (k : PEnv → Out) : Out :=
  if s.inPrologue then issuePrologue i s k else withFoyer s fun e => trapF s e 0x01#8

/-- PLAUNCH and PREPEAT: the 64 bytes at sA start a launch, PH and CONC ignored; a refused launch halts the queue. -/
def launchForm (i : Instr) (s : State) (a : SReg) (again : Bool) : Out :=
  prologueForm i s fun e =>
    match s.devRead (.prologue e.p.key) e.q.asid (e.p.rd a) .plainLoad 64 64 with
    | .wait => .next s
    | .fail s _ => .next (endRun s e.p 5 0)
    | .ok s bs =>
      let h := leNat (bs.take 8)
      let bs := leBytes 8 (h - h / 2 ^ 8 % 4 * 2 ^ 8) ++ bs.drop 8
      if fieldAt bs 0 1 != 1 || !packetOk bs then .next (endRun s e.p 5 0)
      else
        match checkedLaunch s e.q e.p.key bs with
        | .wait => .next s
        | .refused s r => .next (s.haltPacket e.p.key 3 r)
        | .ok s i =>
          match beginLaunch s e.q e.p.key bs i with
          | .ok s l => .next (endRun s { e.p with launches := e.p.launches + 1, launch := some l, repeats := again } 0 0)
          | _ => .next s

/-- PLAUNCH. -/
def execPlaunch (a : SReg) (s : State) : Out := launchForm (.plaunch a) s a false
/-- PREPEAT. -/
def execPrepeat (a : SReg) (s : State) : Out := launchForm (.prepeat a) s a true
/-- PCANCEL. -/
def execPcancel (a : SReg) (s : State) : Out :=
  prologueForm (.pcancel a) s fun e => .next (endRun s e.p 1 ((e.p.rd a).toNat % 2 ^ 32))

end Sys2Proof.Machine
end

