-- ==== Sys2Proof/Machine/Packets.lean ====
section
/-!
DEFINITION. Machine/Packets.lean: what must hold before a packet starts (R359, R364, R369, R371, R377), the packets FENCE,
SIGNAL, TIMELINE, COPY, FORMAT, NOP and GRAPH (R371, R372, R376 to R378), and bulk packets (R272 to R275).
-/
namespace Sys2Proof.Machine

/-- The cause that a status or DETAIL holds for a suspension: that of R125, or 0x60. -/
def Susp.code (w : Susp) : Cause := if w.cause == 0x87#8 then w.inner else w.cause

/-- The queue of a packet. -/
def State.queueOf (s : State) (p : Pkt) : Option Queue := s.queue p.queue

/-! ### Moving bytes (R274) -/

/-- Read n bytes one by one from an address: those read before one fails. -/
def readRun (s : State) (a : AgentId) (asid : Nat) (va : DWord) : Nat → List Byte → List Byte × Eng Unit
  | 0, acc => (acc.reverse, .ok s ())
  | n + 1, acc =>
    match s.devAccess a asid va 1 .load .plainLoad with
    | .ok s t => readRun s a asid (va + 1) n (s.mem.get t.pa :: acc)
    | .wait => (acc.reverse, .wait)
    | .fail s w => (acc.reverse, .fail s w)

/-- Write bytes one by one from an address: how many were written before one fails. -/
def writeRun (s : State) (a : AgentId) (asid : Nat) (va : DWord) : List Byte → Nat → Nat × Eng Unit
  | [], n => (n, .ok s ())
  | b :: bs, n =>
    match s.devPut a asid va [b] .plainStore with
    | .ok s _ => writeRun s a asid (va + 1) bs (n + 1)
    | .wait => (n, .wait)
    | .fail s w => (n, .fail s w)

/-- What moving bytes comes to: all written; or, with DONE bytes written, held back by a full dirty log or suspended. -/
inductive BulkRun where
  | done (s : State)
  | held (s : State) (done : Nat)
  | stop (s : State) (done : Nat) (w : Susp)

/-- Reach bytes for their D bits and dirty records, as far as the log has room (R415). -/
def reachRun (s : State) (a : AgentId) (asid : Nat) (va : DWord) : Nat → State
  | 0 => s
  | n + 1 =>
    match s.devAccess a asid va 1 .store .plainStore with
    | .ok s _ => reachRun s a asid (va + 1) n
    | _ => s

/-- The last boundary of 128 bytes that n bytes reach, but no lower than where the work began. -/
def boundary (from_ n : Nat) : Nat := max from_ (n / 128 * 128)

/-- Write the bytes from DONE on; where one cannot be written, those up to the last boundary are, but none of a copy whose ranges
overlap (R274, R275). -/
def bulkWrite (s : State) (a : AgentId) (asid : Nat) (dst : DWord) (done : Nat) (bs : List Byte) (overlap : Bool) : BulkRun :=
  let at_ := dst + BitVec.ofNat 64 done
  let r := writeRun s a asid at_ bs 0
  let keep := if overlap then done else boundary done (done + r.1)
  let u := match (writeRun s a asid at_ (bs.take (keep - done)) 0).2 with
    | .ok u _ => u
    | _ => s
  match r.2 with
  | .ok s _ => .done s
  | .wait => .held (reachRun u a asid (dst + BitVec.ofNat 64 keep) (done + bs.length - keep)) keep
  | .fail f w => .stop { u with funcs := f.funcs, intrs := f.intrs } keep w

/-- COPY from DONE: as if every source byte were read before any destination byte is written. What was read before a read that fails
stays marked (R237). -/
def bulkCopy (s : State) (a : AgentId) (asid : Nat) (src dst : DWord) (n done : Nat) : BulkRun :=
  let overlap := src.toNat < dst.toNat + n && dst.toNat < src.toNat + n
  match readRun s a asid (src + BitVec.ofNat 64 done) (n - done) [] with
  | (_, .wait) => .held s done
  | (bs, .ok s _) => bulkWrite s a asid dst done bs overlap
  | (bs, .fail f w) =>
    match bulkWrite f a asid dst done (if overlap then [] else bs.take (boundary done (done + bs.length) - done)) overlap with
    | .done u => .stop u (if overlap then done else boundary done (done + bs.length)) w
    | r => r

/-- FILL from DONE: byte j of the range is byte j mod 8 of the pattern. -/
def bulkFill (s : State) (a : AgentId) (asid : Nat) (dst : DWord) (pat n done : Nat) : BulkRun :=
  bulkWrite s a asid dst done ((List.range (n - done)).map fun j => BitVec.ofNat 8 (pat / 2 ^ (8 * ((done + j) % 8)))) false

/-! ### Before the start (R359) -/

/-- What the checks before a packet's start come to: the state with what the packet keeps, a halt, or a wait. -/
inductive Take where
  | ok (s : State) (aux : List DWord) (img : Option Image)
  | halt (s : State) (status detail : Nat)
  | wait

/-- The entries of a FENCE list: addresses and values in turn. -/
def fenceList (s : State) (k asid : Nat) (bs : List Byte) : Eng (List DWord) :=
  let n := 16 * pkBits bs 128 4
  (s.devRead (.porch k) asid (BitVec.ofNat 64 (pkBits bs 64 64)) .plainLoad n n).andThen fun s l =>
    .ok s ((dwords (n / 8) l).map (BitVec.ofNat 64))

/-- The cause of the first FENCE address that fails R125. -/
def fenceCause (s : State) (asid : Nat) : List DWord → Option Cause
  | a :: _ :: rest => match s.check none asid a 8 .load with
    | .error e => some e.cause
    | .ok _ => fenceCause s asid rest
  | _ => none

/-- The header of a graph image (R376). -/
def graphHeaderOk (h : List Byte) : Bool :=
  fieldAt h 0 4 == 0x48505247 && fieldAt h 4 2 == 1 && 1 ≤ fieldAt h 6 2 && fieldAt h 6 2 ≤ 1024 && zeros (h.drop 8)

/-- The 64-byte packets of an image. -/
def packets64 : Nat → List Byte → List (List Byte)
  | 0, _ => []
  | n + 1, bs => bs.take 64 :: packets64 n (bs.drop 64)

/-- A packet that may not stand in a graph: a GRAPH, or one with a reserved field that is not 0. -/
def graphFault (bs : List Byte) : Bool :=
  pkBits bs 0 8 == 7 || (match assigned bs with
    | some m => leNat bs &&& m != leNat bs
    | none => false)

/-- Copy a graph image into the 4 MiB cache (R377); an image that cannot be read halts as a slot would
(notes/assumptions/22). -/
def loadGraph (s : State) (k asid : Nat) (bs : List Byte) : Take :=
  let ga := BitVec.ofNat 64 (pkBits bs 64 64)
  match s.devRead (.porch k) asid ga .syncRead 64 64 with
  | .wait => .wait
  | .fail s w => .halt s 8 w.code.toNat
  | .ok s h =>
    if !graphHeaderOk h then .halt s 2 0
    else
      let n := fieldAt h 6 2
      if 4 * 2 ^ 20 < s.graphs.foldl (fun a g => a + g.bytes) 0 + 64 + 64 * n then .wait
      else
        match s.devRead (.porch k) asid (ga + 64) .syncRead (64 * n) (64 * n) with
        | .wait => .wait
        | .fail s w => .halt s 8 w.code.toNat
        | .ok s body =>
          let ps := packets64 n body
          match (List.range n).find? fun i => graphFault (ps.getD i []) with
          | some i => .halt s 2 (i + 1)
          | none => .ok { s with graphs := s.graphs ++ [⟨k, 64 + 64 * n, ps, 0⟩] } [] none

/-- The checks that precede the start of a command packet. -/
def preStart (s : State) (q : Queue) (k : Nat) (bs : List Byte) : Take :=
  if !packetOk bs then .halt s 2 0
  else
    match pkBits bs 0 8 with
    | 1 =>
      match checkedLaunch s q k bs with
      | .wait => .wait
      | .refused s r => .halt s 3 r
      | .ok s i => .ok s [] (some i)
    | 4 =>
      match fenceList s k q.asid bs with
      | .wait => .wait
      | .fail s w => .halt s 5 w.code.toNat
      | .ok s l => match fenceCause s q.asid l with
        | some c => .halt s 5 c.toNat
        | none => .ok s l none
    | 6 => match s.counter q.fn none (pkBits bs 64 32) with
      | none => .halt s 6 0x86
      | some _ => .ok s [] none
    | 7 => loadGraph s k q.asid bs
    | _ => .ok s [] none

/-! ### Consuming (R359) -/

/-- Write RIDX + 1; where the write fails the queue halts and the packet, in hand, is not started. -/
def consume (s : State) (q : Queue) (k : Nat) (complete : Bool) : State :=
  let a : AgentId := if q.bulk then .bulk q.id else .porch k
  match s.devPut a q.asid q.ridxa (leBytes 8 (q.ridx + 1)) .syncWrite with
  | .wait => s
  | .fail s w => s.haltQueue q.id 8 w.code.toNat
  | .ok s _ =>
    let s := s.updQueue q.id fun x => { x with ridx := q.ridx + 1 }
    if complete then s.completePkt k else s.updPkt k fun p => { p with st := .started }

/-! ### FENCE (R372) -/

/-- A counter's condition: COND, the value read and the entry's. -/
def fenceMet (cond v n : Nat) : Bool :=
  match cond with
  | 0 => n ≤ v
  | 1 => v == n
  | 2 => v != n
  | _ => v < n

/-- Read once each counter that has not met its condition: the bits of those that have. -/
def pollFence (s : State) (k asid : Nat) (bs : List Byte) : List DWord → Nat → Nat → Eng Nat
  | a :: n :: rest, i, met =>
    if met.testBit i then pollFence s k asid bs rest (i + 1) met
    else
      (s.devAccess (.porch k) asid a 8 .load .syncRead).andThen fun s t =>
        let ok := fenceMet (pkBits bs (136 + 2 * i) 2) (s.mem.num t.pa 8) n.toNat
        pollFence s k asid bs rest (i + 1) (if ok then met + 2 ^ i else met)
  | _, _, met => .ok s met

/-- FENCE_PACKET: a FENCE reads its list where it does not hold it, and its counters. -/
def execFencePacket (k : Nat) (s : State) : Out :=
  match s.pkt k with
  | none => .next s
  | some p => match s.queueOf p with
    | none => .next s
    | some q =>
      if pkBits p.bytes 0 8 != 4 || p.st != .started then .next s
      else
        let l : Eng (List DWord) := if p.aux.isEmpty then fenceList s k q.asid p.bytes else .ok s p.aux
        let r := l.andThen fun s l => (pollFence s k q.asid p.bytes l 0 p.sub).andThen fun s m => .ok s (l, m)
        match r with
        | .wait => .next s
        | .fail s w => .next (s.haltPacket k 5 w.code.toNat)
        | .ok s (l, m) => .next (s.updPkt k fun p => { p with aux := l, sub := m })

/-- FENCE_PACKET_COMPLETE: every counter has met its condition once. -/
def execFencePacketComplete (k : Nat) (s : State) : Out :=
  .next (match s.pkt k with
    | none => s
    | some p =>
      if pkBits p.bytes 0 8 == 4 && p.st == .started && p.sub + 1 == 2 ^ pkBits p.bytes 128 4 then s.completePkt k else s)

/-! ### SIGNAL, TIMELINE, NOP, FORMAT, COPY (R371, R372) -/

/-- The value that a SIGNAL writes, modulo 2^64. -/
def signalValue (bs : List Byte) (old : Nat) : Nat :=
  let v := pkBits bs 128 64
  match pkBits bs 192 2 with
  | 0 => (old + (2 ^ 64 - v)) % 2 ^ 64
  | 1 => (old + v) % 2 ^ 64
  | _ => v

/-- SIGNAL: one atomic at .sys; the packet is consumed once it has performed. -/
def execSignal (k : Nat) (s : State) : Out :=
  match s.pkt k with
  | none => .next s
  | some p => match s.queueOf p with
    | none => .next s
    | some q =>
      if pkBits p.bytes 0 8 != 5 || p.sub != 0 || p.st == .waiting || q.halted && p.parent.isNone then .next s
      else
        match s.devAccess (.porch k) q.asid (BitVec.ofNat 64 (pkBits p.bytes 64 64)) 8 .atomic .syncWrite with
        | .wait => .next s
        | .fail s w =>
          .next (if p.parent.isSome then s.haltPacket k 5 w.code.toNat
            else (s.completePkt k).haltQueue q.id 5 w.code.toNat)
        | .ok s t =>
          let s := ({ s with mem := s.mem.put t.pa (leBytes 8 (signalValue p.bytes (s.mem.num t.pa 8))) } : State).watch t.pa 8
          let s := if pkBits p.bytes 194 1 = 1 then s.interrupt q.fn 1 else s
          .next (if p.parent.isSome then s.completePkt k
            else consume (s.updPkt k fun p => { p with sub := 1 }) q k true)

/-- TIMELINE: waits for the counter. -/
def execTimeline (k : Nat) (s : State) : Out :=
  match s.pkt k with
  | none => .next s
  | some p => match s.queueOf p with
    | none => .next s
    | some q =>
      if pkBits p.bytes 0 8 != 6 || p.st != .started then .next s
      else
        match s.counter q.fn none (pkBits p.bytes 64 32) with
        | none => .next (s.haltPacket k 6 0x86)
        | some c => .next (if pkBits p.bytes 128 64 ≤ c then s.completePkt k else s)

/-- NOP_PACKET: completes at once. -/
def execNopPacket (k : Nat) (s : State) : Out :=
  .next (match s.pkt k with
    | none => s
    | some p => if pkBits p.bytes 0 8 == 0 && p.st == .started then s.completePkt k else s)

/-- FORMAT: appends its request, waiting while the stream is full; once the request has completed, writes RES. One that the Porch
controller refuses, for a function that has been barred, makes no request and completes with status 0xFF in RES; whether a function
is barred is a free value (R372). -/
def execFormat (k : Nat) (s : State) : Out :=
  match s.pkt k with
  | none => .next s
  | some p => match s.queueOf p with
    | none => .next s
    | some q =>
      if pkBits p.bytes 0 8 != 8 || p.st != .started then .next s
      else
        match p.sub with
        | 0 =>
          if Config.barred s.freeCtr q.fn then
            .next (({ s with freeCtr := s.freeCtr + 1 }.writeRes k q.asid (BitVec.ofNat 64 (pkBits p.bytes 192 64)) 0xFF).completePkt k)
          else
          match s.appendReq q.fn q.asid (pkBits p.bytes 256 3) (pkBits p.bytes 259 1 == 1)
              (BitVec.ofNat 64 (pkBits p.bytes 64 64)) (BitVec.ofNat 64 (pkBits p.bytes 128 64)) (some k) none with
          | none => .next s
          | some (s, _) => .next ({ s with freeCtr := s.freeCtr + 1 }.updPkt k fun p => { p with sub := 1 })
        | 1 => .next s
        | _ =>
          let s := s.writeRes k q.asid (BitVec.ofNat 64 (pkBits p.bytes 192 64)) (p.aux.headD 0).toNat
          .next (s.completePkt k)

/-- COPY_PACKET: a COPY of a command queue, by the bulk engines. -/
def execCopyPacket (k : Nat) (s : State) : Out :=
  match s.pkt k with
  | none => .next s
  | some p => match s.queueOf p with
    | none => .next s
    | some q =>
      if pkBits p.bytes 0 8 != 3 || p.st != .started then .next s
      else
        match bulkCopy s (.porch k) q.asid (BitVec.ofNat 64 (pkBits p.bytes 64 64)) (BitVec.ofNat 64 (pkBits p.bytes 128 64))
            (pkBits p.bytes 192 40) p.sub with
        | .held s d => .next (s.updPkt k fun p => { p with sub := d })
        | .done s => .next (s.completePkt k)
        | .stop s d w => .next ((s.updPkt k fun p => { p with sub := d }).haltPacket k 4 w.code.toNat)

/-! ### GRAPH (R377, R378) -/

/-- The packets in flight of a queue (parent none) or of a graph run. -/
def State.inFlight (s : State) (q : Nat) (parent : Option Nat) : List Pkt :=
  s.pkts.filter fun p => p.queue == q && p.parent == parent

/-- A FENCE among packets in flight: no later packet is read while it waits (R372). -/
def fenced (flying : List Pkt) : Bool := flying.any fun p => pkBits p.bytes 0 8 == 4

/-- A packet may start after those in flight: none, or CONC; and no FENCE waits (R365, R372). -/
def mayStart (flying : List Pkt) (bs : List Byte) : Bool :=
  flying.isEmpty
    || (concType (pkBits bs 0 8) && pkBits bs 9 1 == 1
      && !fenced flying && flying.all fun p => p.st == .started)

/-- GRAPH: the run starts its next packet; a halt within it halts the owning queue. -/
def execGraph (k : Nat) (s : State) : Out :=
  match s.pkt k, s.graphs.find? fun g => g.key == k with
  | some p, some g => match s.queueOf p with
    | none => .next s
    | some q =>
      match g.pkts[g.next]? with
      | none => .next s
      | some bs =>
        if p.st != .started || !mayStart (s.inFlight q.id (some k)) bs then .next s
        else
          let k' := s.nextKey
          let s := { s with nextKey := k' + 1 }
          match preStart s q k' bs with
          | .wait => .next s
          | .halt s st _ => .next ((s.updPkt k fun p => { p with st := .waiting }).haltQueue q.id st (g.next + 1))
          | .ok s aux img =>
            .next { s with
              pkts := s.pkts ++ [⟨k', q.id, some k, g.next, bs, .started, 0, aux, img⟩]
              graphs := upd (fun g => g.key == k) (fun g => { g with next := g.next + 1 }) s.graphs }
  | _, _ => .next s

/-- GRAPH_INSTANCE_COMPLETE: the last packet has completed; SIG as in R369, and the cache space is freed. -/
def execGraphInstanceComplete (k : Nat) (s : State) : Out :=
  match s.pkt k, s.graphs.find? fun g => g.key == k with
  | some p, some g => match s.queueOf p with
    | none => .next s
    | some q =>
      if p.st != .started || g.next < g.pkts.length || !(s.inFlight q.id (some k)).isEmpty then .next s
      else
        let s := s.decSignal k q.asid (BitVec.ofNat 64 (pkBits p.bytes 128 64))
        .next (({ s with graphs := s.graphs.filter fun g => g.key != k } : State).completePkt k)
  | _, _ => .next s

/-! ### Bulk packets (R273 to R275) -/

/-- The bits that a bulk packet's TYPE assigns. -/
def bulkAssigned (bs : List Byte) : Option Nat :=
  let bo := if pkBits bs 9 1 = 1 then spanBits 319 256 else 0
  let head := spanBits 10 0 + spanBits 31 16
  match pkBits bs 0 8 with
  | 0 | 1 => some (head + bo + spanBits 231 64)
  | 2 => some (head + bo + spanBits 383 320 + spanBits 231 128)
  | _ => none

/-- An assigned TYPE with every reserved field 0. -/
def bulkOk (bs : List Byte) : Bool :=
  match bulkAssigned bs with
  | some m => leNat bs &&& m == leNat bs
  | none => false

/-- What the bytes of a bulk packet come to from its DONE. -/
def bulkWork (s : State) (q : Queue) (p : Pkt) : BulkRun :=
  let a := AgentId.bulk q.id
  let dst := BitVec.ofNat 64 (pkBits p.bytes 128 64)
  let n := pkBits p.bytes 192 40
  match pkBits p.bytes 0 8 with
  | 1 => bulkCopy s a q.asid (BitVec.ofNat 64 (pkBits p.bytes 64 64)) dst n p.sub
  | 2 => bulkFill s a q.asid dst (pkBits p.bytes 320 64) n p.sub
  | _ => .done s

/-- A debug stop holds the bulk packets of a queue: those of the address space of a stopped launch stop with it (R383; DEDUCED,
notes/assumptions/32). -/
def State.bulkHeld (s : State) (q : Queue) : Bool := s.launches.any fun l => l.asid == q.asid && l.held

/-- The oldest packet of a bulk queue that is in flight, where no debug stop holds it. -/
def State.bulkHead (s : State) (q : Nat) : Option (Queue × Pkt) :=
  match s.queue q, (s.inFlight q none).head? with
  | some x, some p => if x.bulk && !s.bulkHeld x then some (x, p) else none
  | _, _ => none

/-- BULK_PACKET: the bulk engine does the work of a packet. -/
def execBulkPacket (q : Nat) (s : State) : Out :=
  match s.bulkHead q with
  | none => .next s
  | some (x, p) =>
    if p.st != .started || !p.aux.isEmpty then .next s
    else if !bulkOk p.bytes then .next (s.updPkt p.key fun p => { p with aux := [2, 0] })
    else
      match bulkWork s x p with
      | .done s => .next (s.updPkt p.key fun p =>
          { p with aux := [0, 0], sub := if pkBits p.bytes 0 8 = 0 then 0 else pkBits p.bytes 192 40 })
      | .held s d => .next (s.updPkt p.key fun p => { p with sub := d })
      | _ => .next s

/-- The room that a record needs: CIDX exceeds PIDX - size (R275). -/
def recordRoom (s : State) (q : Queue) (p : Pkt) : Eng Unit :=
  (s.devAccess (.bulk q.id) q.asid q.cidxa 8 .load .syncRead).andThen fun s t =>
    if p.ix < s.mem.num t.pa 8 + 2 ^ q.clsz then .ok s () else .wait

/-- The 32 bytes of a completion record. -/
def bulkRecord (q : Queue) (p : Pkt) (status : Nat) (cause : Cause) (done : Nat) (faddr : DWord) : List Byte :=
  leBytes 8 (status + (p.ix / 2 ^ q.clsz + 1) % 2 * 2 ^ 8 + cause.toNat * 2 ^ 16 + pkBits p.bytes 16 16 * 2 ^ 32)
    ++ leBytes 8 done ++ leBytes 8 p.ix ++ leBytes 8 faddr.toNat

/-- Write a record of a packet; IRQ signals it. -/
def writeRecord (s : State) (q : Queue) (p : Pkt) (bs : List Byte) : Eng Unit :=
  (recordRoom s q p).andThen fun s _ =>
    (s.devPut (.bulk q.id) q.asid (q.cring + BitVec.ofNat 64 (32 * (p.ix % 2 ^ q.clsz))) bs .syncWrite).andThen fun s _ =>
      .ok (if pkBits p.bytes 10 1 = 1 then s.interrupt q.fn 1 else s) ()

/-- The arrival of a packet with BO: whether it was refused. -/
def bulkArrive (s : State) (q : Queue) (p : Pkt) : Eng Bool :=
  if pkBits p.bytes 9 1 = 1 then
    (s.devArrive (.bulk q.id) q.asid (BitVec.ofNat 64 (pkBits p.bytes 256 64))).andThen fun s ok => .ok s !ok
  else .ok s false

/-- BULK_RECORD_WRITE: the record, the arrival and the timeline of a packet that is done; it waits while the record has no
room or its ring cannot be reached. DESIGN CHOICE (R274 says of an invalid packet only that it moves nothing and completes with
status 2, notes/assumptions/36): it makes no arrival, whatever its BO. -/
def execBulkRecordWrite (q : Nat) (s : State) : Out :=
  match s.bulkHead q with
  | none => .next s
  | some (x, p) =>
    match p.aux with
    | [st, _] =>
      if p.st != .started then .next s
      else
        let r : Eng Unit :=
          (recordRoom s x p).andThen fun s _ =>
            (if st == 0 then bulkArrive s x p else .ok s false).andThen fun s refused =>
              writeRecord s x p (bulkRecord x p st.toNat (if refused then 0x62#8 else 0) p.sub 0)
        match r with
        | .ok s _ =>
          .next (((s.updQueue q fun y => { y with timeline := p.ix + 1 }).endRegion (.bulk q)).completePkt p.key)
        | _ => .next s
    | _ => .next s

/-- BULK_PACKET_FAULT: a packet whose access fails or conflicts is suspended at its boundary; a record says so, and the queue
halts until it is resumed. -/
def execBulkPacketFault (q : Nat) (s : State) : Out :=
  match s.bulkHead q with
  | none => .next s
  | some (x, p) =>
    let report (s : State) (done : Nat) (w : Susp) : Out :=
      let bs := bulkRecord x p (if w.cause == 0x60#8 then 4 else 1) w.code done w.addr
      match writeRecord s x p bs with
      | .ok s _ =>
        .next ((s.updPkt p.key fun p => { p with sub := done, st := .waiting }).haltQueue q 4 w.code.toNat)
      | _ => .next s
    if p.st != .started then .next s
    else if p.aux.isEmpty && bulkOk p.bytes then
      match bulkWork s x p with
      | .stop s d w => report s d w
      | _ => .next s
    else if p.aux == [0, 0] then
      match bulkArrive s x p with
      | .fail s w => report s p.sub w
      | _ => .next s
    else .next s

end Sys2Proof.Machine
end

