-- ==== Sys2Proof/Machine/Queues.lean ====
section
/-!
DEFINITION. Machine/Queues.lean: queues and their registers (R356, R357, R430), notification and slots (R360, R362, R363),
and the parser (R358, R359, R361).
-/
namespace Sys2Proof.Machine

/-! ### QCREATE (R356, R357, R430) -/

/-- The descriptor is one that R356 accepts; id says that bits [15:0] hold a requested ID. -/
def descriptorOk (d : List Byte) (id : Bool) : Bool :=
  let f (lo w : Nat) : Nat := pkBits d lo w
  let bulk := f 16 2 == 1
  f 384 128 == 0 && f 48 16 == 0 && (id || f 0 16 == 0) && f 16 2 ≤ 1 && 6 ≤ f 26 5 && f 26 5 ≤ 20
    && f 64 64 % 4096 == 0 && f 128 64 % 8 == 0 && f 192 64 % 8 == 0
    && (if bulk then 6 ≤ f 31 5 && f 31 5 ≤ 20 && f 256 64 % 4096 == 0 && f 320 64 % 8 == 0
        else f 31 5 == 0 && f 256 64 == 0 && f 320 64 == 0)

/-- FIRST and COUNT of a function's QRANGE. -/
def Func.range (f : Func) : Nat × Nat := (bitsAt f.qrange 16 16, bitsAt f.qrange 0 16)

/-- An ID that a queue of a function may take: free, and in its range, or for the physical function outside every range. -/
def State.idOk (s : State) (fn id : Nat) : Bool :=
  !(s.queues.any fun q => q.id == id)
    && (if fn = 0 then !s.funcs.any fun f => f.id != 0 && f.range.1 ≤ id && id < f.range.1 + f.range.2
        else match s.func fn with
          | some f => f.range.1 ≤ id && id < f.range.1 + f.range.2
          | none => false)

/-- The lowest ID that a queue of a function may take, from id on. -/
def State.lowestId (s : State) (fn : Nat) : Nat → Nat → Option Nat
  | 0, _ => none
  | n + 1, id => if id < 65536 && s.idOk fn id then some id else s.lowestId fn n (id + 1)

/-- QRESULT. -/
def State.setQresult (s : State) (fn v : Nat) : State := s.updFunc fn fun f => { f with qresult := BitVec.ofNat 64 v }

/-- The queue of a descriptor. -/
def Queue.make (d : List Byte) (id fn creator ridx : Nat) : Queue where
  id := id
  fn := fn
  creator := creator
  bulk := pkBits d 16 2 == 1
  asid := pkBits d 36 12
  prio := pkBits d 18 2
  ac := pkBits d 20 4
  irqe := pkBits d 24 1 == 1
  watch := pkBits d 25 1 == 1
  lsize := pkBits d 26 5
  clsz := pkBits d 31 5
  ring := BitVec.ofNat 64 (pkBits d 64 64)
  widxa := BitVec.ofNat 64 (pkBits d 128 64)
  ridxa := BitVec.ofNat 64 (pkBits d 192 64)
  cring := BitVec.ofNat 64 (pkBits d 256 64)
  cidxa := BitVec.ofNat 64 (pkBits d 320 64)
  ridx := ridx
  widx := ridx
  notify := BitVec.ofNat 64 ridx
  notified := false
  mapped := false
  lastMap := 0
  reclaim := false
  halted := false
  status := 0
  detail := 0
  launches := 0
  destroy := false
  timeline := ridx

/-- A QCREATE of a function: adopt takes the indices over, request takes the ID of the descriptor. -/
def createQueue (fn : Nat) (v : DWord) (adopt request : Bool) (s : State) : Out :=
  onRegister fn s fun _ =>
  match s.stage2 fn (v.toNat / 64 * 64) .load with
  | .error e => .next ((s.noteErr e).setQresult fn (4 * 2 ^ 16))
  | .ok (_, pa) =>
    let d := s.mem.bytes pa 64
    let asid := pkBits d 36 12
    let owner := (s.asid asid).2.1
    if !backed pa then .next (s.setQresult fn (4 * 2 ^ 16))
    else if !descriptorOk d request then .next (s.setQresult fn (1 * 2 ^ 16))
    else if fn != 0 && owner != fn then .next (s.setQresult fn (3 * 2 ^ 16))
    else
      let id := if request then (if s.idOk owner (pkBits d 0 16) then some (pkBits d 0 16) else none)
        else s.lowestId fn 65536 (if fn = 0 then 0 else match s.func fn with
          | some f => f.range.1
          | none => 0)
      match id with
      | none => .next (s.setQresult fn (2 * 2 ^ 16))
      | some id =>
        let ok (s : State) (ridx : Nat) : Out :=
          let q := Queue.make d id owner fn ridx
          .next (({ s with queues := s.queues ++ [q] } : State).setQresult fn
            (id + (if q.bulk then (2 ^ 28 + id) * 2 ^ 32 else 0)))
        if !adopt then ok s 0
        else
          let k := s.nextKey
          match s.devRead (.porch k) asid (BitVec.ofNat 64 (pkBits d 192 64)) .syncRead 8 8 with
          | .ok s bs => ok s (leNat bs)
          | .wait => .next s
          | .fail s _ => .next (s.setQresult fn (4 * 2 ^ 16))

/-- QCREATE: bits [1:0] act for the physical function only. -/
def execQcreate (fn : Nat) (v : DWord) (s : State) : Out :=
  createQueue fn v (fn = 0 && v.getLsbD 0) (fn = 0 && v.getLsbD 1) s

/-- QCREATE_ADOPT: the physical function's QCREATE with its flags. -/
def execQcreateAdopt (v : DWord) (s : State) : Out := createQueue 0 v (v.getLsbD 0) (v.getLsbD 1) s

/-! ### QCTL (R357, R379) -/

/-- Act on a queue of a function; a queue of another function is not reached. -/
def onQueue (fn q : Nat) (s : State) (f : State → Queue → State) : Out :=
  onRegister fn s fun _ => .next (match s.queue q with
    | some x => if x.fn == fn then f s x else s
    | none => s)

/-- A packet that halted with its queue goes on; a FENCE starts again. -/
def Pkt.goOn (p : Pkt) : Pkt :=
  if p.st != .waiting then p
  else if pkBits p.bytes 0 8 == 4 then { p with st := .started, sub := 0, aux := [] }
  else { p with st := .started }

/-- QCTL resume: STATUS and HALTED clear, what was refused is tried again, and WIDX is read again, after an overrun before any
slot is (R379). -/
def execQctlResume (fn q : Nat) (s : State) : Out :=
  onQueue fn q s fun s x =>
    if !x.halted then s
    else
      let s := s.updQueue q fun x => { x with
        halted := false, status := 0, detail := 0, notified := true, widx := if x.status = 1 then x.ridx else x.widx }
      { s with pkts := s.pkts.map fun p => if p.queue == q then (if x.bulk then { p with st := if p.st == .waiting then .started else p.st } else p.goOn) else p }

/-- QCTL halt: status 7. -/
def execQctlHalt (fn q : Nat) (s : State) : Out :=
  onQueue fn q s fun s x => if x.halted then s else s.haltQueue q 7 0

/-- QCTL destroy. -/
def execQctlDestroy (fn q : Nat) (s : State) : Out :=
  onQueue fn q s fun s _ => s.updQueue q fun x => { x with destroy := true }

/-- QUEUE_DESTROY_EFFECT: no packet of the queue is in flight; its ID is free. -/
def execQueueDestroyEffect (q : Nat) (s : State) : Out :=
  .next (match s.queue q with
    | some x =>
      if x.destroy && !s.pkts.any (fun p => p.queue == q) then
        ({ s with queues := s.queues.filter fun y => y.id != q } : State).endRegion (.bulk q)
      else s
    | none => s)

/-- QSTAT of a queue as a function reads it. -/
def State.qstat (s : State) (fn q : Nat) : DWord :=
  match s.queue q with
  | none => 0
  | some x =>
    if x.fn != fn then 0
    else BitVec.ofNat 64 (x.detail.toNat * 2 ^ 32 + x.status.toNat * 2 ^ 16 + 4 + (if x.mapped then 2 else 0)
      + (if x.halted then 1 else 0))

/-! ### Notification and hardware slots (R360, R362, R363) -/

/-- NOTIFY: the register keeps the maximum; every write notifies. -/
def execNotify (fn q : Nat) (v : DWord) (s : State) : Out :=
  onQueue fn q s fun s _ => s.updQueue q fun x => { x with notify := if x.notify.ult v then v else x.notify, notified := true }

/-- CLASSMIN of a class: a write that would raise the sum above 256 is ignored. -/
def execClassmin (c : Nat) (v : DWord) (s : State) : Out :=
  onRegister 0 s fun _ =>
  let m := s.classmin.set c v.toNat
  .next (if m.foldl (· + ·) 0 ≤ 256 then { s with classmin := m } else s)

/-- A queue is ready: not halted, and notified or behind the last WIDX read. -/
def Queue.ready (q : Queue) : Bool := !q.halted && (q.notified || q.ridx < q.widx)

/-- Slots that a class holds. -/
def State.held (s : State) (c : Nat) : Nat := (s.queues.filter fun q => q.mapped && q.prio == c).length

/-- The shortfall of the reserved minima. -/
def State.shortfall (s : State) : Nat := (List.range 4).foldl (fun n c => n + (s.classmin.getD c 0 - s.held c)) 0

/-- Free slots. -/
def State.freeSlots (s : State) : Nat := 256 - (s.queues.filter fun q => q.mapped).length

/-- A queue comes before another when slots are given: class, least recently mapped, lower ID. -/
def Queue.before (x y : Queue) : Bool :=
  x.prio < y.prio || (x.prio == y.prio && (x.lastMap < y.lastMap || (x.lastMap == y.lastMap && x.id < y.id)))

/-- Put a queue in its place. -/
def placeQueue (q : Queue) : List Queue → List Queue
  | [] => [q]
  | x :: xs => if q.before x then q :: x :: xs else x :: placeQueue q xs

/-- The borrowed slot that is reclaimed: of the lowest class above its minimum, the most recently mapped queue. -/
def State.reclaimOne (s : State) (c : Nat) : State :=
  let above := [3, 2, 1, 0].find? fun k => k != c && s.classmin.getD k 0 < s.held k
  match above with
  | none => s
  | some k =>
    match s.queues.filter fun q => q.mapped && q.prio == k && !q.reclaim with
    | [] => s
    | q :: qs =>
      let p := qs.foldl (fun a x => if a.lastMap < x.lastMap then x else a) q
      s.updQueue p.id fun x => { x with reclaim := true }

/-- Map one ready queue, or reclaim a slot for it; whether a slot has been reclaimed in this cycle. -/
def mapOne (a : State × Bool) (q : Queue) : State × Bool :=
  let s := a.1
  if 0 < s.freeSlots && (s.held q.prio < s.classmin.getD q.prio 0 || s.shortfall < s.freeSlots) then
    (s.updQueue q.id fun x => { x with mapped := true, lastMap := s.tick + 1 }, a.2)
  else if !a.2 && s.held q.prio < s.classmin.getD q.prio 0 && !s.queues.any (fun x => x.reclaim) then
    (s.reclaimOne q.prio, true)
  else a

/-- PORCH_MAP: slots that are given up or reclaimed at a packet boundary, then the ready queues in order. -/
def execPorchMap (s : State) : Out :=
  let drop (q : Queue) : Bool :=
    q.mapped && ((q.ridx == q.widx && !q.notified) || q.reclaim) && !s.pkts.any fun p => p.queue == q.id && p.st == .held
  let s := { s with queues := s.queues.map fun q => if drop q then { q with mapped := false, reclaim := false } else q }
  let ready := (s.queues.filter fun q => !q.mapped && q.ready).foldl (fun l q => placeQueue q l) []
  .next (ready.foldl mapOne (s, false)).1

/-! ### The parser (R358, R359, R361) -/

/-- The parser may act for a queue. -/
def Queue.served (q : Queue) : Bool := q.mapped && !q.halted

/-- The parser may read for a queue: not beyond a packet boundary at which it is unmapped or destroyed (R357, R363). -/
def Queue.parsed (q : Queue) : Bool := q.served && !q.destroy && !q.reclaim

/-- Read bytes for the parser, by an acquire at .sys. -/
def State.parserRead (s : State) (q : Queue) (va : DWord) (n : Nat) : Eng (List Byte) :=
  s.devRead (.porch s.nextKey) q.asid va .syncRead n n

/-- The address of the slot of an index. -/
def Queue.slot (q : Queue) (p : Nat) : DWord := q.ring + BitVec.ofNat 64 (64 * (p % 2 ^ q.lsize))

/-- The phase bit of a released packet at an index (R358). -/
def Queue.phase (q : Queue) (p : Nat) : Nat := (p / 2 ^ q.lsize + 1) % 2

/-- PARSER_READ_WIDX: WIDX, an overrun, and the header of the next slot. -/
def execParserReadWidx (q : Nat) (s : State) : Out :=
  match s.queue q with
  | none => .next s
  | some x =>
    if !x.parsed || !x.notified then .next s
    else
      match s.parserRead x x.widxa 8 with
      | .wait => .next s
      | .fail s w => .next (s.haltQueue q 8 w.code.toNat)
      | .ok s bs =>
        let w := leNat bs
        let s := s.updQueue q fun x => { x with widx := w, notified := false }
        if x.ridx + 2 ^ x.lsize < w then .next (s.haltQueue q 1 0)
        else if w ≤ x.ridx || fenced (s.inFlight q none) then .next s
        else
          match s.parserRead x (x.slot x.ridx) 8 with
          | .fail s w => .next (s.haltQueue q 8 w.code.toNat)
          | .ok s _ => .next s
          | .wait => .next s

/-- The packet in hand of a queue whose RIDX write failed is consumed now. -/
def consumeHeld (s : State) (q : Queue) (p : Pkt) : State :=
  if pkBits p.bytes 0 8 == 5 && !q.bulk then (if p.sub = 0 then s else consume s q p.key true)
  else consume s q p.key false

/-- The parser reads slot RIDX: a packet that is released, valid and free to start is taken, consumed and started; a SIGNAL
is taken and consumed once it has performed. A packet in hand is consumed even where no further one would be read. -/
def parseSlot (s : State) (q : Queue) : State :=
  let flying := s.inFlight q.id none
  match (if q.served then flying.find? fun p => p.st == .held else none) with
  | some p => consumeHeld s q p
  | none =>
    if !q.parsed || q.widx ≤ q.ridx || fenced flying || flying.any fun p => p.st == .held then s
    else
      match s.parserRead q (q.slot q.ridx) 8 with
      | .wait => s
      | .fail s w => s.haltQueue q.id 8 w.code.toNat
      | .ok s h =>
        if pkBits h 8 1 != q.phase q.ridx || !(if q.bulk then flying.isEmpty else mayStart flying h) then s
        else
          match s.parserRead q (q.slot q.ridx) 64 with
          | .wait => s
          | .fail s w => s.haltQueue q.id 8 w.code.toNat
          | .ok s bs =>
            let k := s.nextKey
            let s := { s with nextKey := k + 1 }
            let put (s : State) (aux : List DWord) (img : Option Image) : State :=
              { s with pkts := s.pkts ++ [⟨k, q.id, none, q.ridx, bs, .held, 0, aux, img⟩] }
            if q.bulk then consume (put s [] none) q k false
            else
              match preStart s q k bs with
              | .wait => s
              | .halt s st d => s.haltQueue q.id st d
              | .ok s aux img => if pkBits bs 0 8 == 5 then put s aux img else consume (put s aux img) q k false

/-- PACKET_CONSUME. -/
def execPacketConsume (q : Nat) (s : State) : Out :=
  .next (match s.queue q with
    | some x => parseSlot s x
    | none => s)

/-- PARSER_POLL: the header is read again, without a notification. -/
def execParserPoll (q : Nat) (s : State) : Out :=
  .next (match s.queue q with
    | some x => parseSlot s x
    | none => s)

end Sys2Proof.Machine
end

