-- ==== Sys2Proof/Machine/Debug.lean ====
section
/-!
DEFINITION. Machine/Debug.lean: RESUME and TERM (R383, R390 to R392, R394), and writes to the registers that have no
behaviour of their own (R10, R11, R208, R357, R390, R404, R405, R413, R414, R416, R429, R477, R484).
-/
namespace Sys2Proof.Machine

/-! ### RESUME (R383, R391, R394) -/

/-- The place of the fragment that a record names by its PC and lowest seat. -/
def Team.fragOf (t : Team) (r : Record) : Option Nat :=
  t.frags.findIdx? fun f => f.pc == r.pc && lowSeat t f.mask == r.low

/-- A fragment whose chain was interrupted goes back to the chain's head (R65). -/
def Team.rewind (ln : Launch) (t : Team) (fi : Nat) : Team :=
  match t.frags[fi]? with
  | some f => if f.chain.isSome then
      let u := t.arrive ln fi [Frag.at f.chainPc f.mask]
      { u with frags := u.frags.map fun g => if g.mask == f.mask then { g with skip := f.skip } else g }
    else t
  | none => t

/-- PC of a trap record. -/
def Record.at_ (r : Record) : DWord := BitVec.ofNat 64 (fieldAt r.body 8 8)

/-- How the trapping fragment stands once its record is resumed. -/
def Team.resumed (ln : Launch) (t : Team) (r : Record) : Team :=
  match t.fragOf r with
  | none => t
  | some fi =>
    let leave (pc : DWord) : Team := t.arrive ln fi [Frag.at pc ((t.frags.getD fi (Frag.at 0 0)).mask)]
    match r.onResume with
    | .reissue | .copyOp _ _ | .hearthOp _ => Team.rewind ln t fi
    | .after pc | .syscall pc => leave pc
    | .skip => Team.rewind ln { t with frags := t.frags.modify fi fun f => { f with skip := some r.at_ } } fi
    | _ => t

/-- The same for a Foyer context. -/
def Foyer.resumed (f : Foyer) (r : Record) : Foyer :=
  let back (f : Foyer) : Foyer := if f.chain.isSome then { f with pc := f.chainPc, chain := none } else f
  match r.onResume with
  | .reissue => back f
  | .after pc | .syscall pc => { f with pc := pc, chain := none, chainPc := pc }
  | .skip => back { f with skip := some r.at_ }
  | _ => f

/-- A suspended engine operation continues from its boundary (R266, R324). -/
def Team.continueOp (t : Team) (onResume : ResumeTo) : Team :=
  match onResume with
  | .copyOp b p => { t with copy := { t.copy with ops := t.copy.ops.map fun o =>
      if o.batch == b && o.pos == p then { o with susp := none } else o } }
  | .hearthOp n => { t with hearth := { t.hearth with ops := t.hearth.ops.map fun o =>
      if o.num == n then { o with susp := none } else o } }
  | _ => t

/-- Release the agent of a record: unpark it, and step it where STEP is set. -/
def State.releaseAgent (s : State) (ln : Launch) (r : Record) (stepped : Bool) : State :=
  match r.agent with
  | .team l b t => s.updTeam l b t fun x =>
    if x.parked == some r.id then
      { (x.resumed ln r).continueOp r.onResume with parked := none, stop := false, stepping := stepped, stepDone := false }
    else x
  | .foyer l b => s.updBlock l b fun x =>
    if x.foyer.parked == some r.id then
      { x with foyer := { x.foyer.resumed r with parked := none, stop := false, stepping := stepped, stepDone := false } }
    else x
  | .copy l b t | .hearth l b t => s.updTeam l b t fun x => x.continueOp r.onResume
  | _ => s

/-- Every agent of a debug-stop launch that a stop holds goes on (R383). -/
def State.unstop (s : State) (l : Nat) : State :=
  s.updLaunch l fun ln => { ln with blocks := ln.blocks.map fun b =>
    { b with foyer := { b.foyer with stop := false }, teams := b.teams.map fun t => { t with stop := false } } }

/-- REPLY of a system call, read from its entry of the ring; none where the ring cannot be reached (R388). -/
def State.replyOf (s : State) (ln : Launch) (ix : Nat) : Option DWord :=
  match s.rings.find? fun g => some g.hdr == ln.ring with
  | none => none
  | some g =>
    match s.check none ln.asid (g.base + BitVec.ofNat 64 (64 * (ix % 2 ^ g.lsize) + 0x30)) 8 .load with
    | .ok t => some (BitVec.ofNat 64 (s.mem.num t.pa 8))
    | .error _ => none

/-- The record that an index names in the ring of RESUMEL's launch, raised by a launch of the function. -/
def State.recordAt (s : State) (fn ix : Nat) : Option (Record × Launch) :=
  match s.func fn with
  | none => none
  | some f =>
    match s.launch (bitsAt f.resumel 0 32) with
    | none => none
    | some named =>
      if named.fn != fn then none
      else
        let hit (r : Record) : Option (Record × Launch) :=
          match s.launch r.launch with
          | some ln => if r.ix == some ix && ln.ring == named.ring && ln.fn == fn then some (r, ln) else none
          | none => none
        s.records.findSome? hit

/-- The core on which the agent of a record runs. -/
def Record.core (r : Record) (ln : Launch) : Option Unit3 :=
  match r.agent with
  | .team _ b _ | .foyer _ b | .copy _ b _ | .hearth _ b _ => (ln.block b).map Block.runsOn
  | _ => none

/-- RESUME. -/
def execResume (fn : Nat) (v : DWord) (s : State) : Out :=
  onRegister fn s fun _ =>
    match s.recordAt fn (bitsAt v 0 48) with
    | none => .next s
    | some (r, ln) =>
      if r.onResume == .none || ln.st == .evicted || ln.st == .ended then .next s
      else
        let stepped := v.getLsbD 63
        let s := match r.core ln with
          | some u => s.acquire u .sys
          | none => s
        let s := ({ s with records := s.records.filter fun x => x.id != r.id } : State)
        let s := if ln.dstop && !(stepped && r.kind != 3) then s.unstop ln.id else s
        match r.onResume, r.agent, s.replyOf ln (bitsAt v 0 48) with
        | .syscall _, .team l b t, some w =>
          .next ((s.updTeam l b t fun x => { x with trapres := w }).releaseAgent ln r stepped).wake
        | .syscall _, _, none => .next (s.endLaunch ln.id r.cause 4)
        | _, _, _ => .next (s.releaseAgent ln r stepped).wake

/-! ### TERM and DETACH (R392, R419) -/

/-- An evicted launch ends on this device; its packet completes without a signal (R419). -/
def State.detach (s : State) (l : Nat) : State :=
  match s.launch l with
  | none => s
  | some ln =>
    (({ s with tiles := s.tiles.filter fun t => !t.owner.ofLaunch l } : State).dropLaunch l).finishPkt ln.pkt

/-- TERM. -/
def execTerm (fn : Nat) (v : DWord) (s : State) : Out :=
  onRegister fn s fun _ =>
    match s.launch (bitsAt v 0 32) with
    | none => .next s
    | some ln =>
      if ln.fn != fn || ln.st == .ended then .next s
      else if ln.st == .evicted then
        .next (((s.detach ln.id).decSignal ln.pkt ln.asid ln.sig).setLerr fn ln.id 0 5)
      else .next (s.endLaunch ln.id 0 5)

/-! ### REGISTER_WRITE -/

/-- The index of a register of an array. -/
def regIx (off base stride n : Nat) : Option Nat :=
  if base ≤ off && off < base + stride * n && (off - base) % stride == 0 then some ((off - base) / stride) else none

/-- The bits hi to lo of a value, in place. -/
def fieldBits (v : DWord) (hi lo : Nat) : DWord := v &&& BitVec.ofNat 64 (spanBits hi lo)

/-- An address space has passed to another function: it is a new one, and every entry of its binding table is unbound (R338). -/
def State.passAsid (s : State) (a : Nat) : State := { s with binds := s.binds.filter fun e => e.asid != a }.dropBindings

/-- A write to ASIDCTL of an address space by a function (R404). -/
def writeAsidctl (fn a : Nat) (v : DWord) (s : State) : State :=
  let old := Regs.get s.asidctl a
  let owner := bitsAt old 1 6
  if fn != 0 && owner != fn then s
  else
    let keep : DWord := if fn == 0 && !old.getLsbD 0 then fieldBits v 6 1 else fieldBits old 6 1
    let new := fieldBits v 51 12 ||| keep ||| fieldBits v 0 0
    let s := { s with asidctl := Regs.set s.asidctl a new }
    let s := if bitsAt new 1 6 == owner then s else s.passAsid a
    if new.getLsbD 0 then s.updFunc (bitsAt new 1 6) fun f => { f with fenvFixed := true } else s

/-- The value that a write to a word of FENV leaves, where it is not ignored (R429). -/
def fenvValue (sel : Nat) (v : DWord) : Option DWord :=
  match sel with
  | 0 => if bitsAt v 0 8 = 0 then none else some (fieldBits v 7 0 ||| 0x100#64)
  | 1 => if 4 < bitsAt v 0 3 || 36 < bitsAt v 3 6 || 8 < bitsAt v 12 4 || 768 < bitsAt v 16 16 then none
    else some (fieldBits v 8 0 ||| fieldBits v 39 12)
  | 2 => some (fieldBits v 5 0)
  | _ => if 768 < bitsAt v 0 32 then none else some (fieldBits v 31 0)

/-- A write to FENV of a function: only from its creation until an ASID of it is enabled; the physical function's is the
whole device (R402, R429). -/
def writeFenv (v sel : Nat) (x : DWord) (s : State) : State :=
  s.updFunc v fun f =>
    if v == 0 || f.fenvFixed || !f.live then f
    else match fenvValue sel x with
      | some y => { f with fenv := f.fenv.set sel y }
      | none => f

/-- The registers of every function (R390, R413). -/
def writeOwn (fn off : Nat) (v : DWord) (s : State) : Option State :=
  match off with
  | 0x70010 => some (s.updFunc fn fun f => { f with dstop := v.getLsbD 0 })
  | 0x70018 => some (s.updFunc fn fun f => if v.getLsbD 0 then { f with lerr := f.lerr &&& ~~~1#64 } else f)
  | 0x70020 => some (s.updFunc fn fun f => { f with resumel := fieldBits v 31 0 })
  | 0x88000 => some (s.updFunc fn fun f => { f with tlbinva := fieldBits v 63 12 })
  | _ =>
    match regIx off 0x70100 8 4 with
    | some i => some (s.updFunc fn fun f => { f with hwbp := f.hwbp.set i (fieldBits v 63 3 ||| fieldBits v 1 0) })
    | none => (regIx off 0x80000 8 4096).map fun a => writeAsidctl fn a v s

/-- The registers that only the physical function reaches, one per function (R357, R405, R414, R429). -/
def writeByFunction (off : Nat) (v : DWord) (s : State) : Option State :=
  match regIx off 0x50200 8 64, regIx off 0x90000 8 64, regIx off 0x90400 8 64, regIx off 0x92000 8 64 with
  | some k, _, _, _ => some (if k = 0 then s else s.updFunc k fun f => { f with qrange := fieldBits v 35 0 })
  | _, some k, _, _ => some (s.updFunc k fun f => { f with s2ctl := fieldBits v 51 12 ||| fieldBits v 0 0 })
  | _, _, some k, _ => some (s.updFunc k fun f => { f with shctl := fieldBits v 51 21 })
  | _, _, _, some k =>
    some (s.updFunc k fun f => if v.getLsbD 0 then { f with s2fault := f.s2fault &&& ~~~1#64 } else f)
  | none, none, none, none =>
    match regIx off 0x93000 32 64, regIx off 0x93018 32 64, regIx off 0x94000 8 256 with
    | some k, _, _ => some (s.updFunc k fun f => { f with dlbase := fieldBits v 51 3 })
    | _, some k, _ =>
      some (s.updFunc k fun f => { f with dlEn := v.getLsbD 0, dlIrq := f.dlIrq && !v.getLsbD 2 })
    | _, _, some k => some (writeFenv (k / 4) (k % 4) v s)
    | none, none, none => none

/-- The other registers of the physical function (R208, R416, R477). -/
def writeDevice (off : Nat) (v : DWord) (s : State) : Option State :=
  match off with
  | 0xA0000 => some { s with ctxaddr := fieldBits v 51 12 }
  | 0xA0008 => some { s with ctxlen := fieldBits v 51 12 }
  | 0xA0010 => some { s with ctxmap := fieldBits v 51 4 }
  | 0xA0018 => some { s with ctxq := fieldBits v 15 0 }
  | 0xB0000 => some (if s.peerrt.any fun p => p.2.getLsbD 0 then s else { s with mydev := fieldBits v 5 0 })
  | _ =>
    match regIx off 0x40000 8 16 with
    | some k => some { s with acmask := s.acmask.set k (fieldBits v 31 0) }
    | none => (regIx off 0xB0100 8 64).map fun k =>
      { s with peerrt := Regs.set s.peerrt k (fieldBits v 19 16 ||| fieldBits v 0 0) }

/-- REGISTER_WRITE: a write of a function at an offset of its BAR. Before READY only RCVADDR of the physical function is
written, in RECOVERY and HALTED (R484). -/
def execRegisterWrite (fn off : Nat) (v : DWord) (s : State) : Out :=
  if fn == 0 && off == 0xC0018 then
    .next (if s.linkUp && (s.boot == .recovery || s.boot == .halted) then { s with rcvaddr := v } else s)
  else
    onRegister fn s fun _ =>
      .next (match writeOwn fn off v s with
        | some s => s
        | none =>
          if fn != 0 then s
          else match writeByFunction off v s with
            | some s => s
            | none => (writeDevice off v s).getD s)

end Sys2Proof.Machine
end

