-- ==== Sys2Proof/Machine/Fetch.lean ====
section
/-!
DEFINITION. Machine/Fetch.lean: fetching and decoding the word at a PC (R53 to R58, R131), the schedule of honoured
native code (R59 to R67), and which fragment of a team issues (R152).
-/
namespace Sys2Proof.Machine

/-! ### Fetching (R47, R53, R55 to R58, R131) -/

/-- What a fetch gives: the word, its literal, its schedule field in native code, whether its packet is one, and the
fall-through address; or the cause and address of a failure of order 1. -/
inductive Fetch where
  | word (w : Nat) (lit : DWord) (sched : Option (BitVec 21)) (packet : Bool) (fall : DWord)
  | bad (c : Cause) (addr : DWord)
  deriving DecidableEq, Repr

/-- The next core word's address in fetch order (R56, R58). -/
def Region.next (r : Region) (pc : DWord) : DWord := if r.native && pc.toNat % 32 == 16 then pc + 16 else pc + 8

/-- Read 8 bytes by fetch (R404). -/
def State.fetchWord (s : State) (die : Option Nat) (asid : Nat) (va : DWord) : Except Cause Nat :=
  match s.check die asid va 8 .fetch with
  | .error x => .error x.cause
  | .ok t => .ok (s.mem.num t.pa 8)

/-- What a fetch of a word of a launch's code may see: the word in memory, the word as the launch found it, and a word that an L1
has not yet written back (R44). -/
def State.codeWords (s : State) (l : Launch) (pa : Nat) : List Nat :=
  s.mem.num pa 8 :: l.code.num pa 8 :: s.l1.map fun c => leNat (s.coherentRead c.core pa 8)

/-- One of some words: the first where all agree, else one by a free number. -/
def oneWord (ws : List Nat) (k : Nat) : Nat :=
  let w := ws.headD 0
  if ws.all (· == w) then w else ws.getD (k % ws.length) w

/-- Read 8 bytes of a launch's code by fetch: an old word or a new one where a store has reached it (R44, R404). -/
def State.codeWord (s : State) (l : Launch) (die : Option Nat) (va : DWord) : Except Cause Nat :=
  match s.check die l.asid va 8 .fetch with
  | .error x => .error x.cause
  | .ok t => .ok (oneWord (s.codeWords l t.pa) (Config.fetchSees s.tick va.toNat))

/-- The schedule field of a core word of a packet, and PKT (R57). -/
def State.schedule (s : State) (l : Launch) (die : Option Nat) (r : Region) (pc : DWord) : Option (BitVec 21) × Bool :=
  if r.native then
    match s.codeWord l die (pc ||| 24#64) with
    | .ok w => (some (BitVec.ofNat 21 (bits w (21 * (pc.toNat % 32 / 8)) 21)), bits w 63 1 == 1)
    | .error _ => (some 0, true)
  else (none, true)

/-- Fetch the instruction at an address of a launch: 0x07, then the translation causes, then 0x22 where no code region holds
it (R53, R55; the place of the last is DEDUCED from the order of R131, notes/assumptions/25). -/
def State.fetch (s : State) (l : Launch) (die : Option Nat) (pc : DWord) : Fetch :=
  if pc.toNat % 8 != 0 then .bad 0x07#8 pc
  else if !canonical pc then .bad 0x20#8 pc
  else
    match l.region pc.toNat with
    | none => match s.codeWord l die pc with
      | .error c => .bad c pc
      | .ok _ => .bad 0x22#8 pc
    | some r =>
      if r.native && pc.toNat % 32 == 24 then .bad 0x07#8 pc
      else
        match s.codeWord l die pc with
        | .error c => .bad c pc
        | .ok w =>
          let f := s.schedule l die r pc
          if isLiteralOp (Fields.ofWord w).op then
            match s.codeWord l die (r.next pc) with
            | .error c => .bad c (r.next pc)
            | .ok lit => .word w (BitVec.ofNat 64 lit) f.1 f.2 (r.next (r.next pc))
          else .word w 0 f.1 f.2 (r.next pc)

/-- Decode a fetched word in a stream: orders 2 to 5 of R53 (R51, R57, R131). In a kernel's Foyer stream a prologue form is a
word of the wrong stream, whatever its reserved fields hold (R193). -/
def Launch.decodeAt (l : Launch) (foyer : Bool) (pc : DWord) (packet : Bool) (w : Nat) (lit : DWord) : Except Cause Instr :=
  if !packet then .error 0x02#8
  else
    match l.region pc.toNat with
    | some r =>
      if r.foyer != foyer || (foyer && (Fields.ofWord w).op == 0xCD) then .error 0x01#8 else decode foyer w lit
    | none => .error 0x01#8

/-- What the fetch of a word leaves behind: A bits and a TLB entry (R411, R412). -/
def State.commitFetch (s : State) (die : Option Nat) (asid : Nat) (va : DWord) : State :=
  match s.check die asid va 8 .fetch with
  | .error _ => s
  | .ok t => (s.commitTr die asid va .fetch t).getD s

/-- The same for a word and, of a literal opcode, for the literal's at its address. -/
def State.commitWords (s : State) (die : Option Nat) (asid : Nat) (pc next : DWord) (w : Nat) : State :=
  let s := s.commitFetch die asid pc
  if isLiteralOp (Fields.ofWord w).op then s.commitFetch die asid next else s

/-- The same for a word of a launch's code (R56, R58). -/
def State.commitCode (s : State) (l : Launch) (die : Option Nat) (pc : DWord) (w : Nat) : State :=
  match l.region pc.toNat with
  | some r => s.commitWords die l.asid pc (r.next pc) w
  | none => s.commitFetch die l.asid pc

/-! ### Chains and latches (R61 to R65) -/

/-- The chainable opcodes of R64; a load with an acquire is none. -/
def chainable (i : Instr) (op : Nat) : Bool :=
  (1 ≤ op && op ≤ 0x3F) || op == 0x40 || (0xC0 ≤ op && op ≤ 0xC5)
    || (match i with
        | .ldLevel x => x.acq.isNone
        | _ => false)

/-- The vector register operands in the fields A, B and C (R45, R46). -/
def sources (i : Instr) : List (Option VOp) :=
  match i with
  | .ld _ | .ldLevel _ | .st _ | .stLevel _ => [none, i.vops[1]?]
  | .shld _ | .shst _ => [none, i.vops[0]?]
  | .atom x => [some (vw x.w64 x.a), some (vw (x.lv == .global) x.b), i.vops[3]?]
  | .ballot x => [none, none, x.mm.map v1]
  | .ballotIndexed x => [none, some (v1 x.b), x.mm.map v1]
  | .vote x => [none, none, x.mm.map v1]
  | .swx x => [some (vw x.w64 x.a), match x.b with
    | .reg r => some (v1 r)
    | .imm _ => none, x.mm.map v1]
  | .boarr x => [x.cnt.map v1, some (v2 x.b)]
  | .qrot _ => [none, i.vops[0]?]
  | .cpy x => [none, x.bo.map v2]
  | .cpyHalo x => [none, x.bo.map v2]
  | .cpyRed x => [none, x.bo.map v2]
  | .mma _ | .mdist _ | .mopen _ | .mclose _ => []
  | .mtopk x => [none, some (v1 x.b)]
  | _ => (i.vops.drop (dests i).length).map some

/-- The latch ^k of an open chain (R61). -/
def latchAt {α : Type} (chain : Option (List (Option α))) (k : Nat) : Option α :=
  if k = 0 then none
  else match chain with
    | none => none
    | some ls => (ls.getD (k - 1) none)

/-- The operand reads that latches serve: for each source field of the schedule that selects a latch, the registers that
the field names and the latch (R61). -/
def latched (f : BitVec 21) (chain : Option (List (Option Latch))) (srcs : List (Option VOp)) : List (VOp × Latch) :=
  (List.range 3).filterMap fun k =>
    match srcs.getD k none, latchAt chain (bitsAt f (6 + 2 * k) 2) with
    | some o, some l => some (o, l)
    | _, _ => none

/-- The registers stand as the latches have them while the instruction reads them. -/
def Team.withLatches (t : Team) (ls : List (VOp × Latch)) : Team :=
  { t with seats := t.seats.mapIdx fun i y =>
      ls.foldl (fun y p => y.wrs p.1.reg ((p.2.words.getD i []).take p.1.count)) y }

/-- The numbers of an operand's registers. -/
def opRegs (o : VOp) : List Nat := (List.range o.count).map fun k => o.reg + k

/-! ### Reads that stand too near their writer (R62) -/

/-- The variable-latency instructions (R62, R96, R167, R215, R216, R241, R252, R289). For SATOM, whose class the spec does not
give, DESIGN CHOICE (notes/assumptions/33): it is variable-latency, as ATOM is. -/
def varLatency : Instr → Bool
  | .div _ | .rem _ | .divLit _ | .remLit _ | .fdiv _ | .fdivLit _ | .fdivF64 _ | .fdivF64Lit _ | .fsqrt _ | .fsqrtF64 _
  | .frcp _ | .frsq _ | .fexp2 _ | .flog2 _ | .ld _ | .atom _ | .dqpop _ | .sld _ | .satom _ | .boarr _ | .shld _
  | .xcvtEncode _ | .xcvtDecode _ => true
  | .ldLevel x => x.lv != .slice
  | _ => false

/-- What the device interlocks in every mode: the loads that the scratch completion counter covers, MTOPK, and the blocking
instructions (R62, R199, R335). -/
def interlocked : Instr → Bool
  | .ldLevel x => x.lv == .scratch || x.lv == .cluster
  | .mtopk _ | .fence _ | .bar _ | .bowait _ | .tlwait _ | .cbatch _ | .cwait _ | .mwait _ | .mwaitAll _ | .qscan _ | .qrot _
  | .qsmooth _ | .qcvt _ | .solveBegin _ | .solveEnd _ => true
  | _ => false

/-- What a read in honoured native code may give: the newest value; or, where a word whose result may not be written yet writes
the register, one of the values that the register has held since the sixteenth word before (R62). past lists, the newest word
first, whether it is such a word, and the register before it. -/
def readOf {α : Type} (now : α) (past : List (Bool × α)) (k : Nat) : α :=
  let held := now :: past.map Prod.snd
  if past.any Prod.fst then held.getD (k % held.length) now else now

/-- A result may not be written yet: no scoreboard that a variable-latency word set has been waited on, and STALL counts have not
put a fixed latency between the word and the next. -/
def nearAfter (i : Instr) (op : Nat) (settled : Bool) (since : Nat) : Bool :=
  !settled && (varLatency i || since < Config.latency op)

/-- The same of a team's past word. -/
def Past.near (p : Past) : Bool := nearAfter p.ins p.op p.settled p.since

/-- A word that has waited on scoreboards finds written what set them (R59, R62). -/
def settledBy (f : BitVec 21) (sb : Nat) : Bool := sb != 0 && f.getLsbD (17 + sb)

/-- The team once SBWAIT of a word has found its scoreboards clear. -/
def Team.met (t : Team) (f : BitVec 21) : Team :=
  { t with past := t.past.map fun p => if settledBy f p.sb then { p with settled := true } else p }

/-- The predicate that an instruction writes. -/
def predDest : Instr → Option PReg
  | .setp x => some x.pd
  | .setpImm x => some x.pd
  | .setpLit x => some x.pd
  | .fsetp x => some x.pd
  | .fsetpLit x => some x.pd
  | .fsetpF64 x => some x.pd
  | .fsetpF64Lit x => some x.pd
  | .pand x | .por x | .pxor x => some x.pd
  | .pnot x => some x.pd
  | .vote x => some x.pd
  | _ => none

/-- A vector register that an instruction writes. -/
def writesReg (i : Instr) (r : Nat) : Bool := (((dests i).flatMap opRegs) ++ moved i).contains r

/-- A predicate that an instruction writes. -/
def writesPred (i : Instr) (k : Nat) : Bool :=
  match predDest i with
  | some p => p.val == k
  | none => false

/-- Which of a register's earlier values a near word may leave: those before each past word, and whether it changes it. -/
def changes {α : Type} [BEq α] (now : α) (past : List (Bool × α)) : List (Bool × α) :=
  (past.zip (now :: past.map Prod.snd)).map fun p => (p.1.1 && p.1.2 != p.2, p.1.2)

/-- The vector registers that a word reads at issue; the Hearth reads those of A later (R308). -/
def reads (i : Instr) : List Nat :=
  match i with
  | .mma _ | .mdist _ => []
  | _ => (i.vops.drop (dests i).length).flatMap opRegs ++ moved i

/-- The seat of a lane. -/
def Team.ofLane (t : Team) (lane : Nat) : Option Nat := t.seats.findIdx? fun y => y.lane == lane

/-- A seat as the next word reads it: vector registers are held by seat, predicates by lane (R62, R182). -/
def Seat.reading (ps : List Past) (ctr : Nat) (rs : List Nat) (n : Nat) (y : Seat) : Seat :=
  let z := rs.foldl (fun z r => z.wr r
    (readOf (y.rd r) (ps.map fun p => (p.near && writesReg p.ins r, (p.seats.getD n y).rd r)) (Config.heldAt ctr n r))) y
  let old (p : Past) : BitVec 16 := ((p.seats.find? fun o => o.lane == y.lane).getD y).preds
  { z with preds := (List.range 16).foldl (fun v k =>
      let b := readOf (y.preds.getLsbD k) (ps.map fun p => (p.near && writesPred p.ins k, (old p).getLsbD k))
        (Config.heldAt ctr n (256 + k))
      if b then v ||| BitVec.twoPow 16 k else v &&& ~~~BitVec.twoPow 16 k) y.preds }

/-- The team as the next word of honoured native code reads it, but for operands that latches serve (R62). -/
def Team.reading (t : Team) (ctr : Nat) (i : Instr) (ls : List (VOp × Latch)) : Team :=
  if t.past.isEmpty then t
  else
    let rs := (reads i).filter fun r => !ls.any fun p => (opRegs p.1).contains r
    let t' : Team := { t with seats := t.seats.mapIdx (Seat.reading t.past ctr rs) }
    match i with
    | .srd _ =>
      { t' with
        asf := readOf t.asf (changes t.asf (t.past.map fun p => (p.near, p.asf))) (Config.heldAt ctr 0 272)
        ate := readOf t.ate (changes t.ate (t.past.map fun p => (p.near, p.ate))) (Config.heldAt ctr 0 273)
        trapres := readOf t.trapres (changes t.trapres (t.past.map fun p => (p.near, p.trapres))) (Config.heldAt ctr 0 274) }
    | _ => t'

/-- The cycles that a schedule field puts between its word and the next (R59). -/
def stalls (f : BitVec 21) : Nat := 1 + bitsAt f 0 4

/-- SBSET of a schedule field (R59). -/
def sbSetOf (f : BitVec 21) : Nat := bitsAt f 16 2

/-- The list of past words after one more. -/
def Team.passed (t : Team) (f : BitVec 21) (i : Instr) (op : Nat) (old : Team) : Team :=
  { t with past := ((⟨i, op, sbSetOf f, interlocked i, 0, old.seats, old.asf, old.ate, old.trapres⟩ :: old.past).take 16).map fun p =>
      { p with since := p.since + stalls f } }

/-- What an issue in progress must remember: the team before it, the fragment, the word's opcode and guard, the
instruction, and in honoured mode the schedule field and the team as the instruction read it. -/
structure Issue where
  l : Nat
  b : Nat
  ti : Nat
  t : Team
  fi : Nat
  f : Frag
  cur : Cur
  i : Instr
  hon : Option (BitVec 21)
  seen : Team
  deriving DecidableEq, Repr

/-- Whether the instruction has completed: the team is not parked, no adoption goes on in its CAPENTER (R440), and the fragment does
not wait where it stood. -/
def Issue.completed (x : Issue) (t : Team) : Bool :=
  t.parked.isNone && t.adopt.isNone && !t.frags.any fun g => g.pc == x.f.pc && g.mask == x.f.mask && (g.stalled || g.holds)

/-- Give registers of a seat their earlier values. -/
def Seat.restore (y old : Seat) (rs : List Nat) : Seat := rs.foldl (fun y r => y.wr r (old.rd r)) y

/-- The seats that the issuing word enables. -/
def Issue.on (x : Issue) (i : Nat) : Bool :=
  x.f.mask.getLsbD i && (x.seen.seat i).guard (Fields.ofWord x.cur.word.toNat).guard

/-- The words of the destination after the instruction, whether written or pending (R61). -/
def Issue.result (x : Issue) (t : Team) : Option Latch :=
  match (dests x.i).head? with
  | none => none
  | some d =>
    let p := if x.t.pend.length < t.pend.length then t.pend.getLast? else none
    some ⟨d.reg, t.seats.mapIdx fun i y =>
      match p.bind fun p => p.words.getD i none with
      | some ws => ws
      | none => (opRegs d).map y.rd⟩

/-- The instruction left a load pending. -/
def Issue.posted (x : Issue) (t : Team) : Bool := x.t.pend.length < t.pend.length

/-- The instruction wrote a register of a seat (R59, R182). -/
def Issue.wrote (x : Issue) (f : BitVec 21) (t : Team) (i r : Nat) : Bool :=
  x.completed t && !x.posted t
    && ((x.on i && !f.getLsbD 15 && (((dests x.i).head?.map opRegs).getD []).contains r) || (moved x.i).contains r)

/-- The team before the instruction, with the data of loads that the instruction brought in. -/
def Issue.before (x : Issue) (t : Team) : Team := if t.pend.length < x.t.pend.length then x.t.drain else x.t

/-- Predicates of a seat after an instruction that read others in their place: what it did not write stands as it was. -/
def Issue.preds (x : Issue) (f : BitVec 21) (t : Team) (y : Seat) : BitVec 16 :=
  match x.t.ofLane y.lane with
  | none => y.preds
  | some i =>
    let old := (x.t.seat i).preds
    let kept := match predDest x.i with
      | some p => if x.completed t && x.on i && !f.getLsbD 15 then BitVec.twoPow 16 p.val else 0
      | none => 0
    let back := (old ^^^ (x.seen.seat i).preds) &&& ~~~kept
    let v := (y.preds &&& ~~~back) ||| (old &&& back)
    if f.getLsbD 15 && x.completed t && (predDest x.i).isSome then old else v

/-- The team once registers that were read otherwise are put back, a destination that WBS suppresses is not written (R59, R61),
and older loads leave registers that the instruction wrote (R62). -/
def Issue.settle (x : Issue) (f : BitVec 21) (t : Team) : Team :=
  let old := x.before t
  let wbs := f.getLsbD 15 && x.completed t
  let ds := ((dests x.i).head?.map opRegs).getD []
  let back (i : Nat) (y : Seat) : Seat :=
    let o := old.seat i
    let y := y.restore o (((reads x.i).filter fun r => (x.seen.seat i).rd r != (x.t.seat i).rd r && !x.wrote f t i r)
      ++ (if wbs then ds else []))
    { y with preds := x.preds f t y }
  let t' : Team := { t with seats := t.seats.mapIdx back }
  let t' : Team := match x.i with
    | .srd _ => { t' with asf := x.t.asf, ate := x.t.ate, trapres := x.t.trapres }
    | .swr _ => if wbs then { t' with ate := x.t.ate } else t'
    | .shld _ | .shset _ => if wbs then { t' with shapes := x.t.shapes } else t'
    | _ => t'
  if x.posted t then
    match t.pend.getLast? with
    | some p => if wbs then { t' with pend := t.pend.dropLast ++ [{ p with words := [] }] } else t'
    | none => t'
  else { t' with pend := t.pend.flatMap fun p => p.without (x.wrote f t) }

/-- Whether CHN takes effect (R63, R64). -/
def Issue.chains (x : Issue) (f : BitVec 21) : Bool :=
  f.getLsbD 5 && chainable x.i (Fields.ofWord x.cur.word.toNat).op && (x.f.chain.getD []).length < 3

/-- Open or continue the chain at the fall-through (R63). -/
def Issue.chain (x : Issue) (t : Team) (r : Option Latch) : Team :=
  { t with frags := t.frags.map fun g =>
      if g.pc == x.cur.fall && g.mask == x.f.mask && !g.parked then
        { g with chain := some (r :: x.f.chain.getD []), chainPc := if x.f.chain.isNone then x.f.pc else x.f.chainPc }
      else g }

/-- What follows an issue in its team: latches, chains, the breakpoint still to be passed, and single step (R61, R63,
R162, R163). -/
def Issue.after (x : Issue) (t : Team) : Team :=
  let t' := match x.hon with
    | none => { t with past := [] }
    | some f =>
      let r := x.result t
      let u := x.settle f t
      if !x.completed t then u
      else
        let u := u.passed f x.i (Fields.ofWord x.cur.word.toNat).op x.t
        if x.chains f then x.chain u r else u
  let t' := match x.f.skip with
    | some p =>
      if p == x.f.pc then t'
      else { t' with frags := t'.frags.map fun g => if g.mask == x.f.mask then { g with skip := some p } else g }
    | none => t'
  if t'.stepping && x.completed t && !t'.frags.any (fun g => g.chain.isSome) then { t' with stepDone := true } else t'

/-! ### The same for a Foyer context (R65) -/

/-- What an issue of a Foyer context must remember. -/
structure FIssue where
  l : Nat
  b : Nat
  f : Foyer
  cur : Cur
  i : Instr
  hon : Option (BitVec 21)
  seen : Foyer
  deriving DecidableEq, Repr

/-- The s-register operands in the fields A, B and C. -/
def ssources (i : Instr) : List (Option SReg) :=
  match i with
  | .sst x => [none, some x.b]
  | .sld x => [none, some x.b]
  | .sbz x | .sbnz x => [some x.a]
  | .sret a | .dqpush a => [some a]
  | _ => ((sregs i).drop 1).map some

/-- The s-registers that an instruction reads: its sources, and the data that SST names in D. -/
def sreads (i : Instr) : List SReg :=
  (match i with
    | .sst x => [x.d]
    | _ => []) ++ (ssources i).filterMap id

/-- The s-register that an instruction writes. -/
def sdest (i : Instr) : Option SReg :=
  match i with
  | .sst _ | .sbz _ | .sbnz _ | .sret _ | .dqpush _ => none
  | _ => (sregs i).head?

/-- The operand reads that latches serve. -/
def slatched (f : BitVec 21) (chain : Option (List (Option (Nat × DWord)))) (srcs : List (Option SReg)) : List (SReg × DWord) :=
  (List.range 3).filterMap fun k =>
    match srcs.getD k none, latchAt chain (bitsAt f (6 + 2 * k) 2) with
    | some o, some l => some (o, l.2)
    | _, _ => none

/-- The s-registers stand as the latches have them while the instruction reads them. -/
def Foyer.withLatches (f : Foyer) (ls : List (SReg × DWord)) : Foyer := ls.foldl (fun f p => f.wr p.1 p.2) f

/-- A past word's result may not be written yet (R62). -/
def FPast.near (p : FPast) : Bool := nearAfter p.ins p.op p.settled p.since

/-- The Foyer context once SBWAIT of a word has found its scoreboards clear. -/
def Foyer.met (f : Foyer) (k : BitVec 21) : Foyer :=
  { f with past := f.past.map fun p => if settledBy k p.sb then { p with settled := true } else p }

/-- The Foyer context as the next word of honoured native code reads it, but for operands that latches serve (R62, R65). -/
def Foyer.reading (f : Foyer) (ctr : Nat) (i : Instr) (ls : List (SReg × DWord)) : Foyer :=
  ((sreads i).filter fun r => !ls.any fun p => p.1 == r).foldl (fun g r => g.wr r
    (readOf (f.rd r) (f.past.map fun p => (p.near && sdest p.ins == some r, p.s.getD r.val 0)) (Config.heldAt ctr 0 r.val))) f

/-- The list of past words after one more. -/
def Foyer.passed (f : Foyer) (k : BitVec 21) (i : Instr) (op : Nat) (old : Foyer) : Foyer :=
  { f with past := ((⟨i, op, sbSetOf k, false, 0, old.s⟩ :: old.past).take 16).map fun p => { p with since := p.since + stalls k } }

/-- Whether the instruction has completed. -/
def FIssue.completed (f : Foyer) : Bool := f.parked.isNone && !f.stalled

/-- The Foyer context once registers that were read otherwise are put back, a destination that WBS suppresses is not written, and
older loads leave the register that the instruction wrote (R59, R61, R62). -/
def FIssue.settle (x : FIssue) (k : BitVec 21) (f : Foyer) : Foyer :=
  let done := FIssue.completed f
  let posted := x.f.pend.length < f.pend.length
  let old := if f.pend.length < x.f.pend.length then x.f.drain else x.f
  let wbs := k.getLsbD 15 && done
  let wrote (d : SReg) : Bool := done && !wbs && !posted && sdest x.i == some d
  let back (f : Foyer) (d : SReg) : Foyer := f.wr d (old.rd d)
  let u := (((sreads x.i).filter fun d => x.seen.rd d != x.f.rd d && !wrote d)
    ++ (if wbs then (sdest x.i).toList else [])).foldl back f
  if posted then
    match f.pend.getLast? with
    | some p => if wbs then { u with pend := f.pend.dropLast ++ [⟨0, 0, p.sb, none⟩] } else u
    | none => u
  else
    match sdest x.i with
    | some d => if wrote d then { u with pend := f.pend.map fun p => p.without d.val } else u
    | none => u

/-- What follows an issue in its Foyer context. -/
def FIssue.after (x : FIssue) (f : Foyer) : Foyer :=
  let done := FIssue.completed f
  let op := (Fields.ofWord x.cur.word.toNat).op
  let f' := match x.hon with
    | none => { f with chain := if done then none else f.chain, past := [] }
    | some k =>
      let u := x.settle k f
      if !done then u
      else
        let u := u.passed k x.i op x.f
        let p := if x.f.pend.length < f.pend.length then f.pend.getLast? else none
        let r := (sdest x.i).map fun d => (d.val, match p with
          | some p => p.val
          | none => f.rd d)
        if k.getLsbD 5 && chainable x.i op && (x.f.chain.getD []).length < 3 && u.pc == x.cur.fall then
          { u with chain := some (r :: x.f.chain.getD []), chainPc := if x.f.chain.isNone then x.f.pc else x.f.chainPc }
        else { u with chain := none }
  if f'.stepping && done && f'.chain.isNone then { f' with stepDone := true } else f'

/-! ### Which fragment issues (R152, R160) -/

/-- The place of the fragment of a list of candidates with the lowest PC, the lower seat first at one PC (R148). -/
def lowestFrag (t : Team) (fs : List (Nat × Frag)) : Option Nat :=
  match fs with
  | [] => none
  | x :: xs =>
    some (xs.foldl (fun (a : Nat × Frag) y =>
      if y.2.pc.toNat < a.2.pc.toNat || (y.2.pc == a.2.pc && lowSeat t y.2.mask < lowSeat t a.2.mask) then y else a) x).1

/-- Of fragments that wait to issue, the place of the one that has waited longest (R154). -/
def longest : List (Nat × Frag) → Option Nat
  | [] => none
  | x :: xs => some (xs.foldl (fun (a : Nat × Frag) y => if y.2.since < a.2.since then y else a) x).1

/-- An operand of a fragment may be pending (R152): not of one that has not been seen ready yet, nor of one that starvation has lifted. -/
def Frag.late (f : Frag) (tick l b t k : Nat) : Bool := f.since != 0 && f.lift == .none && Config.late tick l b t k

/-- Fragments that are not parked, by place. -/
def Team.unparked (t : Team) : List (Nat × Frag) := ((List.range t.frags.length).zip t.frags).filter fun p => !p.2.parked

/-- The one fragment from which the team may issue: one that waits in an instruction after which the team issues nothing until it
completes (R241, R289), or within an open chain its fragment (R63). -/
def Team.only (t : Team) : Option (Nat × Frag) :=
  (t.unparked.find? fun p => p.2.holds) <|> t.unparked.find? fun p => p.2.chain.isSome

/-- The fragments from which the team may issue once they are ready. -/
def Team.eligible (t : Team) : List (Nat × Frag) :=
  match t.only with
  | some p => [p]
  | none => t.unparked

/-- The candidate of R152: of the ready fragments one that starvation has lifted, the longest-waiting first (R154), else that of the
lowest PC. -/
def Team.next (t : Team) (late : Nat → Frag → Bool) : Option Nat :=
  let ready := t.eligible.filter fun p => !p.2.stalled && !late p.1 p.2
  longest (ready.filter fun p => p.2.lift == .waited16384) <|> longest (ready.filter fun p => p.2.lift == .waited1024)
    <|> lowestFrag t ready

/-- Fragments known to wait, of which one may try again where none is ready. -/
def Team.again (t : Team) : List Nat :=
  (t.eligible.filter fun p => p.2.stalled).map Prod.fst

/-- The fragment that a turn names, or leaves open, where it may issue: the candidate, or one that tries again. -/
def Team.chosen (t : Team) (late : Nat → Frag → Bool) (f : Option Nat) (tick : Nat) : Option Nat :=
  match t.next late, f with
  | some j, none => some j
  | some j, some k => if j = k then some k else none
  | none, none => t.again[tick % t.again.length]?
  | none, some k => if t.again.contains k then some k else none

/-! ### Breakpoints (R400) -/

/-- An enabled hardware breakpoint of a function matches an address. -/
def State.hwbpAt (s : State) (fn : Nat) (foyer : Bool) (pc : DWord) : Bool :=
  match s.func fn with
  | none => false
  | some f => f.hwbp.any fun v => v.getLsbD 0 && v.getLsbD 1 == foyer && (v >>> 3) == (pc >>> 3)

end Sys2Proof.Machine
end

