-- ==== Sys2Proof/Machine/Solve.lean ====
section
/-!
DEFINITION. Machine/Solve.lean: solve regions (R451 to R469): carried tiles, entering and leaving a region, the
evaluation of the mixing engine, its decision, and its faults.
-/
namespace Sys2Proof.Machine

/-! ### Carried tiles and the history area (R455, R456) -/

/-- The named shape registers, in order. -/
def tileRegs : SolveTiles → List ShReg
  | .one a => [a]
  | .two a b => [a, b]
  | .three a b c => [a, b, c]
  | .four a b c d => [a, b, c, d]

/-- The carried elements in vector order: the tile and the index. -/
def carried (xs : List Shape) : List (Shape × Ix) := xs.flatMap fun x => (List.range (shCount x)).map fun n => (x, ixOf x n)

/-- N. -/
def carriedCount (xs : List Shape) : Nat := xs.foldl (fun n x => n + shCount x) 0

/-- No two listed places are the same. -/
def allDistinct : List (Nat × Nat) → Bool
  | [] => true
  | p :: ps => !ps.contains p && allDistinct ps

/-- The cause that a set of carried tiles raises, with its address. -/
def carriedCause (s : State) (e : TEnv) (xs : List Shape) : Option CauseAt :=
  match s.shapesCause e.l.fn e.l.asid xs with
  | some c => some (c, 0)
  | none =>
    let n := carriedCount xs
    if !xs.all fun x => shFmt x == 0x07 && shLvl x != 1 && shGrp x == 0 && shSpn x == 0 then some (0x83#8, 0)
    else if n = 0 || 4194304 < n then some (0x83#8, 0)
    else if !allDistinct ((carried xs).map fun p => (shLvl p.1, elemAddr p.1 p.2)) then some (0xAA#8, 0)
    else xs.findSome? fun x => spanCause e.l x 4

/-- Two sets agree in BASE, FMT, LVL and every EXTd and STRd (R457). -/
def sameTiles (xs ys : List Shape) : Bool :=
  xs.length == ys.length && (xs.zip ys).all fun p =>
    shBase p.1 == shBase p.2 && shFmt p.1 == shFmt p.2 && shLvl p.1 == shLvl p.2
      && dims.all fun d => shExt p.1 d == shExt p.2 d && shStr p.1 d == shStr p.2 d

/-- The history area lies in the launch's Pantry allocation (R456). -/
def historyFits (l : Launch) (v : Solve) (n : Nat) : Bool := v.hbase.toNat + (3 * v.depth.toNat + 2) * 4 * n ≤ l.pant

/-! ### Entering and leaving (R457, R458) -/

/-- Change a block's solve context. -/
def State.updSolve (s : State) (l b : Nat) (f : Solve → Solve) : State :=
  s.updBlock l b fun x => { x with solve := f x.solve }

/-- A team is entering an activation that is not yet under way. -/
def Block.entering (b : Block) : Bool := b.teams.any fun t => t.solve == .atBegin

/-- A team's part in the solve region. -/
def Team.withSolve (t : Team) (w : SolveWait) : Team := { t with solve := w }

/-- A team arrives: a release at .clu, then it waits; its region goes on (R223). -/
def solveArrive (s : State) (e : TEnv) (w : SolveWait) (f : Solve → Solve) : Out :=
  let s := (s.release e.b.runsOn e.agent .clu).updSolve e.l.id e.b.id f
  stall s { e with t := e.t.withSolve w }

/-- A team leaves with an acquire at .clu, to an address. -/
def solveLeave (s : State) (e : TEnv) (pc : DWord) : Out :=
  .next ((s.acquire e.b.runsOn .clu).putTeam e (e.goto (e.t.withSolve .none) pc))

/-- A wait that is issued again: suspended work goes on (R464). -/
def solveAgain (s : State) (e : TEnv) (phase : Nat → SolvePhase) : Out :=
  match e.b.solve.phase with
  | .suspended _ k => stall (s.updSolve e.l.id e.b.id fun v => { v with phase := phase k }) e
  | _ => stall s e

/-- SOLVE.BEGIN. -/
def execSolveBegin (x : SolveTiles) (s : State) : Out :=
  issueTeam (.solveBegin x) s fun e =>
    if 1 < e.t.frags.length then stall s e
    else
      match e.t.solve with
      | .exitNow => solveLeave s e e.cur.fall
      | .atBegin => solveAgain s e fun _ => .copying
      | _ =>
        let v := e.b.solve
        let xs := (tileRegs x).map e.t.shape
        match carriedCause s e xs with
        | some c => trapAt s e c
        | none =>
          if v.state != 1 then
            if !historyFits e.l v (carriedCount xs) then trap s e 0xA9#8
            else solveArrive s e .atBegin fun v => { v with tiles := xs, state := 1, iter := 0, phase := .idle }
          else if !sameTiles xs v.tiles then trap s e 0xAA#8
          else if e.b.entering then solveArrive s e .atBegin id
          else retire s e e.t

/-- SOLVE.END. -/
def execSolveEnd (x : SolveTiles) (s : State) : Out :=
  issueTeam (.solveEnd x) s fun e =>
    if 1 < e.t.frags.length then stall s e
    else
      match e.t.solve with
      | .repeatTo => solveLeave s e (restartOf (e.l.img.stab.map Prod.snd) (e.l.portable e.cur.pc))
      | .exitNow => solveLeave s e e.cur.fall
      | .failed => trap (s.putTeam e (e.t.withSolve .none)) e 0xA8#8
      | .atEnd => solveAgain s e .evaluating
      | _ =>
        let v := e.b.solve
        let xs := (tileRegs x).map e.t.shape
        if v.state != 1 then trap s e 0x03#8
        else
          match carriedCause s e xs with
          | some c => trapAt s e c
          | none => if !sameTiles xs v.tiles then trap s e 0xAA#8 else solveArrive s e .atEnd id

/-! ### SOLVE.SET, SOLVE.STAT (R468, R469) -/

/-- The parameter written; none where the value is out of range. -/
def solveParam (v : Solve) (p : SolveParam) (w : Word) : Option Solve :=
  match p with
  | .thresh => some { v with thresh := w }
  | .ceil => if w.extractLsb' 0 16 = 0 then none else some { v with ceil := w.extractLsb' 0 16 }
  | .depth => if 8 < w.toNat then none else some { v with depth := w.extractLsb' 0 4 }
  | .hbase => if w.toNat % 128 = 0 then some { v with hbase := w } else none

/-- SOLVE.SET. -/
def execSolveSet (x : SolveSetOp) (s : State) : Out :=
  issueTeam (.solveSet x) s fun e =>
    match e.workers always with
    | [] => trap s e 0x03#8
    | i :: _ =>
      if e.b.solve.state == 1 then trap s e 0x03#8
      else
        match solveParam e.b.solve x.p ((e.t.seat i).rd x.a.val) with
        | none => trap s e 0x03#8
        | some v => retire (s.updSolve e.l.id e.b.id fun _ => v) e e.t

/-- The TID of a block's solve context (R452). -/
def solveTid (b : Nat) : Nat := 3 * 2 ^ 28 + b % 2 ^ 28

/-- The word that SOLVE.STAT reads. -/
def solveWord (b : Block) (sel : Fin 4) : DWord :=
  match sel with
  | 0 => BitVec.ofNat 64 (b.solve.state * 2 ^ 16 + b.solve.iter)
  | 1 => b.solve.norm.zeroExtend 64
  | 2 => BitVec.ofNat 64 (solveTid b.id)
  | 3 => BitVec.ofNat 64 b.solve.timeline

/-- SOLVE.STAT. -/
def execSolveStat (x : SelRead) (s : State) : Out :=
  issueTeam (.solveStat x) s fun e => retire s e (e.each always fun y => y.wr2 x.d.val (solveWord e.b x.sel))

/-! ### The arithmetic of the evaluation (R459): FP32 codes with the flags that are raised -/

/-- Add. -/
def vAdd (a b : Nat) : FRes := fmtF32.add .rn false a b
/-- Subtract. -/
def vSub (a b : Nat) : FRes := fmtF32.sub .rn false a b
/-- Multiply. -/
def vMul (a b : Nat) : FRes := fmtF32.mul .rn false a b
/-- Divide. -/
def vDiv (a b : Nat) : FRes := fmtF32.div .rn false a b
/-- Multiply and add, the first factor negated. -/
def vNma (a b c : Nat) : FRes := fmtF32.fma .rn false (fmtF32.negate a) b c

/-- An operation on vectors, element by element. -/
def vZip (f : Nat → Nat → FRes) (xs ys : List Nat) : List Nat × BitVec 7 :=
  let rs := xs.zipWith f ys
  (rs.map Prod.fst, rs.foldl (fun a r => a ||| r.2) 0)

/-- The largest power of two below n, found by doubling h at most as often as the fuel allows. -/
def halfPow (n : Nat) : Nat → Nat → Nat
  | 0, h => h
  | k + 1, h => if 2 * h < n then halfPow n k (2 * h) else h

/-- psum: a sum in the fixed pairwise order. -/
def psum : Nat → List Nat → FRes
  | 0, _ => (0, 0)
  | fuel + 1, xs =>
    match xs with
    | [] => (0, 0)
    | [x] => (x, 0)
    | _ =>
      let h := halfPow xs.length 64 1
      let a := psum fuel (xs.take h)
      let b := psum fuel (xs.drop h)
      let r := vAdd a.1 b.1
      (r.1, a.2 ||| b.2 ||| r.2)

/-- dot. -/
def vDot (a b : List Nat) : FRes :=
  let p := vZip vMul a b
  let r := psum 64 p.1
  (r.1, p.2 ||| r.2)

/-- A value that is zero or not finite. -/
def dropped (d : Nat) : Bool :=
  match fmtF32.unpack d with
  | .fin _ m _ => m == 0
  | _ => true

/-- The columns that follow one column, made orthogonal to it: the coefficients, the columns, the flags. -/
def orthogonalise (q : List Nat) (d : Nat) (drop : Bool) : List (List Nat) → List Nat × List (List Nat) × BitVec 7
  | [] => ([], [], 0)
  | c :: cs =>
    let r := orthogonalise q d drop cs
    let p := vDot q c
    let k := if drop then (0, 0) else vDiv p.1 d
    let u := vZip (vNma k.1) q c
    (k.1 :: r.1, u.1 :: r.2.1, (if drop then 0 else p.2 ||| k.2) ||| u.2 ||| r.2.2)

/-- Modified Gram–Schmidt over the columns, as many as the fuel allows: for each column its coefficients against those
that follow and its t, then the working columns and the flags. -/
def gramSchmidt (f : List Nat) : Nat → List (List Nat) → List (List Nat × Nat) × List (List Nat) × BitVec 7
  | 0, qs => ([], qs, 0)
  | _ + 1, [] => ([], [], 0)
  | n + 1, q :: qs =>
    let d := vDot q q
    let drop := dropped d.1
    let o := orthogonalise q d.1 drop qs
    let p := vDot q f
    let t := if drop then (0, 0) else vDiv p.1 d.1
    let r := gramSchmidt f n o.2.1
    ((o.1, t.1) :: r.1, q :: r.2.1, d.2 ||| o.2.2 ||| (if drop then 0 else p.2 ||| t.2) ||| r.2.2)

/-- Back substitution with a unit diagonal: gam, and the flags. -/
def backSubst : List (List Nat × Nat) → List Nat × BitVec 7
  | [] => ([], 0)
  | (cf, t) :: rest =>
    let r := backSubst rest
    let g := (cf.zip r.1).foldl (fun (a : FRes) p => let v := vNma p.1 p.2 a.1; (v.1, a.2 ||| v.2)) (t, 0)
    (g.1 :: r.1, r.2 ||| g.2)

/-- The next value of an element: its X and F, and for each past iterate its gam, HX and HF. -/
def mixed (x f : Nat) (hs : List (Nat × Nat × Nat)) : FRes :=
  let y := vAdd x f
  hs.foldl (fun (a : FRes) h =>
    let p := vSub x h.2.1
    let q := vSub f h.2.2
    let u := vAdd p.1 q.1
    let v := vNma h.1 u.1 a.1
    (v.1, a.2 ||| p.2 ||| q.2 ||| u.2 ||| v.2)) y

/-! ### The engine's vectors (R456, R463) -/

/-- Values of the history area at an offset from HBASE. -/
def State.history (s : State) (x : EngAgent) (off n : Nat) : List Nat :=
  let a := x.b.solve.hbase.toNat + off
  (List.range n).map fun k => leNat (s.levelBytes x.l.id x.b.id .pantry (a + 4 * k) 4)

/-- Write values of the history area at an offset. -/
def State.putHistory (s : State) (x : EngAgent) (off : Nat) (vs : List Nat) : State :=
  s.updLevel x.l.id x.b.id .pantry fun m => m.put (x.b.solve.hbase.toNat + off) (vs.flatMap (leBytes 4))

/-- Read elements of the carried tiles in order. -/
def readCarried (s : State) (x : EngAgent) : List (Shape × Ix) → Eng (List Nat)
  | [] => .ok s []
  | p :: ps => (engElem s x p.1 none p.2).andThen fun s v => (readCarried s x ps).andThen fun s vs => .ok s (v :: vs)

/-- An engine at work for a block's solve context, where it may go on: every team not exited waits at w, and at least
one does. -/
def State.solveEnv (s : State) (l b : Nat) (w : SolveWait) : Option EngAgent :=
  match s.launch l with
  | none => none
  | some ln => match ln.block b with
    | none => none
    | some bk =>
      let on := bk.teams.filter fun t => !t.exited
      let suspended := match bk.solve.phase with
        | .suspended _ _ => true
        | .decided _ => true
        | _ => false
      if ln.st == .running && bk.solve.state == 1 && !suspended && !on.isEmpty
          && on.all (fun t => t.solve == w && !t.stop) then some ⟨.solve l b, 0, ln, bk⟩ else none

/-- Every team of a block that waits at w goes to another part. -/
def State.moveSolve (s : State) (l b : Nat) (w v : SolveWait) : State :=
  s.updBlock l b fun x => { x with teams := x.teams.map fun t => if t.solve == w then t.withSolve v else t }

/-! ### The activation copy -/

/-- SOLVE_ACTIVATION_COPY: X takes the carried vector, and every arrived team may leave. -/
def execSolveActivationCopy (l b : Nat) (s : State) : Out :=
  match s.solveEnv l b .atBegin with
  | none => .next s
  | some x =>
    match readCarried s x (carried x.b.solve.tiles) with
    | .ok s vs =>
      .next ((((s.putHistory x 0 vs).updSolve l b fun v => { v with phase := .idle }).moveSolve l b .atBegin .exitNow).endRegion
        x.a)
    | _ => .next s

/-! ### The evaluation (R459, R461) -/

/-- The team environment of a team that waits, as a report needs it: its one fragment and the word at its PC. -/
def State.waitEnv (s : State) (l b t : Nat) : Option TEnv :=
  match s.launch l with
  | none => none
  | some ln => match ln.block b with
    | none => none
    | some bk => match bk.teams[t]? with
      | none => none
      | some tm => match tm.frags with
        | f :: _ =>
          let c : Cur := match s.fetch ln (some bk.runsOn.die) f.pc with
            | .word w lit sc _ fall => ⟨.team l b t 0, f.pc, BitVec.ofNat 64 w, lit, sc, fall⟩
            | .bad _ _ => ⟨.team l b t 0, f.pc, 0, 0, none, f.pc + 8⟩
          some ⟨c, ln, bk, t, tm, 0, f⟩
        | [] => none

/-- Raise a cause in every team of a block that has a part in the solve region and is not parked, in ascending order. -/
def State.raiseWaiting (s : State) (l b : Nat) (w : SolveWait) (c : Cause) (i : TrapInfo → TrapInfo)
    (after : SolveWait) : State :=
  match (s.launch l).bind fun x => x.block b with
  | none => s
  | some bk => (List.range bk.teams.length).foldl (fun s t =>
    match s.waitEnv l b t with
    | some e =>
      if e.t.solve == w && e.t.parked.isNone && !e.t.exited then
        takeTrap (s.updTeam l b t fun x => x.withSolve after) e c (i (e.info c))
      else s
    | none => s) s

/-- fail(0xA8): the evaluation completes, the state is 3, and every waiting team traps; one that is parked traps when it
issues again. -/
def solveFail (s : State) (x : EngAgent) (flags : BitVec 7) : State :=
  let s := (s.updSolve x.l.id x.b.id fun v =>
    { v with state := 3, timeline := v.timeline + 1, phase := .idle, flags := 0 }).endRegion x.a
  let s := s.updBlock x.l.id x.b.id fun b => { b with teams := b.teams.map fun t => t.raise flags }
  (s.moveSolve x.l.id x.b.id .atEnd .failed).raiseWaiting x.l.id x.b.id .failed 0xA8#8 id .none

/-- The slots of the history that evaluation k uses, newest first (s(j), j = 1 to mk). -/
def historySlots (k m mk : Nat) : List Nat := (List.range mk).map fun j => (k - (j + 1)) % m

/-- What is written back for one element. -/
structure Mix where
  place : Shape × Ix
  n : Nat
  deriving DecidableEq, Repr

/-- Write back the elements listed: the tile's element, then the history and X; how many were written, with the flags. -/
def writeBackAll (s : State) (x : EngAgent) (total : Nat) : List Mix → Nat → BitVec 7 → Nat × BitVec 7 × Eng Unit
  | [], n, fl => (n, fl, .ok s ())
  | p :: ps, n, fl =>
    let v := x.b.solve
    let m := v.depth.toNat
    let k := v.iter - 1
    let at_ (off : Nat) : Nat := (s.history x (off + 4 * p.n) 1).headD 0
    let xv := at_ 0
    let fv := at_ (4 * total)
    let hx (i : Nat) : Nat := 4 * total * (2 + i)
    let hf (i : Nat) : Nat := 4 * total * (2 + m + i)
    let hs := (historySlots k m v.cols).zip v.gam |>.map fun q => (q.2.toNat, at_ (hx q.1), at_ (hf q.1))
    let y := mixed xv fv hs
    match engPutElem s x p.place.1 none p.place.2 y.1 with
    | .ok s _ =>
      let w := k % m
      let s := if 0 < m then (s.putHistory x (hx w + 4 * p.n) [xv]).putHistory x (hf w + 4 * p.n) [fv] else s
      writeBackAll (s.putHistory x (4 * p.n) [y.1]) x total ps (n + 1) (fl ||| y.2)
    | .wait => (n, fl, .wait)
    | .fail s w => (n, fl, .fail s w)

/-- One step of the write-back, of 32 elements, from an element on; the last ends in the decision to repeat. What was written before an
element that fails, or that meets a full dirty log, stands (R415, R464, R465). -/
def writeBackFrom (s : State) (x : EngAgent) (done : Nat) : State × Option Susp :=
  let es := carried x.b.solve.tiles
  let ps := (List.range es.length).zip es |>.map fun p => (⟨p.2, p.1⟩ : Mix)
  let fl := x.b.solve.flags
  let step := (ps.drop done).take (32 - done % 32)
  let upTo (s : State) (n : Nat) (f : BitVec 7) : State :=
    s.updSolve x.l.id x.b.id fun v => { v with flags := f, phase := if n < ps.length then .evaluating (n + 1) else .decided true }
  let r := writeBackAll s x es.length step done fl
  match r.2.2 with
  | .ok s _ => (upTo s r.1 r.2.1, none)
  | e =>
    let u := match (writeBackAll s x es.length (step.take (r.1 - done)) done fl).2.2 with
      | .ok u _ => u
      | _ => s
    match e with
    | .fail t w => (upTo { u with funcs := t.funcs, intrs := t.intrs } r.1 r.2.1, some w)
    | _ => (upTo u r.1 r.2.1, none)

/-- Evaluation k once its carried vector has been read: the residual, the norm, the tests and the mixing coefficients. -/
def evaluateWith (s : State) (x : EngAgent) (ts : List Nat) : State :=
  let l := x.l.id
  let b := x.b.id
  let v := x.b.solve
  let n := ts.length
  let m := v.depth.toNat
  let k := v.iter
  let xs := s.history x 0 n
  let f := vZip vSub ts xs
  let s := s.putHistory x (4 * n) f.1
  let d := vDot f.1 f.1
  let nrm := fmtF32.sqrt .rn false d.1
  let fl := f.2 ||| d.2 ||| nrm.2
  let s := s.updSolve l b fun v => { v with norm := BitVec.ofNat 32 nrm.1, iter := k + 1 }
  let lt := fmtF32.compare .lt nrm.1 v.thresh.toNat
  let bad := match fmtF32.unpack nrm.1 with
    | .fin _ _ _ => false
    | _ => true
  if bad then solveFail s x fl
  else
    let fl := fl ||| lt.2
    if lt.1 then s.updSolve l b fun v => { v with flags := fl, phase := .decided false }
    else if v.ceil.toNat ≤ k + 1 then solveFail s x fl
    else
      let mk := min k m
      let qs := (historySlots k m mk).map fun i => vZip vSub f.1 (s.history x (4 * n * (2 + m + i)) n)
      let g := gramSchmidt f.1 mk (qs.map Prod.fst)
      let r := backSubst g.1
      let fl := qs.foldl (fun a q => a ||| q.2) fl ||| g.2.2 ||| r.2
      let s := ((List.range mk).zip g.2.1).foldl (fun s p => s.putHistory x (4 * n * (2 + 2 * m + p.1)) p.2) s
      s.updSolve l b fun v => { v with cols := mk, gam := r.1.map (BitVec.ofNat 32), flags := fl, phase := .evaluating 1 }

/-- An evaluation's next step: up to its mixing coefficients, or 32 elements of the write-back; the state, and the suspension where an
access fails. -/
def evaluate (s : State) (x : EngAgent) : State × Option Susp :=
  match x.b.solve.phase with
  | .evaluating (done + 1) => writeBackFrom s x done
  | _ =>
    match readCarried s x (carried x.b.solve.tiles) with
    | .wait => (s, none)
    | .fail t w => (t, some w)
    | .ok s ts => (evaluateWith s x ts, none)

/-- SOLVE_EVALUATION: the engine takes the evaluation's next step; a stop of the launch may fall between two (R465). -/
def execSolveEvaluation (l b : Nat) (s : State) : Out :=
  match s.solveEnv l b .atEnd with
  | none => .next s
  | some x =>
    match evaluate s x with
    | (t, none) => .next t
    | (_, some _) => .next s

/-! ### The decision (R454, R460) -/

/-- SOLVE_DECISION: the timeline advances, the flags reach every team, the teams may leave, and the Foyer is told; it
waits while the Foyer has as many decisions pending as may be. -/
def execSolveDecision (l b : Nat) (s : State) : Out :=
  match (s.launch l).bind fun ln => (ln.block b).map fun bk => (ln, bk) with
  | none => .next s
  | some (ln, bk) =>
    match bk.solve.phase with
    | .decided rep =>
      if ln.st != .running || (if rep then 127 ≤ bk.solve.repeats else 1 ≤ bk.solve.exits) then .next s
      else
        let s := s.updBlock l b fun x => { x with teams := x.teams.map fun t => t.raise bk.solve.flags }
        let s := s.updSolve l b fun v =>
          { v with timeline := v.timeline + 1, flags := 0, phase := .idle
                   state := if rep then v.state else 2
                   repeats := if rep then v.repeats + 1 else v.repeats
                   exits := if rep then v.exits else v.exits + 1 }
        .next ((s.moveSolve l b .atEnd (if rep then .repeatTo else .exitNow)).endRegion (.solve l b))
    | _ => .next s

/-! ### Faults of the engine (R464) -/

/-- SOLVE_ENGINE_FAULT: the copy or evaluation is suspended before the failing access, and every waiting team reports it. -/
def execSolveEngineFault (l b : Nat) (s : State) : Out :=
  let report (s : State) (w : SolveWait) (k : Nat) (u : Susp) : State :=
    (s.updSolve l b fun v => { v with phase := .suspended u k }).raiseWaiting l b w u.cause
      (fun i => { i with addr := u.addr, inner := u.inner, conflict := u.who, onResume := .reissue }) w
  match s.solveEnv l b .atBegin with
  | some x =>
    match readCarried s x (carried x.b.solve.tiles) with
    | .fail t w => .next (report t .atBegin 0 w)
    | _ => .next s
  | none =>
    match s.solveEnv l b .atEnd with
    | none => .next s
    | some x =>
      match evaluate s x with
      | (t, some w) =>
        let k := match ((t.launch l).bind fun ln => ln.block b).map fun bk => bk.solve.phase with
          | some (.evaluating k) => k
          | _ => 0
        .next (report t .atEnd k w)
      | (_, none) => .next s

end Sys2Proof.Machine
end

