-- ==== Sys2Proof/Machine/Image.lean ====
section
/-!
DEFINITION. Machine/Image.lean: the context save image (R421 to R425, R465): writing a launch into its bytes, and reading a
launch's parts from them. What an image does not hold and a restore needs is a free value (notes/assumptions/20).
-/
namespace Sys2Proof.Machine

/-! ### Pieces of an image -/

/-- Padding to the next multiple of 16 (R422). -/
def pad16 (bs : List Byte) : List Byte := bs ++ List.replicate ((16 - bs.length % 16) % 16) 0

/-- The next multiple of 16. -/
def up16 (n : Nat) : Nat := (n + 15) / 16 * 16

/-- A section with its header (R422). -/
def sectionBytes (ty sub id : Nat) (body : List Byte) : List Byte :=
  let b := pad16 body
  leBytes 2 ty ++ leBytes 2 sub ++ leBytes 4 id ++ leBytes 8 (16 + b.length) ++ b

/-- A barrier as R243 lays it out. -/
def barBytes (b : Bar) : List Byte :=
  leBytes 8 (b.phase.toNat * 2 ^ 40 + b.cnt.toNat * 2 ^ 33 + (if b.isOpen then 2 ^ 32 else 0) + b.arr.toNat)

/-- The 256 barriers of a set. -/
def barTable (bars : List (Nat × Bar)) : List Byte := (List.range 256).flatMap fun k => barBytes (barGet bars k)

/-- The index of a binding in the BIND section; 0xFF for none. -/
def bref (bs : List (Option Nat)) (i : Option Nat) : Nat :=
  match i with
  | none => 0xFF
  | some i => (bs.findIdx? fun b => b == some i).getD 0xFF

/-- The number of a conflicting agent's kind, with its block and team (CKIND of R386). -/
def AgentId.parts : AgentId → Nat × Nat × Nat
  | .team _ b t => (1, b, t)
  | .foyer _ b => (2, b, 0xFF)
  | .hearth _ b t => (3, b, t)
  | .copy _ b t => (4, b, t)
  | .solve _ b => (7, b, 0xFF)
  | _ => (0, 0, 0)

/-! ### Where an agent stands when it is saved (R65, R417) -/

/-- The next instruction's address in its region. -/
def Launch.nextPc (l : Launch) (pc : DWord) : DWord :=
  match l.region pc.toNat with
  | some r => r.next pc
  | none => pc + 8

/-- The address at which a team's fragment is saved: a chain's head; past a barrier whose phase has completed; where a
decision of a solve region sends it. -/
def Team.savedPc (l : Launch) (t : Team) (f : Frag) : DWord :=
  if f.chain.isSome then f.chainPc
  else if t.bar.any fun w => w.done then l.nextPc f.pc
  else match t.solve with
    | .exitNow => l.nextPc f.pc
    | .repeatTo => restartOf (l.img.stab.map Prod.snd) (l.portable f.pc)
    | _ => f.pc

/-- The instruction that stands at an address of a launch's code, in a stream. -/
def State.codeAt (s : State) (l : Launch) (foyer : Bool) (pc : DWord) : Option Instr :=
  match s.fetch l none pc with
  | .word w lit _ pk _ => (l.decodeAt foyer pc pk w lit).toOption
  | .bad _ _ => none

/-- A pop (R160). -/
def isPop : Instr → Bool
  | .dqpop _ | .bru _ => true
  | _ => false

/-- STATE of a fragment record: 2 parked at a join, 4 stopped at a breakpoint, 3 waiting at a pop for its siblings, 1 stalled,
0 ready (R151, R160). -/
def State.fragState (s : State) (l : Launch) (t : Team) (held : Option Record) (f : Frag) : Nat :=
  if f.parked then 2
  else if held.any fun r => (r.cause == 0x08#8 || r.cause == 0x09#8) && r.pc == f.pc then 4
  else if 1 < t.frags.length && (s.codeAt l false (t.savedPc l f)).any isPop then 3
  else if f.stalled || t.bar.any (fun w => !w.done) then 1
  else 0

/-- A fragment record and its mask image (R151). DESIGN CHOICE (R151 gives BEC only while a fragment is parked, notes/assumptions/35):
of one that is not, BEC is the last count that it had. -/
def fragBytes (s : State) (l : Launch) (t : Team) (held : Option Record) (f : Frag) : List Byte :=
  let seats := (List.range 1024).filter f.mask.getLsbD
  leBytes 8 (t.savedPc l f).toNat ++ leBytes 2 (s.fragState l t held f) ++ leBytes 2 (lowSeat t f.mask)
    ++ leBytes 2 seats.length ++ leBytes 2 f.bec ++ leBytes 128 f.mask.toNat

/-- Fragments in ascending order of the address saved. -/
def placeFrag (l : Launch) (t : Team) (f : Frag) : List Frag → List Frag
  | [] => [f]
  | g :: gs => if (t.savedPc l f).toNat < (t.savedPc l g).toNat then f :: g :: gs else g :: placeFrag l t f gs

/-! ### Records (R386, R423) -/

/-- A pending record as an image holds it: 256 bytes and the ring index. -/
def Record.saved (r : Record) (size : Nat) : List Byte :=
  let p := r.ix.getD 0
  let bs := leBytes 8 (entryHeader size p r.len r.kind r.cause) ++ r.body.drop 8
  bs ++ List.replicate (256 - bs.length) 0 ++ leBytes 8 p

/-- The pending record that parks an agent. -/
def State.parkedBy (s : State) (k : Option Nat) : Option Record :=
  match k with
  | none => none
  | some k => s.records.find? fun r => r.id == k

/-- The entries of a launch's ring. -/
def State.ringSize (s : State) (l : Launch) : Nat :=
  match s.rings.find? fun g => some g.hdr == l.ring with
  | some g => 2 ^ g.lsize
  | none => 1

/-! ### TEAM (R424) -/

/-- A copy entry. Of a suspension by a cause of its own, 0x60, 0x82 or 0x83, the inner-cause byte holds that cause (DEDUCED,
notes/assumptions/36): it is no cause of R125, and the resumed wait reports it. -/
def copyBytes (bs : List (Option Nat)) (o : CopyOp) : List Byte :=
  let susp : Nat × Nat := match o.susp with
    | some w => (w.code.toNat, w.addr.toNat)
    | none => (0, 0)
  leBytes 8 o.batch ++ leBytes 4 o.pos ++ leBytes 1 o.form ++ leBytes 1 o.xbits
    ++ leBytes 1 (if o.susp.isSome then 1 else 0) ++ leBytes 1 susp.1
    ++ leBytes 8 o.progress ++ leBytes 8 (o.bo.getD 0).toNat ++ leBytes 8 o.pc.toNat
    ++ leBytes 8 susp.2 ++ leBytes 1 (bref bs o.bind) ++ leBytes 15 0
    ++ leBytes 64 o.src.toNat ++ leBytes 64 o.dst.toNat

/-- STATE of a Hearth entry: 1 suspended, 2 to start again, 0 running. -/
def HOp.saveState (o : HOp) : Nat :=
  if o.susp.isSome then 1 else if o.kind == .mma || o.kind == .mdist then 0 else 2

/-- A Hearth entry. -/
def hearthBytes (bs : List (Option Nat)) (o : HOp) : List Byte :=
  let cause : Nat := match o.susp with
    | some w => w.code.toNat
    | none => 0
  leBytes 8 o.num ++ leBytes 1 o.saveState ++ leBytes 1 o.passes ++ leBytes 1 (bref bs o.bind) ++ leBytes 1 cause
    ++ leBytes 4 0 ++ leBytes 8 o.word.toNat ++ leBytes 8 o.pc.toNat ++ leBytes 32 0
    ++ leBytes 64 o.cSh.toNat ++ leBytes 64 o.bSh.toNat ++ leBytes 64 o.aSh.toNat

/-- The state of a lane by its number: R424's code with the helper bit. -/
def Seat.stateCode (x : Seat) : Nat :=
  (match x.st with
    | .absent => 0
    | .active => 1
    | .parked => 2
    | .exited => 3) + (if x.helper then 128 else 0)

/-- The seat that holds a lane. -/
def Team.seatOf (t : Team) (lane : Nat) : Seat := (t.seats.find? fun x => x.lane == lane).getD ⟨lane, .absent, false, 0, []⟩

/-- PHASE of a SOLVE section and the elements written back. -/
def Solve.savePhase (v : Solve) : Nat × Nat :=
  match v.phase with
  | .idle => (0, 0)
  | .copying | .evaluating 0 | .suspended _ 0 => (1, 0)
  | .evaluating (n + 1) | .suspended _ (n + 1) => (2, n)
  | .decided true => (2, carriedCount v.tiles)
  | .decided false => (1, 0)

/-- The flags of a write-back in hand, which the SOLVE section does not hold (R465): they stand in %asf of the block's teams as saved, so
that the restored launch ends with the same (R462; DESIGN CHOICE, notes/assumptions/36). -/
def Solve.savedFlags (v : Solve) : BitVec 7 := if v.savePhase.1 = 2 then v.flags else 0

/-- A TEAM body. -/
def teamBody (s : State) (l : Launch) (bs : List (Option Nat)) (v : Solve) (t : Team) : List Byte :=
  let n := t.seats.length
  let held := s.parkedBy t.parked
  let frags := t.frags.foldl (fun a f => placeFrag l t f a) []
  let copies := t.copy.ops.filter fun o => !o.done
  let tfl := (if held.isSome then 1 else 0) + (if t.saved.isSome then 2 else 0) + (if t.exited then 4 else 0)
    + (if t.inCap then 8 else 0)
  leBytes 2 n ++ leBytes 2 l.img.regs ++ leBytes 2 frags.length ++ leBytes 2 tfl
    ++ leBytes 4 (t.raise v.savedFlags).asf.toNat ++ leBytes 4 t.ate.toNat ++ leBytes 8 t.trapres.toNat ++ leBytes 8 t.qprog.toNat
    ++ leBytes 8 t.dqPos ++ leBytes 8 t.copy.nextBatch ++ leBytes 8 t.copy.timeline
    ++ leBytes 8 t.hearth.nextNum ++ leBytes 8 t.hearth.timeline ++ leBytes 4 copies.length
    ++ leBytes 4 t.hearth.ops.length ++ leBytes 48 0
    ++ t.shapes.flatMap (fun x => leBytes 64 x.toNat) ++ t.creg.flatMap (fun x => leBytes 8 x.toNat)
    ++ pad16 (t.seats.flatMap fun x => leBytes 2 x.lane)
    ++ pad16 ((match t.saved with
        | some m => m
        | none => List.replicate n 0).flatMap fun k => leBytes 2 k)
    ++ pad16 ((List.range n).flatMap fun k => leBytes 1 (t.seatOf k).stateCode)
    ++ pad16 ((List.range n).flatMap fun k => leBytes 2 ((t.seatOf k).preds.toNat / 2 * 2))
    ++ pad16 ((List.range l.img.regs).flatMap fun k => t.seats.flatMap fun x => leBytes 4 (x.rd k).toNat)
    ++ frags.flatMap (fragBytes s l t held) ++ copies.flatMap (copyBytes bs) ++ t.hearth.ops.flatMap (hearthBytes bs)
    ++ (match held with
        | some r => r.saved (s.ringSize l)
        | none => [])

/-! ### BLOCK, CLUSTER, PANTRY (R423) -/

/-- The store or atomic at which a Foyer context stands waits for room in the dirty log (R415). -/
def State.logHolds (s : State) (l : Launch) (b : Block) : Bool :=
  let f := b.foyer
  let full (va : DWord) (n : Nat) (k : AKind) : Bool :=
    match s.check (some b.runsOn.die) l.asid va n k with
    | .ok t => (s.commitTr (some b.runsOn.die) l.asid va k t).isNone
    | .error _ => false
  match s.codeAt l true f.pc with
  | some (.sst x) => full (f.rd x.b + x.ofs.signExtend 64) (sstBytes x.sz) .store
  | some (.satom x) => full (f.rd x.b) (atomSize x.w64) .atomic
  | _ => false

/-- A BLOCK body. -/
def blockBody (s : State) (l : Launch) (b : Block) : List Byte :=
  let f := b.foyer
  let held := s.parkedBy f.parked
  let ffl := (if held.isSome then 1 else 0) + (if f.sexit then 2 else 0) + (if f.stalled && s.logHolds l b then 4 else 0)
  let dq := (List.range 64).flatMap fun k =>
    let hit := (List.range b.dq.length).find? fun i => (b.dqFreed + i) % 64 == k
    leBytes 8 (match hit with
      | some i => (b.dq.getD i 0).toNat
      | none => 0)
  leBytes 1 b.place.core ++ leBytes 1 b.place.cluster ++ leBytes 1 b.place.die ++ leBytes 1 ffl
    ++ leBytes 1 b.teams.length ++ leBytes 11 0
    ++ leBytes 8 (if f.chain.isSome then f.chainPc else f.pc).toNat ++ leBytes 8 (b.dqFreed + b.dq.length)
    ++ f.s.flatMap (fun x => leBytes 8 x.toNat) ++ dq ++ barTable b.bars
    ++ leBytes 4 l.img.scra ++ leBytes 4 l.img.slice ++ leBytes 8 0
    ++ pad16 (b.scratch.bytes 0 l.img.scra) ++ pad16 (b.slices.bytes 0 l.img.sliceShare)
    ++ (match held with
        | some r => r.saved (s.ringSize l)
        | none => [])

/-- A CLUSTER body. -/
def clusterBody (l : Launch) (g : Group) : List Byte :=
  leBytes 1 l.img.clg ++ leBytes 15 0 ++ barTable g.bars ++ g.mem.bytes 0 (l.img.clg * l.img.cmem)

/-- A PANTRY body. -/
def pantryBody (l : Launch) (m : Memory) : List Byte := leBytes 8 l.pant ++ leBytes 8 0 ++ m.bytes 0 l.pant

/-! ### MERGE, BIND, MARKS, SOLVE (R425, R465) -/

/-- A MERGE body. -/
def mergeBody (t : Tile) : List Byte :=
  let bit (b : Bool) (n : Nat) : Nat := if b then n else 0
  leBytes 8 t.cva.toNat ++ leBytes 8 t.pa ++ leBytes 1 (t.anchor % 256).toNat ++ leBytes 1 t.w
    ++ leBytes 1 (bit t.mo 1 + bit t.ml 2) ++ leBytes 1 0 ++ leBytes 4 t.count ++ leBytes 8 0
    ++ t.cells.flatMap (fun c => leBytes 1 (bit c.nan 1 + bit c.pinf 2 + bit c.ninf 4 + bit c.mo 8))
    ++ t.cells.flatMap fun c => leBytes 16 (c.n % 2 ^ 128).toNat

/-- The bindings of a BIND section: x0 to x7, then the old ones that the launch's uses still hold. -/
def State.bindList (s : State) (l : Launch) : List (Option Nat) :=
  let now := (List.range 8).map fun k => (s.boundTo l.asid k).map Binding.id
  now ++ ((s.bindings.filter fun b => b.held.any (fun a => a.ofLaunch l.id) && !now.contains (some b.id)).map fun b => some b.id)

/-- A BIND entry. -/
def bindEntry (s : State) (i : Option Nat) : List Byte :=
  match i.bind fun i => s.bindings.find? fun b => b.id == i with
  | none => leBytes 64 0
  | some b => leBytes 1 1 ++ leBytes 1 b.ct.ew ++ leBytes 1 b.ct.cb ++ leBytes 1 0 ++ leBytes 2 b.ct.fid ++ leBytes 2 0
    ++ leBytes 8 b.ctVa.toNat ++ b.ct.hash.take 48

/-- A BIND body. -/
def bindBody (s : State) (bs : List (Option Nat)) : List Byte :=
  leBytes 4 bs.length ++ leBytes 12 0 ++ bs.flatMap (bindEntry s)

/-- A MARKS body: read and write marks of one granule and agent stand in one entry. -/
def marksBody (s : State) (l : Launch) : List Byte :=
  let mine := s.marks.filter fun m => m.agent.ofLaunch l.id
  let keys := (mine.map fun m => (m.va, m.agent)).eraseDups
  let has (k : Nat × AgentId) (w : Bool) : Bool := mine.any fun m => m.va == k.1 && m.agent == k.2 && m.write == w
  let entry (k : Nat × AgentId) : List Byte :=
    let p := k.2.parts
    leBytes 8 k.1 ++ leBytes 4 p.2.1 ++ leBytes 1 p.2.2 ++ leBytes 1 p.1
      ++ leBytes 1 ((if has k false then 1 else 0) + (if has k true then 2 else 0)) ++ leBytes 1 0
  leBytes 8 keys.length ++ leBytes 8 0 ++ keys.flatMap entry

/-- A SOLVE body. A decision to exit that has been taken and not released makes the evaluation start again: it recomputes
the same from unchanged inputs. -/
def solveBody (b : Block) : List Byte :=
  let v := b.solve
  let p := v.savePhase
  let again := v.phase == .decided false
  let on (w : SolveWait) : Nat := ((List.range b.teams.length).zip b.teams).foldl (fun n q =>
    if q.2.solve == w then n + 2 ^ q.1 else n) 0
  leBytes 4 v.thresh.toNat ++ leBytes 2 v.ceil.toNat ++ leBytes 1 v.depth.toNat ++ leBytes 1 v.state
    ++ leBytes 4 v.hbase.toNat ++ leBytes 4 (if again then v.iter - 1 else v.iter) ++ leBytes 8 v.timeline
    ++ leBytes 1 v.tiles.length ++ leBytes 1 p.1 ++ leBytes 1 v.cols ++ leBytes 1 (v.repeats + 128 * v.exits)
    ++ leBytes 4 v.norm.toNat ++ leBytes 8 p.2
    ++ (List.range 8).flatMap (fun i => leBytes 4 (v.gam.getD i 0).toNat)
    ++ leBytes 1 (on .atBegin + on .atEnd) ++ leBytes 1 (if on .atEnd = 0 then 0 else 1) ++ leBytes 6 0
    ++ (List.range 4).flatMap fun i => leBytes 64 (v.tiles.getD i 0).toNat

/-! ### The whole image (R421) -/

/-- Blocks in ascending order. -/
def placeBlock (b : Block) : List Block → List Block
  | [] => [b]
  | c :: cs => if b.id < c.id then b :: c :: cs else c :: placeBlock b cs

/-- The die by which an image names the one where a launch holds Pantry: the %die of its blocks there, which a restore onto another die
leaves as it was (R21, R428). -/
def Launch.dieName (l : Launch) (d : Nat) : Nat := ((l.blocks.find? fun b => b.runsOn.die == d).map fun b => b.place.die).getD d

/-- The sections of a launch, END included, with their number. -/
def imageSections (s : State) (l : Launch) : List (List Byte) :=
  let bs := s.bindList l
  let blocks := l.blocks.foldl (fun a b => placeBlock b a) []
  [sectionBytes 6 0 0 (bindBody s bs)]
    ++ l.groups.map (fun g => sectionBytes 3 l.img.clg g.id (clusterBody l g))
    ++ (if l.pant = 0 then [] else l.pantry.map fun p => sectionBytes 4 (l.dieName p.1) 0 (pantryBody l p.2))
    ++ blocks.flatMap (fun b =>
        sectionBytes 1 0 b.id (blockBody s l b)
          :: ((List.range b.teams.length).zip b.teams).map fun q => sectionBytes 2 q.1 b.id (teamBody s l bs b.solve q.2))
    ++ ((s.tiles.filter fun t => t.owner.ofLaunch l.id).map fun t => sectionBytes 5 t.w 0 (mergeBody t))
    ++ [sectionBytes 7 0 0 (marksBody s l)]
    ++ blocks.map (fun b => sectionBytes 8 b.place.cluster b.id (solveBody b))
    ++ [sectionBytes 0xFFFF 0 0 []]

/-- The image of a launch. -/
def imageBytes (s : State) (l : Launch) (evict : Bool) : List Byte :=
  let secs := imageSections s l
  let body := secs.flatten
  let env := match s.func l.fn with
    | some f => f.fenv
    | none => []
  let use (d : Nat) : Nat := (List.range 36).foldl (fun n c =>
    if l.blocks.any fun b => b.place.die == d && b.place.cluster == c then n + 2 ^ c else n) 0
  let dies := (List.range 4).foldl (fun n d =>
    if l.blocks.any (fun b => b.place.die == d) || (l.pant != 0 && l.pantry.any fun p => l.dieName p.1 == d) then n + 2 ^ d else n) 0
  leBytes 4 0x58544341 ++ leBytes 2 1 ++ leBytes 1 1 ++ leBytes 1 ((if evict then 1 else 0) + (if l.dstop then 2 else 0))
    ++ leBytes 8 (256 + body.length) ++ leBytes 4 l.id ++ leBytes 4 l.nextB ++ leBytes 8 (l.saves + 1)
    ++ l.lpkt.take 64 ++ (List.range 4).flatMap (fun i => leBytes 8 (env.getD i 0).toNat)
    ++ (List.range 4).flatMap (fun d => leBytes 8 (use d)) ++ leBytes 1 dies ++ leBytes 15 0
    ++ leBytes 4 secs.length ++ leBytes 12 0 ++ sha384 body ++ leBytes 16 0 ++ body

end Sys2Proof.Machine
end

