-- ==== Sys2Proof/Machine/Restore.lean ====
section
/-!
DEFINITION. Machine/Restore.lean: reading a context image and a restore map (R421 to R427), and the parts of a launch that a
restore sets up (R420, R428).
-/
namespace Sys2Proof.Machine

/-! ### Reading physical memory -/

/-- A range of physical memory that one region backs. -/
def spanBacked (pa n : Nat) : Bool :=
  n = 0 || (isHbm pa && isHbm (pa + n - 1)) || (isHostMem pa && isHostMem (pa + n - 1) && pa / 2 ^ 50 == (pa + n - 1) / 2 ^ 50)

/-- Bytes of physical memory. -/
def State.readPhys (s : State) (pa n : Nat) : Option (List Byte) :=
  if spanBacked pa n then some (s.mem.bytes pa n) else none

/-! ### Sections (R422) -/

/-- A section as parsed. -/
structure Sec where
  ty : Nat
  sub : Nat
  id : Nat
  body : List Byte
  deriving DecidableEq, Repr

/-- The sections up to END, with which the bytes must end. -/
def parseSecs : Nat → List Byte → Option (List Sec)
  | 0, _ => none
  | n + 1, bs =>
    let len := fieldAt bs 8 8
    if bs.length < 16 || len < 16 || len % 16 != 0 || bs.length < len then none
    else
      let x : Sec := ⟨fieldAt bs 0 2, fieldAt bs 2 2, fieldAt bs 4 4, (bs.take len).drop 16⟩
      if x.ty == 0xFFFF then (if bs.length == 16 then some [x] else none)
      else (parseSecs n (bs.drop len)).map fun xs => x :: xs

/-- The place of a TYPE in the order of R422. -/
def secRank (ty : Nat) : Option Nat :=
  match ty with
  | 6 => some 0
  | 3 => some 1
  | 4 => some 2
  | 1 | 2 => some 3
  | 5 => some 4
  | 7 => some 5
  | 8 => some 6
  | 0xFFFF => some 7
  | _ => none

/-- Ranks do not fall. -/
def ranksRise : List (Option Nat) → Bool
  | some a :: some b :: rest => a ≤ b && ranksRise (some b :: rest)
  | [some _] => true
  | _ => false

/-- BLOCK sections ascend, and each is followed by its TEAM sections in order. -/
def blocksOk : List Sec → Option (Nat × Nat × Nat) → Bool
  | [], cur => cur.all fun c => c.2.1 == c.2.2
  | x :: xs, cur =>
    if x.ty == 1 then
      (match cur with
        | some (b, k, n) => k == n && b < x.id
        | none => true) && blocksOk xs (some (x.id, 0, fieldAt x.body 4 1))
    else
      match cur with
      | some (b, k, n) => x.id == b && x.sub == k && k < n && blocksOk xs (some (b, k + 1, n))
      | none => false

/-! ### Reserved fields (R421 to R425, R465) -/

/-- Bytes of a range are 0. -/
def zeroAt (bs : List Byte) (off n : Nat) : Bool := zeros ((bs.drop off).take n)

/-- The offsets of a TEAM body's variable parts: seat map, its home map, lane states, predicates, registers, fragments,
copies, Hearth entries, record, end. -/
def teamOffsets (b : List Byte) : List Nat :=
  let f := fieldAt b
  let n := f 0 2
  let o1 := 0x500
  let o2 := o1 + up16 (2 * n)
  let o3 := o2 + up16 (2 * n)
  let o4 := o3 + up16 n
  let o5 := o4 + up16 (2 * n)
  let o6 := o5 + up16 (4 * f 2 2 * n)
  let o7 := o6 + 144 * f 4 2
  let o8 := o7 + 192 * f 0x48 4
  let o9 := o8 + 256 * f 0x4C 4
  [o1, o2, o3, o4, o5, o6, o7, o8, o9, o9 + (if f 6 2 % 2 = 1 then 264 else 0)]

/-- One part of a TEAM body. -/
def teamPart (b : List Byte) (k : Nat) : List Byte := b.drop ((teamOffsets b).getD k 0)

/-- A section's length and reserved fields are as R423 to R425 and R465 have them. -/
def secOk (x : Sec) : Bool :=
  let b := x.body
  let f := fieldAt b
  match x.ty with
  | 6 => x.sub == 0 && x.id == 0 && 8 ≤ f 0 4 && b.length == 16 + 64 * f 0 4 && zeroAt b 4 12
      && (pieces 64 (f 0 4) (b.drop 16)).all fun e => fieldAt e 0 1 ≤ 1 && zeroAt e 3 1 && zeroAt e 6 2
  | 3 => x.sub == f 0 1 && zeroAt b 1 15
  | 4 => x.id == 0 && b.length == 16 + up16 (f 0 8) && zeroAt b 8 8
  | 1 => x.sub == 0 && f 3 1 < 8 && zeroAt b 5 11 && zeroAt b 0xC28 8
  | 2 => b.length == up16 ((teamOffsets b).getD 9 0) && f 6 2 < 16 && zeroAt b 0x50 48
      && (pieces 192 (f 0x48 4) (teamPart b 6)).all (fun e => fieldAt e 0x0E 1 ≤ 1 && zeroAt e 0x31 15)
      && (pieces 256 (f 0x4C 4) (teamPart b 7)).all fun e => fieldAt e 8 1 ≤ 2 && zeroAt e 0x0C 4 && zeroAt e 0x20 32
  | 5 => x.id == 0 && x.sub == f 0x11 1 && b.length == 0x20 + 272 * x.sub && f 0x12 1 < 4 && zeroAt b 0x13 1 && zeroAt b 0x18 8
  | 7 => x.sub == 0 && x.id == 0 && b.length == 16 + 16 * f 0 8 && zeroAt b 8 8
      && (pieces 16 (f 0 8) (b.drop 16)).all fun e => fieldAt e 14 1 < 4 && zeroAt e 15 1
  | 8 => b.length == 0x150 && f 0x18 1 ≤ 4 && f 0x19 1 ≤ 2 && zeroAt b 0x4A 6
  | _ => x.sub == 0 && x.id == 0 && b.isEmpty

/-- An image that passes the checks of status 3, as its sections. -/
def parseImage (img : List Byte) : Option (List Sec) :=
  let f := fieldAt img
  match parseSecs (img.length / 16) (img.drop 256) with
  | none => none
  | some xs =>
    let blocks := xs.filter fun x => x.ty == 1
    let solves := xs.filter fun x => x.ty == 8
    if f 0 4 == 0x58544341 && f 4 2 == 1 && f 7 1 < 4 && f 8 8 == img.length && f 0xB0 4 == xs.length
        && zeroAt img 0xA1 15 && zeroAt img 0xB4 12 && zeroAt img 0xF0 16
        && sha384 (img.drop 256) == (img.drop 0xC0).take 48
        && ranksRise (xs.map fun x => secRank x.ty) && blocksOk (xs.filter fun x => x.ty == 1 || x.ty == 2) none
        && (xs.filter fun x => x.ty == 6).length == 1 && (xs.filter fun x => x.ty == 7).length == 1
        && solves.map Sec.id == blocks.map Sec.id && xs.all secOk
    then some xs else none

/-! ### The restore map (R426, R427) -/

/-- The destination of a source die. -/
def mapDie (map : List Byte) (d : Nat) : Option Nat :=
  let e := fieldAt map d 1
  if e / 128 = 1 then some (e % 4) else none

/-- The entry of a cluster. -/
def mapEntry (map : List Byte) (d c : Nat) : Nat := fieldAt map (16 + 2 * (36 * d + c)) 2

/-- The reserved fields of a map are 0: its bytes 4 to 15, and bits [7:6] of each cluster's entry. -/
def mapReserved (map : List Byte) : Bool :=
  zeroAt map 4 12 && (List.range 144).all fun k => fieldAt map (16 + 2 * k) 1 < 64

/-- The unit on which a source unit lands. -/
def mapUnit (map : List Byte) (u : Unit3) : Option Unit3 :=
  (mapDie map u.die).map fun d =>
    let e := mapEntry map u.die u.cluster
    ⟨d, e % 64, e / 2 ^ (8 + 2 * u.core) % 4⟩

/-- The clusters of a die that an image uses. -/
def usedClusters (img : List Byte) (d : Nat) : List Nat := (List.range 36).filter (fieldAt img (0x80 + 8 * d) 8).testBit

/-- The dies that an image uses. -/
def usedDies (img : List Byte) : List Nat :=
  (List.range 4).filter fun d => (fieldAt img 0xA0 1).testBit d || !(usedClusters img d).isEmpty

/-- The map sends every used unit to a unit that the envelope allows (status 5). -/
def mapOk (units : Nat × Nat) (img map : List Byte) : Bool :=
  let ds := (usedDies img).map (mapDie map)
  ds.all (fun d => d.any fun d => d < units.1) && ds.eraseDups.length == ds.length
    && (usedDies img).all fun d => (usedClusters img d).all fun c =>
      let e := mapEntry map d c
      e % 64 < units.2 && ((List.range 4).map fun k => e / 2 ^ (8 + 2 * k) % 4).eraseDups.length == 4

/-! ### Parts of a launch (R423 to R425, R428, R465) -/

/-- Barriers of a table, those that are not 0. -/
def parseBars (bs : List Byte) : List (Nat × Bar) :=
  (List.range 256).filterMap fun k =>
    let v := fieldAt bs (8 * k) 8
    if v = 0 then none
    else some (k, ⟨BitVec.ofNat 8 (v / 2 ^ 40), BitVec.ofNat 6 (v / 2 ^ 33), v / 2 ^ 32 % 2 == 1, BitVec.ofNat 32 v⟩)

/-- A memory from its bytes. -/
def memOf (bs : List Byte) : Memory := Memory.put [] 0 bs

/-- A 512-bit register. -/
def shapeAt (bs : List Byte) (off : Nat) : BitVec 512 := BitVec.ofNat 512 (fieldAt bs off 64)

/-- A double word. -/
def dwordAt (bs : List Byte) (off : Nat) : DWord := BitVec.ofNat 64 (fieldAt bs off 8)

/-- An agent that an image does not name: free. -/
def freeAgent (ctr : Nat) : AgentId :=
  let n (k : Nat) : Nat := Config.freeNat (ctr + k)
  match n 0 % 9 with
  | 0 => .team (n 1) (n 2) (n 3 % 8)
  | 1 => .foyer (n 1) (n 2)
  | 2 => .hearth (n 1) (n 2) (n 3 % 8)
  | 3 => .copy (n 1) (n 2) (n 3 % 8)
  | 4 => .solve (n 1) (n 2)
  | 5 => .bulk (n 1)
  | 6 => .format (n 1 % 64)
  | 7 => .porch (n 1)
  | _ => .prologue (n 1)

/-- The suspension of an entry that is saved suspended; what the entry does not hold is free. -/
def parseSusp (ctr : Nat) (on : Bool) (code : Nat) (addr : DWord) (engine : List Nat) : Option Susp :=
  if !on then none
  else
    let c : Cause := BitVec.ofNat 8 code
    if code = 0x60 then some ⟨c, BitVec.ofNat 8 (1 + Config.freeNat ctr % 3), addr, some (freeAgent (ctr + 1))⟩
    else if engine.contains code then some ⟨c, 0, addr, none⟩
    else some ⟨0x87#8, c, addr, none⟩

/-- The binding of a BREF. -/
def parseBref (ids : List (Option Nat)) (k : Nat) : Option Nat := ids.getD k none

/-- A copy from its entry, under a name of the model's; its earlier flags are free. -/
def parseCopy (ctr key : Nat) (ids : List (Option Nat)) (e : List Byte) : CopyOp :=
  let x := fieldAt e 0x0D 1
  { key := key, batch := fieldAt e 0 8, pos := fieldAt e 8 4, form := fieldAt e 0x0C 1, xbits := x
    src := shapeAt e 0x40, dst := shapeAt e 0x80
    bo := if x / 2 % 2 = 1 then some (dwordAt e 0x18) else none, pc := dwordAt e 0x20, progress := fieldAt e 0x10 8
    susp := parseSusp ctr (fieldAt e 0x0E 1 == 1) (fieldAt e 0x0F 1) (dwordAt e 0x28) [0x82, 0x83]
    done := false, flags := if fieldAt e 0x10 8 = 0 then 0 else BitVec.ofNat 7 (Config.freeNat (ctr + 5)) &&& 0x1F#7
    bind := parseBref ids (fieldAt e 0x30 1) }

/-- What the word of a Hearth entry decides: its kind, first register and passes, with the registers of a pass. -/
def hearthWord (w : Nat) (ct : SlotCt) : HKind × Nat × Nat × Nat :=
  let rpp (x : MmaOp) : Nat := ((passShape x.fm ct x.sp.sparse).map Prod.snd).getD 0
  match decode false w 0 with
  | .ok (.mma x) => (.mma, x.a.val, rpp x, x.np.val + 1)
  | .ok (.mdist x) => (.mdist, x.a.val, rpp x, x.np.val + 1)
  | .ok (.mtopk x) => (.mtopk, x.d.val, 1, x.k.val + 1)
  | .ok (.mclose _) => (.mclose, 0, 0, 0)
  | _ => (.mopen, 0, 0, 0)

/-- A Hearth operation from its entry. The elected lane's sweep and the index base are not held in it: they are free. -/
def parseHearth (s : State) (ctr seats : Nat) (ids : List (Option Nat)) (e : List Byte) : HOp :=
  let i := parseBref ids (fieldAt e 0x0A 1)
  let ct := (i.bind fun i => s.bindings.find? fun b => b.id == i).map Binding.ct
  let k := hearthWord (fieldAt e 0x10 8) ct
  { num := fieldAt e 0 8, kind := k.1, word := dwordAt e 0x10, pc := dwordAt e 0x18
    sweep := Config.freeNat ctr % (seats / 32), cSh := shapeAt e 0x40, bSh := shapeAt e 0x80, aSh := shapeAt e 0xC0
    base := BitVec.ofNat 32 (Config.freeNat (ctr + 1)), reg := k.2.1, rpp := k.2.2.1, np := k.2.2.2, passes := fieldAt e 9 1
    waiting := k.1.quad, granted := false, age := s.tick
    susp := parseSusp (ctr + 3) (fieldAt e 8 1 == 1) (fieldAt e 0x0B 1) (BitVec.ofNat 64 (Config.freeNat (ctr + 2))) [0x81, 0x82, 0x83]
    bind := i }

/-- The lane at a seat, its state and predicates by its number, its registers by the seat. -/
def parseSeat (b : List Byte) (n regs i : Nat) : Seat :=
  let lane := fieldAt (teamPart b 0) (2 * i) 2
  let st := fieldAt (teamPart b 2) lane 1
  { lane := lane
    st := match st % 128 with
      | 0 => .absent
      | 1 => .active
      | 2 => .parked
      | _ => .exited
    helper := st / 128 == 1
    preds := BitVec.ofNat 16 (fieldAt (teamPart b 3) (2 * lane) 2)
    vregs := (List.range regs).map fun k => BitVec.ofNat 32 (fieldAt (teamPart b 4) (4 * (k * n + i)) 4) }

/-- A fragment from its record: ready, its count 0 (R151). -/
def parseFrag (e : List Byte) : Frag := Frag.at (dwordAt e 0) (BitVec.ofNat 1024 (leNat (e.drop 16)))

/-- The wait of a team that stood at a barrier with its arrival made: the fragment is recorded stalled at a BAR whose barrier
holds the team's arrival (R245). -/
def parseBar (s : State) (asid : Nat) (g : Option Group) (bars : List (Nat × Bar)) (own clu : Nat) (frags : List (List Byte)) :
    Option BarWait :=
  match frags with
  | [e] =>
    if fieldAt e 8 1 % 16 != 1 then none
    else
      match s.fetchWord none asid (dwordAt e 0) with
      | .error _ => none
      | .ok w =>
        match decode false w 0 with
        | .ok (.bar x) =>
          let b := if x.cl then (match g with
              | some g => barGet g.bars x.bn.val
              | none => Bar.zero)
            else barGet bars x.bn.val
          if b.arr.getLsbD (if x.cl then clu else own) then some ⟨x.bn.val, x.cl, false⟩ else none
        | _ => none
  | _ => none

/-- What a team waits for in its block's solve region (R465). -/
def parseWait (solve : List Byte) (t : Nat) : SolveWait :=
  if (fieldAt solve 0x48 1).testBit t then (if fieldAt solve 0x49 1 = 1 then .atEnd else .atBegin) else .none

/-- A tile instruction (R291). -/
def isTile : Instr → Bool
  | .qscan _ | .qrot _ | .qsmooth _ | .qcvt _ => true
  | _ => false

/-- The fragments of a team whose tile instruction stopped between steps: that at the instruction goes on before any other issues
(R293). -/
def holdTile (s : State) (l : Launch) (qprog : DWord) (fs : List Frag) : List Frag :=
  if qprog == 0 then fs
  else match fs.findIdx? fun f => !f.parked && (s.codeAt l false f.pc).any isTile with
    | some k => fs.modify k fun f => { f with holds := true }
    | none => fs

/-- The first free value of a team of an image, and the first name of its copies. -/
def teamBase (base blk t : Nat) : Nat := base + (8 * blk + t) * 2 ^ 16

/-- Flags that an image does not hold: of operations complete and not yet delivered, free. -/
def lostFlags (ctr timeline : Nat) (any_ : Bool) (mask : BitVec 7) : List (Nat × BitVec 7) :=
  if any_ then [(timeline, BitVec.ofNat 7 (Config.freeNat ctr) &&& mask)] else []

/-- A team from its body. -/
def parseTeam (s : State) (l : Launch) (ids : List (Option Nat)) (g : Option Group) (bars : List (Nat × Bar)) (solve : List Byte)
    (blk t : Nat) (held : Option Nat) (b : List Byte) : Team :=
  let f := fieldAt b
  let n := f 0 2
  let frags := pieces 144 (f 4 2) (teamPart b 5)
  let ctr := teamBase (s.freeCtr + 2 ^ 52) blk t
  let key := teamBase (s.nextKey + 16 * (blk + 1)) blk t
  let copies := pieces 192 (f 0x48 4) (teamPart b 6)
  let hearths := pieces 256 (f 0x4C 4) (teamPart b 7)
  { seats := (List.range n).map (parseSeat b n (f 2 2))
    frags := holdTile s l (dwordAt b 0x18) (settle l (frags.map parseFrag))
    asf := BitVec.ofNat 32 (f 8 4), ate := BitVec.ofNat 32 (f 0x0C 4), trapres := dwordAt b 0x10, qprog := dwordAt b 0x18
    dqPos := f 0x20 8
    shapes := (List.range 16).map fun k => shapeAt b (0x80 + 64 * k)
    creg := (List.range 16).map fun k => dwordAt b (0x480 + 8 * k)
    inCap := (f 6 2).testBit 3, adopt := none
    saved := if (f 6 2).testBit 1 then some ((List.range n).map fun k => fieldAt (teamPart b 1) (2 * k) 2) else none
    parked := held, stop := false, stepping := false, stepDone := false, pend := [], scratch := 0, sb := 0
    bar := parseBar s l.asid g bars t (8 * (blk % max l.img.clg 1) + t) frags
    solve := parseWait solve t
    copy := ⟨((List.range copies.length).zip copies).map fun p => parseCopy (ctr + 2 + 6 * p.1) (key + p.1) ids p.2, f 0x28 8, f 0x30 8,
      lostFlags ctr (f 0x30 8) (1 < f 0x28 8 || !copies.isEmpty) 0x1F⟩
    hearth := ⟨((List.range hearths.length).zip hearths).map fun p => parseHearth s (ctr + 2 ^ 15 + 8 * p.1) n ids p.2, f 0x38 8, f 0x40 8,
      lostFlags (ctr + 1) (f 0x40 8) (f 0x40 8 != 0) 0x60⟩ }

/-- A solve context from its section; the flags of a write-back in hand stand in %asf as saved. -/
def parseSolve (b : List Byte) : Solve :=
  let f := fieldAt b
  { thresh := BitVec.ofNat 32 (f 0 4), ceil := BitVec.ofNat 16 (f 4 2), depth := BitVec.ofNat 4 (f 6 1)
    hbase := BitVec.ofNat 32 (f 8 4), state := f 7 1, iter := f 0x0C 4, norm := BitVec.ofNat 32 (f 0x1C 4), timeline := f 0x10 8
    tiles := (List.range (f 0x18 1)).map fun k => shapeAt b (0x50 + 64 * k)
    repeats := f 0x1B 1 % 128, exits := f 0x1B 1 / 128, cols := f 0x1A 1
    gam := (List.range (f 0x1A 1)).map fun k => BitVec.ofNat 32 (f (0x28 + 4 * k) 4)
    flags := 0
    phase := match f 0x19 1 with
      | 0 => .idle
      | 1 => if f 0x49 1 = 1 then .evaluating 0 else .copying
      | _ => .evaluating (f 0x20 8 + 1) }

/-- A Foyer context from its block's body. -/
def parseFoyer (b : List Byte) (held : Option Nat) : Foyer where
  pc := dwordAt b 0x10
  s := (List.range 64).map fun k => dwordAt b (0x20 + 8 * k)
  sexit := (fieldAt b 3 1).testBit 1
  parked := held
  stop := false
  stepping := false
  stepDone := false
  stalled := false
  lift := .none
  since := 0
  skip := none
  chain := none
  chainPc := dwordAt b 0x10
  pend := []
  sb := 0

/-- The lowest push that some team of a block has not read (R159). -/
def firstKept (teams : List Team) (pushes : Nat) : Nat :=
  (teams.filter fun t => !t.exited).foldl (fun n t => min n t.dqPos) pushes

/-! ### Pending records (R391, R423, R424) -/

/-- How a saved record's agent continues. -/
def recordTo (l : Launch) (bs : List Byte) : ResumeTo :=
  let c : Cause := BitVec.ofNat 8 (fieldAt bs 2 1)
  let pc := dwordAt bs 8
  if fieldAt bs 0 1 == 1 then .syscall (l.nextPc pc)
  else
    match fieldAt bs 0x54 1 with
    | 1 => .copyOp (fieldAt bs 0x48 8) (fieldAt bs 0x50 4)
    | 2 => .hearthOp (fieldAt bs 0x48 8)
    | _ =>
      let next := l.nextPc pc
      if c == 0x87#8 then .reissue
      else resumeOf c (if isLiteralOp (Fields.ofWord (fieldAt bs 0x10 8)).op then l.nextPc next else next)

/-- A pending record, raised again under its ring index; pc and low name the fragment that trapped. -/
def parseRecord (l : Launch) (id : Nat) (a : AgentId) (pc : DWord) (low : Nat) (bs : List Byte) : Record where
  id := id
  launch := l.id
  agent := a
  kind := fieldAt bs 0 1
  cause := BitVec.ofNat 8 (fieldAt bs 2 1)
  len := fieldAt bs 3 1
  body := leBytes 8 0 ++ (bs.take (64 * fieldAt bs 3 1)).drop 8
  pc := pc
  low := low
  onResume := recordTo l bs
  ix := some (fieldAt bs 256 8)

/-- The fragment of a restored team that a record names by its lowest seat. -/
def recordFrag (t : Team) (bs : List Byte) : DWord × Nat :=
  let hit (f : Frag) : Bool :=
    if fieldAt bs 0 1 == 1 then f.pc == dwordAt bs 8 else lowSeat t f.mask == fieldAt bs 0x32 2
  match (t.frags.find? hit).or t.frags.head? with
  | some f => (f.pc, lowSeat t f.mask)
  | none => (dwordAt bs 8, 0)

end Sys2Proof.Machine
end

