-- ==== Sys2Proof/Machine/Contexts.lean ====
section
/-!
DEFINITION. Machine/Contexts.lean: pre-emption and migration (R416 to R420, R426 to R428), TLB invalidation (R413) and the
dirty log's registers (R414, R415).
-/
namespace Sys2Proof.Machine

/-! ### CTXCMD (R416, R419) -/

/-- CTXSTAT once a command has ended. -/
def State.ctxDone (s : State) (status detail len : Nat) : State :=
  { s with ctxstat := BitVec.ofNat 64 (len * 2 ^ 32 + detail % 256 * 2 ^ 16 + status * 2 ^ 8), ctxcmd := none }

/-- A command of the physical function: ignored while another is in progress. -/
def onCtx (op arg : Nat) (s : State) (k : State → Out) : Out :=
  onRegister 0 s fun _ =>
    if s.ctxcmd == none || s.ctxcmd == some (op, arg) then k s else .next s

/-- A command that waits: BUSY reads 1. -/
def State.ctxWait (s : State) (op arg : Nat) : State := { s with ctxcmd := some (op, arg) }

/-! ### Stopping (R417) -/

/-- A team that stops: its results are written, an open chain goes back to its head, its reservation entries are freed, and the store of a
capsule step that has committed does not perform (R417, R438). -/
def Team.stopped (l : Launch) (t : Team) : Team :=
  let t := t.drain
  let t := if t.parked.isSome then t
    else (List.range t.frags.length).foldl (fun t _ => match t.frags.findIdx? fun f => f.chain.isSome with
      | some i => Team.rewind l t i
      | none => t) t
  { t with capDue := none, hearth := { t.hearth with ops := t.hearth.ops.map fun o => { o with granted := false, waiting := false } } }

/-- A Foyer context that stops. -/
def Foyer.stopped (f : Foyer) : Foyer :=
  let f := f.drain
  if f.parked.isNone && f.chain.isSome then { f with pc := f.chainPc, chain := none } else f

/-- Every agent of a launch stops, and the device releases at .sys on behalf of each: on every core that has held one (R417, R472). -/
def State.stopLaunch (s : State) (ln : Launch) : State :=
  let s := if ln.st == .stopped then s else s.descheduleLaunch ln.id
  let s := s.updLaunch ln.id fun l => { l with st := .stopped, blocks := l.blocks.map fun b =>
    { b with foyer := b.foyer.stopped, teams := b.teams.map (Team.stopped l) } }
  ln.cores.foldl (fun s u => s.drainL1 u) { s with peerOut := s.peerOut.filter fun p => !p.agent.ofLaunch ln.id }

/-- Write bytes to physical memory; where nothing backs them they are lost. -/
def State.putPhys (s : State) (pa : Nat) (bs : List Byte) : State :=
  if spanBacked pa bs.length then { s with mem := s.mem.put pa bs } else s

/-- An evicted launch gives back its cores, Pantry and cells; the records of its parked agents stand in the image. -/
def State.giveBack (s : State) (l : Nat) : State :=
  let s := s.updLaunch l fun x => { x with st := .evicted, blocks := [], groups := [], pantry := [], cores := [] }
  { s with
    tiles := upd (fun t => t.owner.ofLaunch l) (fun t => { t with spilled := true }) s.tiles
    records := s.records.filter fun r => r.launch != l || r.kind == 3 }

/-- STOP and EVICT: a trap raised before the stop is recorded first; the image is written where it fits. -/
def ctxSave (op l : Nat) (evict : Bool) (s : State) : Out :=
  onCtx op l s fun s =>
    match s.launch l with
    | none => .next (s.ctxDone 9 0 0)
    | some ln =>
      if ln.st == .evicted || ln.st == .ended then .next (s.ctxDone 9 0 0)
      else
        let s := s.stopLaunch ln
        if s.records.any fun r => r.launch == l && r.ix.isNone then .next (s.ctxWait op l)
        else
          match s.launch l with
          | none => .next s
          | some ln =>
            let img := imageBytes s ln evict
            if s.ctxlen.toNat < img.length then .next (s.ctxDone 2 0 img.length)
            else
              let s := (s.putPhys s.ctxaddr.toNat img).updLaunch l fun x => { x with saves := x.saves + 1 }
              .next ((if evict then s.giveBack l else s).ctxDone 0 0 img.length)

/-- CTX_STOP. -/
def execCtxStop (l : Nat) (s : State) : Out := ctxSave 1 l false s
/-- CTX_EVICT. -/
def execCtxEvict (l : Nat) (s : State) : Out := ctxSave 2 l true s

/-- CTX_RESUME: a stopped launch goes on after an acquire at .sys; its engine operations post new entries. -/
def execCtxResume (l : Nat) (s : State) : Out :=
  onCtx 3 l s fun s =>
    match s.launch l with
    | none => .next (s.ctxDone 9 0 0)
    | some ln =>
      if ln.st != .stopped then .next (s.ctxDone 9 0 0)
      else
        let s := ln.blocks.foldl (fun s b => s.acquire b.runsOn .sys) s
        let again (t : Team) : Team := { t with hearth := { t.hearth with ops := t.hearth.ops.map fun o =>
          if o.kind.quad then { o with waiting := true, age := s.tick } else o } }
        let s := s.updLaunch l fun x =>
          { x with st := if x.nextB = 0 && x.pantry.isEmpty then .waiting else .running
                   blocks := x.blocks.map fun b => { b with teams := b.teams.map again } }
        .next (s.wake.ctxDone 0 0 0)

/-- CTX_DETACH. -/
def execCtxDetach (l : Nat) (s : State) : Out :=
  onCtx 4 l s fun s =>
    match s.launch l with
    | none => .next (s.ctxDone 9 0 0)
    | some ln => .next (if ln.st == .evicted then (s.detach l).ctxDone 0 0 0 else s.ctxDone 9 0 0)

/-! ### QUIESCE (R418) -/

/-- A consumed packet that QUIESCE rolls back, whether or not it has halted its queue. -/
def Pkt.rolls (p : Pkt) : Bool :=
  p.parent.isNone && p.st != .held && (pkBits p.bytes 0 8 == 4 || pkBits p.bytes 0 8 == 6)

/-- What QUIESCE waits for in a function's queues: graphs, indirect launches, and every consumed packet that is neither rolled
back nor a LAUNCH. -/
def State.busyPkt (s : State) (fn : Nat) (p : Pkt) : Bool :=
  match s.queue p.queue with
  | none => false
  | some q => q.fn == fn && !q.bulk && p.parent.isNone && p.st != .held && !p.rolls && pkBits p.bytes 0 8 != 1

/-- Roll back a queue's consumed FENCE and TIMELINE packets: the RIDX word is set to the lowest index. -/
def State.rollBack (s : State) (q : Queue) : State :=
  match s.pkts.filter fun p => p.queue == q.id && p.rolls with
  | [] => s
  | p :: ps =>
    let ix := ps.foldl (fun n x => min n x.ix) p.ix
    let s := match s.devPut (.porch p.key) q.asid q.ridxa (leBytes 8 ix) .syncWrite with
      | .ok s _ => s
      | _ => s
    let s := (p :: ps).foldl (fun s x => s.completePkt x.key) s
    s.updQueue q.id fun x => { x with ridx := ix }

/-- CTX_QUIESCE. -/
def execCtxQuiesce (fn : Nat) (s : State) : Out :=
  onCtx 6 fn s fun s =>
    let mine := s.queues.filter fun q => q.fn == fn
    let s : State := mine.foldl (fun s q => if q.halted then s else s.haltQueue q.id 7 0) s
    let s : State := { s with pkts := s.pkts.map fun p =>
      if p.st == .started && p.aux.isEmpty && mine.any (fun q => q.bulk && q.id == p.queue) then { p with st := .waiting }
      else p }
    let request := match s.fmHead fn with
      | some r => r.phase != .queued
      | none => false
    if request || s.pkts.any (s.busyPkt fn) then .next (s.ctxWait 6 fn)
    else .next ((mine.foldl (fun s q => s.rollBack q) s).ctxDone 0 0 0)

/-! ### RESTORE (R420, R426 to R428) -/

/-- The cause of a container that cannot be read. -/
def containerCause (s : State) (fn asid : Nat) (ca : DWord) : Option Cause :=
  match s.devRead (.format fn) asid ca .plainLoad 128 128 with
  | .fail _ w => some w.code
  | .wait => none
  | .ok s h =>
    let n := fieldAt h 0x2C 4 - 128
    if ca.toNat % 8 != 0 || !headerOk h then none
    else match s.devRead (.format fn) asid (ca + 128) .plainLoad n n with
      | .fail _ w => some w.code
      | _ => none

/-- The bound entries of a BIND section with their index. -/
def boundEntries (b : List Byte) : List (Nat × List Byte) :=
  let es := pieces 64 (fieldAt b 0 4) (b.drop 16)
  ((List.range es.length).zip es).filter fun p => fieldAt p.2 0 1 == 1

/-- The first access of status 8 that fails in the new address space: containers, CVA and marks. -/
def accessCause (s : State) (fn asid : Nat) (xs : List Sec) : Option Cause :=
  let one (va size : Nat) : Option Cause := match s.check none asid (BitVec.ofNat 64 va) size .load with
    | .error e => some e.cause
    | .ok _ => none
  xs.findSome? fun x =>
    match x.ty with
    | 6 => (boundEntries x.body).findSome? fun p => containerCause s fn asid (dwordAt p.2 8)
    | 5 => one (fieldAt x.body 0 8) 4
    | 7 => (pieces 16 (fieldAt x.body 0 8) (x.body.drop 16)).findSome? fun e => one (fieldAt e 0 8) 1
    | _ => none

/-- The containers of the bound entries: for each index whether its slot already holds the hash, or the container once
verified; else status 7 with its DETAIL. -/
def verifyBinds (s : State) (fn asid : Nat) : List (Nat × List Byte) → Except Nat (List (Nat × DWord × Option Nat × Container))
  | [] => .ok []
  | (i, e) :: rest =>
    let hash := (e.drop 16).take 48
    let now := if i < 8 then s.boundTo asid i else s.bindings.find? fun b => b.ct.hash == hash
    let go (x : Option Nat × Container) : Except Nat (List (Nat × DWord × Option Nat × Container)) :=
      (verifyBinds s fn asid rest).map fun xs => (i, dwordAt e 8, x.1, x.2) :: xs
    match now with
    | some b => if b.ct.hash == hash then go (some b.id, b.ct) else .error 0
    | none =>
      match verify s fn asid (dwordAt e 8) with
      | .ok _ (.ok c) => if c.hash == hash then go (none, c) else .error 0
      | .ok _ (.error st) => .error st
      | _ => .error 2

/-- Bind the slots and hold the references: the binding of each index; none where hardware slots do not suffice. -/
def bindAll (s : State) (asid : Nat) : List (Nat × DWord × Option Nat × Container) → Option (State × List (Nat × Nat))
  | [] => some (s, [])
  | (i, va, some id, _) :: rest => (bindAll s asid rest).map fun r => let _ := va; (r.1, (i, id) :: r.2)
  | (i, va, none, c) :: rest =>
    match s.chooseAll c none allDies with
    | none => none
    | some hs =>
      let id := s.nextKey
      let s := { hs.foldl (fun s p => s.putSlot p.1 p.2 c) s with
        nextKey := id + 1, bindings := s.bindings ++ [Binding.mk id c va []] }
      let s := if i < 8 then s.updEntry asid i fun e => { e with bound := some id } else s
      (bindAll s asid rest).map fun r => (r.1, (i, id) :: r.2)

/-- The launch that an image describes, before its blocks: it belongs to the queue as a started packet. Blocks that have completed on this
device keep the final counts of their solve contexts (R452). -/
def restoredLaunch (s : State) (q : Queue) (k : Nat) (img map : List Byte) (i : Image) (ring : Option Nat)
    (pantry : List (Nat × Memory)) (finals : List (Nat × Nat)) : Launch :=
  let lp := (img.drop 0x20).take 64
  let l := Launch.new s q k (fieldAt img 0x10 4) lp i ring
  let dies (m : Nat) : Nat := (List.range 4).foldl (fun n d => match mapDie map d with
    | some e => if m.testBit d then n ||| 2 ^ e else n
    | none => n) 0
  { l with
    pin := l.pin.bind (mapUnit map)
    diem := if pantry.isEmpty then dies l.diem else pantry.foldl (fun n p => n ||| 2 ^ p.1) 0
    dstop := (fieldAt img 7 1).testBit 1
    st := if fieldAt img 0x14 4 = 0 && pantry.isEmpty then .waiting else .running
    saves := fieldAt img 0x18 8
    nextB := fieldAt img 0x14 4
    finals := finals
    pantry := pantry }

/-- A block and the records of its parked agents, from its sections. -/
def parseBlock (s : State) (l : Launch) (ids : List (Option Nat)) (map : List Byte) (solve : List Byte) (x : Sec) (ts : List Sec) :
    Block × List Record :=
  let b := x.body
  let place : Unit3 := ⟨fieldAt b 2 1, fieldAt b 1 1, fieldAt b 0 1⟩
  let bars := parseBars (b.drop 0x420)
  let g := l.groups.find? fun g => g.id == groupOf l x.id
  let at_ := 0xC30 + up16 l.img.scra + up16 l.img.sliceShare
  let key (t : Nat) : Nat := s.nextKey + 16 * x.id + t
  let foyerRec := if (fieldAt b 3 1).testBit 0 then some (key 8) else none
  let team (y : Sec) : Team × List Record :=
    let held := if (fieldAt y.body 6 2).testBit 0 then some (key y.sub) else none
    let t := parseTeam s l ids g bars solve x.id y.sub held y.body
    let rb := teamPart y.body 8
    let p := recordFrag t rb
    (t, held.toList.map fun k => parseRecord l k (.team l.id x.id y.sub) p.1 p.2 rb)
  let teams := ts.map team
  let foyer := parseFoyer b foyerRec
  let pushes := fieldAt b 0x18 8
  let first := firstKept (teams.map Prod.fst) pushes
  ({ id := x.id, place := place, runsOn := (mapUnit map place).getD place, age := s.tick, foyer := foyer
     teams := teams.map Prod.fst
     dq := (List.range (pushes - first)).map fun k => dwordAt b (0x220 + 8 * ((first + k) % 64))
     dqFreed := first, bars := bars
     scratch := memOf ((b.drop 0xC30).take l.img.scra)
     slices := memOf ((b.drop (0xC30 + up16 l.img.scra)).take l.img.sliceShare)
     solve := parseSolve solve },
   (foyerRec.toList.map fun k => parseRecord l k (.foyer l.id x.id) foyer.pc 0 (b.drop at_)) ++ teams.flatMap Prod.snd)

/-- The blocks of an image. -/
def parseBlocks (s : State) (l : Launch) (ids : List (Option Nat)) (map : List Byte) (xs : List Sec) : List (Block × List Record) :=
  (xs.filter fun x => x.ty == 1).map fun x =>
    let solve := ((xs.find? fun y => y.ty == 8 && y.id == x.id).map Sec.body).getD []
    parseBlock s l ids map solve x (xs.filter fun y => y.ty == 2 && y.id == x.id)

/-- A tile from a MERGE section, at the home of CVA's address; who opened it, and by which operation, the section does not
hold: free. -/
def parseTile (s : State) (l : Launch) (x : Sec) : Tile :=
  let f := fieldAt x.body
  let pa := match s.check none l.asid (dwordAt x.body 0) 4 .load with
    | .ok t => t.pa
    | .error _ => 0
  let cells := 16 * x.sub
  let ctr := s.freeCtr + pa
  { pa := pa, cva := dwordAt x.body 0, asid := l.asid, anchor := (BitVec.ofNat 8 (f 0x10 1)).toInt, w := x.sub, count := f 0x14 4
    mo := (f 0x12 1).testBit 0, ml := (f 0x12 1).testBit 1
    cells := (List.range cells).map fun i =>
      let m := f (0x20 + i) 1
      ⟨m.testBit 0, m.testBit 1, m.testBit 2, m.testBit 3, (BitVec.ofNat 128 (f (0x20 + cells + 16 * i) 16)).toInt⟩
    owner := .hearth l.id (Config.freeNat ctr) (Config.freeNat (ctr + 1) % 8), num := Config.freeNat (ctr + 2), spilled := false }

/-- The operation whose region a restored mark of an engine belongs to: which of those not complete, an image does not say: free. -/
def markOp (ctr : Nat) (l : Launch) (a : AgentId) : Nat :=
  let pickOf (xs : List Nat) : Nat := xs.getD (Config.freeNat ctr % xs.length) 0
  let team (b t : Nat) : Option Team := (l.block b).bind fun x => x.teams[t]?
  match a with
  | .copy _ b t => ((team b t).map fun x => pickOf (x.copy.ops.map CopyOp.key)).getD 0
  | .hearth _ b t => ((team b t).map fun x => pickOf (x.hearth.ops.map HOp.num)).getD 0
  | _ => 0

/-- The marks of an entry. -/
def parseMark (s : State) (l : Launch) (e : List Byte) : List Mark :=
  let va := fieldAt e 0 8
  let b := fieldAt e 8 4
  let t := fieldAt e 12 1
  let a : AgentId := match fieldAt e 13 1 with
    | 1 => .team l.id b t
    | 2 => .foyer l.id b
    | 3 => .hearth l.id b t
    | 4 => .copy l.id b t
    | _ => .solve l.id b
  match s.check none l.asid (BitVec.ofNat 64 va) 1 .load with
  | .error _ => []
  | .ok r => [false, true].filterMap fun w =>
      if (fieldAt e 14 1).testBit (if w then 1 else 0) then some ⟨r.pa / 32, va, a, markOp (s.freeCtr + 2 ^ 51 + r.pa / 32) l a, w⟩ else none

/-- The agents of a launch that use bindings. -/
def Launch.uses (l : Launch) : List (Nat × AgentId) :=
  l.blocks.flatMap fun b => ((List.range b.teams.length).zip b.teams).flatMap fun q =>
    (q.2.copy.ops.filterMap fun o => o.bind.map fun i => (i, AgentId.copy l.id b.id q.1))
      ++ q.2.hearth.ops.filterMap fun o => o.bind.map fun i => (i, AgentId.hearth l.id b.id q.1)

/-- The device has room: cores, Pantry and merge cells (status 6). -/
def roomFor (s : State) (l : Launch) (tiles : List Tile) : Bool :=
  let units := (l.blocks.map Block.runsOn).eraseDups
  units.all (fun u => fitsCore (((l.blocks.filter fun b => b.runsOn == u).map fun _ => l.img) ++ s.residents u))
    && l.pantry.all (fun p => s.pantryUsed p.1 + l.pant ≤ 48 * 2 ^ 20)
    && cellsFit (s.openTiles ++ tiles)

/-- Set the launch up, once every check but those of room has passed; none where there is no room. -/
def setUp (s : State) (q : Queue) (img map : List Byte) (xs : List Sec) (i : Image)
    (cs : List (Nat × DWord × Option Nat × Container)) (old : Option Launch) : Option State :=
  let k := match old with
    | some o => o.pkt
    | none => s.nextKey
  let s := { s with nextKey := s.nextKey + 1 }
  match bindAll s q.asid cs with
  | none => none
  | some (s, ids) =>
    let nb := ((xs.find? fun x => x.ty == 6).map fun x => fieldAt x.body 0 4).getD 0
    let brefs := (List.range nb).map fun i => (ids.find? fun p => p.1 == i).map Prod.snd
    let lp := (img.drop 0x20).take 64
    match attachRing s k q.asid (BitVec.ofNat 64 (pkBits lp 320 64)) with
    | .ok s ring =>
      let pantry := (xs.filter fun x => x.ty == 4).map fun x => ((mapDie map x.sub).getD x.sub, memOf ((x.body.drop 16).take (fieldAt x.body 0 8)))
      let l0 := restoredLaunch s q k img map i ring pantry ((old.map Launch.finals).getD [])
      let l0 := { l0 with groups := (xs.filter fun x => x.ty == 3).map fun x =>
        ⟨x.id, memOf ((x.body.drop (16 + 2048)).take (i.clg * i.cmem)), parseBars (x.body.drop 16)⟩ }
      let bs := parseBlocks s l0 brefs map xs
      let l := { l0 with blocks := bs.map Prod.fst, cores := (bs.map fun p => p.1.runsOn).eraseDups }
      let tiles := (xs.filter fun x => x.ty == 5).map (parseTile s l)
      let marks := (xs.filter fun x => x.ty == 7).flatMap fun x =>
        (pieces 16 (fieldAt x.body 0 8) (x.body.drop 16)).flatMap (parseMark s l)
      if !roomFor s l tiles then none
      else
        let s := { s with
          launches := s.launches ++ [l], tiles := s.tiles ++ tiles, marks := s.marks ++ marks
          records := s.records ++ bs.flatMap Prod.snd
          pkts := if old.isSome then s.pkts else s.pkts ++ [Pkt.mk k q.id none q.ridx lp .started 1 [] none]
          nextKey := s.nextKey + 2 ^ 20 * (l.nextB + 1), freeCtr := s.freeCtr + 2 ^ 60 }
        let s : State := l.uses.foldl (fun s p => s.hold (some p.1) p.2) s
        some (l.blocks.foldl (fun (s : State) b => s.acquire b.runsOn .sys) s).dropBindings
    | _ => none

/-- The launch's evicted form leaves the device as its image takes its place (R420). -/
def State.forget (s : State) (l : Nat) : State :=
  { s with
    launches := s.launches.filter fun x => x.id != l
    tiles := s.tiles.filter fun t => !t.owner.ofLaunch l
    marks := s.marks.filter fun m => !m.agent.ofLaunch l
    bindings := s.bindings.map fun b => { b with held := b.held.filter fun a => !a.ofLaunch l } }

/-- CTX_RESTORE: the first check that fails is reported and nothing changes. -/
def execCtxRestore (s : State) : Out :=
  onCtx 5 0 s fun s =>
    let bad (st d : Nat) : Out := .next (s.ctxDone st d 0)
    match s.readPhys s.ctxaddr.toNat 256 with
    | none => bad 8 0x20
    | some h =>
      let q? := s.queue s.ctxq.toNat
      match s.readPhys s.ctxaddr.toNat (fieldAt h 8 8), s.readPhys s.ctxmap.toNat 304 with
      | some img, some map =>
        let sub := parseImage img
        let lost := match q?, sub with
          | some q, some xs => accessCause s q.fn q.asid xs
          | _, _ => none
        match lost, sub, q? with
        | some c, _, _ => bad 8 c.toNat
        | none, none, _ => bad 3 0
        | none, some _, none => if mapReserved map then bad 1 0 else bad 3 0
        | none, some xs, some q =>
          let l := fieldAt img 0x10 4
          let old := s.launch l
          let env := match s.func q.fn with
            | some f => f.fenv
            | none => []
          if !mapReserved map then bad 3 0
          else if q.bulk || old.any (fun o => o.st != .evicted) then bad 1 0
          else if !(List.range 4).all (fun i => dwordAt img (0x60 + 8 * i) == env.getD i 0) then bad 4 0
          else if !mapOk (s.units q.fn) img map then bad 5 0
          else
            match verifyBinds s q.fn q.asid (((xs.find? fun x => x.ty == 6).map fun x => boundEntries x.body).getD []) with
            | .error d => bad 7 d
            | .ok cs =>
              let lp := (img.drop 0x20).take 64
              match readImage (s.forget l) (.porch s.nextKey) q.asid (pkBits lp 64 64) (pkBits lp 128 64) with
              | .ok s' (.ok i) =>
                match setUp s' q img map xs i cs old with
                | some s' => .next (s'.wake.ctxDone 0 0 0)
                | none => bad 6 0
              | .ok _ (.error _) => bad 8 0x20
              | .fail _ w => bad 8 w.code.toNat
              | .wait => .next (s.ctxWait 5 0)
      | _, _ => bad 8 0x20

/-! ### TLB invalidation (R413) -/

/-- A write of TLBINV by a function: queued after those before it. -/
def queueInval (fn : Nat) (s : State) (i : Inval) : Out :=
  onRegister fn s fun _ => .next (s.updFunc fn fun f => { f with tlbq := f.tlbq ++ [i] })

/-- The function owns an address space. -/
def State.owns (s : State) (fn asid : Nat) : Bool := (s.asid asid).2.1 == fn

/-- TLB_INV_PAGE: the page of TLBINVA; ignored for an address space that the function does not own. -/
def execTlbInvPage (fn asid : Nat) (s : State) : Out :=
  if s.owns fn asid then
    queueInval fn s (.page asid (match s.func fn with
      | some f => f.tlbinva.toNat
      | none => 0))
  else .next s

/-- TLB_INV_ASID. -/
def execTlbInvAsid (fn asid : Nat) (s : State) : Out :=
  if s.owns fn asid then queueInval fn s (.asid asid) else .next s

/-- TLB_INV_FUNC: the physical function's alone. -/
def execTlbInvFunc (fn : Nat) (s : State) : Out := queueInval 0 s (.func fn)

/-- TLB_INVALIDATION_COMPLETE: no TLB holds a translation that the oldest invalidation of a function covers. Accesses that
used one have performed: in this model every access performs as it issues. -/
def execTlbInvalidationComplete (fn : Nat) (s : State) : Out :=
  .next (match s.func fn with
    | none => s
    | some f => match f.tlbq with
      | [] => s
      | i :: is =>
        { s with tlb := s.tlb.filter fun t => !i.covers t }.updFunc fn fun f => { f with tlbq := is })

/-- DIRTY_LOG_REARM: a write of DLEND or DLPTR; the accesses that a full log held go on once PTR differs from END. -/
def execDirtyLogRearm (v : Nat) (isEnd : Bool) (x : DWord) (s : State) : Out :=
  onRegister 0 s fun _ =>
    .next (s.updFunc v fun f => if isEnd then { f with dlend := fieldBits x 51 3 } else { f with dlptr := fieldBits x 51 3 }).wake

end Sys2Proof.Machine
end

