-- ==== Sys2Proof/Machine/Devices.lean ====
section
/-!
DEFINITION. Machine/Devices.lean: accesses of the host (R472 to R475), peer ports, windows and inbound accesses (R477 to
R483), and the functions of SR-IOV (R429, R473, R345).
-/
namespace Sys2Proof.Machine

/-! ### Accesses from outside (R475, R479, R483) -/

/-- Read, write or update n bytes of physical memory at the home slice, as one access at .sys. -/
def State.physAtomic (s : State) (pa n : Nat) (f : Nat → Nat) : State :=
  ({ s with mem := s.mem.put pa (leBytes n (f (s.mem.num pa n))) } : State).watch pa n

/-- The value of a contribution's element (R263): mark 0 is m 2^e, 1 NaN, 2 and 3 the infinities. -/
def contributed (mark : Nat) (m e : Int) : FVal :=
  match mark with
  | 0 => .fin (m < 0) m.natAbs e
  | 1 => .nan false
  | 2 => .inf false
  | _ => .inf true

/-- An access from outside at a physical address: a load leaves no state; a contribution reaches an open tile whole or is
refused at its source. -/
def State.outside (s : State) (pa : Nat) (a : ExtAcc) : State :=
  match a with
  | .load _ => s
  | .store bs => { s with mem := s.mem.put pa bs }
  | .atomic o w64 v => s.physAtomic pa (atomSize w64) fun old => atomNew o w64 old (v.toNat % 2 ^ (8 * atomSize w64))
  | .cas w64 old new =>
    s.physAtomic pa (atomSize w64) fun x => if x = old.toNat % 2 ^ (8 * atomSize w64) then new.toNat % 2 ^ (8 * atomSize w64) else x
  | .contribute es =>
    match s.tile pa with
    | none => s
    | some t =>
      let xs := (List.range (16 * t.w)).map fun i => match es.find? fun x => x.1 == i with
        | some (_, mark, m, e) => contributed mark m e
        | none => .fin false 0 0
      match contribute s pa t.w 0 xs with
      | .ok s _ => s
      | _ => s

/-- The bytes that an access from outside touches. -/
def accBytes : ExtAcc → Nat
  | .load n => n
  | .store bs => bs.length
  | .atomic _ w64 _ | .cas w64 _ _ => atomSize w64
  | .contribute _ => 1

/-- HOST_MEMORY_ACCESS: a host access to HBM through CXL.mem, or to its own memory; it sets no mark and conflicts with
nothing. -/
def execHostMemoryAccess (pa : Nat) (a : ExtAcc) (s : State) : Out :=
  .next (if spanBacked pa (accBytes a) && !isPeer pa then s.outside pa a else s)

/-- CXL_CACHE_SNOOP: host memory performs at the home L2 slice coherently with the host's caches (R472): a snoop or an
invalidation moves no value that an agent can tell. -/
def execCxlCacheSnoop (_line : Nat) (_inv : Bool) (s : State) : Out := .next s

/-! ### Peer ports and windows (R477) -/

/-- A peer port, as it stands before it first trains. -/
def State.port (s : State) (ix : Nat) : Port := (s.ports.find? fun p => p.ix == ix).getD ⟨ix, false, 0, 0, false⟩

/-- Replace a peer port; there are sixteen (R1). -/
def State.putPort (s : State) (p : Port) : State :=
  if p.ix < 16 then { s with ports := s.ports.filter (fun x => x.ix != p.ix) ++ [p] } else s

/-- PEER_PORT_TRAINED: the port reaches a device and the windows are exchanged, at first and after each change of a window;
what was outstanding has performed, at most once. -/
def execPeerPortTrained (port dev wlen : Nat) (s : State) : Out :=
  .next (if s.boot == .ready && port < 16 then
      ({ s with peerOut := s.peerOut.filter fun p => p.dev != dev } : State).putPort ⟨port, true, dev, wlen % 2 ^ 33, false⟩
    else s)

/-- PEER_WINDOW_WRITE: PWBASE or PWLEN of a device; a window outside HBM is refused. -/
def execPeerWindowWrite (dev : Nat) (isLen : Bool) (v : DWord) (s : State) : Out :=
  onRegister 0 s fun _ =>
    let base := if isLen then Regs.get s.pwbase dev else fieldBits v 51 12
    let len := if isLen then fieldBits v 32 0 else Regs.get s.pwlen dev
    .next (if 0xC000000000 < base.toNat + len.toNat * 4096 then s
      else if isLen then { s with pwlen := Regs.set s.pwlen dev len } else { s with pwbase := Regs.set s.pwbase dev base })

/-- INBOUND_PEER_ACCESS: an access of device dev at an offset of the window granted to it. -/
def execInboundPeerAccess (dev o : Nat) (a : ExtAcc) (s : State) : Out :=
  .next (if s.boot == .ready && o + accBytes a ≤ (Regs.get s.pwlen dev).toNat * 4096 then
      s.outside ((Regs.get s.pwbase dev).toNat + o) a
    else s)

/-! ### Loss of a link (R481) -/

/-- FLIT_REPLAY: a flit in error is sent again, and its access still performs at most once. -/
def execFlitReplay (_port : Nat) (s : State) : Out := .next s

/-- PEER_PORT_LOSS: the port trains again; what is outstanding on it stays so. -/
def execPeerPortLoss (port : Nat) (s : State) : Out :=
  .next (if (s.port port).trained then s.putPort { s.port port with retraining := true } else s)

/-- A lost load receives all ones in each word of its destination; a lost atomic writes all ones. -/
def Pending.lose (p : Pending) (dev : Nat) : Pending :=
  let lost := (p.peers.filter fun q => q.2.1 == dev).map Prod.fst
  { p with
    words := p.words.mapIdx fun i w => if lost.contains i then w.map fun ws => ws.map fun _ => 0xFFFFFFFF#32 else w
    peers := p.peers.filter fun q => q.2.1 != dev }

/-- The same for a Foyer context. -/
def FPending.lose (p : FPending) (dev : Nat) : FPending :=
  if p.peer.any fun q => q.1 == dev then { p with val := 0xFFFFFFFFFFFFFFFF#64, peer := none } else p

/-- The addresses of the elements of a tile in global memory. -/
def tileAddrs (sh : Shape) : List DWord :=
  if shLvl sh != 0 then [] else (List.range (shCount sh)).map fun n => BitVec.ofNat 64 (elemAddr sh (ixOf sh n))

/-- The addresses of its scale table. -/
def tableAddrs (sh : Shape) : List DWord :=
  if shLvl sh != 0 || shGrp sh = 0 then []
  else (List.range (shCount sh)).map fun n => BitVec.ofNat 64 (scaleAddr sh (ixOf sh n))

/-- The addresses in global memory that a copy may reach (R258, R260, R261, R263). -/
def CopyOp.reaches (o : CopyOp) : List DWord :=
  tileAddrs o.src ++ (if o.form = 2 then [BitVec.ofNat 64 (shBase o.dst)] else tileAddrs o.dst)
    ++ (if o.cv then tableAddrs o.src ++ tableAddrs o.dst else []) ++ o.bo.toList

/-- The addresses in peer memory that a Hearth operation may reach: A's scale table, and MTOPK's tile (R310, R334, R478). -/
def HOp.reaches (o : HOp) : List DWord :=
  match o.kind with
  | .mtopk => tileAddrs o.cSh
  | .mma | .mdist => if o.sa then tableAddrs o.aSh else []
  | .mopen | .mclose => []

/-- One of an operation's addresses that a device holds; which is lost is a free value. -/
def State.lostAt (s : State) (x : EngAgent) (dev ctr : Nat) (vas : List DWord) : Option DWord :=
  let there := vas.filter fun va =>
    match s.check x.b.die x.l.asid va 1 .load with
    | .ok t => isPeer t.pa && devOf t.pa == dev
    | .error _ => false
  there[Config.freeNat ctr % there.length]?

/-- An access that was lost: its agent, address, and the kind, number and position of an engine operation. -/
structure Lost where
  agent : AgentId
  addr : DWord
  kind : Nat
  num : Nat
  pos : Nat
  deriving DecidableEq, Repr

/-- The accesses of a block that are outstanding on a device; whether an engine operation has one is a free value. -/
def State.lostOf (s : State) (l : Launch) (b : Block) (dev : Nat) : List Lost :=
  let free (k : Nat) : Bool := Config.freeBit (s.freeCtr + k)
  let team (q : Nat × Team) : List Lost :=
    (q.2.pend.flatMap fun p => (p.peers.filter fun r => r.2.1 == dev).map fun r => ⟨.team l.id b.id q.1, r.2.2, 0, 0, 0⟩)
      ++ (q.2.copy.ops.filterMap fun o =>
        if o.done || o.susp.isSome || !free (o.batch * 64 + o.pos) then none
        else (s.lostAt ⟨.copy l.id b.id q.1, o.key, l, b⟩ dev (s.freeCtr + o.pos) o.reaches).map fun a =>
          ⟨.copy l.id b.id q.1, a, 1, o.batch, o.pos⟩)
      ++ q.2.hearth.ops.filterMap fun o =>
        if o.susp.isSome || !free o.num then none
        else (s.lostAt ⟨.hearth l.id b.id q.1, o.num, l, b⟩ dev (s.freeCtr + o.num) o.reaches).map fun a =>
          ⟨.hearth l.id b.id q.1, a, 2, o.num, o.passes⟩
  (b.foyer.pend.filterMap fun p => p.peer.bind fun r => if r.1 == dev then some ⟨.foyer l.id b.id, r.2, 0, 0, 0⟩ else none)
    ++ ((List.range b.teams.length).zip b.teams).flatMap team

/-- The lowest address among lost accesses. -/
def lowestLost : List Lost → Option Lost
  | [] => none
  | x :: xs => some (xs.foldl (fun a y => if y.addr.toNat < a.addr.toNat then y else a) x)

/-- What is lost in a block is settled: loads, and the engine operations, which suspend. -/
def Block.settleLost (b : Block) (dev : Nat) (lost : List Lost) : Block :=
  let susp (a : DWord) : Option Susp := some (.mem 0x28#8 a)
  let copy (k : Nat) (o : CopyOp) : CopyOp :=
    match lost.find? fun x => x.kind == 1 && x.num == o.batch && x.pos == o.pos && x.agent.parts.2.2 == k with
    | some x => { o with susp := susp x.addr }
    | none => o
  let hearth (k : Nat) (o : HOp) : HOp :=
    match lost.find? fun x => x.kind == 2 && x.num == o.num && x.agent.parts.2.2 == k with
    | some x => { o with susp := susp x.addr, waiting := false, granted := false }
    | none => o
  let team (k : Nat) (t : Team) : Team :=
    { t with
      pend := t.pend.map fun p => p.lose dev
      copy := { t.copy with ops := t.copy.ops.map (copy k) }
      hearth := { t.hearth with ops := t.hearth.ops.map (hearth k) } }
  { b with foyer := { b.foyer with pend := b.foyer.pend.map fun p => p.lose dev }, teams := b.teams.mapIdx team }

/-- Stores and atomics that may or may not have performed: each is a free choice, in the order in which they went out. -/
def State.settleStores (s : State) (ops : List PeerOp) : State :=
  let back := ops.foldr (fun p (m : Memory) => m.put p.pa p.old) s.mem
  let again := ((List.range ops.length).zip ops).foldl (fun (m : Memory) p =>
    if Config.freeBit (s.freeCtr + p.1) then m.put p.2.pa p.2.new else m) back
  { s with mem := again, freeCtr := s.freeCtr + ops.length }

/-- The launch error of a port's failure: one per launch with a lost access (REASON 6). -/
def State.reportLost (s : State) (l : Nat) (x : Lost) : State :=
  let p := x.agent.parts
  s.launchError l 6 0x28#8 x.agent p.2.1 p.2.2 0x28#8 x.kind x.pos x.num x.addr .none

/-- PEER_PORT_TIMEOUT: the port's routes go down and its outstanding accesses are settled; each launch with one is told. -/
def execPeerPortTimeout (port : Nat) (s : State) : Out :=
  let p := s.port port
  if !p.trained || !p.retraining then .next s
  else
    let stores := s.peerOut.filter fun o => o.dev == p.dev
    let lost (l : Launch) : List Lost := l.blocks.flatMap fun b => s.lostOf l b p.dev
    let told (l : Launch) : Option Lost :=
      lowestLost (lost l ++ (stores.filter fun o => o.agent.ofLaunch l.id).map fun o => ⟨o.agent, o.va, 0, 0, 0⟩)
    let reports := s.launches.filterMap fun l => (told l).map fun x => (l.id, x)
    let u : State := { s with
      launches := s.launches.map fun l => { l with blocks := l.blocks.map fun b => b.settleLost p.dev (s.lostOf l b p.dev) }
      peerOut := s.peerOut.filter fun o => o.dev != p.dev
      freeCtr := s.freeCtr + 2 ^ 32 }
    let u := (u.settleStores stores).putPort { p with trained := false, retraining := false }
    .next (reports.foldl (fun s q => s.reportLost q.1 q.2) u)

/-! ### Functions (R345, R429, R473) -/

/-- A launch of a function that ends with it, its packet and tiles with it. -/
def State.killLaunch (s : State) (l : Nat) : State :=
  ({ s with tiles := s.tiles.filter fun t => !t.owner.ofLaunch l } : State).dropLaunch l

/-- A function's lifetime ends: its launches, queues and requests end with it, its own registers and address spaces go back
to reset, its envelope is writable again, and Aelyn's format key is enrolled. -/
def State.endFunction (s : State) (fn : Nat) (live : Bool) : State :=
  let mine := (s.queues.filter fun q => q.fn == fn).map Queue.id
  let s := (s.launches.filter fun l => l.fn == fn).foldl (fun s l => s.killLaunch l.id) s
  let gone (k : Nat) : Bool := s.pkts.any fun p => p.key == k && mine.contains p.queue
  let regs (p : Nat × DWord) : Nat × DWord := if bitsAt p.2 1 6 == fn then (p.1, fieldBits p.2 6 1) else p
  let own (a : Nat) : Bool := (s.asid a).2.1 == fn
  { s with
    queues := s.queues.filter fun q => q.fn != fn
    graphs := s.graphs.filter fun g => !gone g.key
    prologues := s.prologues.filter fun p => !gone p.key
    pkts := s.pkts.filter fun p => !mine.contains p.queue
    binds := s.binds.filter fun e => !own e.asid
    tlb := s.tlb.filter fun t => t.fn != fn
    asidctl := (s.asidctl.map regs).filter fun p => p.2 != 0
    marks := s.marks.filter fun m => match m.agent with
      | .bulk q => !mine.contains q
      | .format f => f != fn
      | .porch k | .prologue k => !gone k
      | _ => true
    funcs := upd (fun f => f.id == fn) (fun f =>
      { Func.fresh fn [Config.aelynKey] with
        live := live, s2ctl := f.s2ctl, shctl := f.shctl, s2fault := f.s2fault, dlbase := f.dlbase, dlend := f.dlend
        dlptr := f.dlptr, dlEn := f.dlEn, dlIrq := f.dlIrq, qrange := f.qrange }) s.funcs }.dropBindings

/-- FUNCTION_LEVEL_RESET. -/
def execFunctionLevelReset (fn : Nat) (s : State) : Out :=
  .next (if s.responds fn then s.endFunction fn true else s)

/-- FUNCTION_CREATE: physical-function software creates a virtual function, or disables it and creates it again. -/
def execFunctionCreate (fn : Nat) (s : State) : Out :=
  .next (if s.boot == .ready && fn != 0 then s.endFunction fn true else s)

end Sys2Proof.Machine
end

