-- ==== Sys2Proof/Machine/BringUp.lean ====
section
/-!
DEFINITION. Machine/BringUp.lean: the registers that respond before firmware, resets, the boot ROM's verification of
the firmware image, recovery, and attestation (R484 to R491).
-/
namespace Sys2Proof.Machine

/-! ### The registers of R484 (R485 to R487) -/

/-- The code of BOOTSTAT.STATE. -/
def BootSt.code : BootSt → BitVec 3
  | .rom => 0
  | .verifying => 1
  | .recovery => 2
  | .ready => 3
  | .halted => 4

/-- BOOTSTAT. -/
def State.bootstat (s : State) : DWord :=
  s.boot.code.setWidth 64 ||| s.fwver.setWidth 64 <<< 16 ||| s.err.setWidth 64 <<< 32 ||| s.lastrst.setWidth 64 <<< 40

/-- IDENT: PART, STEPPING and DIALECT. -/
def ident : DWord := 0x0D960101#64

/-- How many bits of a FUSE value are set. -/
def fuseCount (x : BitVec 40) : Nat := ((List.range 40).filter fun p => x.getLsbD p).length

/-- FUSE of a die: 36 bits are set. -/
def fuseOf (d : Nat) : BitVec 40 := if fuseCount (Config.fuse d) = 36 then Config.fuse d else 0xFFFFFFFFF#40

/-- CLMAP: the physical cluster of a logical one is the (c + 1)-th set bit of FUSE. -/
def clmap (d c : Nat) : Nat := ((List.range 40).filter fun p => (fuseOf d).getLsbD p).getD c 0

/-- What a read of a register of R484 gives the physical function, by offset; RCVCMD, which is WO, reads 0. -/
def State.earlyRead (s : State) (off : Nat) : Option DWord :=
  if off = 0xC0000 then some s.bootstat
  else if off = 0xC0008 then some ident
  else if off = 0xC0010 then some Config.serial
  else if off = 0xC0018 then some s.rcvaddr
  else if off = 0xC0020 then some 0
  else if 0xC0100 ≤ off ∧ off < 0xC0120 ∧ off % 8 = 0 then some ((fuseOf ((off - 0xC0100) / 8)).setWidth 64)
  else if 0xC1000 ≤ off ∧ off < 0xC1800 ∧ off % 8 = 0 ∧ (off - 0xC1000) % 0x200 < 8 * 36 then
    some (BitVec.ofNat 64 (clmap ((off - 0xC1000) / 0x200) ((off - 0xC1000) % 0x200 / 8)))
  else none

/-! ### Verification of an image (R488) -/

/-- The layout rules of an image. -/
def imageLayoutOk (bs : List Byte) : Bool :=
  let f := fieldAt bs
  let plen := f 0x08 4
  let sec (o n : Nat) : Bool := 0x80 ≤ o && o % 8 == 0 && n % 8 == 0 && o + n ≤ plen
  f 0x04 2 == 1 && f 0x06 2 != 0 && plen % 8 == 0 && f 0x0C 4 ≤ 2 ^ 23 && zeros ((bs.drop 0x30).take 80)
    && sec (f 0x20 4) (f 0x24 4) && sec (f 0x28 4) (f 0x2C 4) && apart (f 0x20 4) (f 0x24 4) (f 0x28 4) (f 0x2C 4)
    && fieldAt bs (plen + 148) 4 == 0 && f 0x0C 4 == plen + 152 + fieldAt bs (plen + 144) 4

/-- The first check of R488 that an image fails, as ERR; 0 where it passes all. -/
def imageErr (floor : BitVec 16) (bs : List Byte) : BitVec 8 :=
  let plen := fieldAt bs 0x08 4
  if fieldAt bs 0 4 ≠ 0x57464E41 then 1
  else if !imageLayoutOk bs then 5
  else if sha384 (bs.take plen) ≠ (bs.drop plen).take 48 then 2
  else match Config.firmwareKeys.find? fun k => k.take 16 == (bs.drop 0x10).take 16 with
    | none => 3
    | some k =>
      if !signedTrailer k (bs.drop plen) then 3
      else if fieldAt bs 6 2 < floor.toNat then 4
      else 0

/-- BOOT_VERIFY: the boot ROM starts to verify the image in flash, and then enters READY or RECOVERY; with a watchdog count
of 3 it enters HALTED. -/
def execBootVerify (s : State) : Out :=
  .next (match s.boot with
    | .rom => if 3 ≤ s.wdCount then { s with boot := .halted } else { s with boot := .verifying }
    | .verifying =>
      let e := imageErr s.floor s.flash
      if e = 0 then
        let v := BitVec.ofNat 16 (fieldAt s.flash 6 2)
        { s with boot := .ready, err := 0, fwver := v, floor := v }
      else { s with boot := .recovery, err := e }
    | _ => s)

/-! ### Resets (R471, R485, R488, R491) -/

/-- The bytes of a replacement image in host memory: the header tells how many there are. -/
def State.hostImage (s : State) (addr : DWord) : List Byte :=
  let pa := 2 ^ 50 + addr.toNat % 2 ^ 50
  let h := s.mem.bytes pa 128
  if fieldAt h 0 4 = 0x57464E41 ∧ 128 ≤ fieldAt h 0x0C 4 ∧ fieldAt h 0x0C 4 ≤ 2 ^ 23 then s.mem.bytes pa (fieldAt h 0x0C 4) else h

/-- Memory after a reset: host and peer memory keep their bytes; each byte of HBM holds what was last written to it or a value that
the device does not define, which is free (R471). -/
def memAfterReset (ctr : Nat) (m : Memory) : Memory :=
  ((Config.afterReset ctr).filter fun c => isHbm c.1).foldl (fun m c => m.set c.1 c.2) m

/-- The image in flash after a reset in the middle of a recovery's flash write: the old one or the new one. -/
def State.flashAfterReset (s : State) : List Byte :=
  if s.recovering && imageErr s.floor (s.hostImage s.rcvaddr) == 0 && Config.freeBit s.freeCtr then s.hostImage s.rcvaddr
  else s.flash

/-- A reset of the module: every launch ends and every on-chip state is discarded. What is outstanding on a peer link may or
may not have performed; flash, the fused floor, the watchdog count, memory, and what the host has received stay. -/
def State.resetModule (s : State) (cause : BitVec 8) (count : Nat) : State :=
  let s1 := s.settleStores s.peerOut
  { State.reset with
    mem := memAfterReset s1.freeCtr s1.mem
    intrs := s.intrs
    lastrst := cause
    wdCount := count
    floor := s.floor
    flash := s.flashAfterReset
    spdm := s.spdm
    nextKey := s.nextKey
    agenda := s.agenda
    tick := s.tick
    freeCtr := s1.freeCtr + 1 }

/-- POWER_ON_RESET. -/
def execPowerOnReset (s : State) : Out := .next (s.resetModule 0 s.wdCount)

/-- CXL_RESET. -/
def execCxlReset (s : State) : Out := .next (s.resetModule 1 s.wdCount)

/-- THERMAL_TRIP. -/
def execThermalTrip (s : State) : Out := .next (s.resetModule 2 s.wdCount)

/-- SUPPLY_FAULT. -/
def execSupplyFault (s : State) : Out := .next (s.resetModule 3 s.wdCount)

/-- AUX_SUPPLY_LOSS: LASTRST and the watchdog count are lost with it. -/
def execAuxSupplyLoss (s : State) : Out := .next (s.resetModule 0 0)

/-- FIRMWARE_WATCHDOG_RESET: firmware that runs stops serving its watchdog; the count rises. -/
def execFirmwareWatchdogReset (s : State) : Out :=
  .next (if s.boot == .ready then s.resetModule 4 (s.wdCount + 1) else s)

/-- WATCHDOG_COUNT_CLEAR: firmware has been READY for 600 s without a watchdog reset. -/
def execWatchdogCountClear (s : State) : Out := .next (if s.boot == .ready then { s with wdCount := 0 } else s)

/-- HOST_LINK_TRAIN: the CXL link has trained, and the registers of R484 respond. -/
def execHostLinkTrain (s : State) : Out := .next { s with linkUp := true }

/-! ### Recovery (R489) -/

/-- RCVCMD: a write of 1 in RECOVERY or HALTED starts a recovery; one in progress ignores it. -/
def execRcvcmd (v : DWord) (s : State) : Out :=
  .next (if s.linkUp && v == 1 && !s.recovering && (s.boot == .recovery || s.boot == .halted) then { s with recovering := true }
    else s)

/-- Read, verify and write a replacement image; a success resets the module. -/
def State.recover (s : State) (addr : DWord) : State :=
  let bs := s.hostImage addr
  let e := imageErr s.floor bs
  if e = 0 then ({ s with flash := bs, recovering := false } : State).resetModule 0 0
  else { s with err := e, recovering := false }

/-- RECOVERY_COMPLETE: the recovery in progress ends. -/
def execRecoveryComplete (s : State) : Out := .next (if s.recovering then s.recover s.rcvaddr else s)

/-- FIRMWARE_MAILBOX_UPDATE: an update from READY firmware follows the same procedure. -/
def execFirmwareMailboxUpdate (addr : DWord) (s : State) : Out := onRegister 0 s fun _ => .next (s.recover addr)

/-! ### Attestation (R490) -/

/-- The measurement of an index; none where it is not reported. -/
def State.measurement (s : State) (ix : Nat) : Option (List Byte) :=
  let w (x : DWord) : List Byte := leBytes 8 x.toNat
  if ix = 1 then some (sha384 Config.bootRom)
  else if ix = 2 then some (sha384 (s.flash.take (fieldAt s.flash 0x08 4)) ++ leBytes 2 s.fwver.toNat)
  else if ix = 3 then
    some (w ident ++ w Config.serial ++ (List.range 4).flatMap fun d => leBytes 8 (fuseOf d).toNat)
  else if ix = 4 then some (s.funcs.flatMap fun f => f.fenv.flatMap w)
  else if 0x10 ≤ ix ∧ ix < 0x50 then (s.func (ix - 0x10)).map fun f => sha384 f.keys.flatten
  else none

/-- The answer to a request: index and value, the chain of the device identity key, and the signature over both under it; the signature's
secret number is free (R473, R490). -/
def spdmAnswer (ctr ix : Nat) (value : List Byte) : SpdmAnswer :=
  ⟨ix, value, Config.identityChain, P384.sign Config.identitySecret (Config.freeNat ctr) (sha384 (leBytes 1 ix ++ value))⟩

/-- SPDM_REQUEST: the security block answers with the measurement, signed, if there is one. -/
def execSpdmRequest (ix : Nat) (s : State) : Out :=
  .next (match s.measurement ix with
    | some m => { s with spdm := s.spdm ++ [spdmAnswer s.freeCtr ix m], freeCtr := s.freeCtr + 1 }
    | none => s)

end Sys2Proof.Machine
end

