-- ==== Sys2Proof/Machine/Capsules.lean ====
section
/-!
DEFINITION. Machine/Capsules.lean: lock objects, frames and COMMIT (R432 to R435), steps and their commit (R438), adoption
(R440), the capsule instructions (R441 to R447), violations and frame checks (R448, R449). A step of an adoption is one
issue of the adopter's CAPENTER.
-/
namespace Sys2Proof.Machine

/-! ### COMMIT (R434) -/

/-- A COMMIT: its first dword and VALUE. -/
structure Commit where
  w : Nat
  value : Nat
  deriving DecidableEq, Repr

/-- STEP. -/
def Commit.step (c : Commit) : Nat := bits c.w 0 9
/-- NPC. -/
def Commit.npc (c : Commit) : Nat := bits c.w 9 6
/-- S. -/
def Commit.s (c : Commit) : Bool := bits c.w 15 1 == 1
/-- KIND. -/
def Commit.kind (c : Commit) : Nat := bits c.w 16 2
/-- The store width in bytes. -/
def Commit.bytes (c : Commit) : Nat := if bits c.w 18 1 = 1 then 8 else 4
/-- REG. -/
def Commit.reg (c : Commit) : Nat := bits c.w 20 4
/-- AREG. -/
def Commit.areg (c : Commit) : Nat := bits c.w 24 4
/-- The reserved bits. -/
def Commit.reserved (c : Commit) : Bool := bits c.w 19 1 != 0 || bits c.w 28 4 != 0

/-- Make a COMMIT. -/
def Commit.make (epoch step npc kind : Nat) (s w64 : Bool) (reg areg value : Nat) : Commit :=
  ⟨step + npc % 64 * 2 ^ 9 + (if s then 2 ^ 15 else 0) + kind * 2 ^ 16 + (if w64 then 2 ^ 18 else 0) + reg * 2 ^ 20
    + areg * 2 ^ 24 + epoch * 2 ^ 32, value⟩

/-! ### Accesses of capsule forms (R450) -/

/-- A checked access of a capsule form, which counts as an atomic; a failure carries its cause as raised. -/
def capAccess (s : State) (e : TEnv) (va : DWord) (size : Nat) (kind : AKind) (mk : MKind) : Eng Tr :=
  match s.check e.b.die e.l.asid va size kind with
  | .error x => .fail (s.noteErr x) ⟨x.cause, 0, va, none⟩
  | .ok t =>
    let a : Acc := ⟨0, va, t.pa, some t⟩
    match s.conflictIn e.agent a size mk with
    | some c => .fail s ⟨0x60#8, mk.inner false, BitVec.ofNat 64 c.1, some c.2⟩
    | none =>
      match s.commitTr e.b.die e.l.asid va kind t with
      | none => .wait
      | some s => .ok ((if bypass t then s else s.l1Evict e.b.runsOn t.pa).atHome e.l t) t

/-- A lock object whose pages have been translated: the address and translation of its first and its last 16 bytes. -/
structure CapObj where
  va : DWord
  lo : Tr
  hi : Tr
  deriving DecidableEq, Repr

/-- The physical address of a byte of the object. -/
def CapObj.pa (o : CapObj) (off : Nat) : Nat :=
  if o.va.toNat % 4096 + off < 4096 then o.lo.pa + off else o.hi.pa + off - 256

/-- A granule of the object on a checked page that conflicts (R235). -/
def CapObj.conflict (o : CapObj) (s : State) (e : TEnv) (off : Nat) : Option (DWord × AgentId) :=
  let t := if o.va.toNat % 4096 + off < 4096 then o.lo else o.hi
  if t.attrs.checked then
    (s.conflict e.agent (o.pa off / 32) .syncWrite).map fun a => (BitVec.ofNat 64 ((o.va.toNat + off) / 32 * 32), a)
  else none

/-- Reach a lock object, whole, to write the listed 16-byte units of it. -/
def openObj (s : State) (e : TEnv) (va : DWord) (units : List Nat) : Eng CapObj :=
  (capAccess s e va 16 .store .syncWrite).andThen fun s lo =>
    let hv := if va.toNat % 4096 + 256 < 4096 then va + 256 else BitVec.ofNat 64 ((va.toNat / 4096 + 1) * 4096)
    (capAccess s e hv 16 .store .syncWrite).andThen fun s t =>
      let hi : Tr := { t with pa := t.pa + (va.toNat + 256 - hv.toNat) }
      let o : CapObj := ⟨va, lo, hi⟩
      match units.findSome? fun u => o.conflict s e (16 * u) with
      | some c => .fail s ⟨0x60#8, 2#8, c.1, some c.2⟩
      | none => .ok ([128, 256].foldl (fun s off => s.l1Evict e.b.runsOn (o.pa off)) s) o

/-- A field of the object. -/
def CapObj.get (o : CapObj) (s : State) (off n : Nat) : Nat := s.mem.num (o.pa off) n
/-- Perform a store of a capsule form, an atomic at .dev (R360, R450). -/
def State.capPut (s : State) (pa : Nat) (bs : List Byte) : State := ({ s with mem := s.mem.put pa bs } : State).watch pa bs.length
/-- Write a field of the object. -/
def CapObj.put (o : CapObj) (s : State) (off n v : Nat) : State := s.capPut (o.pa off) (leBytes n v)
/-- The COMMIT of the object's frame. -/
def CapObj.commit (o : CapObj) (s : State) : Commit := ⟨o.get s 0x10 8, o.get s 0x18 8⟩
/-- CREG of the frame. -/
def CapObj.creg (o : CapObj) (s : State) : List DWord := (List.range 16).map fun r => BitVec.ofNat 64 (o.get s (0x50 + 8 * r) 8)
/-- Dword 0 of a delivery slot. -/
def CapObj.dslot (o : CapObj) (s : State) (k : Nat) : Nat := o.get s (0xD0 + 16 * k) 8

/-- HELD. -/
def lkHeld (w : Nat) : Bool := w % 2 == 1
/-- ADOPTABLE. -/
def lkAdoptable (w : Nat) : Bool := w / 2 % 2 == 1
/-- ADOPTING. -/
def lkAdopting (w : Nat) : Bool := w / 4 % 2 == 1
/-- BROKEN. -/
def lkBroken (w : Nat) : Bool := w / 8 % 2 == 1
/-- EPOCH. -/
def lkEpoch (w : Nat) : Nat := w / 2 ^ 32

/-- The frame is valid (R449). -/
def frameOk (o : CapObj) (s : State) : Bool :=
  let c := o.commit s
  let len := o.get s 0x32 1
  (!lkHeld (o.get s 0 8) || o.get s 0x31 1 == 1 || o.get s 0x31 1 == 2) && 0 < len && len ≤ 64 && o.get s 0x20 8 % 8 == 0
    && c.npc < len && c.step ≤ 256 && !(c.kind == 3 && c.reg == c.areg) && bits (o.get s 0 8) 4 28 == 0 && !c.reserved

/-! ### Applying a COMMIT (R434) -/

/-- Write a capsule register in the executor and in the frame. -/
def putCreg (s : State) (o : CapObj) (c : List DWord) (r : Nat) (v : DWord) : State × List DWord :=
  (o.put s (0x50 + 8 * r) 8 v.toNat, c.set r v)

/-- A store that a COMMIT calls for: where it goes and its bytes. -/
abbrev CapDue := Option (Nat × List Byte)

/-- Perform a store that is due. -/
def State.performDue (s : State) : CapDue → State
  | some d => s.capPut d.1 d.2
  | none => s

/-- The store of a value at the address that a register holds. -/
def capStore (s : State) (e : TEnv) (va : DWord) (n v : Nat) : Eng CapDue :=
  (capAccess s e va n .store .syncWrite).andThen fun s t => .ok s (some (t.pa, leBytes n v))

/-- The pending effect of a COMMIT: the registers, and the store that it calls for. -/
def applyCommit (s : State) (e : TEnv) (o : CapObj) (c : List DWord) (k : Commit) : Eng (List DWord × CapDue) :=
  match k.kind with
  | 0 => .ok s (c, none)
  | 1 => let r := putCreg s o c k.reg (BitVec.ofNat 64 k.value); .ok r.1 (r.2, none)
  | 2 => (capStore s e (c.getD k.areg 0) k.bytes k.value).andThen fun s d => .ok s (c, d)
  | _ =>
    let r := putCreg s o c k.reg (if k.s then 1 else 0)
    if k.s then (capStore r.1 e (r.2.getD k.areg 0) k.bytes k.value).andThen fun s d => .ok s (r.2, d) else .ok r.1 (r.2, none)

/-- The pending effect with its store performed. -/
def applyWhole (s : State) (e : TEnv) (o : CapObj) (c : List DWord) (k : Commit) : Eng (List DWord) :=
  (applyCommit s e o c k).andThen fun s r => .ok (s.performDue r.2) r.1

/-! ### Computing a step (R446, R447) -/

/-- A step's cause of its own. -/
def capFail {α : Type} (s : State) (c : Cause) : Eng α := .fail s ⟨c, 0, 0, none⟩

/-- The value of CAPOP. -/
def capBin (o : CapBin) (a b : DWord) : DWord :=
  match o with
  | .add => a + b
  | .sub => a - b
  | .and => a &&& b
  | .or => a ||| b
  | .xor => a ^^^ b
  | .shl => if b.toNat < 64 then a <<< b.toNat else 0
  | .shr => if b.toNat < 64 then a >>> b.toNat else 0
  | .sar => a.sshiftRight (min b.toNat 64)

/-- The operand b of CAPOP. -/
def capB (c : List DWord) : CapB → DWord
  | .reg r => c.getD r.val 0
  | .imm v => v.signExtend 64

/-- The condition of CAPBR. -/
def capCond (k : CapCond) (a b : DWord) : Bool :=
  match k with
  | .eq => a == b
  | .ne => a != b
  | .lt => a.slt b
  | .ge => !a.slt b
  | .ltu => a.ult b
  | .geu => !a.ult b

/-- The register that a step form names in D, and none elsewhere. -/
def capDest : Instr → Option CReg
  | .capld x => some x.d
  | .capcas x => some x.d
  | .capop (.bin _ d _ _) | .capop (.mov d _) => some d
  | _ => none

/-- The target index of CAPBR: where it lies outside the capsule, none. -/
def capTarget (x : Nat) (disp : BitVec 8) (len : Nat) : Option Nat :=
  let t : Int := x + disp.toInt
  if 0 ≤ t && t < len then some t.toNat else none

/-- The new COMMIT of the step form i at index x; 0xA1 where D names c14 or c15, for a target outside the capsule, and
for a word that is no step form. -/
def capCompute (s : State) (e : TEnv) (i : Instr) (x len : Nat) (c : List DWord) (epoch step : Nat) : Eng Commit :=
  let rd (r : CReg) : DWord := c.getD r.val 0
  let n (w64 : Bool) : Nat := if w64 then 8 else 4
  if (capDest i).any fun d => 14 ≤ d.val then capFail s 0xA1#8
  else
    match i with
    | .capld y =>
      (capAccess s e (rd y.b + y.ofs.signExtend 64) (n y.w64) .load .syncRead).andThen fun s t =>
        .ok s (Commit.make epoch (step + 1) (x + 1) 1 false y.w64 y.d.val 0 (s.mem.num t.pa (n y.w64)))
    | .capst y =>
      (capAccess s e (rd y.b) (n y.w64) .store .syncWrite).andThen fun s _ =>
        .ok s (Commit.make epoch (step + 1) (x + 1) 2 false y.w64 0 y.b.val ((rd y.a).toNat % 2 ^ (8 * n y.w64)))
    | .capcas y =>
      (capAccess s e (rd y.b) (n y.w64) .store .syncWrite).andThen fun s t =>
        let hit := s.mem.num t.pa (n y.w64) == (rd y.c).toNat % 2 ^ (8 * n y.w64)
        .ok s (Commit.make epoch (step + 1) (x + 1) 3 hit y.w64 y.d.val y.b.val (rd y.a).toNat)
    | .capop (.bin o d a b) =>
      .ok s (Commit.make epoch (step + 1) (x + 1) 1 false false d.val 0 (capBin o (rd a) (capB c b)).toNat)
    | .capop (.mov d b) => .ok s (Commit.make epoch (step + 1) (x + 1) 1 false false d.val 0 (capB c b).toNat)
    | .capbr y =>
      let go (disp : BitVec 8) (taken : Bool) : Eng Commit :=
        match capTarget x disp len with
        | none => capFail s 0xA1#8
        | some t => .ok s (Commit.make epoch (step + 1) (if taken then t else x + 1) 0 false false 0 0 0)
      match y with
      | .al disp => go disp true
      | .cond k a b disp => go disp (capCond k (rd a) (rd b))
    | _ => capFail s 0xA1#8

/-! ### A step (R438) -/

/-- Why the adopter has no step form at an index: the fetch fails at an address, or the word does not decode. -/
structure CapBad where
  err : XErr
  addr : DWord
  deriving DecidableEq, Repr

/-- What a step comes to for its executor: displaced; committed with new registers and the next index, and the store that it calls
for; or without a step form to run. -/
inductive CapRun where
  | displaced
  | done (c : List DWord) (npc : Nat) (due : CapDue)
  | bad (x : CapBad)
  deriving DecidableEq, Repr

/-- The lock word after a reclaim by the holder. -/
def reclaim (s : State) (o : CapObj) (e : Nat) (ad : Bool) : State :=
  let w := o.get s 0 8
  if !ad && lkHeld w && lkAdoptable w && !lkAdopting w && lkEpoch w == e then o.put s 0 8 (w - 2) else s

/-- The executor of an epoch holds the lock. -/
def holds (w e : Nat) (ad : Bool) : Bool := lkHeld w && !lkAdoptable w && lkAdopting w == ad && lkEpoch w == e

/-- One step of an executor with registers c: the step form that fetch gives for an index. A holder's step form at index
LEN − 1, where CAPEXIT must stand, raises 0xA1 (R437). -/
def capStep (s : State) (e : TEnv) (o : CapObj) (epoch : Nat) (ad : Bool) (c : List DWord)
    (fetch : Nat → Except CapBad Instr) (at_ : Option Nat) : Eng CapRun :=
  let s := reclaim s o epoch ad
  let held := holds (o.get s 0 8) epoch ad
  if !held && ad then .ok s .displaced
  else if held && at_.any fun x => x + 1 == o.get s 0x32 1 then capFail s 0xA1#8
  else if !frameOk o s then capFail s 0xA2#8
  else if !held then .ok s .displaced
  else
    let k := o.commit s
    (applyWhole s e o c k).andThen fun s c =>
      if k.step = 256 then capFail s 0xA0#8
      else
        let x := at_.getD k.npc
        match fetch x with
        | .error q => .ok s (.bad q)
        | .ok i =>
          (capCompute s e i x (o.get s 0x32 1) c (lkEpoch (o.get s 0 8)) k.step).andThen fun s new =>
            let s := o.put (o.put s 0x10 8 new.w) 0x18 8 new.value
            (applyCommit s e o c new).andThen fun s r => .ok s (.done r.1 new.npc r.2)

/-- A step has committed: its store performs now, or it is due, so that a stop may fall before it (R438); which, is a free value. -/
def State.settleDue (s : State) (due : CapDue) : State × CapDue :=
  if due.isNone then (s, none)
  else if Config.freeBit s.freeCtr then ({ s with freeCtr := s.freeCtr + 1 }, due)
  else ({ s.performDue due with freeCtr := s.freeCtr + 1 }, none)

/-- The units of the object that a step may write: the lock word, COMMIT and CREG. -/
def stepUnits : List Nat := [0, 1, 5, 6, 7, 8, 9, 10, 11, 12]

/-- The seat through which a team makes the accesses of a capsule form (R443): MASK of their faults (R381, R387). -/
def TEnv.capSeat (e : TEnv) : List Nat := ((e.workers always) ++ e.active).take 1

/-- Raise the failure of a capsule form: of an access where it names an address. -/
def capTrap (s : State) (e : TEnv) (w : Susp) : Out :=
  let seats := if w.who.isSome then e.capSeat else e.failMask w.cause e.capSeat
  trapMem s e w.cause w.addr seats w.inner w.who

/-- What a capsule form's work comes to: a failing one leaves the state as it was, but for what the failing walk noted
(R405). -/
def capEnd {α : Type} (s : State) (e : TEnv) (r : Eng α) (k : State → α → Out) : Out :=
  match r with
  | .ok s v => k s v
  | .wait => stall s e
  | .fail s' w => capTrap { s with funcs := s'.funcs, intrs := s'.intrs } e w

/-- The address of the capsule instruction at an index. -/
def capAddr (o : CapObj) (s : State) (x : Nat) : DWord := BitVec.ofNat 64 (o.get s 0x20 8 + 8 * x)

/-- A step form of a team inside a capsule. -/
def holderStep (i : Instr) (s : State) : Out :=
  issueTeam i s fun e =>
    let c := e.t.creg
    let epoch := bitsAt (c.getD 14 0) 0 32
    capEnd s e ((openObj s e (c.getD 15 0) stepUnits).andThen fun s o =>
        (capStep s e o epoch false c (fun _ => .ok i) (some ((e.cur.pc.toNat - o.get s 0x20 8) / 8))).andThen fun s r =>
          .ok s (o, r)) fun s v =>
      match v.2 with
      | .done c npc due =>
        let r := s.settleDue due
        .next (r.1.putTeam e (e.goto { e.t with creg := c, capDue := r.2 } (capAddr v.1 r.1 npc)))
      | _ => .next (s.putTeam e (e.goto e.t (capAddr v.1 s (v.1.get s 0x32 1 - 1))))

/-- CAPLD. -/
def execCapld (x : CapldOp) (s : State) : Out := holderStep (.capld x) s
/-- CAPST. -/
def execCapst (x : CapstOp) (s : State) : Out := holderStep (.capst x) s
/-- CAPCAS. -/
def execCapcas (x : CapcasOp) (s : State) : Out := holderStep (.capcas x) s
/-- CAPOP. -/
def execCapop (x : CapopOp) (s : State) : Out := holderStep (.capop x) s
/-- CAPBR. -/
def execCapbr (x : CapbrOp) (s : State) : Out := holderStep (.capbr x) s

/-! ### CAPEXIT and CAPRES (R444, R445) -/

/-- The delivery slot that bears a holder's epoch. -/
def CapObj.slotOf (o : CapObj) (s : State) (h : Nat) : Option Nat :=
  (List.range 4).find? fun k => bits (o.dslot s k) 32 1 == 1 && bits (o.dslot s k) 0 32 == h

/-- The team leaves its capsule with a result and a status. -/
def leaveCapsule (s : State) (e : TEnv) (r : DWord) (status : DWord) : Out :=
  .next (s.putTeam e (e.goto { e.t with creg := [r, status] ++ List.replicate 14 0, inCap := false } (e.cur.pc + 8)))

/-- A release at .dev by an agent of a core. -/
def State.releaseDev (s : State) (e : TEnv) : State := s.release e.b.runsOn e.agent .dev

/-- CAPEXIT. The holder's CAPEXIT stands at index LEN − 1 of the frame, else 0xA1 (R437); a displaced one finds another
run's frame there, so its index is not checked. -/
def execCapexit (a : CReg) (s : State) : Out :=
  issueTeam (.capexit a) s fun e =>
    let c := e.t.creg
    let epoch := bitsAt (c.getD 14 0) 0 32
    capEnd s e (openObj s e (c.getD 15 0) (List.range 17)) fun s' o =>
      let s1 := reclaim s' o epoch false
      if holds (o.get s1 0 8) epoch false then
        if (e.cur.pc.toNat - o.get s1 0x20 8) / 8 + 1 != o.get s1 0x32 1 then capTrap s e ⟨0xA1#8, 0, 0, none⟩
        else if !frameOk o s1 then capTrap s e ⟨0xA2#8, 0, 0, none⟩
        else
          capEnd s e (applyWhole s1 e o c (o.commit s1)) fun s c =>
            let r := c.getD a.val 0
            let s := o.put (o.put s 0x38 8 r.toNat) 0x31 1 0
            let s := s.releaseDev e
            leaveCapsule (o.put s 0 8 (epoch * 2 ^ 32)) e r 1
      else if !frameOk o s1 then capTrap s e ⟨0xA2#8, 0, 0, none⟩
      else
        match o.slotOf s1 epoch with
        | none => capTrap s e ⟨0xA2#8, 0, 0, none⟩
        | some k =>
          if bits (o.dslot s1 k) 33 1 == 0 then stall s1 e
          else
            let r := BitVec.ofNat 64 (o.get s1 (0xD8 + 16 * k) 8)
            let s := s1.acquire e.b.runsOn .dev
            leaveCapsule (o.put s (0xD0 + 16 * k) 8 0) e r 2

/-- CAPRES. -/
def execCapres (d : VReg) (s : State) : Out :=
  issueTeam (.capres d) s fun e =>
    retire s e (e.each always fun y => (y.wr2 d.val (e.t.creg.getD 0 0)).wr2 (d.val + 2) (e.t.creg.getD 1 0))

/-! ### CAPENTER (R440, R442, R443) -/

/-- The capsule's words lie in one portable region (R437). -/
def capRegionOk (l : Launch) (pc : DWord) (len : Nat) : Bool :=
  match l.region (pc.toNat + 8) with
  | some r => !r.native && pc.toNat + 8 + 8 * len ≤ r.start + r.len
  | none => false

/-- A team enters: the lock word, the frame and the capsule registers of a new run. -/
def enterCapsule (s : State) (e : TEnv) (o : CapObj) (x : CapenterOp) (i : Nat) : Out :=
  let epoch := (lkEpoch (o.get s 0 8) + 1) % 2 ^ 32
  let y := e.t.seat i
  let c : List DWord :=
    [y.rd2 x.a.val, y.rd2 (x.a.val + 2)] ++ List.replicate 12 0 ++ [BitVec.ofNat 64 epoch, o.va]
  let s := s.acquire e.b.runsOn .dev
  let s := o.put s 0 8 (epoch * 2 ^ 32 + 1)
  let s := o.put (o.put s 0x10 8 (epoch * 2 ^ 32)) 0x18 8 0
  let s := o.put s 0x20 8 (e.cur.pc + 8).toNat
  let s := o.put (o.put (o.put s 0x28 4 e.l.id) 0x2C 4 e.b.id) 0x30 1 e.ti
  let s := o.put (o.put (o.put s 0x31 1 1) 0x32 1 (x.len.val + 1)) 0x33 1 0
  let s := o.put s 0x34 4 epoch
  let s := ((List.range 16).zip c).foldl (fun s p => o.put s (0x50 + 8 * p.1) 8 p.2.toNat) s
  .next (s.putTeam e (e.goto { e.t with creg := c, inCap := true, adopt := none } (e.cur.pc + 8)))

/-- An adoption starts: the lock word, STATE, the delivery slot and the adopter's registers (R440). -/
def startAdoption (s : State) (e : TEnv) (o : CapObj) (slot : Option Nat) : Out :=
  let epoch := (lkEpoch (o.get s 0 8) + 1) % 2 ^ 32
  let h := o.get s 0x34 4
  let s := o.put s 0 8 (epoch * 2 ^ 32 + 5)
  let s := s.acquire e.b.runsOn .dev
  let s := o.put s 0x31 1 2
  let s := match slot with
    | some k => o.put s (0xD0 + 16 * k) 8 (h + 2 ^ 32)
    | none => s
  .next (s.putTeam e (e.going { e.t with creg := o.creg s, adopt := some (epoch, o.va) }))

/-- The word of the capsule at an index, as the adopter fetches and decodes it. -/
def fetchStep (s : State) (e : TEnv) (o : CapObj) (x : Nat) : Except CapBad Instr :=
  match s.check e.b.die e.l.asid (capAddr o s x) 8 .fetch with
  | .error q => .error ⟨q, capAddr o s x⟩
  | .ok t => match decode false (s.mem.num t.pa 8) 0 with
    | .error c => .error ⟨.of c, 0⟩
    | .ok i => .ok i

/-- The adopter's CAPENTER raises what kept it from a step form: a failing fetch notes what its walk found (R405, R440). -/
def badStep (s : State) (e : TEnv) (q : CapBad) : Out := trapMem (s.noteErr q.err) e q.err.cause q.addr e.active

/-- The end of an adoption: the result goes to the delivery slot and the frame, and the lock word is free. -/
def endAdoption (s : State) (e : TEnv) (o : CapObj) (c : List DWord) (a : CReg) (epoch : Nat) : Out :=
  let r := c.getD a.val 0
  let s := s.releaseDev e
  let s := match o.slotOf s (o.get s 0x34 4) with
    | some k => o.put (o.put s (0xD8 + 16 * k) 8 r.toNat) (0xD0 + 16 * k) 8 (o.dslot s k % 2 ^ 33 + 2 ^ 33)
    | none => s
  let s := o.put (o.put s 0x38 8 r.toNat) 0x31 1 0
  .next ((o.put s 0 8 (epoch * 2 ^ 32)).putTeam e (e.going { e.t with creg := c, adopt := none }))

/-- One step of the adoption in progress; the adopter's CAPENTER is issued again until the run ends. -/
def adoptStep (s : State) (e : TEnv) (o : CapObj) (epoch : Nat) : Out :=
  let c := (e.t.creg.set 14 (BitVec.ofNat 64 (o.get s 0x34 4))).set 15 o.va
  let ended (s : State) : Out := .next (s.putTeam e (e.going { e.t with adopt := none }))
  if !holds (o.get s 0 8) epoch true then ended s
  else if !frameOk o s then capTrap s e ⟨0xA2#8, 0, 0, none⟩
  else if (o.commit s).npc + 1 = o.get s 0x32 1 then
    capEnd s e (applyWhole s e o c (o.commit s)) fun s' c =>
      match fetchStep s' e o (o.get s' 0x32 1 - 1) with
      | .error q => badStep s e q
      | .ok (.capexit a) => endAdoption s' e o c a epoch
      | .ok _ => capTrap s e ⟨0xA1#8, 0, 0, none⟩
  else
    capEnd s e (capStep s e o epoch true c (fetchStep s e o) none) fun s' r =>
      match r with
      | .displaced => ended s'
      | .bad q => badStep s e q
      | .done c _ due =>
        let r := s'.settleDue due
        .next (r.1.putTeam e (e.going { e.t with creg := c, capDue := r.2 }))

/-- CAPENTER. -/
def execCapenter (x : CapenterOp) (s : State) : Out :=
  issueTeam (.capenter x) s fun e =>
    if 1 < e.t.frags.length then stall s e
    else
      match e.workers always with
      | [] => trap s e 0x03#8
      | i :: _ =>
        capEnd s e (openObj s e ((e.t.seat i).rd2 x.b.val) (List.range 17)) fun s' o =>
          if !capRegionOk e.l e.cur.pc (x.len.val + 1) then trap s e 0xA2#8
          else
            match e.t.adopt with
            | some (epoch, _) => adoptStep s' e o epoch
            | none =>
              let w := o.get s' 0 8
              if lkBroken w then trap s e 0xA2#8
              else if !lkHeld w then enterCapsule s' e o x i
              else if !lkAdoptable w then stall (s'.acquire e.b.runsOn .dev) e
              else if !frameOk o s' then trap s e 0xA2#8
              else
                let h := o.get s' 0x34 4
                match o.slotOf s' h, (List.range 4).find? fun k => bits (o.dslot s' k) 32 1 == 0 with
                | some _, _ => startAdoption s' e o none
                | none, some k => startAdoption s' e o (some k)
                | none, none => stall s' e

end Sys2Proof.Machine
end

