-- ==== Sys2Proof/Machine/Parallel.lean ====
section
/-!
DEFINITION. Machine/Parallel.lean: votes and ballots (R174 to R177), exchanges (R178 to R180), REGROUP and REGATHER
(R181 to R184).
-/
namespace Sys2Proof.Machine

/-! ### Members (R174, R175) -/

/-- A seat names itself in the mask of its member register. -/
def namesSelf (x : Seat) (i : Nat) (mm : VReg) : Bool := (x.rd mm.val).getLsbD (i % 32)

/-- The enabled seats that are no helpers, read their own sweep, and omit themselves from their mask (R175). -/
def TEnv.omitting (e : TEnv) (g : Guard) (mm : Option VReg) (own : Nat → Bool) : List Nat :=
  match mm with
  | none => []
  | some r => (e.workers g).filter fun i => own i && !namesSelf (e.t.seat i) i r

/-- Trap 0x05 for the seats listed (R175, R387). -/
def trapOmit (s : State) (e : TEnv) (bad : List Nat) : Out :=
  .next (takeTrap s e 0x05#8 { e.info 0x05#8 with mask := maskOf bad })

/-- The members that a seat's vote or ballot sees: of sweep q where it has one, and named by its mask where it has one. -/
def TEnv.members (e : TEnv) (g : Guard) (i : Nat) (q : Option Nat) (mm : Option VReg) : List Nat :=
  (e.workers g).filter fun m =>
    (match q with
      | none => true
      | some q => m / 32 == q)
      && (match mm with
        | none => true
        | some r => ((e.t.seat i).rd r.val).getLsbD (m % 32))

/-! ### Votes and ballots (R176, R177) -/

/-- The result of a vote over members. -/
def voteOf (mode : VoteMode) (vs : List Bool) : Bool :=
  match mode with
  | .any => vs.any id
  | .all => vs.all id
  | .uni => vs.all id || vs.all (!·)

/-- The word of a ballot over members. -/
def ballotOf (vs : List (Nat × Bool)) : Word :=
  vs.foldl (fun w p => if p.2 then w ||| BitVec.twoPow 32 (p.1 % 32) else w) 0

/-- VOTE. -/
def execVote (x : VoteOp) (s : State) : Out :=
  issueTeam (.vote x) s fun e =>
    match e.omitting x.g x.mm fun _ => true with
    | [] =>
      retire s e (e.eachIx x.g fun i y =>
        let ms := e.members x.g i (x.mm.map fun _ => i / 32) x.mm
        y.setPred x.pd (voteOf x.mode (ms.map fun m => (e.t.seat m).pred x.pa)))
    | bad => trapOmit s e bad

/-- A ballot of the sweep that q gives each seat. -/
def ballotOp (s : State) (e : TEnv) (g : Guard) (d : VReg) (pa : PReg) (mm : Option VReg) (q : Nat → Seat → Nat) : Out :=
  match e.omitting g mm fun i => q i (e.t.seat i) == i / 32 with
  | [] =>
    retire s e (e.eachIx g fun i y =>
      y.wr d.val (ballotOf ((e.members g i (some (q i y)) mm).map fun m => (m, (e.t.seat m).pred pa))))
  | bad => trapOmit s e bad

/-- BALLOT of the lane's own sweep. -/
def execBallot (x : BallotOp) (s : State) : Out :=
  issueTeam (.ballot x) s fun e => ballotOp s e x.g x.d x.pa x.mm fun i _ => i / 32
/-- BALLOT with a sweep number in B. -/
def execBallotIndexed (x : BallotIxOp) (s : State) : Out :=
  issueTeam (.ballotIndexed x) s fun e => ballotOp s e x.g x.d x.pa x.mm fun _ y => y.cnt x.b

/-! ### Exchanges (R178 to R180) -/

/-- The width of a segment. -/
def segWidth : SwxSeg → Nat
  | .w32 => 32
  | .w16 => 16
  | .w8 => 8
  | .w4 => 4
  | .w2 => 2

/-- The operand b of SWX: signed for .slide, else unsigned. -/
def swxB (x : SwxOp) (y : Seat) : Int :=
  match x.b with
  | .imm v => if x.mode == .slide then v.toInt else v.toNat
  | .reg r => if x.mode == .slide then (y.rd r.val).toInt else (y.rd r.val).toNat

/-- The source seat of SWX for a seat (R179). -/
def swxSource (mode : SwxMode) (w i : Nat) (b : Int) : Option Nat :=
  let sb := i / w * w
  let j := i % w
  match mode with
  | .pick => some (sb + (b.emod w).toNat)
  | .rot => some (sb + ((j + b).emod w).toNat)
  | .flip => some (sb + (j ^^^ b.toNat) % w)
  | .slide => if 0 ≤ j + b && j + b < w then some (i + b).toNat else none

/-- Copy register or pair A of one seat to D of another. -/
def copyFrom (w64 : Bool) (d a : VReg) (y src : Seat) : Seat :=
  if w64 then y.wr2 d.val (src.rd2 a.val) else y.wr d.val (src.rd a.val)

/-- SWX. -/
def execSwx (x : SwxOp) (s : State) : Out :=
  issueTeam (.swx x) s fun e =>
    match e.omitting x.g x.mm fun _ => true with
    | [] =>
      let on := e.enabled x.g
      retire s e (e.eachIx x.g fun i y =>
        let ok (t : Nat) : Bool := on.contains t && (match x.mm with
          | none => true
          | some r => (y.rd r.val).getLsbD (t % 32))
        match swxSource x.mode (segWidth x.seg) i (swxB x y) with
        | some t => copyFrom x.w64 x.d x.a y (if ok t then e.t.seat t else y)
        | none => copyFrom x.w64 x.d x.a y y)
    | bad => trapOmit s e bad

/-- The partner seat of QXCH. -/
def partner (m : QxchMode) (i : Nat) : Nat :=
  match m with
  | .h => i ^^^ 1
  | .v => i ^^^ 2
  | .d => i ^^^ 3

/-- QXCH. -/
def execQxch (x : QxchOp) (s : State) : Out :=
  issueTeam (.qxch x) s fun e =>
    let on := e.enabled x.g
    retire s e (e.eachIx x.g fun i y =>
      let t := partner x.mode i
      copyFrom x.w64 x.d x.a y (if on.contains t then e.t.seat t else y))

/-! ### REGROUP and REGATHER (R181 to R184) -/

/-- A register that a REGROUP or REGATHER mask names. -/
def named (mask : DWord) (r : Nat) : Bool := mask.getLsbD (r / 4)

/-- The registers of a seat after lanes moved: named ones from where its lane was, others its own. -/
def mixRegs (mask : DWord) (own old : List Word) : List Word :=
  own.mapIdx fun r v => if named mask r then old.getD r 0 else v

/-- Seat after seat, the lane that a new order brings, with its named registers. -/
def reseat (t : Team) (order : List Nat) (mask : DWord) : List Seat :=
  order.mapIdx fun i o =>
    let old := t.seat o
    { old with vregs := mixRegs mask (t.seat i).vregs old.vregs }

/-- REGROUP. -/
def regroupOp (s : State) (e : TEnv) (pa : PReg) (mask : DWord) : Out :=
  if 1 < e.t.frags.length then trap s e 0x06#8
  else if e.t.saved.isSome then trap s e 0x03#8
  else if e.t.hearth.ops.any HOp.reading then stall s e
  else
    let keep := e.active.filter fun i => (e.t.seat i).pred pa
    let park := e.active.filter fun i => !(e.t.seat i).pred pa
    let rest := (List.range e.t.seats.length).filter fun i => !e.active.contains i
    let moved := reseat e.t (keep ++ park ++ rest) mask
    let n := keep.length
    let seats := moved.mapIdx fun i y => if n ≤ i && i < n + park.length then { y with st := .parked } else y
    let t := { e.t with seats := seats, saved := some (e.t.seats.map Seat.lane) }
    .next (s.putTeam e (t.arrive e.l e.fi [Frag.at e.cur.fall (maskOf (List.range n))]))

/-- REGATHER. -/
def regatherOp (s : State) (e : TEnv) (mask : DWord) : Out :=
  match e.t.saved with
  | none => trap s e 0x03#8
  | some home =>
    if 1 < e.t.frags.length then trap s e 0x06#8
    else if e.t.hearth.ops.any HOp.reading then stall s e
    else
      let now := e.t.seats.map Seat.lane
      let order := home.map fun l => now.findIdx fun k => k == l
      let seats := (reseat e.t order mask).map fun y => if y.st == .parked then { y with st := .active } else y
      let t := { e.t with seats := seats, saved := none }
      let on := (List.range seats.length).filter fun i => (t.seat i).st == .active
      .next (s.putTeam e (t.arrive e.l e.fi [Frag.at e.cur.fall (maskOf on)]))

/-- REGROUP with the mask in the immediate. -/
def execRegroup (pa : PReg) (imm : BitVec 29) (s : State) : Out :=
  issueTeam (.regroup pa imm) s fun e => regroupOp s e pa (imm.signExtend 64)
/-- REGROUP with the mask in the literal. -/
def execRegroupLit (pa : PReg) (lit : DWord) (s : State) : Out :=
  issueTeam (.regroupLit pa lit) s fun e => regroupOp s e pa lit
/-- REGATHER with the mask in the immediate. -/
def execRegather (imm : BitVec 29) (s : State) : Out :=
  issueTeam (.regather imm) s fun e => regatherOp s e (imm.signExtend 64)
/-- REGATHER with the mask in the literal. -/
def execRegatherLit (lit : DWord) (s : State) : Out :=
  issueTeam (.regatherLit lit) s fun e => regatherOp s e lit

end Sys2Proof.Machine
end

