-- ==== Sys2Proof/Machine/Quant.lean ====
section
/-!
DEFINITION. Machine/Quant.lean: the tile instructions QSCAN, QROT, QSMOOTH and QCVT (R290 to R299).
-/
namespace Sys2Proof.Machine

/-! ### Steps (R292) -/

/-- A place that a step reads or writes: an element of a tile, or the scale of an element's group. -/
inductive TRef where
  | elem (x : Shape) (ct : SlotCt) (i : Ix)
  | scale (x : Shape) (i : Ix)
  deriving DecidableEq, Repr

/-- The level of a place. -/
def TRef.lv : TRef → Level
  | .elem x _ _ | .scale x _ => lvlOf (shLvl x)
/-- The address of a place. -/
def TRef.addr : TRef → Nat
  | .elem x _ i => elemAddr x i
  | .scale x i => scaleAddr x i
/-- The bytes of a place. -/
def TRef.size : TRef → Nat
  | .elem x ct _ => elemBytes x ct
  | .scale _ _ => 2
/-- The bits that bytes hold at a place. -/
def TRef.value (r : TRef) (bs : List Byte) : Nat :=
  match r with
  | .elem x ct i => elemOfBytes x ct i (leNat bs)
  | .scale _ _ => leNat bs
/-- The bytes that hold bits at a place. -/
def TRef.put (r : TRef) (v : Nat) : List Byte :=
  match r with
  | .elem x ct i => bytesOfElem x ct i 0 v
  | .scale _ _ => leBytes 2 v

/-- A step: what it reads, what it writes, and the values written, with flags, from the values read. -/
structure TStep where
  reads : List TRef
  writes : List TRef
  fn : List Nat → List Nat × BitVec 7

/-- The indices of a tile in runs of g along dimension 0, the last of each row possibly shorter, in step order. -/
def runsOf (x : Shape) (g : Nat) : List (List Ix) :=
  (List.range (shExt x 1 * shExt x 2 * shExt x 3)).flatMap fun r =>
    (List.range ((shExt x 0 + g - 1) / g)).map fun j =>
      (List.range (min g (shExt x 0 - j * g))).map fun k => ixOf x (r * shExt x 0 + j * g + k)

/-! ### The accesses of a step (R292, R293) -/

/-- Why a place of a step may not be accessed. -/
structure TFail where
  addr : Nat
  err : XErr
  inner : BitVec 8
  at_ : Nat
  who : Option AgentId
  deriving DecidableEq, Repr

/-- The check of one place, as a plain load or store of the team. -/
def checkRef (s : State) (e : TEnv) (k : Nat) (w : Bool) (r : TRef) : Except TFail Acc :=
  let kind : AKind := if w then .store else .load
  let mk : MKind := if w then .plainStore else .plainLoad
  match checkLane s e r.lv r.size kind k (BitVec.ofNat 64 r.addr) with
  | .error x => .error ⟨r.addr, x, 0, r.addr, none⟩
  | .ok a =>
    match s.conflictIn e.agent a r.size mk with
    | some c => .error ⟨r.addr, .of 0x60#8, mk.inner false, c.1, some c.2⟩
    | none => .ok a

/-- The check of several places: those that pass, and those that fail. -/
def checkRefs (s : State) (e : TEnv) (k : Nat) (w : Bool) : List TRef → List Acc × List TFail
  | [] => ([], [])
  | r :: rs =>
    let q := checkRefs s e k w rs
    match checkRef s e k w r with
    | .ok a => (a :: q.1, q.2)
    | .error x => (q.1, x :: q.2)

/-- The failure at the lowest address. -/
def lowestFail : List TFail → Option TFail
  | [] => none
  | x :: xs => some (xs.foldl (fun a y => if y.addr < a.addr then y else a) x)

/-- Read the places of a step whose accesses are checked, in order. -/
def readRefs (s : State) (e : TEnv) : List (TRef × Acc) → State × List Nat
  | [] => (s, [])
  | p :: ps =>
    let r := readAcc s e p.1.lv p.1.size false p.2
    let q := readRefs r.1 e ps
    (q.1, p.1.value r.2 :: q.2)

/-- Write the places of a step. -/
def writeRefs (s : State) (e : TEnv) (ws : List ((TRef × Acc) × Nat)) : State :=
  ws.foldl (fun s p => writeAcc s e p.1.1.lv (p.1.1.put p.2) false p.1.2) s

/-- Mark the places of a step. -/
def markRefs (s : State) (e : TEnv) (k : MKind) (ps : List (TRef × Acc)) : State :=
  ps.foldl (fun s p => s.markAcc e.agent p.1.size k p.2) s

/-- What a step comes to: done, waiting for the dirty log, or failing. -/
inductive TRun where
  | done (s : State) (fl : BitVec 7)
  | wait (s : State)
  | bad (x : TFail)

/-- One step: every check first, then every read, then every write. -/
def runStep (s : State) (e : TEnv) (k : Nat) (st : TStep) : TRun :=
  let r := checkRefs s e k false st.reads
  let w := checkRefs s e k true st.writes
  match lowestFail (r.2 ++ w.2) with
  | some x => .bad x
  | none =>
    let c1 := commitAll s e.b.die e.l.asid .load r.1
    let c2 := commitAll c1.1 e.b.die e.l.asid .store w.1
    if c1.2 && c2.2 then
      let s := markRefs (markRefs c2.1 e .plainLoad (st.reads.zip r.1)) e .plainStore (st.writes.zip w.1)
      let q := readRefs s e (st.reads.zip r.1)
      let v := st.fn q.2
      .done (writeRefs q.1 e ((st.writes.zip w.1).zip v.1)) v.2
    else .wait c2.1

/-- The step that QPROG counts: one in a turn, so that pre-emption and a stop of the core may fall between two, and the team issues
nothing else until the last is done (R289, R293). A failing step traps, and the completed ones keep their effects. -/
def runNext (s : State) (e : TEnv) (k : Nat) : List TStep → Out
  | [] => retire s e { e.t with qprog := 0 }
  | st :: rest =>
    match runStep s e k st with
    | .done s fl =>
      let t := e.t.raise fl
      if rest.isEmpty then retire s e { t with qprog := 0 }
      else .next (s.putTeam e (e.going { t with qprog := e.t.qprog + 1 }))
    | .wait s => stallTeam s e
    | .bad x => trapMem (s.noteErr x.err) e x.err.cause (BitVec.ofNat 64 x.at_) (if x.who.isSome then [k] else e.failMask x.err.cause [k])
        x.inner x.who

/-! ### Issue (R290, R291) -/

/-- A shape whose tile, and whose scale table, a tile instruction uses. -/
structure TSpan where
  sh : Shape
  tile : Bool
  scales : Bool

/-- Condition 4 of R291 for one shape. -/
def TSpan.cause (l : Launch) (ct : SlotCt) (x : TSpan) : Option CauseAt :=
  (if x.tile then spanCause l x.sh (elemBytes x.sh ct) else none) <|> (if x.scales then scaleSpanCause l x.sh else none)

/-- Issue a tile instruction: the election, the checks of R291, then the step that QPROG counts. Shapes, and what it uses of them, are
named in the order source, destination, factors. QROT and QSMOOTH use no slot, so no block holds them (R339, R349). -/
def tileOp (i : Instr) (s : State) (g : Guard) (shapes : List ShReg) (own : (ShReg → Shape) → Bool)
    (spans : (ShReg → Shape) → List TSpan) (steps : TEnv → Nat → (Shape → SlotCt) → (ShReg → Shape) → List TStep) : Out :=
  issueTeam i s fun e =>
    elect s e g fun k =>
      let xs := shapes.map e.t.shape
      let ct (x : Shape) : SlotCt := (s.shapeBinding e.l.asid x).map Binding.ct
      if (slotOf i).isSome && xs.any (s.shapeBlocked e.l.asid) then stall s e
      else
        match s.shapesCause e.l.fn e.l.asid xs with
        | some c => trap s e c
        | none =>
          if xs.any (fun x => shLvl x == 1) || !own e.t.shape then trap s e 0x83#8
          else
            match (spans e.t.shape).findSome? fun x => x.cause e.l (ct x.sh) with
            | some c => trapAt s e c
            | none => runNext s e k ((steps e k ct e.t.shape).drop e.t.qprog.toNat)

/-- A shape of an FMT with no scales. -/
def plainFmt (x : Shape) (fmt : Nat) : Bool := shFmt x == fmt && shGrp x == 0
/-- A shape of FP32, FP16 or BF16 with no scales. -/
def plainFloat (x : Shape) : Bool := (slotFloat (shFmt x)).isSome && shGrp x == 0
/-- A shape of a logical slot. -/
def ofSlot (x : Shape) (k : Fin 8) : Bool := shSlot x == some k.val

/-! ### QSCAN (R295) -/

/-- OF. -/
def flOF : BitVec 7 := 4

/-- The least S16 code whose value is at least num/den in units of 2^-133, which may lie beyond the finite codes. -/
def s16Up (num den : Nat) : Nat :=
  let q := (num + den - 1) / den
  let k := bitLength q - 8
  k * 128 + (num + den * 2 ^ k - 1) / (den * 2 ^ k)

/-- The greatest magnitude among finite values of a sign, in units of 2^-149. -/
def greatestMag (neg : Bool) (vs : List FVal) : Nat :=
  vs.foldl (fun a v => match v with
    | .fin s m e => if s == neg then max a (m * 2 ^ (e + 149).toNat) else a
    | _ => a) 0

/-- The scale of a group of values for the greatest and least values of a slot, in units of 2^-79, with its flags. -/
def scanGroup (hi lo : Int) (vs : List FVal) : FRes :=
  let iv := vs.any fun v => match v with
    | .inf _ => true
    | .nan g => g
    | _ => false
  let bad := vs.any fun v => match v with
    | .fin _ _ _ => false
    | _ => true
  if bad then (0x7FC0, if iv then flIV else 0)
  else
    let p := if 0 < hi then s16Up (greatestMag false vs * 2 ^ 63) hi.toNat else 0
    let n := if lo < 0 then s16Up (greatestMag true vs * 2 ^ 63) (-lo).toNat else 0
    if 0x7F7F < max p n then (0x7F7F, flOF) else (max p n, 0)

/-- The greatest and least values of a slot. -/
def slotRange : SlotCt → Int × Int
  | some c => ((greatest c.candidates).2, (least c.candidates).2)
  | none => (0, 0)

/-- The steps of QSCAN. -/
def scanSteps (a d : Shape) (ct : SlotCt) : List TStep :=
  let f := (slotFloat (shFmt a)).getD fmtF32
  (runsOf d (shGrp d)).map fun is =>
    { reads := is.map fun i => .elem a none i
      writes := (is.take 1).map fun i => .scale d i
      fn := fun vs =>
        let r := scanGroup (slotRange ct).1 (slotRange ct).2 (vs.map f.unpack)
        ([r.1], r.2) }

/-- QSCAN. -/
def execQscan (x : QOp) (s : State) : Out :=
  tileOp (.qscan x) s x.g [x.a, x.d]
    (fun sh => plainFloat (sh x.a) && ofSlot (sh x.d) x.k && shGrp (sh x.d) != 0 && sameExt (sh x.a) (sh x.d))
    (fun sh => [⟨sh x.a, true, false⟩, ⟨sh x.d, false, true⟩])
    fun _ _ ct sh => scanSteps (sh x.a) (sh x.d) (ct (sh x.d))

/-! ### QROT (R296, R297) -/

/-- The rotation group's elements. -/
def rotLen : RotSz → Nat
  | .g32 => 32
  | .g64 => 64
  | .g128 => 128

/-- One stage of the transform: v[j] and v[j + h] for each j whose bit h is 0. -/
def rotStage (h : Nat) (v : List FRes) : List FRes :=
  let at_ (j : Nat) : FRes := v.getD j (0, 0)
  (List.range v.length).map fun j =>
    if j / h % 2 = 0 then
      let r := fmtF32.add .rn false (at_ j).1 (at_ (j + h)).1
      (r.1, (at_ j).2 ||| (at_ (j + h)).2 ||| r.2)
    else
      let r := fmtF32.sub .rn false (at_ (j - h)).1 (at_ j).1
      (r.1, (at_ (j - h)).2 ||| (at_ j).2 ||| r.2)

/-- The stages h = 1, 2, 4, … below the group's length. -/
def rotStages (n : Nat) : List Nat := ((List.range 7).map fun k => 2 ^ k).filter fun h => h < n

/-- The rotation of a group with a sign mask: the elements and the flags. -/
def rotGroup (n mask : Nat) (vs : List Nat) : List Nat × BitVec 7 :=
  let v : List FRes := (List.range n).map fun j =>
    let x := vs.getD j 0
    (if mask.testBit j then x ^^^ 2 ^ 31 else x, 0)
  let r := (rotStages n).foldl (fun v h => rotStage h v) v
  (r.map Prod.fst, r.foldl (fun f x => f ||| x.2) 0)

/-- The steps of QROT. -/
def rotSteps (a d : Shape) (n mask : Nat) : List TStep :=
  (runsOf a n).map fun is =>
    { reads := is.map fun i => .elem a none i
      writes := is.map fun i => .elem d none i
      fn := rotGroup n mask }

/-- The mask of QROT in the elected lane. -/
def rotMask (x : QrotOp) (y : Seat) : Nat :=
  match x.gs with
  | .g32 => (y.rd x.b.val).toNat
  | .g64 => (y.rd2 x.b.val).toNat
  | .g128 => (y.rd4 x.b.val).toNat

/-- QROT. -/
def execQrot (x : QrotOp) (s : State) : Out :=
  tileOp (.qrot x) s x.g [x.a, x.d]
    (fun sh => plainFmt (sh x.a) 0x07 && plainFmt (sh x.d) 0x07 && sameExt (sh x.a) (sh x.d)
      && shExt (sh x.a) 0 % rotLen x.gs == 0)
    (fun sh => [⟨sh x.a, true, false⟩, ⟨sh x.d, true, false⟩])
    fun e k _ sh => rotSteps (sh x.a) (sh x.d) (rotLen x.gs) (rotMask x (e.t.seat k))

/-! ### QSMOOTH (R298) -/

/-- Products of elements and factors, pair by pair. -/
def smoothRun (vs : List Nat) : List Nat × BitVec 7 :=
  let n := vs.length / 2
  let r := (vs.take n).zipWith (fun a b => fmtF32.mul .rn false a b) (vs.drop n)
  (r.map Prod.fst, r.foldl (fun f x => f ||| x.2) 0)

/-- The steps of QSMOOTH. -/
def smoothSteps (a b d : Shape) : List TStep :=
  (runsOf a 32).map fun is =>
    { reads := is.map (fun i => .elem a none i) ++ is.map fun i => .elem b none ⟨i.i0, 0, 0, 0⟩
      writes := is.map fun i => .elem d none i
      fn := smoothRun }

/-- QSMOOTH. -/
def execQsmooth (x : QsmOp) (s : State) : Out :=
  tileOp (.qsmooth x) s x.g [x.a, x.d, x.b]
    (fun sh => plainFmt (sh x.a) 0x07 && plainFmt (sh x.d) 0x07 && plainFmt (sh x.b) 0x07 && sameExt (sh x.a) (sh x.d)
      && shExt (sh x.b) 0 == shExt (sh x.a) 0 && shExt (sh x.b) 1 == 1 && shExt (sh x.b) 2 == 1 && shExt (sh x.b) 3 == 1)
    (fun sh => [⟨sh x.a, true, false⟩, ⟨sh x.d, true, false⟩, ⟨sh x.b, true, false⟩])
    fun _ _ _ sh => smoothSteps (sh x.a) (sh x.b) (sh x.d)

/-! ### QCVT (R299) -/

/-- The elements of a run converted, with the scale last among the values read where there is one. -/
def cvtRun (f : Nat → Nat → FRes) (n : Nat) (vs : List Nat) : List Nat × BitVec 7 :=
  let sc := vs.getD n s16One
  let r := (vs.take n).map fun v => f v sc
  (r.map Prod.fst, r.foldl (fun f x => f ||| x.2) 0)

/-- The steps of QCVT between a source and a destination, one of them of a slot. -/
def cvtSteps (a d : Shape) (ct : Shape → SlotCt) : List TStep :=
  let enc := (shSlot d).isSome
  let sl := if enc then d else a
  let one (v sc : Nat) : FRes :=
    match ct sl with
    | none => (0, 0)
    | some c =>
      if enc then c.encode (((slotFloat (shFmt a)).getD fmtF32).unpack v) sc
      else c.decodeTo v sc ((slotFloat (shFmt d)).getD fmtF32)
  (runsOf sl (if shGrp sl = 0 then 32 else shGrp sl)).map fun is =>
    { reads := is.map (fun i => .elem a (ct a) i) ++ (if shGrp sl = 0 then [] else (is.take 1).map fun i => .scale sl i)
      writes := is.map fun i => .elem d (ct d) i
      fn := cvtRun one is.length }

/-- QCVT. -/
def execQcvt (x : QOp) (s : State) : Out :=
  tileOp (.qcvt x) s x.g [x.a, x.d]
    (fun sh => sameExt (sh x.a) (sh x.d)
      && ((plainFloat (sh x.a) && ofSlot (sh x.d) x.k) || (ofSlot (sh x.a) x.k && plainFloat (sh x.d))))
    (fun sh => [sh x.a, sh x.d].map fun y => ⟨y, true, (shSlot y).isSome && shGrp y != 0⟩)
    fun _ _ ct sh => cvtSteps (sh x.a) (sh x.d) ct

end Sys2Proof.Machine
end

