-- ==== Sys2Proof/Machine/Registers.lean ====
section
/-!
DEFINITION. Machine/Registers.lean: what the host reads at each offset of a function's BAR (R10, R208, R209, R357, R363, R390,
R404, R405, R413, R414, R416, R429, R474, R477, R484), and the two reads that act on the machine.
-/
namespace Sys2Proof.Machine

/-- A bit of a register, in place. -/
def bitIn (b : Bool) (n : Nat) : DWord := if b then BitVec.ofNat 64 (2 ^ n) else 0

/-- TLBSTAT of a function: BUSY (R413). -/
def Func.tlbstat (f : Func) : DWord := bitIn (!f.tlbq.isEmpty) 0

/-- DLCTL of a function: IRQ, FULL and EN (R414). -/
def Func.dlctl (f : Func) : DWord := bitIn f.dlIrq 2 ||| bitIn f.logFull 1 ||| bitIn f.dlEn 0

/-- CTXSTAT: the status of the last command, or BUSY while one is in progress (R416). -/
def State.ctxstatNow (s : State) : DWord := if s.ctxcmd.isSome then 1 else s.ctxstat

/-- PEERRT of a device: UP and WLEN follow the port (R477). -/
def State.peerrtNow (s : State) (k : Nat) : DWord :=
  Regs.get s.peerrt k ||| BitVec.ofNat 64 (s.peerLen k % 2 ^ 33 * 2 ^ 20) ||| bitIn (s.peerUp k) 63

/-- ASIDCTL as a function reads it: 0 for an address space that it does not own, but for the physical function (R404). -/
def State.asidctlOf (s : State) (fn a : Nat) : DWord :=
  let v := Regs.get s.asidctl a
  if fn != 0 && bitsAt v 1 6 != fn then 0 else v

/-- The registers of every function (R357, R390, R404, R413); the write-only ones, QCREATE, QCTL, NOTIFY, RESUME, TERM and
TLBINV, read 0 (R10). -/
def State.ownRead (s : State) (f : Func) (off : Nat) : Option DWord :=
  if off = 0x50008 then some f.qresult
  else if off = 0x70010 then some (bitIn f.dstop 0)
  else if off = 0x70018 then some f.lerr
  else if off = 0x70020 then some f.resumel
  else if off = 0x88000 then some f.tlbinva
  else if off = 0x88010 then some f.tlbstat
  else
    match regIx off 0x70100 8 4, regIx off 0x80000 8 4096, regIx off 0x180000 8 65536 with
    | some i, _, _ => some (f.hwbp.getD i 0)
    | _, some a, _ => some (s.asidctlOf f.id a)
    | _, _, some q => some (s.qstat f.id q)
    | none, none, none => none

/-- The registers that only the physical function reaches, one per function (R357, R405, R414, R429). -/
def State.byFunctionRead (s : State) (off : Nat) : Option DWord :=
  let reg (base stride n : Nat) (g : Func → DWord) : Option DWord :=
    (regIx off base stride n).bind fun k => (s.func k).map g
  (regIx off 0x50200 8 64).bind (fun k => if k = 0 then none else (s.func k).map Func.qrange)
    <|> reg 0x90000 8 64 Func.s2ctl <|> reg 0x90400 8 64 Func.shctl <|> reg 0x92000 8 64 Func.s2fault
    <|> reg 0x93000 32 64 Func.dlbase <|> reg 0x93008 32 64 Func.dlend <|> reg 0x93010 32 64 Func.dlptr
    <|> reg 0x93018 32 64 Func.dlctl
    <|> (regIx off 0x94000 8 256).bind fun k => (s.func (k / 4)).map fun f => f.fenv.getD (k % 4) 0

/-- The other registers of the physical function (R208, R209, R363, R416, R477); CTXCMD, which is WO, reads 0. -/
def State.deviceRead (s : State) (off : Nat) : Option DWord :=
  if off = 0xA0000 then some s.ctxaddr
  else if off = 0xA0008 then some s.ctxlen
  else if off = 0xA0010 then some s.ctxmap
  else if off = 0xA0018 then some s.ctxq
  else if off = 0xA0028 then some s.ctxstatNow
  else if off = 0xB0000 then some s.mydev
  else
    (regIx off 0x40000 8 16).map (fun k => s.acmask.getD k 0)
      <|> (regIx off 0x40100 8 64).map (fun k => BitVec.ofNat 64 (s.l2Lines (k / 16) (k % 16)))
      <|> (regIx off 0x50100 8 4).map (fun c => BitVec.ofNat 64 (s.classmin.getD c 0))
      <|> (regIx off 0xB0100 8 64).map s.peerrtNow
      <|> (regIx off 0xB0400 8 64).map (Regs.get s.pwbase)
      <|> (regIx off 0xB0600 8 64).map (Regs.get s.pwlen)

/-- What a read of a function at an offset of its BAR returns. Before READY only the registers of R484 respond, to the physical
function; a virtual function reads 0 at an offset of a register that it does not reach (R474); every other offset reads 0. -/
def State.regRead (s : State) (fn off : Nat) : DWord :=
  let early : Option DWord := if s.linkUp && fn == 0 then s.earlyRead off else none
  match early with
  | some v => v
  | none =>
    if !s.responds fn then 0
    else
      match s.func fn with
      | none => 0
      | some f =>
        match s.ownRead f off with
        | some v => v
        | none => if fn != 0 then 0 else (s.byFunctionRead off <|> s.deviceRead off).getD 0

/-- A read by the host: what it returns is all that it leaves. With BUSY 0, TLBSTAT and CTXSTAT are an acquire at .sys of the
host, which has nothing in the device to invalidate (R413, R416, R475). -/
def State.hostRead (s : State) (fn off : Nat) : State := { s with mmio := s.regRead fn off }

/-- CTXSTAT_READ. -/
def execCtxstatRead (s : State) : Out := .next (s.hostRead 0 0xA0028)

/-- TLBSTAT_READ. -/
def execTlbstatRead (fn : Nat) (s : State) : Out := .next (s.hostRead fn 0x88010)

end Sys2Proof.Machine
end

