-- ==== Sys2Proof/Machine/Dispatch.lean ====
section
/-!
DEFINITION. Machine/Dispatch.lean: the meaning of each instruction, one arm for each constructor of Instr.
-/
namespace Sys2Proof.Machine

/-- The meaning of an instruction. -/
def exec (i : Instr) (s : State) : Host.Outcome State Fault Refusal :=
  match i with
  | .add x => Sys2Proof.Machine.execAdd x s
  | .sub x => Sys2Proof.Machine.execSub x s
  | .mul x => Sys2Proof.Machine.execMul x s
  | .mulhi x => Sys2Proof.Machine.execMulhi x s
  | .mad x => Sys2Proof.Machine.execMad x s
  | .min x => Sys2Proof.Machine.execMin x s
  | .max x => Sys2Proof.Machine.execMax x s
  | .div x => Sys2Proof.Machine.execDiv x s
  | .rem x => Sys2Proof.Machine.execRem x s
  | .abs x => Sys2Proof.Machine.execAbs x s
  | .neg x => Sys2Proof.Machine.execNeg x s
  | .addImm x => Sys2Proof.Machine.execAddImm x s
  | .subImm x => Sys2Proof.Machine.execSubImm x s
  | .mulImm x => Sys2Proof.Machine.execMulImm x s
  | .minImm x => Sys2Proof.Machine.execMinImm x s
  | .maxImm x => Sys2Proof.Machine.execMaxImm x s
  | .addLit x => Sys2Proof.Machine.execAddLit x s
  | .subLit x => Sys2Proof.Machine.execSubLit x s
  | .mulLit x => Sys2Proof.Machine.execMulLit x s
  | .mulhiLit x => Sys2Proof.Machine.execMulhiLit x s
  | .minLit x => Sys2Proof.Machine.execMinLit x s
  | .maxLit x => Sys2Proof.Machine.execMaxLit x s
  | .divLit x => Sys2Proof.Machine.execDivLit x s
  | .remLit x => Sys2Proof.Machine.execRemLit x s
  | .and x => Sys2Proof.Machine.execAnd x s
  | .or x => Sys2Proof.Machine.execOr x s
  | .xor x => Sys2Proof.Machine.execXor x s
  | .andn x => Sys2Proof.Machine.execAndn x s
  | .not x => Sys2Proof.Machine.execNot x s
  | .shl x => Sys2Proof.Machine.execShl x s
  | .shr x => Sys2Proof.Machine.execShr x s
  | .sar x => Sys2Proof.Machine.execSar x s
  | .rot x => Sys2Proof.Machine.execRot x s
  | .andImm x => Sys2Proof.Machine.execAndImm x s
  | .orImm x => Sys2Proof.Machine.execOrImm x s
  | .xorImm x => Sys2Proof.Machine.execXorImm x s
  | .andnImm x => Sys2Proof.Machine.execAndnImm x s
  | .shlImm x => Sys2Proof.Machine.execShlImm x s
  | .shrImm x => Sys2Proof.Machine.execShrImm x s
  | .sarImm x => Sys2Proof.Machine.execSarImm x s
  | .rotImm x => Sys2Proof.Machine.execRotImm x s
  | .andLit x => Sys2Proof.Machine.execAndLit x s
  | .orLit x => Sys2Proof.Machine.execOrLit x s
  | .xorLit x => Sys2Proof.Machine.execXorLit x s
  | .andnLit x => Sys2Proof.Machine.execAndnLit x s
  | .shlLit x => Sys2Proof.Machine.execShlLit x s
  | .shrLit x => Sys2Proof.Machine.execShrLit x s
  | .sarLit x => Sys2Proof.Machine.execSarLit x s
  | .rotLit x => Sys2Proof.Machine.execRotLit x s
  | .popc x => Sys2Proof.Machine.execPopc x s
  | .clz x => Sys2Proof.Machine.execClz x s
  | .brev x => Sys2Proof.Machine.execBrev x s
  | .bfe x => Sys2Proof.Machine.execBfe x s
  | .bfi x => Sys2Proof.Machine.execBfi x s
  | .setp x => Sys2Proof.Machine.execSetp x s
  | .setpImm x => Sys2Proof.Machine.execSetpImm x s
  | .setpLit x => Sys2Proof.Machine.execSetpLit x s
  | .pand x => Sys2Proof.Machine.execPand x s
  | .por x => Sys2Proof.Machine.execPor x s
  | .pxor x => Sys2Proof.Machine.execPxor x s
  | .pnot x => Sys2Proof.Machine.execPnot x s
  | .sel x => Sys2Proof.Machine.execSel x s
  | .mov x => Sys2Proof.Machine.execMov x s
  | .movi x => Sys2Proof.Machine.execMovi x s
  | .movl x => Sys2Proof.Machine.execMovl x s
  | .lea x => Sys2Proof.Machine.execLea x s
  | .fadd x => Sys2Proof.Machine.execFadd x s
  | .fsub x => Sys2Proof.Machine.execFsub x s
  | .fmul x => Sys2Proof.Machine.execFmul x s
  | .ffma x => Sys2Proof.Machine.execFfma x s
  | .fdiv x => Sys2Proof.Machine.execFdiv x s
  | .fsqrt x => Sys2Proof.Machine.execFsqrt x s
  | .frcp x => Sys2Proof.Machine.execFrcp x s
  | .frsq x => Sys2Proof.Machine.execFrsq x s
  | .fexp2 x => Sys2Proof.Machine.execFexp2 x s
  | .flog2 x => Sys2Proof.Machine.execFlog2 x s
  | .fmin x => Sys2Proof.Machine.execFmin x s
  | .fmax x => Sys2Proof.Machine.execFmax x s
  | .fabs x => Sys2Proof.Machine.execFabs x s
  | .fneg x => Sys2Proof.Machine.execFneg x s
  | .fsgn x => Sys2Proof.Machine.execFsgn x s
  | .fclass x => Sys2Proof.Machine.execFclass x s
  | .faddLit x => Sys2Proof.Machine.execFaddLit x s
  | .fsubLit x => Sys2Proof.Machine.execFsubLit x s
  | .fmulLit x => Sys2Proof.Machine.execFmulLit x s
  | .fdivLit x => Sys2Proof.Machine.execFdivLit x s
  | .fminLit x => Sys2Proof.Machine.execFminLit x s
  | .fmaxLit x => Sys2Proof.Machine.execFmaxLit x s
  | .fsetp x => Sys2Proof.Machine.execFsetp x s
  | .fsetpLit x => Sys2Proof.Machine.execFsetpLit x s
  | .faddF64 x => Sys2Proof.Machine.execFaddF64 x s
  | .fsubF64 x => Sys2Proof.Machine.execFsubF64 x s
  | .fmulF64 x => Sys2Proof.Machine.execFmulF64 x s
  | .ffmaF64 x => Sys2Proof.Machine.execFfmaF64 x s
  | .fdivF64 x => Sys2Proof.Machine.execFdivF64 x s
  | .fsqrtF64 x => Sys2Proof.Machine.execFsqrtF64 x s
  | .fminF64 x => Sys2Proof.Machine.execFminF64 x s
  | .fmaxF64 x => Sys2Proof.Machine.execFmaxF64 x s
  | .faddF64Lit x => Sys2Proof.Machine.execFaddF64Lit x s
  | .fsubF64Lit x => Sys2Proof.Machine.execFsubF64Lit x s
  | .fmulF64Lit x => Sys2Proof.Machine.execFmulF64Lit x s
  | .fdivF64Lit x => Sys2Proof.Machine.execFdivF64Lit x s
  | .fminF64Lit x => Sys2Proof.Machine.execFminF64Lit x s
  | .fmaxF64Lit x => Sys2Proof.Machine.execFmaxF64Lit x s
  | .fsetpF64 x => Sys2Proof.Machine.execFsetpF64 x s
  | .fsetpF64Lit x => Sys2Proof.Machine.execFsetpF64Lit x s
  | .cvt x => Sys2Proof.Machine.execCvt x s
  | .cvtPackInt4 x => Sys2Proof.Machine.execCvtPackInt4 x s
  | .cvtUnpackInt4 x => Sys2Proof.Machine.execCvtUnpackInt4 x s
  | .ld x => Sys2Proof.Machine.execLd x s
  | .st x => Sys2Proof.Machine.execSt x s
  | .ldLevel x => Sys2Proof.Machine.execLdLevel x s
  | .stLevel x => Sys2Proof.Machine.execStLevel x s
  | .atom x => Sys2Proof.Machine.execAtom x s
  | .bra x => Sys2Proof.Machine.execBra x s
  | .brx x => Sys2Proof.Machine.execBrx x s
  | .nop x => Sys2Proof.Machine.execNop x s
  | .srd x => Sys2Proof.Machine.execSrd x s
  | .swr x => Sys2Proof.Machine.execSwr x s
  | .bru imm => Sys2Proof.Machine.execBru imm s
  | .dqpop d => Sys2Proof.Machine.execDqpop d s
  | .call x => Sys2Proof.Machine.execCall x s
  | .ret x => Sys2Proof.Machine.execRet x s
  | .exit x => Sys2Proof.Machine.execExit x s
  | .vote x => Sys2Proof.Machine.execVote x s
  | .ballot x => Sys2Proof.Machine.execBallot x s
  | .ballotIndexed x => Sys2Proof.Machine.execBallotIndexed x s
  | .swx x => Sys2Proof.Machine.execSwx x s
  | .qxch x => Sys2Proof.Machine.execQxch x s
  | .regroup pa imm => Sys2Proof.Machine.execRegroup pa imm s
  | .regroupLit pa lit => Sys2Proof.Machine.execRegroupLit pa lit s
  | .regather imm => Sys2Proof.Machine.execRegather imm s
  | .regatherLit lit => Sys2Proof.Machine.execRegatherLit lit s
  | .sadd x => Sys2Proof.Machine.execSadd x s
  | .ssub x => Sys2Proof.Machine.execSsub x s
  | .smul x => Sys2Proof.Machine.execSmul x s
  | .sand x => Sys2Proof.Machine.execSand x s
  | .sor x => Sys2Proof.Machine.execSor x s
  | .sxor x => Sys2Proof.Machine.execSxor x s
  | .sshl x => Sys2Proof.Machine.execSshl x s
  | .sshr x => Sys2Proof.Machine.execSshr x s
  | .ssar x => Sys2Proof.Machine.execSsar x s
  | .smov d a => Sys2Proof.Machine.execSmov d a s
  | .ssel x => Sys2Proof.Machine.execSsel x s
  | .saddImm x => Sys2Proof.Machine.execSaddImm x s
  | .ssubImm x => Sys2Proof.Machine.execSsubImm x s
  | .smulImm x => Sys2Proof.Machine.execSmulImm x s
  | .sandImm x => Sys2Proof.Machine.execSandImm x s
  | .sorImm x => Sys2Proof.Machine.execSorImm x s
  | .sxorImm x => Sys2Proof.Machine.execSxorImm x s
  | .sshlImm x => Sys2Proof.Machine.execSshlImm x s
  | .sshrImm x => Sys2Proof.Machine.execSshrImm x s
  | .ssarImm x => Sys2Proof.Machine.execSsarImm x s
  | .smovi d imm => Sys2Proof.Machine.execSmovi d imm s
  | .saddLit x => Sys2Proof.Machine.execSaddLit x s
  | .ssubLit x => Sys2Proof.Machine.execSsubLit x s
  | .smulLit x => Sys2Proof.Machine.execSmulLit x s
  | .sandLit x => Sys2Proof.Machine.execSandLit x s
  | .sorLit x => Sys2Proof.Machine.execSorLit x s
  | .sxorLit x => Sys2Proof.Machine.execSxorLit x s
  | .sshlLit x => Sys2Proof.Machine.execSshlLit x s
  | .sshrLit x => Sys2Proof.Machine.execSshrLit x s
  | .ssarLit x => Sys2Proof.Machine.execSsarLit x s
  | .smovl d lit => Sys2Proof.Machine.execSmovl d lit s
  | .scmp x => Sys2Proof.Machine.execScmp x s
  | .scmpImm x => Sys2Proof.Machine.execScmpImm x s
  | .sld x => Sys2Proof.Machine.execSld x s
  | .sst x => Sys2Proof.Machine.execSst x s
  | .satom x => Sys2Proof.Machine.execSatom x s
  | .sbra imm => Sys2Proof.Machine.execSbra imm s
  | .sbz x => Sys2Proof.Machine.execSbz x s
  | .sbnz x => Sys2Proof.Machine.execSbnz x s
  | .scall x => Sys2Proof.Machine.execScall x s
  | .sret a => Sys2Proof.Machine.execSret a s
  | .sexit => Sys2Proof.Machine.execSexit s
  | .sfence x => Sys2Proof.Machine.execSfence x s
  | .dqpush a => Sys2Proof.Machine.execDqpush a s
  | .fmbind x => Sys2Proof.Machine.execFmbind x s
  | .fmswap x => Sys2Proof.Machine.execFmswap x s
  | .fmquery d k => Sys2Proof.Machine.execFmquery d k s
  | .plaunch a => Sys2Proof.Machine.execPlaunch a s
  | .pcancel a => Sys2Proof.Machine.execPcancel a s
  | .prepeat a => Sys2Proof.Machine.execPrepeat a s
  | .fence x => Sys2Proof.Machine.execFence x s
  | .bar x => Sys2Proof.Machine.execBar x s
  | .barArv x => Sys2Proof.Machine.execBarArv x s
  | .boarr x => Sys2Proof.Machine.execBoarr x s
  | .bowait x => Sys2Proof.Machine.execBowait x s
  | .tlwait x => Sys2Proof.Machine.execTlwait x s
  | .shld x => Sys2Proof.Machine.execShld x s
  | .shst x => Sys2Proof.Machine.execShst x s
  | .shset x => Sys2Proof.Machine.execShset x s
  | .cpy x => Sys2Proof.Machine.execCpy x s
  | .cpyHalo x => Sys2Proof.Machine.execCpyHalo x s
  | .cpyRed x => Sys2Proof.Machine.execCpyRed x s
  | .cbatch d => Sys2Proof.Machine.execCbatch d s
  | .cwait x => Sys2Proof.Machine.execCwait x s
  | .qscan x => Sys2Proof.Machine.execQscan x s
  | .qrot x => Sys2Proof.Machine.execQrot x s
  | .qsmooth x => Sys2Proof.Machine.execQsmooth x s
  | .qcvt x => Sys2Proof.Machine.execQcvt x s
  | .xcvtEncode x => Sys2Proof.Machine.execXcvtEncode x s
  | .xcvtDecode x => Sys2Proof.Machine.execXcvtDecode x s
  | .mopen x => Sys2Proof.Machine.execMopen x s
  | .mclose x => Sys2Proof.Machine.execMclose x s
  | .mma x => Sys2Proof.Machine.execMma x s
  | .mdist x => Sys2Proof.Machine.execMdist x s
  | .mtopk x => Sys2Proof.Machine.execMtopk x s
  | .mwait x => Sys2Proof.Machine.execMwait x s
  | .mwaitAll sc => Sys2Proof.Machine.execMwaitAll sc s
  | .capenter x => Sys2Proof.Machine.execCapenter x s
  | .capexit a => Sys2Proof.Machine.execCapexit a s
  | .capres d => Sys2Proof.Machine.execCapres d s
  | .capld x => Sys2Proof.Machine.execCapld x s
  | .capst x => Sys2Proof.Machine.execCapst x s
  | .capcas x => Sys2Proof.Machine.execCapcas x s
  | .capop x => Sys2Proof.Machine.execCapop x s
  | .capbr x => Sys2Proof.Machine.execCapbr x s
  | .solveBegin x => Sys2Proof.Machine.execSolveBegin x s
  | .solveEnd x => Sys2Proof.Machine.execSolveEnd x s
  | .solveSet x => Sys2Proof.Machine.execSolveSet x s
  | .solveStat x => Sys2Proof.Machine.execSolveStat x s
  | .trap x => Sys2Proof.Machine.execTrap x s
  | .tfence => Sys2Proof.Machine.execTfence s
  | .clrf mask => Sys2Proof.Machine.execClrf mask s
  | .brk => Sys2Proof.Machine.execBrk s
  | .featq x => Sys2Proof.Machine.execFeatq x s
  | .hardwareBreakpoint => Sys2Proof.Machine.execHardwareBreakpoint s
  | .singleStepTrap => Sys2Proof.Machine.execSingleStepTrap s
  | .trapRecordWrite k => Sys2Proof.Machine.execTrapRecordWrite k s
  | .starvationLift l b t f long => Sys2Proof.Machine.execStarvationLift l b t f long s
  | .joinParkRelease l b t f => Sys2Proof.Machine.execJoinParkRelease l b t f s
  | .foyerStarvationLift l b => Sys2Proof.Machine.execFoyerStarvationLift l b s
  | .safePointMove l b t => Sys2Proof.Machine.execSafePointMove l b t s
  | .translationInstall l x => Sys2Proof.Machine.execTranslationInstall l x s
  | .translationUninstall l => Sys2Proof.Machine.execTranslationUninstall l s
  | .hostLinkTrain => Sys2Proof.Machine.execHostLinkTrain s
  | .powerOnReset => Sys2Proof.Machine.execPowerOnReset s
  | .cxlReset => Sys2Proof.Machine.execCxlReset s
  | .thermalTrip => Sys2Proof.Machine.execThermalTrip s
  | .supplyFault => Sys2Proof.Machine.execSupplyFault s
  | .auxSupplyLoss => Sys2Proof.Machine.execAuxSupplyLoss s
  | .bootVerify => Sys2Proof.Machine.execBootVerify s
  | .firmwareWatchdogReset => Sys2Proof.Machine.execFirmwareWatchdogReset s
  | .watchdogCountClear => Sys2Proof.Machine.execWatchdogCountClear s
  | .rcvcmd v => Sys2Proof.Machine.execRcvcmd v s
  | .firmwareMailboxUpdate addr => Sys2Proof.Machine.execFirmwareMailboxUpdate addr s
  | .spdmRequest ix => Sys2Proof.Machine.execSpdmRequest ix s
  | .keyEnrol fn key => Sys2Proof.Machine.execKeyEnrol fn key s
  | .keyRemove fn ix => Sys2Proof.Machine.execKeyRemove fn ix s
  | .registerWrite fn off v => Sys2Proof.Machine.execRegisterWrite fn off v s
  | .qcreate fn v => Sys2Proof.Machine.execQcreate fn v s
  | .qcreateAdopt v => Sys2Proof.Machine.execQcreateAdopt v s
  | .qctlResume fn q => Sys2Proof.Machine.execQctlResume fn q s
  | .qctlHalt fn q => Sys2Proof.Machine.execQctlHalt fn q s
  | .qctlDestroy fn q => Sys2Proof.Machine.execQctlDestroy fn q s
  | .queueDestroyEffect q => Sys2Proof.Machine.execQueueDestroyEffect q s
  | .notify fn q v => Sys2Proof.Machine.execNotify fn q v s
  | .classmin c v => Sys2Proof.Machine.execClassmin c v s
  | .porchMap => Sys2Proof.Machine.execPorchMap s
  | .parserReadWidx q => Sys2Proof.Machine.execParserReadWidx q s
  | .packetConsume q => Sys2Proof.Machine.execPacketConsume q s
  | .nopPacket k => Sys2Proof.Machine.execNopPacket k s
  | .launch k => Sys2Proof.Machine.execLaunch k s
  | .blockResident l die cluster core => Sys2Proof.Machine.execBlockResident l die cluster core s
  | .blockComplete l b => Sys2Proof.Machine.execBlockComplete l b s
  | .launchComplete l => Sys2Proof.Machine.execLaunchComplete l s
  | .launchInd k => Sys2Proof.Machine.execLaunchInd k s
  | .prologueRepeat k => Sys2Proof.Machine.execPrologueRepeat k s
  | .fencePacket k => Sys2Proof.Machine.execFencePacket k s
  | .fencePacketComplete k => Sys2Proof.Machine.execFencePacketComplete k s
  | .signal k => Sys2Proof.Machine.execSignal k s
  | .timeline k => Sys2Proof.Machine.execTimeline k s
  | .copyPacket k => Sys2Proof.Machine.execCopyPacket k s
  | .format k => Sys2Proof.Machine.execFormat k s
  | .graph k => Sys2Proof.Machine.execGraph k s
  | .graphInstanceComplete k => Sys2Proof.Machine.execGraphInstanceComplete k s
  | .bulkPacket q => Sys2Proof.Machine.execBulkPacket q s
  | .bulkRecordWrite q => Sys2Proof.Machine.execBulkRecordWrite q s
  | .bulkPacketFault q => Sys2Proof.Machine.execBulkPacketFault q s
  | .copyComplete l b t batch pos => Sys2Proof.Machine.execCopyComplete l b t batch pos s
  | .copySuspend l b t batch pos => Sys2Proof.Machine.execCopySuspend l b t batch pos s
  | .hearthGrant => Sys2Proof.Machine.execHearthGrant s
  | .mopenCellsAvailable l b t n => Sys2Proof.Machine.execMopenCellsAvailable l b t n s
  | .hearthPass l b t n => Sys2Proof.Machine.execHearthPass l b t n s
  | .hearthOpComplete l b t n => Sys2Proof.Machine.execHearthOpComplete l b t n s
  | .hearthEngineFault l b t n => Sys2Proof.Machine.execHearthEngineFault l b t n s
  | .fmRequest fn => Sys2Proof.Machine.execFmRequest fn s
  | .fmDrainEnd fn => Sys2Proof.Machine.execFmDrainEnd fn s
  | .fmReconfigDone fn => Sys2Proof.Machine.execFmReconfigDone fn s
  | .solveActivationCopy l b => Sys2Proof.Machine.execSolveActivationCopy l b s
  | .solveEvaluation l b => Sys2Proof.Machine.execSolveEvaluation l b s
  | .solveDecision l b => Sys2Proof.Machine.execSolveDecision l b s
  | .solveEngineFault l b => Sys2Proof.Machine.execSolveEngineFault l b s
  | .resume fn v => Sys2Proof.Machine.execResume fn v s
  | .term fn v => Sys2Proof.Machine.execTerm fn v s
  | .ctxStop l => Sys2Proof.Machine.execCtxStop l s
  | .ctxEvict l => Sys2Proof.Machine.execCtxEvict l s
  | .ctxResume l => Sys2Proof.Machine.execCtxResume l s
  | .ctxDetach l => Sys2Proof.Machine.execCtxDetach l s
  | .ctxRestore => Sys2Proof.Machine.execCtxRestore s
  | .ctxQuiesce fn => Sys2Proof.Machine.execCtxQuiesce fn s
  | .ctxstatRead => Sys2Proof.Machine.execCtxstatRead s
  | .tlbInvPage fn asid => Sys2Proof.Machine.execTlbInvPage fn asid s
  | .tlbInvAsid fn asid => Sys2Proof.Machine.execTlbInvAsid fn asid s
  | .tlbInvFunc fn => Sys2Proof.Machine.execTlbInvFunc fn s
  | .tlbstatRead fn => Sys2Proof.Machine.execTlbstatRead fn s
  | .dirtyLogRearm v isEnd x => Sys2Proof.Machine.execDirtyLogRearm v isEnd x s
  | .peerPortTrained port dev wlen => Sys2Proof.Machine.execPeerPortTrained port dev wlen s
  | .peerWindowWrite dev isLen v => Sys2Proof.Machine.execPeerWindowWrite dev isLen v s
  | .peerPortTimeout port => Sys2Proof.Machine.execPeerPortTimeout port s
  | .flitReplay port => Sys2Proof.Machine.execFlitReplay port s
  | .inboundPeerAccess dev o acc => Sys2Proof.Machine.execInboundPeerAccess dev o acc s
  | .hostMemoryAccess pa acc => Sys2Proof.Machine.execHostMemoryAccess pa acc s
  | .illegalInstruction c => Sys2Proof.Machine.execIllegalInstruction c s
  | .instructionFetchFault c addr => Sys2Proof.Machine.execInstructionFetchFault c addr s
  | .resultWriteBack l b t k => Sys2Proof.Machine.execResultWriteBack l b t k s
  | .parserPoll q => Sys2Proof.Machine.execParserPoll q s
  | .tlbInvalidationComplete fn => Sys2Proof.Machine.execTlbInvalidationComplete fn s
  | .peerPortLoss port => Sys2Proof.Machine.execPeerPortLoss port s
  | .recoveryComplete => Sys2Proof.Machine.execRecoveryComplete s
  | .functionLevelReset fn => Sys2Proof.Machine.execFunctionLevelReset fn s
  | .functionCreate fn => Sys2Proof.Machine.execFunctionCreate fn s
  | .cxlCacheSnoop line inv => Sys2Proof.Machine.execCxlCacheSnoop line inv s

end Sys2Proof.Machine
end

