-- ==== Sys2Proof/Machine/Schedule.lean ====
section
/-!
DEFINITION. Machine/Schedule.lean: which agent or event moves next where the agenda names none (DESIGN CHOICE,
notes/assumptions/1), what the turn of an agent runs, and what follows it.
-/
namespace Sys2Proof.Machine

/-! ### What a turn runs -/

/-- What must follow the instruction of a turn. -/
inductive After where
  | event
  | team (x : Issue)
  | foyer (x : FIssue)
  deriving DecidableEq, Repr

/-- What a turn comes to: a state in which the agent still waits, the answer of an event's meaning, or an instruction of
Instr run on a state; a breakpoint stands before it where it is about to issue, that is where it would not merely wait (R162, R400). -/
inductive Plan where
  | done (s : State)
  | out (o : Out)
  | run (i : Instr) (s : State) (k : After)
  | breakAt (i : Instr) (s : State) (k : After) (bp : Out)

/-- An agent of a launch may run (R369, R392, R417). -/
def Launch.runs (l : Launch) : Bool := l.st == .running

/-- The parked fragment that 1,024 backward branches release (R153). -/
def Team.toRelease (t : Team) : Option Nat :=
  ((List.range t.frags.length).zip t.frags).find? (fun p => p.2.parked && 1024 ≤ p.2.bec) |>.map Prod.fst

/-- SBWAIT of a schedule field meets a scoreboard that is set (R59). -/
def sbWaits (f : BitVec 21) (sb : BitVec 4) : Bool :=
  (List.range 3).any fun k => f.getLsbD (18 + k) && sb.getLsbD (k + 1)

/-- Mark a fragment as waiting (R152). -/
def Team.waiting (t : Team) (fi : Nat) : Team := { t with frags := t.frags.modify fi fun f => { f with stalled := true } }

/-- Fragments of a team whose operands may be pending at this tick (R152). -/
def State.late (s : State) (l b t : Nat) (k : Nat) (f : Frag) : Bool := f.late s.tick l b t k

/-- An instruction to run, behind a breakpoint where one stands. -/
def Plan.behind (bp : Option Out) (i : Instr) (s : State) (k : After) : Plan :=
  match bp with
  | some o => .breakAt i s k o
  | none => .run i s k

/-- The turn of a team's fragment: the store of a committed capsule step that is due comes first (R438). -/
def planTeam (s : State) (ln : Launch) (bk : Block) (t : Nat) (tm : Team) (f : Option Nat) : Plan :=
  if tm.capDue.isSome then .out (.next ((s.performDue tm.capDue).updTeam ln.id bk.id t fun x => { x with capDue := none }))
  else
  match tm.toRelease with
  | some k => .out (execJoinParkRelease ln.id bk.id t k s)
  | none =>
    match tm.chosen (s.late ln.id bk.id t) f s.tick with
    | none => .done s
    | some fi =>
      match tm.frags[fi]? with
      | none => .done s
      | some fr =>
        let at_ (w : Nat) (lit : DWord) (sc : Option (BitVec 21)) (fall : DWord) : Cur :=
          ⟨.team ln.id bk.id t fi, fr.pc, BitVec.ofNat 64 w, lit, sc, fall⟩
        if tm.stepDone then .out (execSingleStepTrap { s with cur := some (at_ 0 0 none fr.pc) })
        else if (ln.moveTo false fr.pc).isSome && tm.frags.length == 1 && fr.chain.isNone then
          (if tm.written then .out (execSafePointMove ln.id bk.id (some t) s)
          else .done (s.updTeam ln.id bk.id t fun x => x.waiting fi))
        else
          let bp := s.hwbpAt ln.fn false fr.pc && fr.skip != some fr.pc
          match s.fetch ln (some bk.runsOn.die) fr.pc with
          | .bad c a =>
            let s := { s.commitFetch (some bk.runsOn.die) ln.asid fr.pc with cur := some (at_ 0 0 none fr.pc) }
            .out (if bp then execHardwareBreakpoint s else execInstructionFetchFault c a s)
          | .word w lit sc pk fall =>
            let s := { s.commitCode ln (some bk.runsOn.die) fr.pc w with cur := some (at_ w lit sc fall) }
            match ln.decodeAt false fr.pc pk w lit with
            | .error e => .out (if bp then execHardwareBreakpoint s else execIllegalInstruction e s)
            | .ok i =>
              let c := at_ w lit sc fall
              let stop : Option Out := if bp then some (execHardwareBreakpoint s) else none
              match (if ln.honoured fr.pc then sc else none) with
              | none => Plan.behind stop i s (.team ⟨ln.id, bk.id, t, tm, fi, fr, c, i, none, tm⟩)
              | some k =>
                if sbWaits k tm.sb then .done (s.updTeam ln.id bk.id t fun x => x.waiting fi)
                else
                  let tm := tm.met k
                  let ls := latched k fr.chain (sources i)
                  let seen := (tm.reading s.freeCtr i ls).withLatches ls
                  Plan.behind stop i ({ s with freeCtr := s.freeCtr + 1 }.updTeam ln.id bk.id t fun _ => seen)
                    (.team ⟨ln.id, bk.id, t, tm, fi, fr, c, i, some k, seen⟩)

/-- The turn of a Foyer context. -/
def planFoyer (s : State) (ln : Launch) (bk : Block) (fy : Foyer) : Plan :=
  let at_ (w : Nat) (lit : DWord) (sc : Option (BitVec 21)) (fall : DWord) : Cur :=
    ⟨.foyer ln.id bk.id, fy.pc, BitVec.ofNat 64 w, lit, sc, fall⟩
  let put (s : State) (g : Foyer → Foyer) : State := s.updBlock ln.id bk.id fun b => { b with foyer := g b.foyer }
  if fy.stepDone then .out (execSingleStepTrap { s with cur := some (at_ 0 0 none fy.pc) })
  else if (ln.moveTo true fy.pc).isSome && fy.chain.isNone then
    (if fy.pend.isEmpty then .out (execSafePointMove ln.id bk.id none s)
    else .done (put s fun g => { g with stalled := true }))
  else
    let bp := s.hwbpAt ln.fn true fy.pc && fy.skip != some fy.pc
    match s.fetch ln (some bk.runsOn.die) fy.pc with
    | .bad c a =>
      let s := { s.commitFetch (some bk.runsOn.die) ln.asid fy.pc with cur := some (at_ 0 0 none fy.pc) }
      .out (if bp then execHardwareBreakpoint s else execInstructionFetchFault c a s)
    | .word w lit sc pk fall =>
      let s := { s.commitCode ln (some bk.runsOn.die) fy.pc w with cur := some (at_ w lit sc fall) }
      match ln.decodeAt true fy.pc pk w lit with
      | .error e => .out (if bp then execHardwareBreakpoint s else execIllegalInstruction e s)
      | .ok i =>
        let c := at_ w lit sc fall
        let stop : Option Out := if bp then some (execHardwareBreakpoint s) else none
        match (if ln.honoured fy.pc then sc else none) with
        | none => Plan.behind stop i s (.foyer ⟨ln.id, bk.id, fy, c, i, none, fy⟩)
        | some k =>
          if sbWaits k fy.sb then .done (put s fun g => { g with stalled := true })
          else
            let fy := fy.met k
            let ls := slatched k fy.chain (ssources i)
            let seen := (fy.reading s.freeCtr i ls).withLatches ls
            Plan.behind stop i (put { s with freeCtr := s.freeCtr + 1 } fun _ => seen)
              (.foyer ⟨ln.id, bk.id, fy, c, i, some k, seen⟩)

/-- The turn of a prologue run: portable Foyer words fetched by the Porch (R374). -/
def planPrologue (s : State) (k : Nat) : Plan :=
  match s.prologues.find? (fun p => p.key == k), s.pkt k with
  | some p, some pk =>
    if !p.active || pk.st != .started then .done s
    else
      let prog := fieldAt pk.bytes 8 8
      let asid := match s.queue pk.queue with
        | some q => q.asid
        | none => 0
      let at_ (w : Nat) (lit : DWord) (fall : DWord) : State :=
        { s.commitWords none asid p.pc (p.pc + 8) w with cur := some ⟨.prologue k, p.pc, BitVec.ofNat 64 w, lit, none, fall⟩ }
      if p.pc.toNat < prog || prog + 2048 ≤ p.pc.toNat then
        .out (execIllegalInstruction 0x01#8 { s with cur := some ⟨.prologue k, p.pc, 0, 0, none, p.pc⟩ })
      else
        match s.fetchWord none asid p.pc with
        | .error c => .out (execInstructionFetchFault c p.pc (at_ 0 0 p.pc))
        | .ok w =>
          if isLiteralOp (Fields.ofWord w).op then
            match s.fetchWord none asid (p.pc + 8) with
            | .error c => .out (execInstructionFetchFault c (p.pc + 8) (at_ w 0 p.pc))
            | .ok lit =>
              match decode true w (BitVec.ofNat 64 lit) with
              | .error e => .out (execIllegalInstruction e (at_ w (BitVec.ofNat 64 lit) (p.pc + 16)))
              | .ok i => .run i (at_ w (BitVec.ofNat 64 lit) (p.pc + 16)) .event
          else
            match decode true w 0 with
            | .error e => .out (execIllegalInstruction e (at_ w 0 (p.pc + 8)))
            | .ok i => .run i (at_ w 0 (p.pc + 8)) .event
  | _, _ => .done s

/-! ### Which agents may issue (R63, R154, R158, R382, R383) -/

/-- The running launches, with their blocks. -/
def State.running (s : State) : List (Launch × Block) := (s.launches.filter Launch.runs).flatMap fun l => l.blocks.map fun b => (l, b)

/-- A team may issue at all: neither parked nor exited; a debug stop, and the stop of its core for a record, let an open chain run to its
end (R382, R383). -/
def State.teamOn (s : State) (b : Block) (t : Team) : Bool :=
  t.parked.isNone && !t.exited && (t.chained || (!t.stop && (s.coreStop b.runsOn).isNone))

/-- The same for a block's Foyer context. -/
def State.foyerOn (s : State) (b : Block) : Bool :=
  b.foyer.parked.isNone && !b.foyer.sexit && (b.foyer.chain.isSome || (!b.foyer.stop && (s.coreStop b.runsOn).isNone))

/-- A team, or a Foyer context, that is ready to issue: its launch, block and %team, its class and age, and how long it has waited and
been lifted. -/
structure Cand where
  l : Nat
  b : Nat
  t : Nat
  prio : Nat
  age : Nat
  lift : Lift
  since : Nat
  deriving DecidableEq, Repr

/-- Of two that starvation has lifted alike, the longest-waiting comes first; of two that it has not, none does. -/
def Cand.waits (x y : Cand) (k : Lift) : Option Bool :=
  let a := x.lift == k
  let b := y.lift == k
  if a && b && x.since != y.since then some (x.since < y.since) else if a != b then some a else none

/-- The order of rules 1 to 4 of R154. -/
def Cand.before (x y : Cand) : Bool :=
  match x.waits y .waited16384 with
  | some r => r
  | none =>
    if x.prio != y.prio then x.prio < y.prio
    else match x.waits y .waited1024 with
      | some r => r
      | none =>
        if x.age != y.age then x.age < y.age
        else x.l < y.l || (x.l == y.l && (x.b < y.b || (x.b == y.b && x.t < y.t)))

/-- The order of R158: a context that starvation has lifted comes first, whatever its class; then class, then the oldest block. -/
def Cand.foyerBefore (x y : Cand) : Bool :=
  match x.waits y .waited1024 with
  | some r => r
  | none => x.before y

/-- The candidate that comes first. -/
def firstCand (before : Cand → Cand → Bool) : List Cand → Option Cand
  | [] => none
  | x :: xs => some (xs.foldl (fun a y => if before y a then y else a) x)

/-- A team as a candidate, where a fragment of it may issue or leaves the parked state. -/
def State.cand (s : State) (l : Launch) (b : Block) (k : Nat) (t : Team) : Option Cand :=
  let c (lift : Lift) (since : Nat) : Cand := ⟨l.id, b.id, k, l.prio, b.age, lift, since⟩
  if !s.teamOn b t then none
  else if t.capDue.isSome || t.toRelease.isSome then some (c .none s.tick)
  else ((t.next (s.late l.id b.id k)).bind fun i => t.frags[i]?).map fun f => c f.lift f.since

/-- The candidates of a core's teams, those of open chains apart. -/
def State.cands (s : State) (u : Unit3) (chained : Bool) : List Cand :=
  (s.running.filter fun p => p.2.runsOn == u).flatMap fun p =>
    ((List.range p.2.teams.length).zip p.2.teams).filterMap fun q =>
      if q.2.chained == chained then s.cand p.1 p.2 q.1 q.2 else none

/-- The teams of a core that hold an issue port by an open chain (R63). -/
def State.portsHeld (s : State) (u : Unit3) : Nat :=
  ((s.running.filter fun p => p.2.runsOn == u).flatMap fun p => p.2.teams.filter fun t => t.parked.isNone && t.chained).length

/-- The first candidates, as many as there are ports. -/
def firstCands (n : Nat) (cs : List Cand) : List Cand :=
  match n, firstCand Cand.before cs with
  | 0, _ | _, none => []
  | n + 1, some x => x :: firstCands n (cs.filter fun y => y != x)

/-- The teams from which a core's two issue ports may issue: one with an open chain on each port that such a chain holds, and on the
others the first in the order of R154. -/
def State.coreCands (s : State) (u : Unit3) : List Cand :=
  s.cands u true ++ firstCands (2 - s.portsHeld u) (s.cands u false)

/-- The context from which a core's Foyer unit may issue (R65, R158). -/
def State.foyerCand (s : State) (u : Unit3) : Option Cand :=
  let here := s.running.filter fun p => p.2.runsOn == u && p.2.foyer.parked.isNone
  let open_ := here.filter fun p => p.2.foyer.chain.isSome
  firstCand Cand.foyerBefore ((if open_.isEmpty then here else open_).filterMap fun p =>
    let f := p.2.foyer
    if !s.foyerOn p.2 || f.stalled || (f.since != 0 && f.lift == .none && Config.late s.tick p.1.id p.2.id 8 0) then none
    else some ⟨p.1.id, p.2.id, 0, p.1.prio, p.2.age, f.lift, f.since⟩)

/-- A team may take its turn: as one from which its core issues, or, where none of its fragments is ready, to try one again. -/
def State.mayIssue (s : State) (l : Launch) (b : Block) (k : Nat) (t : Team) : Bool :=
  s.teamOn b t && ((s.coreCands b.runsOn).any (fun x => x.l == l.id && x.b == b.id && x.t == k) || (s.cand l b k t).isNone)

/-- The same for a Foyer context. -/
def State.mayIssueFoyer (s : State) (l : Launch) (b : Block) : Bool :=
  s.foyerOn b && ((s.foyerCand b.runsOn).any (fun x => x.l == l.id && x.b == b.id) || b.foyer.stalled)

/-- What a turn comes to; no agent runs before READY (R484). -/
def planTurn (s : State) (t : Turn) : Plan :=
  match t with
  | .event i => .run i { s with cur := none } .event
  | .prologue k => if s.boot == .ready then planPrologue s k else .done s
  | .foyer l b =>
    match s.launch l with
    | none => .done s
    | some ln =>
      match ln.block b with
      | none => .done s
      | some bk => if s.boot == .ready && ln.runs && s.mayIssueFoyer ln bk then planFoyer s ln bk bk.foyer else .done s
  | .team l b t f =>
    match s.launch l with
    | none => .done s
    | some ln =>
      match ln.block b with
      | none => .done s
      | some bk =>
        match bk.teams[t]? with
        | none => .done s
        | some tm => if s.boot == .ready && ln.runs && s.mayIssue ln bk t tm then planTeam s ln bk t tm f else .done s

/-! ### The turn taken where the agenda names none -/

/-- A thing that may happen next. -/
abbrev Job := State → Plan

/-- An event of its own meaning. -/
def jobOf (f : State → Out) : Job := fun s => .out (f s)

/-- Start-up goes on (R488, R489). -/
def bootJobs (s : State) : List Job :=
  (if s.boot == .rom || s.boot == .verifying then [jobOf execBootVerify] else [])
    ++ (if s.recovering then [jobOf execRecoveryComplete] else [])

/-- The turns of the agents that may issue, with the tick from which each has been ready. -/
def agentTurns (s : State) : List (Nat × Turn) :=
  ((s.running.map fun p => p.2.runsOn).eraseDups.flatMap fun u =>
    (s.coreCands u).map (fun x => (x.since, .team x.l x.b x.t none))
      ++ (s.foyerCand u).toList.map fun x => (x.since, .foyer x.l x.b))

/-- Of the agents that may issue, the one that has been ready longest (R155, R158). -/
def oldestTurn (s : State) : Option Turn :=
  match agentTurns s with
  | [] => none
  | x :: xs => some (xs.foldl (fun (a : Nat × Turn) y => if y.1 < a.1 then y else a) x).2

/-- Agents issue: the teams of each core, the Foyer contexts, the runs of prologues. -/
def agentJobs (s : State) : List Job :=
  ((agentTurns s).map Prod.snd ++ (s.prologues.filter Prologue.active).map fun p => Turn.prologue p.key).map fun t s => planTurn s t

/-- A lift of which a fragment or context has waited long enough, and which it does not have yet (R154, R158). -/
def liftJob (s : State) : Option Job :=
  let need (p : Launch × Block) : List Job :=
    (if !p.2.foyer.stalled && p.2.foyer.lift == .none && s.waited p.2.foyer.since 1024 then
        [jobOf (execFoyerStarvationLift p.1.id p.2.id)] else [])
      ++ ((List.range p.2.teams.length).zip p.2.teams).flatMap fun q =>
        ((List.range q.2.frags.length).zip q.2.frags).filterMap fun r =>
          if r.2.lift != .waited16384 && s.ready r.2 16384 then some (jobOf (execStarvationLift p.1.id p.2.id q.1 r.1 true))
          else if r.2.lift == .none && s.ready r.2 1024 then some (jobOf (execStarvationLift p.1.id p.2.id q.1 r.1 false))
          else none
  s.running.findSome? fun p => (need p).head?

/-- The engines of a team work (R256, R330). -/
def engineJobs (l b t : Nat) (x : Team) : List Job :=
  (if x.pend.isEmpty then [] else [jobOf (execResultWriteBack l b (some t) 0)])
    ++ (match x.copy.ops.find? fun o => !o.done && o.susp.isNone && o.batch != 0 with
        | some o => [jobOf (execCopyComplete l b t o.batch o.pos), jobOf (execCopySuspend l b t o.batch o.pos)]
        | none => [])
    ++ (match x.hearth.ops.find? fun o => o.susp.isNone with
        | some o => [jobOf (execMopenCellsAvailable l b t o.num), jobOf (execHearthPass l b t o.num),
            jobOf (execHearthOpComplete l b t o.num), jobOf (execHearthEngineFault l b t o.num)]
        | none => [])

/-- What happens in a block. -/
def blockJobs (l : Launch) (b : Block) : List Job :=
  (if b.foyer.pend.isEmpty then [] else [jobOf (execResultWriteBack l.id b.id none 0)])
    ++ (if b.solve.tiles.isEmpty && b.solve.phase == .idle then []
        else [jobOf (execSolveActivationCopy l.id b.id), jobOf (execSolveEvaluation l.id b.id), jobOf (execSolveDecision l.id b.id),
          jobOf (execSolveEngineFault l.id b.id)])
    ++ (((List.range b.teams.length).zip b.teams).flatMap fun q => engineJobs l.id b.id q.1 q.2)
    ++ (if b.over then [jobOf (execBlockComplete l.id b.id)] else [])

/-- The core proposed for a launch's next block: its pin, or each core in turn. -/
def proposal (l : Launch) (tick : Nat) : Unit3 := l.pin.getD ⟨tick % 4, tick / 4 % 36, tick / 144 % 4⟩

/-- What happens to a launch. -/
def launchJobs (s : State) (l : Launch) : List Job :=
  let u := proposal l s.tick
  (if l.nextB < l.nblk && (l.st == .waiting || l.st == .running) then [jobOf (execBlockResident l.id u.die u.cluster u.core)] else [])
    ++ (if l.runs then l.blocks.flatMap (blockJobs l) else [])
    ++ (if l.st == .ended || (l.blocks.isEmpty && l.nblk ≤ l.nextB) then [jobOf (execLaunchComplete l.id)] else [])

/-- What happens to a started packet, by its TYPE. -/
def packetJobs (p : Pkt) : List Job :=
  match pkBits p.bytes 0 8 with
  | 0 => [jobOf (execNopPacket p.key)]
  | 1 => [jobOf (execLaunch p.key)]
  | 2 => [jobOf (execLaunchInd p.key), jobOf (execPrologueRepeat p.key)]
  | 3 => [jobOf (execCopyPacket p.key)]
  | 4 => [jobOf (execFencePacket p.key), jobOf (execFencePacketComplete p.key)]
  | 5 => [jobOf (execSignal p.key)]
  | 6 => [jobOf (execTimeline p.key)]
  | 7 => [jobOf (execGraph p.key), jobOf (execGraphInstanceComplete p.key)]
  | _ => [jobOf (execFormat p.key)]

/-- What the Porch does for a queue. -/
def queueJobs (q : Queue) : List Job :=
  (if q.destroy then [jobOf (execQueueDestroyEffect q.id)] else [])
    ++ (if q.mapped && !q.halted then
          [jobOf (execParserReadWidx q.id), jobOf (execPacketConsume q.id), jobOf (execParserPoll q.id)] else [])
    ++ (if q.bulk then [jobOf (execBulkPacket q.id), jobOf (execBulkRecordWrite q.id), jobOf (execBulkPacketFault q.id)] else [])

/-- The format manager and TLB invalidations of a function. -/
def functionJobs (f : Func) : List Job :=
  (if f.stream.reqs.isEmpty then []
    else [jobOf (execFmRequest f.id), jobOf (execFmDrainEnd f.id), jobOf (execFmReconfigDone f.id)])
    ++ (if f.tlbq.isEmpty then [] else [jobOf (execTlbInvalidationComplete f.id)])

/-- The command of CTXCMD that is in progress. -/
def contextJobs (s : State) : List Job :=
  match s.ctxcmd with
  | some (1, l) => [jobOf (execCtxStop l)]
  | some (2, l) => [jobOf (execCtxEvict l)]
  | some (5, _) => [jobOf execCtxRestore]
  | some (6, fn) => [jobOf (execCtxQuiesce fn)]
  | _ => []

/-- Everything that may happen next of itself. -/
def State.jobs (s : State) : List Job :=
  if s.boot != .ready then bootJobs s
  else
    ((s.records.filter fun r => r.ix.isNone).map fun r => jobOf (execTrapRecordWrite r.id))
      ++ contextJobs s ++ agentJobs s
      ++ (s.launches.flatMap (launchJobs s))
      ++ (if s.running.isEmpty then [] else [jobOf execHearthGrant])
      ++ (s.funcs.flatMap functionJobs)
      ++ (if s.queues.isEmpty then [] else [jobOf execPorchMap])
      ++ (s.queues.flatMap queueJobs) ++ (s.pkts.flatMap packetJobs)

/-- One of several: which, is a free value; the second term spreads the choices where the free values are all one. -/
def oneOf (js : List Job) (k : Nat) : Option Job := js[(Config.freeNat k + k * 0x9E3779B1 / 2 ^ 16) % js.length]?

/-- The turn taken where the agenda names none: a fragment that has waited long enough is lifted; else at even ticks the agent that has
been ready longest issues, so that each issues in finite time (R155); else one of the things that may happen. -/
def pick (s : State) : Plan :=
  match liftJob s with
  | some j => j s
  | none =>
    match (if s.boot == .ready && s.tick % 2 == 0 then oldestTurn s else none) with
    | some t => planTurn s t
    | none => match oneOf s.jobs s.tick with
      | some j => j s
      | none => .done s

/-- What the machine does next. -/
def plan (s : State) : Plan :=
  match s.agenda with
  | t :: rest => planTurn { s with agenda := rest } t
  | [] => pick s

/-! ### What follows -/

/-- Whether what was issued has to wait. -/
def After.waits (k : After) (s : State) : Bool :=
  match k with
  | .event => false
  | .team x => match s.team x.l x.b x.ti with
    | some t => t.frags.any fun g => g.pc == x.f.pc && g.mask == x.f.mask && g.stalled
    | none => false
  | .foyer x => match (s.launch x.l).bind fun l => l.block x.b with
    | some b => b.foyer.stalled
    | none => false

/-- An event that changes nothing lets no agent that waits go on. -/
def sameBut (s t : State) : Bool := { s with agenda := [], cur := none } == { t with agenda := [], cur := none }

/-- A fragment at the end of a turn: its waiting count runs only while it is ready (R154). -/
def Frag.stamp (tick : Nat) (f : Frag) : Frag :=
  if f.parked || f.stalled then { f with since := 0, lift := .none }
  else if f.since == 0 then { f with since := tick } else f

/-- A Foyer context at the end of a turn (R158). -/
def Foyer.stamp (tick : Nat) (f : Foyer) : Foyer :=
  if f.stalled then { f with since := 0, lift := .none } else if f.since == 0 then { f with since := tick } else f

/-- A turn ends: time passes, and waiting counts start or return to 0. -/
def State.tock (s : State) : State :=
  let now := s.tick + 1
  { s with
    cur := none
    tick := now
    launches := s.launches.map fun l => { l with blocks := l.blocks.map fun b =>
      { b with
        foyer := b.foyer.stamp now
        teams := b.teams.map fun t => { t with frags := t.frags.map (Frag.stamp now) } } } }

/-- What follows the instruction of a turn that was run on the state s and answered t. -/
def finishTurn (k : After) (s t : State) : State :=
  let u := match k with
    | .event => if sameBut s t then t else t.wake
    | .team x => let u := t.updTeam x.l x.b x.ti x.after
      if k.waits t then u else u.wake
    | .foyer x => let u := t.updBlock x.l x.b fun b => { b with foyer := x.after b.foyer }
      if k.waits t then u else u.wake
  u.tock

/-- A team but for which of its fragments are found waiting. -/
def Team.calm (t : Team) : Team := { t with frags := t.frags.map fun f => { f with stalled := false, holds := false, counts := false } }

/-- What was issued merely waits: but for that it changes nothing. -/
def After.idle (k : After) (s t : State) : Bool :=
  k.waits t && (match k with
    | .event => false
    | .team x => sameBut (s.updTeam x.l x.b x.ti Team.calm) (t.updTeam x.l x.b x.ti Team.calm)
    | .foyer x =>
      let calm (b : Block) : Block := { b with foyer := { b.foyer with stalled := false } }
      sameBut (s.updBlock x.l x.b calm) (t.updBlock x.l x.b calm))

/-- What follows the answer of a turn. -/
def after (k : After) (s : State) (o : Out) : Out :=
  match o with
  | .next t => .next (finishTurn k s t)
  | .fault f => .fault f
  | .refused r => .refused r

/-- What follows where a breakpoint stands before an instruction: its wait, or else the breakpoint (R162). -/
def afterBreak (k : After) (s : State) (o bp : Out) : Out :=
  match o with
  | .next t => if k.idle s t then .next (finishTurn k s t) else after .event s bp
  | _ => after .event s bp

end Sys2Proof.Machine
end

