-- ==== Sys2Proof/Machine/Place.lean ====
section
/-!
DEFINITION. Machine/Place.lean: a launch, a context and a code page set so that the very next step fetches a given
instruction (notes/assumptions/24): it stands for the loading of a kernel image by host software and for the LAUNCH, or
LAUNCH_IND, that starts it (R367, R369, R373).
-/
namespace Sys2Proof.Machine.Place

open Sys2Proof.Machine

/-- The page that holds the code: the same virtual and physical address. -/
def codeBase : Nat := 0x10000

/-- A number greater than every listed one. -/
def above (ns : List Nat) : Nat := ns.foldl max 0 + 1

/-- A TLB entry of the code page. -/
def page (die : Option Nat) (asid : Nat) : TlbEntry where
  die := die
  fn := 0
  asid := asid
  va := codeBase
  bits := 12
  pa := codeBase
  gpa := codeBase
  attrs := ⟨true, true, true, false, none, true, true⟩

/-- An image of one team of one lane whose two code regions lie in the page, the Foyer's second. -/
def image : Image where
  kaddr := codeBase
  regs := 256
  lanes := 1
  teams := 1
  pfm := 0
  scra := 4096
  slice := 2048
  clg := 2
  cmem := 4096
  regions := [⟨codeBase, 2048, false, false, 0, none⟩, ⟨codeBase + 2048, 2048, true, false, 0, none⟩]
  fent := BitVec.ofNat 64 (codeBase + 2048)
  tent := BitVec.ofNat 64 codeBase
  stab := []
  safe := []

/-- The address at which the instruction stands. -/
def at_ (foyer : Bool) : DWord := if foyer then image.fent else image.tent

/-- The team: one active lane; it passes a breakpoint at its own PC. -/
def team : Team :=
  { Team.entry image 0 with
    seats := [⟨0, .active, false, 0, List.replicate 256 0⟩]
    frags := [{ Frag.at image.tent (maskOf [0]) with skip := some image.tent }] }

/-- The Foyer context. -/
def foyer : Foyer := { Foyer.entry image 0 0 with skip := some image.fent }

/-- A core on which nothing runs: the first, or one beyond all that are in use. -/
def idleCore (s : State) : Unit3 :=
  match (s.launches.flatMap fun l => l.blocks.map fun b => b.runsOn.core) with
  | [] => ⟨0, 0, 0⟩
  | ks => ⟨0, 0, above ks⟩

/-- The launch, with its one block on a core. -/
def launch (id asid : Nat) (u : Unit3) : Launch where
  id := id
  queue := 0
  pkt := 0
  asid := asid
  fn := 0
  prio := 2
  ac := 0
  lpkt := []
  param := 0
  nblk := 2
  pant := 0
  sig := 0
  pin := none
  diem := 0
  ring := none
  dstop := false
  st := .running
  saves := 0
  img := image
  xlats := []
  nextB := 2
  finals := []
  blocks := [⟨0, u, u, 0, foyer, [team], [], 0, [], [], [], Solve.fresh⟩]
  groups := [⟨0, [], []⟩]
  pantry := [(0, []), (1, []), (2, []), (3, [])]
  cores := [u]
  code := []

/-- The code page is readable by fetch in a new address space of function 0, and holds the bytes. -/
def withCode (s : State) (die : Option Nat) (asid : Nat) (pc : DWord) (v : Nat) : State :=
  { s with
    mem := s.mem.put pc.toNat (leBytes 16 v)
    asidctl := Regs.set s.asidctl asid 1
    tlb := page die asid :: s.tlb
    boot := .ready }

/-- The prologue forms of chapter 6, which act in a prologue only (R193, R374). -/
def prologueOp (op : Nat) : Bool := op == 0xCD

/-- A team or Foyer context about to fetch the instruction. -/
def inLaunch (s : State) (isFoyer : Bool) (v : Nat) : State :=
  let asid := above (s.asidctl.map Prod.fst)
  let l := above (s.launches.map Launch.id)
  let s := withCode s (some 0) asid (at_ isFoyer) v
  { s with
    launches := s.launches ++ [{ launch l asid (idleCore s) with code := s.mem }]
    agenda := (if isFoyer then .foyer l 0 else .team l 0 0 none) :: s.agenda }

/-- A queue of the address space, of which only the ID, the function and the address space matter here. -/
def queue (id asid : Nat) : Queue where
  id := id
  fn := 0
  creator := 0
  bulk := false
  asid := asid
  prio := 2
  ac := 0
  irqe := false
  watch := false
  lsize := 4
  clsz := 0
  ring := 0
  widxa := 0
  ridxa := 0
  cring := 0
  cidxa := 0
  ridx := 0
  widx := 0
  notify := 0
  notified := false
  mapped := false
  lastMap := 0
  reclaim := false
  halted := false
  status := 0
  detail := 0
  launches := 0
  destroy := false
  timeline := 0

/-- A run of a prologue about to fetch the instruction: a LAUNCH_IND packet has started and its first run has begun. -/
def inPrologue (s : State) (v : Nat) : State :=
  let asid := above (s.asidctl.map Prod.fst)
  let q := above (s.queues.map Queue.id)
  let k := s.nextKey
  let bytes := leBytes 8 2 ++ leBytes 8 codeBase ++ leBytes 48 0
  let s := withCode s none asid (BitVec.ofNat 64 codeBase) v
  { s with
    nextKey := k + 1
    queues := s.queues ++ [queue q asid]
    pkts := s.pkts ++ [⟨k, q, none, 0, bytes, .started, 0, [], none⟩]
    prologues := s.prologues ++ [beginRun bytes ⟨k, 0, 0, 0, 0, [], false, none, false, none⟩]
    agenda := .prologue k :: s.agenda }

/-- The instruction of nbits bits w stands where the next step fetches. -/
def instruction (s : State) (nbits w : Nat) : State :=
  let v := w % 2 ^ nbits
  let op := v / 2 ^ 56 % 256
  if prologueOp op then inPrologue s v else inLaunch s (isFoyerOp op) v

end Sys2Proof.Machine.Place
end

