-- ==== Sys2Proof/Machine/Step.lean ====
section
/-!
DEFINITION. Machine/Step.lean: one step of the machine.
-/
namespace Sys2Proof.Machine

/-- One step: the turn that the schedule names, its instruction run, and what follows. -/
def step (s : State) : Host.Outcome State Fault Refusal :=
  match plan s with
  | .done t => .next t.tock
  | .out o => after .event s o
  | .run i t k => after k t (exec i t)
  | .breakAt i t k bp => afterBreak k t (exec i t) bp

/-- The state with an instruction stored where the next step fetches it (notes/assumptions/24). -/
def State.withFetchWord (s : State) (nbits w : Nat) : State := Place.instruction s nbits w

end Sys2Proof.Machine
end

