-- ==== Sys2Proof/Laws/Encoding.lean ====
section
/-!
SUPPORT. Laws/Encoding.lean: what a field of an encoded word reads as, for each layout of the words (R45, R46),
and that each small code reads back as what it stands for.
-/
namespace Sys2Proof.Laws

theorem ofWord_encR {op fn d a b c x : Nat} {g : Guard} (ho : op < 256) (hf : fn < 64) (hd : d < 256) (ha : a < 256)
    (hb : b < 256) (hc : c < 256) (hx : x < 8192) :
    Fields.ofWord (encR op g fn d a b c x) =
      ⟨op, g.p.val, bit g.neg, fn, d, a, b, c, x, b * 2 ^ 21 + c * 2 ^ 13 + x, c * 2 ^ 13 + x⟩ := by
  have hp := g.p.isLt
  have hg : g.enc = g.p.val * 2 ^ 52 + bit g.neg * 2 ^ 51 := by cases h : g.neg <;> simp [Guard.enc, bit, h]
  have hn : bit g.neg < 2 := by cases g.neg <;> decide
  simp only [Fields.ofWord, encR, hg, Fields.mk.injEq]
  refine ⟨?_, ?_, ?_, ?_, ?_, ?_, ?_, ?_, ?_, ?_, ?_⟩ <;> omega
theorem ofWord_encI {op fn d a : Nat} {g : Guard} {imm : BitVec 29} (ho : op < 256) (hf : fn < 64) (hd : d < 256)
    (ha : a < 256) :
    Fields.ofWord (encI op g fn d a imm) =
      ⟨op, g.p.val, bit g.neg, fn, d, a, imm.toNat / 2 ^ 21, imm.toNat / 2 ^ 13 % 256, imm.toNat % 2 ^ 13, imm.toNat,
        imm.toNat % 2 ^ 21⟩ := by
  have hp := g.p.isLt
  have hi := imm.isLt
  have hg : g.enc = g.p.val * 2 ^ 52 + bit g.neg * 2 ^ 51 := by cases h : g.neg <;> simp [Guard.enc, bit, h]
  have hn : bit g.neg < 2 := by cases g.neg <;> decide
  simp only [Fields.ofWord, encI, hg, Fields.mk.injEq]
  refine ⟨?_, ?_, ?_, ?_, ?_, ?_, ?_, ?_, ?_, ?_, ?_⟩ <;> omega
theorem ofWord_encM {op fn d a b : Nat} {g : Guard} {ofs : BitVec 21} (ho : op < 256) (hf : fn < 64) (hd : d < 256)
    (ha : a < 256) (hb : b < 256) :
    Fields.ofWord (encM op g fn d a b ofs) =
      ⟨op, g.p.val, bit g.neg, fn, d, a, b, ofs.toNat / 2 ^ 13, ofs.toNat % 2 ^ 13, b * 2 ^ 21 + ofs.toNat, ofs.toNat⟩ := by
  have hp := g.p.isLt
  have hi := ofs.isLt
  have hg : g.enc = g.p.val * 2 ^ 52 + bit g.neg * 2 ^ 51 := by cases h : g.neg <;> simp [Guard.enc, bit, h]
  have hn : bit g.neg < 2 := by cases g.neg <;> decide
  simp only [Fields.ofWord, encM, hg, Fields.mk.injEq]
  refine ⟨?_, ?_, ?_, ?_, ?_, ?_, ?_, ?_, ?_, ?_, ?_⟩ <;> omega
@[simp] theorem guard_val (g : Guard) : (⟨preg g.p.val, flag (bit g.neg)⟩ : Guard) = g := by
  obtain ⟨p, n⟩ := g
  have : preg p.val = p := Fin.ext (Nat.mod_eq_of_lt p.isLt)
  cases n <;> simp only [this] <;> rfl
@[simp] theorem vreg_val (d : VReg) : vreg d.val = d := Fin.ext (Nat.mod_eq_of_lt d.isLt)
@[simp] theorem preg_val (d : PReg) : preg d.val = d := Fin.ext (Nat.mod_eq_of_lt d.isLt)
@[simp] theorem sreg_val (d : SReg) : sreg d.val = d := Fin.ext (Nat.mod_eq_of_lt d.isLt)
@[simp] theorem reg16_val (d : Fin 16) : reg16 d.val = d := Fin.ext (Nat.mod_eq_of_lt d.isLt)
@[simp] theorem bv_val {n : Nat} (v : BitVec n) : BitVec.ofNat n v.toNat = v := BitVec.eq_of_toNat_eq (by simp)
@[simp] theorem div16 (d : Fin 16) : d.val / 16 = 0 := Nat.div_eq_of_lt d.isLt
@[simp] theorem hi_sreg (d : SReg) : hi d.val = 0 := Nat.div_eq_of_lt d.isLt
theorem sreg_lt (d : SReg) : d.val < 256 := Nat.lt_trans d.isLt (by decide)
theorem reg16_lt (d : Fin 16) : d.val < 256 := Nat.lt_trans d.isLt (by decide)
theorem gate {r : Except Cause Instr} {i : Instr} (h : r = .ok i) (hw : i.wf = true) : wfGate r = .ok i := by
  rw [h]; exact if_pos hw
theorem rsv_ok {l : List Nat} {k r : Except Cause Instr} (h : l.all (· == 0) = true) (hk : k = r) : rsv l k = r := by
  rw [← hk]; exact if_pos h
@[simp] theorem IntTy_rt (t : IntTy) : IntTy.ofCode t.code = t := by
  cases t <;> rfl
theorem IntTy_lt (t : IntTy) : t.code < 8 := by cases t <;> decide
@[simp] theorem Cmp_rt (t : Cmp) : Cmp.ofCode t.code = some t := by
  cases t <;> rfl
theorem Cmp_lt (t : Cmp) : t.code < 8 := by cases t <;> decide
@[simp] theorem FCmp_rt (t : FCmp) : FCmp.ofCode t.code = some t := by
  cases t <;> rfl
theorem FCmp_lt (t : FCmp) : t.code < 16 := by cases t <;> decide
@[simp] theorem FTy_rt (t : FTy) : FTy.ofCode t.code = some t := by
  cases t <;> rfl
theorem FTy_lt (t : FTy) : t.code < 4 := by cases t <;> decide
@[simp] theorem Rnd_rt (t : Rnd) : Rnd.ofCode t.code = t := by
  cases t <;> rfl
theorem Rnd_lt (t : Rnd) : t.code < 4 := by cases t <;> decide
@[simp] theorem CvtTy_rt (t : CvtTy) : CvtTy.ofCode t.code = some t := by
  cases t <;> rfl
theorem CvtTy_lt (t : CvtTy) : t.code < 16 := by cases t <;> decide
@[simp] theorem CopyW_rt (t : CopyW) : CopyW.ofCode t.code = some t := by
  cases t <;> rfl
theorem CopyW_lt (t : CopyW) : t.code < 4 := by cases t <;> decide
@[simp] theorem LdSz_rt (t : LdSz) : LdSz.ofCode t.code = some t := by
  cases t <;> rfl
theorem LdSz_lt (t : LdSz) : t.code < 8 := by cases t <;> decide
@[simp] theorem StSz_rt (t : StSz) : StSz.ofCode t.code = some t := by
  cases t <;> rfl
theorem StSz_lt (t : StSz) : t.code < 8 := by cases t <;> decide
@[simp] theorem Scope_rt (t : Scope) : Scope.ofCode t.code = some t := by
  cases t <;> rfl
theorem Scope_lt (t : Scope) : t.code < 8 := by cases t <;> decide
@[simp] theorem Ord2_rt (t : Ord2) : Ord2.ofCode t.code = t := by
  cases t <;> rfl
theorem Ord2_lt (t : Ord2) : t.code < 4 := by cases t <;> decide
@[simp] theorem FenceOrd_rt (t : FenceOrd) : FenceOrd.ofCode t.code = some t := by
  cases t <;> rfl
theorem FenceOrd_lt (t : FenceOrd) : t.code < 4 := by cases t <;> decide
@[simp] theorem WaitScope_rt (t : WaitScope) : WaitScope.ofCode t.code = some t := by
  cases t <;> rfl
theorem WaitScope_lt (t : WaitScope) : t.code < 8 := by cases t <;> decide
@[simp] theorem Level_rt (t : Level) : Level.ofCode t.code = some t := by
  cases t <;> rfl
theorem Level_lt (t : Level) : t.code < 8 := by cases t <;> decide
@[simp] theorem AtomLevel_rt (t : AtomLevel) : AtomLevel.ofCode t.code = some t := by
  cases t <;> rfl
theorem AtomLevel_lt (t : AtomLevel) : t.code < 8 := by cases t <;> decide
@[simp] theorem SpecReg_rt (t : SpecReg) : SpecReg.ofCode t.code = some t := by
  cases t with
  | occ k =>
    obtain ⟨k, h⟩ := k
    have h2 : (16 + k) % 16 = k := by omega
    have h1 : (16 + k) / 16 = 1 := by omega
    rw [SpecReg.code, SpecReg.ofCode.eq_def]
    split <;> first | omega | (rw [if_pos h1]; simp only [reg16, Fin.ofNat, h2])
  | _ => rfl
theorem SpecReg_lt (t : SpecReg) : t.code < 256 := by
  cases t with
  | occ k => have := k.isLt; simp only [SpecReg.code]; omega
  | _ => decide
@[simp] theorem SwxSeg_rt (t : SwxSeg) : SwxSeg.ofCode t.code = some t := by
  cases t <;> rfl
theorem SwxSeg_lt (t : SwxSeg) : t.code < 8 := by cases t <;> decide
@[simp] theorem SwxMode_rt (t : SwxMode) : SwxMode.ofCode t.code = t := by
  cases t <;> rfl
theorem SwxMode_lt (t : SwxMode) : t.code < 4 := by cases t <;> decide
@[simp] theorem QxchMode_rt (t : QxchMode) : QxchMode.ofCode t.code = some t := by
  cases t <;> rfl
theorem QxchMode_lt (t : QxchMode) : t.code < 4 := by cases t <;> decide
@[simp] theorem SldSz_rt (t : SldSz) : SldSz.ofCode t.code = some t := by
  cases t <;> rfl
theorem SldSz_lt (t : SldSz) : t.code < 8 := by cases t <;> decide
@[simp] theorem SstSz_rt (t : SstSz) : SstSz.ofCode t.code = some t := by
  cases t <;> rfl
theorem SstSz_lt (t : SstSz) : t.code < 8 := by cases t <;> decide
@[simp] theorem ShField_rt (t : ShField) : ShField.ofCode t.code = some t := by
  cases t with
  | ext d => revert d; decide
  | str d => revert d; decide
  | _ => rfl
theorem ShField_lt (t : ShField) : t.code < 32 := by
  cases t with
  | ext d => have := d.isLt; simp only [ShField.code]; omega
  | str d => have := d.isLt; simp only [ShField.code]; omega
  | _ => decide
@[simp] theorem RotSz_rt (t : RotSz) : RotSz.ofCode t.code = some t := by
  cases t <;> rfl
theorem RotSz_lt (t : RotSz) : t.code < 4 := by cases t <;> decide
@[simp] theorem SpMode_rt (t : SpMode) : SpMode.ofCode t.code = t := by
  cases t <;> rfl
theorem SpMode_lt (t : SpMode) : t.code < 4 := by cases t <;> decide
@[simp] theorem FmFmt_rt (t : FmFmt) : FmFmt.ofCode t.code = some t := by
  cases t with
  | slot k =>
    obtain ⟨k, h⟩ := k
    have h2 : (16 + k) % 8 = k := by omega
    have h1 : (16 + k) / 8 = 2 := by omega
    rw [FmFmt.code, FmFmt.ofCode.eq_def]
    split <;> first | omega | (rw [if_pos h1]; simp only [Fin.ofNat, h2])
  | _ => rfl
theorem FmFmt_lt (t : FmFmt) : t.code < 32 := by
  cases t with
  | slot k => have := k.isLt; simp only [FmFmt.code]; omega
  | _ => decide
@[simp] theorem CapBin_rt (t : CapBin) : CapBin.ofCode t.code = some t := by
  cases t <;> rfl
theorem CapBin_lt (t : CapBin) : t.code < 8 := by cases t <;> decide
@[simp] theorem CapCond_rt (t : CapCond) : CapCond.ofCode t.code = some t := by
  cases t <;> rfl
theorem CapCond_lt (t : CapCond) : t.code < 8 := by cases t <;> decide
@[simp] theorem SolveParam_rt (t : SolveParam) : SolveParam.ofCode t.code = some t := by
  cases t <;> rfl
theorem SolveParam_lt (t : SolveParam) : t.code < 4 := by cases t <;> decide
theorem bit_lt (s : Bool) : bit s < 2 := by cases s <;> decide
@[simp] theorem flag_bit (s : Bool) : flag (bit s) = s := by cases s <;> rfl
@[simp] theorem laySI_7_6 (s : Bool) (t : IntTy) : bits (bit s * 64 + t.code * 8) 7 6 = 0 := by
  have := bit_lt s; have := IntTy_lt t; unfold bits; omega
@[simp] theorem laySI_0_3 (s : Bool) (t : IntTy) : bits (bit s * 64 + t.code * 8) 0 3 = 0 := by
  have := bit_lt s; have := IntTy_lt t; unfold bits; omega
@[simp] theorem laySI_3_3 (s : Bool) (t : IntTy) : bits (bit s * 64 + t.code * 8) 3 3 = t.code := by
  have := bit_lt s; have := IntTy_lt t; unfold bits; omega
@[simp] theorem laySI_6_1 (s : Bool) (t : IntTy) : bits (bit s * 64 + t.code * 8) 6 1 = bit s := by
  have := bit_lt s; have := IntTy_lt t; unfold bits; omega
theorem laySI_lt (s : Bool) (t : IntTy) : bit s * 64 + t.code * 8 < 8192 := by
  have := bit_lt s; have := IntTy_lt t; omega
@[simp] theorem layI_7_6 (t : IntTy) : bits (t.code * 8) 7 6 = 0 := by
  have := IntTy_lt t; unfold bits; omega
@[simp] theorem layI_0_3 (t : IntTy) : bits (t.code * 8) 0 3 = 0 := by
  have := IntTy_lt t; unfold bits; omega
@[simp] theorem layI_3_3 (t : IntTy) : bits (t.code * 8) 3 3 = t.code := by
  have := IntTy_lt t; unfold bits; omega
@[simp] theorem layI_6_1 (t : IntTy) : bits (t.code * 8) 6 1 = 0 := by
  have := IntTy_lt t; unfold bits; omega
@[simp] theorem layI_6_7 (t : IntTy) : bits (t.code * 8) 6 7 = 0 := by
  have := IntTy_lt t; unfold bits; omega
theorem layI_lt (t : IntTy) : t.code * 8 < 8192 := by
  have := IntTy_lt t; omega
@[simp] theorem layIK_3_3 (t : IntTy) (k : Nat) (_h : k < 8) : bits (t.code * 8 + k) 3 3 = t.code := by
  have := IntTy_lt t; unfold bits; omega
@[simp] theorem layIK_0_3 (t : IntTy) (k : Nat) (_h : k < 8) : bits (t.code * 8 + k) 0 3 = k := by
  have := IntTy_lt t; unfold bits; omega
theorem layIK_lt (t : IntTy) (k : Nat) (_h : k < 8) : t.code * 8 + k < 64 := by
  have := IntTy_lt t; omega
@[simp] theorem layIC_3_3 (t : IntTy) (c : Cmp) : bits (t.code * 8 + c.code) 3 3 = t.code := by
  have := IntTy_lt t; have := Cmp_lt c; unfold bits; omega
@[simp] theorem layIC_0_3 (t : IntTy) (c : Cmp) : bits (t.code * 8 + c.code) 0 3 = c.code := by
  have := IntTy_lt t; have := Cmp_lt c; unfold bits; omega
theorem layIC_lt (t : IntTy) (c : Cmp) : t.code * 8 + c.code < 64 := by
  have := IntTy_lt t; have := Cmp_lt c; omega
@[simp] theorem layP_3_1 (m : Bool) (n : Bool) : bits (bit m * 16 + bit n * 8) 3 1 = bit n := by
  have := bit_lt m; have := bit_lt n; unfold bits; omega
@[simp] theorem layP_4_1 (m : Bool) (n : Bool) : bits (bit m * 16 + bit n * 8) 4 1 = bit m := by
  have := bit_lt m; have := bit_lt n; unfold bits; omega
@[simp] theorem layP_5_8 (m : Bool) (n : Bool) : bits (bit m * 16 + bit n * 8) 5 8 = 0 := by
  have := bit_lt m; have := bit_lt n; unfold bits; omega
@[simp] theorem layP_0_3 (m : Bool) (n : Bool) : bits (bit m * 16 + bit n * 8) 0 3 = 0 := by
  have := bit_lt m; have := bit_lt n; unfold bits; omega
theorem layP_lt (m : Bool) (n : Bool) : bit m * 16 + bit n * 8 < 8192 := by
  have := bit_lt m; have := bit_lt n; omega
@[simp] theorem layPN_3_1 (n : Bool) : bits (bit n * 8) 3 1 = bit n := by
  have := bit_lt n; unfold bits; omega
@[simp] theorem layPN_4_9 (n : Bool) : bits (bit n * 8) 4 9 = 0 := by
  have := bit_lt n; unfold bits; omega
@[simp] theorem layPN_0_3 (n : Bool) : bits (bit n * 8) 0 3 = 0 := by
  have := bit_lt n; unfold bits; omega
theorem layPN_lt (n : Bool) : bit n * 8 < 8192 := by
  have := bit_lt n; omega
@[simp] theorem layW_3_2 (w : CopyW) : bits (w.code * 8) 3 2 = w.code := by
  have := CopyW_lt w; unfold bits; omega
@[simp] theorem layW_5_8 (w : CopyW) : bits (w.code * 8) 5 8 = 0 := by
  have := CopyW_lt w; unfold bits; omega
@[simp] theorem layW_0_3 (w : CopyW) : bits (w.code * 8) 0 3 = 0 := by
  have := CopyW_lt w; unfold bits; omega
theorem layW_lt (w : CopyW) : w.code * 8 < 8192 := by
  have := CopyW_lt w; omega
@[simp] theorem layL_3_5 (s : Bool) (h : Fin 32) : bits (bit s * 256 + h.val * 8) 3 5 = h.val := by
  have := bit_lt s; have := h.isLt; unfold bits; omega
@[simp] theorem layL_8_1 (s : Bool) (h : Fin 32) : bits (bit s * 256 + h.val * 8) 8 1 = bit s := by
  have := bit_lt s; have := h.isLt; unfold bits; omega
@[simp] theorem layL_9_4 (s : Bool) (h : Fin 32) : bits (bit s * 256 + h.val * 8) 9 4 = 0 := by
  have := bit_lt s; have := h.isLt; unfold bits; omega
@[simp] theorem layL_0_3 (s : Bool) (h : Fin 32) : bits (bit s * 256 + h.val * 8) 0 3 = 0 := by
  have := bit_lt s; have := h.isLt; unfold bits; omega
theorem layL_lt (s : Bool) (h : Fin 32) : bit s * 256 + h.val * 8 < 8192 := by
  have := bit_lt s; have := h.isLt; omega
@[simp] theorem layF_0_2 (f : FTy) (z : Bool) (r : Rnd) : bits (f.code * 8 + bit z * 4 + r.code) 0 2 = r.code := by
  have := FTy_lt f; have := bit_lt z; have := Rnd_lt r; unfold bits; omega
@[simp] theorem layF_2_1 (f : FTy) (z : Bool) (r : Rnd) : bits (f.code * 8 + bit z * 4 + r.code) 2 1 = bit z := by
  have := FTy_lt f; have := bit_lt z; have := Rnd_lt r; unfold bits; omega
@[simp] theorem layF_3_2 (f : FTy) (z : Bool) (r : Rnd) : bits (f.code * 8 + bit z * 4 + r.code) 3 2 = f.code := by
  have := FTy_lt f; have := bit_lt z; have := Rnd_lt r; unfold bits; omega
@[simp] theorem layF_5_8 (f : FTy) (z : Bool) (r : Rnd) : bits (f.code * 8 + bit z * 4 + r.code) 5 8 = 0 := by
  have := FTy_lt f; have := bit_lt z; have := Rnd_lt r; unfold bits; omega
theorem layF_lt (f : FTy) (z : Bool) (r : Rnd) : f.code * 8 + bit z * 4 + r.code < 8192 := by
  have := FTy_lt f; have := bit_lt z; have := Rnd_lt r; omega
@[simp] theorem layFT_3_2 (f : FTy) : bits (f.code * 8) 3 2 = f.code := by
  have := FTy_lt f; unfold bits; omega
@[simp] theorem layFT_5_8 (f : FTy) : bits (f.code * 8) 5 8 = 0 := by
  have := FTy_lt f; unfold bits; omega
@[simp] theorem layFT_0_3 (f : FTy) : bits (f.code * 8) 0 3 = 0 := by
  have := FTy_lt f; unfold bits; omega
theorem layFT_lt (f : FTy) : f.code * 8 < 8192 := by
  have := FTy_lt f; omega
@[simp] theorem layD_0_2 (z : Bool) (r : Rnd) : bits (bit z * 4 + r.code) 0 2 = r.code := by
  have := bit_lt z; have := Rnd_lt r; unfold bits; omega
@[simp] theorem layD_2_1 (z : Bool) (r : Rnd) : bits (bit z * 4 + r.code) 2 1 = bit z := by
  have := bit_lt z; have := Rnd_lt r; unfold bits; omega
@[simp] theorem layD_3_10 (z : Bool) (r : Rnd) : bits (bit z * 4 + r.code) 3 10 = 0 := by
  have := bit_lt z; have := Rnd_lt r; unfold bits; omega
theorem layD_lt (z : Bool) (r : Rnd) : bit z * 4 + r.code < 8192 := by
  have := bit_lt z; have := Rnd_lt r; omega
@[simp] theorem layC_12_1 (s : Bool) (t : CvtTy) (u : CvtTy) (z : Bool) (r : Rnd) : bits
  (bit s * 2048 + t.code * 128 + u.code * 8 + bit z * 4 + r.code) 12 1 = 0 := by
  have := bit_lt s; have := CvtTy_lt t; have := CvtTy_lt u; have := bit_lt z; have := Rnd_lt r; unfold bits; omega
@[simp] theorem layC_7_4 (s : Bool) (t : CvtTy) (u : CvtTy) (z : Bool) (r : Rnd) : bits
  (bit s * 2048 + t.code * 128 + u.code * 8 + bit z * 4 + r.code) 7 4 = t.code := by
  have := bit_lt s; have := CvtTy_lt t; have := CvtTy_lt u; have := bit_lt z; have := Rnd_lt r; unfold bits; omega
@[simp] theorem layC_3_4 (s : Bool) (t : CvtTy) (u : CvtTy) (z : Bool) (r : Rnd) : bits
  (bit s * 2048 + t.code * 128 + u.code * 8 + bit z * 4 + r.code) 3 4 = u.code := by
  have := bit_lt s; have := CvtTy_lt t; have := CvtTy_lt u; have := bit_lt z; have := Rnd_lt r; unfold bits; omega
@[simp] theorem layC_11_1 (s : Bool) (t : CvtTy) (u : CvtTy) (z : Bool) (r : Rnd) : bits
  (bit s * 2048 + t.code * 128 + u.code * 8 + bit z * 4 + r.code) 11 1 = bit s := by
  have := bit_lt s; have := CvtTy_lt t; have := CvtTy_lt u; have := bit_lt z; have := Rnd_lt r; unfold bits; omega
@[simp] theorem layC_2_1 (s : Bool) (t : CvtTy) (u : CvtTy) (z : Bool) (r : Rnd) : bits
  (bit s * 2048 + t.code * 128 + u.code * 8 + bit z * 4 + r.code) 2 1 = bit z := by
  have := bit_lt s; have := CvtTy_lt t; have := CvtTy_lt u; have := bit_lt z; have := Rnd_lt r; unfold bits; omega
@[simp] theorem layC_0_2 (s : Bool) (t : CvtTy) (u : CvtTy) (z : Bool) (r : Rnd) : bits
  (bit s * 2048 + t.code * 128 + u.code * 8 + bit z * 4 + r.code) 0 2 = r.code := by
  have := bit_lt s; have := CvtTy_lt t; have := CvtTy_lt u; have := bit_lt z; have := Rnd_lt r; unfold bits; omega
theorem layC_lt (s : Bool) (t : CvtTy) (u : CvtTy) (z : Bool) (r : Rnd) : bit s * 2048 + t.code * 128 + u.code * 8 +
  bit z * 4 + r.code < 8192 := by
  have := bit_lt s; have := CvtTy_lt t; have := CvtTy_lt u; have := bit_lt z; have := Rnd_lt r; omega
@[simp] theorem layLd_3_3 (l : Level) (z : LdSz) : bits (l.code * 8 + z.code) 3 3 = l.code := by
  have := Level_lt l; have := LdSz_lt z; unfold bits; omega
@[simp] theorem layLd_0_3 (l : Level) (z : LdSz) : bits (l.code * 8 + z.code) 0 3 = z.code := by
  have := Level_lt l; have := LdSz_lt z; unfold bits; omega
theorem layLd_lt (l : Level) (z : LdSz) : l.code * 8 + z.code < 64 := by
  have := Level_lt l; have := LdSz_lt z; omega
@[simp] theorem laySt_3_3 (l : Level) (z : StSz) : bits (l.code * 8 + z.code) 3 3 = l.code := by
  have := Level_lt l; have := StSz_lt z; unfold bits; omega
@[simp] theorem laySt_0_3 (l : Level) (z : StSz) : bits (l.code * 8 + z.code) 0 3 = z.code := by
  have := Level_lt l; have := StSz_lt z; unfold bits; omega
theorem laySt_lt (l : Level) (z : StSz) : l.code * 8 + z.code < 64 := by
  have := Level_lt l; have := StSz_lt z; omega
@[simp] theorem layA1_3_2 (c : Scope) : bits (8 + c.code) 3 2 = 1 := by
  have := Scope_lt c; unfold bits; omega
@[simp] theorem layA1_5_3 (c : Scope) : bits (8 + c.code) 5 3 = 0 := by
  have := Scope_lt c; unfold bits; omega
@[simp] theorem layA1_0_3 (c : Scope) : bits (8 + c.code) 0 3 = c.code := by
  have := Scope_lt c; unfold bits; omega
theorem layA1_lt (c : Scope) : 8 + c.code < 256 := by
  have := Scope_lt c; omega
@[simp] theorem layA2_3_2 (c : Scope) : bits (16 + c.code) 3 2 = 2 := by
  have := Scope_lt c; unfold bits; omega
@[simp] theorem layA2_5_3 (c : Scope) : bits (16 + c.code) 5 3 = 0 := by
  have := Scope_lt c; unfold bits; omega
@[simp] theorem layA2_0_3 (c : Scope) : bits (16 + c.code) 0 3 = c.code := by
  have := Scope_lt c; unfold bits; omega
theorem layA2_lt (c : Scope) : 16 + c.code < 256 := by
  have := Scope_lt c; omega
@[simp] theorem layAt_10_3 (l : AtomLevel) (g : Nat) (_hg : g < 2) (w : Bool) (o : Ord2) (c : Scope) : bits
  (l.code * 1024 + g * 512 + bit w * 256 + o.code * 64 + c.code * 8) 10 3 = l.code := by
  have := AtomLevel_lt l; have := bit_lt w; have := Ord2_lt o; have := Scope_lt c; unfold bits; omega
@[simp] theorem layAt_9_1 (l : AtomLevel) (g : Nat) (_hg : g < 2) (w : Bool) (o : Ord2) (c : Scope) : bits
  (l.code * 1024 + g * 512 + bit w * 256 + o.code * 64 + c.code * 8) 9 1 = g := by
  have := AtomLevel_lt l; have := bit_lt w; have := Ord2_lt o; have := Scope_lt c; unfold bits; omega
@[simp] theorem layAt_8_1 (l : AtomLevel) (g : Nat) (_hg : g < 2) (w : Bool) (o : Ord2) (c : Scope) : bits
  (l.code * 1024 + g * 512 + bit w * 256 + o.code * 64 + c.code * 8) 8 1 = bit w := by
  have := AtomLevel_lt l; have := bit_lt w; have := Ord2_lt o; have := Scope_lt c; unfold bits; omega
@[simp] theorem layAt_6_2 (l : AtomLevel) (g : Nat) (_hg : g < 2) (w : Bool) (o : Ord2) (c : Scope) : bits
  (l.code * 1024 + g * 512 + bit w * 256 + o.code * 64 + c.code * 8) 6 2 = o.code := by
  have := AtomLevel_lt l; have := bit_lt w; have := Ord2_lt o; have := Scope_lt c; unfold bits; omega
@[simp] theorem layAt_3_3 (l : AtomLevel) (g : Nat) (_hg : g < 2) (w : Bool) (o : Ord2) (c : Scope) : bits
  (l.code * 1024 + g * 512 + bit w * 256 + o.code * 64 + c.code * 8) 3 3 = c.code := by
  have := AtomLevel_lt l; have := bit_lt w; have := Ord2_lt o; have := Scope_lt c; unfold bits; omega
@[simp] theorem layAt_0_3 (l : AtomLevel) (g : Nat) (_hg : g < 2) (w : Bool) (o : Ord2) (c : Scope) : bits
  (l.code * 1024 + g * 512 + bit w * 256 + o.code * 64 + c.code * 8) 0 3 = 0 := by
  have := AtomLevel_lt l; have := bit_lt w; have := Ord2_lt o; have := Scope_lt c; unfold bits; omega
theorem layAt_lt (l : AtomLevel) (g : Nat) (_hg : g < 2) (w : Bool) (o : Ord2) (c : Scope) : l.code * 1024 + g * 512
  + bit w * 256 + o.code * 64 + c.code * 8 < 8192 := by
  have := AtomLevel_lt l; have := bit_lt w; have := Ord2_lt o; have := Scope_lt c; omega
@[simp] theorem laySa_10_3 (g : Nat) (_hg : g < 2) (w : Bool) (o : Ord2) (c : Scope) : bits
  (0 * 1024 + g * 512 + bit w * 256 + o.code * 64 + c.code * 8) 10 3 = 0 := by
  have := bit_lt w; have := Ord2_lt o; have := Scope_lt c; unfold bits; omega
@[simp] theorem laySa_9_1 (g : Nat) (_hg : g < 2) (w : Bool) (o : Ord2) (c : Scope) : bits
  (0 * 1024 + g * 512 + bit w * 256 + o.code * 64 + c.code * 8) 9 1 = g := by
  have := bit_lt w; have := Ord2_lt o; have := Scope_lt c; unfold bits; omega
@[simp] theorem laySa_8_1 (g : Nat) (_hg : g < 2) (w : Bool) (o : Ord2) (c : Scope) : bits
  (0 * 1024 + g * 512 + bit w * 256 + o.code * 64 + c.code * 8) 8 1 = bit w := by
  have := bit_lt w; have := Ord2_lt o; have := Scope_lt c; unfold bits; omega
@[simp] theorem laySa_6_2 (g : Nat) (_hg : g < 2) (w : Bool) (o : Ord2) (c : Scope) : bits
  (0 * 1024 + g * 512 + bit w * 256 + o.code * 64 + c.code * 8) 6 2 = o.code := by
  have := bit_lt w; have := Ord2_lt o; have := Scope_lt c; unfold bits; omega
@[simp] theorem laySa_3_3 (g : Nat) (_hg : g < 2) (w : Bool) (o : Ord2) (c : Scope) : bits
  (0 * 1024 + g * 512 + bit w * 256 + o.code * 64 + c.code * 8) 3 3 = c.code := by
  have := bit_lt w; have := Ord2_lt o; have := Scope_lt c; unfold bits; omega
@[simp] theorem laySa_0_3 (g : Nat) (_hg : g < 2) (w : Bool) (o : Ord2) (c : Scope) : bits
  (0 * 1024 + g * 512 + bit w * 256 + o.code * 64 + c.code * 8) 0 3 = 0 := by
  have := bit_lt w; have := Ord2_lt o; have := Scope_lt c; unfold bits; omega
theorem laySa_lt (g : Nat) (_hg : g < 2) (w : Bool) (o : Ord2) (c : Scope) : 0 * 1024 + g * 512 + bit w * 256 +
  o.code * 64 + c.code * 8 < 8192 := by
  have := bit_lt w; have := Ord2_lt o; have := Scope_lt c; omega
@[simp] theorem layFe_8_5 (o : FenceOrd) (c : Scope) : bits (o.code * 64 + c.code * 8) 8 5 = 0 := by
  have := FenceOrd_lt o; have := Scope_lt c; unfold bits; omega
@[simp] theorem layFe_0_3 (o : FenceOrd) (c : Scope) : bits (o.code * 64 + c.code * 8) 0 3 = 0 := by
  have := FenceOrd_lt o; have := Scope_lt c; unfold bits; omega
@[simp] theorem layFe_6_2 (o : FenceOrd) (c : Scope) : bits (o.code * 64 + c.code * 8) 6 2 = o.code := by
  have := FenceOrd_lt o; have := Scope_lt c; unfold bits; omega
@[simp] theorem layFe_3_3 (o : FenceOrd) (c : Scope) : bits (o.code * 64 + c.code * 8) 3 3 = c.code := by
  have := FenceOrd_lt o; have := Scope_lt c; unfold bits; omega
theorem layFe_lt (o : FenceOrd) (c : Scope) : o.code * 64 + c.code * 8 < 8192 := by
  have := FenceOrd_lt o; have := Scope_lt c; omega
@[simp] theorem layBar_10_3 (l : Bool) (n : Fin 64) : bits (bit l * 512 + n.val * 8) 10 3 = 0 := by
  have := bit_lt l; have := n.isLt; unfold bits; omega
@[simp] theorem layBar_0_3 (l : Bool) (n : Fin 64) : bits (bit l * 512 + n.val * 8) 0 3 = 0 := by
  have := bit_lt l; have := n.isLt; unfold bits; omega
@[simp] theorem layBar_9_1 (l : Bool) (n : Fin 64) : bits (bit l * 512 + n.val * 8) 9 1 = bit l := by
  have := bit_lt l; have := n.isLt; unfold bits; omega
@[simp] theorem layBar_3_6 (l : Bool) (n : Fin 64) : bits (bit l * 512 + n.val * 8) 3 6 = n.val := by
  have := bit_lt l; have := n.isLt; unfold bits; omega
theorem layBar_lt (l : Bool) (n : Fin 64) : bit l * 512 + n.val * 8 < 8192 := by
  have := bit_lt l; have := n.isLt; omega
@[simp] theorem layBo_8_1 (c : Scope) : bits (c.code * 8) 8 1 = 0 := by
  have := Scope_lt c; unfold bits; omega
@[simp] theorem layBo_9_4 (c : Scope) : bits (c.code * 8) 9 4 = 0 := by
  have := Scope_lt c; unfold bits; omega
@[simp] theorem layBo_6_2 (c : Scope) : bits (c.code * 8) 6 2 = 0 := by
  have := Scope_lt c; unfold bits; omega
@[simp] theorem layBo_6_7 (c : Scope) : bits (c.code * 8) 6 7 = 0 := by
  have := Scope_lt c; unfold bits; omega
@[simp] theorem layBo_0_3 (c : Scope) : bits (c.code * 8) 0 3 = 0 := by
  have := Scope_lt c; unfold bits; omega
@[simp] theorem layBo_3_3 (c : Scope) : bits (c.code * 8) 3 3 = c.code := by
  have := Scope_lt c; unfold bits; omega
theorem layBo_lt (c : Scope) : c.code * 8 < 8192 := by
  have := Scope_lt c; omega
@[simp] theorem layBn_8_1 (c : Scope) : bits (256 + c.code * 8) 8 1 = 1 := by
  have := Scope_lt c; unfold bits; omega
@[simp] theorem layBn_9_4 (c : Scope) : bits (256 + c.code * 8) 9 4 = 0 := by
  have := Scope_lt c; unfold bits; omega
@[simp] theorem layBn_6_2 (c : Scope) : bits (256 + c.code * 8) 6 2 = 0 := by
  have := Scope_lt c; unfold bits; omega
@[simp] theorem layBn_0_3 (c : Scope) : bits (256 + c.code * 8) 0 3 = 0 := by
  have := Scope_lt c; unfold bits; omega
@[simp] theorem layBn_3_3 (c : Scope) : bits (256 + c.code * 8) 3 3 = c.code := by
  have := Scope_lt c; unfold bits; omega
theorem layBn_lt (c : Scope) : 256 + c.code * 8 < 8192 := by
  have := Scope_lt c; omega
@[simp] theorem layWs_6_7 (c : WaitScope) : bits (c.code * 8) 6 7 = 0 := by
  have := WaitScope_lt c; unfold bits; omega
@[simp] theorem layWs_0_3 (c : WaitScope) : bits (c.code * 8) 0 3 = 0 := by
  have := WaitScope_lt c; unfold bits; omega
@[simp] theorem layWs_3_3 (c : WaitScope) : bits (c.code * 8) 3 3 = c.code := by
  have := WaitScope_lt c; unfold bits; omega
theorem layWs_lt (c : WaitScope) : c.code * 8 < 8192 := by
  have := WaitScope_lt c; omega
@[simp] theorem layK_6_7 (k : Fin 8) : bits (k.val * 8) 6 7 = 0 := by
  have := k.isLt; unfold bits; omega
@[simp] theorem layK_0_3 (k : Fin 8) : bits (k.val * 8) 0 3 = 0 := by
  have := k.isLt; unfold bits; omega
@[simp] theorem layK_3_3 (k : Fin 8) : bits (k.val * 8) 3 3 = k.val := by
  have := k.isLt; unfold bits; omega
theorem layK_lt (k : Fin 8) : k.val * 8 < 8192 := by
  have := k.isLt; omega
@[simp] theorem layK0_0_3 (k : Fin 8) : bits (k.val) 0 3 = k.val := by
  have := k.isLt; unfold bits; omega
@[simp] theorem layK0_3_10 (k : Fin 8) : bits (k.val) 3 10 = 0 := by
  have := k.isLt; unfold bits; omega
theorem layK0_lt (k : Fin 8) : k.val < 8192 := by
  have := k.isLt; omega
@[simp] theorem layR_3_2 (r : RotSz) : bits (r.code * 8) 3 2 = r.code := by
  have := RotSz_lt r; unfold bits; omega
@[simp] theorem layR_5_8 (r : RotSz) : bits (r.code * 8) 5 8 = 0 := by
  have := RotSz_lt r; unfold bits; omega
@[simp] theorem layR_0_3 (r : RotSz) : bits (r.code * 8) 0 3 = 0 := by
  have := RotSz_lt r; unfold bits; omega
theorem layR_lt (r : RotSz) : r.code * 8 < 8192 := by
  have := RotSz_lt r; omega
@[simp] theorem layX_10_1 (b : Bool) (f : FTy) (s : Fin 4) (k : Fin 8) : bits
  (bit b * 1024 + f.code * 256 + s.val * 64 + k.val * 8) 10 1 = bit b := by
  have := bit_lt b; have := FTy_lt f; have := s.isLt; have := k.isLt; unfold bits; omega
@[simp] theorem layX_11_2 (b : Bool) (f : FTy) (s : Fin 4) (k : Fin 8) : bits
  (bit b * 1024 + f.code * 256 + s.val * 64 + k.val * 8) 11 2 = 0 := by
  have := bit_lt b; have := FTy_lt f; have := s.isLt; have := k.isLt; unfold bits; omega
@[simp] theorem layX_0_3 (b : Bool) (f : FTy) (s : Fin 4) (k : Fin 8) : bits
  (bit b * 1024 + f.code * 256 + s.val * 64 + k.val * 8) 0 3 = 0 := by
  have := bit_lt b; have := FTy_lt f; have := s.isLt; have := k.isLt; unfold bits; omega
@[simp] theorem layX_8_2 (b : Bool) (f : FTy) (s : Fin 4) (k : Fin 8) : bits
  (bit b * 1024 + f.code * 256 + s.val * 64 + k.val * 8) 8 2 = f.code := by
  have := bit_lt b; have := FTy_lt f; have := s.isLt; have := k.isLt; unfold bits; omega
@[simp] theorem layX_6_2 (b : Bool) (f : FTy) (s : Fin 4) (k : Fin 8) : bits
  (bit b * 1024 + f.code * 256 + s.val * 64 + k.val * 8) 6 2 = s.val := by
  have := bit_lt b; have := FTy_lt f; have := s.isLt; have := k.isLt; unfold bits; omega
@[simp] theorem layX_3_3 (b : Bool) (f : FTy) (s : Fin 4) (k : Fin 8) : bits
  (bit b * 1024 + f.code * 256 + s.val * 64 + k.val * 8) 3 3 = k.val := by
  have := bit_lt b; have := FTy_lt f; have := s.isLt; have := k.isLt; unfold bits; omega
theorem layX_lt (b : Bool) (f : FTy) (s : Fin 4) (k : Fin 8) : bit b * 1024 + f.code * 256 + s.val * 64 + k.val * 8
  < 8192 := by
  have := bit_lt b; have := FTy_lt f; have := s.isLt; have := k.isLt; omega
@[simp] theorem layM_11_1 (a : Bool) (f : Bool) (p : SpMode) (m : FmFmt) : bits
  (bit a * 2048 + bit f * 1024 + p.code * 256 + m.code * 8) 11 1 = bit a := by
  have := bit_lt a; have := bit_lt f; have := SpMode_lt p; have := FmFmt_lt m; unfold bits; omega
@[simp] theorem layM_12_1 (a : Bool) (f : Bool) (p : SpMode) (m : FmFmt) : bits
  (bit a * 2048 + bit f * 1024 + p.code * 256 + m.code * 8) 12 1 = 0 := by
  have := bit_lt a; have := bit_lt f; have := SpMode_lt p; have := FmFmt_lt m; unfold bits; omega
@[simp] theorem layM_0_3 (a : Bool) (f : Bool) (p : SpMode) (m : FmFmt) : bits
  (bit a * 2048 + bit f * 1024 + p.code * 256 + m.code * 8) 0 3 = 0 := by
  have := bit_lt a; have := bit_lt f; have := SpMode_lt p; have := FmFmt_lt m; unfold bits; omega
@[simp] theorem layM_3_5 (a : Bool) (f : Bool) (p : SpMode) (m : FmFmt) : bits
  (bit a * 2048 + bit f * 1024 + p.code * 256 + m.code * 8) 3 5 = m.code := by
  have := bit_lt a; have := bit_lt f; have := SpMode_lt p; have := FmFmt_lt m; unfold bits; omega
@[simp] theorem layM_10_1 (a : Bool) (f : Bool) (p : SpMode) (m : FmFmt) : bits
  (bit a * 2048 + bit f * 1024 + p.code * 256 + m.code * 8) 10 1 = bit f := by
  have := bit_lt a; have := bit_lt f; have := SpMode_lt p; have := FmFmt_lt m; unfold bits; omega
@[simp] theorem layM_8_2 (a : Bool) (f : Bool) (p : SpMode) (m : FmFmt) : bits
  (bit a * 2048 + bit f * 1024 + p.code * 256 + m.code * 8) 8 2 = p.code := by
  have := bit_lt a; have := bit_lt f; have := SpMode_lt p; have := FmFmt_lt m; unfold bits; omega
theorem layM_lt (a : Bool) (f : Bool) (p : SpMode) (m : FmFmt) : bit a * 2048 + bit f * 1024 + p.code * 256 + m.code
  * 8 < 8192 := by
  have := bit_lt a; have := bit_lt f; have := SpMode_lt p; have := FmFmt_lt m; omega
@[simp] theorem layMc_4_4 (n : Fin 16) (s : Nat) (_h : s < 16) : bits (n.val * 16 + s) 4 4 = n.val := by
  have := n.isLt; unfold bits; omega
@[simp] theorem layMc_0_4 (n : Fin 16) (s : Nat) (_h : s < 16) : bits (n.val * 16 + s) 0 4 = s := by
  have := n.isLt; unfold bits; omega
theorem layMc_lt (n : Fin 16) (s : Nat) (_h : s < 16) : n.val * 16 + s < 256 := by
  have := n.isLt; omega
@[simp] theorem layTk_8_5 (k : Fin 16) : bits ((k.val + 1) * 8) 8 5 = 0 := by
  have := k.isLt; unfold bits; omega
@[simp] theorem layTk_0_3 (k : Fin 16) : bits ((k.val + 1) * 8) 0 3 = 0 := by
  have := k.isLt; unfold bits; omega
@[simp] theorem layTk_3_5 (k : Fin 16) : bits ((k.val + 1) * 8) 3 5 = k.val + 1 := by
  have := k.isLt; unfold bits; omega
theorem layTk_lt (k : Fin 16) : (k.val + 1) * 8 < 8192 := by
  have := k.isLt; omega
@[simp] theorem layLen_9_4 (n : Fin 64) : bits (n.val * 8) 9 4 = 0 := by
  have := n.isLt; unfold bits; omega
@[simp] theorem layLen_0_3 (n : Fin 64) : bits (n.val * 8) 0 3 = 0 := by
  have := n.isLt; unfold bits; omega
@[simp] theorem layLen_3_6 (n : Fin 64) : bits (n.val * 8) 3 6 = n.val := by
  have := n.isLt; unfold bits; omega
theorem layLen_lt (n : Fin 64) : n.val * 8 < 8192 := by
  have := n.isLt; omega
@[simp] theorem layImm_3_1 (v : BitVec 9) : bits (v.toNat * 16 + 8) 3 1 = 1 := by
  have := v.isLt; unfold bits; omega
@[simp] theorem layImm_0_3 (v : BitVec 9) : bits (v.toNat * 16 + 8) 0 3 = 0 := by
  have := v.isLt; unfold bits; omega
@[simp] theorem layImm_4_9 (v : BitVec 9) : bits (v.toNat * 16 + 8) 4 9 = v.toNat := by
  have := v.isLt; unfold bits; omega
theorem layImm_lt (v : BitVec 9) : v.toNat * 16 + 8 < 8192 := by
  have := v.isLt; omega
@[simp] theorem layDisp_0_5 (v : BitVec 8) : bits (v.toNat * 32) 0 5 = 0 := by
  have := v.isLt; unfold bits; omega
@[simp] theorem layDisp_5_8 (v : BitVec 8) : bits (v.toNat * 32) 5 8 = v.toNat := by
  have := v.isLt; unfold bits; omega
theorem layDisp_lt (v : BitVec 8) : v.toNat * 32 < 8192 := by
  have := v.isLt; omega
@[simp] theorem laySel_5_8 (s : Fin 4) : bits (s.val * 8) 5 8 = 0 := by
  have := s.isLt; unfold bits; omega
@[simp] theorem laySel_8_5 (s : Fin 4) : bits (s.val * 8) 8 5 = 0 := by
  have := s.isLt; unfold bits; omega
@[simp] theorem laySel_0_3 (s : Fin 4) : bits (s.val * 8) 0 3 = 0 := by
  have := s.isLt; unfold bits; omega
@[simp] theorem laySel_3_2 (s : Fin 4) : bits (s.val * 8) 3 2 = s.val := by
  have := s.isLt; unfold bits; omega
@[simp] theorem laySel_3_5 (s : Fin 4) : bits (s.val * 8) 3 5 = s.val := by
  have := s.isLt; unfold bits; omega
theorem laySel_lt (s : Fin 4) : s.val * 8 < 8192 := by
  have := s.isLt; omega
@[simp] theorem layClr_10_3 (v : BitVec 7) : bits (v.toNat * 8) 10 3 = 0 := by
  have := v.isLt; unfold bits; omega
@[simp] theorem layClr_0_3 (v : BitVec 7) : bits (v.toNat * 8) 0 3 = 0 := by
  have := v.isLt; unfold bits; omega
@[simp] theorem layClr_3_7 (v : BitVec 7) : bits (v.toNat * 8) 3 7 = v.toNat := by
  have := v.isLt; unfold bits; omega
theorem layClr_lt (v : BitVec 7) : v.toNat * 8 < 8192 := by
  have := v.isLt; omega
@[simp] theorem layMcl_3_1 (v : BitVec 7) (b : Bool) : bits (v.toNat * 16 + bit b * 8) 3 1 = bit b := by
  have := v.isLt; have := bit_lt b; unfold bits; omega
@[simp] theorem layMcl_11_2 (v : BitVec 7) (b : Bool) : bits (v.toNat * 16 + bit b * 8) 11 2 = 0 := by
  have := v.isLt; have := bit_lt b; unfold bits; omega
@[simp] theorem layMcl_0_3 (v : BitVec 7) (b : Bool) : bits (v.toNat * 16 + bit b * 8) 0 3 = 0 := by
  have := v.isLt; have := bit_lt b; unfold bits; omega
@[simp] theorem layMcl_4_7 (v : BitVec 7) (b : Bool) : bits (v.toNat * 16 + bit b * 8) 4 7 = v.toNat := by
  have := v.isLt; have := bit_lt b; unfold bits; omega
theorem layMcl_lt (v : BitVec 7) (b : Bool) : v.toNat * 16 + bit b * 8 < 8192 := by
  have := v.isLt; have := bit_lt b; omega
@[simp] theorem laySw_4_1 (g : SwxSeg) (b : Bool) : bits (g.code * 1024 + bit b * 8) 4 1 = 0 := by
  have := SwxSeg_lt g; have := bit_lt b; unfold bits; omega
@[simp] theorem laySw_5_5 (g : SwxSeg) (b : Bool) : bits (g.code * 1024 + bit b * 8) 5 5 = 0 := by
  have := SwxSeg_lt g; have := bit_lt b; unfold bits; omega
@[simp] theorem laySw_0_3 (g : SwxSeg) (b : Bool) : bits (g.code * 1024 + bit b * 8) 0 3 = 0 := by
  have := SwxSeg_lt g; have := bit_lt b; unfold bits; omega
@[simp] theorem laySw_3_1 (g : SwxSeg) (b : Bool) : bits (g.code * 1024 + bit b * 8) 3 1 = bit b := by
  have := SwxSeg_lt g; have := bit_lt b; unfold bits; omega
@[simp] theorem laySw_10_3 (g : SwxSeg) (b : Bool) : bits (g.code * 1024 + bit b * 8) 10 3 = g.code := by
  have := SwxSeg_lt g; have := bit_lt b; unfold bits; omega
theorem laySw_lt (g : SwxSeg) (b : Bool) : g.code * 1024 + bit b * 8 < 8192 := by
  have := SwxSeg_lt g; have := bit_lt b; omega
@[simp] theorem laySwi_4_1 (g : SwxSeg) (v : BitVec 5) (b : Bool) : bits
  (g.code * 1024 + v.toNat * 32 + 16 + bit b * 8) 4 1 = 1 := by
  have := SwxSeg_lt g; have := v.isLt; have := bit_lt b; unfold bits; omega
@[simp] theorem laySwi_5_5 (g : SwxSeg) (v : BitVec 5) (b : Bool) : bits
  (g.code * 1024 + v.toNat * 32 + 16 + bit b * 8) 5 5 = v.toNat := by
  have := SwxSeg_lt g; have := v.isLt; have := bit_lt b; unfold bits; omega
@[simp] theorem laySwi_0_3 (g : SwxSeg) (v : BitVec 5) (b : Bool) : bits
  (g.code * 1024 + v.toNat * 32 + 16 + bit b * 8) 0 3 = 0 := by
  have := SwxSeg_lt g; have := v.isLt; have := bit_lt b; unfold bits; omega
@[simp] theorem laySwi_3_1 (g : SwxSeg) (v : BitVec 5) (b : Bool) : bits
  (g.code * 1024 + v.toNat * 32 + 16 + bit b * 8) 3 1 = bit b := by
  have := SwxSeg_lt g; have := v.isLt; have := bit_lt b; unfold bits; omega
@[simp] theorem laySwi_10_3 (g : SwxSeg) (v : BitVec 5) (b : Bool) : bits
  (g.code * 1024 + v.toNat * 32 + 16 + bit b * 8) 10 3 = g.code := by
  have := SwxSeg_lt g; have := v.isLt; have := bit_lt b; unfold bits; omega
theorem laySwi_lt (g : SwxSeg) (v : BitVec 5) (b : Bool) : g.code * 1024 + v.toNat * 32 + 16 + bit b * 8 < 8192 := by
  have := SwxSeg_lt g; have := v.isLt; have := bit_lt b; omega
@[simp] theorem laySwF_0_2 (b : Bool) (m : SwxMode) : bits (bit b * 4 + m.code) 0 2 = m.code := by
  have := bit_lt b; have := SwxMode_lt m; unfold bits; omega
@[simp] theorem laySwF_2_1 (b : Bool) (m : SwxMode) : bits (bit b * 4 + m.code) 2 1 = bit b := by
  have := bit_lt b; have := SwxMode_lt m; unfold bits; omega
@[simp] theorem laySwF_lt (b : Bool) (m : SwxMode) : bit b * 4 + m.code < 8 := by
  have := bit_lt b; have := SwxMode_lt m; omega
@[simp] theorem layQxF_0_2 (b : Bool) (m : QxchMode) : bits (bit b * 4 + m.code) 0 2 = m.code := by
  have := bit_lt b; have := QxchMode_lt m; unfold bits; omega
@[simp] theorem layQxF_2_1 (b : Bool) (m : QxchMode) : bits (bit b * 4 + m.code) 2 1 = bit b := by
  have := bit_lt b; have := QxchMode_lt m; unfold bits; omega
@[simp] theorem layQxF_lt (b : Bool) (m : QxchMode) : bit b * 4 + m.code < 8 := by
  have := bit_lt b; have := QxchMode_lt m; omega
@[simp] theorem layCpy_4_1 (v : Bool) : bits (bit v * 8) 4 1 = 0 := by
  have := bit_lt v; unfold bits; omega
@[simp] theorem layCpy_5_2 (v : Bool) : bits (bit v * 8) 5 2 = 0 := by
  have := bit_lt v; unfold bits; omega
@[simp] theorem layCpy_7_6 (v : Bool) : bits (bit v * 8) 7 6 = 0 := by
  have := bit_lt v; unfold bits; omega
@[simp] theorem layCpy_4_7 (v : Bool) : bits (bit v * 8) 4 7 = 0 := by
  have := bit_lt v; unfold bits; omega
@[simp] theorem layCpy_11_2 (v : Bool) : bits (bit v * 8) 11 2 = 0 := by
  have := bit_lt v; unfold bits; omega
theorem layCpy_lt (v : Bool) : bit v * 8 < 8192 := by
  have := bit_lt v; omega
@[simp] theorem layCpyB_3_1 (v : Bool) : bits (16 + bit v * 8) 3 1 = bit v := by
  have := bit_lt v; unfold bits; omega
@[simp] theorem layCpyB_4_1 (v : Bool) : bits (16 + bit v * 8) 4 1 = 1 := by
  have := bit_lt v; unfold bits; omega
@[simp] theorem layCpyB_5_2 (v : Bool) : bits (16 + bit v * 8) 5 2 = 0 := by
  have := bit_lt v; unfold bits; omega
@[simp] theorem layCpyB_7_6 (v : Bool) : bits (16 + bit v * 8) 7 6 = 0 := by
  have := bit_lt v; unfold bits; omega
@[simp] theorem layCpyB_0_3 (v : Bool) : bits (16 + bit v * 8) 0 3 = 0 := by
  have := bit_lt v; unfold bits; omega
theorem layCpyB_lt (v : Bool) : 16 + bit v * 8 < 8192 := by
  have := bit_lt v; omega
@[simp] theorem layHal_3_1 (h : Fin 4) : bits (h.val * 32) 3 1 = 0 := by
  have := h.isLt; unfold bits; omega
@[simp] theorem layHal_4_1 (h : Fin 4) : bits (h.val * 32) 4 1 = 0 := by
  have := h.isLt; unfold bits; omega
@[simp] theorem layHal_5_2 (h : Fin 4) : bits (h.val * 32) 5 2 = h.val := by
  have := h.isLt; unfold bits; omega
@[simp] theorem layHal_7_6 (h : Fin 4) : bits (h.val * 32) 7 6 = 0 := by
  have := h.isLt; unfold bits; omega
@[simp] theorem layHal_0_3 (h : Fin 4) : bits (h.val * 32) 0 3 = 0 := by
  have := h.isLt; unfold bits; omega
theorem layHal_lt (h : Fin 4) : h.val * 32 < 8192 := by
  have := h.isLt; omega
@[simp] theorem layHalB_3_1 (h : Fin 4) : bits (h.val * 32 + 16) 3 1 = 0 := by
  have := h.isLt; unfold bits; omega
@[simp] theorem layHalB_4_1 (h : Fin 4) : bits (h.val * 32 + 16) 4 1 = 1 := by
  have := h.isLt; unfold bits; omega
@[simp] theorem layHalB_5_2 (h : Fin 4) : bits (h.val * 32 + 16) 5 2 = h.val := by
  have := h.isLt; unfold bits; omega
@[simp] theorem layHalB_7_6 (h : Fin 4) : bits (h.val * 32 + 16) 7 6 = 0 := by
  have := h.isLt; unfold bits; omega
@[simp] theorem layHalB_0_3 (h : Fin 4) : bits (h.val * 32 + 16) 0 3 = 0 := by
  have := h.isLt; unfold bits; omega
theorem layHalB_lt (h : Fin 4) : h.val * 32 + 16 < 8192 := by
  have := h.isLt; omega
@[simp] theorem layXs_10_1 (f : FTy) (s : Fin 4) (k : Fin 8) : bits (f.code * 256 + s.val * 64 + k.val * 8) 10 1 = 0
  := by
  have := FTy_lt f; have := s.isLt; have := k.isLt; unfold bits; omega
@[simp] theorem layXs_11_2 (f : FTy) (s : Fin 4) (k : Fin 8) : bits (f.code * 256 + s.val * 64 + k.val * 8) 11 2 = 0
  := by
  have := FTy_lt f; have := s.isLt; have := k.isLt; unfold bits; omega
@[simp] theorem layXs_0_3 (f : FTy) (s : Fin 4) (k : Fin 8) : bits (f.code * 256 + s.val * 64 + k.val * 8) 0 3 = 0
  := by
  have := FTy_lt f; have := s.isLt; have := k.isLt; unfold bits; omega
@[simp] theorem layXs_8_2 (f : FTy) (s : Fin 4) (k : Fin 8) : bits (f.code * 256 + s.val * 64 + k.val * 8) 8 2 =
  f.code := by
  have := FTy_lt f; have := s.isLt; have := k.isLt; unfold bits; omega
@[simp] theorem layXs_6_2 (f : FTy) (s : Fin 4) (k : Fin 8) : bits (f.code * 256 + s.val * 64 + k.val * 8) 6 2 =
  s.val := by
  have := FTy_lt f; have := s.isLt; have := k.isLt; unfold bits; omega
@[simp] theorem layXs_3_3 (f : FTy) (s : Fin 4) (k : Fin 8) : bits (f.code * 256 + s.val * 64 + k.val * 8) 3 3 =
  k.val := by
  have := FTy_lt f; have := s.isLt; have := k.isLt; unfold bits; omega
theorem layXs_lt (f : FTy) (s : Fin 4) (k : Fin 8) : f.code * 256 + s.val * 64 + k.val * 8 < 8192 := by
  have := FTy_lt f; have := s.isLt; have := k.isLt; omega
@[simp] theorem layXt_10_1 (f : FTy) (s : Fin 4) (k : Fin 8) : bits (1024 + f.code * 256 + s.val * 64 + k.val * 8)
  10 1 = 1 := by
  have := FTy_lt f; have := s.isLt; have := k.isLt; unfold bits; omega
@[simp] theorem layXt_11_2 (f : FTy) (s : Fin 4) (k : Fin 8) : bits (1024 + f.code * 256 + s.val * 64 + k.val * 8)
  11 2 = 0 := by
  have := FTy_lt f; have := s.isLt; have := k.isLt; unfold bits; omega
@[simp] theorem layXt_0_3 (f : FTy) (s : Fin 4) (k : Fin 8) : bits (1024 + f.code * 256 + s.val * 64 + k.val * 8) 0
  3 = 0 := by
  have := FTy_lt f; have := s.isLt; have := k.isLt; unfold bits; omega
@[simp] theorem layXt_8_2 (f : FTy) (s : Fin 4) (k : Fin 8) : bits (1024 + f.code * 256 + s.val * 64 + k.val * 8) 8
  2 = f.code := by
  have := FTy_lt f; have := s.isLt; have := k.isLt; unfold bits; omega
@[simp] theorem layXt_6_2 (f : FTy) (s : Fin 4) (k : Fin 8) : bits (1024 + f.code * 256 + s.val * 64 + k.val * 8) 6
  2 = s.val := by
  have := FTy_lt f; have := s.isLt; have := k.isLt; unfold bits; omega
@[simp] theorem layXt_3_3 (f : FTy) (s : Fin 4) (k : Fin 8) : bits (1024 + f.code * 256 + s.val * 64 + k.val * 8) 3
  3 = k.val := by
  have := FTy_lt f; have := s.isLt; have := k.isLt; unfold bits; omega
theorem layXt_lt (f : FTy) (s : Fin 4) (k : Fin 8) : 1024 + f.code * 256 + s.val * 64 + k.val * 8 < 8192 := by
  have := FTy_lt f; have := s.isLt; have := k.isLt; omega
@[simp] theorem layMs_11_1 (f : Bool) (p : SpMode) (m : FmFmt) : bits (bit f * 1024 + p.code * 256 + m.code * 8) 11
  1 = 0 := by
  have := bit_lt f; have := SpMode_lt p; have := FmFmt_lt m; unfold bits; omega
@[simp] theorem layMs_12_1 (f : Bool) (p : SpMode) (m : FmFmt) : bits (bit f * 1024 + p.code * 256 + m.code * 8) 12
  1 = 0 := by
  have := bit_lt f; have := SpMode_lt p; have := FmFmt_lt m; unfold bits; omega
@[simp] theorem layMs_0_3 (f : Bool) (p : SpMode) (m : FmFmt) : bits (bit f * 1024 + p.code * 256 + m.code * 8) 0 3
  = 0 := by
  have := bit_lt f; have := SpMode_lt p; have := FmFmt_lt m; unfold bits; omega
@[simp] theorem layMs_3_5 (f : Bool) (p : SpMode) (m : FmFmt) : bits (bit f * 1024 + p.code * 256 + m.code * 8) 3 5
  = m.code := by
  have := bit_lt f; have := SpMode_lt p; have := FmFmt_lt m; unfold bits; omega
@[simp] theorem layMs_10_1 (f : Bool) (p : SpMode) (m : FmFmt) : bits (bit f * 1024 + p.code * 256 + m.code * 8) 10
  1 = bit f := by
  have := bit_lt f; have := SpMode_lt p; have := FmFmt_lt m; unfold bits; omega
@[simp] theorem layMs_8_2 (f : Bool) (p : SpMode) (m : FmFmt) : bits (bit f * 1024 + p.code * 256 + m.code * 8) 8 2
  = p.code := by
  have := bit_lt f; have := SpMode_lt p; have := FmFmt_lt m; unfold bits; omega
theorem layMs_lt (f : Bool) (p : SpMode) (m : FmFmt) : bit f * 1024 + p.code * 256 + m.code * 8 < 8192 := by
  have := bit_lt f; have := SpMode_lt p; have := FmFmt_lt m; omega
@[simp] theorem layMt_11_1 (f : Bool) (p : SpMode) (m : FmFmt) : bits
  (2048 + bit f * 1024 + p.code * 256 + m.code * 8) 11 1 = 1 := by
  have := bit_lt f; have := SpMode_lt p; have := FmFmt_lt m; unfold bits; omega
@[simp] theorem layMt_12_1 (f : Bool) (p : SpMode) (m : FmFmt) : bits
  (2048 + bit f * 1024 + p.code * 256 + m.code * 8) 12 1 = 0 := by
  have := bit_lt f; have := SpMode_lt p; have := FmFmt_lt m; unfold bits; omega
@[simp] theorem layMt_0_3 (f : Bool) (p : SpMode) (m : FmFmt) : bits
  (2048 + bit f * 1024 + p.code * 256 + m.code * 8) 0 3 = 0 := by
  have := bit_lt f; have := SpMode_lt p; have := FmFmt_lt m; unfold bits; omega
@[simp] theorem layMt_3_5 (f : Bool) (p : SpMode) (m : FmFmt) : bits
  (2048 + bit f * 1024 + p.code * 256 + m.code * 8) 3 5 = m.code := by
  have := bit_lt f; have := SpMode_lt p; have := FmFmt_lt m; unfold bits; omega
@[simp] theorem layMt_10_1 (f : Bool) (p : SpMode) (m : FmFmt) : bits
  (2048 + bit f * 1024 + p.code * 256 + m.code * 8) 10 1 = bit f := by
  have := bit_lt f; have := SpMode_lt p; have := FmFmt_lt m; unfold bits; omega
@[simp] theorem layMt_8_2 (f : Bool) (p : SpMode) (m : FmFmt) : bits
  (2048 + bit f * 1024 + p.code * 256 + m.code * 8) 8 2 = p.code := by
  have := bit_lt f; have := SpMode_lt p; have := FmFmt_lt m; unfold bits; omega
theorem layMt_lt (f : Bool) (p : SpMode) (m : FmFmt) : 2048 + bit f * 1024 + p.code * 256 + m.code * 8 < 8192 := by
  have := bit_lt f; have := SpMode_lt p; have := FmFmt_lt m; omega
@[simp] theorem layNp_4_4 (n : Fin 16) : bits (n.val * 16) 4 4 = n.val := by
  have := n.isLt; unfold bits; omega
@[simp] theorem layNp_0_4 (n : Fin 16) : bits (n.val * 16) 0 4 = 0 := by
  have := n.isLt; unfold bits; omega
theorem layNp_lt (n : Fin 16) : n.val * 16 < 256 := by
  have := n.isLt; omega
@[simp] theorem layNs_4_4 (n : Fin 16) (s : Fin 16) : bits (n.val * 16 + s.val) 4 4 = n.val := by
  have := n.isLt; have := s.isLt; unfold bits; omega
@[simp] theorem layNs_0_4 (n : Fin 16) (s : Fin 16) : bits (n.val * 16 + s.val) 0 4 = s.val := by
  have := n.isLt; have := s.isLt; unfold bits; omega
theorem layNs_lt (n : Fin 16) (s : Fin 16) : n.val * 16 + s.val < 256 := by
  have := n.isLt; have := s.isLt; omega
@[simp] theorem layMcs_3_1 (v : BitVec 7) : bits (v.toNat * 16) 3 1 = 0 := by
  have := v.isLt; unfold bits; omega
@[simp] theorem layMcs_11_2 (v : BitVec 7) : bits (v.toNat * 16) 11 2 = 0 := by
  have := v.isLt; unfold bits; omega
@[simp] theorem layMcs_0_3 (v : BitVec 7) : bits (v.toNat * 16) 0 3 = 0 := by
  have := v.isLt; unfold bits; omega
@[simp] theorem layMcs_4_7 (v : BitVec 7) : bits (v.toNat * 16) 4 7 = v.toNat := by
  have := v.isLt; unfold bits; omega
theorem layMcs_lt (v : BitVec 7) : v.toNat * 16 < 8192 := by
  have := v.isLt; omega
@[simp] theorem layMct_3_1 (v : BitVec 7) : bits (v.toNat * 16 + 8) 3 1 = 1 := by
  have := v.isLt; unfold bits; omega
@[simp] theorem layMct_11_2 (v : BitVec 7) : bits (v.toNat * 16 + 8) 11 2 = 0 := by
  have := v.isLt; unfold bits; omega
@[simp] theorem layMct_0_3 (v : BitVec 7) : bits (v.toNat * 16 + 8) 0 3 = 0 := by
  have := v.isLt; unfold bits; omega
@[simp] theorem layMct_4_7 (v : BitVec 7) : bits (v.toNat * 16 + 8) 4 7 = v.toNat := by
  have := v.isLt; unfold bits; omega
theorem layMct_lt (v : BitVec 7) : v.toNat * 16 + 8 < 8192 := by
  have := v.isLt; omega
@[simp] theorem laySws_3_1 (g : SwxSeg) : bits (g.code * 1024) 3 1 = 0 := by
  have := SwxSeg_lt g; unfold bits; omega
@[simp] theorem laySws_4_1 (g : SwxSeg) : bits (g.code * 1024) 4 1 = 0 := by
  have := SwxSeg_lt g; unfold bits; omega
@[simp] theorem laySws_5_5 (g : SwxSeg) : bits (g.code * 1024) 5 5 = 0 := by
  have := SwxSeg_lt g; unfold bits; omega
@[simp] theorem laySws_0_3 (g : SwxSeg) : bits (g.code * 1024) 0 3 = 0 := by
  have := SwxSeg_lt g; unfold bits; omega
@[simp] theorem laySws_10_3 (g : SwxSeg) : bits (g.code * 1024) 10 3 = g.code := by
  have := SwxSeg_lt g; unfold bits; omega
theorem laySws_lt (g : SwxSeg) : g.code * 1024 < 8192 := by
  have := SwxSeg_lt g; omega
@[simp] theorem laySwt_3_1 (g : SwxSeg) : bits (g.code * 1024 + 8) 3 1 = 1 := by
  have := SwxSeg_lt g; unfold bits; omega
@[simp] theorem laySwt_4_1 (g : SwxSeg) : bits (g.code * 1024 + 8) 4 1 = 0 := by
  have := SwxSeg_lt g; unfold bits; omega
@[simp] theorem laySwt_5_5 (g : SwxSeg) : bits (g.code * 1024 + 8) 5 5 = 0 := by
  have := SwxSeg_lt g; unfold bits; omega
@[simp] theorem laySwt_0_3 (g : SwxSeg) : bits (g.code * 1024 + 8) 0 3 = 0 := by
  have := SwxSeg_lt g; unfold bits; omega
@[simp] theorem laySwt_10_3 (g : SwxSeg) : bits (g.code * 1024 + 8) 10 3 = g.code := by
  have := SwxSeg_lt g; unfold bits; omega
theorem laySwt_lt (g : SwxSeg) : g.code * 1024 + 8 < 8192 := by
  have := SwxSeg_lt g; omega
@[simp] theorem laySwu_3_1 (g : SwxSeg) (v : BitVec 5) : bits (g.code * 1024 + v.toNat * 32 + 16) 3 1 = 0 := by
  have := SwxSeg_lt g; have := v.isLt; unfold bits; omega
@[simp] theorem laySwu_4_1 (g : SwxSeg) (v : BitVec 5) : bits (g.code * 1024 + v.toNat * 32 + 16) 4 1 = 1 := by
  have := SwxSeg_lt g; have := v.isLt; unfold bits; omega
@[simp] theorem laySwu_5_5 (g : SwxSeg) (v : BitVec 5) : bits (g.code * 1024 + v.toNat * 32 + 16) 5 5 = v.toNat := by
  have := SwxSeg_lt g; have := v.isLt; unfold bits; omega
@[simp] theorem laySwu_0_3 (g : SwxSeg) (v : BitVec 5) : bits (g.code * 1024 + v.toNat * 32 + 16) 0 3 = 0 := by
  have := SwxSeg_lt g; have := v.isLt; unfold bits; omega
@[simp] theorem laySwu_10_3 (g : SwxSeg) (v : BitVec 5) : bits (g.code * 1024 + v.toNat * 32 + 16) 10 3 = g.code := by
  have := SwxSeg_lt g; have := v.isLt; unfold bits; omega
theorem laySwu_lt (g : SwxSeg) (v : BitVec 5) : g.code * 1024 + v.toNat * 32 + 16 < 8192 := by
  have := SwxSeg_lt g; have := v.isLt; omega
@[simp] theorem laySwv_3_1 (g : SwxSeg) (v : BitVec 5) : bits (g.code * 1024 + v.toNat * 32 + 16 + 8) 3 1 = 1 := by
  have := SwxSeg_lt g; have := v.isLt; unfold bits; omega
@[simp] theorem laySwv_4_1 (g : SwxSeg) (v : BitVec 5) : bits (g.code * 1024 + v.toNat * 32 + 16 + 8) 4 1 = 1 := by
  have := SwxSeg_lt g; have := v.isLt; unfold bits; omega
@[simp] theorem laySwv_5_5 (g : SwxSeg) (v : BitVec 5) : bits (g.code * 1024 + v.toNat * 32 + 16 + 8) 5 5 = v.toNat
  := by
  have := SwxSeg_lt g; have := v.isLt; unfold bits; omega
@[simp] theorem laySwv_0_3 (g : SwxSeg) (v : BitVec 5) : bits (g.code * 1024 + v.toNat * 32 + 16 + 8) 0 3 = 0 := by
  have := SwxSeg_lt g; have := v.isLt; unfold bits; omega
@[simp] theorem laySwv_10_3 (g : SwxSeg) (v : BitVec 5) : bits (g.code * 1024 + v.toNat * 32 + 16 + 8) 10 3 = g.code
  := by
  have := SwxSeg_lt g; have := v.isLt; unfold bits; omega
theorem laySwv_lt (g : SwxSeg) (v : BitVec 5) : g.code * 1024 + v.toNat * 32 + 16 + 8 < 8192 := by
  have := SwxSeg_lt g; have := v.isLt; omega
@[simp] theorem laySwF2_0_2 (m : SwxMode) : bits (4 + m.code) 0 2 = m.code := by
  have := SwxMode_lt m; unfold bits; omega
@[simp] theorem laySwF2_2_1 (m : SwxMode) : bits (4 + m.code) 2 1 = 1 := by
  have := SwxMode_lt m; unfold bits; omega
theorem laySwF2_lt (m : SwxMode) : 4 + m.code < 8 := by
  have := SwxMode_lt m; omega
theorem ov_lt {n : Nat} (r : Option (Fin n)) (h : n ≤ 256) : ov r < 256 := by
  cases r with
  | none => exact Nat.zero_lt_succ _
  | some r => exact Nat.lt_of_lt_of_le r.isLt h
theorem of_encR {op fn d a b c x : Nat} {g : Guard} {l : DWord} {i : Instr} (ho : op < 256) (hf : fn < 64)
  (hd : d < 256)
    (ha : a < 256) (hb : b < 256) (hc : c < 256) (hx : x < 8192) (hw : i.wf = true)
    (h : decodeOp ⟨op, g.p.val, bit g.neg, fn, d, a, b, c, x, b * 2 ^ 21 + c * 2 ^ 13 + x, c * 2 ^ 13 + x⟩ l = .ok i) :
    decodeAny (encR op g fn d a b c x) l = .ok i :=
  gate ((congrArg (decodeOp · l) (ofWord_encR ho hf hd ha hb hc hx)).trans h) hw
theorem of_encI {op fn d a : Nat} {g : Guard} {imm : BitVec 29} {l : DWord} {i : Instr} (ho : op < 256) (hf : fn < 64)
    (hd : d < 256) (ha : a < 256) (hw : i.wf = true)
    (h : decodeOp ⟨op, g.p.val, bit g.neg, fn, d, a, imm.toNat / 2 ^ 21, imm.toNat / 2 ^ 13 % 256, imm.toNat % 2 ^ 13,
      imm.toNat, imm.toNat % 2 ^ 21⟩ l = .ok i) : decodeAny (encI op g fn d a imm) l = .ok i :=
  gate ((congrArg (decodeOp · l) (ofWord_encI ho hf hd ha)).trans h) hw
theorem of_encM {op fn d a b : Nat} {g : Guard} {ofs : BitVec 21} {l : DWord} {i : Instr} (ho : op < 256)
  (hf : fn < 64)
    (hd : d < 256) (ha : a < 256) (hb : b < 256) (hw : i.wf = true)
    (h : decodeOp ⟨op, g.p.val, bit g.neg, fn, d, a, b, ofs.toNat / 2 ^ 13, ofs.toNat % 2 ^ 13, b * 2 ^ 21 + ofs.toNat,
      ofs.toNat⟩ l = .ok i) : decodeAny (encM op g fn d a b ofs) l = .ok i :=
  gate ((congrArg (decodeOp · l) (ofWord_encM ho hf hd ha hb)).trans h) hw
@[simp] theorem flag_zero : flag 0 = false := rfl
@[simp] theorem flag_one : flag 1 = true := rfl
@[simp] theorem bit_true : bit true = 1 := rfl
@[simp] theorem bit_false : bit false = 0 := rfl
@[simp] theorem g0_p : g0.p = 0 := rfl
@[simp] theorem g0_neg : g0.neg = false := rfl
@[simp] theorem bits_zero (lo w : Nat) : bits 0 lo w = 0 := by simp [bits]
@[simp] theorem lit_8_4_7 : bits 8 4 7 = 0 := rfl
@[simp] theorem lit_8_11_2 : bits 8 11 2 = 0 := rfl
@[simp] theorem lit_8_4_9 : bits 8 4 9 = 0 := rfl
@[simp] theorem lit_8_0_3 : bits 8 0 3 = 0 := rfl
@[simp] theorem lit_8_3_1 : bits 8 3 1 = 1 := rfl
@[simp] theorem lit_8_5_8 : bits 8 5 8 = 0 := rfl
@[simp] theorem lit_8_3_2 : bits 8 3 2 = 1 := rfl
@[simp] theorem lit_8_4_1 : bits 8 4 1 = 0 := rfl
@[simp] theorem lit_8_6_7 : bits 8 6 7 = 0 := rfl
@[simp] theorem lit_8_9_4 : bits 8 9 4 = 0 := rfl
@[simp] theorem lit_16_5_2 : bits 16 5 2 = 0 := rfl
@[simp] theorem lit_16_3_1 : bits 16 3 1 = 0 := rfl
@[simp] theorem lit_16_7_6 : bits 16 7 6 = 0 := rfl
@[simp] theorem lit_16_0_3 : bits 16 0 3 = 0 := rfl
@[simp] theorem lit_16_4_1 : bits 16 4 1 = 1 := rfl
@[simp] theorem lit_16_5_8 : bits 16 5 8 = 0 := rfl
@[simp] theorem lit_16_3_2 : bits 16 3 2 = 2 := rfl
@[simp] theorem lit_24_5_8 : bits 24 5 8 = 0 := rfl
@[simp] theorem lit_24_3_2 : bits 24 3 2 = 3 := rfl
@[simp] theorem lit_24_0_3 : bits 24 0 3 = 0 := rfl
@[simp] theorem lit_32_6_7 : bits 32 6 7 = 0 := rfl
@[simp] theorem lit_32_0_3 : bits 32 0 3 = 0 := rfl
@[simp] theorem lit_32_3_3 : bits 32 3 3 = 4 := rfl
@[simp] theorem lit_40_6_7 : bits 40 6 7 = 0 := rfl
@[simp] theorem lit_40_0_3 : bits 40 0 3 = 0 := rfl
@[simp] theorem lit_40_3_3 : bits 40 3 3 = 5 := rfl

@[simp] theorem trap_hi (v : BitVec 16) : bits (v.toNat % 536870912) 16 13 = 0 := by
  have := v.isLt
  unfold bits
  omega
@[simp] theorem trap_lo (v : BitVec 16) : bits (v.toNat % 536870912) 0 16 = v.toNat := by
  have := v.isLt
  unfold bits
  omega

theorem lvA_lt1 (s : Scope) : lvA 1 (some s) < 256 := by cases s <;> decide
theorem lvA_lt2 (s : Scope) : lvA 2 (some s) < 256 := by cases s <;> decide
@[simp] theorem topk_rt (k : Fin 16) : topkCode (k.val + 1) = some k := by revert k; decide

@[simp] theorem scmp_rt (s : Bool) (c : Cmp) : scmpCode (scmpFn s c) = some (s, c) := by
  cases s <;> cases c <;> rfl

theorem ov_lt16 (r : Option (Fin 16)) : ov r < 16 := by
  cases r with
  | none => exact Nat.zero_lt_succ _
  | some r => exact r.isLt
theorem lvA_lt (k : Nat) (s : Option Scope) (h : k < 4) : lvA k s < 32 := by
  cases s with
  | none => exact Nat.zero_lt_succ _
  | some s => have := Scope_lt s; simp only [lvA]; omega
theorem SwxFn_lt (b : Bool) (m : SwxMode) : bit b * 4 + m.code < 64 := by cases b <;> cases m <;> decide
theorem sg_lt (o : AtomOp) : o.sg < 2 := by
  cases o with
  | min s => cases s <;> decide
  | max s => cases s <;> decide
  | _ => decide
@[simp] theorem AtomOp_rt (o : AtomOp) : AtomOp.ofCode o.code (flag o.sg) = some o := by
  cases o with
  | min s => cases s <;> rfl
  | max s => cases s <;> rfl
  | _ => rfl
@[simp] theorem sgFree_op (o : AtomOp) : sgFree o.code o.sg = 0 := by
  cases o with
  | min s => cases s <;> rfl
  | max s => cases s <;> rfl
  | _ => rfl
theorem AtomOp_ne (o : AtomOp) : o.code ≠ 7 := by cases o <;> simp [AtomOp.code]
theorem AtomOp_lt (o : AtomOp) : o.code < 64 := by cases o <;> simp [AtomOp.code]
theorem atX_lt (l g : Nat) (w : Bool) (o : Ord2) (s : Scope) (hl : l < 8) (hg : g < 2) : atX l g w o s < 8192 := by
  have := bit_lt w; have := Ord2_lt o; have := Scope_lt s; simp only [atX]; omega
theorem atX_fields (l g : Nat) (w : Bool) (o : Ord2) (s : Scope) (hl : l < 8) (hg : g < 2) :
    bits (atX l g w o s) 10 3 = l ∧ bits (atX l g w o s) 9 1 = g ∧ bits (atX l g w o s) 8 1 = bit w ∧
      bits (atX l g w o s) 6 2 = o.code ∧ bits (atX l g w o s) 3 3 = s.code ∧ bits (atX l g w o s) 0 3 = 0 := by
  have := bit_lt w; have := Ord2_lt o; have := Scope_lt s; simp only [atX, bits]; omega

end Sys2Proof.Laws
end

