-- ==== Sys2Proof/Laws/PerInstr.lean ====
section
/-!
SUPPORT. Laws/PerInstr.lean: the statements made for each constructor of Instr. Family Encoding: the words that
encode writes for a well-formed instruction decode to that instruction; a step of the device has no word.
-/
set_option linter.unusedSimpArgs false
namespace Sys2Proof.Laws

/-! ### What each opcode is decoded by -/

theorem decodeOp_01 (f : Fields) (lit : DWord) (h : f.op = 0x01) : decodeOp f lit = decInt f := by cases f; cases h; rfl
theorem decodeOp_02 (f : Fields) (lit : DWord) (h : f.op = 0x02) : decodeOp f lit = decIntI f := by cases f; cases h; rfl
theorem decodeOp_03 (f : Fields) (lit : DWord) (h : f.op = 0x03) : decodeOp f lit = decIntL f lit := by cases f; cases h; rfl
theorem decodeOp_04 (f : Fields) (lit : DWord) (h : f.op = 0x04) : decodeOp f lit = decLog f := by cases f; cases h; rfl
theorem decodeOp_05 (f : Fields) (lit : DWord) (h : f.op = 0x05) : decodeOp f lit = decLogI f := by cases f; cases h; rfl
theorem decodeOp_06 (f : Fields) (lit : DWord) (h : f.op = 0x06) : decodeOp f lit = decLogL f lit := by cases f; cases h; rfl
theorem decodeOp_07 (f : Fields) (lit : DWord) (h : f.op = 0x07) : decodeOp f lit = decBits f := by cases f; cases h; rfl
theorem decodeOp_08 (f : Fields) (lit : DWord) (h : f.op = 0x08) : decodeOp f lit = decSetp f := by cases f; cases h; rfl
theorem decodeOp_09 (f : Fields) (lit : DWord) (h : f.op = 0x09) : decodeOp f lit = decSetpI f := by cases f; cases h; rfl
theorem decodeOp_0A (f : Fields) (lit : DWord) (h : f.op = 0x0A) : decodeOp f lit = decSetpL f lit := by cases f; cases h; rfl
theorem decodeOp_0B (f : Fields) (lit : DWord) (h : f.op = 0x0B) : decodeOp f lit = decPred f := by cases f; cases h; rfl
theorem decodeOp_0C (f : Fields) (lit : DWord) (h : f.op = 0x0C) : decodeOp f lit = decSel f := by cases f; cases h; rfl
theorem decodeOp_0D (f : Fields) (lit : DWord) (h : f.op = 0x0D) : decodeOp f lit = decMovi f := by cases f; cases h; rfl
theorem decodeOp_0E (f : Fields) (lit : DWord) (h : f.op = 0x0E) : decodeOp f lit = decMovl f lit := by cases f; cases h; rfl
theorem decodeOp_0F (f : Fields) (lit : DWord) (h : f.op = 0x0F) : decodeOp f lit = decLea f := by cases f; cases h; rfl
theorem decodeOp_20 (f : Fields) (lit : DWord) (h : f.op = 0x20) : decodeOp f lit = decFlo f := by cases f; cases h; rfl
theorem decodeOp_21 (f : Fields) (lit : DWord) (h : f.op = 0x21) : decodeOp f lit = decFloL f lit := by cases f; cases h; rfl
theorem decodeOp_22 (f : Fields) (lit : DWord) (h : f.op = 0x22) : decodeOp f lit = decFsetp f := by cases f; cases h; rfl
theorem decodeOp_23 (f : Fields) (lit : DWord) (h : f.op = 0x23) : decodeOp f lit = decFsetpL f lit := by cases f; cases h; rfl
theorem decodeOp_30 (f : Fields) (lit : DWord) (h : f.op = 0x30) : decodeOp f lit = decDbl f := by cases f; cases h; rfl
theorem decodeOp_31 (f : Fields) (lit : DWord) (h : f.op = 0x31) : decodeOp f lit = decDblL f lit := by cases f; cases h; rfl
theorem decodeOp_32 (f : Fields) (lit : DWord) (h : f.op = 0x32) : decodeOp f lit = decDsetp f := by cases f; cases h; rfl
theorem decodeOp_33 (f : Fields) (lit : DWord) (h : f.op = 0x33) : decodeOp f lit = decDsetpL f lit := by cases f; cases h; rfl
theorem decodeOp_38 (f : Fields) (lit : DWord) (h : f.op = 0x38) : decodeOp f lit = decCvt f := by cases f; cases h; rfl
theorem decodeOp_40 (f : Fields) (lit : DWord) (h : f.op = 0x40) : decodeOp f lit = decLd f := by cases f; cases h; rfl
theorem decodeOp_41 (f : Fields) (lit : DWord) (h : f.op = 0x41) : decodeOp f lit = decSt f := by cases f; cases h; rfl
theorem decodeOp_42 (f : Fields) (lit : DWord) (h : f.op = 0x42) : decodeOp f lit = decLdLv f := by cases f; cases h; rfl
theorem decodeOp_43 (f : Fields) (lit : DWord) (h : f.op = 0x43) : decodeOp f lit = decStLv f := by cases f; cases h; rfl
theorem decodeOp_46 (f : Fields) (lit : DWord) (h : f.op = 0x46) : decodeOp f lit = decAtom f := by cases f; cases h; rfl
theorem decodeOp_50 (f : Fields) (lit : DWord) (h : f.op = 0x50) : decodeOp f lit = decBra f := by cases f; cases h; rfl
theorem decodeOp_51 (f : Fields) (lit : DWord) (h : f.op = 0x51) : decodeOp f lit = decBrx f := by cases f; cases h; rfl
theorem decodeOp_52 (f : Fields) (lit : DWord) (h : f.op = 0x52) : decodeOp f lit = decBru f := by cases f; cases h; rfl
theorem decodeOp_53 (f : Fields) (lit : DWord) (h : f.op = 0x53) : decodeOp f lit = decCall f := by cases f; cases h; rfl
theorem decodeOp_54 (f : Fields) (lit : DWord) (h : f.op = 0x54) : decodeOp f lit = decRet f := by cases f; cases h; rfl
theorem decodeOp_58 (f : Fields) (lit : DWord) (h : f.op = 0x58) : decodeOp f lit = decVote f := by cases f; cases h; rfl
theorem decodeOp_59 (f : Fields) (lit : DWord) (h : f.op = 0x59) : decodeOp f lit = decSwx f := by cases f; cases h; rfl
theorem decodeOp_5A (f : Fields) (lit : DWord) (h : f.op = 0x5A) : decodeOp f lit = decQxch f := by cases f; cases h; rfl
theorem decodeOp_5B (f : Fields) (lit : DWord) (h : f.op = 0x5B) : decodeOp f lit = decRegroup f := by cases f; cases h; rfl
theorem decodeOp_5C (f : Fields) (lit : DWord) (h : f.op = 0x5C) : decodeOp f lit = decRegroupL f lit := by cases f; cases h; rfl
theorem decodeOp_5D (f : Fields) (lit : DWord) (h : f.op = 0x5D) : decodeOp f lit = decRegather f := by cases f; cases h; rfl
theorem decodeOp_5E (f : Fields) (lit : DWord) (h : f.op = 0x5E) : decodeOp f lit = decRegatherL f lit := by cases f; cases h; rfl
theorem decodeOp_60 (f : Fields) (lit : DWord) (h : f.op = 0x60) : decodeOp f lit = decFenceWith f .fence := by cases f; cases h; rfl
theorem decodeOp_61 (f : Fields) (lit : DWord) (h : f.op = 0x61) : decodeOp f lit = decBar f := by cases f; cases h; rfl
theorem decodeOp_62 (f : Fields) (lit : DWord) (h : f.op = 0x62) : decodeOp f lit = decBoarr f := by cases f; cases h; rfl
theorem decodeOp_63 (f : Fields) (lit : DWord) (h : f.op = 0x63) : decodeOp f lit = decBowait f := by cases f; cases h; rfl
theorem decodeOp_64 (f : Fields) (lit : DWord) (h : f.op = 0x64) : decodeOp f lit = decTlwait f := by cases f; cases h; rfl
theorem decodeOp_68 (f : Fields) (lit : DWord) (h : f.op = 0x68) : decodeOp f lit = decShMem f := by cases f; cases h; rfl
theorem decodeOp_69 (f : Fields) (lit : DWord) (h : f.op = 0x69) : decodeOp f lit = decShset f := by cases f; cases h; rfl
theorem decodeOp_6A (f : Fields) (lit : DWord) (h : f.op = 0x6A) : decodeOp f lit = decCpy f := by cases f; cases h; rfl
theorem decodeOp_6B (f : Fields) (lit : DWord) (h : f.op = 0x6B) : decodeOp f lit = decBatch f := by cases f; cases h; rfl
theorem decodeOp_70 (f : Fields) (lit : DWord) (h : f.op = 0x70) : decodeOp f lit = decMopen f := by cases f; cases h; rfl
theorem decodeOp_71 (f : Fields) (lit : DWord) (h : f.op = 0x71) : decodeOp f lit = decMma f := by cases f; cases h; rfl
theorem decodeOp_72 (f : Fields) (lit : DWord) (h : f.op = 0x72) : decodeOp f lit = decMtopk f := by cases f; cases h; rfl
theorem decodeOp_73 (f : Fields) (lit : DWord) (h : f.op = 0x73) : decodeOp f lit = decMwait f := by cases f; cases h; rfl
theorem decodeOp_80 (f : Fields) (lit : DWord) (h : f.op = 0x80) : decodeOp f lit = decQ f .qscan := by cases f; cases h; rfl
theorem decodeOp_81 (f : Fields) (lit : DWord) (h : f.op = 0x81) : decodeOp f lit = decQrot f := by cases f; cases h; rfl
theorem decodeOp_82 (f : Fields) (lit : DWord) (h : f.op = 0x82) : decodeOp f lit = decQsm f := by cases f; cases h; rfl
theorem decodeOp_83 (f : Fields) (lit : DWord) (h : f.op = 0x83) : decodeOp f lit = decQ f .qcvt := by cases f; cases h; rfl
theorem decodeOp_84 (f : Fields) (lit : DWord) (h : f.op = 0x84) : decodeOp f lit = decXcvt f := by cases f; cases h; rfl
theorem decodeOp_88 (f : Fields) (lit : DWord) (h : f.op = 0x88) : decodeOp f lit = decCapenter f := by cases f; cases h; rfl
theorem decodeOp_89 (f : Fields) (lit : DWord) (h : f.op = 0x89) : decodeOp f lit = decCapexit f := by cases f; cases h; rfl
theorem decodeOp_8A (f : Fields) (lit : DWord) (h : f.op = 0x8A) : decodeOp f lit = decCapres f := by cases f; cases h; rfl
theorem decodeOp_8B (f : Fields) (lit : DWord) (h : f.op = 0x8B) : decodeOp f lit = decCapld f := by cases f; cases h; rfl
theorem decodeOp_8C (f : Fields) (lit : DWord) (h : f.op = 0x8C) : decodeOp f lit = decCapst f := by cases f; cases h; rfl
theorem decodeOp_8D (f : Fields) (lit : DWord) (h : f.op = 0x8D) : decodeOp f lit = decCapcas f := by cases f; cases h; rfl
theorem decodeOp_8E (f : Fields) (lit : DWord) (h : f.op = 0x8E) : decodeOp f lit = decCapop f := by cases f; cases h; rfl
theorem decodeOp_8F (f : Fields) (lit : DWord) (h : f.op = 0x8F) : decodeOp f lit = decCapbr f := by cases f; cases h; rfl
theorem decodeOp_90 (f : Fields) (lit : DWord) (h : f.op = 0x90) : decodeOp f lit = decSolve f := by cases f; cases h; rfl
theorem decodeOp_91 (f : Fields) (lit : DWord) (h : f.op = 0x91) : decodeOp f lit = decSolveSet f := by cases f; cases h; rfl
theorem decodeOp_92 (f : Fields) (lit : DWord) (h : f.op = 0x92) : decodeOp f lit = decSolveStat f := by cases f; cases h; rfl
theorem decodeOp_98 (f : Fields) (lit : DWord) (h : f.op = 0x98) : decodeOp f lit = decSys f := by cases f; cases h; rfl
theorem decodeOp_99 (f : Fields) (lit : DWord) (h : f.op = 0x99) : decodeOp f lit = decDqpop f := by cases f; cases h; rfl
theorem decodeOp_9A (f : Fields) (lit : DWord) (h : f.op = 0x9A) : decodeOp f lit = decTrap f := by cases f; cases h; rfl
theorem decodeOp_9B (f : Fields) (lit : DWord) (h : f.op = 0x9B) : decodeOp f lit = decTfence f := by cases f; cases h; rfl
theorem decodeOp_9C (f : Fields) (lit : DWord) (h : f.op = 0x9C) : decodeOp f lit = decFeatq f := by cases f; cases h; rfl
theorem decodeOp_C0 (f : Fields) (lit : DWord) (h : f.op = 0xC0) : decodeOp f lit = decS f := by cases f; cases h; rfl
theorem decodeOp_C1 (f : Fields) (lit : DWord) (h : f.op = 0xC1) : decodeOp f lit = decSI f := by cases f; cases h; rfl
theorem decodeOp_C2 (f : Fields) (lit : DWord) (h : f.op = 0xC2) : decodeOp f lit = decSL f lit := by cases f; cases h; rfl
theorem decodeOp_C3 (f : Fields) (lit : DWord) (h : f.op = 0xC3) : decodeOp f lit = decScmp f := by cases f; cases h; rfl
theorem decodeOp_C4 (f : Fields) (lit : DWord) (h : f.op = 0xC4) : decodeOp f lit = decScmpI f := by cases f; cases h; rfl
theorem decodeOp_C5 (f : Fields) (lit : DWord) (h : f.op = 0xC5) : decodeOp f lit = decSld f := by cases f; cases h; rfl
theorem decodeOp_C6 (f : Fields) (lit : DWord) (h : f.op = 0xC6) : decodeOp f lit = decSst f := by cases f; cases h; rfl
theorem decodeOp_C7 (f : Fields) (lit : DWord) (h : f.op = 0xC7) : decodeOp f lit = decSatom f := by cases f; cases h; rfl
theorem decodeOp_C8 (f : Fields) (lit : DWord) (h : f.op = 0xC8) : decodeOp f lit = decSbr f := by cases f; cases h; rfl
theorem decodeOp_C9 (f : Fields) (lit : DWord) (h : f.op = 0xC9) : decodeOp f lit = decSret f := by cases f; cases h; rfl
theorem decodeOp_CA (f : Fields) (lit : DWord) (h : f.op = 0xCA) : decodeOp f lit = decFenceWith f .sfence := by cases f; cases h; rfl
theorem decodeOp_CB (f : Fields) (lit : DWord) (h : f.op = 0xCB) : decodeOp f lit = decDqpush f := by cases f; cases h; rfl
theorem decodeOp_CC (f : Fields) (lit : DWord) (h : f.op = 0xCC) : decodeOp f lit = decFm f := by cases f; cases h; rfl
theorem decodeOp_CD (f : Fields) (lit : DWord) (h : f.op = 0xCD) : decodeOp f lit = decPl f := by cases f; cases h; rfl

/-! ### Every constructor -/

/-- The words of a well-formed instruction decode to that instruction (R45, R46, R51). -/
def Encoding.Statement (i : Instr) : Prop :=
  ∀ w lit, encode i = some (w, lit) → i.wf = true → decodeAny w lit = .ok i

theorem Encoding.add (x : IntRRS) : Encoding.Statement (.add x) := by
  intro w l h hw
  cases h
  obtain ⟨g, d, a, b, ty, sat⟩ := x
  refine of_encR (by decide) (by decide) (Fin.isLt _) (Fin.isLt _) (Fin.isLt _) (by decide)
    (by have := bit_lt sat; have := IntTy_lt ty; ((try dsimp only); omega)) hw ?_
  rw [decodeOp_01 _ _ rfl]
  simp [decInt, rsv, Fields.guard, Fields.it, Fields.xInt]

theorem Encoding.sub (x : IntRRS) : Encoding.Statement (.sub x) := by
  intro w l h hw
  cases h
  obtain ⟨g, d, a, b, ty, sat⟩ := x
  refine of_encR (by decide) (by decide) (Fin.isLt _) (Fin.isLt _) (Fin.isLt _) (by decide)
    (by have := bit_lt sat; have := IntTy_lt ty; ((try dsimp only); omega)) hw ?_
  rw [decodeOp_01 _ _ rfl]
  simp [decInt, rsv, Fields.guard, Fields.it, Fields.xInt]

theorem Encoding.mul (x : IntRRS) : Encoding.Statement (.mul x) := by
  intro w l h hw
  cases h
  obtain ⟨g, d, a, b, ty, sat⟩ := x
  refine of_encR (by decide) (by decide) (Fin.isLt _) (Fin.isLt _) (Fin.isLt _) (by decide)
    (by have := bit_lt sat; have := IntTy_lt ty; ((try dsimp only); omega)) hw ?_
  rw [decodeOp_01 _ _ rfl]
  simp [decInt, rsv, Fields.guard, Fields.it, Fields.xInt]

theorem Encoding.mulhi (x : IntRR) : Encoding.Statement (.mulhi x) := by
  intro w l h hw
  cases h
  obtain ⟨g, d, a, b, ty⟩ := x
  refine of_encR (by decide) (by decide) (Fin.isLt _) (Fin.isLt _) (Fin.isLt _) (by decide)
    (by have := IntTy_lt ty; ((try dsimp only); omega)) hw ?_
  rw [decodeOp_01 _ _ rfl]
  simp [decInt, rsv, Fields.guard, Fields.it, Fields.xInt]

theorem Encoding.mad (x : IntRRRS) : Encoding.Statement (.mad x) := by
  intro w l h hw
  cases h
  obtain ⟨g, d, a, b, c, ty, sat⟩ := x
  refine of_encR (by decide) (by decide) (Fin.isLt _) (Fin.isLt _) (Fin.isLt _) (Fin.isLt _)
    (by have := bit_lt sat; have := IntTy_lt ty; ((try dsimp only); omega)) hw ?_
  rw [decodeOp_01 _ _ rfl]
  simp [decInt, rsv, Fields.guard, Fields.it, Fields.xInt]

theorem Encoding.min (x : IntRR) : Encoding.Statement (.min x) := by
  intro w l h hw
  cases h
  obtain ⟨g, d, a, b, ty⟩ := x
  refine of_encR (by decide) (by decide) (Fin.isLt _) (Fin.isLt _) (Fin.isLt _) (by decide)
    (by have := IntTy_lt ty; ((try dsimp only); omega)) hw ?_
  rw [decodeOp_01 _ _ rfl]
  simp [decInt, rsv, Fields.guard, Fields.it, Fields.xInt]

theorem Encoding.max (x : IntRR) : Encoding.Statement (.max x) := by
  intro w l h hw
  cases h
  obtain ⟨g, d, a, b, ty⟩ := x
  refine of_encR (by decide) (by decide) (Fin.isLt _) (Fin.isLt _) (Fin.isLt _) (by decide)
    (by have := IntTy_lt ty; ((try dsimp only); omega)) hw ?_
  rw [decodeOp_01 _ _ rfl]
  simp [decInt, rsv, Fields.guard, Fields.it, Fields.xInt]

theorem Encoding.div (x : IntRR) : Encoding.Statement (.div x) := by
  intro w l h hw
  cases h
  obtain ⟨g, d, a, b, ty⟩ := x
  refine of_encR (by decide) (by decide) (Fin.isLt _) (Fin.isLt _) (Fin.isLt _) (by decide)
    (by have := IntTy_lt ty; ((try dsimp only); omega)) hw ?_
  rw [decodeOp_01 _ _ rfl]
  simp [decInt, rsv, Fields.guard, Fields.it, Fields.xInt]

theorem Encoding.rem (x : IntRR) : Encoding.Statement (.rem x) := by
  intro w l h hw
  cases h
  obtain ⟨g, d, a, b, ty⟩ := x
  refine of_encR (by decide) (by decide) (Fin.isLt _) (Fin.isLt _) (Fin.isLt _) (by decide)
    (by have := IntTy_lt ty; ((try dsimp only); omega)) hw ?_
  rw [decodeOp_01 _ _ rfl]
  simp [decInt, rsv, Fields.guard, Fields.it, Fields.xInt]

theorem Encoding.abs (x : IntRS) : Encoding.Statement (.abs x) := by
  intro w l h hw
  cases h
  obtain ⟨g, d, a, ty, sat⟩ := x
  refine of_encR (by decide) (by decide) (Fin.isLt _) (Fin.isLt _) (by decide) (by decide)
    (by have := bit_lt sat; have := IntTy_lt ty; ((try dsimp only); omega)) hw ?_
  rw [decodeOp_01 _ _ rfl]
  simp [decInt, rsv, Fields.guard, Fields.it, Fields.xInt]

theorem Encoding.neg (x : IntRS) : Encoding.Statement (.neg x) := by
  intro w l h hw
  cases h
  obtain ⟨g, d, a, ty, sat⟩ := x
  refine of_encR (by decide) (by decide) (Fin.isLt _) (Fin.isLt _) (by decide) (by decide)
    (by have := bit_lt sat; have := IntTy_lt ty; ((try dsimp only); omega)) hw ?_
  rw [decodeOp_01 _ _ rfl]
  simp [decInt, rsv, Fields.guard, Fields.it, Fields.xInt]

theorem Encoding.addImm (x : IntRI) : Encoding.Statement (.addImm x) := by
  intro w l h hw
  cases h
  obtain ⟨g, d, a, ty, imm⟩ := x
  refine of_encI (by decide) (by have := IntTy_lt ty; ((try dsimp only); omega)) (Fin.isLt _) (Fin.isLt _) hw ?_
  rw [decodeOp_02 _ _ rfl]
  simp [decIntI, Fields.guard, Fields.immv]

theorem Encoding.subImm (x : IntRI) : Encoding.Statement (.subImm x) := by
  intro w l h hw
  cases h
  obtain ⟨g, d, a, ty, imm⟩ := x
  refine of_encI (by decide) (by have := IntTy_lt ty; ((try dsimp only); omega)) (Fin.isLt _) (Fin.isLt _) hw ?_
  rw [decodeOp_02 _ _ rfl]
  simp [decIntI, Fields.guard, Fields.immv]

theorem Encoding.mulImm (x : IntRI) : Encoding.Statement (.mulImm x) := by
  intro w l h hw
  cases h
  obtain ⟨g, d, a, ty, imm⟩ := x
  refine of_encI (by decide) (by have := IntTy_lt ty; ((try dsimp only); omega)) (Fin.isLt _) (Fin.isLt _) hw ?_
  rw [decodeOp_02 _ _ rfl]
  simp [decIntI, Fields.guard, Fields.immv]

theorem Encoding.minImm (x : IntRI) : Encoding.Statement (.minImm x) := by
  intro w l h hw
  cases h
  obtain ⟨g, d, a, ty, imm⟩ := x
  refine of_encI (by decide) (by have := IntTy_lt ty; ((try dsimp only); omega)) (Fin.isLt _) (Fin.isLt _) hw ?_
  rw [decodeOp_02 _ _ rfl]
  simp [decIntI, Fields.guard, Fields.immv]

theorem Encoding.maxImm (x : IntRI) : Encoding.Statement (.maxImm x) := by
  intro w l h hw
  cases h
  obtain ⟨g, d, a, ty, imm⟩ := x
  refine of_encI (by decide) (by have := IntTy_lt ty; ((try dsimp only); omega)) (Fin.isLt _) (Fin.isLt _) hw ?_
  rw [decodeOp_02 _ _ rfl]
  simp [decIntI, Fields.guard, Fields.immv]

theorem Encoding.addLit (x : IntRLS) : Encoding.Statement (.addLit x) := by
  intro w l h hw
  cases h
  obtain ⟨g, d, a, ty, sat, lit⟩ := x
  refine of_encR (by decide) (by decide) (Fin.isLt _) (Fin.isLt _) (by decide) (by decide)
    (by have := bit_lt sat; have := IntTy_lt ty; ((try dsimp only); omega)) hw ?_
  rw [decodeOp_03 _ _ rfl]
  simp [decIntL, rsv, Fields.guard, Fields.it, Fields.xInt]

theorem Encoding.subLit (x : IntRLS) : Encoding.Statement (.subLit x) := by
  intro w l h hw
  cases h
  obtain ⟨g, d, a, ty, sat, lit⟩ := x
  refine of_encR (by decide) (by decide) (Fin.isLt _) (Fin.isLt _) (by decide) (by decide)
    (by have := bit_lt sat; have := IntTy_lt ty; ((try dsimp only); omega)) hw ?_
  rw [decodeOp_03 _ _ rfl]
  simp [decIntL, rsv, Fields.guard, Fields.it, Fields.xInt]

theorem Encoding.mulLit (x : IntRLS) : Encoding.Statement (.mulLit x) := by
  intro w l h hw
  cases h
  obtain ⟨g, d, a, ty, sat, lit⟩ := x
  refine of_encR (by decide) (by decide) (Fin.isLt _) (Fin.isLt _) (by decide) (by decide)
    (by have := bit_lt sat; have := IntTy_lt ty; ((try dsimp only); omega)) hw ?_
  rw [decodeOp_03 _ _ rfl]
  simp [decIntL, rsv, Fields.guard, Fields.it, Fields.xInt]

theorem Encoding.mulhiLit (x : IntRL) : Encoding.Statement (.mulhiLit x) := by
  intro w l h hw
  cases h
  obtain ⟨g, d, a, ty, lit⟩ := x
  refine of_encR (by decide) (by decide) (Fin.isLt _) (Fin.isLt _) (by decide) (by decide)
    (by have := IntTy_lt ty; ((try dsimp only); omega)) hw ?_
  rw [decodeOp_03 _ _ rfl]
  simp [decIntL, rsv, Fields.guard, Fields.it, Fields.xInt]

theorem Encoding.minLit (x : IntRL) : Encoding.Statement (.minLit x) := by
  intro w l h hw
  cases h
  obtain ⟨g, d, a, ty, lit⟩ := x
  refine of_encR (by decide) (by decide) (Fin.isLt _) (Fin.isLt _) (by decide) (by decide)
    (by have := IntTy_lt ty; ((try dsimp only); omega)) hw ?_
  rw [decodeOp_03 _ _ rfl]
  simp [decIntL, rsv, Fields.guard, Fields.it, Fields.xInt]

theorem Encoding.maxLit (x : IntRL) : Encoding.Statement (.maxLit x) := by
  intro w l h hw
  cases h
  obtain ⟨g, d, a, ty, lit⟩ := x
  refine of_encR (by decide) (by decide) (Fin.isLt _) (Fin.isLt _) (by decide) (by decide)
    (by have := IntTy_lt ty; ((try dsimp only); omega)) hw ?_
  rw [decodeOp_03 _ _ rfl]
  simp [decIntL, rsv, Fields.guard, Fields.it, Fields.xInt]

theorem Encoding.divLit (x : IntRL) : Encoding.Statement (.divLit x) := by
  intro w l h hw
  cases h
  obtain ⟨g, d, a, ty, lit⟩ := x
  refine of_encR (by decide) (by decide) (Fin.isLt _) (Fin.isLt _) (by decide) (by decide)
    (by have := IntTy_lt ty; ((try dsimp only); omega)) hw ?_
  rw [decodeOp_03 _ _ rfl]
  simp [decIntL, rsv, Fields.guard, Fields.it, Fields.xInt]

theorem Encoding.remLit (x : IntRL) : Encoding.Statement (.remLit x) := by
  intro w l h hw
  cases h
  obtain ⟨g, d, a, ty, lit⟩ := x
  refine of_encR (by decide) (by decide) (Fin.isLt _) (Fin.isLt _) (by decide) (by decide)
    (by have := IntTy_lt ty; ((try dsimp only); omega)) hw ?_
  rw [decodeOp_03 _ _ rfl]
  simp [decIntL, rsv, Fields.guard, Fields.it, Fields.xInt]

theorem Encoding.and (x : IntRR) : Encoding.Statement (.and x) := by
  intro w l h hw
  cases h
  obtain ⟨g, d, a, b, ty⟩ := x
  refine of_encR (by decide) (by decide) (Fin.isLt _) (Fin.isLt _) (Fin.isLt _) (by decide)
    (by have := IntTy_lt ty; ((try dsimp only); omega)) hw ?_
  rw [decodeOp_04 _ _ rfl]
  simp [decLog, rsv, Fields.guard, Fields.it, Fields.xIt]

theorem Encoding.or (x : IntRR) : Encoding.Statement (.or x) := by
  intro w l h hw
  cases h
  obtain ⟨g, d, a, b, ty⟩ := x
  refine of_encR (by decide) (by decide) (Fin.isLt _) (Fin.isLt _) (Fin.isLt _) (by decide)
    (by have := IntTy_lt ty; ((try dsimp only); omega)) hw ?_
  rw [decodeOp_04 _ _ rfl]
  simp [decLog, rsv, Fields.guard, Fields.it, Fields.xIt]

theorem Encoding.xor (x : IntRR) : Encoding.Statement (.xor x) := by
  intro w l h hw
  cases h
  obtain ⟨g, d, a, b, ty⟩ := x
  refine of_encR (by decide) (by decide) (Fin.isLt _) (Fin.isLt _) (Fin.isLt _) (by decide)
    (by have := IntTy_lt ty; ((try dsimp only); omega)) hw ?_
  rw [decodeOp_04 _ _ rfl]
  simp [decLog, rsv, Fields.guard, Fields.it, Fields.xIt]

theorem Encoding.andn (x : IntRR) : Encoding.Statement (.andn x) := by
  intro w l h hw
  cases h
  obtain ⟨g, d, a, b, ty⟩ := x
  refine of_encR (by decide) (by decide) (Fin.isLt _) (Fin.isLt _) (Fin.isLt _) (by decide)
    (by have := IntTy_lt ty; ((try dsimp only); omega)) hw ?_
  rw [decodeOp_04 _ _ rfl]
  simp [decLog, rsv, Fields.guard, Fields.it, Fields.xIt]

theorem Encoding.not (x : IntR) : Encoding.Statement (.not x) := by
  intro w l h hw
  cases h
  obtain ⟨g, d, a, ty⟩ := x
  refine of_encR (by decide) (by decide) (Fin.isLt _) (Fin.isLt _) (by decide) (by decide)
    (by have := IntTy_lt ty; ((try dsimp only); omega)) hw ?_
  rw [decodeOp_04 _ _ rfl]
  simp [decLog, rsv, Fields.guard, Fields.it, Fields.xIt]

theorem Encoding.shl (x : IntRR) : Encoding.Statement (.shl x) := by
  intro w l h hw
  cases h
  obtain ⟨g, d, a, b, ty⟩ := x
  refine of_encR (by decide) (by decide) (Fin.isLt _) (Fin.isLt _) (Fin.isLt _) (by decide)
    (by have := IntTy_lt ty; ((try dsimp only); omega)) hw ?_
  rw [decodeOp_04 _ _ rfl]
  simp [decLog, rsv, Fields.guard, Fields.it, Fields.xIt]

theorem Encoding.shr (x : IntRR) : Encoding.Statement (.shr x) := by
  intro w l h hw
  cases h
  obtain ⟨g, d, a, b, ty⟩ := x
  refine of_encR (by decide) (by decide) (Fin.isLt _) (Fin.isLt _) (Fin.isLt _) (by decide)
    (by have := IntTy_lt ty; ((try dsimp only); omega)) hw ?_
  rw [decodeOp_04 _ _ rfl]
  simp [decLog, rsv, Fields.guard, Fields.it, Fields.xIt]

theorem Encoding.sar (x : IntRR) : Encoding.Statement (.sar x) := by
  intro w l h hw
  cases h
  obtain ⟨g, d, a, b, ty⟩ := x
  refine of_encR (by decide) (by decide) (Fin.isLt _) (Fin.isLt _) (Fin.isLt _) (by decide)
    (by have := IntTy_lt ty; ((try dsimp only); omega)) hw ?_
  rw [decodeOp_04 _ _ rfl]
  simp [decLog, rsv, Fields.guard, Fields.it, Fields.xIt]

theorem Encoding.rot (x : IntRR) : Encoding.Statement (.rot x) := by
  intro w l h hw
  cases h
  obtain ⟨g, d, a, b, ty⟩ := x
  refine of_encR (by decide) (by decide) (Fin.isLt _) (Fin.isLt _) (Fin.isLt _) (by decide)
    (by have := IntTy_lt ty; ((try dsimp only); omega)) hw ?_
  rw [decodeOp_04 _ _ rfl]
  simp [decLog, rsv, Fields.guard, Fields.it, Fields.xIt]

theorem Encoding.andImm (x : IntRI) : Encoding.Statement (.andImm x) := by
  intro w l h hw
  cases h
  obtain ⟨g, d, a, ty, imm⟩ := x
  refine of_encI (by decide) (by have := IntTy_lt ty; ((try dsimp only); omega)) (Fin.isLt _) (Fin.isLt _) hw ?_
  rw [decodeOp_05 _ _ rfl]
  simp [decLogI, Fields.guard, Fields.immv]

theorem Encoding.orImm (x : IntRI) : Encoding.Statement (.orImm x) := by
  intro w l h hw
  cases h
  obtain ⟨g, d, a, ty, imm⟩ := x
  refine of_encI (by decide) (by have := IntTy_lt ty; ((try dsimp only); omega)) (Fin.isLt _) (Fin.isLt _) hw ?_
  rw [decodeOp_05 _ _ rfl]
  simp [decLogI, Fields.guard, Fields.immv]

theorem Encoding.xorImm (x : IntRI) : Encoding.Statement (.xorImm x) := by
  intro w l h hw
  cases h
  obtain ⟨g, d, a, ty, imm⟩ := x
  refine of_encI (by decide) (by have := IntTy_lt ty; ((try dsimp only); omega)) (Fin.isLt _) (Fin.isLt _) hw ?_
  rw [decodeOp_05 _ _ rfl]
  simp [decLogI, Fields.guard, Fields.immv]

theorem Encoding.andnImm (x : IntRI) : Encoding.Statement (.andnImm x) := by
  intro w l h hw
  cases h
  obtain ⟨g, d, a, ty, imm⟩ := x
  refine of_encI (by decide) (by have := IntTy_lt ty; ((try dsimp only); omega)) (Fin.isLt _) (Fin.isLt _) hw ?_
  rw [decodeOp_05 _ _ rfl]
  simp [decLogI, Fields.guard, Fields.immv]

theorem Encoding.shlImm (x : IntRI) : Encoding.Statement (.shlImm x) := by
  intro w l h hw
  cases h
  obtain ⟨g, d, a, ty, imm⟩ := x
  refine of_encI (by decide) (by have := IntTy_lt ty; ((try dsimp only); omega)) (Fin.isLt _) (Fin.isLt _) hw ?_
  rw [decodeOp_05 _ _ rfl]
  simp [decLogI, Fields.guard, Fields.immv]

theorem Encoding.shrImm (x : IntRI) : Encoding.Statement (.shrImm x) := by
  intro w l h hw
  cases h
  obtain ⟨g, d, a, ty, imm⟩ := x
  refine of_encI (by decide) (by have := IntTy_lt ty; ((try dsimp only); omega)) (Fin.isLt _) (Fin.isLt _) hw ?_
  rw [decodeOp_05 _ _ rfl]
  simp [decLogI, Fields.guard, Fields.immv]

theorem Encoding.sarImm (x : IntRI) : Encoding.Statement (.sarImm x) := by
  intro w l h hw
  cases h
  obtain ⟨g, d, a, ty, imm⟩ := x
  refine of_encI (by decide) (by have := IntTy_lt ty; ((try dsimp only); omega)) (Fin.isLt _) (Fin.isLt _) hw ?_
  rw [decodeOp_05 _ _ rfl]
  simp [decLogI, Fields.guard, Fields.immv]

theorem Encoding.rotImm (x : IntRI) : Encoding.Statement (.rotImm x) := by
  intro w l h hw
  cases h
  obtain ⟨g, d, a, ty, imm⟩ := x
  refine of_encI (by decide) (by have := IntTy_lt ty; ((try dsimp only); omega)) (Fin.isLt _) (Fin.isLt _) hw ?_
  rw [decodeOp_05 _ _ rfl]
  simp [decLogI, Fields.guard, Fields.immv]

theorem Encoding.andLit (x : IntRL) : Encoding.Statement (.andLit x) := by
  intro w l h hw
  cases h
  obtain ⟨g, d, a, ty, lit⟩ := x
  refine of_encR (by decide) (by decide) (Fin.isLt _) (Fin.isLt _) (by decide) (by decide)
    (by have := IntTy_lt ty; ((try dsimp only); omega)) hw ?_
  rw [decodeOp_06 _ _ rfl]
  simp [decLogL, rsv, Fields.guard, Fields.it, Fields.xIt]

theorem Encoding.orLit (x : IntRL) : Encoding.Statement (.orLit x) := by
  intro w l h hw
  cases h
  obtain ⟨g, d, a, ty, lit⟩ := x
  refine of_encR (by decide) (by decide) (Fin.isLt _) (Fin.isLt _) (by decide) (by decide)
    (by have := IntTy_lt ty; ((try dsimp only); omega)) hw ?_
  rw [decodeOp_06 _ _ rfl]
  simp [decLogL, rsv, Fields.guard, Fields.it, Fields.xIt]

theorem Encoding.xorLit (x : IntRL) : Encoding.Statement (.xorLit x) := by
  intro w l h hw
  cases h
  obtain ⟨g, d, a, ty, lit⟩ := x
  refine of_encR (by decide) (by decide) (Fin.isLt _) (Fin.isLt _) (by decide) (by decide)
    (by have := IntTy_lt ty; ((try dsimp only); omega)) hw ?_
  rw [decodeOp_06 _ _ rfl]
  simp [decLogL, rsv, Fields.guard, Fields.it, Fields.xIt]

theorem Encoding.andnLit (x : IntRL) : Encoding.Statement (.andnLit x) := by
  intro w l h hw
  cases h
  obtain ⟨g, d, a, ty, lit⟩ := x
  refine of_encR (by decide) (by decide) (Fin.isLt _) (Fin.isLt _) (by decide) (by decide)
    (by have := IntTy_lt ty; ((try dsimp only); omega)) hw ?_
  rw [decodeOp_06 _ _ rfl]
  simp [decLogL, rsv, Fields.guard, Fields.it, Fields.xIt]

theorem Encoding.shlLit (x : IntRL) : Encoding.Statement (.shlLit x) := by
  intro w l h hw
  cases h
  obtain ⟨g, d, a, ty, lit⟩ := x
  refine of_encR (by decide) (by decide) (Fin.isLt _) (Fin.isLt _) (by decide) (by decide)
    (by have := IntTy_lt ty; ((try dsimp only); omega)) hw ?_
  rw [decodeOp_06 _ _ rfl]
  simp [decLogL, rsv, Fields.guard, Fields.it, Fields.xIt]

theorem Encoding.shrLit (x : IntRL) : Encoding.Statement (.shrLit x) := by
  intro w l h hw
  cases h
  obtain ⟨g, d, a, ty, lit⟩ := x
  refine of_encR (by decide) (by decide) (Fin.isLt _) (Fin.isLt _) (by decide) (by decide)
    (by have := IntTy_lt ty; ((try dsimp only); omega)) hw ?_
  rw [decodeOp_06 _ _ rfl]
  simp [decLogL, rsv, Fields.guard, Fields.it, Fields.xIt]

theorem Encoding.sarLit (x : IntRL) : Encoding.Statement (.sarLit x) := by
  intro w l h hw
  cases h
  obtain ⟨g, d, a, ty, lit⟩ := x
  refine of_encR (by decide) (by decide) (Fin.isLt _) (Fin.isLt _) (by decide) (by decide)
    (by have := IntTy_lt ty; ((try dsimp only); omega)) hw ?_
  rw [decodeOp_06 _ _ rfl]
  simp [decLogL, rsv, Fields.guard, Fields.it, Fields.xIt]

theorem Encoding.rotLit (x : IntRL) : Encoding.Statement (.rotLit x) := by
  intro w l h hw
  cases h
  obtain ⟨g, d, a, ty, lit⟩ := x
  refine of_encR (by decide) (by decide) (Fin.isLt _) (Fin.isLt _) (by decide) (by decide)
    (by have := IntTy_lt ty; ((try dsimp only); omega)) hw ?_
  rw [decodeOp_06 _ _ rfl]
  simp [decLogL, rsv, Fields.guard, Fields.it, Fields.xIt]

theorem Encoding.popc (x : IntR) : Encoding.Statement (.popc x) := by
  intro w l h hw
  cases h
  obtain ⟨g, d, a, ty⟩ := x
  refine of_encR (by decide) (by decide) (Fin.isLt _) (Fin.isLt _) (by decide) (by decide)
    (by have := IntTy_lt ty; ((try dsimp only); omega)) hw ?_
  rw [decodeOp_07 _ _ rfl]
  simp [decBits, rsv, Fields.guard, Fields.it, Fields.xIt]

theorem Encoding.clz (x : IntR) : Encoding.Statement (.clz x) := by
  intro w l h hw
  cases h
  obtain ⟨g, d, a, ty⟩ := x
  refine of_encR (by decide) (by decide) (Fin.isLt _) (Fin.isLt _) (by decide) (by decide)
    (by have := IntTy_lt ty; ((try dsimp only); omega)) hw ?_
  rw [decodeOp_07 _ _ rfl]
  simp [decBits, rsv, Fields.guard, Fields.it, Fields.xIt]

theorem Encoding.brev (x : IntR) : Encoding.Statement (.brev x) := by
  intro w l h hw
  cases h
  obtain ⟨g, d, a, ty⟩ := x
  refine of_encR (by decide) (by decide) (Fin.isLt _) (Fin.isLt _) (by decide) (by decide)
    (by have := IntTy_lt ty; ((try dsimp only); omega)) hw ?_
  rw [decodeOp_07 _ _ rfl]
  simp [decBits, rsv, Fields.guard, Fields.it, Fields.xIt]

theorem Encoding.bfe (x : IntRRR) : Encoding.Statement (.bfe x) := by
  intro w l h hw
  cases h
  obtain ⟨g, d, a, b, c, ty⟩ := x
  refine of_encR (by decide) (by decide) (Fin.isLt _) (Fin.isLt _) (Fin.isLt _) (Fin.isLt _)
    (by have := IntTy_lt ty; ((try dsimp only); omega)) hw ?_
  rw [decodeOp_07 _ _ rfl]
  simp [decBits, rsv, Fields.guard, Fields.it, Fields.xIt]

theorem Encoding.bfi (x : IntRRR) : Encoding.Statement (.bfi x) := by
  intro w l h hw
  cases h
  obtain ⟨g, d, a, b, c, ty⟩ := x
  refine of_encR (by decide) (by decide) (Fin.isLt _) (Fin.isLt _) (Fin.isLt _) (Fin.isLt _)
    (by have := IntTy_lt ty; ((try dsimp only); omega)) hw ?_
  rw [decodeOp_07 _ _ rfl]
  simp [decBits, rsv, Fields.guard, Fields.it, Fields.xIt]

theorem Encoding.setp (x : SetpRR) : Encoding.Statement (.setp x) := by
  intro w l h hw
  cases h
  obtain ⟨g, pd, a, b, ty, cmp⟩ := x
  refine of_encR (by decide) (Nat.lt_of_lt_of_le (Cmp_lt _) (by decide)) (reg16_lt _) (Fin.isLt _) (Fin.isLt _)
    (by decide) (by have := IntTy_lt ty; ((try dsimp only); omega)) hw ?_
  rw [decodeOp_08 _ _ rfl]
  simp [decSetp, rsv, assigned, Fields.guard, Fields.it, Fields.xIt]

theorem Encoding.setpImm (x : SetpRI) : Encoding.Statement (.setpImm x) := by
  intro w l h hw
  cases h
  obtain ⟨g, pd, a, ty, cmp, imm⟩ := x
  refine of_encI (by decide) (by have := IntTy_lt ty; have := Cmp_lt cmp; ((try dsimp only); omega)) (reg16_lt _)
    (Fin.isLt _) hw ?_
  rw [decodeOp_09 _ _ rfl]
  simp [decSetpI, rsv, assigned, Fields.guard, Fields.immv]

theorem Encoding.setpLit (x : SetpRL) : Encoding.Statement (.setpLit x) := by
  intro w l h hw
  cases h
  obtain ⟨g, pd, a, ty, cmp, lit⟩ := x
  refine of_encR (by decide) (Nat.lt_of_lt_of_le (Cmp_lt _) (by decide)) (reg16_lt _) (Fin.isLt _) (by decide)
    (by decide) (by have := IntTy_lt ty; ((try dsimp only); omega)) hw ?_
  rw [decodeOp_0A _ _ rfl]
  simp [decSetpL, rsv, assigned, Fields.guard, Fields.it, Fields.xIt]

theorem Encoding.pand (x : PredRR) : Encoding.Statement (.pand x) := by
  intro w l h hw
  cases h
  obtain ⟨g, pd, pa, na, pb, nb⟩ := x
  refine of_encR (by decide) (by decide) (reg16_lt _) (reg16_lt _) (reg16_lt _) (by decide)
    (by have := bit_lt nb; have := bit_lt na; ((try dsimp only); omega)) hw ?_
  rw [decodeOp_0B _ _ rfl]
  simp [decPred, rsv, Fields.guard]

theorem Encoding.por (x : PredRR) : Encoding.Statement (.por x) := by
  intro w l h hw
  cases h
  obtain ⟨g, pd, pa, na, pb, nb⟩ := x
  refine of_encR (by decide) (by decide) (reg16_lt _) (reg16_lt _) (reg16_lt _) (by decide)
    (by have := bit_lt nb; have := bit_lt na; ((try dsimp only); omega)) hw ?_
  rw [decodeOp_0B _ _ rfl]
  simp [decPred, rsv, Fields.guard]

theorem Encoding.pxor (x : PredRR) : Encoding.Statement (.pxor x) := by
  intro w l h hw
  cases h
  obtain ⟨g, pd, pa, na, pb, nb⟩ := x
  refine of_encR (by decide) (by decide) (reg16_lt _) (reg16_lt _) (reg16_lt _) (by decide)
    (by have := bit_lt nb; have := bit_lt na; ((try dsimp only); omega)) hw ?_
  rw [decodeOp_0B _ _ rfl]
  simp [decPred, rsv, Fields.guard]

theorem Encoding.pnot (x : PredR) : Encoding.Statement (.pnot x) := by
  intro w l h hw
  cases h
  obtain ⟨g, pd, pa, na⟩ := x
  refine of_encR (by decide) (by decide) (reg16_lt _) (reg16_lt _) (by decide) (by decide)
    (by have := bit_lt na; ((try dsimp only); omega)) hw ?_
  rw [decodeOp_0B _ _ rfl]
  simp [decPred, rsv, Fields.guard]

theorem Encoding.sel (x : SelOp) : Encoding.Statement (.sel x) := by
  intro w l h hw
  cases h
  obtain ⟨g, d, a, b, pc, wd⟩ := x
  refine of_encR (by decide) (by decide) (Fin.isLt _) (Fin.isLt _) (Fin.isLt _) (reg16_lt _)
    (by have := CopyW_lt wd; ((try dsimp only); omega)) hw ?_
  rw [decodeOp_0C _ _ rfl]
  simp [decSel, rsv, legal, Fields.guard]

theorem Encoding.mov (x : MovOp) : Encoding.Statement (.mov x) := by
  intro w l h hw
  cases h
  obtain ⟨g, d, a, wd⟩ := x
  refine of_encR (by decide) (by decide) (Fin.isLt _) (Fin.isLt _) (by decide) (by decide)
    (by have := CopyW_lt wd; ((try dsimp only); omega)) hw ?_
  rw [decodeOp_0C _ _ rfl]
  simp [decSel, rsv, legal, Fields.guard]

theorem Encoding.movi (x : MoviOp) : Encoding.Statement (.movi x) := by
  intro w l h hw
  cases h
  obtain ⟨g, d, w64, imm⟩ := x
  cases w64
  all_goals
    refine of_encI (by decide)
      (by simp only [fx, dx, boX, mmX, capWfn, scmpFn, lvA, ov, Option.isSome, Option.isNone, bit_true, bit_false, Nat.one_mul, Nat.zero_mul, reduceIte, Bool.false_eq_true]; omega) (Fin.isLt _) (by decide) hw ?_
    rw [decodeOp_0D _ _ rfl]
    simp [decMovi, rsv, Fields.guard, Fields.immv]

theorem Encoding.movl (x : MovlOp) : Encoding.Statement (.movl x) := by
  intro w l h hw
  cases h
  obtain ⟨g, d, w64, lit⟩ := x
  cases w64
  all_goals
    refine of_encR (by decide) (by decide) (Fin.isLt _) (by decide) (by decide) (by decide)
      (by simp only [fx, dx, boX, mmX, capWfn, scmpFn, lvA, ov, Option.isSome, Option.isNone, bit_true, bit_false, Nat.one_mul, Nat.zero_mul, reduceIte, Bool.false_eq_true]; omega) hw ?_
    rw [decodeOp_0E _ _ rfl]
    simp [decMovl, rsv, Fields.guard]

theorem Encoding.lea (x : LeaOp) : Encoding.Statement (.lea x) := by
  intro w l h hw
  cases h
  obtain ⟨g, d, a, b, sh, sx⟩ := x
  refine of_encR (by decide) (by decide) (Fin.isLt _) (Fin.isLt _) (Fin.isLt _) (by decide)
    (by have := bit_lt sx; have := sh.isLt; ((try dsimp only); omega)) hw ?_
  rw [decodeOp_0F _ _ rfl]
  simp [decLea, rsv, Fields.guard]

theorem Encoding.fadd (x : FloRR) : Encoding.Statement (.fadd x) := by
  intro w l h hw
  cases h
  obtain ⟨g, d, a, b, ft, rm, ftz⟩ := x
  refine of_encR (by decide) (by decide) (Fin.isLt _) (Fin.isLt _) (Fin.isLt _) (by decide)
    (by have := FTy_lt ft; have := Rnd_lt rm; have := bit_lt ftz; simp only [fx]; ((try dsimp only); omega)) hw ?_
  rw [decodeOp_20 _ _ rfl]
  simp [decFlo, rsv, legal, Fields.guard, fx]

theorem Encoding.fsub (x : FloRR) : Encoding.Statement (.fsub x) := by
  intro w l h hw
  cases h
  obtain ⟨g, d, a, b, ft, rm, ftz⟩ := x
  refine of_encR (by decide) (by decide) (Fin.isLt _) (Fin.isLt _) (Fin.isLt _) (by decide)
    (by have := FTy_lt ft; have := Rnd_lt rm; have := bit_lt ftz; simp only [fx]; ((try dsimp only); omega)) hw ?_
  rw [decodeOp_20 _ _ rfl]
  simp [decFlo, rsv, legal, Fields.guard, fx]

theorem Encoding.fmul (x : FloRR) : Encoding.Statement (.fmul x) := by
  intro w l h hw
  cases h
  obtain ⟨g, d, a, b, ft, rm, ftz⟩ := x
  refine of_encR (by decide) (by decide) (Fin.isLt _) (Fin.isLt _) (Fin.isLt _) (by decide)
    (by have := FTy_lt ft; have := Rnd_lt rm; have := bit_lt ftz; simp only [fx]; ((try dsimp only); omega)) hw ?_
  rw [decodeOp_20 _ _ rfl]
  simp [decFlo, rsv, legal, Fields.guard, fx]

theorem Encoding.ffma (x : FloRRR) : Encoding.Statement (.ffma x) := by
  intro w l h hw
  cases h
  obtain ⟨g, d, a, b, c, ft, rm, ftz⟩ := x
  refine of_encR (by decide) (by decide) (Fin.isLt _) (Fin.isLt _) (Fin.isLt _) (Fin.isLt _)
    (by have := FTy_lt ft; have := Rnd_lt rm; have := bit_lt ftz; simp only [fx]; ((try dsimp only); omega)) hw ?_
  rw [decodeOp_20 _ _ rfl]
  simp [decFlo, rsv, legal, Fields.guard, fx]

theorem Encoding.fdiv (x : FloRR) : Encoding.Statement (.fdiv x) := by
  intro w l h hw
  cases h
  obtain ⟨g, d, a, b, ft, rm, ftz⟩ := x
  refine of_encR (by decide) (by decide) (Fin.isLt _) (Fin.isLt _) (Fin.isLt _) (by decide)
    (by have := FTy_lt ft; have := Rnd_lt rm; have := bit_lt ftz; simp only [fx]; ((try dsimp only); omega)) hw ?_
  rw [decodeOp_20 _ _ rfl]
  simp [decFlo, rsv, legal, Fields.guard, fx]

theorem Encoding.fsqrt (x : FloR) : Encoding.Statement (.fsqrt x) := by
  intro w l h hw
  cases h
  obtain ⟨g, d, a, ft, rm, ftz⟩ := x
  refine of_encR (by decide) (by decide) (Fin.isLt _) (Fin.isLt _) (by decide) (by decide)
    (by have := FTy_lt ft; have := Rnd_lt rm; have := bit_lt ftz; simp only [fx]; ((try dsimp only); omega)) hw ?_
  rw [decodeOp_20 _ _ rfl]
  simp [decFlo, rsv, legal, Fields.guard, fx]

theorem Encoding.frcp (x : FloR) : Encoding.Statement (.frcp x) := by
  intro w l h hw
  cases h
  obtain ⟨g, d, a, ft, rm, ftz⟩ := x
  refine of_encR (by decide) (by decide) (Fin.isLt _) (Fin.isLt _) (by decide) (by decide)
    (by have := FTy_lt ft; have := Rnd_lt rm; have := bit_lt ftz; simp only [fx]; ((try dsimp only); omega)) hw ?_
  rw [decodeOp_20 _ _ rfl]
  simp [decFlo, rsv, legal, Fields.guard, fx]

theorem Encoding.frsq (x : FloR) : Encoding.Statement (.frsq x) := by
  intro w l h hw
  cases h
  obtain ⟨g, d, a, ft, rm, ftz⟩ := x
  refine of_encR (by decide) (by decide) (Fin.isLt _) (Fin.isLt _) (by decide) (by decide)
    (by have := FTy_lt ft; have := Rnd_lt rm; have := bit_lt ftz; simp only [fx]; ((try dsimp only); omega)) hw ?_
  rw [decodeOp_20 _ _ rfl]
  simp [decFlo, rsv, legal, Fields.guard, fx]

theorem Encoding.fexp2 (x : FloR) : Encoding.Statement (.fexp2 x) := by
  intro w l h hw
  cases h
  obtain ⟨g, d, a, ft, rm, ftz⟩ := x
  refine of_encR (by decide) (by decide) (Fin.isLt _) (Fin.isLt _) (by decide) (by decide)
    (by have := FTy_lt ft; have := Rnd_lt rm; have := bit_lt ftz; simp only [fx]; ((try dsimp only); omega)) hw ?_
  rw [decodeOp_20 _ _ rfl]
  simp [decFlo, rsv, legal, Fields.guard, fx]

theorem Encoding.flog2 (x : FloR) : Encoding.Statement (.flog2 x) := by
  intro w l h hw
  cases h
  obtain ⟨g, d, a, ft, rm, ftz⟩ := x
  refine of_encR (by decide) (by decide) (Fin.isLt _) (Fin.isLt _) (by decide) (by decide)
    (by have := FTy_lt ft; have := Rnd_lt rm; have := bit_lt ftz; simp only [fx]; ((try dsimp only); omega)) hw ?_
  rw [decodeOp_20 _ _ rfl]
  simp [decFlo, rsv, legal, Fields.guard, fx]

theorem Encoding.fmin (x : FloMM) : Encoding.Statement (.fmin x) := by
  intro w l h hw
  cases h
  obtain ⟨g, d, a, b, ft⟩ := x
  refine of_encR (by decide) (by decide) (Fin.isLt _) (Fin.isLt _) (Fin.isLt _) (by decide)
    (by have := FTy_lt ft; ((try dsimp only); omega)) hw ?_
  rw [decodeOp_20 _ _ rfl]
  simp [decFlo, rsv, legal, Fields.guard]

theorem Encoding.fmax (x : FloMM) : Encoding.Statement (.fmax x) := by
  intro w l h hw
  cases h
  obtain ⟨g, d, a, b, ft⟩ := x
  refine of_encR (by decide) (by decide) (Fin.isLt _) (Fin.isLt _) (Fin.isLt _) (by decide)
    (by have := FTy_lt ft; ((try dsimp only); omega)) hw ?_
  rw [decodeOp_20 _ _ rfl]
  simp [decFlo, rsv, legal, Fields.guard]

theorem Encoding.fabs (x : FloS) : Encoding.Statement (.fabs x) := by
  intro w l h hw
  cases h
  obtain ⟨g, d, a, ft⟩ := x
  refine of_encR (by decide) (by decide) (Fin.isLt _) (Fin.isLt _) (by decide) (by decide)
    (by have := FTy_lt ft; ((try dsimp only); omega)) hw ?_
  rw [decodeOp_20 _ _ rfl]
  simp [decFlo, rsv, legal, Fields.guard]

theorem Encoding.fneg (x : FloS) : Encoding.Statement (.fneg x) := by
  intro w l h hw
  cases h
  obtain ⟨g, d, a, ft⟩ := x
  refine of_encR (by decide) (by decide) (Fin.isLt _) (Fin.isLt _) (by decide) (by decide)
    (by have := FTy_lt ft; ((try dsimp only); omega)) hw ?_
  rw [decodeOp_20 _ _ rfl]
  simp [decFlo, rsv, legal, Fields.guard]

theorem Encoding.fsgn (x : FloMM) : Encoding.Statement (.fsgn x) := by
  intro w l h hw
  cases h
  obtain ⟨g, d, a, b, ft⟩ := x
  refine of_encR (by decide) (by decide) (Fin.isLt _) (Fin.isLt _) (Fin.isLt _) (by decide)
    (by have := FTy_lt ft; ((try dsimp only); omega)) hw ?_
  rw [decodeOp_20 _ _ rfl]
  simp [decFlo, rsv, legal, Fields.guard]

theorem Encoding.fclass (x : FloS) : Encoding.Statement (.fclass x) := by
  intro w l h hw
  cases h
  obtain ⟨g, d, a, ft⟩ := x
  refine of_encR (by decide) (by decide) (Fin.isLt _) (Fin.isLt _) (by decide) (by decide)
    (by have := FTy_lt ft; ((try dsimp only); omega)) hw ?_
  rw [decodeOp_20 _ _ rfl]
  simp [decFlo, rsv, legal, Fields.guard]

theorem Encoding.faddLit (x : FloRL) : Encoding.Statement (.faddLit x) := by
  intro w l h hw
  cases h
  obtain ⟨g, d, a, ft, rm, ftz, lit⟩ := x
  refine of_encR (by decide) (by decide) (Fin.isLt _) (Fin.isLt _) (by decide) (by decide)
    (by have := FTy_lt ft; have := Rnd_lt rm; have := bit_lt ftz; simp only [fx]; ((try dsimp only); omega)) hw ?_
  rw [decodeOp_21 _ _ rfl]
  simp [decFloL, rsv, legal, Fields.guard, fx]

theorem Encoding.fsubLit (x : FloRL) : Encoding.Statement (.fsubLit x) := by
  intro w l h hw
  cases h
  obtain ⟨g, d, a, ft, rm, ftz, lit⟩ := x
  refine of_encR (by decide) (by decide) (Fin.isLt _) (Fin.isLt _) (by decide) (by decide)
    (by have := FTy_lt ft; have := Rnd_lt rm; have := bit_lt ftz; simp only [fx]; ((try dsimp only); omega)) hw ?_
  rw [decodeOp_21 _ _ rfl]
  simp [decFloL, rsv, legal, Fields.guard, fx]

theorem Encoding.fmulLit (x : FloRL) : Encoding.Statement (.fmulLit x) := by
  intro w l h hw
  cases h
  obtain ⟨g, d, a, ft, rm, ftz, lit⟩ := x
  refine of_encR (by decide) (by decide) (Fin.isLt _) (Fin.isLt _) (by decide) (by decide)
    (by have := FTy_lt ft; have := Rnd_lt rm; have := bit_lt ftz; simp only [fx]; ((try dsimp only); omega)) hw ?_
  rw [decodeOp_21 _ _ rfl]
  simp [decFloL, rsv, legal, Fields.guard, fx]

theorem Encoding.fdivLit (x : FloRL) : Encoding.Statement (.fdivLit x) := by
  intro w l h hw
  cases h
  obtain ⟨g, d, a, ft, rm, ftz, lit⟩ := x
  refine of_encR (by decide) (by decide) (Fin.isLt _) (Fin.isLt _) (by decide) (by decide)
    (by have := FTy_lt ft; have := Rnd_lt rm; have := bit_lt ftz; simp only [fx]; ((try dsimp only); omega)) hw ?_
  rw [decodeOp_21 _ _ rfl]
  simp [decFloL, rsv, legal, Fields.guard, fx]

theorem Encoding.fminLit (x : FloML) : Encoding.Statement (.fminLit x) := by
  intro w l h hw
  cases h
  obtain ⟨g, d, a, ft, lit⟩ := x
  refine of_encR (by decide) (by decide) (Fin.isLt _) (Fin.isLt _) (by decide) (by decide)
    (by have := FTy_lt ft; ((try dsimp only); omega)) hw ?_
  rw [decodeOp_21 _ _ rfl]
  simp [decFloL, rsv, legal, Fields.guard]

theorem Encoding.fmaxLit (x : FloML) : Encoding.Statement (.fmaxLit x) := by
  intro w l h hw
  cases h
  obtain ⟨g, d, a, ft, lit⟩ := x
  refine of_encR (by decide) (by decide) (Fin.isLt _) (Fin.isLt _) (by decide) (by decide)
    (by have := FTy_lt ft; ((try dsimp only); omega)) hw ?_
  rw [decodeOp_21 _ _ rfl]
  simp [decFloL, rsv, legal, Fields.guard]

theorem Encoding.fsetp (x : FsetpRR) : Encoding.Statement (.fsetp x) := by
  intro w l h hw
  cases h
  obtain ⟨g, pd, a, b, ft, cmp⟩ := x
  refine of_encR (by decide) (Nat.lt_of_lt_of_le (FCmp_lt _) (by decide)) (reg16_lt _) (Fin.isLt _) (Fin.isLt _)
    (by decide) (by have := FTy_lt ft; ((try dsimp only); omega)) hw ?_
  rw [decodeOp_22 _ _ rfl]
  simp [decFsetp, rsv, legal, assigned, Fields.guard]

theorem Encoding.fsetpLit (x : FsetpRL) : Encoding.Statement (.fsetpLit x) := by
  intro w l h hw
  cases h
  obtain ⟨g, pd, a, ft, cmp, lit⟩ := x
  refine of_encR (by decide) (Nat.lt_of_lt_of_le (FCmp_lt _) (by decide)) (reg16_lt _) (Fin.isLt _) (by decide)
    (by decide) (by have := FTy_lt ft; ((try dsimp only); omega)) hw ?_
  rw [decodeOp_23 _ _ rfl]
  simp [decFsetpL, rsv, legal, assigned, Fields.guard]

theorem Encoding.faddF64 (x : DblRR) : Encoding.Statement (.faddF64 x) := by
  intro w l h hw
  cases h
  obtain ⟨g, d, a, b, rm, ftz⟩ := x
  refine of_encR (by decide) (by decide) (Fin.isLt _) (Fin.isLt _) (Fin.isLt _) (by decide)
    (by have := Rnd_lt rm; have := bit_lt ftz; simp only [dx]; ((try dsimp only); omega)) hw ?_
  rw [decodeOp_30 _ _ rfl]
  simp [decDbl, rsv, Fields.guard, dx]

theorem Encoding.fsubF64 (x : DblRR) : Encoding.Statement (.fsubF64 x) := by
  intro w l h hw
  cases h
  obtain ⟨g, d, a, b, rm, ftz⟩ := x
  refine of_encR (by decide) (by decide) (Fin.isLt _) (Fin.isLt _) (Fin.isLt _) (by decide)
    (by have := Rnd_lt rm; have := bit_lt ftz; simp only [dx]; ((try dsimp only); omega)) hw ?_
  rw [decodeOp_30 _ _ rfl]
  simp [decDbl, rsv, Fields.guard, dx]

theorem Encoding.fmulF64 (x : DblRR) : Encoding.Statement (.fmulF64 x) := by
  intro w l h hw
  cases h
  obtain ⟨g, d, a, b, rm, ftz⟩ := x
  refine of_encR (by decide) (by decide) (Fin.isLt _) (Fin.isLt _) (Fin.isLt _) (by decide)
    (by have := Rnd_lt rm; have := bit_lt ftz; simp only [dx]; ((try dsimp only); omega)) hw ?_
  rw [decodeOp_30 _ _ rfl]
  simp [decDbl, rsv, Fields.guard, dx]

theorem Encoding.ffmaF64 (x : DblRRR) : Encoding.Statement (.ffmaF64 x) := by
  intro w l h hw
  cases h
  obtain ⟨g, d, a, b, c, rm, ftz⟩ := x
  refine of_encR (by decide) (by decide) (Fin.isLt _) (Fin.isLt _) (Fin.isLt _) (Fin.isLt _)
    (by have := Rnd_lt rm; have := bit_lt ftz; simp only [dx]; ((try dsimp only); omega)) hw ?_
  rw [decodeOp_30 _ _ rfl]
  simp [decDbl, rsv, Fields.guard, dx]

theorem Encoding.fdivF64 (x : DblRR) : Encoding.Statement (.fdivF64 x) := by
  intro w l h hw
  cases h
  obtain ⟨g, d, a, b, rm, ftz⟩ := x
  refine of_encR (by decide) (by decide) (Fin.isLt _) (Fin.isLt _) (Fin.isLt _) (by decide)
    (by have := Rnd_lt rm; have := bit_lt ftz; simp only [dx]; ((try dsimp only); omega)) hw ?_
  rw [decodeOp_30 _ _ rfl]
  simp [decDbl, rsv, Fields.guard, dx]

theorem Encoding.fsqrtF64 (x : DblR) : Encoding.Statement (.fsqrtF64 x) := by
  intro w l h hw
  cases h
  obtain ⟨g, d, a, rm, ftz⟩ := x
  refine of_encR (by decide) (by decide) (Fin.isLt _) (Fin.isLt _) (by decide) (by decide)
    (by have := Rnd_lt rm; have := bit_lt ftz; simp only [dx]; ((try dsimp only); omega)) hw ?_
  rw [decodeOp_30 _ _ rfl]
  simp [decDbl, rsv, Fields.guard, dx]

theorem Encoding.fminF64 (x : DblMM) : Encoding.Statement (.fminF64 x) := by
  intro w l h hw
  cases h
  obtain ⟨g, d, a, b⟩ := x
  refine of_encR (by decide) (by decide) (Fin.isLt _) (Fin.isLt _) (Fin.isLt _) (by decide) (by decide) hw ?_
  rw [decodeOp_30 _ _ rfl]
  simp [decDbl, rsv, Fields.guard]

theorem Encoding.fmaxF64 (x : DblMM) : Encoding.Statement (.fmaxF64 x) := by
  intro w l h hw
  cases h
  obtain ⟨g, d, a, b⟩ := x
  refine of_encR (by decide) (by decide) (Fin.isLt _) (Fin.isLt _) (Fin.isLt _) (by decide) (by decide) hw ?_
  rw [decodeOp_30 _ _ rfl]
  simp [decDbl, rsv, Fields.guard]

theorem Encoding.faddF64Lit (x : DblRL) : Encoding.Statement (.faddF64Lit x) := by
  intro w l h hw
  cases h
  obtain ⟨g, d, a, rm, ftz, lit⟩ := x
  refine of_encR (by decide) (by decide) (Fin.isLt _) (Fin.isLt _) (by decide) (by decide)
    (by have := Rnd_lt rm; have := bit_lt ftz; simp only [dx]; ((try dsimp only); omega)) hw ?_
  rw [decodeOp_31 _ _ rfl]
  simp [decDblL, rsv, Fields.guard, dx]

theorem Encoding.fsubF64Lit (x : DblRL) : Encoding.Statement (.fsubF64Lit x) := by
  intro w l h hw
  cases h
  obtain ⟨g, d, a, rm, ftz, lit⟩ := x
  refine of_encR (by decide) (by decide) (Fin.isLt _) (Fin.isLt _) (by decide) (by decide)
    (by have := Rnd_lt rm; have := bit_lt ftz; simp only [dx]; ((try dsimp only); omega)) hw ?_
  rw [decodeOp_31 _ _ rfl]
  simp [decDblL, rsv, Fields.guard, dx]

theorem Encoding.fmulF64Lit (x : DblRL) : Encoding.Statement (.fmulF64Lit x) := by
  intro w l h hw
  cases h
  obtain ⟨g, d, a, rm, ftz, lit⟩ := x
  refine of_encR (by decide) (by decide) (Fin.isLt _) (Fin.isLt _) (by decide) (by decide)
    (by have := Rnd_lt rm; have := bit_lt ftz; simp only [dx]; ((try dsimp only); omega)) hw ?_
  rw [decodeOp_31 _ _ rfl]
  simp [decDblL, rsv, Fields.guard, dx]

theorem Encoding.fdivF64Lit (x : DblRL) : Encoding.Statement (.fdivF64Lit x) := by
  intro w l h hw
  cases h
  obtain ⟨g, d, a, rm, ftz, lit⟩ := x
  refine of_encR (by decide) (by decide) (Fin.isLt _) (Fin.isLt _) (by decide) (by decide)
    (by have := Rnd_lt rm; have := bit_lt ftz; simp only [dx]; ((try dsimp only); omega)) hw ?_
  rw [decodeOp_31 _ _ rfl]
  simp [decDblL, rsv, Fields.guard, dx]

theorem Encoding.fminF64Lit (x : DblML) : Encoding.Statement (.fminF64Lit x) := by
  intro w l h hw
  cases h
  obtain ⟨g, d, a, lit⟩ := x
  refine of_encR (by decide) (by decide) (Fin.isLt _) (Fin.isLt _) (by decide) (by decide) (by decide) hw ?_
  rw [decodeOp_31 _ _ rfl]
  simp [decDblL, rsv, Fields.guard]

theorem Encoding.fmaxF64Lit (x : DblML) : Encoding.Statement (.fmaxF64Lit x) := by
  intro w l h hw
  cases h
  obtain ⟨g, d, a, lit⟩ := x
  refine of_encR (by decide) (by decide) (Fin.isLt _) (Fin.isLt _) (by decide) (by decide) (by decide) hw ?_
  rw [decodeOp_31 _ _ rfl]
  simp [decDblL, rsv, Fields.guard]

theorem Encoding.fsetpF64 (x : DsetpRR) : Encoding.Statement (.fsetpF64 x) := by
  intro w l h hw
  cases h
  obtain ⟨g, pd, a, b, cmp⟩ := x
  refine of_encR (by decide) (Nat.lt_of_lt_of_le (FCmp_lt _) (by decide)) (reg16_lt _) (Fin.isLt _) (Fin.isLt _)
    (by decide) (by decide) hw ?_
  rw [decodeOp_32 _ _ rfl]
  simp [decDsetp, rsv, assigned, Fields.guard]

theorem Encoding.fsetpF64Lit (x : DsetpRL) : Encoding.Statement (.fsetpF64Lit x) := by
  intro w l h hw
  cases h
  obtain ⟨g, pd, a, cmp, lit⟩ := x
  refine of_encR (by decide) (Nat.lt_of_lt_of_le (FCmp_lt _) (by decide)) (reg16_lt _) (Fin.isLt _) (by decide)
    (by decide) (by decide) hw ?_
  rw [decodeOp_33 _ _ rfl]
  simp [decDsetpL, rsv, assigned, Fields.guard]

theorem Encoding.cvt (x : CvtOp) : Encoding.Statement (.cvt x) := by
  intro w l h hw
  cases h
  obtain ⟨g, d, a, st, dt, sat, ftz, rm⟩ := x
  refine of_encR (by decide) (by decide) (Fin.isLt _) (Fin.isLt _) (by decide) (by decide)
    (by have := bit_lt sat; have := bit_lt ftz; have := CvtTy_lt st; have := CvtTy_lt dt; have := Rnd_lt rm; ((try dsimp only); omega)) hw ?_
  rw [decodeOp_38 _ _ rfl]
  simp [decCvt, rsv, legal, Fields.guard]

theorem Encoding.cvtPackInt4 (x : CvtPk) : Encoding.Statement (.cvtPackInt4 x) := by
  intro w l h hw
  cases h
  obtain ⟨g, d, a⟩ := x
  refine of_encR (by decide) (by decide) (Fin.isLt _) (Fin.isLt _) (by decide) (by decide) (by decide) hw ?_
  rw [decodeOp_38 _ _ rfl]
  simp [decCvt, rsv, legal, Fields.guard]

theorem Encoding.cvtUnpackInt4 (x : CvtPk) : Encoding.Statement (.cvtUnpackInt4 x) := by
  intro w l h hw
  cases h
  obtain ⟨g, d, a⟩ := x
  refine of_encR (by decide) (by decide) (Fin.isLt _) (Fin.isLt _) (by decide) (by decide) (by decide) hw ?_
  rw [decodeOp_38 _ _ rfl]
  simp [decCvt, rsv, legal, Fields.guard]

theorem Encoding.ld (x : LdOp) : Encoding.Statement (.ld x) := by
  intro w l h hw
  cases h
  obtain ⟨g, d, b, sz, ofs⟩ := x
  refine of_encM (by decide) (Nat.lt_of_lt_of_le (LdSz_lt _) (by decide)) (Fin.isLt _) (by decide) (Fin.isLt _) hw ?_
  rw [decodeOp_40 _ _ rfl]
  simp [decLd, rsv, assigned, Fields.guard, Fields.ofsv]

theorem Encoding.st (x : StOp) : Encoding.Statement (.st x) := by
  intro w l h hw
  cases h
  obtain ⟨g, d, b, sz, ofs⟩ := x
  refine of_encM (by decide) (Nat.lt_of_lt_of_le (StSz_lt _) (by decide)) (Fin.isLt _) (by decide) (Fin.isLt _) hw ?_
  rw [decodeOp_41 _ _ rfl]
  simp [decSt, rsv, assigned, Fields.guard, Fields.ofsv]

theorem Encoding.ldLevel (x : LdLvOp) : Encoding.Statement (.ldLevel x) := by
  intro w l h hw
  cases h
  obtain ⟨g, d, b, lv, sz, acq, ofs⟩ := x
  cases acq
  all_goals
    refine of_encM (by decide)
      (by have := Level_lt lv; have := LdSz_lt sz; simp only [fx, dx, boX, mmX, capWfn, scmpFn, lvA, ov, Option.isSome, Option.isNone, bit_true, bit_false, Nat.one_mul, Nat.zero_mul, reduceIte, Bool.false_eq_true]; omega) (Fin.isLt _) (by first | exact Nat.zero_lt_succ _ | exact lvA_lt1 _ | exact lvA_lt2 _) (Fin.isLt _) hw ?_
    rw [decodeOp_42 _ _ rfl]
    simp [decLdLv, rsv, legal, assigned, Fields.guard, Fields.ofsv, decLvOrd, lvA]

theorem Encoding.stLevel (x : StLvOp) : Encoding.Statement (.stLevel x) := by
  intro w l h hw
  cases h
  obtain ⟨g, d, b, lv, sz, rel, ofs⟩ := x
  cases rel
  all_goals
    refine of_encM (by decide)
      (by have := Level_lt lv; have := StSz_lt sz; simp only [fx, dx, boX, mmX, capWfn, scmpFn, lvA, ov, Option.isSome, Option.isNone, bit_true, bit_false, Nat.one_mul, Nat.zero_mul, reduceIte, Bool.false_eq_true]; omega) (Fin.isLt _) (by first | exact Nat.zero_lt_succ _ | exact lvA_lt1 _ | exact lvA_lt2 _) (Fin.isLt _) hw ?_
    rw [decodeOp_43 _ _ rfl]
    simp [decStLv, rsv, legal, assigned, Fields.guard, Fields.ofsv, decLvOrd, lvA]

theorem Encoding.atom (x : AtomOpnd) : Encoding.Statement (.atom x) := by
  intro w l h hw
  cases h
  obtain ⟨g, d, a, b, sel, lv, w64, ord, sc⟩ := x
  cases sel with
  | op o =>
    obtain ⟨h1, h2, h3, h4, h5, h6⟩ := atX_fields lv.code o.sg w64 ord sc (AtomLevel_lt lv) (sg_lt o)
    refine of_encR (by decide) (AtomOp_lt o) (Fin.isLt _) (Fin.isLt _) (Fin.isLt _) (by decide)
      (atX_lt _ _ _ _ _ (AtomLevel_lt lv) (sg_lt o)) hw ?_
    rw [decodeOp_46 _ _ rfl]
    simp [decAtom, AtomOp_ne, rsv, legal, assigned, Fields.guard, h1, h2, h3, h4, h5, h6]
  | cas c =>
    obtain ⟨h1, h2, h3, h4, h5, h6⟩ := atX_fields lv.code 0 w64 ord sc (AtomLevel_lt lv) (by decide)
    refine of_encR (by decide) (by decide) (Fin.isLt _) (Fin.isLt _) (Fin.isLt _) (Fin.isLt _)
      (atX_lt _ _ _ _ _ (AtomLevel_lt lv) (by decide)) hw ?_
    rw [decodeOp_46 _ _ rfl]
    simp [decAtom, rsv, legal, assigned, Fields.guard, h1, h2, h3, h4, h5, h6]

theorem Encoding.bra (x : BraOp) : Encoding.Statement (.bra x) := by
  intro w l h hw
  cases h
  obtain ⟨g, dv, imm⟩ := x
  cases dv
  all_goals
    refine of_encI (by decide)
      (by simp only [fx, dx, boX, mmX, capWfn, scmpFn, lvA, ov, Option.isSome, Option.isNone, bit_true, bit_false, Nat.one_mul, Nat.zero_mul, reduceIte, Bool.false_eq_true]; omega) (by decide) (by decide) hw ?_
    rw [decodeOp_50 _ _ rfl]
    simp [decBra, rsv, Fields.guard, Fields.immv]

theorem Encoding.brx (x : BrxOp) : Encoding.Statement (.brx x) := by
  intro w l h hw
  cases h
  obtain ⟨g, dv, a⟩ := x
  cases dv
  all_goals
    refine of_encR (by decide)
      (by simp only [fx, dx, boX, mmX, capWfn, scmpFn, lvA, ov, Option.isSome, Option.isNone, bit_true, bit_false, Nat.one_mul, Nat.zero_mul, reduceIte, Bool.false_eq_true]; omega) (by decide) (Fin.isLt _) (by decide) (by decide) (by decide) hw ?_
    rw [decodeOp_51 _ _ rfl]
    simp [decBrx, rsv, Fields.guard]

theorem Encoding.nop (x : Guard) : Encoding.Statement (.nop x) := by
  intro w l h hw
  cases h
  obtain ⟨p, neg⟩ := x
  refine of_encR (by decide) (by decide) (by decide) (by decide) (by decide) (by decide) (by decide) hw ?_
  rw [decodeOp_98 _ _ rfl]
  simp [decSys, rsv, legal, Fields.guard]

theorem Encoding.srd (x : SrdOp) : Encoding.Statement (.srd x) := by
  intro w l h hw
  cases h
  obtain ⟨g, d, r⟩ := x
  refine of_encR (by decide) (by decide) (Fin.isLt _) (Nat.lt_of_lt_of_le (SpecReg_lt _) (by decide)) (by decide)
    (by decide) (by decide) hw ?_
  rw [decodeOp_98 _ _ rfl]
  simp [decSys, rsv, legal, Fields.guard]

theorem Encoding.swr (x : GuardReg) : Encoding.Statement (.swr x) := by
  intro w l h hw
  cases h
  obtain ⟨g, r⟩ := x
  refine of_encR (by decide) (by decide) (by decide) (Fin.isLt _) (by decide) (by decide) (by decide) hw ?_
  rw [decodeOp_98 _ _ rfl]
  simp [decSys, rsv, legal, Fields.guard]

theorem Encoding.bru (imm : BitVec 29) : Encoding.Statement (.bru imm) := by
  intro w l h hw
  cases h
  refine of_encI (by decide) (by decide) (by decide) (by decide) hw ?_
  rw [decodeOp_52 _ _ rfl]
  simp [decBru, rsv, Fields.immv]

theorem Encoding.dqpop (d : VReg) : Encoding.Statement (.dqpop d) := by
  intro w l h hw
  cases h
  refine of_encR (by decide) (by decide) (Fin.isLt _) (by decide) (by decide) (by decide) (by decide) hw ?_
  rw [decodeOp_99 _ _ rfl]
  simp [decDqpop, rsv]

theorem Encoding.call (x : CallOp) : Encoding.Statement (.call x) := by
  intro w l h hw
  cases h
  obtain ⟨g, d, imm⟩ := x
  refine of_encI (by decide) (by decide) (Fin.isLt _) (by decide) hw ?_
  rw [decodeOp_53 _ _ rfl]
  simp [decCall, rsv, Fields.guard, Fields.immv]

theorem Encoding.ret (x : GuardReg) : Encoding.Statement (.ret x) := by
  intro w l h hw
  cases h
  obtain ⟨g, r⟩ := x
  refine of_encR (by decide) (by decide) (by decide) (Fin.isLt _) (by decide) (by decide) (by decide) hw ?_
  rw [decodeOp_54 _ _ rfl]
  simp [decRet, rsv, Fields.guard]

theorem Encoding.exit (x : Guard) : Encoding.Statement (.exit x) := by
  intro w l h hw
  cases h
  obtain ⟨p, neg⟩ := x
  refine of_encR (by decide) (by decide) (by decide) (by decide) (by decide) (by decide) (by decide) hw ?_
  rw [decodeOp_54 _ _ rfl]
  simp [decRet, rsv, Fields.guard]

theorem Encoding.vote (x : VoteOp) : Encoding.Statement (.vote x) := by
  intro w l h hw
  cases h
  obtain ⟨g, mode, pd, pa, mm⟩ := x
  cases mode <;> cases mm
  all_goals
    refine of_encR (by decide) (by dsimp only; decide) (reg16_lt _) (reg16_lt _) (by decide) (ov_lt _ (by decide))
      (by simp [mmX]) hw ?_
    rw [decodeOp_58 _ _ rfl]
    simp [decVote, rsv, Fields.guard, Fields.mm, Fields.mmRsv, mmX, ov]

theorem Encoding.ballot (x : BallotOp) : Encoding.Statement (.ballot x) := by
  intro w l h hw
  cases h
  obtain ⟨g, d, pa, mm⟩ := x
  cases mm
  all_goals
    refine of_encR (by decide) (by decide) (Fin.isLt _) (reg16_lt _) (by decide) (ov_lt _ (by decide))
      (by simp only [fx, dx, boX, mmX, capWfn, scmpFn, lvA, ov, Option.isSome, Option.isNone, bit_true, bit_false, Nat.one_mul, Nat.zero_mul, reduceIte, Bool.false_eq_true]; omega) hw ?_
    rw [decodeOp_58 _ _ rfl]
    simp [decVote, rsv, Fields.guard, Fields.mm, Fields.mmRsv, mmX, ov]

theorem Encoding.ballotIndexed (x : BallotIxOp) : Encoding.Statement (.ballotIndexed x) := by
  intro w l h hw
  cases h
  obtain ⟨g, d, pa, b, mm⟩ := x
  cases mm
  all_goals
    refine of_encR (by decide) (by decide) (Fin.isLt _) (reg16_lt _) (Fin.isLt _) (ov_lt _ (by decide))
      (by simp only [fx, dx, boX, mmX, capWfn, scmpFn, lvA, ov, Option.isSome, Option.isNone, bit_true, bit_false, Nat.one_mul, Nat.zero_mul, reduceIte, Bool.false_eq_true]; omega) hw ?_
    rw [decodeOp_58 _ _ rfl]
    simp [decVote, rsv, Fields.guard, Fields.mm, Fields.mmRsv, mmX, ov]

theorem Encoding.swx (x : SwxOp) : Encoding.Statement (.swx x) := by
  intro w l h hw
  cases h
  obtain ⟨g, mode, w64, d, a, b, seg, mm⟩ := x
  have hs := SwxSeg_lt seg
  cases b with
  | reg r =>
    cases mm
    all_goals
      refine of_encR (by decide) (SwxFn_lt w64 mode) (Fin.isLt _) (Fin.isLt _) (Fin.isLt _) (ov_lt _ (by decide))
        (by simp only [mmX, Option.isSome, bit_true, bit_false]; omega) hw ?_
      rw [decodeOp_59 _ _ rfl]
      simp [decSwx, rsv, legal, Fields.guard, Fields.mm, Fields.mmRsv, mmX, ov]
  | imm v =>
    have hv := v.isLt
    cases mm
    all_goals
      refine of_encR (by decide) (SwxFn_lt w64 mode) (Fin.isLt _) (Fin.isLt _) (by decide) (ov_lt _ (by decide))
        (by simp only [mmX, Option.isSome, bit_true, bit_false]; omega) hw ?_
      rw [decodeOp_59 _ _ rfl]
      simp [decSwx, rsv, legal, Fields.guard, Fields.mm, Fields.mmRsv, mmX, ov]

theorem Encoding.qxch (x : QxchOp) : Encoding.Statement (.qxch x) := by
  intro w l h hw
  cases h
  obtain ⟨g, mode, w64, d, a⟩ := x
  refine of_encR (by decide) (by have := bit_lt w64; have := QxchMode_lt mode; ((try dsimp only); omega))
    (Fin.isLt _) (Fin.isLt _) (by decide) (by decide) (by decide) hw ?_
  rw [decodeOp_5A _ _ rfl]
  simp [decQxch, rsv, assigned, Fields.guard]

theorem Encoding.regroup (pa : PReg) (imm : BitVec 29) : Encoding.Statement (.regroup pa imm) := by
  intro w l h hw
  cases h
  refine of_encI (by decide) (by decide) (by decide) (reg16_lt _) hw ?_
  rw [decodeOp_5B _ _ rfl]
  simp [decRegroup, rsv, Fields.immv]

theorem Encoding.regroupLit (pa : PReg) (lit : DWord) : Encoding.Statement (.regroupLit pa lit) := by
  intro w l h hw
  cases h
  refine of_encR (by decide) (by decide) (by decide) (reg16_lt _) (by decide) (by decide) (by decide) hw ?_
  rw [decodeOp_5C _ _ rfl]
  simp [decRegroupL, rsv]

theorem Encoding.regather (imm : BitVec 29) : Encoding.Statement (.regather imm) := by
  intro w l h hw
  cases h
  refine of_encI (by decide) (by decide) (by decide) (by decide) hw ?_
  rw [decodeOp_5D _ _ rfl]
  simp [decRegather, rsv, Fields.immv]

theorem Encoding.regatherLit (lit : DWord) : Encoding.Statement (.regatherLit lit) := by
  intro w l h hw
  cases h
  refine of_encR (by decide) (by decide) (by decide) (by decide) (by decide) (by decide) (by decide) hw ?_
  rw [decodeOp_5E _ _ rfl]
  simp [decRegatherL, rsv]

theorem Encoding.sadd (x : SclRR) : Encoding.Statement (.sadd x) := by
  intro w l h hw
  cases h
  obtain ⟨d, a, b⟩ := x
  refine of_encR (by decide) (by decide) (sreg_lt _) (sreg_lt _) (sreg_lt _) (by decide) (by decide) hw ?_
  rw [decodeOp_C0 _ _ rfl]
  simp [decS, rsv]

theorem Encoding.ssub (x : SclRR) : Encoding.Statement (.ssub x) := by
  intro w l h hw
  cases h
  obtain ⟨d, a, b⟩ := x
  refine of_encR (by decide) (by decide) (sreg_lt _) (sreg_lt _) (sreg_lt _) (by decide) (by decide) hw ?_
  rw [decodeOp_C0 _ _ rfl]
  simp [decS, rsv]

theorem Encoding.smul (x : SclRR) : Encoding.Statement (.smul x) := by
  intro w l h hw
  cases h
  obtain ⟨d, a, b⟩ := x
  refine of_encR (by decide) (by decide) (sreg_lt _) (sreg_lt _) (sreg_lt _) (by decide) (by decide) hw ?_
  rw [decodeOp_C0 _ _ rfl]
  simp [decS, rsv]

theorem Encoding.sand (x : SclRR) : Encoding.Statement (.sand x) := by
  intro w l h hw
  cases h
  obtain ⟨d, a, b⟩ := x
  refine of_encR (by decide) (by decide) (sreg_lt _) (sreg_lt _) (sreg_lt _) (by decide) (by decide) hw ?_
  rw [decodeOp_C0 _ _ rfl]
  simp [decS, rsv]

theorem Encoding.sor (x : SclRR) : Encoding.Statement (.sor x) := by
  intro w l h hw
  cases h
  obtain ⟨d, a, b⟩ := x
  refine of_encR (by decide) (by decide) (sreg_lt _) (sreg_lt _) (sreg_lt _) (by decide) (by decide) hw ?_
  rw [decodeOp_C0 _ _ rfl]
  simp [decS, rsv]

theorem Encoding.sxor (x : SclRR) : Encoding.Statement (.sxor x) := by
  intro w l h hw
  cases h
  obtain ⟨d, a, b⟩ := x
  refine of_encR (by decide) (by decide) (sreg_lt _) (sreg_lt _) (sreg_lt _) (by decide) (by decide) hw ?_
  rw [decodeOp_C0 _ _ rfl]
  simp [decS, rsv]

theorem Encoding.sshl (x : SclRR) : Encoding.Statement (.sshl x) := by
  intro w l h hw
  cases h
  obtain ⟨d, a, b⟩ := x
  refine of_encR (by decide) (by decide) (sreg_lt _) (sreg_lt _) (sreg_lt _) (by decide) (by decide) hw ?_
  rw [decodeOp_C0 _ _ rfl]
  simp [decS, rsv]

theorem Encoding.sshr (x : SclRR) : Encoding.Statement (.sshr x) := by
  intro w l h hw
  cases h
  obtain ⟨d, a, b⟩ := x
  refine of_encR (by decide) (by decide) (sreg_lt _) (sreg_lt _) (sreg_lt _) (by decide) (by decide) hw ?_
  rw [decodeOp_C0 _ _ rfl]
  simp [decS, rsv]

theorem Encoding.ssar (x : SclRR) : Encoding.Statement (.ssar x) := by
  intro w l h hw
  cases h
  obtain ⟨d, a, b⟩ := x
  refine of_encR (by decide) (by decide) (sreg_lt _) (sreg_lt _) (sreg_lt _) (by decide) (by decide) hw ?_
  rw [decodeOp_C0 _ _ rfl]
  simp [decS, rsv]

theorem Encoding.smov (d : SReg) (a : SReg) : Encoding.Statement (.smov d a) := by
  intro w l h hw
  cases h
  refine of_encR (by decide) (by decide) (sreg_lt _) (sreg_lt _) (by decide) (by decide) (by decide) hw ?_
  rw [decodeOp_C0 _ _ rfl]
  simp [decS, rsv]

theorem Encoding.ssel (x : SclSel) : Encoding.Statement (.ssel x) := by
  intro w l h hw
  cases h
  obtain ⟨d, a, b, c⟩ := x
  refine of_encR (by decide) (by decide) (sreg_lt _) (sreg_lt _) (sreg_lt _) (sreg_lt _) (by decide) hw ?_
  rw [decodeOp_C0 _ _ rfl]
  simp [decS, rsv]

theorem Encoding.saddImm (x : SclRI) : Encoding.Statement (.saddImm x) := by
  intro w l h hw
  cases h
  obtain ⟨d, a, imm⟩ := x
  refine of_encI (by decide) (by decide) (sreg_lt _) (sreg_lt _) hw ?_
  rw [decodeOp_C1 _ _ rfl]
  simp [decSI, rsv, Fields.immv]

theorem Encoding.ssubImm (x : SclRI) : Encoding.Statement (.ssubImm x) := by
  intro w l h hw
  cases h
  obtain ⟨d, a, imm⟩ := x
  refine of_encI (by decide) (by decide) (sreg_lt _) (sreg_lt _) hw ?_
  rw [decodeOp_C1 _ _ rfl]
  simp [decSI, rsv, Fields.immv]

theorem Encoding.smulImm (x : SclRI) : Encoding.Statement (.smulImm x) := by
  intro w l h hw
  cases h
  obtain ⟨d, a, imm⟩ := x
  refine of_encI (by decide) (by decide) (sreg_lt _) (sreg_lt _) hw ?_
  rw [decodeOp_C1 _ _ rfl]
  simp [decSI, rsv, Fields.immv]

theorem Encoding.sandImm (x : SclRI) : Encoding.Statement (.sandImm x) := by
  intro w l h hw
  cases h
  obtain ⟨d, a, imm⟩ := x
  refine of_encI (by decide) (by decide) (sreg_lt _) (sreg_lt _) hw ?_
  rw [decodeOp_C1 _ _ rfl]
  simp [decSI, rsv, Fields.immv]

theorem Encoding.sorImm (x : SclRI) : Encoding.Statement (.sorImm x) := by
  intro w l h hw
  cases h
  obtain ⟨d, a, imm⟩ := x
  refine of_encI (by decide) (by decide) (sreg_lt _) (sreg_lt _) hw ?_
  rw [decodeOp_C1 _ _ rfl]
  simp [decSI, rsv, Fields.immv]

theorem Encoding.sxorImm (x : SclRI) : Encoding.Statement (.sxorImm x) := by
  intro w l h hw
  cases h
  obtain ⟨d, a, imm⟩ := x
  refine of_encI (by decide) (by decide) (sreg_lt _) (sreg_lt _) hw ?_
  rw [decodeOp_C1 _ _ rfl]
  simp [decSI, rsv, Fields.immv]

theorem Encoding.sshlImm (x : SclRI) : Encoding.Statement (.sshlImm x) := by
  intro w l h hw
  cases h
  obtain ⟨d, a, imm⟩ := x
  refine of_encI (by decide) (by decide) (sreg_lt _) (sreg_lt _) hw ?_
  rw [decodeOp_C1 _ _ rfl]
  simp [decSI, rsv, Fields.immv]

theorem Encoding.sshrImm (x : SclRI) : Encoding.Statement (.sshrImm x) := by
  intro w l h hw
  cases h
  obtain ⟨d, a, imm⟩ := x
  refine of_encI (by decide) (by decide) (sreg_lt _) (sreg_lt _) hw ?_
  rw [decodeOp_C1 _ _ rfl]
  simp [decSI, rsv, Fields.immv]

theorem Encoding.ssarImm (x : SclRI) : Encoding.Statement (.ssarImm x) := by
  intro w l h hw
  cases h
  obtain ⟨d, a, imm⟩ := x
  refine of_encI (by decide) (by decide) (sreg_lt _) (sreg_lt _) hw ?_
  rw [decodeOp_C1 _ _ rfl]
  simp [decSI, rsv, Fields.immv]

theorem Encoding.smovi (d : SReg) (imm : BitVec 29) : Encoding.Statement (.smovi d imm) := by
  intro w l h hw
  cases h
  refine of_encI (by decide) (by decide) (sreg_lt _) (by decide) hw ?_
  rw [decodeOp_C1 _ _ rfl]
  simp [decSI, rsv, Fields.immv]

theorem Encoding.saddLit (x : SclRL) : Encoding.Statement (.saddLit x) := by
  intro w l h hw
  cases h
  obtain ⟨d, a, lit⟩ := x
  refine of_encR (by decide) (by decide) (sreg_lt _) (sreg_lt _) (by decide) (by decide) (by decide) hw ?_
  rw [decodeOp_C2 _ _ rfl]
  simp [decSL, rsv]

theorem Encoding.ssubLit (x : SclRL) : Encoding.Statement (.ssubLit x) := by
  intro w l h hw
  cases h
  obtain ⟨d, a, lit⟩ := x
  refine of_encR (by decide) (by decide) (sreg_lt _) (sreg_lt _) (by decide) (by decide) (by decide) hw ?_
  rw [decodeOp_C2 _ _ rfl]
  simp [decSL, rsv]

theorem Encoding.smulLit (x : SclRL) : Encoding.Statement (.smulLit x) := by
  intro w l h hw
  cases h
  obtain ⟨d, a, lit⟩ := x
  refine of_encR (by decide) (by decide) (sreg_lt _) (sreg_lt _) (by decide) (by decide) (by decide) hw ?_
  rw [decodeOp_C2 _ _ rfl]
  simp [decSL, rsv]

theorem Encoding.sandLit (x : SclRL) : Encoding.Statement (.sandLit x) := by
  intro w l h hw
  cases h
  obtain ⟨d, a, lit⟩ := x
  refine of_encR (by decide) (by decide) (sreg_lt _) (sreg_lt _) (by decide) (by decide) (by decide) hw ?_
  rw [decodeOp_C2 _ _ rfl]
  simp [decSL, rsv]

theorem Encoding.sorLit (x : SclRL) : Encoding.Statement (.sorLit x) := by
  intro w l h hw
  cases h
  obtain ⟨d, a, lit⟩ := x
  refine of_encR (by decide) (by decide) (sreg_lt _) (sreg_lt _) (by decide) (by decide) (by decide) hw ?_
  rw [decodeOp_C2 _ _ rfl]
  simp [decSL, rsv]

theorem Encoding.sxorLit (x : SclRL) : Encoding.Statement (.sxorLit x) := by
  intro w l h hw
  cases h
  obtain ⟨d, a, lit⟩ := x
  refine of_encR (by decide) (by decide) (sreg_lt _) (sreg_lt _) (by decide) (by decide) (by decide) hw ?_
  rw [decodeOp_C2 _ _ rfl]
  simp [decSL, rsv]

theorem Encoding.sshlLit (x : SclRL) : Encoding.Statement (.sshlLit x) := by
  intro w l h hw
  cases h
  obtain ⟨d, a, lit⟩ := x
  refine of_encR (by decide) (by decide) (sreg_lt _) (sreg_lt _) (by decide) (by decide) (by decide) hw ?_
  rw [decodeOp_C2 _ _ rfl]
  simp [decSL, rsv]

theorem Encoding.sshrLit (x : SclRL) : Encoding.Statement (.sshrLit x) := by
  intro w l h hw
  cases h
  obtain ⟨d, a, lit⟩ := x
  refine of_encR (by decide) (by decide) (sreg_lt _) (sreg_lt _) (by decide) (by decide) (by decide) hw ?_
  rw [decodeOp_C2 _ _ rfl]
  simp [decSL, rsv]

theorem Encoding.ssarLit (x : SclRL) : Encoding.Statement (.ssarLit x) := by
  intro w l h hw
  cases h
  obtain ⟨d, a, lit⟩ := x
  refine of_encR (by decide) (by decide) (sreg_lt _) (sreg_lt _) (by decide) (by decide) (by decide) hw ?_
  rw [decodeOp_C2 _ _ rfl]
  simp [decSL, rsv]

theorem Encoding.smovl (d : SReg) (lit : DWord) : Encoding.Statement (.smovl d lit) := by
  intro w l h hw
  cases h
  refine of_encR (by decide) (by decide) (sreg_lt _) (by decide) (by decide) (by decide) (by decide) hw ?_
  rw [decodeOp_C2 _ _ rfl]
  simp [decSL, rsv]

theorem Encoding.scmp (x : ScmpRR) : Encoding.Statement (.scmp x) := by
  intro w l h hw
  cases h
  obtain ⟨d, a, b, sgn, cmp⟩ := x
  refine of_encR (by decide) (by have := Cmp_lt cmp; simp only [scmpFn]; split <;> ((try dsimp only); omega))
    (sreg_lt _) (sreg_lt _) (sreg_lt _) (by decide) (by decide) hw ?_
  rw [decodeOp_C3 _ _ rfl]
  simp [decScmp, rsv, assigned]

theorem Encoding.scmpImm (x : ScmpRI) : Encoding.Statement (.scmpImm x) := by
  intro w l h hw
  cases h
  obtain ⟨d, a, sgn, cmp, imm⟩ := x
  refine of_encI (by decide) (by have := Cmp_lt cmp; simp only [scmpFn]; split <;> ((try dsimp only); omega))
    (sreg_lt _) (sreg_lt _) hw ?_
  rw [decodeOp_C4 _ _ rfl]
  simp [decScmpI, rsv, assigned, Fields.immv]

theorem Encoding.sld (x : SldOp) : Encoding.Statement (.sld x) := by
  intro w l h hw
  cases h
  obtain ⟨d, b, sz, ofs⟩ := x
  refine of_encM (by decide) (Nat.lt_of_lt_of_le (SldSz_lt _) (by decide)) (sreg_lt _) (by decide) (sreg_lt _) hw ?_
  rw [decodeOp_C5 _ _ rfl]
  simp [decSld, rsv, assigned, Fields.ofsv]

theorem Encoding.sst (x : SstOp) : Encoding.Statement (.sst x) := by
  intro w l h hw
  cases h
  obtain ⟨d, b, sz, ofs⟩ := x
  refine of_encM (by decide) (Nat.lt_of_lt_of_le (SstSz_lt _) (by decide)) (sreg_lt _) (by decide) (sreg_lt _) hw ?_
  rw [decodeOp_C6 _ _ rfl]
  simp [decSst, rsv, assigned, Fields.ofsv]

theorem Encoding.satom (x : SatomOp) : Encoding.Statement (.satom x) := by
  intro w l h hw
  cases h
  obtain ⟨d, a, b, sel, w64, ord, sc⟩ := x
  cases sel with
  | op o =>
    obtain ⟨h1, h2, h3, h4, h5, h6⟩ := atX_fields 0 o.sg w64 ord sc (by decide) (sg_lt o)
    refine of_encR (by decide) (AtomOp_lt o) (sreg_lt _) (sreg_lt _) (sreg_lt _) (by decide)
      (atX_lt _ _ _ _ _ (by decide) (sg_lt o)) hw ?_
    rw [decodeOp_C7 _ _ rfl]
    simp [decSatom, AtomOp_ne, rsv, legal, assigned, h1, h2, h3, h4, h5, h6]
  | cas c =>
    obtain ⟨h1, h2, h3, h4, h5, h6⟩ := atX_fields 0 0 w64 ord sc (by decide) (by decide)
    refine of_encR (by decide) (by decide) (sreg_lt _) (sreg_lt _) (sreg_lt _) (sreg_lt _)
      (atX_lt _ _ _ _ _ (by decide) (by decide)) hw ?_
    rw [decodeOp_C7 _ _ rfl]
    simp [decSatom, rsv, legal, assigned, h1, h2, h3, h4, h5, h6]

theorem Encoding.sbra (imm : BitVec 29) : Encoding.Statement (.sbra imm) := by
  intro w l h hw
  cases h
  refine of_encI (by decide) (by decide) (by decide) (by decide) hw ?_
  rw [decodeOp_C8 _ _ rfl]
  simp [decSbr, rsv, Fields.immv]

theorem Encoding.sbz (x : SbrOp) : Encoding.Statement (.sbz x) := by
  intro w l h hw
  cases h
  obtain ⟨a, imm⟩ := x
  refine of_encI (by decide) (by decide) (by decide) (sreg_lt _) hw ?_
  rw [decodeOp_C8 _ _ rfl]
  simp [decSbr, rsv, Fields.immv]

theorem Encoding.sbnz (x : SbrOp) : Encoding.Statement (.sbnz x) := by
  intro w l h hw
  cases h
  obtain ⟨a, imm⟩ := x
  refine of_encI (by decide) (by decide) (by decide) (sreg_lt _) hw ?_
  rw [decodeOp_C8 _ _ rfl]
  simp [decSbr, rsv, Fields.immv]

theorem Encoding.scall (x : ScallOp) : Encoding.Statement (.scall x) := by
  intro w l h hw
  cases h
  obtain ⟨d, imm⟩ := x
  refine of_encI (by decide) (by decide) (sreg_lt _) (by decide) hw ?_
  rw [decodeOp_C8 _ _ rfl]
  simp [decSbr, rsv, Fields.immv]

theorem Encoding.sret (a : SReg) : Encoding.Statement (.sret a) := by
  intro w l h hw
  cases h
  refine of_encR (by decide) (by decide) (by decide) (sreg_lt _) (by decide) (by decide) (by decide) hw ?_
  rw [decodeOp_C9 _ _ rfl]
  simp [decSret, rsv]

theorem Encoding.sexit : Encoding.Statement .sexit := by
  intro w l h hw
  cases h
  refine of_encR (by decide) (by decide) (by decide) (by decide) (by decide) (by decide) (by decide) hw ?_
  rw [decodeOp_C9 _ _ rfl]
  simp [decSret, rsv]

theorem Encoding.sfence (x : FenceOp) : Encoding.Statement (.sfence x) := by
  intro w l h hw
  cases h
  obtain ⟨ord, sc⟩ := x
  refine of_encR (by decide) (by decide) (by decide) (by decide) (by decide) (by decide)
    (by have := FenceOrd_lt ord; have := Scope_lt sc; ((try dsimp only); omega)) hw ?_
  rw [decodeOp_CA _ _ rfl]
  simp [decFenceWith, rsv, legal]

theorem Encoding.dqpush (a : SReg) : Encoding.Statement (.dqpush a) := by
  intro w l h hw
  cases h
  refine of_encR (by decide) (by decide) (by decide) (sreg_lt _) (by decide) (by decide) (by decide) hw ?_
  rw [decodeOp_CB _ _ rfl]
  simp [decDqpush, rsv]

theorem Encoding.fmbind (x : FmOp) : Encoding.Statement (.fmbind x) := by
  intro w l h hw
  cases h
  obtain ⟨d, a, b, k⟩ := x
  refine of_encR (by decide) (by decide) (sreg_lt _) (sreg_lt _) (sreg_lt _) (by decide)
    (Nat.lt_trans k.isLt (by decide)) hw ?_
  rw [decodeOp_CC _ _ rfl]
  simp [decFm, rsv]

theorem Encoding.fmswap (x : FmOp) : Encoding.Statement (.fmswap x) := by
  intro w l h hw
  cases h
  obtain ⟨d, a, b, k⟩ := x
  refine of_encR (by decide) (by decide) (sreg_lt _) (sreg_lt _) (sreg_lt _) (by decide)
    (Nat.lt_trans k.isLt (by decide)) hw ?_
  rw [decodeOp_CC _ _ rfl]
  simp [decFm, rsv]

theorem Encoding.fmquery (d : SReg) (k : Fin 8) : Encoding.Statement (.fmquery d k) := by
  intro w l h hw
  cases h
  refine of_encR (by decide) (by decide) (sreg_lt _) (by decide) (by decide) (by decide)
    (Nat.lt_trans k.isLt (by decide)) hw ?_
  rw [decodeOp_CC _ _ rfl]
  simp [decFm, rsv]

theorem Encoding.plaunch (a : SReg) : Encoding.Statement (.plaunch a) := by
  intro w l h hw
  cases h
  refine of_encR (by decide) (by decide) (by decide) (sreg_lt _) (by decide) (by decide) (by decide) hw ?_
  rw [decodeOp_CD _ _ rfl]
  simp [decPl, rsv]

theorem Encoding.pcancel (a : SReg) : Encoding.Statement (.pcancel a) := by
  intro w l h hw
  cases h
  refine of_encR (by decide) (by decide) (by decide) (sreg_lt _) (by decide) (by decide) (by decide) hw ?_
  rw [decodeOp_CD _ _ rfl]
  simp [decPl, rsv]

theorem Encoding.prepeat (a : SReg) : Encoding.Statement (.prepeat a) := by
  intro w l h hw
  cases h
  refine of_encR (by decide) (by decide) (by decide) (sreg_lt _) (by decide) (by decide) (by decide) hw ?_
  rw [decodeOp_CD _ _ rfl]
  simp [decPl, rsv]

theorem Encoding.fence (x : FenceOp) : Encoding.Statement (.fence x) := by
  intro w l h hw
  cases h
  obtain ⟨ord, sc⟩ := x
  refine of_encR (by decide) (by decide) (by decide) (by decide) (by decide) (by decide)
    (by have := FenceOrd_lt ord; have := Scope_lt sc; ((try dsimp only); omega)) hw ?_
  rw [decodeOp_60 _ _ rfl]
  simp [decFenceWith, rsv, legal]

theorem Encoding.bar (x : BarOp) : Encoding.Statement (.bar x) := by
  intro w l h hw
  cases h
  obtain ⟨bn, cl, cnt⟩ := x
  refine of_encR (by decide) (by decide) (Fin.isLt _) (by decide) (by decide) (by decide)
    (by have := bit_lt cl; have := cnt.isLt; ((try dsimp only); omega)) hw ?_
  rw [decodeOp_61 _ _ rfl]
  simp [decBar, rsv]

theorem Encoding.barArv (x : BarOp) : Encoding.Statement (.barArv x) := by
  intro w l h hw
  cases h
  obtain ⟨bn, cl, cnt⟩ := x
  refine of_encR (by decide) (by decide) (Fin.isLt _) (by decide) (by decide) (by decide)
    (by have := bit_lt cl; have := cnt.isLt; ((try dsimp only); omega)) hw ?_
  rw [decodeOp_61 _ _ rfl]
  simp [decBar, rsv]

theorem Encoding.boarr (x : BoarrOp) : Encoding.Statement (.boarr x) := by
  intro w l h hw
  cases h
  obtain ⟨g, d, b, cnt, sc⟩ := x
  cases cnt
  all_goals
    refine of_encR (by decide) (by decide) (Fin.isLt _) (ov_lt _ (by decide)) (Fin.isLt _) (by decide)
      (by have := Scope_lt sc; simp only [fx, dx, boX, mmX, capWfn, scmpFn, lvA, ov, Option.isSome, Option.isNone, bit_true, bit_false, Nat.one_mul, Nat.zero_mul, reduceIte, Bool.false_eq_true]; omega) hw ?_
    rw [decodeOp_62 _ _ rfl]
    simp [decBoarr, rsv, legal, Fields.guard, ov]

theorem Encoding.bowait (x : BowaitOp) : Encoding.Statement (.bowait x) := by
  intro w l h hw
  cases h
  obtain ⟨g, a, b, sc⟩ := x
  refine of_encR (by decide) (by decide) (by decide) (Fin.isLt _) (Fin.isLt _) (by decide)
    (by have := Scope_lt sc; ((try dsimp only); omega)) hw ?_
  rw [decodeOp_63 _ _ rfl]
  simp [decBowait, rsv, legal, Fields.guard]

theorem Encoding.tlwait (x : TlwaitOp) : Encoding.Statement (.tlwait x) := by
  intro w l h hw
  cases h
  obtain ⟨a, b, sys⟩ := x
  cases sys
  all_goals
    refine of_encR (by decide) (by decide) (by decide) (Fin.isLt _) (Fin.isLt _) (by decide)
      (by simp only [fx, dx, boX, mmX, capWfn, scmpFn, lvA, ov, Option.isSome, Option.isNone, bit_true, bit_false, Nat.one_mul, Nat.zero_mul, reduceIte, Bool.false_eq_true]; omega) hw ?_
    rw [decodeOp_64 _ _ rfl]
    simp [decTlwait, rsv]

theorem Encoding.shld (x : ShMemOp) : Encoding.Statement (.shld x) := by
  intro w l h hw
  cases h
  obtain ⟨g, sh, b, ofs⟩ := x
  refine of_encM (by decide) (by decide) (reg16_lt _) (by decide) (Fin.isLt _) hw ?_
  rw [decodeOp_68 _ _ rfl]
  simp [decShMem, rsv, Fields.guard, Fields.ofsv]

theorem Encoding.shst (x : ShMemOp) : Encoding.Statement (.shst x) := by
  intro w l h hw
  cases h
  obtain ⟨g, sh, b, ofs⟩ := x
  refine of_encM (by decide) (by decide) (reg16_lt _) (by decide) (Fin.isLt _) hw ?_
  rw [decodeOp_68 _ _ rfl]
  simp [decShMem, rsv, Fields.guard, Fields.ofsv]

theorem Encoding.shset (x : ShsetOp) : Encoding.Statement (.shset x) := by
  intro w l h hw
  cases h
  obtain ⟨g, f, sh, a⟩ := x
  refine of_encR (by decide) (Nat.lt_of_lt_of_le (ShField_lt _) (by decide)) (reg16_lt _) (Fin.isLt _) (by decide)
    (by decide) (by decide) hw ?_
  rw [decodeOp_69 _ _ rfl]
  simp [decShset, rsv, assigned, Fields.guard]

theorem Encoding.cpy (x : CpyOp) : Encoding.Statement (.cpy x) := by
  intro w l h hw
  cases h
  obtain ⟨g, d, a, cv, bo⟩ := x
  cases bo
  all_goals
    refine of_encR (by decide) (by decide) (reg16_lt _) (reg16_lt _) (ov_lt _ (by decide)) (by decide)
      (by have := bit_lt cv; simp only [fx, dx, boX, mmX, capWfn, scmpFn, lvA, ov, Option.isSome, Option.isNone, bit_true, bit_false, Nat.one_mul, Nat.zero_mul, reduceIte, Bool.false_eq_true]; omega) hw ?_
    rw [decodeOp_6A _ _ rfl]
    simp [decCpy, rsv, Fields.guard, boX, ov]

theorem Encoding.cpyHalo (x : HaloOp) : Encoding.Statement (.cpyHalo x) := by
  intro w l h hw
  cases h
  obtain ⟨g, d, a, hd, bo⟩ := x
  cases bo
  all_goals
    refine of_encR (by decide) (by decide) (reg16_lt _) (reg16_lt _) (ov_lt _ (by decide)) (by decide)
      (by have := hd.isLt; simp only [fx, dx, boX, mmX, capWfn, scmpFn, lvA, ov, Option.isSome, Option.isNone, bit_true, bit_false, Nat.one_mul, Nat.zero_mul, reduceIte, Bool.false_eq_true]; omega) hw ?_
    rw [decodeOp_6A _ _ rfl]
    simp [decCpy, rsv, Fields.guard, boX, ov]

theorem Encoding.cpyRed (x : RedOp) : Encoding.Statement (.cpyRed x) := by
  intro w l h hw
  cases h
  obtain ⟨g, d, a, bo⟩ := x
  cases bo
  all_goals
    refine of_encR (by decide) (by decide) (reg16_lt _) (reg16_lt _) (ov_lt _ (by decide)) (by decide)
      (by simp only [fx, dx, boX, mmX, capWfn, scmpFn, lvA, ov, Option.isSome, Option.isNone, bit_true, bit_false, Nat.one_mul, Nat.zero_mul, reduceIte, Bool.false_eq_true]; omega) hw ?_
    rw [decodeOp_6A _ _ rfl]
    simp [decCpy, rsv, Fields.guard, boX, ov]

theorem Encoding.cbatch (d : VReg) : Encoding.Statement (.cbatch d) := by
  intro w l h hw
  cases h
  refine of_encR (by decide) (by decide) (Fin.isLt _) (by decide) (by decide) (by decide) (by decide) hw ?_
  rw [decodeOp_6B _ _ rfl]
  simp [decBatch, rsv, legal]

theorem Encoding.cwait (x : WaitOp) : Encoding.Statement (.cwait x) := by
  intro w l h hw
  cases h
  obtain ⟨a, sc⟩ := x
  refine of_encR (by decide) (by decide) (by decide) (Fin.isLt _) (by decide) (by decide)
    (by have := WaitScope_lt sc; ((try dsimp only); omega)) hw ?_
  rw [decodeOp_6B _ _ rfl]
  simp [decBatch, rsv, legal]

theorem Encoding.qscan (x : QOp) : Encoding.Statement (.qscan x) := by
  intro w l h hw
  cases h
  obtain ⟨g, d, a, k⟩ := x
  refine of_encR (by decide) (by decide) (reg16_lt _) (reg16_lt _) (by decide) (by decide)
    (by have := k.isLt; ((try dsimp only); omega)) hw ?_
  rw [decodeOp_80 _ _ rfl]
  simp [decQ, rsv, Fields.guard, Fields.slot]

theorem Encoding.qrot (x : QrotOp) : Encoding.Statement (.qrot x) := by
  intro w l h hw
  cases h
  obtain ⟨g, d, a, b, gs⟩ := x
  refine of_encR (by decide) (by decide) (reg16_lt _) (reg16_lt _) (Fin.isLt _) (by decide)
    (by have := RotSz_lt gs; ((try dsimp only); omega)) hw ?_
  rw [decodeOp_81 _ _ rfl]
  simp [decQrot, rsv, legal, Fields.guard]

theorem Encoding.qsmooth (x : QsmOp) : Encoding.Statement (.qsmooth x) := by
  intro w l h hw
  cases h
  obtain ⟨g, d, a, b⟩ := x
  refine of_encR (by decide) (by decide) (reg16_lt _) (reg16_lt _) (reg16_lt _) (by decide) (by decide) hw ?_
  rw [decodeOp_82 _ _ rfl]
  simp [decQsm, rsv, Fields.guard]

theorem Encoding.qcvt (x : QOp) : Encoding.Statement (.qcvt x) := by
  intro w l h hw
  cases h
  obtain ⟨g, d, a, k⟩ := x
  refine of_encR (by decide) (by decide) (reg16_lt _) (reg16_lt _) (by decide) (by decide)
    (by have := k.isLt; ((try dsimp only); omega)) hw ?_
  rw [decodeOp_83 _ _ rfl]
  simp [decQ, rsv, Fields.guard, Fields.slot]

theorem Encoding.xcvtEncode (x : XcvtOp) : Encoding.Statement (.xcvtEncode x) := by
  intro w l h hw
  cases h
  obtain ⟨g, d, a, scl, ft, sel, k⟩ := x
  cases scl
  all_goals
    refine of_encR (by decide) (by decide) (Fin.isLt _) (Fin.isLt _) (ov_lt _ (by decide)) (by decide)
      (by have := FTy_lt ft; have := sel.isLt; have := k.isLt; simp only [fx, dx, boX, mmX, capWfn, scmpFn, lvA, ov, Option.isSome, Option.isNone, bit_true, bit_false, Nat.one_mul, Nat.zero_mul, reduceIte, Bool.false_eq_true]; omega) hw ?_
    rw [decodeOp_84 _ _ rfl]
    simp [decXcvt, rsv, legal, Fields.guard, Fields.slot, ov]

theorem Encoding.xcvtDecode (x : XcvtOp) : Encoding.Statement (.xcvtDecode x) := by
  intro w l h hw
  cases h
  obtain ⟨g, d, a, scl, ft, sel, k⟩ := x
  cases scl
  all_goals
    refine of_encR (by decide) (by decide) (Fin.isLt _) (Fin.isLt _) (ov_lt _ (by decide)) (by decide)
      (by have := FTy_lt ft; have := sel.isLt; have := k.isLt; simp only [fx, dx, boX, mmX, capWfn, scmpFn, lvA, ov, Option.isSome, Option.isNone, bit_true, bit_false, Nat.one_mul, Nat.zero_mul, reduceIte, Bool.false_eq_true]; omega) hw ?_
    rw [decodeOp_84 _ _ rfl]
    simp [decXcvt, rsv, legal, Fields.guard, Fields.slot, ov]

theorem Encoding.mopen (x : MopenOp) : Encoding.Statement (.mopen x) := by
  intro w l h hw
  cases h
  obtain ⟨g, num, c⟩ := x
  cases num
  all_goals
    refine of_encR (by decide) (by decide) (ov_lt _ (by decide)) (reg16_lt _) (by decide) (by decide)
      (by simp only [fx, dx, boX, mmX, capWfn, scmpFn, lvA, ov, Option.isSome, Option.isNone, bit_true, bit_false, Nat.one_mul, Nat.zero_mul, reduceIte, Bool.false_eq_true]; omega) hw ?_
    rw [decodeOp_70 _ _ rfl]
    simp [decMopen, rsv, Fields.guard, ov]

theorem Encoding.mclose (x : McloseOp) : Encoding.Statement (.mclose x) := by
  intro w l h hw
  cases h
  obtain ⟨g, num, c, os⟩ := x
  cases num
  all_goals
    refine of_encR (by decide) (by decide) (ov_lt _ (by decide)) (reg16_lt _) (by decide) (by decide)
      (by have := os.isLt; simp only [fx, dx, boX, mmX, capWfn, scmpFn, lvA, ov, Option.isSome, Option.isNone, bit_true, bit_false, Nat.one_mul, Nat.zero_mul, reduceIte, Bool.false_eq_true]; omega) hw ?_
    rw [decodeOp_70 _ _ rfl]
    simp [decMopen, rsv, Fields.guard, ov]

theorem Encoding.mma (x : MmaOp) : Encoding.Statement (.mma x) := by
  intro w l h hw
  cases h
  obtain ⟨g, c, a, b, np, sa, hf, sp, fm⟩ := x
  cases sa
  all_goals
    refine of_encR (by decide) (by decide) (reg16_lt _) (Fin.isLt _) (reg16_lt _)
      (by have := np.isLt; simp only [fx, dx, boX, mmX, capWfn, scmpFn, lvA, ov, Option.isSome, Option.isNone, bit_true, bit_false, Nat.one_mul, Nat.zero_mul, reduceIte, Bool.false_eq_true]; omega) (by have := bit_lt hf; have := SpMode_lt sp; have := FmFmt_lt fm; simp only [fx, dx, boX, mmX, capWfn, scmpFn, lvA, ov, Option.isSome, Option.isNone, bit_true, bit_false, Nat.one_mul, Nat.zero_mul, reduceIte, Bool.false_eq_true]; omega) hw ?_
    rw [decodeOp_71 _ _ rfl]
    simp [decMma, rsv, legal, Fields.guard, ov]

theorem Encoding.mdist (x : MmaOp) : Encoding.Statement (.mdist x) := by
  intro w l h hw
  cases h
  obtain ⟨g, c, a, b, np, sa, hf, sp, fm⟩ := x
  cases sa
  all_goals
    refine of_encR (by decide) (by decide) (reg16_lt _) (Fin.isLt _) (reg16_lt _)
      (by have := np.isLt; simp only [fx, dx, boX, mmX, capWfn, scmpFn, lvA, ov, Option.isSome, Option.isNone, bit_true, bit_false, Nat.one_mul, Nat.zero_mul, reduceIte, Bool.false_eq_true]; omega) (by have := bit_lt hf; have := SpMode_lt sp; have := FmFmt_lt fm; simp only [fx, dx, boX, mmX, capWfn, scmpFn, lvA, ov, Option.isSome, Option.isNone, bit_true, bit_false, Nat.one_mul, Nat.zero_mul, reduceIte, Bool.false_eq_true]; omega) hw ?_
    rw [decodeOp_71 _ _ rfl]
    simp [decMma, rsv, legal, Fields.guard, ov]

theorem Encoding.mtopk (x : MtopkOp) : Encoding.Statement (.mtopk x) := by
  intro w l h hw
  cases h
  obtain ⟨g, d, a, b, k⟩ := x
  refine of_encR (by decide) (by decide) (Fin.isLt _) (reg16_lt _) (Fin.isLt _) (by decide)
    (by have := k.isLt; ((try dsimp only); omega)) hw ?_
  rw [decodeOp_72 _ _ rfl]
  simp [decMtopk, rsv, legal, Fields.guard]

theorem Encoding.mwait (x : WaitOp) : Encoding.Statement (.mwait x) := by
  intro w l h hw
  cases h
  obtain ⟨a, sc⟩ := x
  refine of_encR (by decide) (by decide) (by decide) (Fin.isLt _) (by decide) (by decide)
    (by have := WaitScope_lt sc; ((try dsimp only); omega)) hw ?_
  rw [decodeOp_73 _ _ rfl]
  simp [decMwait, rsv, legal]

theorem Encoding.mwaitAll (sc : WaitScope) : Encoding.Statement (.mwaitAll sc) := by
  intro w l h hw
  cases h
  refine of_encR (by decide) (by decide) (by decide) (by decide) (by decide) (by decide)
    (by have := WaitScope_lt sc; ((try dsimp only); omega)) hw ?_
  rw [decodeOp_73 _ _ rfl]
  simp [decMwait, rsv, legal]

theorem Encoding.capenter (x : CapenterOp) : Encoding.Statement (.capenter x) := by
  intro w l h hw
  cases h
  obtain ⟨a, b, len⟩ := x
  refine of_encR (by decide) (by decide) (by decide) (Fin.isLt _) (Fin.isLt _) (by decide)
    (by have := len.isLt; ((try dsimp only); omega)) hw ?_
  rw [decodeOp_88 _ _ rfl]
  simp [decCapenter, rsv]

theorem Encoding.capexit (a : CReg) : Encoding.Statement (.capexit a) := by
  intro w l h hw
  cases h
  refine of_encR (by decide) (by decide) (by decide) (reg16_lt _) (by decide) (by decide) (by decide) hw ?_
  rw [decodeOp_89 _ _ rfl]
  simp [decCapexit, rsv]

theorem Encoding.capres (d : VReg) : Encoding.Statement (.capres d) := by
  intro w l h hw
  cases h
  refine of_encR (by decide) (by decide) (Fin.isLt _) (by decide) (by decide) (by decide) (by decide) hw ?_
  rw [decodeOp_8A _ _ rfl]
  simp [decCapres, rsv]

theorem Encoding.capld (x : CapldOp) : Encoding.Statement (.capld x) := by
  intro w l h hw
  cases h
  obtain ⟨w64, d, b, ofs⟩ := x
  cases w64
  all_goals
    refine of_encM (by decide)
      (by simp only [fx, dx, boX, mmX, capWfn, scmpFn, lvA, ov, Option.isSome, Option.isNone, bit_true, bit_false, Nat.one_mul, Nat.zero_mul, reduceIte, Bool.false_eq_true]; omega) (reg16_lt _) (by decide) (reg16_lt _) hw ?_
    rw [decodeOp_8B _ _ rfl]
    simp [decCapld, rsv, assigned, Fields.ofsv, capW, capWfn]

theorem Encoding.capst (x : CapstOp) : Encoding.Statement (.capst x) := by
  intro w l h hw
  cases h
  obtain ⟨w64, a, b⟩ := x
  cases w64
  all_goals
    refine of_encR (by decide)
      (by simp only [fx, dx, boX, mmX, capWfn, scmpFn, lvA, ov, Option.isSome, Option.isNone, bit_true, bit_false, Nat.one_mul, Nat.zero_mul, reduceIte, Bool.false_eq_true]; omega) (by decide) (reg16_lt _) (reg16_lt _) (by decide) (by decide) hw ?_
    rw [decodeOp_8C _ _ rfl]
    simp [decCapst, rsv, assigned, capW, capWfn]

theorem Encoding.capcas (x : CapcasOp) : Encoding.Statement (.capcas x) := by
  intro w l h hw
  cases h
  obtain ⟨w64, d, a, b, c⟩ := x
  cases w64
  all_goals
    refine of_encR (by decide)
      (by simp only [fx, dx, boX, mmX, capWfn, scmpFn, lvA, ov, Option.isSome, Option.isNone, bit_true, bit_false, Nat.one_mul, Nat.zero_mul, reduceIte, Bool.false_eq_true]; omega) (reg16_lt _) (reg16_lt _) (reg16_lt _) (reg16_lt _) (by decide) hw ?_
    rw [decodeOp_8D _ _ rfl]
    simp [decCapcas, rsv, assigned, capW, capWfn]

theorem Encoding.capop (x : CapopOp) : Encoding.Statement (.capop x) := by
  intro w l h hw
  cases h
  cases x with
  | bin o d a b =>
    have ho : o.code ≠ 8 := by cases o <;> decide
    have hl := Nat.lt_trans (CapBin_lt o) (show 8 < 64 by decide)
    cases b with
    | reg r =>
      refine of_encR (by decide) hl (reg16_lt _) (reg16_lt _) (reg16_lt _) (by decide) (by decide) hw ?_
      rw [decodeOp_8E _ _ rfl]
      simp [decCapop, rsv, assigned, ho]
    | imm v =>
      refine of_encR (by decide) hl (reg16_lt _) (reg16_lt _) (by decide) (by decide)
        (by have := v.isLt; omega) hw ?_
      rw [decodeOp_8E _ _ rfl]
      simp [decCapop, rsv, assigned, ho]
  | mov d b =>
    cases b with
    | reg r =>
      refine of_encR (by decide) (by decide) (reg16_lt _) (by decide) (reg16_lt _) (by decide) (by decide) hw ?_
      rw [decodeOp_8E _ _ rfl]
      simp [decCapop, rsv, assigned]
    | imm v =>
      refine of_encR (by decide) (by decide) (reg16_lt _) (by decide) (by decide) (by decide)
        (by have := v.isLt; omega) hw ?_
      rw [decodeOp_8E _ _ rfl]
      simp [decCapop, rsv, assigned]

theorem Encoding.capbr (x : CapbrOp) : Encoding.Statement (.capbr x) := by
  intro w l h hw
  cases h
  cases x with
  | al disp =>
    refine of_encR (by decide) (by decide) (by decide) (by decide) (by decide) (by decide)
      (by have := disp.isLt; omega) hw ?_
    rw [decodeOp_8F _ _ rfl]
    simp [decCapbr, rsv]
  | cond c a b disp =>
    have hc : c.code ≠ 0 := by cases c <;> decide
    refine of_encR (by decide) (Nat.lt_trans (CapCond_lt c) (by decide)) (by decide) (reg16_lt _) (reg16_lt _)
      (by decide)
      (by have := disp.isLt; omega) hw ?_
    rw [decodeOp_8F _ _ rfl]
    simp [decCapbr, rsv, assigned, hc]

theorem Encoding.solveBegin (x : SolveTiles) : Encoding.Statement (.solveBegin x) := by
  intro w l h hw
  cases h
  cases x
  case one t1 =>
    refine of_encR (by decide) (by decide) (reg16_lt _) (by decide) (by decide) (by decide) (by decide) hw ?_
    rw [decodeOp_90 _ _ rfl]
    simp [decSolve, rsv]
  case two t1 t2 =>
    refine of_encR (by decide) (by decide) (reg16_lt _) (reg16_lt _) (by decide) (by decide) (by decide) hw ?_
    rw [decodeOp_90 _ _ rfl]
    simp [decSolve, rsv]
  case three t1 t2 t3 =>
    refine of_encR (by decide) (by decide) (reg16_lt _) (reg16_lt _) (reg16_lt _) (by decide) (by decide) hw ?_
    rw [decodeOp_90 _ _ rfl]
    simp [decSolve, rsv]
  case four t1 t2 t3 t4 =>
    refine of_encR (by decide) (by decide) (reg16_lt _) (reg16_lt _) (reg16_lt _) (reg16_lt _) (by decide) hw ?_
    rw [decodeOp_90 _ _ rfl]
    simp [decSolve, rsv]

theorem Encoding.solveEnd (x : SolveTiles) : Encoding.Statement (.solveEnd x) := by
  intro w l h hw
  cases h
  cases x
  case one t1 =>
    refine of_encR (by decide) (by decide) (reg16_lt _) (by decide) (by decide) (by decide) (by decide) hw ?_
    rw [decodeOp_90 _ _ rfl]
    simp [decSolve, rsv]
  case two t1 t2 =>
    refine of_encR (by decide) (by decide) (reg16_lt _) (reg16_lt _) (by decide) (by decide) (by decide) hw ?_
    rw [decodeOp_90 _ _ rfl]
    simp [decSolve, rsv]
  case three t1 t2 t3 =>
    refine of_encR (by decide) (by decide) (reg16_lt _) (reg16_lt _) (reg16_lt _) (by decide) (by decide) hw ?_
    rw [decodeOp_90 _ _ rfl]
    simp [decSolve, rsv]
  case four t1 t2 t3 t4 =>
    refine of_encR (by decide) (by decide) (reg16_lt _) (reg16_lt _) (reg16_lt _) (reg16_lt _) (by decide) hw ?_
    rw [decodeOp_90 _ _ rfl]
    simp [decSolve, rsv]

theorem Encoding.solveSet (x : SolveSetOp) : Encoding.Statement (.solveSet x) := by
  intro w l h hw
  cases h
  obtain ⟨p, a⟩ := x
  refine of_encR (by decide) (Nat.lt_of_lt_of_le (SolveParam_lt _) (by decide)) (by decide) (Fin.isLt _) (by decide)
    (by decide) (by decide) hw ?_
  rw [decodeOp_91 _ _ rfl]
  simp [decSolveSet, rsv, assigned]

theorem Encoding.solveStat (x : SelRead) : Encoding.Statement (.solveStat x) := by
  intro w l h hw
  cases h
  obtain ⟨d, sel⟩ := x
  refine of_encR (by decide) (by decide) (Fin.isLt _) (by decide) (by decide) (by decide)
    (by have := sel.isLt; ((try dsimp only); omega)) hw ?_
  rw [decodeOp_92 _ _ rfl]
  simp [decSolveStat, rsv]

theorem Encoding.trap (x : TrapOp) : Encoding.Statement (.trap x) := by
  intro w l h hw
  cases h
  obtain ⟨a, code⟩ := x
  refine of_encI (by decide) (by decide) (by decide) (Fin.isLt _) hw ?_
  rw [decodeOp_9A _ _ rfl]
  simp [decTrap, rsv]

theorem Encoding.tfence : Encoding.Statement .tfence := by
  intro w l h hw
  cases h
  refine of_encR (by decide) (by decide) (by decide) (by decide) (by decide) (by decide) (by decide) hw ?_
  rw [decodeOp_9B _ _ rfl]
  simp [decTfence, rsv]

theorem Encoding.clrf (mask : BitVec 7) : Encoding.Statement (.clrf mask) := by
  intro w l h hw
  cases h
  refine of_encR (by decide) (by decide) (by decide) (by decide) (by decide) (by decide)
    (by have := mask.isLt; ((try dsimp only); omega)) hw ?_
  rw [decodeOp_9B _ _ rfl]
  simp [decTfence, rsv]

theorem Encoding.brk : Encoding.Statement .brk := by
  intro w l h hw
  cases h
  refine of_encR (by decide) (by decide) (by decide) (by decide) (by decide) (by decide) (by decide) hw ?_
  rw [decodeOp_9B _ _ rfl]
  simp [decTfence, rsv]

theorem Encoding.featq (x : SelRead) : Encoding.Statement (.featq x) := by
  intro w l h hw
  cases h
  obtain ⟨d, sel⟩ := x
  refine of_encR (by decide) (by decide) (Fin.isLt _) (by decide) (by decide) (by decide)
    (by have := sel.isLt; ((try dsimp only); omega)) hw ?_
  rw [decodeOp_9C _ _ rfl]
  simp [decFeatq, rsv]

theorem Encoding.hardwareBreakpoint : Encoding.Statement .hardwareBreakpoint := fun _ _ h => nomatch h

theorem Encoding.singleStepTrap : Encoding.Statement .singleStepTrap := fun _ _ h => nomatch h

theorem Encoding.trapRecordWrite (k : Nat) : Encoding.Statement (.trapRecordWrite k) := fun _ _ h => nomatch h

theorem Encoding.starvationLift (l : Nat) (b : Nat) (t : Nat) (f : Nat) (long : Bool) : Encoding.Statement
  (.starvationLift l b t f long) := fun _ _ h => nomatch h

theorem Encoding.joinParkRelease (l : Nat) (b : Nat) (t : Nat) (f : Nat) : Encoding.Statement
  (.joinParkRelease l b t f) := fun _ _ h => nomatch h

theorem Encoding.foyerStarvationLift (l : Nat) (b : Nat) : Encoding.Statement (.foyerStarvationLift l b) := fun _ _
  h => nomatch h

theorem Encoding.safePointMove (l : Nat) (b : Nat) (t : Option Nat) : Encoding.Statement (.safePointMove l b t) :=
  fun _ _ h => nomatch h

theorem Encoding.translationInstall (l : Nat) (x : XlatArg) : Encoding.Statement (.translationInstall l x) := fun _
  _ h => nomatch h

theorem Encoding.translationUninstall (l : Nat) : Encoding.Statement (.translationUninstall l) := fun _ _ h =>
  nomatch h

theorem Encoding.hostLinkTrain : Encoding.Statement .hostLinkTrain := fun _ _ h => nomatch h

theorem Encoding.powerOnReset : Encoding.Statement .powerOnReset := fun _ _ h => nomatch h

theorem Encoding.cxlReset : Encoding.Statement .cxlReset := fun _ _ h => nomatch h

theorem Encoding.thermalTrip : Encoding.Statement .thermalTrip := fun _ _ h => nomatch h

theorem Encoding.supplyFault : Encoding.Statement .supplyFault := fun _ _ h => nomatch h

theorem Encoding.auxSupplyLoss : Encoding.Statement .auxSupplyLoss := fun _ _ h => nomatch h

theorem Encoding.bootVerify : Encoding.Statement .bootVerify := fun _ _ h => nomatch h

theorem Encoding.firmwareWatchdogReset : Encoding.Statement .firmwareWatchdogReset := fun _ _ h => nomatch h

theorem Encoding.watchdogCountClear : Encoding.Statement .watchdogCountClear := fun _ _ h => nomatch h

theorem Encoding.rcvcmd (v : DWord) : Encoding.Statement (.rcvcmd v) := fun _ _ h => nomatch h

theorem Encoding.firmwareMailboxUpdate (addr : DWord) : Encoding.Statement (.firmwareMailboxUpdate addr) := fun _ _
  h => nomatch h

theorem Encoding.spdmRequest (ix : Nat) : Encoding.Statement (.spdmRequest ix) := fun _ _ h => nomatch h

theorem Encoding.keyEnrol (fn : Nat) (key : List Byte) : Encoding.Statement (.keyEnrol fn key) := fun _ _ h =>
  nomatch h

theorem Encoding.keyRemove (fn : Nat) (ix : Nat) : Encoding.Statement (.keyRemove fn ix) := fun _ _ h => nomatch h

theorem Encoding.registerWrite (fn : Nat) (off : Nat) (v : DWord) : Encoding.Statement (.registerWrite fn off v) :=
  fun _ _ h => nomatch h

theorem Encoding.qcreate (fn : Nat) (v : DWord) : Encoding.Statement (.qcreate fn v) := fun _ _ h => nomatch h

theorem Encoding.qcreateAdopt (v : DWord) : Encoding.Statement (.qcreateAdopt v) := fun _ _ h => nomatch h

theorem Encoding.qctlResume (fn : Nat) (q : Nat) : Encoding.Statement (.qctlResume fn q) := fun _ _ h => nomatch h

theorem Encoding.qctlHalt (fn : Nat) (q : Nat) : Encoding.Statement (.qctlHalt fn q) := fun _ _ h => nomatch h

theorem Encoding.qctlDestroy (fn : Nat) (q : Nat) : Encoding.Statement (.qctlDestroy fn q) := fun _ _ h => nomatch h

theorem Encoding.queueDestroyEffect (q : Nat) : Encoding.Statement (.queueDestroyEffect q) := fun _ _ h => nomatch h

theorem Encoding.notify (fn : Nat) (q : Nat) (v : DWord) : Encoding.Statement (.notify fn q v) := fun _ _ h =>
  nomatch h

theorem Encoding.classmin (c : Nat) (v : DWord) : Encoding.Statement (.classmin c v) := fun _ _ h => nomatch h

theorem Encoding.porchMap : Encoding.Statement .porchMap := fun _ _ h => nomatch h

theorem Encoding.parserReadWidx (q : Nat) : Encoding.Statement (.parserReadWidx q) := fun _ _ h => nomatch h

theorem Encoding.packetConsume (q : Nat) : Encoding.Statement (.packetConsume q) := fun _ _ h => nomatch h

theorem Encoding.nopPacket (k : Nat) : Encoding.Statement (.nopPacket k) := fun _ _ h => nomatch h

theorem Encoding.launch (k : Nat) : Encoding.Statement (.launch k) := fun _ _ h => nomatch h

theorem Encoding.blockResident (l : Nat) (die : Nat) (cluster : Nat) (core : Nat) : Encoding.Statement
  (.blockResident l die cluster core) := fun _ _ h => nomatch h

theorem Encoding.blockComplete (l : Nat) (b : Nat) : Encoding.Statement (.blockComplete l b) := fun _ _ h => nomatch h

theorem Encoding.launchComplete (l : Nat) : Encoding.Statement (.launchComplete l) := fun _ _ h => nomatch h

theorem Encoding.launchInd (k : Nat) : Encoding.Statement (.launchInd k) := fun _ _ h => nomatch h

theorem Encoding.prologueRepeat (k : Nat) : Encoding.Statement (.prologueRepeat k) := fun _ _ h => nomatch h

theorem Encoding.fencePacket (k : Nat) : Encoding.Statement (.fencePacket k) := fun _ _ h => nomatch h

theorem Encoding.fencePacketComplete (k : Nat) : Encoding.Statement (.fencePacketComplete k) := fun _ _ h => nomatch h

theorem Encoding.signal (k : Nat) : Encoding.Statement (.signal k) := fun _ _ h => nomatch h

theorem Encoding.timeline (k : Nat) : Encoding.Statement (.timeline k) := fun _ _ h => nomatch h

theorem Encoding.copyPacket (k : Nat) : Encoding.Statement (.copyPacket k) := fun _ _ h => nomatch h

theorem Encoding.format (k : Nat) : Encoding.Statement (.format k) := fun _ _ h => nomatch h

theorem Encoding.graph (k : Nat) : Encoding.Statement (.graph k) := fun _ _ h => nomatch h

theorem Encoding.graphInstanceComplete (k : Nat) : Encoding.Statement (.graphInstanceComplete k) := fun _ _ h =>
  nomatch h

theorem Encoding.bulkPacket (q : Nat) : Encoding.Statement (.bulkPacket q) := fun _ _ h => nomatch h

theorem Encoding.bulkRecordWrite (q : Nat) : Encoding.Statement (.bulkRecordWrite q) := fun _ _ h => nomatch h

theorem Encoding.bulkPacketFault (q : Nat) : Encoding.Statement (.bulkPacketFault q) := fun _ _ h => nomatch h

theorem Encoding.copyComplete (l : Nat) (b : Nat) (t : Nat) (batch : Nat) (pos : Nat) : Encoding.Statement
  (.copyComplete l b t batch pos) := fun _ _ h => nomatch h

theorem Encoding.copySuspend (l : Nat) (b : Nat) (t : Nat) (batch : Nat) (pos : Nat) : Encoding.Statement
  (.copySuspend l b t batch pos) := fun _ _ h => nomatch h

theorem Encoding.hearthGrant : Encoding.Statement .hearthGrant := fun _ _ h => nomatch h

theorem Encoding.mopenCellsAvailable (l : Nat) (b : Nat) (t : Nat) (n : Nat) : Encoding.Statement
  (.mopenCellsAvailable l b t n) := fun _ _ h => nomatch h

theorem Encoding.hearthPass (l : Nat) (b : Nat) (t : Nat) (n : Nat) : Encoding.Statement (.hearthPass l b t n) :=
  fun _ _ h => nomatch h

theorem Encoding.hearthOpComplete (l : Nat) (b : Nat) (t : Nat) (n : Nat) : Encoding.Statement
  (.hearthOpComplete l b t n) := fun _ _ h => nomatch h

theorem Encoding.hearthEngineFault (l : Nat) (b : Nat) (t : Nat) (n : Nat) : Encoding.Statement
  (.hearthEngineFault l b t n) := fun _ _ h => nomatch h

theorem Encoding.fmRequest (fn : Nat) : Encoding.Statement (.fmRequest fn) := fun _ _ h => nomatch h

theorem Encoding.fmDrainEnd (fn : Nat) : Encoding.Statement (.fmDrainEnd fn) := fun _ _ h => nomatch h

theorem Encoding.fmReconfigDone (fn : Nat) : Encoding.Statement (.fmReconfigDone fn) := fun _ _ h => nomatch h

theorem Encoding.solveActivationCopy (l : Nat) (b : Nat) : Encoding.Statement (.solveActivationCopy l b) := fun _ _
  h => nomatch h

theorem Encoding.solveEvaluation (l : Nat) (b : Nat) : Encoding.Statement (.solveEvaluation l b) := fun _ _ h =>
  nomatch h

theorem Encoding.solveDecision (l : Nat) (b : Nat) : Encoding.Statement (.solveDecision l b) := fun _ _ h => nomatch h

theorem Encoding.solveEngineFault (l : Nat) (b : Nat) : Encoding.Statement (.solveEngineFault l b) := fun _ _ h =>
  nomatch h

theorem Encoding.resume (fn : Nat) (v : DWord) : Encoding.Statement (.resume fn v) := fun _ _ h => nomatch h

theorem Encoding.term (fn : Nat) (v : DWord) : Encoding.Statement (.term fn v) := fun _ _ h => nomatch h

theorem Encoding.ctxStop (l : Nat) : Encoding.Statement (.ctxStop l) := fun _ _ h => nomatch h

theorem Encoding.ctxEvict (l : Nat) : Encoding.Statement (.ctxEvict l) := fun _ _ h => nomatch h

theorem Encoding.ctxResume (l : Nat) : Encoding.Statement (.ctxResume l) := fun _ _ h => nomatch h

theorem Encoding.ctxDetach (l : Nat) : Encoding.Statement (.ctxDetach l) := fun _ _ h => nomatch h

theorem Encoding.ctxRestore : Encoding.Statement .ctxRestore := fun _ _ h => nomatch h

theorem Encoding.ctxQuiesce (fn : Nat) : Encoding.Statement (.ctxQuiesce fn) := fun _ _ h => nomatch h

theorem Encoding.ctxstatRead : Encoding.Statement .ctxstatRead := fun _ _ h => nomatch h

theorem Encoding.tlbInvPage (fn : Nat) (asid : Nat) : Encoding.Statement (.tlbInvPage fn asid) := fun _ _ h =>
  nomatch h

theorem Encoding.tlbInvAsid (fn : Nat) (asid : Nat) : Encoding.Statement (.tlbInvAsid fn asid) := fun _ _ h =>
  nomatch h

theorem Encoding.tlbInvFunc (fn : Nat) : Encoding.Statement (.tlbInvFunc fn) := fun _ _ h => nomatch h

theorem Encoding.tlbstatRead (fn : Nat) : Encoding.Statement (.tlbstatRead fn) := fun _ _ h => nomatch h

theorem Encoding.dirtyLogRearm (v : Nat) (isEnd : Bool) (x : DWord) : Encoding.Statement (.dirtyLogRearm v isEnd x)
  := fun _ _ h => nomatch h

theorem Encoding.peerPortTrained (port : Nat) (dev : Nat) (wlen : Nat) : Encoding.Statement
  (.peerPortTrained port dev wlen) := fun _ _ h => nomatch h

theorem Encoding.peerWindowWrite (dev : Nat) (isLen : Bool) (v : DWord) : Encoding.Statement
  (.peerWindowWrite dev isLen v) := fun _ _ h => nomatch h

theorem Encoding.peerPortTimeout (port : Nat) : Encoding.Statement (.peerPortTimeout port) := fun _ _ h => nomatch h

theorem Encoding.flitReplay (port : Nat) : Encoding.Statement (.flitReplay port) := fun _ _ h => nomatch h

theorem Encoding.inboundPeerAccess (dev : Nat) (o : Nat) (acc : ExtAcc) : Encoding.Statement
  (.inboundPeerAccess dev o acc) := fun _ _ h => nomatch h

theorem Encoding.hostMemoryAccess (pa : Nat) (acc : ExtAcc) : Encoding.Statement (.hostMemoryAccess pa acc) := fun _
  _ h => nomatch h

theorem Encoding.illegalInstruction (c : Cause) : Encoding.Statement (.illegalInstruction c) := fun _ _ h => nomatch h

theorem Encoding.instructionFetchFault (c : Cause) (addr : DWord) : Encoding.Statement
  (.instructionFetchFault c addr) := fun _ _ h => nomatch h

theorem Encoding.resultWriteBack (l : Nat) (b : Nat) (t : Option Nat) (k : Nat) : Encoding.Statement
  (.resultWriteBack l b t k) := fun _ _ h => nomatch h

theorem Encoding.parserPoll (q : Nat) : Encoding.Statement (.parserPoll q) := fun _ _ h => nomatch h

theorem Encoding.tlbInvalidationComplete (fn : Nat) : Encoding.Statement (.tlbInvalidationComplete fn) := fun _ _ h
  => nomatch h

theorem Encoding.peerPortLoss (port : Nat) : Encoding.Statement (.peerPortLoss port) := fun _ _ h => nomatch h

theorem Encoding.recoveryComplete : Encoding.Statement .recoveryComplete := fun _ _ h => nomatch h

theorem Encoding.functionLevelReset (fn : Nat) : Encoding.Statement (.functionLevelReset fn) := fun _ _ h => nomatch h

theorem Encoding.functionCreate (fn : Nat) : Encoding.Statement (.functionCreate fn) := fun _ _ h => nomatch h

theorem Encoding.cxlCacheSnoop (line : Nat) (inv : Bool) : Encoding.Statement (.cxlCacheSnoop line inv) := fun _ _ h
  => nomatch h

end Sys2Proof.Laws
end

