-- ==== Sys2Proof/Safety.lean ====
section
/-!
DEFINITION. Safety.lean: what the claims ask of a state and of a step.
-/
namespace Sys2Proof.Machine

/-- What every step keeps: the memory is in its canonical form, so that equal memories are equal data. -/
abbrev State.Inv (s : State) : Prop := s.mem.wf = true

/-- A step answers a next state. -/
def Goes (o : Host.Outcome State Fault Refusal) : Prop := ∃ t, o = .next t

/-- A run of k steps that none stops. -/
def RunsFor : Nat → State → Prop
  | 0, _ => True
  | k + 1, s => ∃ t, step s = .next t ∧ RunsFor k t

end Sys2Proof.Machine
end

