-- ==== Sys2Proof/Certificates/Slice0/Obligations.lean ====
section
/-!
DEFINITION. Certificates/Slice0/Obligations.lean: what the model is claimed to do, one Prop for each claim, and the
vocabulary that the claims share.
-/
namespace Sys2Proof.Claims
open Sys2Proof.Machine

/-! ### Issuing -/

/-- The team of e, whose fragment e.fi stands at the word, executes i itself: no cause of orders 5 and 6 and no misplaced
capsule form (R53, R437), and no pending load or Hearth operation holds it back (R62, R183, R199). -/
structure Issues (i : Instr) (s : State) (e : TEnv) : Prop where
  env : s.teamEnv = some e
  pre : preCause s e i = none
  ready : e.waits i = false

/-- The Foyer context of e executes i itself (R53, R62). -/
structure FIssues (i : Instr) (s : State) (e : FEnv) : Prop where
  kernel : s.inPrologue = false
  env : s.foyerEnv = some e
  pre : order6 s e.l.fn i = none
  ready : e.waits i = false

/-- The prologue run of e executes i itself: a permitted form that names s0 to s15 (R374). -/
structure PIssues (i : Instr) (s : State) (e : PEnv) : Prop where
  prologue : s.inPrologue = true
  env : s.prologueEnv = some e
  allowed : permitted i = true
  low : ∀ r ∈ sregs i, r.val < 16

/-! ### What an instruction of the lanes leaves -/

/-- The team u is the team of e after the effect f on each lane that g enables, k being the lane's seat: the other seats, and
all else of the team but %asf, are as they were, and %asf has gained exactly the flags that an enabled lane that is no
helper raises (R20, R40). -/
def LaneEffect (e : TEnv) (g : Guard) (f : Nat → Seat → Seat) (fl : Seat → BitVec 7) (u : Team) : Prop :=
  u = { e.t with seats := u.seats, asf := u.asf } ∧ u.seats.length = e.t.seats.length
    ∧ (∀ k, u.seat k = if k ∈ e.enabled g then f k (e.t.seat k) else e.t.seat k)
    ∧ ∀ b, u.asf.getLsbD b = (e.t.asf.getLsbD b || (e.workers g).any fun k => (fl (e.t.seat k)).getLsbD b)

/-- Wherever the instruction i issues it answers the next state in which only its team has changed: its lanes by f, its
flags by fl, and the fragment stands at the fall-through (R56, R58). -/
def LaneResult (i : Instr) (g : Guard) (f : Nat → Seat → Seat) (fl : Seat → BitVec 7) : Prop :=
  ∀ s e, Issues i s e → ∃ u, exec i s = .next (s.putTeam e (e.goto u e.cur.fall)) ∧ LaneEffect e g f fl u

/-- The same for an instruction that raises no flag. -/
def LaneWrites (i : Instr) (g : Guard) (f : Seat → Seat) : Prop := LaneResult i g (fun _ => f) noFlag

/-- wrap, or clamp under .sat (R100). -/
def fit (t : IntTy) (sat : Bool) (x : Int) : Int := if sat then clampTo t x else wrapTo t x

/-- trunc_div with the results of R100 for a zero divisor. -/
def quotient (t : IntTy) (a b : Int) : Int := if b = 0 then (if a < 0 then tyLo t else tyHi t) else Int.tdiv a b

/-- The remainder of R100: it has the sign of a. -/
def remainder (a b : Int) : Int := if b = 0 then a else a - b * Int.tdiv a b

/-- The relation of a compare modifier (R106). -/
def Holds (c : Cmp) (a b : Int) : Prop :=
  match c with
  | .eq => a = b
  | .ne => a ≠ b
  | .lt => a < b
  | .le => a ≤ b
  | .gt => a > b
  | .ge => a ≥ b

/-- D gets a w-bit pattern with the fill of its type (R103). -/
def pattern (y : Seat) (d : VReg) (t : IntTy) (n : Nat) : Seat := y.put d t (wrapTo t n)

/-- Bit i of a pattern below 2^w. -/
def bitOf (w n i : Nat) : Bool := decide (i < w) && n.testBit i

end Sys2Proof.Claims

open Sys2Proof Sys2Proof.Machine Sys2Proof.Claims

/-! ### Integer instructions -/

/-- R100: the exact value of each operation, wrapped or clamped once, in each enabled lane; no flag. DIV of lo(T) by -1 gives
lo(T) and its REM 0; NEG of an unsigned type gives 2^w - a, and 0 with .sat. -/
def Obligations.IntegerArithmetic : Prop :=
  (∀ x, LaneWrites (.add x) x.g fun y => y.put x.d x.ty (fit x.ty x.sat (y.src x.a x.ty + y.src x.b x.ty)))
  ∧ (∀ x, LaneWrites (.sub x) x.g fun y => y.put x.d x.ty (fit x.ty x.sat (y.src x.a x.ty - y.src x.b x.ty)))
  ∧ (∀ x, LaneWrites (.mul x) x.g fun y => y.put x.d x.ty (fit x.ty x.sat (y.src x.a x.ty * y.src x.b x.ty)))
  ∧ (∀ x, LaneWrites (.mulhi x) x.g fun y =>
      y.put x.d x.ty (wrapTo x.ty ((y.src x.a x.ty * y.src x.b x.ty) / 2 ^ tyWidth x.ty)))
  ∧ (∀ x, LaneWrites (.mad x) x.g fun y =>
      y.put x.d x.ty (fit x.ty x.sat (y.src x.a x.ty * y.src x.b x.ty + y.src x.c x.ty)))
  ∧ (∀ x, LaneWrites (.min x) x.g fun y => y.put x.d x.ty (wrapTo x.ty (min (y.src x.a x.ty) (y.src x.b x.ty))))
  ∧ (∀ x, LaneWrites (.max x) x.g fun y => y.put x.d x.ty (wrapTo x.ty (max (y.src x.a x.ty) (y.src x.b x.ty))))
  ∧ (∀ x, LaneWrites (.div x) x.g fun y => y.put x.d x.ty (wrapTo x.ty (quotient x.ty (y.src x.a x.ty) (y.src x.b x.ty))))
  ∧ (∀ x, LaneWrites (.rem x) x.g fun y => y.put x.d x.ty (wrapTo x.ty (remainder (y.src x.a x.ty) (y.src x.b x.ty))))
  ∧ (∀ x, LaneWrites (.abs x) x.g fun y => y.put x.d x.ty (fit x.ty x.sat (max (y.src x.a x.ty) (-y.src x.a x.ty))))
  ∧ (∀ x, LaneWrites (.neg x) x.g fun y => y.put x.d x.ty (fit x.ty x.sat (-y.src x.a x.ty)))
  ∧ (∀ x, LaneWrites (.addImm x) x.g fun y => y.put x.d x.ty (wrapTo x.ty (y.src x.a x.ty + immOf x.ty x.imm)))
  ∧ (∀ x, LaneWrites (.subImm x) x.g fun y => y.put x.d x.ty (wrapTo x.ty (y.src x.a x.ty - immOf x.ty x.imm)))
  ∧ (∀ x, LaneWrites (.mulImm x) x.g fun y => y.put x.d x.ty (wrapTo x.ty (y.src x.a x.ty * immOf x.ty x.imm)))
  ∧ (∀ x, LaneWrites (.minImm x) x.g fun y => y.put x.d x.ty (wrapTo x.ty (min (y.src x.a x.ty) (immOf x.ty x.imm))))
  ∧ (∀ x, LaneWrites (.maxImm x) x.g fun y => y.put x.d x.ty (wrapTo x.ty (max (y.src x.a x.ty) (immOf x.ty x.imm))))
  ∧ (∀ x, LaneWrites (.addLit x) x.g fun y => y.put x.d x.ty (fit x.ty x.sat (y.src x.a x.ty + litOf x.ty x.lit)))
  ∧ (∀ x, LaneWrites (.subLit x) x.g fun y => y.put x.d x.ty (fit x.ty x.sat (y.src x.a x.ty - litOf x.ty x.lit)))
  ∧ (∀ x, LaneWrites (.mulLit x) x.g fun y => y.put x.d x.ty (fit x.ty x.sat (y.src x.a x.ty * litOf x.ty x.lit)))
  ∧ (∀ x, LaneWrites (.mulhiLit x) x.g fun y =>
      y.put x.d x.ty (wrapTo x.ty ((y.src x.a x.ty * litOf x.ty x.lit) / 2 ^ tyWidth x.ty)))
  ∧ (∀ x, LaneWrites (.minLit x) x.g fun y => y.put x.d x.ty (wrapTo x.ty (min (y.src x.a x.ty) (litOf x.ty x.lit))))
  ∧ (∀ x, LaneWrites (.maxLit x) x.g fun y => y.put x.d x.ty (wrapTo x.ty (max (y.src x.a x.ty) (litOf x.ty x.lit))))
  ∧ (∀ x, LaneWrites (.divLit x) x.g fun y => y.put x.d x.ty (wrapTo x.ty (quotient x.ty (y.src x.a x.ty) (litOf x.ty x.lit))))
  ∧ (∀ x, LaneWrites (.remLit x) x.g fun y => y.put x.d x.ty (wrapTo x.ty (remainder (y.src x.a x.ty) (litOf x.ty x.lit))))
  ∧ (∀ t : IntTy, t.signed = true → wrapTo t (quotient t (tyLo t) (-1)) = tyLo t ∧ wrapTo t (remainder (tyLo t) (-1)) = 0)
  ∧ ∀ (t : IntTy) (a : Int), t.signed = false → 0 < a → a ≤ tyHi t →
      fit t false (-a) = 2 ^ tyWidth t - a ∧ fit t true (-a) = 0

/-- R93, R94, R27: wrap gives the value in the range of the type congruent to x, clamp the nearest value of the range, and
put of a value of the range is read back by src, fills the register by the type, and writes no other register. -/
def Obligations.IntegerOperands : Prop :=
  (∀ (t : IntTy) (x : Int), tyLo t ≤ wrapTo t x ∧ wrapTo t x ≤ tyHi t ∧ (2 ^ tyWidth t : Int) ∣ x - wrapTo t x)
  ∧ (∀ (t : IntTy) (x : Int), tyLo t ≤ clampTo t x ∧ clampTo t x ≤ tyHi t
      ∧ ∀ z, tyLo t ≤ z → z ≤ tyHi t → (x - clampTo t x).natAbs ≤ (x - z).natAbs)
  ∧ (∀ (y : Seat) (r : VReg) (t : IntTy) (x : Int), tyLo t ≤ x → x ≤ tyHi t → r.val + (if t.wide then 1 else 0) < y.vregs.length →
      (y.put r t x).src r t = x
      ∧ (t.wide = false → ((y.put r t x).rd r.val).toInt = (if t.signed then x else (BitVec.ofInt 32 x).toInt)
          ∧ (t.signed = false → ((y.put r t x).rd r.val).toNat = x.toNat)))
  ∧ ∀ (y : Seat) (r : VReg) (t : IntTy) (x : Int) (k : Nat), k ≠ r.val → (t.wide = true → k ≠ r.val + 1) →
      (y.put r t x).rd k = y.rd k ∧ (y.put r t x).preds = y.preds ∧ (y.put r t x).lane = y.lane ∧ (y.put r t x).st = y.st

/-- R102, R103: the logic and shift instructions act on the w-bit patterns of their operands and write the result with the
fill of the type; register counts are read whole, and a count of w or more leaves 0, copies of the sign, or for ROT the
count modulo w. -/
def Sys2Proof.Claims.LogicAndShifts : Prop :=
  let andn (t : IntTy) (a b : Nat) : Nat := a - (a &&& b % 2 ^ tyWidth t)
  let shl (t : IntTy) (a c : Nat) : Nat := if c < tyWidth t then a <<< c % 2 ^ tyWidth t else 0
  let shr (t : IntTy) (a c : Nat) : Nat := if c < tyWidth t then a >>> c else 0
  let sar (t : IntTy) (a c : Nat) : Int :=
    let v : Int := if a < 2 ^ (tyWidth t - 1) then a else a - 2 ^ tyWidth t
    if c < tyWidth t then v / 2 ^ c else if v < 0 then -1 else 0
  let rot (t : IntTy) (a c : Nat) : Nat :=
    (a <<< (c % tyWidth t) ||| a >>> (tyWidth t - c % tyWidth t)) % 2 ^ tyWidth t
  let imm (t : IntTy) (i : BitVec 29) : Nat := (i.signExtend 64).toNat % 2 ^ tyWidth t
  let lit (t : IntTy) (l : DWord) : Nat := l.toNat % 2 ^ tyWidth t
  let icnt (i : BitVec 29) : Nat := (i.signExtend 32).toNat
  let lcnt (l : DWord) : Nat := (l.truncate 32).toNat
  (∀ x, LaneWrites (.and x) x.g fun y => pattern y x.d x.ty (y.pat x.a x.ty &&& y.pat x.b x.ty))
  ∧ (∀ x, LaneWrites (.or x) x.g fun y => pattern y x.d x.ty (y.pat x.a x.ty ||| y.pat x.b x.ty))
  ∧ (∀ x, LaneWrites (.xor x) x.g fun y => pattern y x.d x.ty (y.pat x.a x.ty ^^^ y.pat x.b x.ty))
  ∧ (∀ x, LaneWrites (.andn x) x.g fun y => pattern y x.d x.ty (andn x.ty (y.pat x.a x.ty) (y.pat x.b x.ty)))
  ∧ (∀ x, LaneWrites (.not x) x.g fun y => pattern y x.d x.ty (2 ^ tyWidth x.ty - 1 - y.pat x.a x.ty))
  ∧ (∀ x, LaneWrites (.shl x) x.g fun y => pattern y x.d x.ty (shl x.ty (y.pat x.a x.ty) (y.rd x.b.val).toNat))
  ∧ (∀ x, LaneWrites (.shr x) x.g fun y => pattern y x.d x.ty (shr x.ty (y.pat x.a x.ty) (y.rd x.b.val).toNat))
  ∧ (∀ x, LaneWrites (.sar x) x.g fun y => y.put x.d x.ty (wrapTo x.ty (sar x.ty (y.pat x.a x.ty) (y.rd x.b.val).toNat)))
  ∧ (∀ x, LaneWrites (.rot x) x.g fun y => pattern y x.d x.ty (rot x.ty (y.pat x.a x.ty) (y.rd x.b.val).toNat))
  ∧ (∀ x, LaneWrites (.andImm x) x.g fun y => pattern y x.d x.ty (y.pat x.a x.ty &&& imm x.ty x.imm))
  ∧ (∀ x, LaneWrites (.orImm x) x.g fun y => pattern y x.d x.ty (y.pat x.a x.ty ||| imm x.ty x.imm))
  ∧ (∀ x, LaneWrites (.xorImm x) x.g fun y => pattern y x.d x.ty (y.pat x.a x.ty ^^^ imm x.ty x.imm))
  ∧ (∀ x, LaneWrites (.andnImm x) x.g fun y => pattern y x.d x.ty (andn x.ty (y.pat x.a x.ty) (imm x.ty x.imm)))
  ∧ (∀ x, LaneWrites (.shlImm x) x.g fun y => pattern y x.d x.ty (shl x.ty (y.pat x.a x.ty) (icnt x.imm)))
  ∧ (∀ x, LaneWrites (.shrImm x) x.g fun y => pattern y x.d x.ty (shr x.ty (y.pat x.a x.ty) (icnt x.imm)))
  ∧ (∀ x, LaneWrites (.sarImm x) x.g fun y => y.put x.d x.ty (wrapTo x.ty (sar x.ty (y.pat x.a x.ty) (icnt x.imm))))
  ∧ (∀ x, LaneWrites (.rotImm x) x.g fun y => pattern y x.d x.ty (rot x.ty (y.pat x.a x.ty) (icnt x.imm)))
  ∧ (∀ x, LaneWrites (.andLit x) x.g fun y => pattern y x.d x.ty (y.pat x.a x.ty &&& lit x.ty x.lit))
  ∧ (∀ x, LaneWrites (.orLit x) x.g fun y => pattern y x.d x.ty (y.pat x.a x.ty ||| lit x.ty x.lit))
  ∧ (∀ x, LaneWrites (.xorLit x) x.g fun y => pattern y x.d x.ty (y.pat x.a x.ty ^^^ lit x.ty x.lit))
  ∧ (∀ x, LaneWrites (.andnLit x) x.g fun y => pattern y x.d x.ty (andn x.ty (y.pat x.a x.ty) (lit x.ty x.lit)))
  ∧ (∀ x, LaneWrites (.shlLit x) x.g fun y => pattern y x.d x.ty (shl x.ty (y.pat x.a x.ty) (lcnt x.lit)))
  ∧ (∀ x, LaneWrites (.shrLit x) x.g fun y => pattern y x.d x.ty (shr x.ty (y.pat x.a x.ty) (lcnt x.lit)))
  ∧ (∀ x, LaneWrites (.sarLit x) x.g fun y => y.put x.d x.ty (wrapTo x.ty (sar x.ty (y.pat x.a x.ty) (lcnt x.lit))))
  ∧ (∀ x, LaneWrites (.rotLit x) x.g fun y => pattern y x.d x.ty (rot x.ty (y.pat x.a x.ty) (lcnt x.lit)))
  ∧ shl .n32 1 32 = 0 ∧ rot .n32 0x80000001 33 = 3 ∧ wrapTo .n32 (sar .i32 (2 ^ 32 - 7) 1) = 0xFFFFFFFC
  ∧ shr .n32 0xFFFFFFF9 1 = 0x7FFFFFFC

/-- R104, R105: the results of the bit-field and count instructions, bit by bit. -/
def Sys2Proof.Claims.BitFields : Prop :=
  let pos (y : Seat) (b : VReg) : Nat := (y.rd b.val).toNat % 256
  let len (y : Seat) (t : IntTy) (c : VReg) : Nat := min ((y.rd c.val).toNat % 256) (tyWidth t)
  (∀ x, LaneWrites (.popc x) x.g fun y =>
      y.wr x.d.val (BitVec.ofNat 32 ((List.range (tyWidth x.ty)).countP fun i => (y.pat x.a x.ty).testBit i)))
  ∧ (∀ x, ∃ n : Nat → Nat, LaneWrites (.clz x) x.g (fun y => y.wr x.d.val (BitVec.ofNat 32 (n (y.pat x.a x.ty))))
      ∧ ∀ a, a < 2 ^ tyWidth x.ty → n a ≤ tyWidth x.ty ∧ a < 2 ^ (tyWidth x.ty - n a)
          ∧ (a ≠ 0 → 2 ^ (tyWidth x.ty - n a - 1) ≤ a) ∧ (a = 0 → n a = tyWidth x.ty))
  ∧ (∀ x, ∃ n : Nat → Nat, LaneWrites (.brev x) x.g (fun y => pattern y x.d x.ty (n (y.pat x.a x.ty)))
      ∧ ∀ a i, i < tyWidth x.ty → (n a).testBit (tyWidth x.ty - 1 - i) = a.testBit i)
  ∧ (∀ x, LaneWrites (.bfe x) x.g fun y =>
      let n := len y x.ty x.c
      let fld := y.pat x.a x.ty >>> pos y x.b % 2 ^ n
      y.put x.d x.ty (wrapTo x.ty (if n = 0 then 0
        else if x.ty.signed = true ∧ fld.testBit (n - 1) = true then (fld : Int) - 2 ^ n else fld)))
  ∧ (∀ x, ∃ n : Seat → Nat, LaneWrites (.bfi x) x.g (fun y => pattern y x.d x.ty (n y))
      ∧ ∀ y i, i < tyWidth x.ty → (n y).testBit i =
          (if pos y x.b ≤ i ∧ i < pos y x.b + len y x.ty x.c then (y.pat x.a x.ty).testBit (i - pos y x.b)
           else (y.pat x.d x.ty).testBit i))

/-- R102 to R105: the logic and shift instructions, with LogicAndShifts, and the bit-field and count instructions, with BitFields. -/
def Obligations.LogicShiftsAndFields : Prop := LogicAndShifts ∧ BitFields

/-- R107, R108, R20: SETP of every form sets its predicate to the relation; PAND, POR, PXOR and PNOT work on predicates negated as
NA and NB say; p0 reads 1 and keeps no write, and other predicates and the vector registers keep their values. -/
def Obligations.Predicates : Prop :=
  let sets (i : Instr) (g : Guard) (pd : PReg) (v : Seat → Prop) : Prop :=
    ∃ f : Seat → Seat, LaneWrites i g f ∧ ∀ y, (f y).vregs = y.vregs ∧ (f y).lane = y.lane ∧ (f y).st = y.st
      ∧ (f y).helper = y.helper
      ∧ ∀ p : PReg, (f y).pred p = true ↔ (if p = 0 then True else if p = pd then v y else y.pred p = true)
  (∀ x, sets (.setp x) x.g x.pd fun y => Holds x.cmp (y.src x.a x.ty) (y.src x.b x.ty))
  ∧ (∀ x, sets (.setpImm x) x.g x.pd fun y => Holds x.cmp (y.src x.a x.ty) (immOf x.ty x.imm))
  ∧ (∀ x, sets (.setpLit x) x.g x.pd fun y => Holds x.cmp (y.src x.a x.ty) (litOf x.ty x.lit))
  ∧ Holds .lt (asType .i32 0xFFFFFFFF) 0 ∧ ¬ Holds .lt (asType .n32 0xFFFFFFFF) 0
  ∧ (∀ x, sets (.pand x) x.g x.pd fun y => (y.pred x.pa ^^ x.na) = true ∧ (y.pred x.pb ^^ x.nb) = true)
  ∧ (∀ x, sets (.por x) x.g x.pd fun y => (y.pred x.pa ^^ x.na) = true ∨ (y.pred x.pb ^^ x.nb) = true)
  ∧ (∀ x, sets (.pxor x) x.g x.pd fun y => (y.pred x.pa ^^ x.na) ≠ (y.pred x.pb ^^ x.nb))
  ∧ (∀ x, sets (.pnot x) x.g x.pd fun y => (y.pred x.pa ^^ x.na) = false)

/-- R109 to R111: selects and moves copy 32, 64 or 128 bits without conversion, MOVI and MOVL write a constant, and LEA the
sum of a pair and a shifted index modulo 2^64. -/
def Obligations.MovesAndAddresses : Prop :=
  let copy (w : CopyW) (d a : VReg) (y : Seat) : Seat := match w with
    | .w32 => y.wr d.val (y.rd a.val)
    | .w64 => (y.wr d.val (y.rd a.val)).wr (d.val + 1) (y.rd (a.val + 1))
    | .w128 => (((y.wr d.val (y.rd a.val)).wr (d.val + 1) (y.rd (a.val + 1))).wr (d.val + 2) (y.rd (a.val + 2))).wr
        (d.val + 3) (y.rd (a.val + 3))
  (∀ x, LaneWrites (.sel x) x.g fun y => if y.pred x.pc = true then copy x.wd x.d x.a y else copy x.wd x.d x.b y)
  ∧ (∀ x, LaneWrites (.mov x) x.g (copy x.wd x.d x.a))
  ∧ (∀ x, LaneWrites (.movi x) x.g fun y =>
      if x.w64 then y.wr2 x.d.val (x.imm.signExtend 64) else y.wr x.d.val (x.imm.signExtend 32))
  ∧ (∀ x, LaneWrites (.movl x) x.g fun y => if x.w64 then y.wr2 x.d.val x.lit else y.wr x.d.val (x.lit.truncate 32))
  ∧ ∀ x, LaneWrites (.lea x) x.g fun y =>
      y.wr2 x.d.val (y.rd2 x.a.val
        + BitVec.ofInt 64 ((if x.sx then (y.rd x.b.val).toInt else ((y.rd x.b.val).toNat : Int)) * 2 ^ x.sh.val))

namespace Sys2Proof.Claims
open Sys2Proof.Machine

/-- The number that a value stands for, where it is no NaN and no infinity (R31). -/
def number : FVal → Option Rat
  | .fin s m e => some ((if s then -1 else 1) * (m : Rat) * 2 ^ e)
  | _ => none

/-- The hard formats (R30). -/
def hardFormats : List FFmt := [fmtF16, fmtBf16, fmtF32, fmtF64]

/-- r is what R34 makes of the nonzero number x in the format f: the candidate that the modifier picks, or the infinity of
the sign of x. -/
def Rounded (f : FFmt) (rm : Rnd) (x : Rat) (r : Nat) : Prop :=
  let isFin (c : Nat) (w : Rat) : Prop := c < 2 ^ f.width ∧ number (f.unpack c) = some w
  let limit : Rat := 2 ^ ((2 ^ f.e : Int) - 2 - f.bias) * (2 - 2 ^ (-(f.p : Int) - 1))
  match rm with
  | .rn => (limit ≤ x.abs ∧ f.unpack r = .inf (decide (x < 0)))
      ∨ (x.abs < limit ∧ ∃ v, isFin r v ∧ ∀ c w, isFin c w → (x - v).abs ≤ (x - w).abs
          ∧ ((x - v).abs = (x - w).abs → w ≠ v → r % 2 = 0))
  | .rz => ∃ v, isFin r v ∧ v.abs ≤ x.abs ∧ ∀ c w, isFin c w → w.abs ≤ x.abs → w.abs ≤ v.abs
  | .rd => (f.unpack r = .inf true ∧ ∀ c w, isFin c w → x < w) ∨ ∃ v, isFin r v ∧ v ≤ x ∧ ∀ c w, isFin c w → w ≤ x → w ≤ v
  | .ru => (f.unpack r = .inf false ∧ ∀ c w, isFin c w → w < x) ∨ ∃ v, isFin r v ∧ x ≤ v ∧ ∀ c w, isFin c w → x ≤ w → v ≤ w

/-- A real number: whether it is negative, the rationals that are not above it, and those that are not below it. -/
structure Exact where
  neg : Bool
  le : Rat → Prop
  ge : Rat → Prop

/-- A rational number. -/
def Exact.rat (x : Rat) : Exact := ⟨decide (x < 0), fun w => w ≤ x, fun w => x ≤ w⟩
/-- The square root of a positive number. -/
def Exact.root (u : Rat) : Exact := ⟨false, fun w => w < 0 ∨ w * w ≤ u, fun w => 0 ≤ w ∧ u ≤ w * w⟩
/-- One over the square root of a positive number. -/
def Exact.rootInv (u : Rat) : Exact := ⟨false, fun w => w < 0 ∨ w * w * u ≤ 1, fun w => 0 ≤ w ∧ 1 ≤ w * w * u⟩
/-- The number is the rational w. -/
def Exact.is (x : Exact) (w : Rat) : Prop := x.le w ∧ x.ge w
/-- w is not beyond the number, seen from zero. -/
def Exact.within (x : Exact) (w : Rat) : Prop := if x.neg = true then w ≤ 0 ∧ x.ge w else 0 ≤ w ∧ x.le w

/-- y is the candidate that a rounding modifier picks for x; a tie goes to a candidate that is even (R34). -/
def Picks (cand even : Rat → Prop) (rm : Rnd) (x : Exact) (y : Rat) : Prop :=
  cand y ∧ match rm with
    | .rn => ∀ w, cand w → (w < y → x.le ((y + w) / 2)) ∧ (y < w → x.ge ((y + w) / 2))
        ∧ (w ≠ y → x.is ((y + w) / 2) → even y)
    | .rz => x.within y ∧ ∀ w, cand w → x.within w → w.abs ≤ y.abs
    | .rd => x.le y ∧ ∀ w, cand w → x.le w → w ≤ y
    | .ru => x.ge y ∧ ∀ w, cand w → x.ge w → y ≤ w

/-- y is x rounded with unbounded exponent range to p fraction bits (R35, R37). -/
def PicksUnbounded (p : Nat) : Rnd → Exact → Rat → Prop :=
  Picks (fun w => ∃ (n : Nat) (q : Int), n ≤ 2 ^ (p + 1) ∧ w.abs = (n : Rat) * 2 ^ q)
    fun w => ∃ (n : Nat) (q : Int), 2 ^ p ≤ n ∧ n < 2 ^ (p + 1) ∧ n % 2 = 0 ∧ w.abs = (n : Rat) * 2 ^ q

/-- y is the finite value of a format that x rounds to (R34). -/
def PicksFinite (f : FFmt) : Rnd → Exact → Rat → Prop :=
  Picks (fun w => ∃ c, c < 2 ^ f.width ∧ number (f.unpack c) = some w)
    fun w => ∃ c, c < 2 ^ f.width ∧ number (f.unpack c) = some w ∧ c % 2 = 0

/-- r is the pattern of a finite value v with the sign of x, and its flags are none where v is x, fl else. -/
def Finite (f : FFmt) (x : Exact) (v : Rat) (fl : BitVec 7) (r : FRes) : Prop :=
  r.1 < 2 ^ f.width ∧ r.1.testBit (f.e + f.p) = x.neg ∧ number (f.unpack r.1) = some v
    ∧ ((x.is v ∧ r.2 = 0) ∨ (¬x.is v ∧ r.2 = fl))

/-- r is what the nonzero number x becomes, rounded once to the format f, with its flags: above the largest finite value the
table of R35 with OF and NX; below the smallest normal the subnormal or zero that x rounds to, with UF and NX where it is not x,
or under .ftz a zero with both; else the rounded value, with NX where it is not x (R34, R35, R37). -/
def RoundsTo (f : FFmt) (rm : Rnd) (ftz : Bool) (x : Exact) (r : FRes) : Prop :=
  let largest : Rat := 2 ^ ((2 ^ f.e : Int) - 2 - f.bias) * (2 - 2 ^ (-(f.p : Int)))
  let normal : Rat := 2 ^ (1 - (f.bias : Int))
  ∃ y, PicksUnbounded f.p rm x y
    ∧ (largest < y.abs → r.2 = 0x14#7 ∧ r.1 = (match rm with
        | .rn => f.infinity x.neg
        | .rz => f.largest x.neg
        | .rd => if x.neg then f.infinity true else f.largest false
        | .ru => if x.neg then f.largest true else f.infinity false))
    ∧ (normal ≤ y.abs → y.abs ≤ largest → Finite f x y 0x10#7 r)
    ∧ (y.abs < normal → ftz = true → r = (f.zero x.neg, 0x18#7))
    ∧ (y.abs < normal → ftz = false → ∃ v, PicksFinite f rm x v ∧ Finite f x v 0x18#7 r)

/-- The number that an operand is read as: with .ftz a subnormal is read as zero (R37). -/
def operand (f : FFmt) (ftz : Bool) (a : Nat) : Option Rat :=
  match f.unpack a with
  | .fin s m e => if ftz = true ∧ m < 2 ^ f.p then some 0 else number (.fin s m e)
  | _ => none

/-- A source of a 32- or 16-bit format: the low bits of a register (R30). -/
def low (ft : FTy) (y : Seat) (r : VReg) : Nat := (y.rd r.val).toNat % 2 ^ (fmtOf ft).width

/-- A literal in place of B (R112). -/
def lowLit (ft : FTy) (l : DWord) : Nat := l.toNat % 2 ^ (fmtOf ft).width

/-- The instruction writes the pattern of r to register D of each enabled lane, upper bits 0, and raises its flags. -/
def FloatResult (i : Instr) (g : Guard) (d : VReg) (r : Seat → FRes) : Prop :=
  LaneResult i g (fun _ y => y.wr d.val (BitVec.ofNat 32 (r y).1)) fun y => (r y).2

/-- The same for a pair. -/
def DoubleResult (i : Instr) (g : Guard) (d : VReg) (r : Seat → FRes) : Prop :=
  LaneResult i g (fun _ y => y.wr2 d.val (BitVec.ofNat 64 (r y).1)) fun y => (r y).2

/-- A value decoded from a pattern is greater than another: infinities beyond every number, -0 below +0 (R115). -/
def Greater (a b : FVal) : Prop :=
  match a, b with
  | .nan _, _ => False
  | _, .nan _ => False
  | .inf s, .inf t => s = false ∧ t = true
  | .inf s, .fin _ _ _ => s = false
  | .fin _ _ _, .inf t => t = true
  | .fin s m e, .fin t n d =>
    (∃ u v, number (.fin s m e) = some u ∧ number (.fin t n d) = some v ∧ v < u) ∨ (m = 0 ∧ n = 0 ∧ s = false ∧ t = true)

/-- The lesser (or with hi the greater) of two operands by R115: its pattern, and IV. -/
def IsPick (f : FFmt) (hi : Bool) (a b : Nat) (r : FRes) : Prop :=
  let va := f.unpack a
  let vb := f.unpack b
  (r.2 = if va.isSig || vb.isSig then 1#7 else 0#7)
    ∧ (va.isNan = true → vb.isNan = true → r.1 = f.cnan)
    ∧ (va.isNan = true → vb.isNan = false → r.1 = b) ∧ (va.isNan = false → vb.isNan = true → r.1 = a)
    ∧ (va.isNan = false → vb.isNan = false → (r.1 = a ∨ r.1 = b)
        ∧ (Greater va vb → r.1 = if hi then a else b) ∧ (Greater vb va → r.1 = if hi then b else a))

/-- The relation of an FSETP modifier on two patterns (R117). -/
def FHolds (f : FFmt) (c : FCmp) (a b : Nat) : Prop :=
  let va := f.unpack a
  let vb := f.unpack b
  let un : Prop := va.isNan = true ∨ vb.isNan = true
  let lt (x y : FVal) : Prop := Greater y x ∧ ¬(number x = some 0 ∧ number y = some 0)
  let eq : Prop := ¬un ∧ ¬lt va vb ∧ ¬lt vb va
  match c with
  | .eq => eq
  | .ne => ¬un ∧ ¬eq
  | .lt => lt va vb
  | .le => lt va vb ∨ eq
  | .gt => lt vb va
  | .ge => lt vb va ∨ eq
  | .equ => un ∨ eq
  | .neu => un ∨ ¬eq
  | .ltu => un ∨ lt va vb
  | .leu => un ∨ lt va vb ∨ eq
  | .gtu => un ∨ lt vb va
  | .geu => un ∨ lt vb va ∨ eq
  | .num => ¬un
  | .nan => un

/-- The instruction sets predicate pd of each enabled lane by an FSETP relation on two patterns, with IV as R117 says, and
writes nothing else. -/
def ComparesFloats (i : Instr) (g : Guard) (pd : PReg) (f : FFmt) (c : FCmp) (a b : Seat → Nat) : Prop :=
  ∃ (h : Seat → Seat) (fl : Seat → BitVec 7), LaneResult i g (fun _ => h) fl
    ∧ ∀ y, (h y).vregs = y.vregs
      ∧ (∀ p : PReg, (h y).pred p = true ↔ (if p = pd ∧ p ≠ 0 then FHolds f c (a y) (b y) else y.pred p = true))
      ∧ (fl y = if (f.unpack (a y)).isSig || (f.unpack (b y)).isSig
          || ((f.unpack (a y)).isNan || (f.unpack (b y)).isNan) && (c == .lt || c == .le || c == .gt || c == .ge)
        then 1#7 else 0#7)

end Sys2Proof.Claims

/-! ### Floating-point instructions -/

/-- R112 to R114: each arithmetic instruction of the 32- and 16-bit formats writes the result of its operation in FT, upper bits
0, and raises the flags of that result; what the results are, FloatRoundsOnce and FloatExact say. -/
def Obligations.FloatArithmetic : Prop :=
  (∀ x, FloatResult (.fadd x) x.g x.d fun y => (fmtOf x.ft).add x.rm x.ftz (low x.ft y x.a) (low x.ft y x.b))
  ∧ (∀ x, FloatResult (.fsub x) x.g x.d fun y => (fmtOf x.ft).sub x.rm x.ftz (low x.ft y x.a) (low x.ft y x.b))
  ∧ (∀ x, FloatResult (.fmul x) x.g x.d fun y => (fmtOf x.ft).mul x.rm x.ftz (low x.ft y x.a) (low x.ft y x.b))
  ∧ (∀ x, FloatResult (.ffma x) x.g x.d fun y =>
      (fmtOf x.ft).fma x.rm x.ftz (low x.ft y x.a) (low x.ft y x.b) (low x.ft y x.c))
  ∧ (∀ x, FloatResult (.fdiv x) x.g x.d fun y => (fmtOf x.ft).div x.rm x.ftz (low x.ft y x.a) (low x.ft y x.b))
  ∧ (∀ x, FloatResult (.fsqrt x) x.g x.d fun y => (fmtOf x.ft).sqrt x.rm x.ftz (low x.ft y x.a))
  ∧ (∀ x, FloatResult (.frcp x) x.g x.d fun y => (fmtOf x.ft).rcp x.rm x.ftz (low x.ft y x.a))
  ∧ (∀ x, FloatResult (.frsq x) x.g x.d fun y => (fmtOf x.ft).rsq x.rm x.ftz (low x.ft y x.a))
  ∧ (∀ x, FloatResult (.fexp2 x) x.g x.d fun y => (fmtOf x.ft).exp2 x.rm x.ftz (low x.ft y x.a))
  ∧ (∀ x, FloatResult (.flog2 x) x.g x.d fun y => (fmtOf x.ft).log2 x.rm x.ftz (low x.ft y x.a))
  ∧ (∀ x, FloatResult (.faddLit x) x.g x.d fun y => (fmtOf x.ft).add x.rm x.ftz (low x.ft y x.a) (lowLit x.ft x.lit))
  ∧ (∀ x, FloatResult (.fsubLit x) x.g x.d fun y => (fmtOf x.ft).sub x.rm x.ftz (low x.ft y x.a) (lowLit x.ft x.lit))
  ∧ (∀ x, FloatResult (.fmulLit x) x.g x.d fun y => (fmtOf x.ft).mul x.rm x.ftz (low x.ft y x.a) (lowLit x.ft x.lit))
  ∧ (∀ x, FloatResult (.fdivLit x) x.g x.d fun y => (fmtOf x.ft).div x.rm x.ftz (low x.ft y x.a) (lowLit x.ft x.lit))
  ∧ (∀ x, DoubleResult (.faddF64 x) x.g x.d fun y => fmtF64.add x.rm x.ftz (y.rd2 x.a.val).toNat (y.rd2 x.b.val).toNat)
  ∧ (∀ x, DoubleResult (.fsubF64 x) x.g x.d fun y => fmtF64.sub x.rm x.ftz (y.rd2 x.a.val).toNat (y.rd2 x.b.val).toNat)
  ∧ (∀ x, DoubleResult (.fmulF64 x) x.g x.d fun y => fmtF64.mul x.rm x.ftz (y.rd2 x.a.val).toNat (y.rd2 x.b.val).toNat)
  ∧ (∀ x, DoubleResult (.ffmaF64 x) x.g x.d fun y =>
      fmtF64.fma x.rm x.ftz (y.rd2 x.a.val).toNat (y.rd2 x.b.val).toNat (y.rd2 x.c.val).toNat)
  ∧ (∀ x, DoubleResult (.fdivF64 x) x.g x.d fun y => fmtF64.div x.rm x.ftz (y.rd2 x.a.val).toNat (y.rd2 x.b.val).toNat)
  ∧ (∀ x, DoubleResult (.fsqrtF64 x) x.g x.d fun y => fmtF64.sqrt x.rm x.ftz (y.rd2 x.a.val).toNat)
  ∧ (∀ x, DoubleResult (.faddF64Lit x) x.g x.d fun y => fmtF64.add x.rm x.ftz (y.rd2 x.a.val).toNat x.lit.toNat)
  ∧ (∀ x, DoubleResult (.fsubF64Lit x) x.g x.d fun y => fmtF64.sub x.rm x.ftz (y.rd2 x.a.val).toNat x.lit.toNat)
  ∧ (∀ x, DoubleResult (.fmulF64Lit x) x.g x.d fun y => fmtF64.mul x.rm x.ftz (y.rd2 x.a.val).toNat x.lit.toNat)
  ∧ ∀ x, DoubleResult (.fdivF64Lit x) x.g x.d fun y => fmtF64.div x.rm x.ftz (y.rd2 x.a.val).toNat x.lit.toNat

/-- R34, R35, R37: rounding a nonzero number once gives the candidate that the modifier picks, with the number's sign, and the
flags OF, UF and NX as the number overflows, is tiny or is not the result; .ftz writes a tiny result as zero; neither IV nor DZ
is raised. -/
def Obligations.FloatRoundsOnce : Prop :=
  ∀ f ∈ hardFormats, ∀ (rm : Rnd) (s : Bool) (m : Nat) (e : Int) (x : Rat), m ≠ 0 → number (.fin s m e) = some x →
    let r := f.round rm false s m e false
    r.1 < 2 ^ f.width ∧ r.1.testBit (f.e + f.p) = s ∧ Rounded f rm x r.1
      ∧ (r.2.getLsbD 4 = true ↔ number (f.unpack r.1) ≠ some x) ∧ r.2.getLsbD 0 = false ∧ r.2.getLsbD 1 = false
      ∧ ∀ ftz, RoundsTo f rm ftz (.rat x) (f.round rm ftz s m e false)

namespace Sys2Proof.Claims
open Sys2Proof.Machine

/-- On numbers, each operation rounds its exact result once, with the flags of that rounding; an exact zero has the sign of R36
and raises none; and x / 0, 0 / 0 and the root of a negative number have the results of R39. -/
def ExactOnNumbers (f : FFmt) (rm : Rnd) (ftz : Bool) (a b c : Nat) : Prop :=
  let sa := (f.unpack a).sign
  let sb := (f.unpack b).sign
  let sc := (f.unpack c).sign
  let down := rm == .rd
  ∀ u v, operand f ftz a = some u → operand f ftz b = some v →
    (u + v ≠ 0 → RoundsTo f rm ftz (.rat (u + v)) (f.add rm ftz a b))
    ∧ (u - v ≠ 0 → RoundsTo f rm ftz (.rat (u - v)) (f.sub rm ftz a b))
    ∧ (u * v ≠ 0 → RoundsTo f rm ftz (.rat (u * v)) (f.mul rm ftz a b))
    ∧ (u * v = 0 → f.mul rm ftz a b = (f.zero (sa != sb), 0))
    ∧ (u + v = 0 → f.add rm ftz a b = (f.zero (if u = 0 ∧ sa = sb then sa else down), 0))
    ∧ (u - v = 0 → f.sub rm ftz a b = (f.zero (if u = 0 ∧ sa ≠ sb then sa else down), 0))
    ∧ (u ≠ 0 → v ≠ 0 → RoundsTo f rm ftz (.rat (u / v)) (f.div rm ftz a b))
    ∧ (u ≠ 0 → v = 0 → f.div rm ftz a b = (f.infinity (sa != sb), 2))
    ∧ (u = 0 → v ≠ 0 → f.div rm ftz a b = (f.zero (sa != sb), 0))
    ∧ (u = 0 → v = 0 → f.div rm ftz a b = (f.cnan, 1))
    ∧ (∀ w, operand f ftz c = some w →
        (u * v + w ≠ 0 → RoundsTo f rm ftz (.rat (u * v + w)) (f.fma rm ftz a b c))
        ∧ (u * v + w = 0 → f.fma rm ftz a b c = (f.zero (if w = 0 ∧ (sa != sb) = sc then sc else down), 0)))
    ∧ (u < 0 → f.sqrt rm ftz a = (f.cnan, 1))
    ∧ (u = 0 → f.sqrt rm ftz a = (f.zero sa, 0))
    ∧ (0 < u → RoundsTo f rm ftz (.root u) (f.sqrt rm ftz a))
    ∧ (u ≠ 0 → RoundsTo f rm ftz (.rat (1 / u)) (f.rcp rm ftz a))
    ∧ (0 < u → RoundsTo f rm ftz (.rootInv u) (f.rsq rm ftz a))

/-- A NaN among the operands gives the canonical NaN, with IV where one signals or FFMA multiplies 0 by an infinity (R33, R113). -/
def ExactOnNaNs (f : FFmt) (rm : Rnd) (ftz : Bool) (a b c : Nat) : Prop :=
  let na := (f.unpack a).isNan
  let nb := (f.unpack b).isNan
  let ga := (f.unpack a).isSig
  let gb := (f.unpack b).isSig
  let undefinedProduct : Prop :=
    ∃ s, (f.unpack a = .inf s ∧ operand f ftz b = some 0) ∨ (operand f ftz a = some 0 ∧ f.unpack b = .inf s)
  ((na || nb) = true →
    let r : FRes := (f.cnan, if ga || gb then 1 else 0)
    f.add rm ftz a b = r ∧ f.sub rm ftz a b = r ∧ f.mul rm ftz a b = r ∧ f.div rm ftz a b = r)
  ∧ (na = true →
    let r : FRes := (f.cnan, if ga then 1 else 0)
    f.sqrt rm ftz a = r ∧ f.rcp rm ftz a = r ∧ f.rsq rm ftz a = r ∧ f.exp2 rm ftz a = r ∧ f.log2 rm ftz a = r)
  ∧ ((na || nb || (f.unpack c).isNan) = true → (f.fma rm ftz a b c).1 = f.cnan
    ∧ ((f.fma rm ftz a b c).2 = 1 ∨ (f.fma rm ftz a b c).2 = 0)
    ∧ ((f.fma rm ftz a b c).2 = 1 ↔ (ga || gb || (f.unpack c).isSig) = true ∨ undefinedProduct))
  ∧ (undefinedProduct → f.mul rm ftz a b = (f.cnan, 1) ∧ f.fma rm ftz a b c = (f.cnan, 1))

/-- Infinities: a defined result is exact and raises nothing, one with no defined result is the canonical NaN with IV (R39, R113). -/
def ExactOnInfinities (f : FFmt) (rm : Rnd) (ftz : Bool) (a b : Nat) : Prop :=
  (∀ s t, f.unpack a = .inf s → f.unpack b = .inf t →
    f.add rm ftz a b = (if s = t then (f.infinity s, 0) else (f.cnan, 1))
    ∧ f.sub rm ftz a b = (if s = t then (f.cnan, 1) else (f.infinity s, 0))
    ∧ f.mul rm ftz a b = (f.infinity (s != t), 0) ∧ f.div rm ftz a b = (f.cnan, 1))
  ∧ (∀ s v, f.unpack a = .inf s → operand f ftz b = some v →
    f.add rm ftz a b = (f.infinity s, 0) ∧ f.sub rm ftz a b = (f.infinity s, 0)
    ∧ (v ≠ 0 → f.mul rm ftz a b = (f.infinity (s != (f.unpack b).sign), 0))
    ∧ f.div rm ftz a b = (f.infinity (s != (f.unpack b).sign), 0))
  ∧ (∀ u t, operand f ftz a = some u → f.unpack b = .inf t →
    f.add rm ftz a b = (f.infinity t, 0) ∧ f.sub rm ftz a b = (f.infinity (!t), 0)
    ∧ (u ≠ 0 → f.mul rm ftz a b = (f.infinity ((f.unpack a).sign != t), 0))
    ∧ f.div rm ftz a b = (f.zero ((f.unpack a).sign != t), 0))
  ∧ ∀ s, f.unpack a = .inf s → f.sqrt rm ftz a = if s then (f.cnan, 1) else (f.infinity false, 0)

end Sys2Proof.Claims

/-- R113, R33 to R37, R39: on numbers each operation rounds its exact result once and raises the flags of that rounding; NaNs give
the canonical NaN; an operation with no defined result raises IV. -/
def Obligations.FloatExact : Prop :=
  ∀ f ∈ hardFormats, ∀ (rm : Rnd) (ftz : Bool) (a b c : Nat),
    ExactOnNumbers f rm ftz a b c ∧ ExactOnNaNs f rm ftz a b c ∧ ExactOnInfinities f rm ftz a b

/-- R114: the poles and the exact results of FRCP, FRSQ, FEXP2 and FLOG2: FEXP2 of an integer and FLOG2 of a power of two are
rounded from an exact number, so that NX is clear where they are representable, and FLOG2 of 1 is +0. -/
def Obligations.FloatTranscendental : Prop :=
  ∀ f ∈ hardFormats, ∀ (rm : Rnd) (ftz : Bool) (a : Nat),
    (f.unpack a = .inf true → f.exp2 rm ftz a = (f.zero false, 0) ∧ f.log2 rm ftz a = (f.cnan, 1)
      ∧ f.rcp rm ftz a = (f.zero true, 0) ∧ f.rsq rm ftz a = (f.cnan, 1))
    ∧ (f.unpack a = .inf false → f.exp2 rm ftz a = (f.infinity false, 0) ∧ f.log2 rm ftz a = (f.infinity false, 0)
      ∧ f.rcp rm ftz a = (f.zero false, 0) ∧ f.rsq rm ftz a = (f.zero false, 0))
    ∧ (operand f ftz a = some 0 → number (f.unpack (f.exp2 rm ftz a).1) = some 1 ∧ (f.exp2 rm ftz a).2 = 0
      ∧ f.log2 rm ftz a = (f.infinity true, 2) ∧ f.rcp rm ftz a = (f.infinity (f.unpack a).sign, 2)
      ∧ f.rsq rm ftz a = (f.infinity (f.unpack a).sign, 2))
    ∧ (∀ u, operand f ftz a = some u → u < 0 → f.log2 rm ftz a = (f.cnan, 1) ∧ f.rsq rm ftz a = (f.cnan, 1))
    ∧ (∀ n : Int, operand f ftz a = some (n : Rat) → RoundsTo f rm ftz (.rat (2 ^ n)) (f.exp2 rm ftz a))
    ∧ (∀ n : Int, operand f ftz a = some (2 ^ n) → n ≠ 0 → RoundsTo f rm ftz (.rat n) (f.log2 rm ftz a)
      ∧ (f.log2 rm ftz a).2 = 0)
    ∧ (operand f ftz a = some 1 → f.log2 rm ftz a = (f.zero false, 0))

/-- R115, R116: FMIN and FMAX of every format return the lesser and the greater operand; FABS, FNEG and FSGN change only the sign
bit, and FCLASS writes the one bit that describes A, with no flag. -/
def Obligations.FloatPicksAndSigns : Prop :=
  let sign (ft : FTy) (n : Nat) : Bool := n.testBit ((fmtOf ft).width - 1)
  let with_ (ft : FTy) (s : Bool) (n : Nat) : Nat := n % 2 ^ ((fmtOf ft).width - 1) + (if s then 2 ^ ((fmtOf ft).width - 1) else 0)
  let bit (f : FFmt) (v : FVal) : Nat := match v with
    | .nan g => if g then 0 else 1
    | .inf s => if s then 2 else 9
    | .fin s m _ => if m = 0 then (if s then 5 else 6) else if m < 2 ^ f.p then (if s then 4 else 7) else if s then 3 else 8
  (∀ x, ∃ r, FloatResult (.fmin x) x.g x.d r ∧ ∀ y, IsPick (fmtOf x.ft) false (low x.ft y x.a) (low x.ft y x.b) (r y))
  ∧ (∀ x, ∃ r, FloatResult (.fmax x) x.g x.d r ∧ ∀ y, IsPick (fmtOf x.ft) true (low x.ft y x.a) (low x.ft y x.b) (r y))
  ∧ (∀ x, ∃ r, FloatResult (.fminLit x) x.g x.d r
      ∧ ∀ y, IsPick (fmtOf x.ft) false (low x.ft y x.a) (lowLit x.ft x.lit) (r y))
  ∧ (∀ x, ∃ r, FloatResult (.fmaxLit x) x.g x.d r
      ∧ ∀ y, IsPick (fmtOf x.ft) true (low x.ft y x.a) (lowLit x.ft x.lit) (r y))
  ∧ (∀ x, ∃ r, DoubleResult (.fminF64 x) x.g x.d r
      ∧ ∀ y, IsPick fmtF64 false (y.rd2 x.a.val).toNat (y.rd2 x.b.val).toNat (r y))
  ∧ (∀ x, ∃ r, DoubleResult (.fmaxF64 x) x.g x.d r
      ∧ ∀ y, IsPick fmtF64 true (y.rd2 x.a.val).toNat (y.rd2 x.b.val).toNat (r y))
  ∧ (∀ x, ∃ r, DoubleResult (.fminF64Lit x) x.g x.d r ∧ ∀ y, IsPick fmtF64 false (y.rd2 x.a.val).toNat x.lit.toNat (r y))
  ∧ (∀ x, ∃ r, DoubleResult (.fmaxF64Lit x) x.g x.d r ∧ ∀ y, IsPick fmtF64 true (y.rd2 x.a.val).toNat x.lit.toNat (r y))
  ∧ (∀ x, FloatResult (.fabs x) x.g x.d fun y => (with_ x.ft false (low x.ft y x.a), 0))
  ∧ (∀ x, FloatResult (.fneg x) x.g x.d fun y => (with_ x.ft (!sign x.ft (low x.ft y x.a)) (low x.ft y x.a), 0))
  ∧ (∀ x, FloatResult (.fsgn x) x.g x.d fun y => (with_ x.ft (sign x.ft (low x.ft y x.b)) (low x.ft y x.a), 0))
  ∧ ∀ x, FloatResult (.fclass x) x.g x.d fun y => (2 ^ bit (fmtOf x.ft) ((fmtOf x.ft).unpack (low x.ft y x.a)), 0)

/-- R117, R119: FSETP of every format and form. -/
def Obligations.FloatCompare : Prop :=
  (∀ x, ComparesFloats (.fsetp x) x.g x.pd (fmtOf x.ft) x.cmp (fun y => low x.ft y x.a) fun y => low x.ft y x.b)
  ∧ (∀ x, ComparesFloats (.fsetpLit x) x.g x.pd (fmtOf x.ft) x.cmp (fun y => low x.ft y x.a) fun _ => lowLit x.ft x.lit)
  ∧ (∀ x, ComparesFloats (.fsetpF64 x) x.g x.pd fmtF64 x.cmp (fun y => (y.rd2 x.a.val).toNat) fun y => (y.rd2 x.b.val).toNat)
  ∧ ∀ x, ComparesFloats (.fsetpF64Lit x) x.g x.pd fmtF64 x.cmp (fun y => (y.rd2 x.a.val).toNat) fun _ => x.lit.toNat

/-- R122, R123, R38: what CVT writes and the flags that it raises: an integer clamped or wrapped, a number rounded to a format or,
clamped with IV, to an integer; and the INT4 forms element by element. -/
def Obligations.Conversions : Prop :=
  (∀ x, ∃ r : Seat → FRes, LaneResult (.cvt x) x.g (fun _ y => y.cvtPut x.d x.dt (r y).1) (fun y => (r y).2)
    ∧ ∀ y, let a := y.cvtSrc x.a x.st
      (∀ t u, cvtKind x.st = .inl t → cvtKind x.dt = .inl u → asType u (r y).1 = fit u x.sat (asType t a) ∧ (r y).2 = 0)
      ∧ (∀ t f, cvtKind x.st = .inl t → cvtKind x.dt = .inr f →
          (asType t a ≠ 0 → RoundsTo f x.rm x.ftz (.rat (asType t a)) (r y)) ∧ (asType t a = 0 → r y = (f.zero false, 0)))
      ∧ (∀ f u, cvtKind x.st = .inr f → cvtKind x.dt = .inl u →
          ((f.unpack a).isNan = true → asType u (r y).1 = 0 ∧ (r y).2 = 1)
          ∧ (∀ s, f.unpack a = .inf s → asType u (r y).1 = (if s then tyLo u else tyHi u) ∧ (r y).2 = 1)
          ∧ ∀ w, operand f x.ftz a = some w →
            ∃ n : Int, Picks (fun v => ∃ k : Int, v = k) (fun v => ∃ k : Int, v = (2 * k : Int)) x.rm (.rat w) n
              ∧ (n < tyLo u → asType u (r y).1 = tyLo u ∧ (r y).2 = 1)
              ∧ (tyHi u < n → asType u (r y).1 = tyHi u ∧ (r y).2 = 1)
              ∧ (tyLo u ≤ n → n ≤ tyHi u → asType u (r y).1 = n ∧ (r y).2 = if w = n then 0 else 0x10#7))
      ∧ (∀ f h, cvtKind x.st = .inr f → cvtKind x.dt = .inr h →
          (∀ w, operand f x.ftz a = some w → w ≠ 0 → RoundsTo h x.rm x.ftz (.rat w) (r y))
          ∧ (operand f x.ftz a = some 0 → r y = (h.zero (f.unpack a).sign, 0))
          ∧ (∀ s, f.unpack a = .inf s → r y = (h.infinity s, 0))
          ∧ ((f.unpack a).isNan = true → r y = (h.cnan, if (f.unpack a).isSig then 1 else 0))))
  ∧ (∀ x, ∃ n : Seat → Nat, LaneWrites (.cvtPackInt4 x) x.g (fun y => y.wr x.d.val (BitVec.ofNat 32 (n y)))
      ∧ ∀ y i, i < 8 → ((BitVec.ofNat 32 (n y)).extractLsb' (4 * i) 4).toInt
          = max (-8) (min 7 ((y.rd2 x.a.val).extractLsb' (8 * i) 8).toInt))
  ∧ ∀ x, ∃ n : Seat → Nat, LaneWrites (.cvtUnpackInt4 x) x.g (fun y => y.wr2 x.d.val (BitVec.ofNat 64 (n y)))
      ∧ ∀ y i, i < 8 → ((BitVec.ofNat 64 (n y)).extractLsb' (8 * i) 8).toInt
          = ((y.rd x.a.val).extractLsb' (4 * i) 4).toInt

namespace Sys2Proof.Claims
open Sys2Proof.Machine

/-- A team after some of its lanes went to addresses of their own: each active lane stands in a fragment at dest, each lane of
another fragment stands where it stood, and no fragment holds anything else (R130, R147). -/
def Scattered (e : TEnv) (dest : Nat → DWord) (u : Team) : Prop :=
  (∀ k ∈ e.active, ∃ f ∈ u.frags, f.mask.getLsbD k = true ∧ f.pc = dest k)
  ∧ (∀ j f, j ≠ e.fi → e.t.frags[j]? = some f → ∀ k, f.mask.getLsbD k = true →
      ∃ f' ∈ u.frags, f'.mask.getLsbD k = true ∧ f'.pc = f.pc)
  ∧ (e.active ≠ [] → ∀ f ∈ u.frags, ∀ k, f.mask.getLsbD k = true →
      (k ∈ e.active ∧ f.pc = dest k)
        ∨ ∃ j f', j ≠ e.fi ∧ e.t.frags[j]? = some f' ∧ f'.mask.getLsbD k = true ∧ f.pc = f'.pc)

/-- The branch i sends each lane that g enables to target and every other active lane to the fall-through, and changes nothing
else but what link says of the enabled lanes (R130, R172). -/
def Branches (i : Instr) (g : Guard) (link : Cur → Seat → Seat) (target : Cur → Seat → DWord) : Prop :=
  ∀ s e, Issues i s e → ∃ u, exec i s = .next (s.putTeam e u) ∧ u = { e.t with seats := u.seats, frags := u.frags }
    ∧ (∀ k, u.seat k = if k ∈ e.enabled g then link e.cur (e.t.seat k) else e.t.seat k)
    ∧ Scattered e (fun k => if k ∈ e.enabled g then target e.cur (e.t.seat k) else e.cur.fall) u

/-- The member seats of a vote for the lane of seat k: enabled lanes that are no helpers, of sweep q where one is given, and
named by the lane's own mask where there is one (R174). -/
def Member (e : TEnv) (g : Guard) (k : Nat) (q : Option Nat) (mm : Option VReg) (m : Nat) : Prop :=
  m ∈ e.workers g ∧ (∀ n, q = some n → m / 32 = n) ∧ ∀ r, mm = some r → ((e.t.seat k).rd r.val).getLsbD (m % 32) = true

/-- No enabled lane that is no helper, and whose sweep is its own, leaves itself out of its mask (R175). -/
def NamesSelf (e : TEnv) (g : Guard) (mm : Option VReg) (own : Nat → Prop) : Prop :=
  ∀ r, mm = some r → ∀ k ∈ e.workers g, own k → ((e.t.seat k).rd r.val).getLsbD (k % 32) = true

/-- The trap of R175 in a team whose seats that fail are listed. -/
def omitTrap (s : State) (e : TEnv) (bad : List Nat) : State := takeTrap s e 0x05#8 { e.info 0x05#8 with mask := maskOf bad }

/-- The seats that R175 finds, ascending. -/
def Omits (e : TEnv) (g : Guard) (mm : Option VReg) (own : Nat → Bool) : List Nat :=
  match mm with
  | none => []
  | some r => (e.workers g).filter fun k => own k && !((e.t.seat k).rd r.val).getLsbD (k % 32)

/-- A copy of register or pair A of the seat src to D of the seat y. -/
def copied (w64 : Bool) (d a : VReg) (y src : Seat) : Seat :=
  if w64 then (y.wr d.val (src.rd a.val)).wr (d.val + 1) (src.rd (a.val + 1)) else y.wr d.val (src.rd a.val)

/-- The width of a segment (R178). -/
def segment : SwxSeg → Nat
  | .w32 => 32 | .w16 => 16 | .w8 => 8 | .w4 => 4 | .w2 => 2

/-- The seat t that SWX names for the lane of seat k (R179). -/
def swxNames (x : SwxOp) (k : Nat) (y : Seat) (t : Nat) : Prop :=
  let w := segment x.seg
  let sb := k - k % w
  let j := k % w
  let ub : Nat := match x.b with
    | .imm v => v.toNat
    | .reg r => (y.rd r.val).toNat
  let ib : Int := match x.b with
    | .imm v => v.toInt
    | .reg r => (y.rd r.val).toInt
  match x.mode with
  | .pick => t = sb + ub % w
  | .rot => t = sb + (j + ub) % w
  | .flip => t = sb + (j ^^^ ub) % w
  | .slide => 0 ≤ (j : Int) + ib ∧ (j : Int) + ib < w ∧ (t : Int) = k + ib

/-- The register that a mask of REGROUP names (R181). -/
def names (mask : DWord) (r : Nat) : Bool := mask.getLsbD (r / 4)

/-- REGROUP with a mask waits while a Hearth operation has registers of A to read; then the seats are filled in the order keep,
park, rest; named registers move with the lane, others stay in the seat; the lanes of park are parked, and the one fragment holds
the kept lanes at the fall-through (R183). -/
def Regroups (i : Instr) (pa : PReg) (mask : DWord) : Prop :=
  ∀ s e, Issues i s e → e.t.frags.length = 1 → e.t.saved = none →
    ((∃ o ∈ e.t.hearth.ops, o.reading = true) → exec i s = stall s e)
    ∧ ((∀ o ∈ e.t.hearth.ops, o.reading = false) → ∃ u, exec i s = .next (s.putTeam e u)
    ∧ u = { e.t with seats := u.seats, frags := u.frags, saved := u.saved }
    ∧ u.saved = some (e.t.seats.map Seat.lane) ∧ u.seats.length = e.t.seats.length
    ∧ ∃ keep park rest : List Nat,
        (∀ k, k ∈ keep ↔ k ∈ e.active ∧ (e.t.seat k).pred pa = true)
        ∧ (∀ k, k ∈ park ↔ k ∈ e.active ∧ (e.t.seat k).pred pa = false)
        ∧ (∀ k, k ∈ rest ↔ k < e.t.seats.length ∧ k ∉ e.active)
        ∧ keep.Pairwise (· < ·) ∧ park.Pairwise (· < ·) ∧ rest.Pairwise (· < ·)
        ∧ (∀ t o, (keep ++ park ++ rest)[t]? = some o →
            (u.seat t).lane = (e.t.seat o).lane ∧ (u.seat t).preds = (e.t.seat o).preds
            ∧ (u.seat t).helper = (e.t.seat o).helper
            ∧ (u.seat t).st = (if keep.length ≤ t ∧ t < keep.length + park.length then .parked else (e.t.seat o).st)
            ∧ ∀ r, r < (e.t.seat t).vregs.length → (u.seat t).rd r = if names mask r then (e.t.seat o).rd r else (e.t.seat t).rd r)
        ∧ ∃ f, u.frags = [f] ∧ f.pc = e.cur.fall ∧ ∀ k, k < 1024 → (f.mask.getLsbD k = true ↔ k < keep.length))

/-- REGATHER with a mask waits so too; then each lane goes back to its home seat with the registers that the mask names; parked lanes are active
again, and the one fragment holds every active lane at the fall-through (R184). -/
def Regathers (i : Instr) (mask : DWord) : Prop :=
  ∀ s e home, Issues i s e → e.t.frags.length = 1 → e.t.saved = some home → home.length = e.t.seats.length →
    ((∃ o ∈ e.t.hearth.ops, o.reading = true) → exec i s = stall s e)
    ∧ ((∀ o ∈ e.t.hearth.ops, o.reading = false) → ∃ u, exec i s = .next (s.putTeam e u) ∧ u = { e.t with seats := u.seats, frags := u.frags, saved := none }
    ∧ u.seats.length = e.t.seats.length
    ∧ (∀ h t, h < home.length → t < e.t.seats.length → home[h]? = some (e.t.seat t).lane →
        (∀ t', t' < t → (e.t.seat t').lane ≠ (e.t.seat t).lane) →
        (u.seat h).lane = (e.t.seat t).lane ∧ (u.seat h).preds = (e.t.seat t).preds
        ∧ (u.seat h).helper = (e.t.seat t).helper
        ∧ (u.seat h).st = (if (e.t.seat t).st = .parked then .active else (e.t.seat t).st)
        ∧ ∀ r, r < (e.t.seat h).vregs.length → (u.seat h).rd r = if names mask r then (e.t.seat t).rd r else (e.t.seat h).rd r)
    ∧ ∃ f, u.frags = [f] ∧ f.pc = e.cur.fall
        ∧ ∀ k, k < 1024 → (f.mask.getLsbD k = true ↔ k < u.seats.length ∧ (u.seat k).st = .active))

/-- The 32-bit value of a special register in the lane of seat k (R21). -/
def special (s : State) (e : TEnv) (k : Nat) : SpecReg → Nat
  | .lid => (e.t.seat k).lane
  | .seat => k
  | .sweep => k >>> 5
  | .team => e.ti
  | .block => e.b.id
  | .launch => e.l.id
  | .core => e.b.place.core
  | .cluster => e.b.place.cluster
  | .die => e.b.place.die
  | .asf => e.t.asf.toNat
  | .ate => e.t.ate.toNat
  | .trapres => e.t.trapres.toNat
  | .occ c => ((s.l1Of e.b.runsOn).lines.filter fun l => l.cls = c.val).length

/-- The effect f on each enabled lane, where f may look at the whole team. -/
def TeamWrites (i : Instr) (g : Guard) (when_ : State → TEnv → Prop) (f : State → TEnv → Nat → Seat → Seat) : Prop :=
  ∀ s e, Issues i s e → when_ s e → ∃ u, exec i s = .next (s.putTeam e (e.goto u e.cur.fall)) ∧ LaneEffect e g (f s e) noFlag u

end Sys2Proof.Claims

/-! ### Control -/

/-- R130, R172: BRA, BRX, CALL and RET send each enabled lane to its target and the others to the fall-through; CALL leaves the
fall-through in the pair D of each lane that takes it. -/
def Sys2Proof.Claims.BranchesAndCalls : Prop :=
  (∀ x, Branches (.bra x) x.g (fun _ y => y) fun c _ => c.pc + BitVec.ofInt 64 (x.imm.toInt * 8))
  ∧ (∀ x, Branches (.brx x) x.g (fun _ y => y) fun _ y => y.rd2 x.a.val)
  ∧ (∀ x, Branches (.call x) x.g (fun c y => y.wr2 x.d.val c.fall) fun c _ => c.pc + BitVec.ofInt 64 (x.imm.toInt * 8))
  ∧ ∀ x, Branches (.ret x) x.g (fun _ y => y) fun _ y => y.rd2 x.r.val

/-- R173: EXIT ends every enabled lane and no other but, where the last active lanes of the team go, the parked ones; the other
active lanes go on at the fall-through, and no lane's registers change, nor any other register of the team; memory is as it was where
the team leaves no suspended operation to be reported (R268, R328). -/
def Sys2Proof.Claims.Exits : Prop :=
  ∀ g s e, Issues (.exit g) s e → ∃ t u, exec (.exit g) s = .next t ∧ t.team e.l.id e.b.id e.ti = some u
    ∧ u = { e.t with seats := u.seats, frags := u.frags, saved := u.saved, copy := u.copy, bar := u.bar }
    ∧ u.seats.length = e.t.seats.length
    ∧ ((∀ o ∈ e.t.copy.ops, o.susp = none) → (∀ o ∈ e.t.hearth.ops, o.susp = none) → t.mem = s.mem ∧ t.l1 = s.l1)
    ∧ (∀ k, k < e.t.seats.length → (u.seat k).vregs = (e.t.seat k).vregs ∧ (u.seat k).preds = (e.t.seat k).preds
        ∧ (u.seat k).lane = (e.t.seat k).lane
        ∧ (u.seat k).st = (if k ∈ e.enabled g then .exited
            else if (e.t.seat k).st = .parked ∧ e.t.frags.length ≤ 1 ∧ (∀ j ∈ e.active, j ∈ e.enabled g) then .exited
            else (e.t.seat k).st))
    ∧ (∀ k ∈ e.active, k ∉ e.enabled g → ∃ f ∈ u.frags, f.mask.getLsbD k = true ∧ f.pc = e.cur.fall)
    ∧ (e.t.frags.length ≤ 1 → (∀ j ∈ e.active, j ∈ e.enabled g) → u.frags = [])
    ∧ u.saved = if (∀ k, k < e.t.seats.length → (u.seat k).st = .absent ∨ (u.seat k).st = .exited) then none else e.t.saved

/-- R130, R172, R173: BranchesAndCalls and Exits together. -/
def Obligations.BranchesCallsAndExit : Prop := BranchesAndCalls ∧ Exits

/-- R136: NOP changes no state, whatever its guard: the fragment goes on, and a team of that one fragment stands at the
fall-through with its mask. A NOP word whose D or A is not zero raises 0x02. -/
def Obligations.NopChangesNothing : Prop :=
  (∀ g s e, Issues (.nop g) s e → exec (.nop g) s = .next (s.putTeam e (e.goto e.t e.cur.fall))
    ∧ ∃ fs, e.goto e.t e.cur.fall = { e.t with frags := fs }
      ∧ (e.t.frags.length = 1 → ∃ f, fs = [f] ∧ f.pc = e.cur.fall ∧ f.mask = e.f.mask ∧ f.parked = false))
  ∧ ∀ (w : Nat) (lit : DWord), (Fields.ofWord w).op = 0x98 → (Fields.ofWord w).fn = 0 →
      ((Fields.ofWord w).d ≠ 0 ∨ (Fields.ofWord w).a ≠ 0) → decode false w lit = .error 0x02#8

/-- R21, R134, R135: SRD reads each special register, %trapres into a pair; SWR writes bits [6:0] of the value of the highest
enabled lane that is no helper to %ate, and nothing where there is none. -/
def Obligations.SystemRegisters : Prop :=
  (∀ x, TeamWrites (.srd x) x.g (fun _ _ => True) fun s e k y =>
      if x.r = .trapres then y.wr2 x.d.val e.t.trapres else y.wr x.d.val (BitVec.ofNat 32 (special s e k x.r)))
  ∧ ∀ x s e, Issues (.swr x) s e → ∃ v, exec (.swr x) s = .next (s.putTeam e (e.goto { e.t with ate := v } e.cur.fall))
      ∧ (e.workers x.g = [] → v = e.t.ate)
      ∧ ∀ k ∈ e.workers x.g, (∀ j ∈ e.workers x.g, j ≤ k) → v = (e.t.seat k).rd x.r.val &&& 0x7F#32

/-- R159, R160, R170, R191: a pop of a team of one fragment takes the entry at its read position; DQPOP writes it to every
active lane's pair, BRU branches the whole fragment where it is not zero; a pop of an empty queue waits, and after SEXIT raises
0x03 before the position moves. A push appends its entry where fewer than 64 are held, and waits else. -/
def Obligations.Decisions : Prop :=
  (∀ d s e v, Issues (.dqpop d) s e → e.t.frags.length = 1 → e.b.dq[e.t.dqPos - e.b.dqFreed]? = some v →
    ∃ t u, exec (.dqpop d) s = .next t ∧ t.team e.l.id e.b.id e.ti = some u
      ∧ (∀ k, u.seat k = if k ∈ e.active then (e.t.seat k).wr2 d.val v else e.t.seat k)
      ∧ u = { e.t with seats := u.seats, frags := u.frags, dqPos := e.t.dqPos + 1 }
      ∧ (∃ f, u.frags = [f] ∧ f.pc = e.cur.fall ∧ f.mask = e.f.mask)
      ∧ t.mem = s.mem ∧ t.marks = s.marks.filter fun m => m.agent != e.agent)
  ∧ (∀ imm s e v, Issues (.bru imm) s e → e.t.frags.length = 1 → e.b.dq[e.t.dqPos - e.b.dqFreed]? = some v →
    ∃ t u, exec (.bru imm) s = .next t ∧ t.team e.l.id e.b.id e.ti = some u
      ∧ u = { e.t with frags := u.frags, dqPos := e.t.dqPos + 1 }
      ∧ (∃ f, u.frags = [f] ∧ f.pc = (if v = 0 then e.cur.fall else e.cur.pc + BitVec.ofInt 64 (imm.toInt * 8))
          ∧ ∀ k ∈ e.active, f.mask.getLsbD k = true)
      ∧ t.mem = s.mem ∧ t.marks = s.marks.filter fun m => m.agent != e.agent)
  ∧ (∀ i s e, ((∃ d, i = .dqpop d) ∨ ∃ imm, i = .bru imm) → Issues i s e → e.t.frags.length = 1 →
      e.b.dq[e.t.dqPos - e.b.dqFreed]? = none →
      exec i s = if e.b.foyer.sexit then .next (takeTrap s e 0x03#8 (e.info 0x03#8))
        else .next (s.putTeam e { e.t with frags := e.t.frags.modify e.fi fun f => { f with stalled := true } }))
  ∧ ∀ a s e, FIssues (.dqpush a) s e →
      (e.b.dq.length < 64 → ∃ t l b, exec (.dqpush a) s = .next t ∧ t.launch e.l.id = some l ∧ l.block e.b.id = some b
        ∧ b.foyer.pc = e.cur.fall ∧ b.foyer.s = e.b.foyer.s ∧ b.dqFreed + b.dq.length = max (e.b.dqFreed + e.b.dq.length + 1) b.dqFreed
        ∧ ((∃ tm ∈ e.b.teams, tm.exited = false ∧ tm.dqPos ≤ e.b.dqFreed + e.b.dq.length) →
            b.dq.getLast? = some (e.b.foyer.rd a)))
      ∧ (64 ≤ e.b.dq.length → exec (.dqpush a) s = .next (s.putFoyer e { e.b.foyer with stalled := true }))

/-! ### Lane-wide operations -/

/-- R174 to R177: the votes and ballots over the members, and trap 0x05 where a lane leaves itself out of its mask. -/
def Obligations.VotesAndBallots : Prop :=
  (∀ x, ∃ v : State → TEnv → Nat → Bool,
      TeamWrites (.vote x) x.g (fun _ e => NamesSelf e x.g x.mm fun _ => True) (fun s e k y => y.setPred x.pd (v s e k))
      ∧ ∀ s e k, (v s e k = true ↔
        let m := Member e x.g k (x.mm.map fun _ => k / 32) x.mm
        match x.mode with
        | .any => ∃ j, m j ∧ (e.t.seat j).pred x.pa = true
        | .all => ∀ j, m j → (e.t.seat j).pred x.pa = true
        | .uni => ∀ j j', m j → m j' → (e.t.seat j).pred x.pa = (e.t.seat j').pred x.pa))
  ∧ (∀ x, ∃ w : State → TEnv → Nat → Word,
      TeamWrites (.ballot x) x.g (fun _ e => NamesSelf e x.g x.mm fun _ => True) (fun s e k y => y.wr x.d.val (w s e k))
      ∧ ∀ s e k b, b < 32 → ((w s e k).getLsbD b = true ↔
        ∃ j, Member e x.g k (some (k / 32)) x.mm j ∧ j % 32 = b ∧ (e.t.seat j).pred x.pa = true))
  ∧ (∀ x, ∃ w : State → TEnv → Nat → Word,
      TeamWrites (.ballotIndexed x) x.g
        (fun _ e => NamesSelf e x.g x.mm fun k => ((e.t.seat k).rd x.b.val).toNat = k / 32)
        (fun s e k y => y.wr x.d.val (w s e k))
      ∧ ∀ s e k b, b < 32 → ((w s e k).getLsbD b = true ↔
        ∃ j, Member e x.g k (some ((e.t.seat k).rd x.b.val).toNat) x.mm j ∧ j % 32 = b ∧ (e.t.seat j).pred x.pa = true))
  ∧ (∀ x s e, Issues (.vote x) s e → Omits e x.g x.mm (fun _ => true) ≠ [] →
      exec (.vote x) s = .next (omitTrap s e (Omits e x.g x.mm fun _ => true)))
  ∧ (∀ x s e, Issues (.ballot x) s e → Omits e x.g x.mm (fun _ => true) ≠ [] →
      exec (.ballot x) s = .next (omitTrap s e (Omits e x.g x.mm fun _ => true)))
  ∧ ∀ x s e, Issues (.ballotIndexed x) s e → Omits e x.g x.mm (fun k => ((e.t.seat k).rd x.b.val).toNat = k / 32) ≠ [] →
      exec (.ballotIndexed x) s = .next (omitTrap s e (Omits e x.g x.mm fun k => ((e.t.seat k).rd x.b.val).toNat = k / 32))

/-- R178 to R180: SWX copies A of the seat that its mode names, where that seat is valid, else the lane's own A; QXCH copies A of
the partner in the quad. -/
def Obligations.Exchanges : Prop :=
  (∀ x, ∃ f : State → TEnv → Nat → Seat → Seat,
      TeamWrites (.swx x) x.g (fun _ e => NamesSelf e x.g x.mm fun _ => True) f
      ∧ ∀ s e k, let y := e.t.seat k
          let valid (t : Nat) : Prop := swxNames x k y t ∧ t ∈ e.enabled x.g
            ∧ ∀ r, x.mm = some r → (y.rd r.val).getLsbD (t % 32) = true
          (∀ t, valid t → f s e k y = copied x.w64 x.d x.a y (e.t.seat t))
          ∧ ((¬∃ t, valid t) → f s e k y = copied x.w64 x.d x.a y y))
  ∧ (∀ x, TeamWrites (.qxch x) x.g (fun _ _ => True) fun _ e k y =>
      let t := k ^^^ (match x.mode with
        | .h => 1
        | .v => 2
        | .d => 3)
      copied x.w64 x.d x.a y (if t ∈ e.enabled x.g then e.t.seat t else y))
  ∧ ∀ x s e, Issues (.swx x) s e → Omits e x.g x.mm (fun _ => true) ≠ [] →
      exec (.swx x) s = .next (omitTrap s e (Omits e x.g x.mm fun _ => true))

/-- R181 to R184: REGROUP and REGATHER of both forms; more than one fragment raises 0x06, and a REGROUP in force, or for
REGATHER none, 0x03. -/
def Obligations.RegroupAndRegather : Prop :=
  (∀ pa imm, Regroups (.regroup pa imm) pa (imm.signExtend 64)) ∧ (∀ pa lit, Regroups (.regroupLit pa lit) pa lit)
  ∧ (∀ imm, Regathers (.regather imm) (imm.signExtend 64)) ∧ (∀ lit, Regathers (.regatherLit lit) lit)
  ∧ (∀ i s e, ((∃ pa imm, i = .regroup pa imm) ∨ ∃ pa lit, i = .regroupLit pa lit) → Issues i s e →
      (1 < e.t.frags.length → exec i s = .next (takeTrap s e 0x06#8 (e.info 0x06#8)))
      ∧ (e.t.frags.length ≤ 1 → e.t.saved.isSome = true → exec i s = .next (takeTrap s e 0x03#8 (e.info 0x03#8))))
  ∧ ∀ i s e, ((∃ imm, i = .regather imm) ∨ ∃ lit, i = .regatherLit lit) → Issues i s e →
      (e.t.saved = none → exec i s = .next (takeTrap s e 0x03#8 (e.info 0x03#8)))
      ∧ (e.t.saved.isSome = true → 1 < e.t.frags.length → exec i s = .next (takeTrap s e 0x06#8 (e.info 0x06#8)))

namespace Sys2Proof.Claims
open Sys2Proof.Machine

/-- The team's access performs: every lane passes its checks (R125, R214), no granule of a checked page conflicts (R235), no full
dirty log holds it back (R415); s1 is the state with the translations, the accessed and dirty bits, and the marks left behind. -/
structure Granted (s : State) (e : TEnv) (lv : Level) (n : Nat) (kind : AKind) (mk : MKind) (lanes : List (Nat × DWord))
    (as : List Acc) (s1 : State) : Prop where
  checks : checkLanes s e lv n kind lanes = (as, [])
  alone : ∀ a ∈ as, s.conflictIn e.agent a n mk = none
  left : ∃ s0, commitAll s e.b.die e.l.asid kind as = (s0, true) ∧ s1 = markAll s0 e.agent mk n as

/-- The same for a Foyer context's one access. -/
structure FGranted (s : State) (e : FEnv) (va : DWord) (n : Nat) (kind : AKind) (mk : MKind) (t : Tr) (s1 : State) : Prop where
  checks : s.check e.b.die e.l.asid va n kind = .ok t
  alone : s.conflictIn e.agent ⟨0, va, t.pa, some t⟩ n mk = none
  left : ∃ s0, s.commitTr e.b.die e.l.asid va kind t = some s0 ∧ s1 = s0.markAcc e.agent n mk ⟨0, va, t.pa, some t⟩

/-- The same for a prologue run, on the I/O die and with no L1 of its own (R374). -/
structure PGranted (s : State) (e : PEnv) (va : DWord) (n : Nat) (kind : AKind) (mk : MKind) (t : Tr) (s1 : State) : Prop where
  checks : s.check none e.q.asid va n kind = .ok t
  alone : s.conflictIn (.prologue e.p.key) ⟨0, va, t.pa, some t⟩ n mk = none
  left : ∃ s0, s.commitTr none e.q.asid va kind t = some s0
    ∧ s1 = (s0.markAcc (.prologue e.p.key) n mk ⟨0, va, t.pa, some t⟩).purgeFor t

/-- No core but u holds dirty bytes of the checked line that a translation leads to (R234). -/
def Undisturbed (s : State) (u : Unit3) (t : Tr) : Prop :=
  t.attrs.checked = true → ∀ v, v ≠ u → ∀ x, (s.l1Of v).find (t.pa / 128) = some x → x.dirty = 0

/-- Bits [63:57] of a global address all equal bit 56 (R24). -/
def Canonical (va : DWord) : Prop := va.extractLsb' 57 7 = if va.getLsbD 56 then 0x7F#7 else 0#7

/-- The address of a lane: a pair and a signed offset, or a 32-bit offset of an on-chip level (R125, R214). -/
def formed (lv : Level) (y : Seat) (b : VReg) (ofs : BitVec 21) : DWord :=
  if lv = .global then y.rd2 b.val + BitVec.ofInt 64 ofs.toInt
  else BitVec.ofNat 64 (y.rd b.val + BitVec.ofInt 32 ofs.toInt).toNat

/-- The lanes that access memory: those enabled that are no helpers, ascending, each with its address. -/
def accessing (e : TEnv) (g : Guard) (lv : Level) (b : VReg) (ofs : BitVec 21) : List (Nat × DWord) :=
  (e.workers g).map fun k => (k, formed lv (e.t.seat k) b ofs)

/-- Registers and bytes of a load by its size code (R124). -/
def loadSize : LdSz → Nat × Nat
  | .i8 => (1, 1) | .n8 => (1, 1) | .i16 => (1, 2) | .n16 => (1, 2) | .b32 => (1, 4) | .b64 => (2, 8) | .b128 => (4, 16)

/-- Register j of a load of the bytes bs: little-endian, extended by the size code (R9, R124). -/
def loaded (sz : LdSz) (bs : List Byte) (j : Nat) : Word :=
  let n := leNat bs
  match sz with
  | .i8 => (BitVec.ofNat 8 n).signExtend 32
  | .i16 => (BitVec.ofNat 16 n).signExtend 32
  | _ => BitVec.ofNat 32 (n / 2 ^ (32 * j))

/-- The bytes of a store by its size code (R124). -/
def storeSize : StSz → Nat
  | .b8 => 1 | .b16 => 2 | .b32 => 4 | .b64 => 8 | .b128 => 16

/-- Byte j of the data registers of a store. -/
def storedByte (y : Seat) (d : VReg) (j : Nat) : Byte := (y.rd (d.val + j / 4)).extractLsb' (8 * (j % 4)) 8

/-- A scope of .clu or wider. -/
def beyondCore (sc : Scope) : Bool := decide (sc = .clu ∨ sc = .die ∨ sc = .dev ∨ sc = .sys)

/-- A load or store that synchronises ends the agent's region, with an acquire where it asks for one; a fragment with no enabled
lane synchronises nothing (R223, R233). -/
def synced (s : State) (e : TEnv) (g : Guard) (acq : Bool) : Option Scope → State
  | none => s
  | some sc => if e.enabled g = [] then s else (if acq then s.acquire e.b.runsOn sc else s).endRegion e.agent

/-- The word that a load leaves pending for each seat: what it read for a lane that accesses, 0 for an enabled helper lane, and
nothing for any other (R126). -/
def PendingWords (e : TEnv) (g : Guard) (n : Nat) (word : List Byte → Nat → Word) (got : List (Nat × List Byte)) (p : Pending) : Prop :=
  p.count = n ∧ ∀ k, (k ∉ e.enabled g → p.words.getD k none = none)
    ∧ (k ∈ e.enabled g → (e.t.seat k).helper = true → p.words.getD k none = some (List.replicate n 0))
    ∧ ∀ bs, k ∈ e.workers g → (k, bs) ∈ got → p.words.getD k none = some ((List.range n).map (word bs))

/-- The load i of register d, of a size, from the accesses listed completes: what it read is written at once from a lane slice,
else pending until RESULT_WRITE_BACK; posted from levels 2 and 3, where it waits only for a counter of 255; a helper lane gets 0;
a fragment with no enabled lane only goes on. Nothing else of the state changes but what its reads leave in caches, and what
an acquire does (R126, R199, R214, R215). -/
def LoadsBy (i : Instr) (g : Guard) (d b : VReg) (lv : Level) (sz : LdSz) (acq : Option Scope) (ofs : BitVec 21) : Prop :=
  ∀ s e as s1, Issues i s e →
    Granted s e lv (loadSize sz).2 .load (if acq.isSome then .syncRead else .plainLoad) (accessing e g lv b ofs) as s1 →
    ((lv = .scratch ∨ lv = .cluster) → e.t.scratch < 255) →
    let r := readAll s1 e lv (loadSize sz).2 (acq.any beyondCore) [] as
    ∃ v, exec i s = .next ((synced r.1 e g true acq).putTeam e (e.goto v e.cur.fall))
      ∧ (s1.Inv → r.1.Inv) ∧ r.1.marks = s1.marks ∧ r.2.map Prod.fst = as.map Acc.seat
      ∧ (e.enabled g = [] → v = e.t)
      ∧ (e.enabled g ≠ [] → lv = .slice → v = { e.t with seats := v.seats }
          ∧ ∀ k, (k ∉ e.enabled g → v.seat k = e.t.seat k)
            ∧ (∀ j, d.val + (loadSize sz).1 ≤ j ∨ j < d.val → (v.seat k).rd j = (e.t.seat k).rd j)
            ∧ ∀ bs, k ∈ e.workers g → (k, bs) ∈ r.2 → ∀ j, j < (loadSize sz).1 → d.val + j < (e.t.seat k).vregs.length →
              (v.seat k).rd (d.val + j) = loaded sz bs j)
      ∧ (e.enabled g ≠ [] → lv ≠ .slice → ∃ p, v = { e.t with pend := e.t.pend ++ [p], scratch := v.scratch, sb := v.sb }
          ∧ v.scratch = e.t.scratch + (if lv = .scratch ∨ lv = .cluster then 1 else 0)
          ∧ p.reg = d.val ∧ p.posted = decide (lv = .scratch ∨ lv = .cluster)
          ∧ PendingWords e g (loadSize sz).1 (loaded sz) r.2 p)

/-- The store i of the registers from d to the accesses listed: every stored byte is read back by the core, every other byte of
every level and of global memory is as it was, and the team only goes on (R126, R197, R214, R232). -/
def StoresBy (i : Instr) (g : Guard) (d b : VReg) (lv : Level) (sz : StSz) (rel : Option Scope) (ofs : BitVec 21) : Prop :=
  ∀ s e as s1, Issues i s e →
    Granted s e lv (storeSize sz) .store (if rel.isSome then .syncWrite else .plainStore) (accessing e g lv b ofs) as s1 →
    s1.Inv →
    ∃ t, exec i s = .next t ∧ t.team e.l.id e.b.id e.ti = some (e.goto e.t e.cur.fall)
      ∧ (lv = .global → (∀ a ∈ as, ∀ x, a.tr = some x → Undisturbed s1 e.b.runsOn x) →
          ∀ pa, (∀ a ∈ as, pa < a.at_ ∨ a.at_ + storeSize sz ≤ pa) →
          t.coherentRead e.b.runsOn pa 1 = s1.coherentRead e.b.runsOn pa 1)
      ∧ (lv ≠ .global → ∀ pa, t.coherentRead e.b.runsOn pa 1 = s1.coherentRead e.b.runsOn pa 1)
      ∧ (∀ lv' o, lv' ≠ lv ∨ (∀ a ∈ as, o < a.at_ ∨ a.at_ + storeSize sz ≤ o) →
          t.levelBytes e.l.id e.b.id lv' o 1 = s1.levelBytes e.l.id e.b.id lv' o 1)
      ∧ (as.Pairwise (fun a c => a.at_ + storeSize sz ≤ c.at_ ∨ c.at_ + storeSize sz ≤ a.at_) → ∀ a ∈ as, ∀ j, j < storeSize sz →
          (lv = .global → (∀ x ∈ as, ∀ t, x.tr = some t → t.attrs.checked = false ∧ isPeer t.pa = false) →
            (∀ x ∈ as, x.at_ % storeSize sz = 0) →
            t.coherentRead e.b.runsOn (a.at_ + j) 1 = [storedByte (e.t.seat a.seat) d j])
          ∧ (lv ≠ .global → (levelMem e.l e.b lv).wf = true → (lv = .cluster → ∃ z ∈ e.l.groups, z.id = e.b.id / e.l.img.clg) →
            (lv = .pantry → ∃ z ∈ e.l.pantry, z.1 = e.b.runsOn.die) →
            t.levelBytes e.l.id e.b.id lv (a.at_ + j) 1 = [storedByte (e.t.seat a.seat) d j]))

/-- The value that an atomic stores for an old value and an operand of w bits (R188, R218). -/
def atomicValue (o : AtomOp) (w : Nat) (old v : Nat) : Nat :=
  let sgn (x : Nat) : Int := if x < 2 ^ (w - 1) then x else x - 2 ^ w
  match o with
  | .add => (old + v) % 2 ^ w
  | .min sg => if (sg = true ∧ sgn v < sgn old) ∨ (sg = false ∧ v < old) then v else old
  | .max sg => if (sg = true ∧ sgn old < sgn v) ∨ (sg = false ∧ old < v) then v else old
  | .and => old &&& v
  | .or => old ||| v
  | .xor => old ^^^ v
  | .exch => v

/-- The level of an ATOM (R216). -/
def levelOfAtom : AtomLevel → Level
  | .global => .global
  | .scratch => .scratch
  | .cluster => .cluster
  | .pantry => .pantry

/-- Whether a scope suits the level of an ATOM (R217). -/
def scopeAllowed (lv : AtomLevel) (sc : Scope) : Bool :=
  match lv with
  | .global => true
  | .scratch => decide (sc = .team ∨ sc = .core)
  | .cluster => decide (sc = .team ∨ sc = .core ∨ sc = .clu)
  | .pantry => decide (sc = .team ∨ sc = .core ∨ sc = .clu ∨ sc = .die)

/-- The value that an ATOM stores where it finds old, for the registers of its lane. -/
def atomStores (x : AtomOpnd) (y : Seat) (old : Nat) : Nat :=
  let rd (r : VReg) : Nat := if x.w64 then (y.rd2 r.val).toNat else (y.rd r.val).toNat
  match x.sel with
  | .op o => atomicValue o (if x.w64 then 64 else 32) old (rd x.a)
  | .cas c => if old = rd c then rd x.a else old

/-- The 32 low bits, or all 64, of an s-register. -/
def truncS (w64 : Bool) (v : DWord) : Nat := if w64 then v.toNat else v.toNat % 2 ^ 32

/-- The value that a SATOM stores where it finds old. -/
def satomStores (x : SatomOp) (rd : SReg → DWord) (old : Nat) : Nat :=
  match x.sel with
  | .op o => atomicValue o (if x.w64 then 64 else 32) old (truncS x.w64 (rd x.a))
  | .cas c => if old = truncS x.w64 (rd c) then truncS x.w64 (rd x.a) else old

/-- What SATOM writes for an old value: zero-extended, or sign-extended where SG is 1 (R188). -/
def satomResult (x : SatomOp) (old : Nat) : DWord :=
  let sg : Bool := match x.sel with
    | .op (.min b) => b
    | .op (.max b) => b
    | _ => false
  if sg && !x.w64 then (BitVec.ofNat 32 old).signExtend 64 else BitVec.ofNat 64 old

/-- The bytes of an SLD and how they extend (R187). -/
def sldResult (sz : SldSz) (bs : List Byte) : DWord :=
  let n := leNat bs
  match sz with
  | .i8 => BitVec.ofInt 64 (BitVec.ofNat 8 n).toInt
  | .i16 => BitVec.ofInt 64 (BitVec.ofNat 16 n).toInt
  | .i32 => BitVec.ofInt 64 (BitVec.ofNat 32 n).toInt
  | _ => BitVec.ofNat 64 n

/-- The Foyer context of a block of a state. -/
def foyerAt (s : State) (e : FEnv) : Option Foyer := ((s.launch e.l.id).bind fun l => l.block e.b.id).map Block.foyer

/-- The run of a prologue of a state. -/
def runAt (s : State) (e : PEnv) : Option Prologue := s.prologues.find? fun p => p.key == e.p.key

end Sys2Proof.Claims

/-! ### Memory -/

/-- R124 to R126, R212 to R215: LD of every level and ordering. -/
def Obligations.Loads : Prop :=
  (∀ x, LoadsBy (.ld x) x.g x.d x.b .global x.sz none x.ofs) ∧ ∀ x, LoadsBy (.ldLevel x) x.g x.d x.b x.lv x.sz x.acq x.ofs

/-- R124 to R126, R197, R212 to R215, R232: ST of every level and ordering, with its frame over all of memory. -/
def Obligations.Stores : Prop :=
  (∀ x, StoresBy (.st x) x.g x.d x.b .global x.sz none x.ofs) ∧ ∀ x, StoresBy (.stLevel x) x.g x.d x.b x.lv x.sz x.rel x.ofs

/-- R125, R126, R214, R387: a load or store in which some lane fails a check performs nothing: it traps with the cause and the
address of the lowest failing seat, and the record's mask holds every failing seat, or for a cause outside 0x20 to 0x28 the active
lanes. A global address fails by canonical form, then
alignment, then translation and permission; an on-chip offset by alignment, then the level's range. -/
def Obligations.AccessFaults : Prop :=
  (∀ i g lv n (kind : AKind) b ofs, ((∃ x : LdOp, i = .ld x ∧ g = x.g ∧ lv = Level.global ∧ n = (loadSize x.sz).2 ∧ kind = .load ∧ b = x.b ∧ ofs = x.ofs)
      ∨ (∃ x : StOp, i = .st x ∧ g = x.g ∧ lv = .global ∧ n = storeSize x.sz ∧ kind = .store ∧ b = x.b ∧ ofs = x.ofs)
      ∨ (∃ x : LdLvOp, i = .ldLevel x ∧ g = x.g ∧ lv = x.lv ∧ n = (loadSize x.sz).2 ∧ kind = .load ∧ b = x.b ∧ ofs = x.ofs)
      ∨ ∃ x : StLvOp, i = .stLevel x ∧ g = x.g ∧ lv = x.lv ∧ n = storeSize x.sz ∧ kind = .store ∧ b = x.b ∧ ofs = x.ofs) →
    ∀ s e, Issues i s e → e.t.scratch < 255 → ∀ k va c rest,
      (checkLanes s e lv n kind (accessing e g lv b ofs)).2 = (k, va, c) :: rest →
      exec i s = .next (takeTrap (s.noteErr c) e c.cause { e.info c.cause with
        addr := va
        mask := maskOf (if 0x20#8 ≤ c.cause ∧ c.cause ≤ 0x28#8 then k :: rest.map Prod.fst else e.active) }))
  ∧ (∀ (s : State) (die : Option Nat) (asid : Nat) (va : DWord) (n : Nat) (kind : AKind),
      (¬Canonical va →
        s.check die asid va n kind = .error ⟨0x20#8, none⟩)
      ∧ (Canonical va →
          (va.toNat % n ≠ 0 → s.check die asid va n kind = .error ⟨0x23#8, none⟩)
          ∧ (va.toNat % n = 0 → ∀ c, s.translate die asid va kind = .error c → s.check die asid va n kind = .error c)))
  ∧ ∀ (s : State) (e : TEnv) (lv : Level) (n : Nat) (kind : AKind) (k : Nat) (o : DWord), lv ≠ .global →
      checkLane s e lv n kind k o =
        if o.toNat % n ≠ 0 then .error ⟨0x23#8, none⟩
        else if levelSize e.l lv < o.toNat + n then
          .error ⟨match lv with
            | .cluster => 0x26#8
            | .pantry => 0x27#8
            | _ => 0x25#8, none⟩
        else .ok ⟨k, o, if lv = .slice then
            (e.ti * e.t.seats.length + (e.t.seat k).lane) * e.l.img.slice + o.toNat else o.toNat, none⟩

/-- R42, R203, R233, R234: what a read of global memory gives: in peer memory, and on a checked page of which no L1 holds the byte
dirty, the byte at home; by an acquire at
.clu or wider each byte that the core has written and not written back from its L1, others from home; else each byte that the L1
holds valid from there, others from home. A core reads back what it stored. -/
def Obligations.GlobalReads : Prop :=
  (∀ (s : State) (l : Launch) (u : Unit3) (t : Tr) (n : Nat), t.pa % 128 + n ≤ 128 → ∀ k, k < n →
    (t.attrs.checked = true ∨ isPeer t.pa = true →
        (t.attrs.checked = true → ∀ v x, (s.l1Of v).find (t.pa / 128) = some x → x.dirty.getLsbD (t.pa % 128 + k) = false) →
        ∀ w, (s.globalRead l u t n w).2[k]? = some (s.mem.get (t.pa + k)))
    ∧ (t.attrs.checked = false → isPeer t.pa = false →
        (s.globalRead l u t n true).2[k]? = some (match (s.l1Of u).find (t.pa / 128) with
          | some x => if x.dirty.getLsbD (t.pa % 128 + k) then x.byte (t.pa % 128 + k) else s.mem.get (t.pa + k)
          | none => s.mem.get (t.pa + k))
        ∧ (s.globalRead l u t n false).2[k]? = some (match (s.l1Of u).find (t.pa / 128) with
          | some x => if x.valid.getLsbD (t.pa % 128 + k) then x.byte (t.pa % 128 + k) else s.mem.get (t.pa + k)
          | none => s.mem.get (t.pa + k))))
  ∧ ∀ (s : State) (l : Launch) (u : Unit3) (t : Tr) (bs : List Byte) (w w' : Bool), s.Inv → t.attrs.checked = false →
      isPeer t.pa = false → t.pa % 128 + bs.length ≤ 128 →
      ((s.globalWrite l u t bs w).globalRead l u t bs.length w').2 = bs

/-- R188, R218: the values of the atomic operations, and what one atomic access does at its point of coherence: it answers the
old bytes and leaves the new ones for the core to read. -/
def Obligations.AtomicValues : Prop :=
  (∀ (x : AtomOpnd) (y : Seat) (old : Nat), old < 2 ^ (if x.w64 then 64 else 32) →
    leNat (atomFun x.sel x.w64 y x.a (leBytes (if x.w64 then 8 else 4) old)) = atomStores x y old)
  ∧ (∀ (x : SatomOp) (rd : SReg → DWord) (old : Nat), old < 2 ^ (if x.w64 then 64 else 32) →
    leNat (satomFun x rd (leBytes (if x.w64 then 8 else 4) old)) = satomStores x rd old)
  ∧ ∀ (s : State) (l : Launch) (u : Unit3) (t : Tr) (n : Nat) (f : List Byte → List Byte) (w : Bool), s.Inv →
      t.attrs.checked = false → isPeer t.pa = false → t.pa % 128 + n ≤ 128 → (∀ bs, bs.length = n → (f bs).length = n) →
      (w = true → (s.globalAtomic l u t n w f).2 = s.coherentRead u t.pa n)
      ∧ (w = false → (s.globalAtomic l u t n w f).2 = (s.globalRead l u t n false).2)
      ∧ ∀ w', ((s.globalAtomic l u t n w f).1.globalRead l u t n w').2 = f (s.globalAtomic l u t n w f).2

/-- R216 to R218: ATOM completes: it performs in each enabled lane that is no helper, ascending, each on what the lane before left;
its old values are pending for D, 0 for helper lanes. A scope wider than the level allows, or other than .sys in peer memory, raises 0x63. -/
def Obligations.Atomics : Prop :=
  (∀ x s e as s1, Issues (.atom x) s e → scopeAllowed x.lv x.sc = true →
    Granted s e (levelOfAtom x.lv) (if x.w64 then 8 else 4) .atomic .syncWrite
      (accessing e x.g (levelOfAtom x.lv) x.b 0) as s1 →
    (∀ a ∈ as, ∀ t, a.tr = some t → isPeer t.pa = true → x.sc = .sys) →
    let n := if x.w64 then 8 else 4
    let s2 := if (x.ord = .rel ∨ x.ord = .ar) ∧ e.enabled x.g ≠ [] then s1.release e.b.runsOn e.agent x.sc else s1
    let r := atomAll s2 e x (beyondCore x.sc) as
    let s3 := if x.sc = .dev ∨ x.sc = .sys then r.1.watchAll x.sc n as else r.1
    ∃ v, exec (.atom x) s = .next ((synced s3 e x.g (x.ord = .acq ∨ x.ord = .ar)
        (if x.ord = .none then none else some x.sc)).putTeam e (e.goto v e.cur.fall))
      ∧ r.2.map Prod.fst = as.map Acc.seat
      ∧ (e.enabled x.g = [] → v = e.t)
      ∧ (e.enabled x.g ≠ [] → ∃ p, v = { e.t with pend := e.t.pend ++ [p], sb := v.sb } ∧ p.reg = x.d.val ∧ p.posted = false
          ∧ PendingWords e x.g (n / 4) (fun bs j => BitVec.ofNat 32 (leNat bs / 2 ^ (32 * j))) r.2 p))
  ∧ ∀ x s e as, Issues (.atom x) s e →
      checkLanes s e (levelOfAtom x.lv) (if x.w64 then 8 else 4) .atomic (accessing e x.g (levelOfAtom x.lv) x.b 0) = (as, []) →
      (scopeAllowed x.lv x.sc = false ∨ (x.sc ≠ .sys ∧ ∃ a ∈ as, ∃ t, a.tr = some t ∧ isPeer t.pa = true)) →
      exec (.atom x) s = .next (takeTrap s e 0x63#8 (e.info 0x63#8))

/-- R187, R188: SLD, SST and SATOM of a Foyer context. -/
def Sys2Proof.Claims.FoyerMemory : Prop :=
  (∀ x s e t s1, FIssues (.sld x) s e →
    FGranted s e (e.b.foyer.rd x.b + BitVec.ofInt 64 x.ofs.toInt) (sldBytes x.sz) .load .plainLoad t s1 →
    ∃ s2 f p, exec (.sld x) s = .next s2 ∧ foyerAt s2 e = some f ∧ f.pc = e.cur.fall ∧ f.s = e.b.foyer.s
      ∧ f.pend = e.b.foyer.pend ++ [p] ∧ p.reg = x.d.val
      ∧ p.val = sldResult x.sz (s1.globalRead e.l e.b.runsOn t (sldBytes x.sz) false).2)
  ∧ (∀ x s e t s1, FIssues (.sst x) s e → s1.Inv →
    FGranted s e (e.b.foyer.rd x.b + BitVec.ofInt 64 x.ofs.toInt) (sstBytes x.sz) .store .plainStore t s1 →
    ∃ s2, exec (.sst x) s = .next s2
      ∧ (∃ f, foyerAt s2 e = some f ∧ f.pc = e.cur.fall ∧ f.s = e.b.foyer.s ∧ f.pend = e.b.foyer.pend)
      ∧ (Undisturbed s1 e.b.runsOn t → ∀ pa, pa < t.pa ∨ t.pa + sstBytes x.sz ≤ pa →
          s2.coherentRead e.b.runsOn pa 1 = s1.coherentRead e.b.runsOn pa 1)
      ∧ (t.attrs.checked = false → isPeer t.pa = false → t.pa % sstBytes x.sz = 0 → ∀ j, j < sstBytes x.sz →
          s2.coherentRead e.b.runsOn (t.pa + j) 1 = [(e.b.foyer.rd x.d).extractLsb' (8 * j) 8]))
  ∧ ∀ x s e t s1, FIssues (.satom x) s e → FGranted s e (e.b.foyer.rd x.b) (if x.w64 then 8 else 4) .atomic .syncWrite t s1 →
    (isPeer t.pa = true → x.sc = .sys) →
    ∃ s2 f p, exec (.satom x) s = .next s2 ∧ foyerAt s2 e = some f ∧ f.pc = e.cur.fall ∧ f.s = e.b.foyer.s
      ∧ f.pend = e.b.foyer.pend ++ [p] ∧ p.reg = x.d.val
      ∧ p.val = satomResult x (leNat ((if x.ord = .rel ∨ x.ord = .ar then s1.release e.b.runsOn e.agent x.sc else s1).globalAtomic
          e.l e.b.runsOn t (if x.w64 then 8 else 4) (beyondCore x.sc) (satomFun x e.b.foyer.rd)).2)

/-- R187, R188, R374: the same three in a prologue run, whose accesses meet home memory at once; each counts one step of the run,
and the 4,096th ends it with outcome 2. -/
def Sys2Proof.Claims.PrologueMemory : Prop :=
  (∀ x s e t s1, PIssues (.sld x) s e → PGranted s e (e.p.rd x.b + BitVec.ofInt 64 x.ofs.toInt) (sldBytes x.sz) .load .plainLoad t s1 →
    ∃ s2 p, exec (.sld x) s = .next s2 ∧ runAt s2 e = some p ∧ p.steps = e.p.steps + 1 ∧ s2.mem = s1.mem ∧ p.pc = e.cur.fall
      ∧ (e.p.steps + 1 < 4096 → p.active = e.p.active) ∧ (4096 ≤ e.p.steps + 1 → p.active = false ∧ p.outcome = some (2, 0))
      ∧ (x.d ≠ 0 → x.d.val < e.p.s.length → p.rd x.d = sldResult x.sz (s1.mem.bytes t.pa (sldBytes x.sz))))
  ∧ (∀ x s e t s1, PIssues (.sst x) s e → s1.Inv →
      PGranted s e (e.p.rd x.b + BitVec.ofInt 64 x.ofs.toInt) (sstBytes x.sz) .store .plainStore t s1 →
      ∃ s2 p, exec (.sst x) s = .next s2 ∧ runAt s2 e = some p ∧ p.s = e.p.s ∧ p.steps = e.p.steps + 1 ∧ p.pc = e.cur.fall
        ∧ (∀ pa, pa < t.pa ∨ t.pa + sstBytes x.sz ≤ pa → s2.mem.get pa = s1.mem.get pa)
        ∧ ∀ j, j < sstBytes x.sz → s2.mem.get (t.pa + j) = (e.p.rd x.d).extractLsb' (8 * j) 8)
  ∧ ∀ x s e t s1, PIssues (.satom x) s e → s1.Inv → PGranted s e (e.p.rd x.b) (if x.w64 then 8 else 4) .atomic .syncWrite t s1 →
      (isPeer t.pa = true → x.sc = .sys) → let n := if x.w64 then 8 else 4
      ∃ s2 p, exec (.satom x) s = .next s2 ∧ runAt s2 e = some p ∧ p.steps = e.p.steps + 1 ∧ p.pc = e.cur.fall
        ∧ (x.d ≠ 0 → x.d.val < e.p.s.length → p.rd x.d = satomResult x (s1.mem.num t.pa n))
        ∧ (∀ pa, pa < t.pa ∨ t.pa + n ≤ pa → s2.mem.get pa = s1.mem.get pa)
        ∧ s2.mem.num t.pa n = satomStores x e.p.rd (s1.mem.num t.pa n)

/-- R187, R188, R374: SLD, SST and SATOM of a kernel's Foyer context, and in a prologue run. -/
def Obligations.FoyerAndPrologueMemory : Prop := FoyerMemory ∧ PrologueMemory

namespace Sys2Proof.Claims
open Sys2Proof.Machine

/-- The registers read by rd' are those read by rd but for v in register d; s0 keeps no write (R157). -/
def Wrote (d : SReg) (v : DWord) (rd rd' : SReg → DWord) : Prop := ∀ r, rd' r = if r = d ∧ r ≠ 0 then v else rd r

/-- The form i completes in a Foyer context: the context stands at pc with the registers of f; all else is as it was. -/
def FDone (i : Instr) (s : State) (e : FEnv) (pc : DWord) (f : Foyer) : Prop :=
  exec i s = .next (s.putFoyer e f) ∧ f.s.length = e.b.foyer.s.length
    ∧ f = { e.b.foyer with s := f.s, pc := pc, stalled := false, lift := .none, since := 0
                           skip := e.b.foyer.skip.filter fun p => p != e.cur.pc }

/-- The form i is one step of a prologue run: the run stands at pc with the registers of p; the 4,096th step ends the run with
outcome 2 (R374). -/
def PDone (i : Instr) (s : State) (e : PEnv) (pc : DWord) (p : Prologue) : Prop :=
  p = { e.p with s := p.s, pc := pc, steps := e.p.steps + 1 } ∧ p.s.length = e.p.s.length
    ∧ (p.steps < 4096 → exec i s = .next (s.putPrologue p))
    ∧ (4096 ≤ p.steps → ∃ t, exec i s = .next t ∧ runAt t e = some { p with active := false, outcome := some (2, 0) }
        ∧ t.mem = s.mem)

/-- In either stream the form i writes the value v of its registers to d and goes on at the fall-through. -/
def ScalarWrites (i : Instr) (d : SReg) (v : (SReg → DWord) → DWord) : Prop :=
  (∀ s e, FIssues i s e → ∃ f, FDone i s e e.cur.fall f
    ∧ (d.val < e.b.foyer.s.length → Wrote d (v e.b.foyer.rd) e.b.foyer.rd f.rd))
  ∧ ∀ s e, PIssues i s e → ∃ p, PDone i s e e.cur.fall p ∧ (d.val < e.p.s.length → Wrote d (v e.p.rd) e.p.rd p.rd)

/-- In either stream the form i writes no register and goes to the address of its registers. -/
def ScalarGoes (i : Instr) (pc : Cur → (SReg → DWord) → DWord) : Prop :=
  (∀ s e, FIssues i s e → ∃ f, FDone i s e (pc e.cur e.b.foyer.rd) f ∧ f.s = e.b.foyer.s)
  ∧ ∀ s e, PIssues i s e → ∃ p, PDone i s e (pc e.cur e.p.rd) p ∧ p.s = e.p.s

/-- Shifts of 64-bit values by an unsigned 64-bit count (R185). -/
def shiftL (a b : DWord) : DWord := BitVec.ofNat 64 (a.toNat * 2 ^ b.toNat)
/-- The same to the right, zeros in. -/
def shiftR (a b : DWord) : DWord := BitVec.ofNat 64 (a.toNat / 2 ^ b.toNat)
/-- The same to the right, copies of bit 63 in. -/
def shiftA (a b : DWord) : DWord := BitVec.ofInt 64 (a.toInt / 2 ^ b.toNat)
/-- An immediate of a Foyer form. -/
def simm (i : BitVec 29) : DWord := BitVec.ofInt 64 i.toInt

/-- A relation of SCMP on two 64-bit values, signed or unsigned (R186). -/
def SHolds (c : Cmp) (sgn : Bool) (a b : DWord) : Prop :=
  if sgn then Holds c a.toInt b.toInt else Holds c (a.toNat : Int) (b.toNat : Int)

/-- The form i writes 1 where the relation holds and 0 else. -/
def ScalarCompares (i : Instr) (d : SReg) (h : (SReg → DWord) → Prop) : Prop :=
  ∃ v : (SReg → DWord) → DWord, ScalarWrites i d v ∧ ∀ rd, (h rd → v rd = 1) ∧ (¬h rd → v rd = 0)

/-- The prologue run of e has ended with an outcome and the value of RES[63:32]; its registers are as they were. -/
def RunEnded (t : State) (e : PEnv) (outcome value : Nat) : Prop :=
  ∃ p, runAt t e = some p ∧ p.active = false ∧ p.outcome = some (outcome, value) ∧ p.s = e.p.s

/-- Whether an instruction is one of the prologue forms (R193). -/
def EndsPrologue (i : Instr) : Prop := ∃ a, i = .plaunch a ∨ i = .pcancel a ∨ i = .prepeat a

/-- The image of a launch that a prologue built, with PH and CONC cleared (R374). -/
def withoutPh (bs : List Byte) : List Byte :=
  leBytes 8 (((BitVec.ofNat 64 (leNat (bs.take 8))) &&& ~~~(0x300#64)).toNat) ++ bs.drop 8

/-- FMBIND or FMSWAP appends one request and goes on with its number in sD (R346, R354). -/
def Requests (i : Instr) (x : FmOp) (swap : Bool) : Prop :=
  ∀ s e f, FIssues i s e → s.func e.l.fn = some f →
    (f.stream.reqs.length < 256 → ∃ t f' y, exec i s = .next t ∧ t.func e.l.fn = some f'
      ∧ f'.stream.next = f.stream.next + 1 ∧ f'.stream.timeline = f.stream.timeline
      ∧ (∃ r, f'.stream.reqs = f.stream.reqs ++ [r] ∧ r.num = f.stream.next ∧ r.asid = e.l.asid ∧ r.k = x.k.val ∧ r.swap = swap
          ∧ r.ct = e.b.foyer.rd x.a ∧ r.obj = e.b.foyer.rd x.b ∧ r.phase = .queued ∧ r.pkt = none)
      ∧ (∃ b, t.bindEntry e.l.asid x.k.val = some b ∧ 0 < b.pend)
      ∧ foyerAt t e = some y ∧ y.pc = e.cur.fall
      ∧ (x.d.val < e.b.foyer.s.length → Wrote x.d (BitVec.ofNat 64 f.stream.next) e.b.foyer.rd y.rd))
    ∧ (256 ≤ f.stream.reqs.length → exec i s = .next (s.putFoyer e { e.b.foyer with stalled := true }))

end Sys2Proof.Claims

/-! ### Foyer forms -/

/-- R185, R186: the arithmetic and move forms act on 64-bit values modulo 2^64, in a kernel's Foyer stream and in a prologue; SCMP writes
1 or 0 by its relation on signed or unsigned operands; writes to s0 are discarded; every other register keeps its value. -/
def Obligations.ScalarArithmetic : Prop :=
  (∀ x, ScalarWrites (.sadd x) x.d fun r => r x.a + r x.b) ∧ (∀ x, ScalarWrites (.saddImm x) x.d fun r => r x.a + simm x.imm)
  ∧ (∀ x, ScalarWrites (.saddLit x) x.d fun r => r x.a + x.lit)
  ∧ (∀ x, ScalarWrites (.ssub x) x.d fun r => r x.a - r x.b) ∧ (∀ x, ScalarWrites (.ssubImm x) x.d fun r => r x.a - simm x.imm)
  ∧ (∀ x, ScalarWrites (.ssubLit x) x.d fun r => r x.a - x.lit)
  ∧ (∀ x, ScalarWrites (.smul x) x.d fun r => r x.a * r x.b) ∧ (∀ x, ScalarWrites (.smulImm x) x.d fun r => r x.a * simm x.imm)
  ∧ (∀ x, ScalarWrites (.smulLit x) x.d fun r => r x.a * x.lit)
  ∧ (∀ x, ScalarWrites (.sand x) x.d fun r => r x.a &&& r x.b) ∧ (∀ x, ScalarWrites (.sandImm x) x.d fun r => r x.a &&& simm x.imm)
  ∧ (∀ x, ScalarWrites (.sandLit x) x.d fun r => r x.a &&& x.lit)
  ∧ (∀ x, ScalarWrites (.sor x) x.d fun r => r x.a ||| r x.b) ∧ (∀ x, ScalarWrites (.sorImm x) x.d fun r => r x.a ||| simm x.imm)
  ∧ (∀ x, ScalarWrites (.sorLit x) x.d fun r => r x.a ||| x.lit)
  ∧ (∀ x, ScalarWrites (.sxor x) x.d fun r => r x.a ^^^ r x.b) ∧ (∀ x, ScalarWrites (.sxorImm x) x.d fun r => r x.a ^^^ simm x.imm)
  ∧ (∀ x, ScalarWrites (.sxorLit x) x.d fun r => r x.a ^^^ x.lit)
  ∧ (∀ x, ScalarWrites (.sshl x) x.d fun r => shiftL (r x.a) (r x.b))
  ∧ (∀ x, ScalarWrites (.sshlImm x) x.d fun r => shiftL (r x.a) (simm x.imm))
  ∧ (∀ x, ScalarWrites (.sshlLit x) x.d fun r => shiftL (r x.a) x.lit)
  ∧ (∀ x, ScalarWrites (.sshr x) x.d fun r => shiftR (r x.a) (r x.b))
  ∧ (∀ x, ScalarWrites (.sshrImm x) x.d fun r => shiftR (r x.a) (simm x.imm))
  ∧ (∀ x, ScalarWrites (.sshrLit x) x.d fun r => shiftR (r x.a) x.lit)
  ∧ (∀ x, ScalarWrites (.ssar x) x.d fun r => shiftA (r x.a) (r x.b))
  ∧ (∀ x, ScalarWrites (.ssarImm x) x.d fun r => shiftA (r x.a) (simm x.imm))
  ∧ (∀ x, ScalarWrites (.ssarLit x) x.d fun r => shiftA (r x.a) x.lit)
  ∧ (∀ d a, ScalarWrites (.smov d a) d fun r => r a) ∧ (∀ d i, ScalarWrites (.smovi d i) d fun _ => simm i)
  ∧ (∀ d l, ScalarWrites (.smovl d l) d fun _ => l)
  ∧ (∀ x, ScalarWrites (.ssel x) x.d fun r => if r x.c ≠ 0 then r x.a else r x.b)
  ∧ (∀ x, ScalarCompares (.scmp x) x.d fun r => SHolds x.cmp x.sgn (r x.a) (r x.b))
  ∧ ∀ x, ScalarCompares (.scmpImm x) x.d fun r => SHolds x.cmp x.sgn (r x.a) (simm x.imm)

/-- R190: the Foyer control forms: where each goes, the link register of SCALL, the end of the context at SEXIT; SBRA with IMM 0
in a kernel is the Foyer's solve end, of which Solving speaks. -/
def Sys2Proof.Claims.ScalarControl : Prop :=
  let rel (c : Cur) (i : BitVec 29) : DWord := c.pc + BitVec.ofInt 64 (i.toInt * 8)
  (∀ i, i ≠ 0 → ScalarGoes (.sbra i) fun c _ => rel c i)
  ∧ (∀ s e, PIssues (.sbra 0) s e → ∃ p, PDone (.sbra 0) s e e.cur.pc p ∧ p.s = e.p.s)
  ∧ (∀ x, ScalarGoes (.sbz x) fun c r => if r x.a = 0 then rel c x.imm else c.fall)
  ∧ (∀ x, ScalarGoes (.sbnz x) fun c r => if r x.a ≠ 0 then rel c x.imm else c.fall)
  ∧ (∀ x s e, FIssues (.scall x) s e → ∃ f, FDone (.scall x) s e (rel e.cur x.imm) f
      ∧ (x.d.val < e.b.foyer.s.length → Wrote x.d e.cur.fall e.b.foyer.rd f.rd))
  ∧ (∀ a s e, FIssues (.sret a) s e → ∃ f, FDone (.sret a) s e (e.b.foyer.rd a) f ∧ f.s = e.b.foyer.s)
  ∧ (∀ s e, FIssues .sexit s e → ∃ t f, exec .sexit s = .next t ∧ foyerAt t e = some f ∧ f.sexit = true ∧ f.s = e.b.foyer.s
      ∧ t.mem = s.mem)
  ∧ ∀ i s e, ((∃ x, i = .scall x) ∨ (∃ a, i = .sret a) ∨ i = .sexit) → s.inPrologue = true → s.prologueEnv = some e →
      ∃ t, exec i s = .next t ∧ RunEnded t e 3 0

/-- R193, R374, R375: each prologue form ends its run: PCANCEL with outcome 1 and its status; PLAUNCH and PREPEAT with outcome 0
and a launch, with outcome 5 where the image cannot be read or breaks R364, and by a halt of the queue with status 3 where the
launch is refused; in a kernel's Foyer stream all three raise 0x01, and a form that names a register above s15 ends the run
with outcome 3. -/
def Sys2Proof.Claims.PrologueEnds : Prop :=
  (∀ a s e, PIssues (.pcancel a) s e → ∃ t, exec (.pcancel a) s = .next t ∧ RunEnded t e 1 ((e.p.rd a).toNat % 2 ^ 32)
    ∧ t.mem = s.mem ∧ t.launches = s.launches)
  ∧ (∀ i a again s e, (i = .plaunch a ∧ again = false) ∨ (i = .prepeat a ∧ again = true) → PIssues i s e →
      (∀ s1 w, s.devRead (.prologue e.p.key) e.q.asid (e.p.rd a) .plainLoad 64 64 = .fail s1 w →
        ∃ t, exec i s = .next t ∧ RunEnded t e 5 0)
      ∧ ∀ s1 bs, s.devRead (.prologue e.p.key) e.q.asid (e.p.rd a) .plainLoad 64 64 = .ok s1 bs →
          (pkBits bs 0 8 ≠ 1 ∨ packetOk (withoutPh bs) = false → ∃ t, exec i s = .next t ∧ RunEnded t e 5 0)
          ∧ (pkBits bs 0 8 = 1 → packetOk (withoutPh bs) = true →
              (∀ s2 img s3 l, checkedLaunch s1 e.q e.p.key (withoutPh bs) = .ok s2 img →
                beginLaunch s2 e.q e.p.key (withoutPh bs) img = .ok s3 l →
                ∃ t p, exec i s = .next t ∧ runAt t e = some p ∧ RunEnded t e 0 0 ∧ p.launches = e.p.launches + 1
                  ∧ p.launch = some l ∧ p.repeats = again)
              ∧ ∀ s2 r, checkedLaunch s1 e.q e.p.key (withoutPh bs) = .refused s2 r → exec i s = .next (s2.haltPacket e.p.key 3 r)))
  ∧ (∀ i s e, EndsPrologue i → s.inPrologue = false → s.foyerEnv = some e →
      exec i s = .next (takeTrapFoyer s e 0x01#8 (e.info 0x01#8)))
  ∧ ∀ i s e, EndsPrologue i → s.inPrologue = true → s.prologueEnv = some e → (∃ r ∈ sregs i, 16 ≤ r.val) →
      ∃ t, exec i s = .next t ∧ RunEnded t e 3 0

/-- R190, R193, R374, R375: the Foyer's control forms, and the forms that end a prologue run. -/
def Obligations.ScalarControlAndPrologueEnds : Prop := ScalarControl ∧ PrologueEnds

/-- R346, R353 to R355: FMBIND and FMSWAP append a request to the function's stream, waiting while 256 are not complete, and go on
with its number; FMQUERY writes the state of the entry, field by field. -/
def Obligations.FormatSlots : Prop :=
  (∀ x, Requests (.fmbind x) x false) ∧ (∀ x, Requests (.fmswap x) x true)
  ∧ ∀ d k s e, FIssues (.fmquery d k) s e → ∃ f v, FDone (.fmquery d k) s e e.cur.fall f
      ∧ (d.val < e.b.foyer.s.length → Wrote d v e.b.foyer.rd f.rd)
      ∧ ∀ b, s.bindEntry e.l.asid k.val = some b →
          v.extractLsb' 48 16 = b.req ∧ v.extractLsb' 40 8 = b.lstat ∧ v.extractLsb' 35 5 = 0
          ∧ (v.getLsbD 34 = true ↔ 0 < b.pend) ∧ v.extractLsb' 30 2 = 0
          ∧ (s.boundTo e.l.asid k.val = none → v.extractLsb' 0 34 = 0)
          ∧ ∀ y, s.boundTo e.l.asid k.val = some y → y.ct.ew < 64 → y.ct.cb < 256 → y.ct.fid < 65536 →
              v.getLsbD 32 = true ∧ (v.getLsbD 33 = true ↔ y.ct.ew ≤ 16) ∧ (v.extractLsb' 24 6).toNat = y.ct.ew
              ∧ (v.extractLsb' 16 8).toNat = y.ct.cb ∧ (v.extractLsb' 0 16).toNat = y.ct.fid

namespace Sys2Proof.Claims
open Sys2Proof.Machine

/-- What a fence of a core's L1 has done between s and t (R232, R233): a release at .clu or wider has written every line of the
dirty FIFO back and nothing else; an acquire at .clu or wider leaves no byte valid but those that are dirty; any other fence
leaves memory and the L1 as they were. -/
structure Fenced (s t : State) (u : Unit3) (rel acq : Bool) (sc : Scope) : Prop where
  written : rel = true → beyondCore sc = true → ∀ tag ∈ (s.l1Of u).fifo, ∀ l, (s.l1Of u).find tag = some l →
    ∀ k, k < 128 → l.dirty.getLsbD k = true → t.mem.get (128 * tag + k) = l.byte k
  kept : ∀ pa, (∀ l, pa / 128 ∈ (s.l1Of u).fifo → (s.l1Of u).find (pa / 128) = some l → l.dirty.getLsbD (pa % 128) = false) →
    t.mem.get pa = s.mem.get pa
  none_ : rel = false ∨ beyondCore sc = false → t.mem = s.mem
  invalid : acq = true → beyondCore sc = true → ∀ l ∈ (t.l1Of u).lines, l.valid = l.dirty
  narrow : beyondCore sc = false → t.l1Of u = s.l1Of u

/-- The team of e as it stands in a state. -/
def teamAt (s : State) (e : TEnv) : Option Team := s.team e.l.id e.b.id e.ti

/-- The instruction of the team e has left its marks' region: the marks of other agents stay (R223). -/
def RegionOver (s t : State) (e : TEnv) : Prop := t.marks = s.marks.filter fun m => m.agent != e.agent

/-- The fragments of the team of e once its fragment has gone to the fall-through. -/
def onward (e : TEnv) : List Frag := (e.goto e.t e.cur.fall).frags

/-- The fragment of e waits at its PC. -/
def waiting (e : TEnv) (t : Team) : Team := { t with frags := t.frags.modify e.fi fun f => { f with stalled := true } }

/-- The same, where its team issues nothing else meanwhile (R241, R289). -/
def holding (e : TEnv) (t : Team) : Team :=
  { t with frags := t.frags.modify e.fi fun f => { f with stalled := true, holds := true } }

/-- A trap with a cause at an address (R386). -/
def trapsAt (s : State) (e : TEnv) (v : CauseAt) : State := takeTrap s e v.1 { e.info v.1 with addr := v.2 }

/-- The named barrier of a team's block or cluster group in a state. -/
def barAt (s : State) (e : TEnv) (cl : Bool) (n : Nat) : Option Bar :=
  (s.launch e.l.id).bind fun l =>
    if cl then (l.groups.find? fun g => g.id == e.b.id / e.l.img.clg).map fun g => barGet g.bars n
    else (l.block e.b.id).map fun b => barGet b.bars n

/-- The teams that arrive on a named barrier: their numbers, and whether each has exited (R243). -/
def arriving (e : TEnv) (cl : Bool) : List (Nat × Bool) :=
  if cl then e.l.roll (e.b.id / e.l.img.clg) else e.b.roll

/-- The number of the team of e among them. -/
def arrivalNo (e : TEnv) (cl : Bool) : Nat := if cl then 8 * (e.b.id % e.l.img.clg) + e.ti else e.ti

/-- The barrier after an arrival (R245): the phase that the arrival completes, or the arrival added to it. -/
structure Arrived (e : TEnv) (x : BarOp) (b b' : Bar) (done : Bool) : Prop where
  expect : done = true ↔ popcount (b.arr ||| BitVec.twoPow 32 (arrivalNo e x.cl)).toNat 32
    = if x.cnt.val ≠ 0 then x.cnt.val
      else ((arriving e x.cl).filter fun p => !p.2 || (b.arr ||| BitVec.twoPow 32 (arrivalNo e x.cl)).getLsbD p.1).length
  complete : done = true → b' = ⟨b.phase + 1, BitVec.ofNat 6 x.cnt.val, false, 0⟩
  added : done = false → b' = ⟨b.phase, BitVec.ofNat 6 x.cnt.val, true, b.arr ||| BitVec.twoPow 32 (arrivalNo e x.cl)⟩

/-- An arrival on a barrier is allowed: the team has not arrived in the phase, and an open phase has its CNT (R245). -/
def mayArrive (e : TEnv) (x : BarOp) (b : Bar) : Prop :=
  b.arr.getLsbD (arrivalNo e x.cl) = false ∧ (b.isOpen = true → b.cnt = BitVec.ofNat 6 x.cnt.val)

/-- The lane whose operands a wait takes: the lowest active lane that is no helper, else the lowest active lane (R265). -/
def IsWaitLane (e : TEnv) (k : Nat) : Prop :=
  k ∈ e.active ∧ (((e.t.seat k).helper = false ∧ ∀ j ∈ e.active, (e.t.seat j).helper = false → k ≤ j)
    ∨ ((∀ j ∈ e.active, (e.t.seat j).helper = true) ∧ ∀ j ∈ e.active, k ≤ j))

/-- The first worker of a guard is the elected lane (R142). -/
def Elected (e : TEnv) (g : Guard) (k : Nat) : Prop := k ∈ e.workers g ∧ ∀ j ∈ e.workers g, k ≤ j

/-- A wait has taken the flags that complete operations up to n had left: ORed into %asf, and dropped (R265, R336). -/
def Delivered (old : List (Nat × BitVec 7)) (n : Nat) (asf asf' : Word) (new : List (Nat × BitVec 7)) : Prop :=
  (∀ b, asf'.getLsbD b = (asf.getLsbD b || old.any fun p => decide (p.1 ≤ n) && p.2.getLsbD b))
    ∧ new = old.filter fun p => n < p.1

/-- The scope of CWAIT and MWAIT. -/
def scopeOf : WaitScope → Scope
  | .clu => .clu | .die => .die | .dev => .dev | .sys => .sys

/-- A wait on a Hearth timeline up to n (R336). -/
def HearthWaits (i : Instr) (s : State) (e : TEnv) (n : Nat) (sc : WaitScope) : Prop :=
  let h := e.t.hearth
  ((∀ o ∈ h.ops, o.num ≤ n → o.susp = none) → n ≤ h.timeline → s.Inv → ∃ t u, exec i s = .next t ∧ teamAt t e = some u
    ∧ u = { e.t with frags := onward e, asf := u.asf, hearth := { e.t.hearth with flags := u.hearth.flags } }
    ∧ Delivered h.flags n e.t.asf u.asf u.hearth.flags ∧ RegionOver s t e ∧ Fenced s t e.b.runsOn false true (scopeOf sc))
  ∧ ((∀ o ∈ h.ops, o.num ≤ n → o.susp = none) → h.timeline < n → exec i s = .next (s.putTeam e (waiting e e.t)))
  ∧ ∀ o w rest pre, h.ops = pre ++ o :: rest → (∀ p ∈ pre, p.num ≤ n → p.susp = none) → o.num ≤ n → o.susp = some w →
      exec i s = .next (takeTrap s e w.cause { e.info w.cause with
        addr := w.addr, inner := w.inner, opnum := o.num, oppos := o.passes, opkind := 2, conflict := w.who, onResume := .hearthOp o.num })

/-- FENCE or another instruction that fences and goes on. -/
def FencesOn (i : Instr) (s : State) (e : TEnv) (rel acq : Bool) (sc : Scope) : Prop :=
  ∃ t, exec i s = .next t ∧ teamAt t e = some (e.goto e.t e.cur.fall) ∧ RegionOver s t e ∧ Fenced s t e.b.runsOn rel acq sc

end Sys2Proof.Claims

/-! ### Ordering and waiting -/

/-- R242, R189, R232, R233: FENCE and SFENCE: what a release writes back, what an acquire makes invalid, that narrower scopes do
neither; an acquire waits while a load's data is pending, its team issuing nothing meanwhile (R241); marks of the agent go, those of others stay. -/
def Obligations.Fences : Prop :=
  (∀ x s e, Issues (.fence x) s e → s.Inv → (x.ord = .rel ∨ e.t.pend = []) →
    FencesOn (.fence x) s e (decide (x.ord ≠ .acq)) (decide (x.ord ≠ .rel)) x.sc)
  ∧ (∀ x s e, Issues (.fence x) s e → x.ord ≠ .rel → e.t.pend ≠ [] → exec (.fence x) s = .next (s.putTeam e (holding e e.t)))
  ∧ (∀ x s e, FIssues (.sfence x) s e → s.Inv → (x.ord = .rel ∨ e.b.foyer.pend = []) → ∃ t f, exec (.sfence x) s = .next t
      ∧ foyerAt t e = some f ∧ f.pc = e.cur.fall ∧ f.s = e.b.foyer.s ∧ t.marks = (s.marks.filter fun m => m.agent != e.agent)
      ∧ Fenced s t e.b.runsOn (decide (x.ord ≠ .acq)) (decide (x.ord ≠ .rel)) x.sc)
  ∧ ∀ x s e, FIssues (.sfence x) s e → x.ord ≠ .rel → e.b.foyer.pend ≠ [] →
      exec (.sfence x) s = .next (s.putFoyer e { e.b.foyer with stalled := true })

/-- R245: an arrival on a named barrier: 0x62 where the team has arrived or CNT differs; else its bit is set, and the phase
completes with the last expected arrival. BAR.ARV goes on; BAR waits until its phase completes and leaves with an acquire; each
waits first until its fragment is the team's only one. -/
def Obligations.NamedBarriers : Prop :=
  (∀ i x s e, (i = .bar x ∨ i = .barArv x) → Issues i s e → 1 < e.t.frags.length →
    exec i s = .next (s.putTeam e (waiting e e.t)))
  ∧ (∀ i x s e, (i = .bar x ∨ i = .barArv x) → Issues i s e → e.t.frags.length = 1 → e.t.bar = none →
      ¬mayArrive e x (e.barNow x.cl x.bn.val) → exec i s = .next (takeTrap s e 0x62#8 (e.info 0x62#8)))
  ∧ (∀ i x s e, (i = .bar x ∨ i = .barArv x) → Issues i s e → e.t.frags.length = 1 → e.t.bar = none →
      mayArrive e x (e.barNow x.cl x.bn.val) → (x.cl = true → ∃ g ∈ e.l.groups, g.id = e.b.id / e.l.img.clg) → s.Inv →
      ∃ t u b' done, exec i s = .next t ∧ teamAt t e = some u ∧ barAt t e x.cl x.bn.val = some b'
        ∧ Arrived e x (e.barNow x.cl x.bn.val) b' done ∧ RegionOver s t e
        ∧ Fenced s t e.b.runsOn true (done && decide (i = .bar x)) (if x.cl then .clu else .core)
        ∧ u = { e.t with frags := u.frags, bar := u.bar }
        ∧ (i = .barArv x ∨ done = true → u.frags = onward e ∧ u.bar = none)
        ∧ (i = .bar x → done = false → u.frags = (waiting e e.t).frags ∧ u.bar = some ⟨x.bn.val, x.cl, false⟩)
        ∧ ∀ j tm w, x.cl = false → j ≠ e.ti → e.b.teams[j]? = some tm → tm.bar = some w →
            t.team e.l.id e.b.id j = some (if done ∧ w.clu = false ∧ w.bn = x.bn.val then { tm with bar := some { w with done := true } }
              else tm))
  ∧ ∀ x s e w, Issues (.bar x) s e → e.t.frags.length = 1 → e.t.bar = some w →
      (w.done = false → exec (.bar x) s = .next (s.putTeam e (waiting e e.t)))
      ∧ (w.done = true → ∃ t, exec (.bar x) s = .next t
          ∧ teamAt t e = some { e.t with bar := none, frags := onward e } ∧ t.mem = s.mem
          ∧ Fenced s t e.b.runsOn false true (if x.cl then .clu else .core))

/-- R246, R247: BOARR on an object's fields: 0x62 for EXPECT 0 or an over-arrival, else the old PHASE pending for D of every active
lane, the count added, and the phase completed by the last arrival; BOWAIT waits while PHASE is p, its team issuing nothing meanwhile
(R241), then acquires. -/
def Obligations.BarrierObjects : Prop :=
  let field (bs : List Byte) (n : Nat) : Nat := leNat ((bs.drop (4 * n)).take 4)
  (∀ x s e k a tr s1, Issues (.boarr x) s e → Elected e x.g k →
    Granted s e .global 16 .arrive .syncWrite [(k, (e.t.seat k).rd2 x.b.val)] [a] s1 → a.tr = some tr →
    let n := match x.cnt with
      | some r => ((e.t.seat k).rd r.val).toNat
      | none => 1
    let s2 := if beyondCore x.sc then s1.drainL1 e.b.runsOn else s1
    let old := (s2.globalAtomic e.l e.b.runsOn tr 16 (beyondCore x.sc) id).2
    (field old 0 = 0 ∨ field old 0 < field old 1 + n → exec (.boarr x) s = .next (takeTrap s1 e 0x62#8 (e.info 0x62#8)))
    ∧ (field old 0 ≠ 0 → field old 1 + n ≤ field old 0 → ∃ t u p, exec (.boarr x) s = .next t ∧ teamAt t e = some u
        ∧ u.seats = e.t.seats ∧ u.frags = onward e ∧ u.pend = e.t.pend ++ [p] ∧ p.reg = x.d.val ∧ p.count = 1
        ∧ (∀ j, p.words.getD j none = if j ∈ e.active then some [BitVec.ofNat 32 (field old 2)] else none)
        ∧ (tr.attrs.checked = false → isPeer tr.pa = false → tr.pa % 16 = 0 → s1.Inv →
            let new := t.coherentRead e.b.runsOn tr.pa 16
            field new 0 = field old 0 ∧ field new 3 = field old 3
            ∧ (n = 0 → field new 1 = field old 1 ∧ field new 2 = field old 2)
            ∧ (n ≠ 0 → field old 1 + n ≠ field old 0 → field new 1 = field old 1 + n ∧ field new 2 = field old 2)
            ∧ (n ≠ 0 → field old 1 + n = field old 0 → field new 1 = 0 ∧ field new 2 = (field old 2 + 1) % 2 ^ 32))))
  ∧ (∀ x s e k a tr s1, Issues (.bowait x) s e → Elected e x.g k →
      Granted s e .global 16 .load .syncRead [(k, (e.t.seat k).rd2 x.b.val)] [a] s1 → a.tr = some tr →
      let r := s1.globalRead e.l e.b.runsOn tr 16 (beyondCore x.sc)
      (field r.2 2 = ((e.t.seat k).rd x.a.val).toNat → exec (.bowait x) s = .next (r.1.putTeam e (holding e e.t)))
      ∧ (field r.2 2 ≠ ((e.t.seat k).rd x.a.val).toNat → ∃ t, exec (.bowait x) s = .next t
          ∧ teamAt t e = some (e.goto e.t e.cur.fall) ∧ RegionOver s1 t e ∧ Fenced r.1 t e.b.runsOn false true x.sc))
  ∧ ∀ i g s e, ((∃ x, i = .boarr x ∧ g = x.g) ∨ ∃ x, i = .bowait x ∧ g = x.g) → Issues i s e → e.workers g = [] →
      exec i s = .next (if e.enabled g = [] then s.putTeam e (e.goto e.t e.cur.fall) else takeTrap s e 0x03#8 (e.info 0x03#8))

/-- R264, R265, R271, R336: CBATCH closes the pending set and writes its number, waiting while 32 closed batches are not complete; CWAIT
raises 0x03 for a batch not closed, waits for the batches, reports the suspended copy of the lowest batch and position, and else
delivers the flags and acquires; TLWAIT raises 0x86 for a timeline that its launch may not name, waits while it is short, then acquires
at its scope; MWAIT and MWAIT.all wait for the Hearth timeline, report its suspended operation, and deliver MO and ML. -/
def Obligations.Waits : Prop :=
  (∀ d s e, Issues (.cbatch d) s e →
    let c := e.t.copy
    (c.timeline + 33 ≤ c.nextBatch → exec (.cbatch d) s = .next (s.putTeam e (waiting e e.t)))
    ∧ (c.nextBatch < c.timeline + 33 → ∃ u, exec (.cbatch d) s = .next (s.putTeam e u)
        ∧ u = { e.t with seats := u.seats, frags := onward e, copy := u.copy }
        ∧ (∀ k, u.seat k = if k ∈ e.active then (e.t.seat k).wr2 d.val (BitVec.ofNat 64 c.nextBatch) else e.t.seat k)
        ∧ u.copy.nextBatch = c.nextBatch + 1 ∧ c.timeline ≤ u.copy.timeline
        ∧ (c.timeline < c.nextBatch → (∀ o ∈ u.copy.ops, o.batch ≠ 0)
            ∧ ((∀ o ∈ c.ops, o.done = true) → u.copy.timeline = c.nextBatch)
            ∧ ∀ o ∈ c.ops, o.done = false → (o.batch = 0 → u.copy.timeline < c.nextBatch)
                ∧ (c.timeline < o.batch → u.copy.timeline < o.batch))))
  ∧ (∀ i s e, ((∃ x, i = .cwait x) ∨ (∃ x, i = .mwait x) ∨ (∃ sc, i = .mwaitAll sc) ∨ ∃ x, i = .tlwait x) → Issues i s e → e.active = [] →
      exec i s = .next (s.putTeam e (e.goto e.t e.cur.fall)))
  ∧ (∀ x s e k, Issues (.cwait x) s e → IsWaitLane e k →
      let n := ((e.t.seat k).rd2 x.a.val).toNat
      let c := e.t.copy
      let settled (b : Nat) : Prop := (∀ o ∈ c.ops, o.batch = b → o.done = true) ∨ ∃ o ∈ c.ops, o.batch = b ∧ o.susp ≠ none
      (c.nextBatch ≤ n → exec (.cwait x) s = .next (takeTrap s e 0x03#8 (e.info 0x03#8)))
      ∧ (n < c.nextBatch → (∃ b, c.timeline < b ∧ b ≤ n ∧ ¬settled b) → exec (.cwait x) s = .next (s.putTeam e (waiting e e.t)))
      ∧ (n < c.nextBatch → n ≤ c.timeline → (∀ o ∈ c.ops, 0 < o.batch → o.batch ≤ n → o.susp = none) → s.Inv →
          ∃ t u, exec (.cwait x) s = .next t ∧ teamAt t e = some u
            ∧ u = { e.t with frags := onward e, asf := u.asf, copy := { c with flags := u.copy.flags } }
            ∧ Delivered c.flags n e.t.asf u.asf u.copy.flags ∧ RegionOver s t e
            ∧ Fenced s t e.b.runsOn false true (scopeOf x.sc))
      ∧ (n < c.nextBatch → (∀ b, c.timeline < b → b ≤ n → settled b) → ∀ o w, o ∈ c.ops → 0 < o.batch → o.batch ≤ n → o.susp = some w →
          (∀ p ∈ c.ops, p ≠ o → 0 < p.batch → p.batch ≤ n → p.susp ≠ none → o.batch < p.batch ∨ o.batch = p.batch ∧ o.pos < p.pos) →
          exec (.cwait x) s = .next (takeTrap s e w.cause { e.info w.cause with
            pc := o.pc, addr := w.addr, inner := w.inner, opnum := o.batch, oppos := o.pos, opkind := 1, conflict := w.who,
            onResume := .copyOp o.batch o.pos })))
  ∧ (∀ x s e k, Issues (.tlwait x) s e → IsWaitLane e k →
    let c := s.counter e.l.fn (some e.l) ((e.t.seat k).rd x.a.val).toNat
    (c = none → exec (.tlwait x) s = .next (takeTrap s e 0x86#8 (e.info 0x86#8)))
    ∧ ∀ v, c = some v →
        (v < ((e.t.seat k).rd2 x.b.val).toNat → exec (.tlwait x) s = .next (s.putTeam e (waiting e e.t)))
        ∧ (((e.t.seat k).rd2 x.b.val).toNat ≤ v → s.Inv → FencesOn (.tlwait x) s e false true (if x.sys then .sys else .dev)))
  ∧ (∀ x s e k, Issues (.mwait x) s e → IsWaitLane e k →
      let n := ((e.t.seat k).rd2 x.a.val).toNat
      (e.t.hearth.nextNum ≤ n → exec (.mwait x) s = .next (takeTrap s e 0x03#8 (e.info 0x03#8)))
      ∧ (n < e.t.hearth.nextNum → HearthWaits (.mwait x) s e n x.sc))
  ∧ (∀ sc s e, Issues (.mwaitAll sc) s e → e.active ≠ [] → HearthWaits (.mwaitAll sc) s e (e.t.hearth.nextNum - 1) sc)
  ∧ (∀ (s : State) fn l tid, tid / 2 ^ 28 = 2 → s.counter fn l tid = (s.func fn).map fun f => f.stream.timeline)
  ∧ (∀ (s : State) fn l tid q, tid / 2 ^ 28 = 1 → s.queue (tid % 2 ^ 28) = some q →
      s.counter fn l tid = if q.bulk = true ∧ q.fn = fn then some q.timeline else none)
  ∧ (∀ (s : State) fn (l : Launch) tid b, tid / 2 ^ 28 = 3 → tid % 2 ^ 28 < l.nblk → l.block (tid % 2 ^ 28) = some b →
      s.counter fn (some l) tid = some b.solve.timeline)
  ∧ (∀ (s : State) fn (l : Launch) tid, let b := tid % 2 ^ 28
      tid / 2 ^ 28 = 3 → (l.nblk ≤ b → s.counter fn (some l) tid = none)
      ∧ (b < l.nblk → l.block b = none → (∀ p, l.finals.find? (fun p => p.1 == b) = some p → s.counter fn (some l) tid = some p.2)
          ∧ ((∀ p ∈ l.finals, p.1 ≠ b) → l.nextB ≤ b → s.counter fn (some l) tid = some 0)))
  ∧ ∀ (s : State) fn l tid, tid / 2 ^ 28 = 0 ∨ 4 ≤ tid / 2 ^ 28 → s.counter fn l tid = none

/-- R248, R254, R255: SHLD fills a shape register from the 64 bytes at its address, SHST stores the 64 bytes of one, SHSET replaces
one field and no other bit; each through the elected lane, and no lane's registers change; an address of SHLD or SHST that is not
aligned to 64 bytes raises 0x23, whatever else is wrong with it. -/
def Obligations.ShapeRegisters : Prop :=
  (∀ i x s e k, (i = .shld x ∨ i = .shst x) → Issues i s e → Elected e x.g k →
    (formed .global (e.t.seat k) x.b x.ofs).toNat % 64 ≠ 0 →
    exec i s = .next (takeTrap s e 0x23#8 { e.info 0x23#8 with
      addr := formed .global (e.t.seat k) x.b x.ofs, mask := maskOf [k] })) ∧
  (∀ x s e k a tr s1, Issues (.shld x) s e → Elected e x.g k →
    Granted s e .global 64 .load .plainLoad [(k, formed .global (e.t.seat k) x.b x.ofs)] [a] s1 → a.tr = some tr →
    let v := BitVec.ofNat 512 (leNat (s1.globalRead e.l e.b.runsOn tr 64 false).2)
    ∃ t, exec (.shld x) s = .next t
      ∧ teamAt t e = some { e.t with frags := onward e, shapes := e.t.shapes.set x.sh.val v }
      ∧ t.mem = (s1.globalRead e.l e.b.runsOn tr 64 false).1.mem)
  ∧ (∀ x s e k a tr s1, Issues (.shst x) s e → Elected e x.g k →
      Granted s e .global 64 .store .plainStore [(k, formed .global (e.t.seat k) x.b x.ofs)] [a] s1 → a.tr = some tr → s1.Inv →
      ∃ t, exec (.shst x) s = .next t ∧ teamAt t e = some (e.goto e.t e.cur.fall)
        ∧ (Undisturbed s1 e.b.runsOn tr → ∀ pa, pa < tr.pa ∨ tr.pa + 64 ≤ pa →
            t.coherentRead e.b.runsOn pa 1 = s1.coherentRead e.b.runsOn pa 1)
        ∧ (tr.attrs.checked = false → isPeer tr.pa = false → tr.pa % 64 = 0 → a.at_ = tr.pa → ∀ j, j < 64 →
            t.coherentRead e.b.runsOn (tr.pa + j) 1 = [(e.t.shapes.getD x.sh.val 0).extractLsb' (8 * j) 8]))
  ∧ (∀ x s e k, Issues (.shset x) s e → Elected e x.g k → ∃ v : BitVec 512,
      exec (.shset x) s = .next (s.putTeam e { e.t with frags := onward e, shapes := e.t.shapes.set x.sh.val v })
      ∧ ∀ b, b < 512 → v.getLsbD b =
          let (lo, w) := match x.f with
            | .base => (0, 64)
            | .fmt => (64, 8)
            | .lvl => (72, 4)
            | .flags => (76, 4)
            | .ext d => (80 + 64 * d.val, 24)
            | .str d => (104 + 64 * d.val, 40)
            | .grp => (336, 16)
            | .halo => (352, 16)
            | .anch => (368, 8)
            | .spn => (376, 8)
            | .sbase => (384, 64)
            | .mbase => (448, 64)
          if lo ≤ b ∧ b < lo + w then
            (if 32 < w then ((e.t.seat k).rd2 x.a.val).getLsbD (b - lo) else ((e.t.seat k).rd x.a.val).getLsbD (b - lo))
          else (e.t.shapes.getD x.sh.val 0).getLsbD b)
  ∧ ∀ i g s e, ((∃ x, i = .shld x ∧ g = x.g) ∨ (∃ x, i = .shst x ∧ g = x.g) ∨ ∃ x, i = .shset x ∧ g = x.g) → Issues i s e →
      e.workers g = [] →
      exec i s = .next (if e.enabled g = [] then s.putTeam e (e.goto e.t e.cur.fall) else takeTrap s e 0x03#8 (e.info 0x03#8))

namespace Sys2Proof.Claims
open Sys2Proof.Machine

/-- Nothing of a team's shapes holds it back: one that uses a slot names none that is blocked (R339, R349). -/
def Unblocked (s : State) (e : TEnv) (uses : Bool) (xs : List (BitVec 512)) : Prop :=
  uses = true → ∀ x ∈ xs, s.shapeBlocked e.l.asid x = false

/-- The shapes of a team's instruction pass the checks of R249, and nothing of them holds it back. -/
structure ShapesPass (s : State) (e : TEnv) (uses : Bool) (xs : List (BitVec 512)) : Prop where
  free : Unblocked s e uses xs
  sound : s.shapesCause e.l.fn e.l.asid xs = none

/-- Shapes that do not pass raise the first cause among them (R249). -/
def ShapesTrap (i : Instr) (s : State) (e : TEnv) (uses : Bool) (xs : List (BitVec 512)) : Prop :=
  ∀ c, Unblocked s e uses xs → s.shapesCause e.l.fn e.l.asid xs = some c → exec i s = .next (takeTrap s e c (e.info c))

/-- The copy i of the shape A to the shape D (R256, R258 to R263): own is what its form asks of them, and o the copy that joins
the pending set. -/
def Copies (i : Instr) (g : Guard) (d a : ShReg) (form xbits : Nat) (bo : Option VReg) (own : BitVec 512 → BitVec 512 → Prop) : Prop :=
  ∀ s e k, Issues i s e → Elected e g k → let src := e.t.shape a; let dst := e.t.shape d
    let size (x : BitVec 512) : Nat := elemBytes x ((s.shapeBinding e.l.asid x).map Binding.ct)
    let pending := e.t.copy.ops.filter fun o => o.batch == 0
    let uses := form != 2
    ShapesTrap i s e uses [src, dst]
    ∧ (ShapesPass s e uses [src, dst] → ¬(shLvl src ≠ 1 ∧ shLvl dst ≠ 1 ∧ own src dst) →
        exec i s = .next (takeTrap s e 0x83#8 (e.info 0x83#8)))
    ∧ (ShapesPass s e uses [src, dst] → shLvl src ≠ 1 → shLvl dst ≠ 1 → own src dst →
        (∀ v, spanCause e.l src (size src) = some v → exec i s = .next (trapsAt s e v))
        ∧ (spanCause e.l src (size src) = none → ∀ v, spanCause e.l dst (size dst) = some v → exec i s = .next (trapsAt s e v)))
    ∧ (ShapesPass s e uses [src, dst] → shLvl src ≠ 1 → shLvl dst ≠ 1 → own src dst →
        spanCause e.l src (size src) = none → spanCause e.l dst (size dst) = none →
        (64 ≤ pending.length → exec i s = .next (takeTrap s e 0x85#8 (e.info 0x85#8)))
        ∧ (pending.length < 64 → s.Inv → ∃ t o, exec i s = .next t
            ∧ teamAt t e = some { e.t with frags := onward e, copy := { e.t.copy with ops := e.t.copy.ops ++ [o] } }
            ∧ Fenced s t e.b.runsOn true false .clu ∧ t.marks = s.marks
            ∧ o.batch = 0 ∧ (∀ p ∈ pending, p.pos < o.pos) ∧ (o.pos = 0 ∨ ∃ p ∈ pending, p.pos + 1 = o.pos)
            ∧ o.form = form ∧ o.xbits = xbits
            ∧ o.src = src ∧ o.dst = dst ∧ o.bo = bo.map (fun r => (e.t.seat k).rd2 r.val) ∧ o.pc = e.cur.pc
            ∧ o.progress = 0 ∧ o.susp = none ∧ o.done = false ∧ o.flags = 0))

/-- Equal extents in every dimension. -/
def ExtEq (a d : BitVec 512) : Prop := ∀ k, k < 4 → shExt a k = shExt d k

/-- The Hearth operation i is posted (R321, R330): it takes the next number, which a pair receives where the instruction names
one, after a release at .clu; it waits while 64 operations of the team are not complete or, for one that needs a quadrant, while
the cluster's table of 32 is full. -/
def Posts (i : Instr) (s : State) (e : TEnv) (k : Nat) (kind : HKind) (num : Option VReg) (ok : HOp → Prop) : Prop :=
  let full : Prop := 64 ≤ e.t.hearth.ops.length
    ∨ kind ≠ .mopen ∧ kind ≠ .mclose ∧ 32 ≤ s.entries e.b.runsOn.die e.b.runsOn.cluster
  (full → exec i s = .next (s.putTeam e (waiting e e.t)))
  ∧ (¬full → s.Inv → ∃ t u o, exec i s = .next t ∧ teamAt t e = some u
      ∧ u = { e.t with seats := u.seats, frags := onward e, sb := u.sb, hearth := { e.t.hearth with
              ops := e.t.hearth.ops ++ [o], nextNum := e.t.hearth.nextNum + 1 } }
      ∧ (∀ j, 0 < j → j < 4 → u.sb.getLsbD j = ((e.t.pend.any fun p => p.sb == j) || u.hearth.ops.any fun p => p.sb == j))
      ∧ (∀ j, u.seat j = match num with
          | some r => if j ∈ e.active then (e.t.seat j).wr2 r.val (BitVec.ofNat 64 e.t.hearth.nextNum) else e.t.seat j
          | none => e.t.seat j)
      ∧ o.num = e.t.hearth.nextNum ∧ o.kind = kind ∧ o.word = e.cur.word ∧ o.pc = e.cur.pc ∧ o.sweep = k / 32 ∧ o.passes = 0
      ∧ o.granted = false ∧ o.susp = none ∧ o.waiting = decide (kind ≠ .mopen ∧ kind ≠ .mclose) ∧ ok o
      ∧ Fenced s t e.b.runsOn true false .clu)

/-- A C shape of R331. -/
def CShape (x : BitVec 512) : Prop :=
  shFmt x = 7 ∧ shLvl x = 0 ∧ (shExt x 0 = 16 ∨ shExt x 0 = 32) ∧ shExt x 1 = 16 ∧ shExt x 2 = 1 ∧ shExt x 3 = 1
    ∧ shGrp x = 0 ∧ shSpn x = 0

/-- MOPEN or MCLOSE (R331). -/
def OpensOrCloses (i : Instr) (g : Guard) (c : ShReg) (num : Option VReg) (kind : HKind) : Prop :=
  ∀ s e k, Issues i s e → Elected e g k → ShapesTrap i s e false [e.t.shape c] ∧ (ShapesPass s e false [e.t.shape c] →
    (¬CShape (e.t.shape c) → exec i s = .next (takeTrap s e 0x83#8 (e.info 0x83#8)))
    ∧ (CShape (e.t.shape c) → Posts i s e k kind num fun o => o.cSh = e.t.shape c ∧ o.bind = none))

/-- MMA or MDIST (R332, R333). -/
def Multiplies (i : Instr) (x : MmaOp) (kind : HKind) : Prop :=
  ∀ s e k, Issues i s e → Elected e x.g k → let c := e.t.shape x.c; let b := e.t.shape x.b; let a := x.sa.map e.t.shape
    (∀ j, x.fm = .slot j → s.slotBlocked e.l.asid j.val = false) →
    (∀ v, mmaCheck s e x c b a = .error v → exec i s = .next (trapsAt s e v))
    ∧ ∀ r, mmaCheck s e x c b a = .ok r →
        ((∃ p ∈ e.t.pend, meets p.reg p.count x.a.val ((x.np.val + 1) * r) = true) → exec i s = .next (s.putTeam e (waiting e e.t)))
        ∧ ((∀ p ∈ e.t.pend, meets p.reg p.count x.a.val ((x.np.val + 1) * r) = false) → Posts i s e k kind none fun o =>
            o.cSh = c ∧ o.bSh = b ∧ o.aSh = a.getD 0 ∧ o.reg = x.a.val ∧ o.rpp = r ∧ o.np = x.np.val + 1)

/-- The team of e with a step of a tile instruction done and others to come: it issues nothing else until they are (R289, R293). -/
def stepped (e : TEnv) (t : Team) : Team :=
  { t with qprog := e.t.qprog + 1, frags := t.frags.modify e.fi fun f =>
      { f with stalled := false, holds := true, since := 0, lift := .none } }

/-- A tile instruction on the shapes that its registers name (R290 to R293): a turn performs the step that QPROG counts. -/
def Tiles (i : Instr) (uses : Bool) (g : Guard) (rs : List ShReg) (own : (ShReg → BitVec 512) → Prop)
    (spans : State → TEnv → List (Option CauseAt)) (steps : State → TEnv → Nat → List TStep) : Prop :=
  ∀ s e k, Issues i s e → Elected e g k → ShapesTrap i s e uses (rs.map e.t.shape) ∧ (ShapesPass s e uses (rs.map e.t.shape) →
    (¬((∀ r ∈ rs, shLvl (e.t.shape r) ≠ 1) ∧ own e.t.shape) → exec i s = .next (takeTrap s e 0x83#8 (e.info 0x83#8)))
    ∧ ((∀ r ∈ rs, shLvl (e.t.shape r) ≠ 1) → own e.t.shape →
        (∀ pre v post, spans s e = pre ++ some v :: post → (∀ c ∈ pre, c = none) → exec i s = .next (trapsAt s e v))
        ∧ ((∀ c ∈ spans s e, c = none) →
          let todo := (steps s e k).drop e.t.qprog.toNat
          (todo = [] → exec i s = .next (s.putTeam e (e.goto { e.t with qprog := 0 } e.cur.fall)))
          ∧ (∀ st rest s1 fl, todo = st :: rest → runStep s e k st = .done s1 fl →
              let t := { e.t with asf := e.t.asf ||| fl.zeroExtend 32 }
              exec i s = .next (s1.putTeam e (if rest = [] then e.goto { t with qprog := 0 } e.cur.fall else stepped e t)))
          ∧ (∀ st rest s1, todo = st :: rest → runStep s e k st = .wait s1 → exec i s = .next (s1.putTeam e (holding e e.t)))
          ∧ (∀ st rest y, todo = st :: rest → runStep s e k st = .bad y →
              exec i s = .next (takeTrap (s.noteErr y.err) e y.err.cause { e.info y.err.cause with
                addr := BitVec.ofNat 64 y.at_, inner := y.inner, conflict := y.who
                mask := maskOf (if y.who ≠ none ∨ (0x20#8 ≤ y.err.cause ∧ y.err.cause ≤ 0x28#8) then [k] else e.active) })))))

/-- A float format of R248 without scales. -/
def FloatTile (x : BitVec 512) : Prop := (shFmt x = 5 ∨ shFmt x = 6 ∨ shFmt x = 7) ∧ shGrp x = 0

/-- The container in force for a shape. -/
def ctOf (s : State) (e : TEnv) (x : BitVec 512) : SlotCt := (s.shapeBinding e.l.asid x).map Binding.ct

/-- The span of a tile, and of a scale table, that a tile instruction checks (R291). -/
def tileSpan (s : State) (e : TEnv) (x : BitVec 512) : Option CauseAt := spanCause e.l x (elemBytes x (ctOf s e x))

/-- XCVT where its slot is bound and its container lies in the register (R300): f and fl per lane for the container. -/
def Xcvts (i : Instr) (x : XcvtOp) (f : Container → Seat → Seat) (fl : Container → Seat → BitVec 7) : Prop :=
  ∀ s e, Issues i s e → s.slotBlocked e.l.asid x.k.val = false →
    (s.boundTo e.l.asid x.k.val = none → exec i s = .next (takeTrap s e 0x84#8 (e.info 0x84#8)))
    ∧ ∀ b, s.boundTo e.l.asid x.k.val = some b →
        let fits : Prop := b.ct.cb = 1 ∨ (b.ct.cb = 2 ∧ x.sel.val < 2) ∨ (b.ct.cb ≠ 1 ∧ b.ct.cb ≠ 2 ∧ x.sel.val = 0)
        (¬fits → exec i s = .next (takeTrap s e 0x03#8 (e.info 0x03#8)))
        ∧ (fits → ∃ u, exec i s = .next (s.putTeam e (e.goto u e.cur.fall)) ∧ LaneEffect e x.g (fun _ => f b.ct) (fl b.ct) u)

/-- The scale of a lane: bits [15:0] of its register, or the code of 1 (R300). -/
def scaleOf (y : Seat) (r : Option VReg) : Nat := match r with
  | some b => (y.rd b.val).toNat % 65536
  | none => 0x3F80

/-- The number that an S16 code stands for (R287). -/
def s16Value (c : Nat) : Option Rat := (s16 c).map fun p => (p.1 : Rat) * (2 : Rat) ^ p.2

end Sys2Proof.Claims

/-! ### Engines -/

/-- R256, R259 to R263, R276: CPY, CPY.HALO and CPY.RED check their shapes, then join the team's pending set of at most 64 copies
after a release at .clu; nothing moves at issue, and nothing of a trapping copy is left. -/
def Obligations.CopyIssue : Prop :=
  let bit (bo : Option VReg) : Nat := if bo = none then 0 else 2
  (∀ x, Copies (.cpy x) x.g x.d x.a 0 (bit x.bo + if x.cv then 1 else 0) x.bo fun a d =>
    ExtEq a d ∧ if x.cv then cvOk a d = true else shFmt a = shFmt d)
  ∧ (∀ x, Copies (.cpyHalo x) x.g x.d x.a 1 (x.hd.val * 4 + bit x.bo) x.bo fun a d => shFmt a = shFmt d ∧ shLvl a = 2 ∧ shLvl d = 2
      ∧ shHaloLo a x.hd.val ≤ shExt a x.hd.val ∧ shHaloHi a x.hd.val ≤ shExt a x.hd.val
      ∧ ∀ k, k < 4 → shExt d k = if k = x.hd.val then shHaloLo a k + shExt a k + shHaloHi a k else shExt a k)
  ∧ ∀ x, Copies (.cpyRed x) x.g x.d x.a 2 (bit x.bo) x.bo fun a d => CShape d ∧ (shFmt a = 5 ∨ shFmt a = 6 ∨ shFmt a = 7 ∨ shFmt a = 8)
      ∧ ExtEq a d

/-- R321, R330, R331, R333, R334: MOPEN, MCLOSE, MMA, MDIST and MTOPK check their shapes (MMA and MDIST wait while the slot of FM is blocked), take the next number of the Hearth timeline
and are posted after a release at .clu; the operation's work comes later. -/
def Obligations.HearthIssue : Prop :=
  (∀ x, OpensOrCloses (.mopen x) x.g x.c x.num .mopen) ∧ (∀ x, OpensOrCloses (.mclose x) x.g x.c x.num .mclose)
  ∧ (∀ x, Multiplies (.mma x) x .mma) ∧ (∀ x, Multiplies (.mdist x) x .mdist)
  ∧ (∀ i x s e j, (i = .mma x ∨ i = .mdist x) → Issues i s e → e.workers x.g ≠ [] → x.fm = .slot j →
      s.slotBlocked e.l.asid j.val = true → exec i s = .next (s.putTeam e (waiting e e.t)))
  ∧ ∀ x s e k, Issues (.mtopk x) s e → Elected e x.g k →
      ShapesTrap (.mtopk x) s e false [e.t.shape x.a] ∧ (ShapesPass s e false [e.t.shape x.a] →
      let y := e.t.shape x.a
      let ok : Prop := shFmt y = 7 ∧ shLvl y ≠ 1 ∧ shExt y 1 = 16 ∧ shExt y 0 ≤ 65536 ∧ shExt y 2 = 1 ∧ shExt y 3 = 1 ∧ shGrp y = 0
        ∧ shSpn y = 0
      (¬ok → exec (.mtopk x) s = .next (takeTrap s e 0x83#8 (e.info 0x83#8)))
      ∧ (ok → ∀ c, spanCause e.l y 4 = some c → exec (.mtopk x) s = .next (trapsAt s e c))
      ∧ (ok → spanCause e.l y 4 = none → Posts (.mtopk x) s e k .mtopk none fun o =>
          o.cSh = y ∧ o.base = (e.t.seat k).rd x.b.val ∧ o.reg = x.d.val ∧ o.np = x.k.val + 1))

/-- R290 to R293, R295 to R299: QSCAN, QROT, QSMOOTH and QCVT check their shapes (0x83 where their own conditions fail), and their
spans shape by shape, each tile before its scale table; a turn performs the step that QPROG counts and ORs its flags into %asf: the
last completes the instruction with QPROG 0, and until then the team issues nothing else; a step that fails traps with the cause of
its lowest failing address. The scale that QSCAN chooses for finite values bounds them: none leaves the slot's range once divided by it,
where no flag is raised. -/
def Obligations.TileInstructions : Prop :=
  (∀ x, Tiles (.qscan x) true x.g [x.a, x.d]
    (fun sh => FloatTile (sh x.a) ∧ shSlot (sh x.d) = some x.k.val ∧ shGrp (sh x.d) ≠ 0 ∧ ExtEq (sh x.a) (sh x.d))
    (fun s e => [tileSpan s e (e.t.shape x.a), scaleSpanCause e.l (e.t.shape x.d)])
    fun s e _ => scanSteps (e.t.shape x.a) (e.t.shape x.d) (ctOf s e (e.t.shape x.d)))
  ∧ (∀ x, let n := match x.gs with
        | .g32 => 32
        | .g64 => 64
        | .g128 => 128
      Tiles (.qrot x) false x.g [x.a, x.d]
        (fun sh => shFmt (sh x.a) = 7 ∧ shGrp (sh x.a) = 0 ∧ shFmt (sh x.d) = 7 ∧ shGrp (sh x.d) = 0 ∧ ExtEq (sh x.a) (sh x.d)
          ∧ shExt (sh x.a) 0 % n = 0)
        (fun s e => [tileSpan s e (e.t.shape x.a), tileSpan s e (e.t.shape x.d)])
        fun _ e k => rotSteps (e.t.shape x.a) (e.t.shape x.d) n (match x.gs with
          | .g32 => ((e.t.seat k).rd x.b.val).toNat
          | .g64 => ((e.t.seat k).rd2 x.b.val).toNat
          | .g128 => ((e.t.seat k).rd4 x.b.val).toNat))
  ∧ (∀ x, Tiles (.qsmooth x) false x.g [x.a, x.d, x.b]
      (fun sh => (∀ r ∈ [x.a, x.d, x.b], shFmt (sh r) = 7 ∧ shGrp (sh r) = 0) ∧ ExtEq (sh x.a) (sh x.d)
        ∧ shExt (sh x.b) 0 = shExt (sh x.a) 0 ∧ ∀ k, 1 ≤ k → k < 4 → shExt (sh x.b) k = 1)
      (fun s e => [tileSpan s e (e.t.shape x.a), tileSpan s e (e.t.shape x.d), tileSpan s e (e.t.shape x.b)])
      fun _ e _ => smoothSteps (e.t.shape x.a) (e.t.shape x.b) (e.t.shape x.d))
  ∧ (∀ x, Tiles (.qcvt x) true x.g [x.a, x.d]
      (fun sh => ExtEq (sh x.a) (sh x.d) ∧ (FloatTile (sh x.a) ∧ shSlot (sh x.d) = some x.k.val
        ∨ shSlot (sh x.a) = some x.k.val ∧ FloatTile (sh x.d)))
      (fun s e => [e.t.shape x.a, e.t.shape x.d].flatMap fun y =>
        [tileSpan s e y, if shSlot y = none ∨ shGrp y = 0 then none else scaleSpanCause e.l y])
      fun s e _ => cvtSteps (e.t.shape x.a) (e.t.shape x.d) (ctOf s e))
  ∧ ∀ f ∈ [fmtF16, fmtBf16, fmtF32], ∀ (hi lo : Int) (xs : List Nat), (∀ x ∈ xs, (number (f.unpack x)).isSome) →
    (scanGroup hi lo (xs.map f.unpack)).2 = 0 → ∃ v, s16Value (scanGroup hi lo (xs.map f.unpack)).1 = some v
      ∧ ∀ x ∈ xs, ∀ q, number (f.unpack x) = some q →
          (0 < q → 0 < hi → q ≤ v * (hi * (2 : Rat) ^ (-79 : Int))) ∧ (q < 0 → lo < 0 → v * (lo * (2 : Rat) ^ (-79 : Int)) ≤ q)

/-- R284, R286, R287, R300, R342: XCVT: where it traps, what it writes, and what encoding and decoding give: the code of a NaN, zero
and infinity, the nearest candidate under RND 0 within the range, and the rounded product of value and scale. -/
def Obligations.SlotConversions : Prop :=
  (∀ x, ∃ f : Container → Seat → Seat, Xcvts (.xcvtEncode x) x f
      (fun c y => (c.encode ((fmtOf x.ft).unpack (low x.ft y x.a)) (scaleOf y x.scl)).2)
    ∧ ∀ c y, ∃ v, f c y = y.wr x.d.val v ∧ ∀ b, b < 32 → v.getLsbD b =
        if 8 * c.cb * x.sel.val ≤ b ∧ b < 8 * c.cb * (x.sel.val + 1) then
          ((c.encode ((fmtOf x.ft).unpack (low x.ft y x.a)) (scaleOf y x.scl)).1 % 2 ^ c.ew).testBit (b - 8 * c.cb * x.sel.val)
        else (y.rd x.d.val).getLsbD b)
  ∧ (∀ x, Xcvts (.xcvtDecode x) x
      (fun c y => y.wr x.d.val (BitVec.ofNat 32
        (c.decodeTo ((y.rd x.a.val).toNat / 2 ^ (8 * c.cb * x.sel.val) % 2 ^ (8 * c.cb)) (scaleOf y x.scl) (fmtOf x.ft)).1))
      fun c y => (c.decodeTo ((y.rd x.a.val).toNat / 2 ^ (8 * c.cb * x.sel.val) % 2 ^ (8 * c.cb)) (scaleOf y x.scl) (fmtOf x.ft)).2)
  ∧ (∀ (c : Container) v sc, (∀ g, v = .nan g → c.encode v sc = (c.enc 4 4, if g then 1 else 0))
      ∧ (v.isNan = false → s16 sc = none → c.encode v sc = (c.enc 4 4, 0)))
  ∧ (∀ (c : Container) s m e sc a x, c.enc 0 1 = 0 → m ≠ 0 → number (.fin s m e) = some a → s16Value sc = some x → x ≠ 0 → 
      let unit : Rat := (2 : Rat) ^ (-79 : Int)
      (∃ y ∈ c.candidates, y.2 * unit ≤ a / x) → (∃ y ∈ c.candidates, a / x ≤ y.2 * unit) →
      ∃ b ∈ c.candidates, (c.encode (.fin s m e) sc).1 = (if b.2 = 0 then c.zeroCode s else b.1)
        ∧ ∀ y ∈ c.candidates, (b.2 * unit - a / x).abs ≤ (y.2 * unit - a / x).abs)
  ∧ ∀ f ∈ [fmtF16, fmtBf16, fmtF32], ∀ (c : Container) code sc x, s16Value sc = some x →
      (∀ a, number (c.decode code) = some a → a * x ≠ 0 → RoundsTo f .rn false (.rat (a * x)) (c.decodeTo code sc f))
      ∧ (∀ a, number (c.decode code) = some a → a * x = 0 → c.decodeTo code sc f = (0, 0))
      ∧ (∀ s, c.decode code = .inf s → x ≠ 0 → c.decodeTo code sc f = (f.infinity s, 0))
      ∧ ((c.decode code).isNan = true → c.decodeTo code sc f = (f.cnan, 0))

namespace Sys2Proof.Claims
open Sys2Proof.Machine

/-- A team's record that waits for the service ring (R380, R385, R386): the agent, and how it goes on once resumed. -/
def Recorded (s t : State) (l : Launch) (a : AgentId) (kind : Nat) (c : Cause) (len : Nat) (body : List Byte) (pc : DWord)
    (low : Nat) (r : ResumeTo) : Prop :=
  t.records = s.records ++ [⟨s.nextKey, l.id, a, kind, c, len, body, pc, low, r, none⟩] ∧ t.nextKey = s.nextKey + 1

/-- The team of e has parked whole with a record (R380, R382): its fragments, predicates, %asf and every register but those
that pending loads have reached stand as they stood. -/
def ParkedTeam (s t : State) (e : TEnv) : Prop :=
  teamAt t e = some { e.t.drain with
    parked := some s.nextKey
    stop := e.l.dstop || e.t.stop
    stepping := false
    stepDone := false
    capDue := if e.l.dstop then none else e.t.capDue }

/-- The core u stands still while a record of it is not written: none of its teams may issue but in a chain that is open (R382). -/
def CoreStands (t : State) (u : Unit3) : Prop := ∀ b tm, b.runsOn = u → t.teamOn b tm = true → tm.chained = true

/-- The launch has been ended: LERR holds its number, the cause and the reason with V set (R390, R392, R393). -/
def EndedBy (s t : State) (l : Launch) (c : Cause) (reason : Nat) : Prop :=
  (∃ m, t.launch l.id = some m ∧ m.st = .ended) ∧ (∀ r ∈ t.records, r ∈ s.records)
    ∧ ∀ f, s.func l.fn = some f → l.id < 2 ^ 32 → reason < 256 → ∃ g, t.func l.fn = some g
        ∧ g.lerr.extractLsb' 32 32 = BitVec.ofNat 32 l.id ∧ g.lerr.extractLsb' 16 8 = c
        ∧ g.lerr.extractLsb' 8 8 = BitVec.ofNat 8 reason ∧ g.lerr.getLsbD 0 = true

/-- The executor of a capsule in a team: the holder stands at index x of the frame of the object o, its lock is held and the frame
valid, and s3 with the registers c is what the pending COMMIT k leaves once it has been applied again (R437, R438, R449). -/
structure Holding (s : State) (e : TEnv) (o : CapObj) (x : Nat) (k : Commit) (s3 : State) (c : List DWord) : Prop where
  reached : ∃ s1 s2, openObj s e (e.t.creg.getD 15 0) stepUnits = .ok s1 o
    ∧ s2 = reclaim s1 o (bitsAt (e.t.creg.getD 14 0) 0 32) false
    ∧ holds (o.get s2 0 8) (bitsAt (e.t.creg.getD 14 0) 0 32) false = true
    ∧ x = (e.cur.pc.toNat - o.get s1 0x20 8) / 8 ∧ x + 1 ≠ o.get s2 0x32 1 ∧ frameOk o s2 = true
    ∧ k = o.commit s2 ∧ applyWhole s2 e o e.t.creg k = .ok s3 c
  more : k.step ≠ 256

/-- The step forms of a capsule (R446). -/
def StepForm (i : Instr) : Prop :=
  (∃ x, i = .capld x) ∨ (∃ x, i = .capst x) ∨ (∃ x, i = .capcas x) ∨ (∃ x, i = .capop x) ∨ ∃ x, i = .capbr x

/-- The COMMIT that a step computes: one step more, the next index, its KIND and datum (R434, R446). -/
def Commits (k : Commit) (step npc kind : Nat) (hit : Bool) (reg areg value : Nat) : Prop :=
  k.step = (step + 1) % 512 ∧ k.npc = npc % 64 ∧ k.kind = kind ∧ k.s = hit ∧ k.reg = reg ∧ k.areg = areg ∧ k.value = value

/-- The team has left its capsule with a result and a status, at the address after the CAPEXIT (R444). -/
def LeftCapsule (t : State) (e : TEnv) (r status : DWord) : Prop :=
  teamAt t e = some { e.t with frags := (e.goto e.t (e.cur.pc + 8)).frags, creg := [r, status] ++ List.replicate 14 0, inCap := false }

/-- The solve context of the block of e in a state. -/
def solveAt (s : State) (e : TEnv) : Option Solve := ((s.launch e.l.id).bind fun l => l.block e.b.id).map Block.solve

/-- The shape registers named by a solve form. -/
def namedTiles : SolveTiles → List ShReg
  | .one a => [a]
  | .two a b => [a, b]
  | .three a b c => [a, b, c]
  | .four a b c d => [a, b, c, d]

/-- A team has arrived and waits in the solve region; its region of marks goes on (R223, R457). -/
def SolveArrived (s t : State) (e : TEnv) (w : SolveWait) : Prop :=
  teamAt t e = some { waiting e e.t with solve := w } ∧ Fenced s t e.b.runsOn true false .clu ∧ t.marks = s.marks

/-- A team has left the solve region at an address with an acquire; its region of marks goes on (R223, R458). -/
def SolveLeft (s t : State) (e : TEnv) (pc : DWord) : Prop :=
  teamAt t e = some { e.t with frags := (e.goto e.t pc).frags, solve := .none } ∧ Fenced s t e.b.runsOn false true .clu ∧ t.marks = s.marks

end Sys2Proof.Claims

/-! ### Capsules -/

/-- R442 to R445: CAPENTER on an object that is free enters the capsule, on one that is held waits, on one that is broken raises
0xA2, on one that is adoptable begins the adoption; CAPEXIT ends the holder's run with status 1 and hands a displaced holder the
result of its delivery slot with status 2; CAPRES writes c0 and c1 to its quadruple in every active lane. -/
def Obligations.CapsuleControl : Prop :=
  (∀ x s e k s1 o, Issues (.capenter x) s e → e.t.frags.length = 1 → Elected e always k →
    openObj s e ((e.t.seat k).rd2 x.b.val) (List.range 17) = .ok s1 o → capRegionOk e.l e.cur.pc (x.len.val + 1) = true → e.t.adopt = none →
    let w := o.get s1 0 8
    let entry : List DWord := [(e.t.seat k).rd2 x.a.val, (e.t.seat k).rd2 (x.a.val + 2)] ++ List.replicate 12 0
      ++ [BitVec.ofNat 64 ((lkEpoch w + 1) % 2 ^ 32), o.va]
    (lkBroken w = true → exec (.capenter x) s = .next (takeTrap s e 0xA2#8 (e.info 0xA2#8)))
    ∧ (lkBroken w = false → lkHeld w = false → ∃ t, exec (.capenter x) s = .next t
        ∧ teamAt t e = some { e.t with frags := (e.goto e.t (e.cur.pc + 8)).frags, inCap := true, adopt := none, creg := entry }
        ∧ (o.va.toNat % 4096 + 272 ≤ 4096 → s1.Inv →
            o.get t 0 8 = (lkEpoch w + 1) % 2 ^ 32 * 2 ^ 32 + 1 ∧ o.get t 0x10 8 = (lkEpoch w + 1) % 2 ^ 32 * 2 ^ 32
            ∧ o.get t 0x20 8 = (e.cur.pc + 8).toNat ∧ o.get t 0x31 1 = 1 ∧ o.get t 0x32 1 = x.len.val + 1
            ∧ o.get t 0x33 1 = 0 ∧ o.get t 0x34 4 = (lkEpoch w + 1) % 2 ^ 32))
    ∧ (lkBroken w = false → lkHeld w = true → lkAdoptable w = false → ∃ t, exec (.capenter x) s = .next t
        ∧ teamAt t e = some (waiting e e.t) ∧ t.mem = s1.mem)
    ∧ (lkBroken w = false → lkHeld w = true → lkAdoptable w = true → frameOk o s1 = true →
        ((o.slotOf s1 (o.get s1 0x34 4)).isSome = true ∨ ∃ j, j < 4 ∧ bits (o.dslot s1 j) 32 1 = 0) →
        ∃ t u, exec (.capenter x) s = .next t ∧ teamAt t e = some u ∧ u.adopt = some ((lkEpoch w + 1) % 2 ^ 32, o.va)
          ∧ u.frags = (stepped e e.t).frags ∧ u.seats = e.t.seats ∧ u.inCap = e.t.inCap))
  ∧ (∀ a s e s1 o, Issues (.capexit a) s e → openObj s e (e.t.creg.getD 15 0) (List.range 17) = .ok s1 o →
      let h := bitsAt (e.t.creg.getD 14 0) 0 32
      let s2 := reclaim s1 o h false
      (∀ s3 c, holds (o.get s2 0 8) h false = true → (e.cur.pc.toNat - o.get s2 0x20 8) / 8 + 1 = o.get s2 0x32 1 →
          frameOk o s2 = true → applyWhole s2 e o e.t.creg (o.commit s2) = .ok s3 c →
          ∃ t, exec (.capexit a) s = .next t ∧ LeftCapsule t e (c.getD a.val 0) 1
            ∧ (o.va.toNat % 4096 + 272 ≤ 4096 → bypass o.lo = false → s3.Inv →
                o.get t 0 8 = h * 2 ^ 32 ∧ o.get t 0x31 1 = 0 ∧ o.get t 0x38 8 = (c.getD a.val 0).toNat))
      ∧ (holds (o.get s2 0 8) h false = true → (e.cur.pc.toNat - o.get s2 0x20 8) / 8 + 1 ≠ o.get s2 0x32 1 →
          ∃ i, exec (.capexit a) s = .next (takeTrap s e 0xA1#8 i))
      ∧ (holds (o.get s2 0 8) h false = false →
          (frameOk o s2 = false ∨ o.slotOf s2 h = none → ∃ i, exec (.capexit a) s = .next (takeTrap s e 0xA2#8 i))
          ∧ ∀ j, frameOk o s2 = true → o.slotOf s2 h = some j →
              (bits (o.dslot s2 j) 33 1 = 0 → exec (.capexit a) s = .next (s2.putTeam e (waiting e e.t)))
              ∧ (bits (o.dslot s2 j) 33 1 = 1 → ∃ t, exec (.capexit a) s = .next t
                  ∧ LeftCapsule t e (BitVec.ofNat 64 (o.get s2 (0xD8 + 16 * j) 8)) 2)))
  ∧ ∀ d, ∃ f : State → TEnv → Nat → Seat → Seat, TeamWrites (.capres d) always (fun _ _ => True) f
      ∧ ∀ s e k y, f s e k y = (y.wr2 d.val (e.t.creg.getD 0 0)).wr2 (d.val + 2) (e.t.creg.getD 1 0)

/-- R434, R438, R446, R447: a step form of the holder computes its COMMIT, writes it to the frame, applies it and goes on at NPC; the
store that the COMMIT calls for performs with it or is due; a computation that fails raises its cause, of an access in the one lane
that makes it; D of c14 or c15 and a branch that leaves the capsule raise 0xA1; and the datum of each form. -/
def Obligations.CapsuleSteps : Prop :=
  (∀ i s e o x k s3 c, StepForm i → Issues i s e → Holding s e o x k s3 c →
    let r := capCompute s3 e i x (o.get s3 0x32 1) c (lkEpoch (o.get s3 0 8)) k.step
    (∀ s4 new s5 c' due, r = .ok s4 new →
      applyCommit (o.put (o.put s4 0x10 8 new.w) 0x18 8 new.value) e o c new = .ok s5 (c', due) →
      ∃ t rest, exec i s = .next t ∧ ((rest = none ∧ t.mem = (s5.performDue due).mem) ∨ (rest = due ∧ t.mem = s5.mem))
        ∧ teamAt t e = some { e.t with
          creg := c', capDue := rest, frags := (e.goto e.t (BitVec.ofNat 64 (o.get t 0x20 8 + 8 * new.npc))).frags })
    ∧ ∀ s4 w, r = .fail s4 w → ∃ t j, exec i s = .next (takeTrap t e w.cause j) ∧ t.mem = s.mem ∧ j.addr = w.addr
        ∧ (w.who.isSome = true ∨ (0x20#8 ≤ w.cause ∧ w.cause ≤ 0x28#8) →
            j.mask = maskOf ((e.workers always ++ e.active).take 1)))
  ∧ (∀ (s : State) e i x len c epoch step, (∃ d, capDest i = some d ∧ 14 ≤ d.val) →
      ∃ w, capCompute s e i x len c epoch step = .fail s w ∧ w.cause = 0xA1#8)
  ∧ (∀ (s : State) e o d a b x len c epoch step, d.val < 14 → ∃ k, capCompute s e (.capop (.bin o d a b)) x len c epoch step = .ok s k
      ∧ (step ≤ 256 → epoch < 2 ^ 32 → Commits k step (x + 1) 1 false d.val 0 (match o with
        | .add => (c.getD a.val 0 + capB c b).toNat
        | .sub => (c.getD a.val 0 - capB c b).toNat
        | .and => (c.getD a.val 0 &&& capB c b).toNat
        | .or => (c.getD a.val 0 ||| capB c b).toNat
        | .xor => (c.getD a.val 0 ^^^ capB c b).toNat
        | .shl => (shiftL (c.getD a.val 0) (capB c b)).toNat
        | .shr => (shiftR (c.getD a.val 0) (capB c b)).toNat
        | .sar => (shiftA (c.getD a.val 0) (capB c b)).toNat)))
  ∧ (∀ (s : State) e d b x len c epoch step, d.val < 14 → ∃ k, capCompute s e (.capop (.mov d b)) x len c epoch step = .ok s k
      ∧ (step ≤ 256 → Commits k step (x + 1) 1 false d.val 0 (capB c b).toNat))
  ∧ (∀ (s : State) e (y : CapldOp) x len c epoch step s4 t, y.d.val < 14 →
      capAccess s e (c.getD y.b.val 0 + BitVec.ofInt 64 y.ofs.toInt) (if y.w64 then 8 else 4) .load .syncRead = .ok s4 t →
      ∃ k, capCompute s e (.capld y) x len c epoch step = .ok s4 k
        ∧ (step ≤ 256 → Commits k step (x + 1) 1 false y.d.val 0 (s4.mem.num t.pa (if y.w64 then 8 else 4))))
  ∧ (∀ (s : State) e (y : CapstOp) x len c epoch step s4 t,
      capAccess s e (c.getD y.b.val 0) (if y.w64 then 8 else 4) .store .syncWrite = .ok s4 t →
      ∃ k, capCompute s e (.capst y) x len c epoch step = .ok s4 k
        ∧ (step ≤ 256 → Commits k step (x + 1) 2 false 0 y.b.val ((c.getD y.a.val 0).toNat % 2 ^ (if y.w64 then 64 else 32))))
  ∧ (∀ (s : State) e (y : CapcasOp) x len c epoch step s4 t, y.d.val < 14 →
      capAccess s e (c.getD y.b.val 0) (if y.w64 then 8 else 4) .store .syncWrite = .ok s4 t →
      ∃ k, capCompute s e (.capcas y) x len c epoch step = .ok s4 k
        ∧ (step ≤ 256 → Commits k step (x + 1) 3
            (decide (s4.mem.num t.pa (if y.w64 then 8 else 4) = (c.getD y.c.val 0).toNat % 2 ^ (if y.w64 then 64 else 32)))
            y.d.val y.b.val (c.getD y.a.val 0).toNat))
  ∧ ∀ (s : State) e (y : CapbrOp) (x len : Nat) (c : List DWord) epoch step,
      let disp : BitVec 8 := match y with
        | .al d => d
        | .cond _ _ _ d => d
      let taken : Prop := match y with
        | .al _ => True
        | .cond k a b _ => match k with
          | .eq => c.getD a.val 0 = c.getD b.val 0
          | .ne => c.getD a.val 0 ≠ c.getD b.val 0
          | .lt => (c.getD a.val 0).toInt < (c.getD b.val 0).toInt
          | .ge => (c.getD b.val 0).toInt ≤ (c.getD a.val 0).toInt
          | .ltu => (c.getD a.val 0).toNat < (c.getD b.val 0).toNat
          | .geu => (c.getD b.val 0).toNat ≤ (c.getD a.val 0).toNat
      let target : Int := x + disp.toInt
      (¬(0 ≤ target ∧ target < len) → ∃ w, capCompute s e (.capbr y) x len c epoch step = .fail s w ∧ w.cause = 0xA1#8)
      ∧ (0 ≤ target → target < len → ∃ k, capCompute s e (.capbr y) x len c epoch step = .ok s k
          ∧ (taken → step ≤ 256 → Commits k step target.toNat 0 false 0 0 0)
          ∧ (¬taken → step ≤ 256 → Commits k step (x + 1) 0 false 0 0 0))

/-! ### Solve regions -/

/-- R454, R457, R458, R468, R469: the solve forms: a team arrives at SOLVE.BEGIN and SOLVE.END with a release and waits, and
leaves with an acquire where the decision sends it; the first arrival activates the context; SOLVE.SET checks and writes one
parameter; SOLVE.STAT reads; the Foyer's SBRA with IMM 0 takes a pending repeat before a pending exit. -/
def Obligations.Solving : Prop :=
  (∀ x s e, Issues (.solveBegin x) s e → e.t.frags.length = 1 → e.t.solve = .exitNow → s.Inv →
    ∃ t, exec (.solveBegin x) s = .next t ∧ SolveLeft s t e e.cur.fall)
  ∧ (∀ x s e, Issues (.solveBegin x) s e → e.t.frags.length = 1 → e.t.solve = .none → s.Inv →
      let xs := (namedTiles x).map e.t.shape
      (∀ c, carriedCause s e xs = some c → exec (.solveBegin x) s = .next (trapsAt s e c))
      ∧ (carriedCause s e xs = none → e.b.solve.state ≠ 1 →
          (e.l.pant < e.b.solve.hbase.toNat + (3 * e.b.solve.depth.toNat + 2) * 4 * carriedCount xs →
            exec (.solveBegin x) s = .next (takeTrap s e 0xA9#8 (e.info 0xA9#8)))
          ∧ (e.b.solve.hbase.toNat + (3 * e.b.solve.depth.toNat + 2) * 4 * carriedCount xs ≤ e.l.pant →
              ∃ t, exec (.solveBegin x) s = .next t ∧ SolveArrived s t e .atBegin
                ∧ solveAt t e = some { e.b.solve with tiles := xs, state := 1, iter := 0, phase := .idle }))
      ∧ (carriedCause s e xs = none → e.b.solve.state = 1 →
          (sameTiles xs e.b.solve.tiles = false → exec (.solveBegin x) s = .next (takeTrap s e 0xAA#8 (e.info 0xAA#8)))
          ∧ (sameTiles xs e.b.solve.tiles = true → (∀ tm ∈ e.b.teams, tm.solve ≠ .atBegin) →
              exec (.solveBegin x) s = .next (s.putTeam e (e.goto e.t e.cur.fall)))))
  ∧ (∀ x s e, Issues (.solveEnd x) s e → e.t.frags.length = 1 → e.t.solve = .exitNow → s.Inv →
      ∃ t, exec (.solveEnd x) s = .next t ∧ SolveLeft s t e e.cur.fall)
  ∧ (∀ x s e, Issues (.solveEnd x) s e → e.t.frags.length = 1 → e.t.solve = .repeatTo → s.Inv →
      ∃ t, exec (.solveEnd x) s = .next t ∧ SolveLeft s t e (restartOf (e.l.img.stab.map Prod.snd) (e.l.portable e.cur.pc)))
  ∧ (∀ x s e, Issues (.solveEnd x) s e → e.t.frags.length = 1 → e.t.solve = .none → s.Inv →
      let xs := (namedTiles x).map e.t.shape
      (e.b.solve.state ≠ 1 → exec (.solveEnd x) s = .next (takeTrap s e 0x03#8 (e.info 0x03#8)))
      ∧ (e.b.solve.state = 1 → ∀ c, carriedCause s e xs = some c → exec (.solveEnd x) s = .next (trapsAt s e c))
      ∧ (e.b.solve.state = 1 → carriedCause s e xs = none →
          (sameTiles xs e.b.solve.tiles = false → exec (.solveEnd x) s = .next (takeTrap s e 0xAA#8 (e.info 0xAA#8)))
          ∧ (sameTiles xs e.b.solve.tiles = true → ∃ t, exec (.solveEnd x) s = .next t ∧ SolveArrived s t e .atEnd)))
  ∧ (∀ x s e k, Issues (.solveSet x) s e → Elected e always k →
      let w := (e.t.seat k).rd x.a.val
      let ok : Prop := e.b.solve.state ≠ 1 ∧ match x.p with
        | .thresh => True
        | .ceil => w.toNat % 65536 ≠ 0
        | .depth => w.toNat ≤ 8
        | .hbase => w.toNat % 128 = 0
      (¬ok → exec (.solveSet x) s = .next (takeTrap s e 0x03#8 (e.info 0x03#8)))
      ∧ (ok → ∃ t v, exec (.solveSet x) s = .next t ∧ teamAt t e = some (e.goto e.t e.cur.fall) ∧ solveAt t e = some v ∧ t.mem = s.mem
          ∧ v = match x.p with
            | .thresh => { e.b.solve with thresh := w }
            | .ceil => { e.b.solve with ceil := w.truncate 16 }
            | .depth => { e.b.solve with depth := w.truncate 4 }
            | .hbase => { e.b.solve with hbase := w }))
  ∧ (∀ x, ∃ v : TEnv → DWord, TeamWrites (.solveStat x) always (fun _ _ => True) (fun _ e _ y => y.wr2 x.d.val (v e))
      ∧ ∀ e, match x.sel with
        | 0 => e.b.solve.iter < 65536 → e.b.solve.state < 4 →
            (v e).extractLsb' 16 2 = BitVec.ofNat 2 e.b.solve.state ∧ (v e).extractLsb' 0 16 = BitVec.ofNat 16 e.b.solve.iter
              ∧ (v e).extractLsb' 18 46 = 0
        | 1 => v e = e.b.solve.norm.zeroExtend 64
        | 2 => e.b.id < 2 ^ 28 → v e = BitVec.ofNat 64 (0x30000000 + e.b.id)
        | 3 => v e = BitVec.ofNat 64 e.b.solve.timeline)
  ∧ ∀ s e, FIssues (.sbra 0) s e → s.Inv → let v := e.b.solve
      (v.repeats ≠ 0 → ∃ t f, exec (.sbra 0) s = .next t ∧ foyerAt t e = some f
        ∧ f.pc = restartOf (e.l.img.stab.map Prod.fst) (e.l.portable e.cur.pc) ∧ f.s = e.b.foyer.s
        ∧ (((t.launch e.l.id).bind fun l => l.block e.b.id).map Block.solve) = some { v with repeats := v.repeats - 1 }
        ∧ Fenced s t e.b.runsOn false true .clu)
      ∧ (v.repeats = 0 → v.exits ≠ 0 → ∃ t f, exec (.sbra 0) s = .next t ∧ foyerAt t e = some f ∧ f.pc = e.cur.fall
        ∧ (((t.launch e.l.id).bind fun l => l.block e.b.id).map Block.solve) = some { v with exits := v.exits - 1 })
      ∧ (v.repeats = 0 → v.exits = 0 → v.state = 1 ∨ v.state = 3 →
          exec (.sbra 0) s = .next (s.putFoyer e { e.b.foyer with stalled := true }))
      ∧ (v.repeats = 0 → v.exits = 0 → v.state ≠ 1 → v.state ≠ 3 → ∃ f, FDone (.sbra 0) s e e.cur.pc f ∧ f.s = e.b.foyer.s)

/-! ### Traps -/

/-- R380, R382, R386, R390, R393: taking a trap: the team parks whole, its fragments, predicates and flags as they were and every
pending load written; a record of KIND 2 is appended with the cause, the PC, the word, the address and the mask; its core stands
still until it is written; a launch without a service ring ends, with LERR reason 4. The same of a Foyer context. -/
def Obligations.TrapEntry : Prop :=
  (∀ s e c i, s.teamEnv = some e → let t := takeTrap s e c i
    (∀ g, e.l.ring = some g →
      Recorded s t e.l e.agent 2 c 4 (trapBody i e.l e.b e.ti (lowSeat e.t e.f.mask) e.t.qprog) e.f.pc (lowSeat e.t e.f.mask) i.onResume
      ∧ ParkedTeam s t e ∧ CoreStands t e.b.runsOn
      ∧ (e.t.lockOf = none → e.l.dstop = false → t.mem = s.mem ∧ t.l1 = s.l1))
    ∧ (e.l.ring = none → EndedBy s t e.l c 4))
  ∧ (∀ s e c i, s.foyerEnv = some e → let t := takeTrapFoyer s e c i
    (∀ g, e.l.ring = some g →
      Recorded s t e.l e.agent 2 c 4 (trapBody i e.l e.b 0xFF 0 0) e.b.foyer.pc 0 i.onResume
      ∧ (∃ f, foyerAt t e = some f ∧ f.parked = some s.nextKey ∧ f.pc = e.b.foyer.pc ∧ (e.b.foyer.pend = [] → f.s = e.b.foyer.s))
      ∧ CoreStands t e.b.runsOn ∧ (e.l.dstop = false → t.mem = s.mem))
    ∧ (e.l.ring = none → EndedBy s t e.l c 4))
  ∧ ∀ i l b team low q, let body := trapBody i l b team low q
      let f (at_ n : Nat) : Nat := leNat ((body.drop at_).take n)
      body.length = 256 ∧ f 8 8 = i.pc.toNat ∧ f 0x10 8 = i.word.toNat ∧ f 0x18 8 = i.lit.toNat ∧ f 0x20 8 = i.addr.toNat
        ∧ (l.id < 2 ^ 32 → f 0x28 4 = l.id) ∧ (b.id < 2 ^ 32 → f 0x2C 4 = b.id) ∧ (team < 256 → f 0x30 1 = team)
        ∧ f 0x31 1 = i.inner.toNat ∧ (low < 65536 → f 0x32 2 = low) ∧ f 0x38 4 = i.sched.toNat ∧ f 0x40 8 = q.toNat
        ∧ (i.opkind < 256 → f 0x54 1 = i.opkind) ∧ f 0x80 128 = i.mask.toNat
        ∧ (i.mask = 0 → f 0x34 2 = 0xFFFF ∧ f 0x60 4 = 0)

/-- R21, R396 to R399, R402, R403: TRAP parks its team with a system-call record, and a code of 0xFF00 or more in a launch that is no
system launch raises 0x04; TFENCE raises the cause of the lowest flag that is set and enabled, or goes on; CLRF clears the flags of
its mask; BRK raises 0x08; FEATQ writes a word of the envelope; what the envelope withholds raises 0xC1. -/
def Obligations.SystemInstructions : Prop :=
  (∀ x s e k, Issues (.trap x) s e → Elected e always k →
    (∀ g, e.l.ring = some g → ∃ t body, exec (.trap x) s = .next t
      ∧ Recorded s t e.l e.agent 1 0xC0#8 1 body e.f.pc (lowSeat e.t e.f.mask) (.syscall e.cur.fall) ∧ ParkedTeam s t e
      ∧ leNat ((body.drop 8).take 8) = e.cur.pc.toNat ∧ leNat ((body.drop 0x1C).take 2) = x.code.toNat
      ∧ leNat ((body.drop 0x20).take 16) = ((e.t.seat k).rd4 x.a.val).toNat)
    ∧ (e.l.ring = none → ∃ t, exec (.trap x) s = .next t ∧ EndedBy s t e.l 0xC0#8 4))
  ∧ (∀ x s e, s.teamEnv = some e → order5 e.l (.trap x) = true → e.t.inCap = false → 0xFF00 ≤ x.code.toNat → e.l.fn ≠ 0 →
      exec (.trap x) s = .next (takeTrap s e 0x04#8 (e.info 0x04#8)))
  ∧ (∀ s e, Issues .tfence s e →
      ((∀ k, k < 7 → ¬(e.t.asf.getLsbD k = true ∧ e.t.ate.getLsbD k = true)) →
        exec .tfence s = .next (s.putTeam e (e.goto e.t e.cur.fall)))
      ∧ ∀ k, k < 7 → e.t.asf.getLsbD k = true → e.t.ate.getLsbD k = true →
          (∀ j, j < k → ¬(e.t.asf.getLsbD j = true ∧ e.t.ate.getLsbD j = true)) →
          exec .tfence s = .next (takeTrap s e (BitVec.ofNat 8 (0x40 + k)) (e.info (BitVec.ofNat 8 (0x40 + k)))))
  ∧ (∀ m s e, Issues (.clrf m) s e → ∃ v, exec (.clrf m) s = .next (s.putTeam e { e.t with frags := onward e, asf := v })
      ∧ ∀ b, v.getLsbD b = (e.t.asf.getLsbD b && !m.getLsbD b))
  ∧ (∀ s e, Issues .brk s e → exec .brk s = .next (takeTrap s e 0x08#8 (e.info 0x08#8))
      ∧ (e.info 0x08#8).pc = e.cur.pc ∧ (e.info 0x08#8).onResume = .after e.cur.fall)
  ∧ (∀ x, TeamWrites (.featq x) always (fun s e => (s.func e.l.fn).isSome) fun s e _ y =>
      y.wr2 x.d.val (((s.func e.l.fn).map fun f => f.fenv.getD x.sel.val 0).getD 0))
  ∧ ∀ i s e f, s.teamEnv = some e → s.func e.l.fn = some f → order5 e.l i = true → (e.t.inCap = true → insideForm i = true) → systemCode i = false →
      ((usesFp64 i = true ∧ (f.fenv.getD 2 0).getLsbD 1 = false) ∨ (capsInstr i = true ∧ (f.fenv.getD 2 0).getLsbD 4 = false)
        ∨ (solveInstr i = true ∧ (f.fenv.getD 2 0).getLsbD 5 = false)
        ∨ (sparseForm i = true ∧ (f.fenv.getD 2 0).getLsbD 0 = false)
        ∨ ∃ k, slotOf i = some k ∧ ((f.fenv.getD 1 0).extractLsb' 12 4).toNat ≤ k.val) →
      preCause s e i = some 0xC1#8

namespace Sys2Proof.Claims
open Sys2Proof.Machine

/-- The agent that issues is a team. -/
def IsTeam (s : State) (e : TEnv) : Prop := s.inPrologue = false ∧ s.teamEnv = some e
/-- The agent that issues is a Foyer context. -/
def IsFoyer (s : State) (e : FEnv) : Prop := s.inPrologue = false ∧ s.teamEnv = none ∧ s.foyerEnv = some e
/-- The agent that issues is a run of a prologue. -/
def IsRun (s : State) (e : PEnv) : Prop := s.inPrologue = true ∧ s.prologueEnv = some e

/-- The event i raises the cause c at the address a in whichever agent issues; a run of a prologue ends with an outcome and a value
(R54, R131, R374, R400, R401). -/
def Raises (i : Instr) (c : Cause) (a : DWord) (outcome value : Nat) : Prop :=
  (∀ s e, IsTeam s e → exec i s = .next (takeTrap s e c { e.info c with addr := a }))
  ∧ (∀ s e, IsFoyer s e → exec i s = .next (takeTrapFoyer s e c { e.info c with addr := a }))
  ∧ ∀ s e p, IsRun s e → runAt s e = some p → e.p.key = p.key →
      ∃ t, exec i s = .next t ∧ t.mem = s.mem ∧ RunEnded t e outcome value

/-- Only a fragment of a team changes, by f. -/
def FragBecomes (i : Instr) (s : State) (l b t f : Nat) (x : Team) (g : Frag) : Prop :=
  ∃ u, exec i s = .next u ∧ u.team l b t = some { x with frags := x.frags.set f g } ∧ u.mem = s.mem ∧ u.records = s.records

/-- The pair p of a translation moves an agent of a stream that stands at a: a safe point and a native address, in regions of that
stream; the agent stands at the first, or, where the translation has been uninstalled, at the second (R69 to R71). -/
def Fits (l : Launch) (foyer : Bool) (x : Xlat) (a : DWord) (p : DWord × DWord) : Prop :=
  l.safePoint foyer p.1 = true ∧ l.nativeAt foyer p.2 = true ∧ (if x.active then p.1 else p.2) = a

/-- An agent of a stream at a moves to b: by the first pair that fits, of the newest translation that has one (R70, R71). -/
def MovesTo (l : Launch) (foyer : Bool) (a b : DWord) : Prop :=
  ∃ pre x post ps p qs, l.xlats = pre ++ x :: post ∧ x.points = ps ++ p :: qs ∧ Fits l foyer x a p
    ∧ (∀ y ∈ pre, ∀ q ∈ y.points, ¬Fits l foyer y a q) ∧ (∀ q ∈ ps, ¬Fits l foyer x a q)
    ∧ b = if x.active then p.2 else p.1

/-- The entry at which a record of len entries starts in a ring of a size whose next entry is pidx: a record never wraps (R385). -/
def startAt (size pidx len : Nat) : Nat := if pidx % size + len ≤ size then pidx else (pidx / size + 1) * size

/-- What is written for a record: the entries of padding, and its own (R385). -/
def entriesOf (size pidx : Nat) (r : Record) : List (List Byte) :=
  (List.range (startAt size pidx r.len - pidx)).map (fun i => leBytes 8 (entryHeader size (pidx + i) 1 0 0) ++ leBytes 56 0)
    ++ (List.range r.len).map (entryBytes size (startAt size pidx r.len) r)

/-- The record r may go to its ring from s0: one of a system call or a trap once it is the first of its core and no chain of the core
is open, with every posted load of the core written; another at once (R382). -/
def WritesAt (s : State) (r : Record) (s0 : State) : Prop :=
  ((r.kind = 1 ∨ r.kind = 2) ∧ ∃ u q, s.coreOf r.agent = some u ∧ s.coreStop u = some q ∧ q.id = r.id ∧ s.coreChained u = false
      ∧ s0 = s.drainCore u)
    ∨ (¬((r.kind = 1 ∨ r.kind = 2) ∧ ∃ u, s.coreOf r.agent = some u) ∧ s0 = s)

/-- The record r, of the launch ln, is the one that RESUME of v by a function names (R391). -/
def Named (s : State) (fn : Nat) (v : DWord) (r : Record) (ln : Launch) : Prop :=
  ∃ f named pre post, s.func fn = some f ∧ s.launch (f.resumel.extractLsb' 0 32).toNat = some named ∧ named.fn = fn
    ∧ (let hit (q : Record) (m : Launch) : Prop :=
        s.launch q.launch = some m ∧ q.ix = some (v.extractLsb' 0 48).toNat ∧ m.ring = named.ring ∧ m.fn = fn
      s.records = pre ++ r :: post ∧ hit r ln ∧ ∀ q ∈ pre, ∀ m, ¬hit q m)

/-- Fragments as addresses and masks. -/
def standing (t : Team) : List (DWord × BitVec 1024) := t.frags.map fun f => (f.pc, f.mask)

/-- A team that a record held goes on: it issues again, its lanes and flags as they were, its fragments at the addresses given, and
single-stepped where STEP is set (R391, R401). -/
def GoesOn (t : State) (l b k : Nat) (x : Team) (at_ : List (DWord × BitVec 1024)) (stepped : Bool) : Prop :=
  ∃ u, t.team l b k = some u ∧ u.parked = none ∧ u.stop = false ∧ u.stepping = stepped ∧ u.stepDone = false ∧ u.seats = x.seats
    ∧ u.asf = x.asf ∧ standing u = at_

/-- LERR of a function holds a launch, a cause and a reason, with V set (R390). -/
def LerrIs (t : State) (fn l : Nat) (c : Cause) (reason : Nat) : Prop :=
  ∃ g, t.func fn = some g ∧ g.lerr.extractLsb' 32 32 = BitVec.ofNat 32 l ∧ g.lerr.extractLsb' 16 8 = c
    ∧ g.lerr.extractLsb' 8 8 = BitVec.ofNat 8 reason ∧ g.lerr.getLsbD 0 = true

end Sys2Proof.Claims

/-! ### Events of issue -/

/-- R51, R54, R59, R69 to R71, R131, R153, R154, R158, R199, R400, R401: breakpoints, single-step traps, illegal words and failing
fetches raise their causes in the agent that issues; lifts, releases, moves at safe points; translations installed and taken
out; and a pending load that is written. -/
def Obligations.IssueEvents : Prop :=
  Raises .hardwareBreakpoint 0x09#8 0 3 0 ∧ Raises .singleStepTrap 0x0A#8 0 3 0 ∧ (∀ c, Raises (.illegalInstruction c) c 0 3 0)
  ∧ (∀ c a s, s.fetchSpace = none ∨ (∀ die asid x, s.fetchSpace = some (die, asid) → s.check die asid a 8 .fetch = .error x → x.cause = c → x.s2 = none) →
      (∀ e, IsTeam s e → exec (.instructionFetchFault c a) s = .next (takeTrap s e c { e.info c with addr := a }))
      ∧ (∀ e, IsFoyer s e → exec (.instructionFetchFault c a) s = .next (takeTrapFoyer s e c { e.info c with addr := a }))
      ∧ ∀ e p, IsRun s e → runAt s e = some p → e.p.key = p.key →
          ∃ t, exec (.instructionFetchFault c a) s = .next t ∧ t.mem = s.mem ∧ RunEnded t e 4 c.toNat)
  ∧ (∀ s l b t f long x g, s.team l b t = some x → x.frags[f]? = some g →
      FragBecomes (.starvationLift l b t f long) s l b t f x
        (if g.parked = false ∧ g.stalled = false ∧ g.since ≠ 0 ∧ g.since + (if long then 16384 else 1024) ≤ s.tick then
          { g with lift := if long then .waited16384 else .waited1024 } else g))
  ∧ (∀ s l b t f x g, s.team l b t = some x → x.frags[f]? = some g →
      FragBecomes (.joinParkRelease l b t f) s l b t f x
        (if g.parked = true ∧ 1024 ≤ g.bec then { g with parked := false, released := true } else g))
  ∧ (∀ s l b ln x, s.launch l = some ln → ln.block b = some x → ∃ t ln', exec (.foyerStarvationLift l b) s = .next t
      ∧ t.launch l = some ln' ∧ t.mem = s.mem
      ∧ ln'.block b = some (if x.foyer.stalled = false ∧ x.foyer.since ≠ 0 ∧ x.foyer.since + 1024 ≤ s.tick then
          { x with foyer := { x.foyer with lift := .waited1024 } } else x))
  ∧ (∀ s l b t ln x f pc, s.launch l = some ln → s.team l b t = some x → x.frags = [f] → MovesTo ln false f.pc pc →
      (x.pend = [] → (∀ o ∈ x.hearth.ops, o.kind ≠ .mtopk) →
        FragBecomes (.safePointMove l b (some t)) s l b t 0 x { f with pc := pc, chain := none, chainPc := pc })
      ∧ (x.pend ≠ [] ∨ (∃ o ∈ x.hearth.ops, o.kind = .mtopk) →
        ∃ u, exec (.safePointMove l b (some t)) s = .next u ∧ u.team l b t = some x))
  ∧ (∀ s l b ln x pc, s.launch l = some ln → ln.block b = some x → x.foyer.pend = [] → MovesTo ln true x.foyer.pc pc →
      ∃ t ln', exec (.safePointMove l b none) s = .next t ∧ t.launch l = some ln' ∧ t.mem = s.mem
        ∧ ln'.block b = some { x with foyer := { x.foyer with pc := pc, chain := none, chainPc := pc } })
  ∧ (∀ s l ln (x : XlatArg), s.launch l = some ln → ∃ t y, exec (.translationInstall l x) s = .next t
      ∧ t.launch l = some { ln with xlats := y :: ln.xlats } ∧ y.active = true ∧ y.points = x.points
      ∧ y.regions = x.regions.map fun r => ⟨r.start, r.len, r.foyer, true, r.dialect, r.jmap⟩)
  ∧ (∀ s l ln, s.launch l = some ln → ∃ t ys, exec (.translationUninstall l) s = .next t ∧ t.launch l = some { ln with xlats := ys }
      ∧ (∀ y ∈ ys, y.active = false) ∧ ys.map Xlat.points = ln.xlats.map Xlat.points
      ∧ ys.map Xlat.regions = ln.xlats.map Xlat.regions)
  ∧ (∀ s l b t k x p, s.team l b t = some x → x.pend[k]? = some p → (∀ q ∈ p.peers, ∀ w ∈ s.ports, w.retraining = true → w.dev ≠ q.2.1) →
      ∃ u y, exec (.resultWriteBack l b (some t) k) s = .next u ∧ u.team l b t = some y
        ∧ y = { x with seats := y.seats, pend := y.pend, scratch := x.scratch - (if p.posted = true then 1 else 0), sb := y.sb }
        ∧ ((∀ q ∈ x.pend.take k, q.posted = true ∨ q.reg + q.count ≤ p.reg ∨ p.reg + p.count ≤ q.reg) → y.pend = x.pend.eraseIdx k)
        ∧ (∃ older, y.pend = older ++ x.pend.drop (k + 1) ∧ ∀ q ∈ older, q.posted = false →
            ∀ (i : Nat) (ws vs : List Word), p.words[i]? = some (some ws) → q.words[i]? = some (some vs) →
              ∀ r, p.reg ≤ r → r < p.reg + p.count → ¬(q.reg ≤ r ∧ r < q.reg + q.count))
        ∧ (∀ j, 0 < j → j < 4 → (y.sb.getLsbD j = true ↔ (∃ q ∈ y.pend, q.sb = j) ∨ ∃ o ∈ x.hearth.ops, o.sb = j))
        ∧ y.seats.length = x.seats.length
        ∧ (∀ i, (p.words[i]?).join = none → y.seat i = x.seat i)
        ∧ ∀ i ws, i < x.seats.length → p.words[i]? = some (some ws) → y.seat i = (x.seat i).wrs p.reg ws)
  ∧ ∀ s l b k ln x p, s.launch l = some ln → ln.block b = some x → x.foyer.pend[k]? = some p →
      (∀ q, p.peer = some q → ∀ w ∈ s.ports, w.retraining = true → w.dev ≠ q.1) →
      ∃ t ln' y, exec (.resultWriteBack l b none k) s = .next t ∧ t.launch l = some ln' ∧ ln'.block b = some { x with foyer := y }
        ∧ y = { x.foyer with s := y.s, pend := y.pend, sb := y.sb }
        ∧ ((∀ q ∈ x.foyer.pend.take k, q.reg ≠ p.reg) → y.pend = x.foyer.pend.eraseIdx k)
        ∧ (∃ older, y.pend = older ++ x.foyer.pend.drop (k + 1) ∧ ∀ q ∈ older, q.reg = p.reg → q.reg = 0)
        ∧ ((sreg p.reg).val < x.foyer.s.length → Wrote (sreg p.reg) p.val x.foyer.rd y.rd)

/-- R383 to R385, R389 to R393, R419: a record is written to its ring as soon as the consumer leaves room, with its padding, its
header and the advance of PIDX; RESUME releases the agent of the record that it names, and writes TRAPRES from REPLY after a
system call; TERM ends a launch. -/
def Obligations.ServiceRing : Prop :=
  (∀ size p len kind c, len < 256 → kind < 256 → let h := entryHeader size p len kind c
    h % 256 = kind ∧ h / 2 ^ 8 % 256 = (if p / size % 2 = 0 then 1 else 0) ∧ h / 2 ^ 16 % 256 = c.toNat ∧ h / 2 ^ 24 = len)
  ∧ (∀ s k r ln g, s.records.find? (fun r => r.id == k) = some r → s.launch r.launch = some ln →
      s.rings.find? (fun g => some g.hdr == ln.ring) = some g → r.ix = none →
      let size := 2 ^ g.lsize
      let p := startAt size g.pidx r.len
      (∀ u, r.kind = 1 ∨ r.kind = 2 → s.coreOf r.agent = some u →
        (∃ q, s.coreStop u = some q ∧ q.id ≠ r.id) ∨ s.coreChained u = true → exec (.trapRecordWrite k) s = .next s)
      ∧ ∀ s0, WritesAt s r s0 →
      (s0.mem.num (g.hdr + 0x10) 8 + size < p + r.len → exec (.trapRecordWrite k) s = .next s0)
      ∧ (p + r.len ≤ s0.mem.num (g.hdr + 0x10) 8 + size → match s0.putEntries ln.asid g.base size g.pidx (entriesOf size g.pidx r) with
        | .ok none => exec (.trapRecordWrite k) s = .next s0
        | .ok (some s1) => ∃ t, exec (.trapRecordWrite k) s = .next t ∧ t.mem = s1.mem.put (g.hdr + 0x18) (leBytes 8 (p + r.len))
            ∧ t.launches = s1.launches
            ∧ t.rings = s1.rings.map (fun x => if x.hdr = g.hdr then { x with pidx := p + r.len } else x)
            ∧ t.records = s1.records.map fun x => if x.id = k then { x with ix := some p } else x
        | .error _ => ∃ t, exec (.trapRecordWrite k) s = .next t ∧ EndedBy s t ln r.cause (if r.kind = 3 then (r.body.getD 0x13 0).toNat else 4)))
  ∧ (∀ s fn v, s.responds fn = true → (∀ r ln, ¬Named s fn v r ln) → exec (.resume fn v) s = .next s)
  ∧ (∀ s fn v r ln, s.responds fn = true → Named s fn v r ln → r.onResume = .none ∨ ln.st = .evicted ∨ ln.st = .ended →
      exec (.resume fn v) s = .next s)
  ∧ (∀ s fn v r ln b k x fi g pc, s.responds fn = true → Named s fn v r ln → ln.st ≠ .evicted → ln.st ≠ .ended →
      r.agent = .team ln.id b k → s.team ln.id b k = some x → x.parked = some r.id → x.fragOf r = some fi → x.frags[fi]? = some g →
      let moved := standing (x.arrive ln fi [Frag.at pc g.mask])
      let rewound := if g.chain.isSome then standing (x.arrive ln fi [Frag.at g.chainPc g.mask]) else standing x
      (r.onResume = .after pc → ∃ t, exec (.resume fn v) s = .next t ∧ GoesOn t ln.id b k x moved (v.getLsbD 63)
        ∧ t.records = s.records.filter (fun q => q.id ≠ r.id) ∧ t.mem = s.mem)
      ∧ (r.onResume = .reissue ∨ r.onResume = .skip → ∃ t, exec (.resume fn v) s = .next t ∧ GoesOn t ln.id b k x rewound (v.getLsbD 63)
        ∧ t.records = s.records.filter (fun q => q.id ≠ r.id) ∧ t.mem = s.mem)
      ∧ (r.onResume = .syscall pc →
          (∀ w, s.replyOf ln (v.extractLsb' 0 48).toNat = some w → ∃ t u, exec (.resume fn v) s = .next t
            ∧ GoesOn t ln.id b k x moved (v.getLsbD 63) ∧ t.team ln.id b k = some u ∧ u.trapres = w)
          ∧ (s.replyOf ln (v.extractLsb' 0 48).toNat = none → ∃ t, exec (.resume fn v) s = .next t ∧ EndedBy s t ln r.cause 4))
      ∧ (r.onResume = .after pc → ln.dstop = true → v.getLsbD 63 = false → ∃ t, exec (.resume fn v) s = .next t
          ∧ ∀ b' k' y, t.team ln.id b' k' = some y → y.stop = false))
  ∧ (∀ s fn v r ln b x pc, s.responds fn = true → Named s fn v r ln → ln.st ≠ .evicted → ln.st ≠ .ended →
      r.agent = .foyer ln.id b → ln.block b = some x → x.foyer.parked = some r.id → r.onResume = .after pc ∨ r.onResume = .reissue →
      ∃ t ln' y, exec (.resume fn v) s = .next t ∧ t.launch ln.id = some ln' ∧ ln'.block b = some y ∧ y.foyer.parked = none
        ∧ y.foyer.stop = false ∧ y.foyer.stepping = v.getLsbD 63 ∧ y.foyer.s = x.foyer.s
        ∧ y.foyer.pc = (if r.onResume = .after pc then pc else if x.foyer.chain.isSome then x.foyer.chainPc else x.foyer.pc))
  ∧ (∀ s fn v r ln b k x bt pos, s.responds fn = true → Named s fn v r ln → ln.st ≠ .evicted → ln.st ≠ .ended →
      r.agent = .copy ln.id b k → s.team ln.id b k = some x → r.onResume = .copyOp bt pos →
      ∃ t u, exec (.resume fn v) s = .next t ∧ t.team ln.id b k = some u ∧ u.seats = x.seats
        ∧ u.copy.ops = x.copy.ops.map fun o => if o.batch = bt ∧ o.pos = pos then { o with susp := none } else o)
  ∧ (∀ s fn v r ln b k x n, s.responds fn = true → Named s fn v r ln → ln.st ≠ .evicted → ln.st ≠ .ended →
      r.agent = .hearth ln.id b k → s.team ln.id b k = some x → r.onResume = .hearthOp n →
      ∃ t u, exec (.resume fn v) s = .next t ∧ t.team ln.id b k = some u ∧ u.seats = x.seats
        ∧ u.hearth.ops = x.hearth.ops.map fun o => if o.num = n then { o with susp := none } else o)
  ∧ (∀ s fn v, s.responds fn = true → (∀ ln, s.launch (v.extractLsb' 0 32).toNat = some ln → ln.fn ≠ fn ∨ ln.st = .ended) →
      exec (.term fn v) s = .next s)
  ∧ ∀ s fn v ln, s.responds fn = true → s.launch (v.extractLsb' 0 32).toNat = some ln → ln.fn = fn →
      (ln.st = .waiting ∨ ln.st = .running ∨ ln.st = .stopped → ∃ t, exec (.term fn v) s = .next t ∧ EndedBy s t ln 0 5)
      ∧ (ln.st = .evicted → ∃ t, exec (.term fn v) s = .next t ∧ t.launch ln.id = none ∧ LerrIs t fn ln.id 0 5)

namespace Sys2Proof.Claims
open Sys2Proof.Machine

/-- The module has been reset (R471, R485, R491): everything is as at power-on but what stands here; host and peer memory keep
their bytes, and so does flash unless a recovery was writing it. -/
def ResetFrom (s t : State) (cause : BitVec 8) (count : Nat) : Prop :=
  t = { State.reset with
        mem := t.mem, intrs := s.intrs, lastrst := cause, wdCount := count, floor := s.floor, flash := t.flash, spdm := s.spdm
        nextKey := s.nextKey, agenda := s.agenda, tick := s.tick, freeCtr := t.freeCtr }
    ∧ (s.Inv → s.peerOut = [] → ∀ pa, 0xC000000000 ≤ pa → t.mem.get pa = s.mem.get pa)
    ∧ (s.recovering = false → t.flash = s.flash)

/-- The event i resets the module. -/
def ResetsModule (i : Instr) (s : State) (cause : BitVec 8) (count : Nat) : Prop := ∃ t, exec i s = .next t ∧ ResetFrom s t cause count

/-- A recovery from the image bs ends: verified, it is in flash and the module has been reset with count 0; else ERR tells, and flash is
as it was (R489). -/
def Recovers (i : Instr) (s : State) (bs : List Byte) : Prop :=
  (imageErr s.floor bs = 0 → ∃ t, exec i s = .next t ∧ t.flash = bs ∧ ResetFrom { s with flash := bs, recovering := false } t 0 0)
  ∧ (imageErr s.floor bs ≠ 0 → exec i s = .next { s with err := imageErr s.floor bs, recovering := false })

/-- SPDM answers an index with m, the certificate chain of the device identity key, and a signature over index and value under that
key (R490). -/
def Measures (s : State) (ix : Nat) (m : List Byte) : Prop :=
  ∃ a : SpdmAnswer, exec (.spdmRequest ix) s = .next { s with spdm := s.spdm ++ [a], freeCtr := s.freeCtr + 1 }
    ∧ a.index = ix ∧ a.value = m ∧ a.chain = Config.identityChain
    ∧ ∃ k, a.sig = P384.sign Config.identitySecret k (sha384 (leBytes 1 ix ++ m))

/-- 8 bytes of a word. -/
def wordBytes (x : DWord) : List Byte := leBytes 8 x.toNat

/-- What the lifetime of a function leaves when it ends and begins again (R345, R429, R471): the function is live with the whole
device's envelope and Aelyn's key, its own registers at reset and those of the physical function as they were; no launch or
queue of it remains; every other function and memory are as they were. -/
def FunctionBegins (i : Instr) (s : State) (fn : Nat) : Prop :=
  ∃ t, exec i s = .next t ∧ t.mem = s.mem
    ∧ (∀ f, s.func fn = some f → t.func fn = some { Func.fresh fn [Config.aelynKey] with
        live := true, s2ctl := f.s2ctl, shctl := f.shctl, s2fault := f.s2fault, dlbase := f.dlbase, dlend := f.dlend
        dlptr := f.dlptr, dlEn := f.dlEn, dlIrq := f.dlIrq, qrange := f.qrange })
    ∧ (∀ k, k ≠ fn → t.func k = s.func k)
    ∧ (∀ l ∈ t.launches, l ∈ s.launches ∧ l.fn ≠ fn)
    ∧ (∀ l ∈ s.launches, l.fn ≠ fn → (∀ m ∈ s.launches, m.fn = fn → m.id ≠ l.id) → l ∈ t.launches)
    ∧ (∀ q, q ∈ t.queues ↔ q ∈ s.queues ∧ q.fn ≠ fn) ∧ ∀ x ∈ t.tlb, x.fn ≠ fn

end Sys2Proof.Claims

/-! ### Bring-up, functions and keys -/

/-- R345, R429, R471, R484, R485, R488 to R491: training of the host link; each kind of reset with its LASTRST; verification of the
image in flash and what each outcome leaves; the watchdog; recovery by RCVCMD and by the mailbox; the measurements; a
function's reset and creation; the enrolment and removal of keys. -/
def Obligations.BringUpEvents : Prop :=
  (∀ s, exec .hostLinkTrain s = .next { s with linkUp := true })
  ∧ (∀ s, ResetsModule .powerOnReset s 0 s.wdCount) ∧ (∀ s, ResetsModule .cxlReset s 1 s.wdCount)
  ∧ (∀ s, ResetsModule .thermalTrip s 2 s.wdCount) ∧ (∀ s, ResetsModule .supplyFault s 3 s.wdCount)
  ∧ (∀ s, ResetsModule .auxSupplyLoss s 0 0)
  ∧ (∀ s, s.boot = .ready → ResetsModule .firmwareWatchdogReset s 4 (s.wdCount + 1))
  ∧ (∀ s, s.boot ≠ .ready → exec .firmwareWatchdogReset s = .next s)
  ∧ (∀ s, s.boot = .ready → exec .watchdogCountClear s = .next { s with wdCount := 0 })
  ∧ (∀ s, s.boot = .rom → exec .bootVerify s = .next { s with boot := if 3 ≤ s.wdCount then .halted else .verifying })
  ∧ (∀ s, s.boot = .verifying → imageErr s.floor s.flash = 0 → ∃ t v, exec .bootVerify s = .next t
      ∧ t = { s with boot := .ready, err := 0, fwver := v, floor := v } ∧ v.toNat = leNat ((s.flash.drop 6).take 2)
      ∧ s.floor.toNat ≤ v.toNat)
  ∧ (∀ s, s.boot = .verifying → imageErr s.floor s.flash ≠ 0 →
      exec .bootVerify s = .next { s with boot := .recovery, err := imageErr s.floor s.flash })
  ∧ (∀ fl bs, let plen := leNat ((bs.drop 8).take 4)
      (leNat (bs.take 4) ≠ 0x57464E41 → imageErr fl bs = 1)
      ∧ (imageErr fl bs = 0 → leNat (bs.take 4) = 0x57464E41 ∧ sha384 (bs.take plen) = (bs.drop plen).take 48
          ∧ fl.toNat ≤ leNat ((bs.drop 6).take 2)
          ∧ ∃ k ∈ Config.firmwareKeys, k.take 16 = (bs.drop 0x10).take 16 ∧ signedTrailer k (bs.drop plen) = true))
  ∧ (∀ s v, s.linkUp = true → s.recovering = false → s.boot = .recovery ∨ s.boot = .halted →
      exec (.rcvcmd v) s = .next (if v = 1 then { s with recovering := true } else s))
  ∧ (∀ s v, s.recovering = true ∨ s.boot = .ready → exec (.rcvcmd v) s = .next s)
  ∧ (∀ s, s.recovering = true → Recovers .recoveryComplete s (s.hostImage s.rcvaddr))
  ∧ (∀ s a, s.responds 0 = true → Recovers (.firmwareMailboxUpdate a) s (s.hostImage a))
  ∧ (∀ s, Measures s 1 (sha384 Config.bootRom))
  ∧ (∀ s, Measures s 2 (sha384 (s.flash.take (leNat ((s.flash.drop 8).take 4))) ++ leBytes 2 s.fwver.toNat))
  ∧ (∀ s, Measures s 3 (wordBytes 0x0D960101#64 ++ wordBytes Config.serial
      ++ [0, 1, 2, 3].flatMap fun d => wordBytes ((fuseOf d).setWidth 64)))
  ∧ (∀ s, Measures s 4 (s.funcs.flatMap fun f => f.fenv.flatMap wordBytes))
  ∧ (∀ s v f, v < 64 → s.func v = some f → Measures s (0x10 + v) (sha384 f.keys.flatten))
  ∧ (∀ s ix, ix = 0 ∨ (5 ≤ ix ∧ ix < 0x10) ∨ 0x50 ≤ ix → exec (.spdmRequest ix) s = .next s)
  ∧ (∀ s fn, s.responds fn = true → FunctionBegins (.functionLevelReset fn) s fn)
  ∧ (∀ s fn, s.boot = .ready → fn ≠ 0 → FunctionBegins (.functionCreate fn) s fn)
  ∧ (∀ s fn f key, s.func fn = some f → keyOk key = true → f.keys.length < 8 → key ∉ f.keys → ∃ t, exec (.keyEnrol fn key) s = .next t
      ∧ t.func fn = some { f with keys := f.keys ++ [key] } ∧ (∀ k, k ≠ fn → t.func k = s.func k) ∧ t.bindings = s.bindings)
  ∧ (∀ s fn f key, s.func fn = some f → keyOk key = false ∨ 8 ≤ f.keys.length → ∃ t, exec (.keyEnrol fn key) s = .next t
      ∧ t.func fn = some f)
  ∧ (∀ key, keyOk key = true → key.length = 176 ∧ (sha384 ((key.drop 16).take 153)).take 16 = key.take 16
      ∧ key.getD 16 0 = 4 ∧ ∀ b ∈ key.drop 169, b = 0)
  ∧ ∀ s fn ix f, s.func fn = some f → ∃ t, exec (.keyRemove fn ix) s = .next t
      ∧ t.func fn = some { f with keys := f.keys.eraseIdx ix } ∧ (∀ k, k ≠ fn → t.func k = s.func k) ∧ t.bindings = s.bindings

namespace Sys2Proof.Claims
open Sys2Proof.Machine

/-- The bits of w are those of v that p names; the others are 0. -/
def Keeps (v w : DWord) (p : Nat → Bool) : Prop := ∀ b, w.getLsbD b = (v.getLsbD b && p b)

/-- The bits hi to lo. -/
def span (hi lo : Nat) : Nat → Bool := fun b => decide (lo ≤ b) && decide (b ≤ hi)

/-- A write of fn at off with the value v changes the function k's registers as r says, and nothing else. -/
def WritesFunc (fn off : Nat) (v : DWord) (k : Nat) (r : Func → Func → Prop) : Prop :=
  ∀ s f, s.responds fn = true → s.func k = some f → ∃ t g, exec (.registerWrite fn off v) s = .next t ∧ t = { s with funcs := t.funcs }
    ∧ t.func k = some g ∧ r f g ∧ ∀ j, j ≠ k → t.func j = s.func j

/-- A write of the physical function at off with the value v changes the device's registers as r says. -/
def WritesDevice (off : Nat) (v : DWord) (r : State → State → Prop) : Prop :=
  ∀ s, s.responds 0 = true → ∃ t, exec (.registerWrite 0 off v) s = .next t ∧ r s t

/-- A table of registers in its form: the numbers rise. -/
def Rising (r : Regs) : Prop := r.Pairwise fun a b => a.1 < b.1

/-- What FENV accepts as word k (R429). -/
def envelopeOk (k : Nat) (v : DWord) : Prop :=
  match k with
  | 0 => v.extractLsb' 0 8 ≠ 0
  | 1 => (v.extractLsb' 0 3).toNat ≤ 4 ∧ (v.extractLsb' 3 6).toNat ≤ 36 ∧ (v.extractLsb' 12 4).toNat ≤ 8 ∧ (v.extractLsb' 16 16).toNat ≤ 768
  | 2 => True
  | _ => (v.extractLsb' 0 32).toNat ≤ 768

/-- The bits that word k of FENV takes from a write. -/
def envelopeBits (k : Nat) : Nat → Bool :=
  match k with
  | 0 => span 7 0
  | 1 => fun b => span 8 0 b || span 39 12 b
  | 2 => span 5 0
  | _ => span 31 0

/-- QRESULT of a function: a code of R357 where it failed, else the ID and the timeline's identifier. -/
def ResultIs (t : State) (fn : Nat) (v : Nat) : Prop := ∃ g, t.func fn = some g ∧ g.qresult = BitVec.ofNat 64 v

/-- A field of a descriptor or packet. -/
def fieldOf (d : List Byte) (lo w : Nat) : Nat := leNat d / 2 ^ lo % 2 ^ w

/-- The queue that a descriptor describes (R356). -/
structure Described (d : List Byte) (x : Queue) (id fn creator ridx : Nat) : Prop where
  who : x.id = id ∧ x.fn = fn ∧ x.creator = creator
  shape : (x.bulk = true ↔ fieldOf d 16 2 = 1) ∧ x.prio = fieldOf d 18 2 ∧ x.ac = fieldOf d 20 4 ∧ (x.irqe = true ↔ fieldOf d 24 1 = 1)
    ∧ (x.watch = true ↔ fieldOf d 25 1 = 1) ∧ x.lsize = fieldOf d 26 5 ∧ x.clsz = fieldOf d 31 5 ∧ x.asid = fieldOf d 36 12
  rings : x.ring.toNat = fieldOf d 64 64 ∧ x.widxa.toNat = fieldOf d 128 64 ∧ x.ridxa.toNat = fieldOf d 192 64
    ∧ x.cring.toNat = fieldOf d 256 64 ∧ x.cidxa.toNat = fieldOf d 320 64
  fresh : x.ridx = ridx ∧ x.widx = ridx ∧ x.mapped = false ∧ x.halted = false ∧ x.notified = false ∧ x.status = 0 ∧ x.launches = 0
    ∧ x.destroy = false

/-- The write i of a function to QCREATE with the value v creates a queue, or tells in QRESULT why not (R357, R430). -/
def Creates (i : Instr) (fn : Nat) (v : DWord) (adopt request : Bool) : Prop :=
  ∀ s, s.responds fn = true →
    (∀ e, s.stage2 fn (v.toNat / 64 * 64) .load = .error e → ∃ t, exec i s = .next t ∧ ResultIs t fn (4 * 2 ^ 16) ∧ t.queues = s.queues)
    ∧ ∀ lf pa, s.stage2 fn (v.toNat / 64 * 64) .load = .ok (lf, pa) → backed pa = true →
        let d := s.mem.bytes pa 64
        let owner := ((Regs.get s.asidctl (fieldOf d 36 12)).extractLsb' 1 6).toNat
        let range := if request then owner else fn
        (descriptorOk d request = false → ∃ t, exec i s = .next t ∧ ResultIs t fn (1 * 2 ^ 16) ∧ t.queues = s.queues)
        ∧ (descriptorOk d request = true → fn ≠ 0 → owner ≠ fn → ∃ t, exec i s = .next t ∧ ResultIs t fn (3 * 2 ^ 16) ∧ t.queues = s.queues)
        ∧ (descriptorOk d request = true → fn = 0 ∨ owner = fn →
            (∀ id, (if request then id = fieldOf d 0 16 else id < 65536 ∧ ∀ j, j < id → s.idOk range j = false) →
              s.idOk range id = true → (adopt = false → ∃ t x, exec i s = .next t ∧ t.queues = s.queues ++ [x] ∧ t.mem = s.mem
                  ∧ Described d x id owner fn 0
                  ∧ ResultIs t fn (id + if x.bulk = true then (2 ^ 28 + id) * 2 ^ 32 else 0))
              ∧ (adopt = true → ∀ s1 bs, s.devRead (.porch s.nextKey) (fieldOf d 36 12) (BitVec.ofNat 64 (fieldOf d 192 64)) .syncRead 8 8
                    = .ok s1 bs → ∃ t x, exec i s = .next t ∧ t.queues = s1.queues ++ [x] ∧ Described d x id owner fn (leNat bs)))
            ∧ ((if request then s.idOk range (fieldOf d 0 16) = false else ∀ id, id < 65536 → s.idOk range id = false) →
                ∃ t, exec i s = .next t ∧ ResultIs t fn (2 * 2 ^ 16) ∧ t.queues = s.queues))

/-- A queue has halted with a status and DETAIL; IRQE interrupts the function that created it (R379). -/
def Halts (s t : State) (q status detail : Nat) : Prop :=
  ∃ x, s.queue q = some x ∧ t.queue q = some { x with halted := true, status := BitVec.ofNat 8 status, detail := BitVec.ofNat 16 detail }
    ∧ t.mem = s.mem ∧ (x.irqe = true → (x.creator, 0) ∈ t.intrs)

/-- A read of the packet at RIDX by the parser (R358, R359, R361, R363, R372): a packet in hand, whose RIDX could not be written, is
consumed first; no packet is read past a boundary at which the queue is destroyed or unmapped, or while a FENCE waits. -/
def ParsesSlot (i : Instr) (q : Nat) : Prop :=
  ∀ s x, s.queue q = some x → let flying := s.pkts.filter fun p => p.queue == q && p.parent == none
    (x.mapped = false ∨ x.halted = true → exec i s = .next s)
    ∧ (x.mapped = true → x.halted = false → ∀ p pre post, flying = pre ++ p :: post → p.st = .held → (∀ r ∈ pre, r.st ≠ .held) →
        (fieldOf p.bytes 0 8 ≠ 5 ∨ x.bulk = true → exec i s = .next (consume s x p.key false))
        ∧ (fieldOf p.bytes 0 8 = 5 → x.bulk = false → exec i s = .next (if p.sub = 0 then s else consume s x p.key true)))
    ∧ ((∀ p ∈ flying, p.st ≠ .held) →
        (x.destroy = true ∨ x.reclaim = true ∨ x.widx ≤ x.ridx ∨ (∃ p ∈ flying, fieldOf p.bytes 0 8 = 4) → exec i s = .next s)
        ∧ (x.mapped = true → x.halted = false → x.destroy = false → x.reclaim = false → x.ridx < x.widx →
          (∀ p ∈ flying, fieldOf p.bytes 0 8 ≠ 4) → ∀ s1 h, s.parserRead x (x.slot x.ridx) 8 = .ok s1 h →
          let ready : Prop := fieldOf h 8 1 = (x.ridx / 2 ^ x.lsize + 1) % 2 ∧ if x.bulk = true then flying = [] else mayStart flying h = true
          (¬ready → exec i s = .next s1)
          ∧ (ready → ∀ s2 bs, s1.parserRead x (x.slot x.ridx) 64 = .ok s2 bs →
            let s3 : State := { s2 with nextKey := s2.nextKey + 1 }
            let taken (s : State) (aux : List DWord) (img : Option Image) : State :=
              { s with pkts := s.pkts ++ [⟨s2.nextKey, q, none, x.ridx, bs, .held, 0, aux, img⟩] }
            (x.bulk = true → exec i s = .next (consume (taken s3 [] none) x s2.nextKey false))
            ∧ (x.bulk = false → (∀ s4 st d, preStart s3 x s2.nextKey bs = .halt s4 st d → exec i s = .next (s4.haltQueue q st d))
                ∧ ∀ s4 aux img, preStart s3 x s2.nextKey bs = .ok s4 aux img →
                    (fieldOf bs 0 8 = 5 → exec i s = .next (taken s4 aux img))
                    ∧ (fieldOf bs 0 8 ≠ 5 → exec i s = .next (consume (taken s4 aux img) x s2.nextKey false))))))

end Sys2Proof.Claims

/-! ### Registers and queues -/

/-- R208, R357, R390, R400, R404, R405, R413, R414, R416, R429, R477, R484: what a write to each register without an effect of its own
leaves: the bits that the register keeps, the others 0; the reserved and read-only bits, a register of the physical function
written by another, and a function that does not respond. -/
def Obligations.RegisterWrites : Prop :=
  (∀ fn off v s, s.responds fn = false → (fn = 0 ∧ off = 0xC0018 → s.linkUp = false) → exec (.registerWrite fn off v) s = .next s)
  ∧ (∀ v s, s.linkUp = true → s.boot = .recovery ∨ s.boot = .halted → exec (.registerWrite 0 0xC0018 v) s = .next { s with rcvaddr := v })
  ∧ (∀ fn v, WritesFunc fn 0x70010 v fn fun f g => g = { f with dstop := v.getLsbD 0 })
  ∧ (∀ fn v, WritesFunc fn 0x70018 v fn fun f g => g = { f with lerr := g.lerr }
      ∧ ∀ b, g.lerr.getLsbD b = (f.lerr.getLsbD b && !(decide (b = 0) && v.getLsbD 0)))
  ∧ (∀ fn v, WritesFunc fn 0x70020 v fn fun f g => g = { f with resumel := g.resumel } ∧ Keeps v g.resumel (span 31 0))
  ∧ (∀ fn v, WritesFunc fn 0x88000 v fn fun f g => g = { f with tlbinva := g.tlbinva } ∧ Keeps v g.tlbinva (span 63 12))
  ∧ (∀ fn v i, i < 4 → WritesFunc fn (0x70100 + 8 * i) v fn fun f g => ∃ w, g = { f with hwbp := f.hwbp.set i w }
      ∧ Keeps v w fun b => span 63 3 b || span 1 0 b)
  ∧ (∀ v k, 0 < k → k < 64 → WritesFunc 0 (0x50200 + 8 * k) v k fun f g => g = { f with qrange := g.qrange } ∧ Keeps v g.qrange (span 35 0))
  ∧ (∀ v k, k < 64 → WritesFunc 0 (0x90000 + 8 * k) v k fun f g => g = { f with s2ctl := g.s2ctl }
      ∧ Keeps v g.s2ctl fun b => span 51 12 b || b == 0)
  ∧ (∀ v k, k < 64 → WritesFunc 0 (0x90400 + 8 * k) v k fun f g => g = { f with shctl := g.shctl } ∧ Keeps v g.shctl (span 51 21))
  ∧ (∀ v k, k < 64 → WritesFunc 0 (0x92000 + 8 * k) v k fun f g => g = { f with s2fault := g.s2fault }
      ∧ ∀ b, g.s2fault.getLsbD b = (f.s2fault.getLsbD b && !(decide (b = 0) && v.getLsbD 0)))
  ∧ (∀ v k, k < 64 → WritesFunc 0 (0x93000 + 32 * k) v k fun f g => g = { f with dlbase := g.dlbase } ∧ Keeps v g.dlbase (span 51 3))
  ∧ (∀ v k, k < 64 → WritesFunc 0 (0x93018 + 32 * k) v k fun f g =>
      g = { f with dlEn := v.getLsbD 0, dlIrq := f.dlIrq && !v.getLsbD 2 })
  ∧ (∀ v k i, k < 64 → i < 4 → WritesFunc 0 (0x94000 + 8 * (4 * k + i)) v k fun f g =>
      (0 < k → f.live = true → f.fenvFixed = false → envelopeOk i v → ∃ w, g = { f with fenv := f.fenv.set i w }
        ∧ if i = 0 then w.extractLsb' 0 8 = v.extractLsb' 0 8 ∧ w.toNat / 2 ^ 8 = 1 else Keeps v w (envelopeBits i))
      ∧ (k = 0 ∨ f.live = false ∨ f.fenvFixed = true ∨ ¬envelopeOk i v → g = f))
  ∧ (∀ fn v a s, a < 4096 → s.responds fn = true → Rising s.asidctl → ∃ t, exec (.registerWrite fn (0x80000 + 8 * a) v) s = .next t ∧ t.mem = s.mem
      ∧ let o := Regs.get s.asidctl a
        let w := Regs.get t.asidctl a
        (fn ≠ 0 → (o.extractLsb' 1 6).toNat ≠ fn → t = s)
        ∧ (fn = 0 ∨ (o.extractLsb' 1 6).toNat = fn → (∀ b, b = 0 ∨ span 51 12 b = true → w.getLsbD b = v.getLsbD b)
            ∧ (∀ b, span 11 7 b = true ∨ 52 ≤ b → w.getLsbD b = false)
            ∧ w.extractLsb' 1 6 = (if fn = 0 ∧ o.getLsbD 0 = false then v else o).extractLsb' 1 6
            ∧ (w.extractLsb' 1 6 ≠ o.extractLsb' 1 6 → ∀ e ∈ t.binds, e.asid ≠ a)
            ∧ ∀ f, s.func (w.extractLsb' 1 6).toNat = some f → t.func (w.extractLsb' 1 6).toNat
                = some { f with fenvFixed := f.fenvFixed || v.getLsbD 0 }))
  ∧ (∀ v, WritesDevice 0xA0000 v fun s t => t = { s with ctxaddr := t.ctxaddr } ∧ Keeps v t.ctxaddr (span 51 12))
  ∧ (∀ v, WritesDevice 0xA0008 v fun s t => t = { s with ctxlen := t.ctxlen } ∧ Keeps v t.ctxlen (span 51 12))
  ∧ (∀ v, WritesDevice 0xA0010 v fun s t => t = { s with ctxmap := t.ctxmap } ∧ Keeps v t.ctxmap (span 51 4))
  ∧ (∀ v, WritesDevice 0xA0018 v fun s t => t = { s with ctxq := t.ctxq } ∧ Keeps v t.ctxq (span 15 0))
  ∧ (∀ v, WritesDevice 0xB0000 v fun s t => ((∀ p ∈ s.peerrt, p.2.getLsbD 0 = false) → t = { s with mydev := t.mydev } ∧ Keeps v t.mydev (span 5 0))
      ∧ ((∃ p ∈ s.peerrt, p.2.getLsbD 0 = true) → t = s))
  ∧ (∀ v k, k < 16 → WritesDevice (0x40000 + 8 * k) v fun s t => ∃ w, t = { s with acmask := s.acmask.set k w } ∧ Keeps v w (span 31 0))
  ∧ (∀ v k, k < 64 → WritesDevice (0xB0100 + 8 * k) v fun s t => t = { s with peerrt := t.peerrt } ∧ (Rising s.peerrt →
      Keeps v (Regs.get t.peerrt k) (fun b => span 19 16 b || b == 0) ∧ ∀ j, j ≠ k → Regs.get t.peerrt j = Regs.get s.peerrt j))
  ∧ ∀ fn off v s, fn ≠ 0 → off ∈ [0xA0000, 0xA0008, 0xA0010, 0xA0018, 0xB0000] ∨ (0x90000 ≤ off ∧ off < 0x95000) ∨ (0x50200 ≤ off ∧ off < 0x50400) →
      exec (.registerWrite fn off v) s = .next s

/-- R356 to R363, R379, R430: queues: creation with its errors and its ID, QCTL, destruction, notification, reserved minima, hardware
slots, and the parser. -/
def Obligations.QueueEvents : Prop :=
  (∀ fn v, Creates (.qcreate fn v) fn v (decide (fn = 0) && v.getLsbD 0) (decide (fn = 0) && v.getLsbD 1))
  ∧ (∀ v, Creates (.qcreateAdopt v) 0 v (v.getLsbD 0) (v.getLsbD 1))
  ∧ (∀ d r, descriptorOk d r = true → (r = false → fieldOf d 0 16 = 0) ∧ fieldOf d 16 2 ≤ 1 ∧ 6 ≤ fieldOf d 26 5 ∧ fieldOf d 26 5 ≤ 20
      ∧ fieldOf d 64 64 % 4096 = 0 ∧ fieldOf d 128 64 % 8 = 0 ∧ fieldOf d 192 64 % 8 = 0 ∧ fieldOf d 48 16 = 0 ∧ fieldOf d 384 128 = 0)
  ∧ (∀ s fn q x, s.responds fn = true → s.queue q = some x → x.fn = fn →
      (x.halted = true → ∃ t, exec (.qctlResume fn q) s = .next t ∧ t.mem = s.mem
        ∧ t.queue q = some { x with
            halted := false, status := 0, detail := 0, notified := true, widx := if x.status = 1 then x.ridx else x.widx }
        ∧ (x.bulk = false → ∀ p ∈ s.pkts, p.queue = q → p.st = .waiting →
            if fieldOf p.bytes 0 8 = 4 then { p with st := .started, sub := 0, aux := [] } ∈ t.pkts else { p with st := .started } ∈ t.pkts))
      ∧ (x.halted = false → exec (.qctlResume fn q) s = .next s)
      ∧ (x.halted = false → ∃ t, exec (.qctlHalt fn q) s = .next t ∧ Halts s t q 7 0)
      ∧ (x.halted = true → exec (.qctlHalt fn q) s = .next s)
      ∧ (∃ t, exec (.qctlDestroy fn q) s = .next t ∧ t.queue q = some { x with destroy := true } ∧ t.mem = s.mem)
      ∧ ∀ v, ∃ t, exec (.notify fn q v) s = .next t ∧ t.mem = s.mem
          ∧ t.queue q = some { x with notify := if x.notify.toNat < v.toNat then v else x.notify, notified := true })
  ∧ (∀ i s fn q, i = .qctlResume fn q ∨ i = .qctlHalt fn q ∨ i = .qctlDestroy fn q ∨ (∃ v, i = .notify fn q v) →
      s.responds fn = false ∨ (∀ x, s.queue q = some x → x.fn ≠ fn) → exec i s = .next s)
  ∧ (∀ s q x, s.queue q = some x → x.destroy = true → (∀ p ∈ s.pkts, p.queue ≠ q) → ∃ t, exec (.queueDestroyEffect q) s = .next t
      ∧ t.queue q = none ∧ t.mem = s.mem ∧ ∀ k, k ≠ q → t.queue k = s.queue k)
  ∧ (∀ s q x, s.queue q = some x → x.destroy = false ∨ (∃ p ∈ s.pkts, p.queue = q) → exec (.queueDestroyEffect q) s = .next s)
  ∧ (∀ c v s a b m n, s.responds 0 = true → s.classmin = [a, b, m, n] → c < 4 →
      let w := s.classmin.set c v.toNat
      exec (.classmin c v) s = .next (if w.sum ≤ 256 then { s with classmin := w } else s))
  ∧ (∀ s, ∃ t, exec .porchMap s = .next t ∧ t = { s with queues := t.queues }
      ∧ (let bare (q : Queue) : Queue := { q with mapped := false, lastMap := 0, reclaim := false }
         t.queues.map bare = s.queues.map bare)
      ∧ ((s.queues.map Queue.id).Nodup → ∀ q ∈ s.queues, (∀ x ∈ s.queues, x.mapped = true → x.reclaim = false ∧ (x.ridx ≠ x.widx ∨ x.notified = true)) →
          q.mapped = false → q.halted = false → q.notified = true ∨ q.ridx < q.widx →
          (∀ x ∈ s.queues, x ≠ q → x.mapped = false → x.halted = false → x.notified = true ∨ x.ridx < x.widx → q.before x = true) →
          0 < s.freeSlots → s.held q.prio < s.classmin.getD q.prio 0 ∨ s.shortfall < s.freeSlots →
          ∃ r, t.queue q.id = some { q with mapped := true, lastMap := s.tick + 1, reclaim := r })
      ∧ ((s.queues.map Queue.id).Nodup → ∀ q ∈ s.queues, q.mapped = true → q.ridx = q.widx → q.notified = false →
          (∀ p ∈ s.pkts, p.queue = q.id → p.st ≠ .held) → t.queue q.id = some { q with mapped := false, reclaim := false }))
  ∧ (∀ s q x, s.queue q = some x → x.mapped = false ∨ x.halted = true ∨ x.notified = false → exec (.parserReadWidx q) s = .next s)
  ∧ (∀ s q x, s.queue q = some x → x.mapped = true → x.halted = false → x.destroy = false → x.reclaim = false → x.notified = true →
      (∀ s1 w, s.parserRead x x.widxa 8 = .fail s1 w → ∃ t, exec (.parserReadWidx q) s = .next t ∧ Halts s1 t q 8 w.code.toNat)
      ∧ ∀ s1 bs, s.parserRead x x.widxa 8 = .ok s1 bs → ∃ t y, exec (.parserReadWidx q) s = .next t ∧ t.queue q = some y ∧ y.widx = leNat bs
          ∧ y.notified = false ∧ y.ridx = x.ridx
          ∧ (x.ridx + 2 ^ x.lsize < leNat bs → y.halted = true ∧ y.status = 1)
          ∧ (leNat bs ≤ x.ridx → y = { x with widx := leNat bs, notified := false }))
  ∧ (∀ q, ParsesSlot (.packetConsume q) q) ∧ (∀ q, ParsesSlot (.parserPoll q) q)
  ∧ ∀ s (q : Queue) k (p : Pkt) s1, s.pkt k = some p → s.queue q.id = some q →
      s.devPut (if q.bulk = true then .bulk q.id else .porch k) q.asid q.ridxa (leBytes 8 (q.ridx + 1)) .syncWrite = .ok s1 () →
      (consume s q k false).mem = s1.mem ∧ (consume s q k false).queue q.id = some { q with ridx := q.ridx + 1 }
        ∧ (consume s q k false).pkt k = some { p with st := .started } ∧ (consume s q k true).pkt k = none

namespace Sys2Proof.Claims
open Sys2Proof.Machine

/-- A packet of a TYPE has started, and its queue is x. -/
def InHand (s : State) (k type : Nat) (p : Pkt) (x : Queue) : Prop :=
  s.pkt k = some p ∧ s.queue p.queue = some x ∧ fieldOf p.bytes 0 8 = type ∧ p.st = .started

/-- Between s and t a packet has completed (R365): it is in flight no more, its region is over, and the others are as they were. -/
def PacketOver (s t : State) (k : Nat) : Prop :=
  t.pkt k = none ∧ (∀ j, j ≠ k → t.pkt j = s.pkt j) ∧ ∀ m ∈ t.marks, m.agent ≠ .porch k

/-- A packet waits with its queue halted; in a graph DETAIL is the packet's number (R365, R377, R379). -/
def PacketHalts (s t : State) (k : Nat) (p : Pkt) (status detail : Nat) : Prop :=
  t.pkt k = some { p with st := .waiting } ∧ ∃ y, s.queue p.queue = some y
    ∧ t.queue p.queue = some { y with halted := true, status := BitVec.ofNat 8 status
                                      detail := BitVec.ofNat 16 (if p.parent.isSome then p.ix + 1 else detail) }

/-- The value that SIGNAL writes over an old one (R371). -/
def SignalLeaves (bs : List Byte) (old new : Nat) : Prop :=
  match fieldOf bs 192 2 with
  | 0 => new = (old + 2 ^ 64 - fieldOf bs 128 64) % 2 ^ 64
  | 1 => new = (old + fieldOf bs 128 64) % 2 ^ 64
  | _ => new = fieldOf bs 128 64

/-- The launch of a LAUNCH packet of the queue x, as it starts (R366, R369, R370). -/
structure Started (s : State) (x : Queue) (k l : Nat) (bs : List Byte) (ln : Launch) : Prop where
  name : ln.id = l ∧ l / 65536 = x.id ∧ ∀ m ∈ s.launches, m.id ≠ l
  origin : ln.queue = x.id ∧ ln.pkt = k ∧ ln.asid = x.asid ∧ ln.fn = x.fn ∧ ln.prio = x.prio
  fields : ln.nblk = fieldOf bs 192 32 ∧ ln.pant = fieldOf bs 224 16 * 65536 ∧ ln.param = BitVec.ofNat 64 (fieldOf bs 128 64)
    ∧ ln.sig = BitVec.ofNat 64 (fieldOf bs 256 64) ∧ ln.diem = fieldOf bs 400 4
  fresh : ln.st = .waiting ∧ ln.blocks = [] ∧ ln.nextB = 0 ∧ ln.saves = 0 ∧ ln.xlats = []

/-- A run of the prologue of a LAUNCH_IND has begun (R374). -/
def RunBegins (bs : List Byte) (p : Prologue) (key runs launches : Nat) : Prop :=
  p.key = key ∧ p.active = true ∧ p.outcome = none ∧ p.launch = none ∧ p.repeats = false ∧ p.steps = 0 ∧ p.runs = runs + 1
    ∧ p.launches = launches ∧ p.pc.toNat = fieldOf bs 64 64 ∧ p.s.length = 16
    ∧ ∀ r, r < 16 → p.s.getD r 0 = if r = 1 then BitVec.ofNat 64 (fieldOf bs 128 64) else if r = 2 then BitVec.ofNat 64 runs else 0

end Sys2Proof.Claims

/-! ### Packets -/

/-- R366, R369 to R378: the packets of command queues: NOP, LAUNCH and its refusals, LAUNCH_IND and the runs of its prologue,
FENCE, SIGNAL, TIMELINE, COPY, FORMAT and GRAPH: what each does, when it completes and when it halts its queue. -/
def Obligations.PacketEvents : Prop :=
  (∀ s k p x, InHand s k 0 p x → ∃ t, exec (.nopPacket k) s = .next t ∧ PacketOver s t k ∧ t.mem = s.mem)
  ∧ (∀ s x k bs, packetOk bs = true → fieldOf bs 0 8 = 1 →
      (∀ s1 r, checkedLaunch s x k bs = .refused s1 r → preStart s x k bs = .halt s1 3 r ∧ s1.launches = s.launches)
      ∧ ∀ s1 i, checkedLaunch s x k bs = .ok s1 i → preStart s x k bs = .ok s1 [] (some i))
  ∧ (∀ s k p x i, InHand s k 1 p x → p.sub = 0 → p.img = some i →
      ((∃ r ∈ s.pkts, r.queue = p.queue ∧ r.parent = p.parent ∧ r.ix < p.ix ∧ fieldOf r.bytes 0 8 = 1 ∧ r.sub = 0) →
        exec (.launch k) s = .next s)
      ∧ (beginLaunch s x k p.bytes i = .wait → exec (.launch k) s = .next s)
      ∧ ((∀ r ∈ s.pkts, r.queue = p.queue → r.parent = p.parent → r.ix < p.ix → fieldOf r.bytes 0 8 = 1 → r.sub ≠ 0) →
          ∀ s1 l, beginLaunch s x k p.bytes i = .ok s1 l → ∃ t ln, exec (.launch k) s = .next t ∧ t.pkt k = some { p with sub := 1 }
            ∧ t.launches = s.launches ++ [ln] ∧ Started s x k l p.bytes ln ∧ ln.img = i ∧ t.mem = s1.mem))
  ∧ (∀ s fn bs (i : Image), (65536 < i.regShare → refusal s fn bs (.ok i) = some 2)
      ∧ (i.regShare ≤ 65536 → 524288 < i.sramShare ∨ 65536 < i.sliceShare → refusal s fn bs (.ok i) = some 3)
      ∧ (i.regShare ≤ 65536 → i.sramShare ≤ 524288 → i.sliceShare ≤ 65536 → i.clg ≠ 0 → fieldOf bs 192 32 % i.clg ≠ 0 →
          refusal s fn bs (.ok i) = some 4)
      ∧ (∀ h, refusal s fn bs (.error (1, h)) = some 1)
      ∧ refusal s fn bs (.error (7, some i)) = some ((refusal s fn bs (.ok i)).getD 7))
  ∧ (∀ s k p x, InHand s k 2 p x →
      ((∀ r ∈ s.prologues, r.key ≠ k) → ∃ t r, exec (.launchInd k) s = .next t ∧ t.prologues = s.prologues ++ [r]
          ∧ RunBegins p.bytes r k 0 0 ∧ t.mem = s.mem)
      ∧ ∀ r o, s.prologues.find? (fun r => r.key == k) = some r → r.outcome = some o → r.active = false → r.launch = none →
          (r.repeats = true → r.launches < fieldOf p.bytes 256 16 →
            exec (.launchInd k) s = .next s ∧ ∃ t r', exec (.prologueRepeat k) s = .next t ∧ RunBegins p.bytes r' k r.runs r.launches
              ∧ t.prologues.find? (fun r => r.key == k) = some r' ∧ t.mem = s.mem)
          ∧ (r.repeats = false ∨ fieldOf p.bytes 256 16 ≤ r.launches →
              exec (.prologueRepeat k) s = .next s
              ∧ (fieldOf p.bytes 192 64 = 0 → ∃ t, exec (.launchInd k) s = .next t ∧ PacketOver s t k ∧ t.mem = s.mem)
              ∧ (fieldOf p.bytes 192 64 ≠ 0 → ∀ s1,
                  s.devPut (.porch k) x.asid (BitVec.ofNat 64 (fieldOf p.bytes 192 64))
                    (leBytes 8 (o.1 + r.launches % 65536 * 65536 + o.2 % 2 ^ 32 * 2 ^ 32)) .plainStore = .ok s1 () →
                  ∃ t, exec (.launchInd k) s = .next t ∧ PacketOver s1 t k ∧ t.mem = s1.mem ∧ ∀ r ∈ t.prologues, r.key ≠ k)))
  ∧ (∀ s k p x, InHand s k 4 p x → p.aux ≠ [] →
      (∀ s1 m, pollFence s k x.asid p.bytes p.aux 0 p.sub = .ok s1 m → ∃ t, exec (.fencePacket k) s = .next t
        ∧ t.pkt k = some { p with sub := m } ∧ t.mem = s1.mem ∧ ∀ b, p.sub.testBit b = true → m.testBit b = true)
      ∧ (∀ s1 w, pollFence s k x.asid p.bytes p.aux 0 p.sub = .fail s1 w → ∃ t, exec (.fencePacket k) s = .next t
          ∧ PacketHalts s1 t k p 5 w.code.toNat)
      ∧ (∀ a n, p.aux = [a, n] → p.sub = 0 → ∀ s1 tr, s.devAccess (.porch k) x.asid a 8 .load .syncRead = .ok s1 tr →
          let v := s1.mem.num tr.pa 8
          let met : Prop := match fieldOf p.bytes 136 2 with
            | 0 => n.toNat ≤ v
            | 1 => v = n.toNat
            | 2 => v ≠ n.toNat
            | _ => v < n.toNat
          ∃ t, exec (.fencePacket k) s = .next t ∧ (met → t.pkt k = some { p with sub := 1 }) ∧ (¬met → t.pkt k = some p)))
  ∧ (∀ s k p x, InHand s k 4 p x → p.aux = [] → ∀ s1 l s2 m, fenceList s k x.asid p.bytes = .ok s1 l →
      pollFence s1 k x.asid p.bytes l 0 p.sub = .ok s2 m → ∃ t, exec (.fencePacket k) s = .next t ∧ t.pkt k = some { p with aux := l, sub := m })
  ∧ (∀ s k p x, InHand s k 4 p x →
      (p.sub + 1 = 2 ^ fieldOf p.bytes 128 4 → ∃ t, exec (.fencePacketComplete k) s = .next t ∧ PacketOver s t k ∧ t.mem = s.mem)
      ∧ (p.sub + 1 ≠ 2 ^ fieldOf p.bytes 128 4 → exec (.fencePacketComplete k) s = .next s))
  ∧ (∀ s k p x, s.pkt k = some p → s.queue p.queue = some x → fieldOf p.bytes 0 8 = 5 → p.sub = 0 → p.st ≠ .waiting →
      p.parent.isSome = true ∨ x.halted = false →
      let acc := s.devAccess (.porch k) x.asid (BitVec.ofNat 64 (fieldOf p.bytes 64 64)) 8 .atomic .syncWrite
      (∀ s1 tr, acc = .ok s1 tr → ∃ t s2 new, exec (.signal k) s = .next t ∧ SignalLeaves p.bytes (s1.mem.num tr.pa 8) new
        ∧ s2.mem = s1.mem.put tr.pa (leBytes 8 new) ∧ (fieldOf p.bytes 194 1 = 1 → (x.fn, 1) ∈ s2.intrs)
        ∧ (p.parent.isSome = true → t.mem = s2.mem ∧ t.intrs = s2.intrs ∧ PacketOver s2 t k)
        ∧ (p.parent = none → s2.pkt k = some { p with sub := 1 } ∧ t = consume s2 x k true))
      ∧ ∀ s1 w, acc = .fail s1 w → ∃ t, exec (.signal k) s = .next t ∧ t.mem = s1.mem
          ∧ (p.parent.isSome = true → PacketHalts s1 t k p 5 w.code.toNat)
          ∧ (p.parent = none → t.pkt k = none ∧ Halts s1 t p.queue 5 w.code.toNat))
  ∧ (∀ s k p x, InHand s k 6 p x →
      (s.counter x.fn none (fieldOf p.bytes 64 32) = none → ∃ t, exec (.timeline k) s = .next t ∧ PacketHalts s t k p 6 0x86)
      ∧ ∀ c, s.counter x.fn none (fieldOf p.bytes 64 32) = some c →
          (fieldOf p.bytes 128 64 ≤ c → ∃ t, exec (.timeline k) s = .next t ∧ PacketOver s t k ∧ t.mem = s.mem)
          ∧ (c < fieldOf p.bytes 128 64 → exec (.timeline k) s = .next s))
  ∧ (∀ s k p x, InHand s k 3 p x →
      let run := bulkCopy s (.porch k) x.asid (BitVec.ofNat 64 (fieldOf p.bytes 64 64)) (BitVec.ofNat 64 (fieldOf p.bytes 128 64))
        (fieldOf p.bytes 192 40) p.sub
      (∀ s1, run = .done s1 → ∃ t, exec (.copyPacket k) s = .next t ∧ t.mem = s1.mem ∧ PacketOver s1 t k)
      ∧ (∀ s1 d, run = .held s1 d → ∃ t, exec (.copyPacket k) s = .next t ∧ t.mem = s1.mem ∧ t.pkt k = some { p with sub := d })
      ∧ ∀ s1 d w, run = .stop s1 d w → p.sub ≤ d ∧ (d = p.sub ∨ d % 128 = 0)
          ∧ ∃ t, exec (.copyPacket k) s = .next t ∧ t.mem = s1.mem ∧ PacketHalts s1 t k { p with sub := d } 4 w.code.toNat)
  ∧ (∀ s k p x f, InHand s k 8 p x → s.func x.fn = some f →
      (p.sub = 0 → if Config.barred s.freeCtr x.fn = true then ∀ s1,
          (if fieldOf p.bytes 192 64 = 0 then Eng.ok { s with freeCtr := s.freeCtr + 1 } ()
            else ({ s with freeCtr := s.freeCtr + 1 } : State).devPut (.porch k) x.asid (BitVec.ofNat 64 (fieldOf p.bytes 192 64))
              (leBytes 8 0xFF) .plainStore) = .ok s1 () →
          ∃ t f', exec (.format k) s = .next t ∧ PacketOver s1 t k ∧ t.mem = s1.mem ∧ t.func x.fn = some f' ∧ f'.stream = f.stream
        else
          (f.stream.reqs.length < 256 → ∃ t f' r, exec (.format k) s = .next t ∧ t.pkt k = some { p with sub := 1 }
            ∧ t.func x.fn = some f' ∧ f'.stream.reqs = f.stream.reqs ++ [r] ∧ r.num = f.stream.next ∧ r.asid = x.asid
            ∧ r.k = fieldOf p.bytes 256 3 ∧ (r.swap = true ↔ fieldOf p.bytes 259 1 = 1) ∧ r.ct.toNat = fieldOf p.bytes 64 64
            ∧ r.obj.toNat = fieldOf p.bytes 128 64 ∧ r.pkt = some k ∧ r.phase = .queued)
          ∧ (256 ≤ f.stream.reqs.length → exec (.format k) s = .next s))
      ∧ (p.sub = 1 → exec (.format k) s = .next s)
      ∧ (2 ≤ p.sub → fieldOf p.bytes 192 64 = 0 → ∃ t, exec (.format k) s = .next t ∧ PacketOver s t k ∧ t.mem = s.mem)
      ∧ (2 ≤ p.sub → fieldOf p.bytes 192 64 ≠ 0 → ∀ s1 v rest, p.aux = v :: rest →
          s.devPut (.porch k) x.asid (BitVec.ofNat 64 (fieldOf p.bytes 192 64)) (leBytes 8 v.toNat) .plainStore = .ok s1 () →
          ∃ t, exec (.format k) s = .next t ∧ PacketOver s1 t k ∧ t.mem = s1.mem))
  ∧ (∀ s k p x g bs, s.pkt k = some p → s.queue p.queue = some x → p.st = .started → s.graphs.find? (fun g => g.key == k) = some g →
      g.pkts[g.next]? = some bs → let flying := s.pkts.filter fun r => r.queue == x.id && r.parent == some k
      (mayStart flying bs = false → exec (.graph k) s = .next s)
      ∧ (mayStart flying bs = true → let s0 : State := { s with nextKey := s.nextKey + 1 }
          (∀ s1 aux img, preStart s0 x s.nextKey bs = .ok s1 aux img → ∃ t, exec (.graph k) s = .next t
            ∧ t.pkts = s1.pkts ++ [⟨s.nextKey, x.id, some k, g.next, bs, .started, 0, aux, img⟩]
            ∧ t.graphs = s1.graphs.map (fun h => if h.key = k then { h with next := h.next + 1 } else h) ∧ t.mem = s1.mem)
          ∧ ∀ s1 st d, preStart s0 x s.nextKey bs = .halt s1 st d → ∃ t, exec (.graph k) s = .next t
              ∧ t.pkt k = some { p with st := .waiting } ∧ Halts s1 t x.id st (g.next + 1)))
  ∧ ∀ s k p x g, s.pkt k = some p → s.queue p.queue = some x → p.st = .started → s.graphs.find? (fun g => g.key == k) = some g →
      (g.next < g.pkts.length → exec (.graphInstanceComplete k) s = .next s)
      ∧ (g.pkts.length ≤ g.next → (∀ r ∈ s.pkts, r.queue = x.id → r.parent ≠ some k) →
          let s1 := s.decSignal k x.asid (BitVec.ofNat 64 (fieldOf p.bytes 128 64))
          ∃ t, exec (.graphInstanceComplete k) s = .next t ∧ t.mem = s1.mem ∧ PacketOver s t k ∧ ∀ h ∈ t.graphs, h.key ≠ k)

/-- R272 to R275, R379: bulk packets: the oldest in flight of a bulk queue does its work, which COPY and FILL take from DONE on;
once done it arrives, writes its record and advances the timeline; suspended at a boundary it writes a record of status 1 or 4 and
halts the queue with status 4. -/
def Obligations.BulkEvents : Prop :=
  (∀ s q x p rest, s.queue q = some x → x.bulk = true → (s.pkts.filter fun r => r.queue == q && r.parent == none) = p :: rest →
    p.st = .started → (∀ r ∈ s.pkts, r.key = p.key → r = p) →
    ((∃ l ∈ s.launches, l.asid = x.asid ∧ l.held = true) → ∀ i ∈ [Instr.bulkPacket q, .bulkRecordWrite q, .bulkPacketFault q],
      exec i s = .next s)
    ∧ ((∀ l ∈ s.launches, l.asid = x.asid → l.held = false) →
    (p.aux = [] → bulkOk p.bytes = false → ∃ t, exec (.bulkPacket q) s = .next t ∧ t.pkt p.key = some { p with aux := [2, 0] } ∧ t.mem = s.mem)
    ∧ (p.aux = [] → bulkOk p.bytes = true → ∀ s1, bulkWork s x p = .done s1 → ∃ t, exec (.bulkPacket q) s = .next t ∧ t.mem = s1.mem
        ∧ t.pkt p.key = some { p with aux := [0, 0], sub := if fieldOf p.bytes 0 8 = 0 then 0 else fieldOf p.bytes 192 40 })
    ∧ (p.aux = [] → bulkOk p.bytes = true → ∀ s1 d, bulkWork s x p = .held s1 d →
        ∃ t, exec (.bulkPacket q) s = .next t ∧ t.mem = s1.mem ∧ t.pkt p.key = some { p with sub := d })
    ∧ (p.aux = [] → bulkOk p.bytes = true → ∀ s1 d w, bulkWork s x p = .stop s1 d w →
        exec (.bulkPacket q) s = .next s ∧ p.sub ≤ d ∧ (d = p.sub ∨ d % 128 = 0)
        ∧ ∀ s2, writeRecord s1 x p (bulkRecord x p (if w.cause = 0x60#8 then 4 else 1) w.code d w.addr) = .ok s2 () →
            ∃ t, exec (.bulkPacketFault q) s = .next t ∧ t.mem = s2.mem ∧ t.pkt p.key = some { p with sub := d, st := .waiting }
              ∧ Halts s2 t q 4 w.code.toNat)
    ∧ (p.aux = [0, 0] → ∀ s1 w, bulkArrive s x p = .fail s1 w →
        ∀ s2, writeRecord s1 x p (bulkRecord x p (if w.cause = 0x60#8 then 4 else 1) w.code p.sub w.addr) = .ok s2 () →
          ∃ t, exec (.bulkPacketFault q) s = .next t ∧ t.pkt p.key = some { p with st := .waiting } ∧ Halts s2 t q 4 w.code.toNat)
    ∧ ∀ st u s1 s2 refused s3, p.aux = [st, u] → recordRoom s x p = .ok s1 () →
        (if st = 0 then bulkArrive s1 x p else .ok s1 false) = .ok s2 refused →
        writeRecord s2 x p (bulkRecord x p st.toNat (if refused = true then 0x62#8 else 0) p.sub 0) = .ok s3 () →
        ∃ t y, exec (.bulkRecordWrite q) s = .next t ∧ t.mem = s3.mem ∧ PacketOver s3 t p.key ∧ t.queue q = some y
          ∧ y = { x with timeline := p.ix + 1 } ∧ ∀ m ∈ t.marks, m.agent ≠ .bulk q))
  ∧ (∀ s (x : Queue) p, fieldOf p.bytes 0 8 = 0 → bulkWork s x p = .done s)
  ∧ ∀ (q : Queue) p status c done faddr, status < 256 → let bs := bulkRecord q p status c done faddr
      let f (at_ n : Nat) : Nat := leNat ((bs.drop at_).take n)
      bs.length = 32 ∧ f 0 1 = status ∧ f 2 1 = c.toNat ∧ f 4 2 = fieldOf p.bytes 16 16
        ∧ f 8 8 = done % 2 ^ 64 ∧ f 16 8 = p.ix % 2 ^ 64 ∧ f 24 8 = faddr.toNat
        ∧ f 1 1 = (if p.ix / 2 ^ q.clsz % 2 = 0 then 1 else 0)

namespace Sys2Proof.Claims
open Sys2Proof.Machine

/-- A team at entry (R18, R20, R84, R85): its seats hold lanes kS to kS + S - 1 of the block, active below L, helpers in the last quad,
all registers and predicates 0; one fragment at the entry point with every active lane; nothing in progress. -/
def TeamEnters (i : Image) (tent : DWord) (k : Nat) (u : Team) : Prop :=
  let n := 32 * ((i.lanes + 32 * i.teams - 1) / (32 * i.teams))
  u.seats.length = n
    ∧ (∀ j, j < n → let y := u.seat j; let b := k * n + j
        y.lane = j ∧ y.preds = 0 ∧ y.vregs = List.replicate i.regs 0
          ∧ (b < i.lanes → y.st = .active ∧ y.helper = false)
          ∧ (i.lanes ≤ b → b / 4 = (i.lanes - 1) / 4 → y.st = .active ∧ y.helper = true)
          ∧ (i.lanes ≤ b → b / 4 ≠ (i.lanes - 1) / 4 → y.st = .absent))
    ∧ (∀ f ∈ u.frags, f.pc = tent ∧ f.parked = false ∧ f.stalled = false ∧ ∀ j, j < n → n ≤ 1024 →
        (f.mask.getLsbD j = true ↔ (u.seat j).st = .active))
    ∧ (u.frags = [] ↔ ∀ j, j < n → (u.seat j).st ≠ .active) ∧ u.frags.length ≤ 1
    ∧ u.asf = 0 ∧ u.ate = 0 ∧ u.qprog = 0 ∧ u.pend = [] ∧ u.parked = none ∧ u.copy.ops = [] ∧ u.hearth.ops = []
    ∧ u.copy.nextBatch = 1 ∧ u.hearth.nextNum = 1 ∧ u.shapes = List.replicate 16 0

/-- A block at entry on a core. -/
def BlockEnters (ln : Launch) (b : Nat) (u : Unit3) (x : Block) : Prop :=
  x.id = b ∧ x.place = u ∧ x.runsOn = u ∧ x.dq = [] ∧ x.bars = [] ∧ x.scratch = [] ∧ x.slices = []
    ∧ x.foyer.pc = ln.entryImage.fent ∧ x.foyer.s.length = 64
    ∧ (∀ r, r < 64 → x.foyer.s.getD r 0 = if r = 1 then ln.param else if r = 2 then BitVec.ofNat 64 b else 0)
    ∧ x.foyer.sexit = false ∧ x.foyer.parked = none ∧ x.teams.length = ln.img.teams
    ∧ (∀ k u, x.teams[k]? = some u → TeamEnters ln.img ln.entryImage.tent k u)
    ∧ x.solve.state = 0 ∧ x.solve.ceil = 65535 ∧ x.solve.timeline = 0

/-- The Hearth operation n is the oldest of its team's context and may go on (R321). -/
structure AtWork (s : State) (l b k n : Nat) (x : EngAgent) (tm : Team) (o : HOp) (rest : List HOp) (ct : SlotCt) : Prop where
  where_ : s.launch l = some x.l ∧ x.l.block b = some x.b ∧ x.b.teams[k]? = some tm ∧ x.a = .hearth l b k ∧ x.op = o.num
  runs : x.l.st = .running ∧ tm.stop = false
  oldest : tm.hearth.ops = o :: rest ∧ o.num = n ∧ o.susp = none
  granted : o.kind ≠ .mopen → o.kind ≠ .mclose → o.granted = true
  container : ct = o.bind.bind fun i => (s.bindings.find? fun b => b.id == i).map Binding.ct

/-- The operation o has completed (R321, R330): it has left the context, the timeline stands at its number, and a close has left its
MO and ML. -/
def Retired (t : State) (l b k : Nat) (o : HOp) (rest : List HOp) (tm : Team) (f : BitVec 7) : Prop :=
  ∃ u, t.team l b k = some u ∧ u.hearth.timeline = o.num ∧ u.hearth.ops = rest.filter (fun p => p.num != o.num)
    ∧ u.hearth.flags = (if f = 0 then tm.hearth.flags else tm.hearth.flags ++ [(o.num, f)]) ∧ u.hearth.nextNum = tm.hearth.nextNum
    ∧ u.asf = tm.asf ∧ u.frags = tm.frags ∧ u.copy = tm.copy

/-- An engine may go on for a block's solve context: its launch runs, the context is active, every team that has not exited waits
at w, and one does (R457, R458). -/
def SolveReady (s : State) (l b : Nat) (w : SolveWait) (x : EngAgent) : Prop :=
  s.launch l = some x.l ∧ x.l.block b = some x.b ∧ x.a = .solve l b ∧ x.op = 0 ∧ x.l.st = .running ∧ x.b.solve.state = 1
    ∧ (∀ y k, x.b.solve.phase ≠ .suspended y k) ∧ (∀ r, x.b.solve.phase ≠ .decided r)
    ∧ (∃ t ∈ x.b.teams, t.exited = false) ∧ ∀ t ∈ x.b.teams, t.exited = false → t.solve = w ∧ t.stop = false

/-- The solve context and the teams of a block in a state. -/
def solveNow (t : State) (l b : Nat) : Option (Solve × List Team) :=
  ((t.launch l).bind fun l => l.block b).map fun x => (x.solve, x.teams)

end Sys2Proof.Claims

/-! ### Residency and engines -/

/-- R85, R138 to R140, R157, R202, R328, R369: a block, or a whole group, becomes resident with its entry state where its cores can take
it; it completes once its Foyer has ended and its teams have exited with their engine work done; a launch completes with its blocks:
SIG falls by 1, the launch leaves, its packet completes. -/
def Obligations.Residency : Prop :=
  (∀ (s : State) l d c k ln, s.launch l = some ln → (ln.st = .waiting ∨ ln.st = .running) → ln.nextB < ln.nblk → ∀ s1, s.givePantry ln = some s1 →
      (ln.img.clg = 0 → s1.canTake ln ⟨d, c, k⟩ = true → ∃ t ln' x, exec (.blockResident l d c k) s = .next t ∧ t.launch l = some ln'
        ∧ ln'.st = .running ∧ ln'.nextB = ln.nextB + 1 ∧ ln'.blocks = ln.blocks ++ [x] ∧ ln'.groups = ln.groups
        ∧ BlockEnters ln ln.nextB ⟨d, c, k⟩ x ∧ t.mem = s.mem)
      ∧ (ln.img.clg ≠ 0 → (∀ j, j < ln.img.clg → s1.canTake ln ⟨d, c, j⟩ = true) → ∃ t ln' xs, exec (.blockResident l d c k) s = .next t
          ∧ t.launch l = some ln' ∧ ln'.st = .running ∧ ln'.nextB = ln.nextB + ln.img.clg ∧ ln'.blocks = ln.blocks ++ xs
          ∧ xs.length = ln.img.clg ∧ (∀ j x, xs[j]? = some x → BlockEnters ln (ln.nextB + j) ⟨d, c, j⟩ x)
          ∧ ln'.groups = ln.groups ++ [⟨ln.nextB / ln.img.clg, [], []⟩])
      ∧ (s1.canTake ln ⟨d, c, if ln.img.clg = 0 then k else 0⟩ = false → exec (.blockResident l d c k) s = .next s1))
  ∧ (∀ (s : State) l d c k ln, s.launch l = some ln → ln.nblk ≤ ln.nextB ∨ s.givePantry ln = none → exec (.blockResident l d c k) s = .next s)
  ∧ (∀ (s : State) (ln : Launch), ln.st = .waiting → (∀ d ∈ s.diesOf ln, s.pantryUsed d + ln.pant ≤ 48 * 2 ^ 20) → s.launch ln.id = some ln →
      ∃ s1, s.givePantry ln = some s1
        ∧ s1.launch ln.id = some { ln with st := .running, pantry := (s.diesOf ln).map (fun d => (d, [])), code := s.mem })
  ∧ (∀ (s : State) (ln : Launch) u, s.canTake ln u = true → u.core < 4 ∧ u.cluster < (s.units ln.fn).2 ∧ u.die < (s.units ln.fn).1
      ∧ (∀ p, ln.pin = some p → p = u) ∧ (ln.diem ≠ 0 → ln.diem.testBit u.die = true) ∧ fitsCore (ln.img :: s.residents u) = true)
  ∧ (∀ (is : List Image), fitsCore is = true → is.length ≤ 4 ∧ (is.map Image.regShare).sum ≤ 65536 ∧ (is.map Image.sramShare).sum ≤ 524288
      ∧ (is.map Image.sliceShare).sum ≤ 65536)
  ∧ (∀ (s : State) l b ln x, s.launch l = some ln → ln.block b = some x → ln.st = .running →
      let done : Prop := x.foyer.sexit = true ∧ ∀ u ∈ x.teams, u.exited = true ∧ (∀ o ∈ u.copy.ops, o.done = true) ∧ u.hearth.ops = []
      (done → ∃ t ln', exec (.blockComplete l b) s = .next t ∧ t.launch l = some ln' ∧ ln'.blocks = ln.blocks.filter (fun y => y.id != b)
        ∧ ln'.finals = ln.finals ++ [(b, x.solve.timeline)] ∧ t.mem = s.mem
        ∧ ∀ g ∈ ln.groups, g ∈ ln'.groups ↔ ∃ y ∈ ln'.blocks, y.id / ln.img.clg = g.id)
      ∧ (¬done → exec (.blockComplete l b) s = .next s))
  ∧ (∀ (s : State) l ln, s.launch l = some ln → (∀ r ∈ s.records, r.launch = l → r.ix ≠ none) →
      ln.st = .ended ∨ (ln.st = .running ∧ ln.nblk ≤ ln.nextB ∧ ln.blocks = [] ∧ ∀ t ∈ s.tiles, t.owner.ofLaunch l = false) →
      ∃ t, exec (.launchComplete l) s = .next t ∧ t.launch l = none ∧ (∀ r ∈ t.records, r.launch ≠ l)
        ∧ (∀ j, j ≠ l → t.launch j = s.launch j)
        ∧ (ln.sig = 0 → t.mem = s.drainAll.mem)
        ∧ (ln.sig ≠ 0 → ∀ s1 tr, s.drainAll.devAccess (.porch ln.pkt) ln.asid ln.sig 8 .atomic .syncWrite = .ok s1 tr →
            t.mem = s1.mem.put tr.pa (leBytes 8 ((s1.mem.num tr.pa 8 + (2 ^ 64 - 1)) % 2 ^ 64)))
        ∧ ((∀ p ∈ s.prologues, p.key ≠ ln.pkt) → t.pkt ln.pkt = none)
        ∧ ∀ p ∈ s.prologues, p.key = ln.pkt → { p with launch := none } ∈ t.prologues)
  ∧ ∀ (s : State) l ln, s.launch l = some ln → ln.st = .waiting ∨ ln.st = .stopped ∨ ln.st = .evicted ∨ (ln.st = .running ∧ ln.nextB < ln.nblk)
      ∨ (ln.st = .running ∧ ln.blocks ≠ []) → exec (.launchComplete l) s = .next s

/-- R256, R260, R262, R266, R303, R304, R313 to R324, R333 to R335, R454, R457 to R464: copies complete, with their batches, or are
suspended; the arbiter grants quadrants; passes merge into open tiles, operations retire or are suspended; tiles take contributions
and close rounded once; and the mixing engine copies, evaluates, decides and reports its faults. -/
def Obligations.EngineEvents : Prop :=
  (∀ (s : State) l b k bt pos x o ct tm, s.copyEnv l b k bt pos = some (x, o, ct) → s.team l b k = some tm →
      (∀ s1 f, runCopy s x o ct = .done s1 f → ∃ t u, exec (.copyComplete l b k bt pos) s = .next t ∧ t.mem = s1.mem
        ∧ (∀ m, m ∈ t.marks ↔ m ∈ s1.marks ∧ ¬(m.agent = x.a ∧ m.op = o.key))
        ∧ t.team l b k = some u ∧ u.seats = tm.seats ∧ u.frags = tm.frags ∧ u.asf = tm.asf ∧ u.copy.nextBatch = tm.copy.nextBatch
        ∧ (let ops := tm.copy.ops.map fun p => if p.batch = bt ∧ p.pos = pos then
              { p with done := true, flags := p.flags ||| f, bind := none } else p
           u.copy.ops = ops.filter (fun p => p.batch ≤ tm.copy.timeline || u.copy.timeline < p.batch)
           ∧ tm.copy.timeline ≤ u.copy.timeline
           ∧ (∀ n, tm.copy.timeline < n → n ≤ u.copy.timeline → n < tm.copy.nextBatch ∧ ∀ p ∈ ops, p.batch = n → p.done = true)
           ∧ (u.copy.timeline + 1 < tm.copy.nextBatch → ∃ p ∈ ops, p.batch = u.copy.timeline + 1 ∧ p.done = false)))
      ∧ (∀ s1 p f w, runCopy s x o ct = .stop s1 p f w → tm.exited = false → exec (.copyComplete l b k bt pos) s = .next s
          ∧ ∃ t u, exec (.copySuspend l b k bt pos) s = .next t ∧ t.mem = s1.mem ∧ t.team l b k = some u ∧ u.seats = tm.seats
            ∧ u.copy = { tm.copy with ops := tm.copy.ops.map fun q => if q.batch = bt ∧ q.pos = pos then
                { q with progress := p, flags := q.flags ||| f, susp := some w } else q })
      ∧ (∀ s1 p f, runCopy s x o ct = .held s1 p f → exec (.copySuspend l b k bt pos) s = .next s
          ∧ ∃ t u, exec (.copyComplete l b k bt pos) s = .next t ∧ t.mem = s1.mem ∧ t.team l b k = some u ∧ u.seats = tm.seats
            ∧ u.copy = { tm.copy with ops := tm.copy.ops.map fun q => if q.batch = bt ∧ q.pos = pos then
                { q with progress := p, flags := q.flags ||| f, susp := none } else q }))
  ∧ (∀ (o : CopyOp) ln b, o.form ≠ 1 → o.moves ln b = (List.range (shCount o.dst)).map fun n => ⟨some (b, ixOf o.dst n), ixOf o.dst n⟩)
  ∧ (∀ (o : CopyOp) ln b m, o.form = 1 → m ∈ o.moves ln b → let d := o.xbits / 4 % 4; let lo := shHaloLo o.src d; let n := shExt o.src d
      (m.dst.get d < lo ∧ m.src = (neighbour ln b (shHz o.src) false).map fun q => (q, m.dst.at d (n - lo + m.dst.get d)))
      ∨ (lo + n ≤ m.dst.get d ∧ m.src = (neighbour ln b (shHz o.src) true).map fun q => (q, m.dst.at d (m.dst.get d - lo - n))))
  ∧ (∀ s, ∃ t, exec .hearthGrant s = .next t ∧ t = { s with launches := t.launches }
      ∧ ∀ l b k x, s.team l b k = some x → ∃ u, t.team l b k = some u ∧ u = { x with hearth := { x.hearth with ops := u.hearth.ops } }
          ∧ (let bare (o : HOp) : HOp := { o with granted := false, waiting := false }
             u.hearth.ops.map bare = x.hearth.ops.map bare)
          ∧ (∀ (j : Nat) (o : HOp), x.hearth.ops[j]? = some o → o.granted = true → ∃ o', u.hearth.ops[j]? = some o' ∧ o'.granted = true)
          ∧ ∀ ln y (o : HOp), s.launch l = some ln → ln.block b = some y → s.clusterOps y.runsOn.die y.runsOn.cluster =
              [⟨l, b, k, o.num, ln.prio, o.age, o.quads y.runsOn.core, false⟩] → ∀ p ∈ u.hearth.ops, p.num = o.num → p.granted = true)
  ∧ (∀ s l b k n x tm o rest ct, AtWork s l b k n x tm o rest ct → (o.kind = .mma ∨ o.kind = .mdist) →
      (o.passes < o.np → exec (.hearthOpComplete l b k n) s = .next s)
      ∧ (∀ s1, o.passes < o.np → passWork s x tm o ct = .ok s1 () → ∃ t u, exec (.hearthPass l b k n) s = .next t ∧ t.tiles = s1.tiles
          ∧ t.mem = s1.mem ∧ t.team l b k = some u ∧ u.seats = tm.seats
          ∧ u.hearth = { tm.hearth with ops := tm.hearth.ops.map fun p => if p.num = n then { p with passes := p.passes + 1 } else p })
      ∧ (o.np ≤ o.passes → exec (.hearthPass l b k n) s = .next s
          ∧ ∃ t, exec (.hearthOpComplete l b k n) s = .next t ∧ Retired t l b k o rest tm 0 ∧ t.mem = s.mem ∧ t.tiles = s.tiles))
  ∧ (∀ s l b k n x tm o rest ct, AtWork s l b k n x tm o rest ct → o.kind = .mopen → ∀ s1, openTile s x o = .ok s1 () →
      (∀ s0 pa, o.waiting = false → hearthTile s x o.cSh .load = .ok s0 pa →
        (s.tiles.filter fun c => !c.spilled && (!isHbm c.pa || !isHbm pa || c.pa / 0x3000000000 == pa / 0x3000000000)).length < 32 →
        ∃ t, exec (.hearthOpComplete l b k n) s = .next t ∧ Retired t l b k o rest tm 0 ∧ t.tiles = s1.tiles ∧ t.mem = s1.mem)
      ∧ (o.waiting = true → exec (.hearthOpComplete l b k n) s = .next s)
      ∧ (o.waiting = true → cellsFit s1.openTiles = true → ∃ t, exec (.mopenCellsAvailable l b k n) s = .next t
          ∧ Retired t l b k o rest tm 0 ∧ t.tiles = s1.tiles ∧ t.mem = s1.mem)
      ∧ (o.waiting = true → cellsFit s1.openTiles = false → exec (.mopenCellsAvailable l b k n) s = .next s))
  ∧ (∀ (s : State) x o s1, openTile s x o = .ok s1 () → ∃ pa c, (∃ s0, hearthTile s x o.cSh .load = .ok s0 pa) ∧ s.tile pa = none ∧ s1.tiles = s.tiles ++ [c]
      ∧ c.pa = pa ∧ c.w = shExt o.cSh 0 ∧ c.owner = x.a ∧ c.spilled = false ∧ c.count = 1)
  ∧ (∀ s l b k n x tm o rest ct s1 f, AtWork s l b k n x tm o rest ct → o.kind = .mclose → closeTile s x o = .ok s1 f →
      ∃ t, exec (.hearthOpComplete l b k n) s = .next t ∧ Retired t l b k o rest tm f ∧ t.tiles = s1.tiles ∧ t.mem = s1.mem)
  ∧ (∀ s l b k n x tm o rest ct s1 rows, AtWork s l b k n x tm o rest ct → o.kind = .mtopk → topRows s x o.cSh = .ok s1 rows →
      ∃ t, exec (.hearthOpComplete l b k n) s = .next t ∧ Retired t l b k o rest tm 0 ∧ t.mem = s1.mem)
  ∧ (∀ n row, let best := topOf n row
      best.length = min n row.length ∧ (∀ p ∈ best, row[p.2]? = some p.1)
        ∧ best.Pairwise (fun p q => topKey p.1 < topKey q.1 ∨ topKey p.1 = topKey q.1 ∧ p.2 < q.2)
        ∧ ∀ i v, row[i]? = some v → (v, i) ∉ best → ∀ p ∈ best, topKey p.1 < topKey v ∨ topKey p.1 = topKey v ∧ p.2 < i)
  ∧ (∀ s l b k n x tm o rest ct s1 w, AtWork s l b k n x tm o rest ct → opWork s x tm o ct = .fail s1 w → tm.exited = false →
      ∃ t u, exec (.hearthEngineFault l b k n) s = .next t ∧ t.mem = s.mem ∧ t.tiles = s.tiles ∧ t.team l b k = some u ∧ u.seats = tm.seats
        ∧ u.hearth = { tm.hearth with ops := tm.hearth.ops.map fun p => if p.num = n then
            { p with susp := some w, waiting := false, granted := false } else p })
  ∧ (∀ a c v m, let r := addContribution a c v
      (v.isNan = true → r = ({ c with nan := true }, false, false))
      ∧ (v = .inf m → r = (if m then { c with ninf := true } else { c with pinf := true }, false, false))
      ∧ ∀ q : Rat, number v = some q →
          ((2 : Rat) ^ (a + 14) ≤ q.abs → r = ({ c with mo := true }, true, false))
          ∧ (q.abs < (2 : Rat) ^ (a + 14) → ∃ d : Int, r = ({ c with n := c.n + d }, false, decide (q ≠ 0 ∧ d = 0))
              ∧ (q - d * (2 : Rat) ^ (a - 96)).abs ≤ (2 : Rat) ^ (a - 97)
              ∧ ((q - d * (2 : Rat) ^ (a - 96)).abs = (2 : Rat) ^ (a - 97) → d % 2 = 0)))
  ∧ (∀ a os (c : MCell), (c.nan = true ∨ c.mo = true ∨ (c.pinf = true ∧ c.ninf = true) → closeCell a os c = fmtF32.cnan)
      ∧ closeCell a os c ≠ fmtF32.zero true
      ∧ (c.nan = false → c.mo = false → c.pinf = true → c.ninf = false → closeCell a os c = fmtF32.infinity false)
      ∧ (c.nan = false → c.mo = false → c.pinf = false → c.ninf = true → closeCell a os c = fmtF32.infinity true)
      ∧ (c.nan = false → c.mo = false → c.pinf = false → c.ninf = false → c.n ≠ 0 →
          Rounded fmtF32 .rn (c.n * (2 : Rat) ^ (a - 96 + os)) (closeCell a os c)))
  ∧ (∀ s l b x, SolveReady s l b .atBegin x → ∀ s1 vs, readCarried s x (carried x.b.solve.tiles) = .ok s1 vs →
      ∃ t v ts, exec (.solveActivationCopy l b) s = .next t ∧ t.mem = s1.mem ∧ solveNow t l b = some (v, ts)
        ∧ v = { x.b.solve with phase := .idle }
        ∧ ts = x.b.teams.map (fun u => if u.solve = .atBegin then { u with solve := .exitNow } else u)
        ∧ ((t.launch l).map Launch.pantry = ((s1.putHistory x 0 vs).launch l).map Launch.pantry))
  ∧ (∀ s l b x, SolveReady s l b .atEnd x → ∀ t, evaluate s x = (t, none) → exec (.solveEvaluation l b) s = .next t)
  ∧ (∀ s l b x done, SolveReady s l b .atEnd x → x.b.solve.phase = .evaluating (done + 1) →
      let es := carried x.b.solve.tiles
      let ps := (List.range es.length).zip es |>.map fun p => (⟨p.2, p.1⟩ : Mix)
      ∀ n fl s1, writeBackAll s x es.length ((ps.drop done).take (32 - done % 32)) done x.b.solve.flags = (n, fl, .ok s1 ()) →
        ∃ t v ts, exec (.solveEvaluation l b) s = .next t ∧ t.mem = s1.mem ∧ solveNow t l b = some (v, ts) ∧ ts = x.b.teams
          ∧ v = { x.b.solve with flags := fl, phase := if n < es.length then .evaluating (n + 1) else .decided true }
          ∧ (done ≤ es.length → n = min es.length (done + (32 - done % 32))))
  ∧ (∀ s l b x ts, SolveReady s l b .atEnd x → let xs := s.history x 0 ts.length
      let f := vZip vSub ts xs
      let d := vDot f.1 f.1
      let nrm := (fmtF32.sqrt .rn false d.1).1
      let t := evaluateWith s x ts
      nrm < 2 ^ 32 → (∃ m e, fmtF32.unpack nrm = .fin false m e) →
        (∃ v ts', solveNow t l b = some (v, ts') ∧ v.norm.toNat = nrm ∧ v.iter = x.b.solve.iter + 1 ∧ v.tiles = x.b.solve.tiles
          ∧ ((fmtF32.compare .lt nrm x.b.solve.thresh.toNat).1 = true → v.phase = .decided false ∧ v.state = 1)
          ∧ ((fmtF32.compare .lt nrm x.b.solve.thresh.toNat).1 = false → x.b.solve.ceil.toNat ≤ x.b.solve.iter + 1 →
              v.state = 3 ∧ v.timeline = x.b.solve.timeline + 1)
          ∧ ((fmtF32.compare .lt nrm x.b.solve.thresh.toNat).1 = false → x.b.solve.iter + 1 < x.b.solve.ceil.toNat →
              v.phase = .evaluating 1 ∧ v.cols = min x.b.solve.iter x.b.solve.depth.toNat)))
  ∧ (∀ (s : State) l b ln x rep, s.launch l = some ln → ln.block b = some x → ln.st = .running → x.solve.phase = .decided rep →
      (if rep = true then x.solve.repeats < 127 else x.solve.exits < 1) → ∃ t v ts, exec (.solveDecision l b) s = .next t ∧ t.mem = s.mem
        ∧ solveNow t l b = some (v, ts)
        ∧ v = { x.solve with timeline := x.solve.timeline + 1, flags := 0, phase := .idle, state := if rep then x.solve.state else 2
                             repeats := if rep then x.solve.repeats + 1 else x.solve.repeats
                             exits := if rep then x.solve.exits else x.solve.exits + 1 }
        ∧ ts = x.teams.map fun u => { u with asf := u.asf ||| x.solve.flags.zeroExtend 32
                                             solve := if u.solve = .atEnd then (if rep then .repeatTo else .exitNow) else u.solve })
  ∧ (∀ (s : State) l b ln x rep, s.launch l = some ln → ln.block b = some x → x.solve.phase = .decided rep →
      (if rep = true then 127 ≤ x.solve.repeats else 1 ≤ x.solve.exits) → exec (.solveDecision l b) s = .next s)
  ∧ ∀ s l b x, SolveReady s l b .atBegin x → ∀ s1 w, readCarried s x (carried x.b.solve.tiles) = .fail s1 w →
      exec (.solveActivationCopy l b) s = .next s
      ∧ ∃ t v ts, exec (.solveEngineFault l b) s = .next t ∧ (x.l.ring ≠ none → x.l.dstop = false → solveNow t l b = some (v, ts)
          ∧ v.phase = .suspended w 0
          ∧ ∀ (k : Nat) (u : Team), x.b.teams[k]? = some u → u.solve = .atBegin → u.exited = false → u.frags ≠ [] → u.parked = none → ∃ u' : Team, ts[k]? = some u'
              ∧ u'.parked ≠ none ∧ u'.solve = .atBegin)

namespace Sys2Proof.Claims
open Sys2Proof.Machine

/-- CTXSTAT tells that a command has ended (R416). -/
def CtxIs (t : State) (status detail len : Nat) : Prop :=
  t.ctxcmd = none ∧ t.ctxstat.extractLsb' 8 8 = BitVec.ofNat 8 status ∧ t.ctxstat.extractLsb' 16 8 = BitVec.ofNat 8 detail
    ∧ t.ctxstat.extractLsb' 32 32 = BitVec.ofNat 32 len ∧ t.ctxstat.getLsbD 0 = false

/-- The command of an event is taken: the physical function responds and no other command is in progress (R416). -/
def Taken (s : State) (op arg : Nat) : Prop := s.responds 0 = true ∧ (s.ctxcmd = none ∨ s.ctxcmd = some (op, arg))

/-- The request r, the head of a stream, has completed with a status: the timeline, LSTAT and REQ, and the FORMAT packet that
made it (R346, R347, R355, R371). -/
def RequestEnds (s t : State) (fn : Nat) (r : FmReq) (rest : List FmReq) (st : Nat) : Prop :=
  (∃ f, t.func fn = some f ∧ f.stream.timeline = r.num ∧ f.stream.reqs = rest)
    ∧ (∃ e, t.bindEntry r.asid r.k = some e ∧ e.lstat = BitVec.ofNat 8 st ∧ e.req = BitVec.ofNat 16 r.num)
    ∧ ∀ k p, r.pkt = some k → s.pkt k = some p → t.pkt k = some { p with sub := 2, aux := [BitVec.ofNat 64 (r.num * 256 + st)] }

/-- The event i ends the request r: with an object it also arrives there, or tells the launch that made it why not (R347). -/
def EndsRequest (i : Instr) (s s1 : State) (fn : Nat) (r : FmReq) (rest : List FmReq) (st : Nat) : Prop :=
  (r.obj = 0 → ∃ t, exec i s = .next t ∧ RequestEnds s t fn r rest st ∧ t.mem = s1.mem)
    ∧ (r.obj ≠ 0 → r.origin = none → ∃ t, exec i s = .next t ∧ (t ≠ s1 → RequestEnds s t fn r rest st))

/-- The head of a function's stream. -/
def Heads (s : State) (fn : Nat) (r : FmReq) (rest : List FmReq) : Prop := ∃ f, s.func fn = some f ∧ f.stream.reqs = r :: rest

/-- A read by the host of a register to which a function responds: it gives what the register holds, and leaves nothing else (R10). -/
def RegisterReads (i : Instr) (fn : Nat) (v : State → DWord) : Prop :=
  ∀ s f, s.responds fn = true → s.func fn = some f → ∃ t, exec i s = .next t ∧ t = { s with mmio := t.mmio } ∧ t.mmio = v s

/-- A STOP or EVICT of a launch (R417, R421). -/
def Saves (i : Instr) (op l : Nat) (evict : Bool) : Prop :=
  ∀ s, Taken s op l →
    (∀ x, s.launch l = none ∨ (s.launch l = some x ∧ (x.st = .evicted ∨ x.st = .ended)) → ∃ t, exec i s = .next t ∧ CtxIs t 9 0 0
      ∧ t.launches = s.launches ∧ t.mem = s.mem)
    ∧ ∀ x y, s.launch l = some x → x.st ≠ .evicted → x.st ≠ .ended → (s.stopLaunch x).launch l = some y →
        ((∃ r ∈ s.records, r.launch = l ∧ r.ix = none) → ∃ t, exec i s = .next t ∧ t.ctxcmd = some (op, l)
          ∧ ∃ z, t.launch l = some z ∧ z.st = .stopped)
        ∧ ((∀ r ∈ s.records, r.launch = l → r.ix ≠ none) → let img := imageBytes (s.stopLaunch x) y evict
            (s.ctxlen.toNat < img.length → ∃ t z, exec i s = .next t ∧ CtxIs t 2 0 img.length ∧ t.launch l = some z ∧ z.st = .stopped
              ∧ z.saves = x.saves)
            ∧ (img.length ≤ s.ctxlen.toNat → ∃ t z, exec i s = .next t ∧ CtxIs t 0 0 img.length ∧ t.launch l = some z
                ∧ z.saves = x.saves + 1 ∧ (if evict then z.st = .evicted ∧ z.blocks = [] ∧ z.groups = [] ∧ z.pantry = [] else z.st = .stopped)
                ∧ (evict = true → (∀ c ∈ t.tiles, c.owner.ofLaunch l = true → c.spilled = true) ∧ ∀ r ∈ t.records, r.launch = l → r.kind = 3)
                ∧ (s.Inv → spanBacked s.ctxaddr.toNat img.length = true → t.mem.bytes s.ctxaddr.toNat img.length = img)))

end Sys2Proof.Claims

/-! ### Contexts and the format manager -/

/-- R344, R346 to R350, R416 to R421, R426, R427: the format manager's requests start, drain, reconfigure and end; STOP, EVICT,
RESUME, DETACH, RESTORE and QUIESCE with their statuses, what a stop leaves of each agent, and the image's header. -/
def Obligations.ContextEvents : Prop :=
  (∀ l, Saves (.ctxStop l) 1 l false) ∧ (∀ l, Saves (.ctxEvict l) 2 l true)
  ∧ (∀ (s : State) (x : Launch) l b k u, (s.stopLaunch x).team l b k = some u → l = x.id → s.launch l = some x →
      u.pend = [] ∧ u.sb = 0 ∧ (∀ o ∈ u.hearth.ops, o.granted = false) ∧ ∃ v, s.team l b k = some v ∧ u.seats = v.drain.seats ∧ u.asf = v.asf)
  ∧ (∀ (s : State) l evict, let img := imageBytes s l evict
      let f (at_ n : Nat) : Nat := leNat ((img.drop at_).take n)
      l.lpkt.length = 64 → img.length < 2 ^ 64 → l.id < 2 ^ 32 → l.nextB < 2 ^ 32 → l.saves + 1 < 2 ^ 64 →
        f 0 4 = 0x58544341 ∧ f 4 2 = 1 ∧ f 7 1 = (if evict = true then 1 else 0) + (if l.dstop = true then 2 else 0) ∧ f 8 8 = img.length
          ∧ f 0x10 4 = l.id ∧ f 0x14 4 = l.nextB ∧ f 0x18 8 = l.saves + 1 ∧ (img.drop 0x20).take 64 = l.lpkt)
  ∧ (∀ (s : State) l x, Taken s 3 l → s.launch l = some x →
      (x.st = .stopped → ∃ t y, exec (.ctxResume l) s = .next t ∧ CtxIs t 0 0 0 ∧ t.launch l = some y ∧ t.mem = s.mem
        ∧ y.st = (if x.nextB = 0 ∧ x.pantry = [] then .waiting else .running) ∧ y.blocks.length = x.blocks.length)
      ∧ (x.st ≠ .stopped → exec (.ctxResume l) s = .next (s.ctxDone 9 0 0)))
  ∧ (∀ (s : State) l x, Taken s 4 l → s.launch l = some x →
      (x.st = .evicted → ∃ t, exec (.ctxDetach l) s = .next t ∧ CtxIs t 0 0 0 ∧ t.launch l = none ∧ t.mem = s.mem
        ∧ (∀ c ∈ t.tiles, c.owner.ofLaunch l = false) ∧ (∀ m ∈ t.marks, m.agent.ofLaunch l = false)
        ∧ ((∀ p ∈ s.prologues, p.key ≠ x.pkt) → t.pkt x.pkt = none))
      ∧ (x.st ≠ .evicted → exec (.ctxDetach l) s = .next (s.ctxDone 9 0 0)))
  ∧ (∀ (s : State) l, s.launch l = none → (Taken s 3 l → exec (.ctxResume l) s = .next (s.ctxDone 9 0 0))
      ∧ (Taken s 4 l → exec (.ctxDetach l) s = .next (s.ctxDone 9 0 0)))
  ∧ (∀ (s : State) a b c, a < 256 → CtxIs (s.ctxDone a b c) a b c ∧ s.ctxDone a b c = { s with ctxstat := (s.ctxDone a b c).ctxstat, ctxcmd := none })
  ∧ (∀ i op arg s, (i = .ctxStop arg ∧ op = 1) ∨ (i = .ctxEvict arg ∧ op = 2) ∨ (i = .ctxResume arg ∧ op = 3) ∨ (i = .ctxDetach arg ∧ op = 4)
      ∨ (i = .ctxRestore ∧ op = 5 ∧ arg = 0) ∨ (i = .ctxQuiesce arg ∧ op = 6) → ¬Taken s op arg → exec i s = .next s)
  ∧ (∀ (s : State), Taken s 5 0 →
      (s.readPhys s.ctxaddr.toNat 256 = none → exec .ctxRestore s = .next (s.ctxDone 8 0x20 0))
      ∧ ∀ h img map, s.readPhys s.ctxaddr.toNat 256 = some h → s.readPhys s.ctxaddr.toNat (leNat ((h.drop 8).take 8)) = some img →
          s.readPhys s.ctxmap.toNat 304 = some map →
          (parseImage img = none → exec .ctxRestore s = .next (s.ctxDone 3 0 0))
          ∧ ∀ xs, parseImage img = some xs → (s.queue s.ctxq.toNat = none → exec .ctxRestore s =
                .next (s.ctxDone (if mapReserved map = true then 1 else 3) 0 0))
              ∧ ∀ q, s.queue s.ctxq.toNat = some q →
                  (∀ c, accessCause s q.fn q.asid xs = some c → exec .ctxRestore s = .next (s.ctxDone 8 c.toNat 0))
                  ∧ (accessCause s q.fn q.asid xs = none → mapReserved map = false → exec .ctxRestore s = .next (s.ctxDone 3 0 0))
                  ∧ (mapReserved map = true ↔ (∀ b ∈ (map.drop 4).take 12, b = 0)
                      ∧ ∀ k, k < 144 → leNat ((map.drop (16 + 2 * k)).take 1) < 64)
                  ∧ (accessCause s q.fn q.asid xs = none → mapReserved map = true →
                      let l := leNat ((img.drop 0x10).take 4)
                      (q.bulk = true ∨ (∃ o, s.launch l = some o ∧ o.st ≠ .evicted) → exec .ctxRestore s = .next (s.ctxDone 1 0 0))
                      ∧ (q.bulk = false → (∀ o, s.launch l = some o → o.st = .evicted) → ∀ f, s.func q.fn = some f →
                          ((∃ k, k < 4 ∧ leNat ((img.drop (0x60 + 8 * k)).take 8) ≠ (f.fenv.getD k 0).toNat) →
                            exec .ctxRestore s = .next (s.ctxDone 4 0 0))
                          ∧ ((∀ k, k < 4 → leNat ((img.drop (0x60 + 8 * k)).take 8) = (f.fenv.getD k 0).toNat) →
                              (mapOk (s.units q.fn) img map = false → exec .ctxRestore s = .next (s.ctxDone 5 0 0))
                              ∧ (mapOk (s.units q.fn) img map = true →
                                  let bound := ((xs.find? fun x => x.ty == 6).map fun x => boundEntries x.body).getD []
                                  (∀ d, verifyBinds s q.fn q.asid bound = .error d → exec .ctxRestore s = .next (s.ctxDone 7 d 0))
                                  ∧ ∀ cs s1 im, verifyBinds s q.fn q.asid bound = .ok cs →
                                      readImage (s.forget l) (.porch s.nextKey) q.asid (fieldOf ((img.drop 0x20).take 64) 64 64)
                                        (fieldOf ((img.drop 0x20).take 64) 128 64) = .ok s1 (.ok im) →
                                      (setUp s1 q img map xs im cs (s.launch l) = none → exec .ctxRestore s = .next (s.ctxDone 6 0 0))
                                      ∧ ∀ s2, setUp s1 q img map xs im cs (s.launch l) = some s2 → ∃ t ln, exec .ctxRestore s = .next t
                                          ∧ CtxIs t 0 0 0 ∧ t.mem = s2.mem ∧ ln ∈ t.launches ∧ ln.id = l ∧ ln.queue = q.id ∧ ln.asid = q.asid
                                          ∧ ln.fn = q.fn ∧ ln.prio = q.prio ∧ ln.saves = leNat ((img.drop 0x18).take 8)
                                          ∧ ln.nextB = leNat ((img.drop 0x14).take 4) ∧ (ln.st = .running ∨ ln.st = .waiting))))))
  ∧ (∀ (s : State) fn, Taken s 6 fn →
      (∀ q x, s.queue q = some x → x.fn = fn → x.halted = false → ∃ t y, exec (.ctxQuiesce fn) s = .next t ∧ t.queue q = some y ∧ y.halted = true
        ∧ y.status = 7)
      ∧ ((∃ p x, p ∈ s.pkts ∧ s.queue p.queue = some x ∧ x.fn = fn ∧ (∀ y ∈ s.queues, y.id = x.id → y = x) ∧ x.bulk = false ∧ p.parent = none ∧ p.st ≠ .held
            ∧ fieldOf p.bytes 0 8 ∉ [1, 4, 6]) → ∃ t, exec (.ctxQuiesce fn) s = .next t ∧ t.ctxcmd = some (6, fn))
      ∧ ((∀ p ∈ s.pkts, ∀ x ∈ s.queues, x.id = p.queue → x.fn ≠ fn) → s.fmHead fn = none → ∃ t, exec (.ctxQuiesce fn) s = .next t
          ∧ CtxIs t 0 0 0 ∧ t.mem = s.mem ∧ t.pkts = s.pkts ∧ t.launches = s.launches)
      ∧ ((∀ p ∈ s.pkts, ∀ x ∈ s.queues, x.id = p.queue → x.fn = fn → x.bulk = false ∧ p.parent = none ∧ p.st ≠ .held
            ∧ fieldOf p.bytes 0 8 ∈ [4, 6]) → s.fmHead fn = none → ∃ t, exec (.ctxQuiesce fn) s = .next t ∧ CtxIs t 0 0 0
          ∧ (∀ p ∈ t.pkts, p ∈ s.pkts ∧ ∀ x ∈ s.queues, x.id = p.queue → x.fn ≠ fn) ∧ t.launches = s.launches))
  ∧ (RegisterReads .ctxstatRead 0 fun s => if s.ctxcmd.isSome = true then 1 else s.ctxstat)
  ∧ (∀ i s fn f, i = .fmRequest fn ∨ i = .fmDrainEnd fn ∨ i = .fmReconfigDone fn → s.func fn = some f → f.stream.reqs = [] → exec i s = .next s)
  ∧ (∀ s fn r rest, Heads s fn r rest → r.phase ≠ .queued → exec (.fmRequest fn) s = .next s)
  ∧ (∀ s fn r rest, Heads s fn r rest → r.phase = .queued →
      (objectOk s r.asid r.obj = false → ∃ t, exec (.fmRequest fn) s = .next t ∧ RequestEnds s t fn r rest 2 ∧ t.mem = s.mem)
      ∧ (objectOk s r.asid r.obj = true → r.swap = false → (s.boundTo r.asid r.k).isSome = true → EndsRequest (.fmRequest fn) s s fn r rest 6)
      ∧ (objectOk s r.asid r.obj = true → r.swap = false → s.boundTo r.asid r.k = none → r.ct = 0 → EndsRequest (.fmRequest fn) s s fn r rest 2)
      ∧ (objectOk s r.asid r.obj = true → r.swap = true ∨ s.boundTo r.asid r.k = none → r.swap = true ∨ r.ct ≠ 0 → ∀ s1 c,
          (if r.ct = 0 then s1 = s ∧ c = none else ∃ v, verify s fn r.asid r.ct = .ok s1 (.ok v) ∧ c = some v) →
          ∃ t f e, exec (.fmRequest fn) s = .next t ∧ t.func fn = some f ∧ f.stream.reqs = { r with phase := .draining, loaded := c } :: rest
            ∧ t.bindEntry r.asid r.k = some e ∧ e.blocked = true ∧ t.mem = s1.mem)
      ∧ (objectOk s r.asid r.obj = true → r.swap = true ∨ s.boundTo r.asid r.k = none → r.ct ≠ 0 → ∀ s1 st,
          verify s fn r.asid r.ct = .ok s1 (.error st) → EndsRequest (.fmRequest fn) s s1 fn r rest st))
  ∧ (∀ s fn r rest, Heads s fn r rest → r.phase ≠ .draining ∨ (∃ b, s.boundTo r.asid r.k = some b ∧ s.inUse b.id = true) →
      exec (.fmDrainEnd fn) s = .next s)
  ∧ (∀ s fn r rest, Heads s fn r rest → r.phase = .draining → (∀ b, s.boundTo r.asid r.k = some b → s.inUse b.id = false) →
      (r.loaded = none → r.obj = 0 → ∃ t e, exec (.fmDrainEnd fn) s = .next t ∧ RequestEnds s t fn r rest 0 ∧ t.bindEntry r.asid r.k = some e
        ∧ e.bound = none ∧ e.blocked = false ∧ t.mem = s.mem)
      ∧ ∀ c, r.loaded = some c →
          (s.chooseAll c (s.boundTo r.asid r.k) allDies = none → EndsRequest (.fmDrainEnd fn) s s fn r rest 5)
          ∧ ∀ xs, s.chooseAll c (s.boundTo r.asid r.k) allDies = some xs → ∃ t f b, exec (.fmDrainEnd fn) s = .next t ∧ t.func fn = some f
              ∧ f.stream.reqs = { r with phase := .reconfig, bind := some b.id } :: rest ∧ t.bindings = s.bindings ++ [b] ∧ b.ct = c
              ∧ b.ctVa = r.ct ∧ t.mem = s.mem ∧ ∀ p, xs.getLast? = some p → t.hwSlot p.1 p.2 = some c)
  ∧ ∀ s fn r rest b, Heads s fn r rest → r.bind = some b → r.phase = .reconfig →
      r.obj = 0 → ∃ t e, exec (.fmReconfigDone fn) s = .next t ∧ RequestEnds s t fn r rest 0 ∧ t.bindEntry r.asid r.k = some e
        ∧ e.bound = some b ∧ e.blocked = false ∧ t.mem = s.mem

namespace Sys2Proof.Claims
open Sys2Proof.Machine

/-- What an access from outside the module leaves in memory at a physical address (R472, R475, R479). -/
def OutsideDoes (s t : State) (pa : Nat) : ExtAcc → Prop
  | .load _ => t = s
  | .store bs => t = { s with mem := s.mem.put pa bs }
  | .atomic o w64 v => t.mem = s.mem.put pa (leBytes (if w64 then 8 else 4)
      (atomicValue o (if w64 then 64 else 32) (s.mem.num pa (if w64 then 8 else 4)) (v.toNat % 2 ^ (if w64 then 64 else 32))))
  | .cas w64 old new => t.mem = s.mem.put pa (leBytes (if w64 then 8 else 4)
      (if s.mem.num pa (if w64 then 8 else 4) = old.toNat % 2 ^ (if w64 then 64 else 32) then new.toNat % 2 ^ (if w64 then 64 else 32)
        else s.mem.num pa (if w64 then 8 else 4)))
  | .contribute _ => t = { s with tiles := t.tiles } ∧ (s.tile pa = none → t = s) ∧ t.tiles.length = s.tiles.length
      ∧ ∀ (j : Nat) (c : Tile), t.tiles[j]? = some c → ∃ b : Tile, s.tiles[j]? = some b ∧ c.pa = b.pa ∧ c.anchor = b.anchor ∧ c.w = b.w ∧ c.owner = b.owner
          ∧ (c = b ∨ (b.pa = pa ∧ c.count = b.count + 1))

/-- The bytes that an access from outside touches; a contribution names a tile by its first. -/
def outsideBytes : ExtAcc → Nat
  | .load n => n
  | .store bs => bs.length
  | .atomic _ w64 _ | .cas w64 _ _ => if w64 then 8 else 4
  | .contribute _ => 1

/-- A peer port stands as p says, and no other port has its number. -/
def PortIs (t : State) (p : Port) : Prop := p ∈ t.ports ∧ ∀ q ∈ t.ports, q.ix = p.ix → q = p

end Sys2Proof.Claims

/-! ### Translation, peers and the host -/

/-- R413 to R415, R472 to R483: invalidations of the TLBs are queued and complete in order; a dirty log is armed again; peer ports
train, lose their link and time out, and what then becomes of what was outstanding; windows; accesses by peers and by the
host. -/
def Obligations.PeerAndHostEvents : Prop :=
  (∀ s fn asid f, s.responds fn = true → s.func fn = some f → ((Regs.get s.asidctl asid).extractLsb' 1 6).toNat = fn →
      (∃ t, exec (.tlbInvPage fn asid) s = .next t ∧ t.func fn = some { f with tlbq := f.tlbq ++ [.page asid f.tlbinva.toNat] } ∧ t.tlb = s.tlb)
      ∧ ∃ t, exec (.tlbInvAsid fn asid) s = .next t ∧ t.func fn = some { f with tlbq := f.tlbq ++ [.asid asid] } ∧ t.tlb = s.tlb)
  ∧ (∀ s fn asid, ((Regs.get s.asidctl asid).extractLsb' 1 6).toNat ≠ fn →
      exec (.tlbInvPage fn asid) s = .next s ∧ exec (.tlbInvAsid fn asid) s = .next s)
  ∧ (∀ s fn f, s.responds 0 = true → s.func 0 = some f → ∃ t, exec (.tlbInvFunc fn) s = .next t
      ∧ t.func 0 = some { f with tlbq := f.tlbq ++ [.func fn] } ∧ t.tlb = s.tlb)
  ∧ (∀ s fn f i rest, s.func fn = some f → f.tlbq = i :: rest → ∃ t, exec (.tlbInvalidationComplete fn) s = .next t
      ∧ t.func fn = some { f with tlbq := rest } ∧ t.mem = s.mem
      ∧ ∀ e, e ∈ t.tlb ↔ e ∈ s.tlb ∧ ¬(match i with
        | .page a va => e.asid = a ∧ e.va / 2 ^ e.bits = va % 2 ^ 57 / 2 ^ e.bits
        | .asid a => e.asid = a
        | .func k => e.fn = k))
  ∧ (∀ s fn f, s.func fn = some f → f.tlbq = [] → exec (.tlbInvalidationComplete fn) s = .next s)
  ∧ (∀ fn, RegisterReads (.tlbstatRead fn) fn fun s => if ((s.func fn).map Func.tlbq).getD [] = [] then 0 else 1)
  ∧ (∀ (s : State) fn, s.responds fn = false → ∃ t, exec (.tlbstatRead fn) s = .next t ∧ t = { s with mmio := 0 })
  ∧ (∀ (s : State) fn off f, s.responds fn = true → s.func fn = some f → fn ≠ 0 →
      (s.ownRead f off = none → s.regRead fn off = 0)
      ∧ ∀ a, a < 4096 → s.regRead fn (0x80000 + 8 * a) =
          if ((Regs.get s.asidctl a).extractLsb' 1 6).toNat = fn then Regs.get s.asidctl a else 0)
  ∧ (∀ (s : State) fn off, s.responds fn = false → (fn = 0 → s.earlyRead off = none) → s.regRead fn off = 0)
  ∧ (∀ (s : State) fn f, s.responds fn = true → s.func fn = some f →
      ∀ off ∈ [0x50000, 0x50010, 0x100000, 0x70000, 0x70008, 0x88008], s.regRead fn off = 0)
  ∧ (∀ s v x f, s.responds 0 = true → s.func v = some f →
      (∃ t g, exec (.dirtyLogRearm v true x) s = .next t ∧ t.func v = some g ∧ g = { f with dlend := g.dlend } ∧ Keeps x g.dlend (span 51 3)
        ∧ t.mem = s.mem)
      ∧ ∃ t g, exec (.dirtyLogRearm v false x) s = .next t ∧ t.func v = some g ∧ g = { f with dlptr := g.dlptr } ∧ Keeps x g.dlptr (span 51 3)
        ∧ t.mem = s.mem)
  ∧ (∀ i s v e x, i = .tlbInvFunc v ∨ i = .dirtyLogRearm v e x → s.responds 0 = false → exec i s = .next s)
  ∧ (∀ s port dev wlen, s.boot = .ready → port < 16 → ∃ t, exec (.peerPortTrained port dev wlen) s = .next t ∧ t.mem = s.mem
      ∧ PortIs t ⟨port, true, dev, wlen % 2 ^ 33, false⟩ ∧ (∀ p ∈ s.ports, p.ix ≠ port → p ∈ t.ports)
      ∧ t.peerOut = s.peerOut.filter fun o => o.dev != dev)
  ∧ (∀ s port dev wlen, s.boot ≠ .ready ∨ 16 ≤ port → exec (.peerPortTrained port dev wlen) s = .next s)
  ∧ (∀ s dev v, s.responds 0 = true → Rising s.pwbase → Rising s.pwlen →
      let hbm (base len : DWord) : Prop := base.toNat + len.toNat * 4096 ≤ 0xC000000000
      ∃ w, Keeps v w (span 51 12) ∧ ∃ n, Keeps v n (span 32 0)
        ∧ (hbm w (Regs.get s.pwlen dev) → ∃ t, exec (.peerWindowWrite dev false v) s = .next t ∧ t = { s with pwbase := t.pwbase }
            ∧ Regs.get t.pwbase dev = w ∧ ∀ j, j ≠ dev → Regs.get t.pwbase j = Regs.get s.pwbase j)
        ∧ (¬hbm w (Regs.get s.pwlen dev) → exec (.peerWindowWrite dev false v) s = .next s)
        ∧ (hbm (Regs.get s.pwbase dev) n → ∃ t, exec (.peerWindowWrite dev true v) s = .next t ∧ t = { s with pwlen := t.pwlen }
            ∧ Regs.get t.pwlen dev = n ∧ ∀ j, j ≠ dev → Regs.get t.pwlen j = Regs.get s.pwlen j)
        ∧ (¬hbm (Regs.get s.pwbase dev) n → exec (.peerWindowWrite dev true v) s = .next s))
  ∧ (∀ s port, exec (.flitReplay port) s = .next s) ∧ (∀ s a b, exec (.cxlCacheSnoop a b) s = .next s)
  ∧ (∀ s p, s.ports.find? (fun q => q.ix == p.ix) = some p → p.ix < 16 → p.trained = true → ∃ t, exec (.peerPortLoss p.ix) s = .next t
      ∧ t = { s with ports := t.ports } ∧ PortIs t { p with retraining := true })
  ∧ (∀ s port, (∀ p, s.ports.find? (fun q => q.ix == port) = some p → p.trained = false) →
      exec (.peerPortLoss port) s = .next s ∧ exec (.peerPortTimeout port) s = .next s)
  ∧ (∀ s p, s.ports.find? (fun q => q.ix == p.ix) = some p → p.ix < 16 → p.trained = true →
      (p.retraining = false → exec (.peerPortTimeout p.ix) s = .next s)
      ∧ (p.retraining = true → ∃ t, exec (.peerPortTimeout p.ix) s = .next t ∧ PortIs t { p with trained := false, retraining := false }
          ∧ (∀ o, o ∈ t.peerOut ↔ o ∈ s.peerOut ∧ o.dev ≠ p.dev)
          ∧ ((∀ o ∈ s.peerOut, o.dev ≠ p.dev) → (∀ l ∈ s.launches, l.ring ≠ none) → t.mem = s.mem)
          ∧ (∀ l b k u, s.team l b k = some u → ∃ v, t.team l b k = some v ∧ v.seats = u.seats ∧ v.frags = u.frags
              ∧ v.pend.length = u.pend.length
              ∧ ∀ (j : Nat) (x : Pending), u.pend[j]? = some x → ∃ y, v.pend[j]? = some y ∧ y.reg = x.reg ∧ y.count = x.count
                  ∧ ∀ (i : Nat) (ws : List Word), x.words[i]? = some (some ws) → y.words[i]? = some (some
                      (if ∃ q ∈ x.peers, q.1 = i ∧ q.2.1 = p.dev then ws.map (fun _ => 0xFFFFFFFF#32) else ws)))
          ∧ ∀ l ln, s.launch l = some ln → ln.ring ≠ none → (∃ b ∈ ln.blocks, ∃ u ∈ b.teams, ∃ x ∈ u.pend, ∃ q ∈ x.peers, q.2.1 = p.dev) →
              ∃ r ∈ t.records, r.launch = l ∧ r.kind = 3 ∧ r.cause = 0x28#8 ∧ r.body.getD 0x13 0 = 6))
  ∧ (∀ s dev o a, let base := (Regs.get s.pwbase dev).toNat
      let len := (Regs.get s.pwlen dev).toNat * 4096
      (s.boot = .ready → o + outsideBytes a ≤ len → ∃ t, exec (.inboundPeerAccess dev o a) s = .next t ∧ OutsideDoes s t (base + o) a)
      ∧ (s.boot ≠ .ready ∨ len < o + outsideBytes a → exec (.inboundPeerAccess dev o a) s = .next s))
  ∧ ∀ s pa a, (spanBacked pa (outsideBytes a) = true → isPeer pa = false → ∃ t, exec (.hostMemoryAccess pa a) s = .next t ∧ OutsideDoes s t pa a)
      ∧ (spanBacked pa (outsideBytes a) = false ∨ isPeer pa = true → exec (.hostMemoryAccess pa a) s = .next s)

namespace Sys2Proof.Claims
open Sys2Proof.Machine

/-- The schedule field under which a word of a launch issues: none outside honoured native code. -/
def honouredField (l : Launch) (pc : DWord) (sc : Option (BitVec 21)) : Option (BitVec 21) := if l.honoured pc then sc else none

/-- A turn runs an instruction on a state, with what follows it; where a breakpoint stands before the instruction, its trap comes in its
place, unless the instruction would merely wait (R47, R162). -/
def Runs (s : State) (bp : Bool) (k : After) (i : Instr) (v v0 : State) : Prop :=
  (bp = false → step s = after k v (exec i v))
  ∧ (bp = true → (∀ t, exec i v = .next t → k.idle v t = true → step s = .next (finishTurn k v t))
      ∧ ((∀ t, exec i v = .next t → k.idle v t = false) → step s = after .event v (exec .hardwareBreakpoint v0)))

/-- A turn of a team's fragment runs the instruction that its word decodes to (R47, R53, R59, R61): exec of it, on the state in
which the translation of the fetch is kept, the word is the one that issues, and in honoured native code registers stand as the word
reads them: by latches, or newest, or, too near their writer, as they have been (R62). -/
def TeamTurn : Prop :=
  ∀ (s : State) rest l b t f (ln : Launch) (bk : Block) (tm : Team) fi (fr : Frag) r w lit sc fall i,
    s.agenda = .team l b t f :: rest → let u : State := { s with agenda := rest }
    s.boot = .ready → u.launch l = some ln → ln.block b = some bk → bk.teams[t]? = some tm → ln.st = .running →
    u.mayIssue ln bk t tm = true → tm.capDue = none → tm.stepDone = false → tm.toRelease = none →
    tm.chosen (u.late ln.id bk.id t) f u.tick = some fi → tm.frags[fi]? = some fr →
    (ln.moveTo false fr.pc = none ∨ tm.frags.length ≠ 1 ∨ fr.chain ≠ none) →
    u.fetch ln (some bk.runsOn.die) fr.pc = .word w lit sc true fall → ln.region fr.pc.toNat = some r → r.foyer = false →
    decode false w lit = .ok i →
    let bp := u.hwbpAt ln.fn false fr.pc && fr.skip != some fr.pc
    let c : Cur := ⟨.team ln.id bk.id t fi, fr.pc, BitVec.ofNat 64 w, lit, sc, fall⟩
    let v : State := { u.commitCode ln (some bk.runsOn.die) fr.pc w with cur := some c }
    (honouredField ln fr.pc sc = none → Runs s bp (.team ⟨ln.id, bk.id, t, tm, fi, fr, c, i, none, tm⟩) i v v)
    ∧ ∀ k, honouredField ln fr.pc sc = some k →
        (sbWaits k tm.sb = true → step s = .next (v.updTeam ln.id bk.id t fun x => x.waiting fi).tock)
        ∧ (sbWaits k tm.sb = false → let ls := latched k fr.chain (sources i)
            let seen := ((tm.met k).reading v.freeCtr i ls).withLatches ls
            Runs s bp (.team ⟨ln.id, bk.id, t, tm.met k, fi, fr, c, i, some k, seen⟩) i
              (({ v with freeCtr := v.freeCtr + 1 } : State).updTeam ln.id bk.id t fun _ => seen) v)

/-- The same for a Foyer context (R55, R65). -/
def FoyerTurn : Prop :=
  ∀ (s : State) rest l b (ln : Launch) (bk : Block) r w lit sc fall i,
    s.agenda = .foyer l b :: rest → let u : State := { s with agenda := rest }
    s.boot = .ready → u.launch l = some ln → ln.block b = some bk → ln.st = .running → u.mayIssueFoyer ln bk = true →
    bk.foyer.stepDone = false → (ln.moveTo true bk.foyer.pc = none ∨ bk.foyer.chain ≠ none) →
    u.fetch ln (some bk.runsOn.die) bk.foyer.pc = .word w lit sc true fall → ln.region bk.foyer.pc.toNat = some r → r.foyer = true →
    (Fields.ofWord w).op ≠ 0xCD → decode true w lit = .ok i →
    let bp := u.hwbpAt ln.fn true bk.foyer.pc && bk.foyer.skip != some bk.foyer.pc
    let c : Cur := ⟨.foyer ln.id bk.id, bk.foyer.pc, BitVec.ofNat 64 w, lit, sc, fall⟩
    let v : State := { u.commitCode ln (some bk.runsOn.die) bk.foyer.pc w with cur := some c }
    (honouredField ln bk.foyer.pc sc = none → Runs s bp (.foyer ⟨ln.id, bk.id, bk.foyer, c, i, none, bk.foyer⟩) i v v)
    ∧ ∀ k, honouredField ln bk.foyer.pc sc = some k →
        (sbWaits k bk.foyer.sb = true → step s = .next (v.updBlock ln.id bk.id fun b =>
          { b with foyer := { b.foyer with stalled := true } }).tock)
        ∧ (sbWaits k bk.foyer.sb = false → let fy := bk.foyer.met k
            let ls := slatched k fy.chain (ssources i)
            let seen := (fy.reading v.freeCtr i ls).withLatches ls
            Runs s bp (.foyer ⟨ln.id, bk.id, fy, c, i, some k, seen⟩) i
              (({ v with freeCtr := v.freeCtr + 1 } : State).updBlock ln.id bk.id fun b => { b with foyer := seen }) v)

/-- The same for a prologue run, whose words the Porch fetches within 2,048 bytes of PROG (R374). -/
def PrologueTurn : Prop :=
  ∀ (s : State) rest k p pk q w i, s.agenda = .prologue k :: rest → let u : State := { s with agenda := rest }
    let prog := leNat ((pk.bytes.drop 8).take 8)
    s.boot = .ready → u.prologues.find? (fun p => p.key == k) = some p → u.pkt k = some pk → u.queue pk.queue = some q →
    p.active = true → pk.st = .started → prog ≤ p.pc.toNat → p.pc.toNat < prog + 2048 →
    u.fetchWord none q.asid p.pc = .ok w →
    (isLiteralOp (Fields.ofWord w).op = false → decode true w 0 = .ok i →
      let v : State := { u.commitWords none q.asid p.pc (p.pc + 8) w with cur := some ⟨.prologue k, p.pc, BitVec.ofNat 64 w, 0, none, p.pc + 8⟩ }
      step s = after .event v (exec i v))
    ∧ ∀ lit, isLiteralOp (Fields.ofWord w).op = true → u.fetchWord none q.asid (p.pc + 8) = .ok lit →
        decode true w (BitVec.ofNat 64 lit) = .ok i →
        let v : State := { u.commitWords none q.asid p.pc (p.pc + 8) w with cur := some ⟨.prologue k, p.pc, BitVec.ofNat 64 w, BitVec.ofNat 64 lit, none, p.pc + 16⟩ }
        step s = after .event v (exec i v)

/-- Which fragment of a team issues, and which teams of a core (R63, R148, R152, R154): a ready fragment that starvation has lifted,
the longest-waiting first, else the lowest PC, the lower seat first at one PC; on the ports that no open chain holds, no team issues
before one that the order of R154 puts first; and the turn of another team passes. -/
def Chooses : Prop :=
  (∀ (t : Team) late f tick fi (fr : Frag), t.chosen late f tick = some fi → t.frags[fi]? = some fr → fr.parked = false
      ∧ (t.only = none → ∀ (j : Nat) (g : Frag), t.frags[j]? = some g → g.parked = false → g.stalled = false → late j g = false →
          fr.stalled = false ∧ late fi fr = false
          ∧ (g.lift = .waited16384 → fr.lift = .waited16384 ∧ fr.since ≤ g.since)
          ∧ (g.lift = .waited1024 → fr.lift ≠ .none ∧ (fr.lift = .waited1024 → fr.since ≤ g.since))
          ∧ (fr.lift = .none → fr.pc.toNat < g.pc.toNat ∨ (fr.pc = g.pc ∧ lowSeat t fr.mask ≤ lowSeat t g.mask))))
  ∧ (∀ (s : State) u y, y ∈ s.cands u false → y ∉ s.coreCands u → (∀ x ∈ s.coreCands u, x ∉ s.cands u true → y.before x = false)
      ∧ 2 ≤ s.portsHeld u + ((s.coreCands u).drop (s.cands u true).length).length)
  ∧ (∀ (x y : Cand), (x.lift = .waited16384 → y.lift ≠ .waited16384 → x.before y = true)
      ∧ (x.lift = .waited16384 → y.lift = .waited16384 → x.since < y.since → x.before y = true)
      ∧ (x.lift ≠ .waited16384 → y.lift ≠ .waited16384 → (x.prio < y.prio → x.before y = true)
          ∧ (x.prio = y.prio → (x.lift = .waited1024 → y.lift = .none → x.before y = true)
              ∧ (x.lift = .waited1024 → y.lift = .waited1024 → x.since < y.since → x.before y = true)
              ∧ (x.lift = .none → y.lift = .none → x.age < y.age → x.before y = true))))
  ∧ ∀ (s : State) rest l b t f (ln : Launch) (bk : Block) (tm : Team), s.agenda = .team l b t f :: rest →
      let u : State := { s with agenda := rest }
      u.launch l = some ln → ln.block b = some bk → bk.teams[t]? = some tm → u.mayIssue ln bk t tm = false → step s = .next u.tock

/-- What a fetch gives: in a code region, at a core word's address that a translation lets fetch, the 8 bytes there and, of a
literal opcode, the next word's; the fall-through passes the third word of a native packet to the next packet (R47, R55 to
R58). -/
def Fetches : Prop :=
  ∀ (s : State) (l : Launch) die pc r w, pc.toNat % 8 = 0 → canonical pc = true → l.region pc.toNat = some r →
    (r.native = true → pc.toNat % 32 ≠ 24) → s.codeWord l die pc = .ok w →
    (∀ t, s.check die l.asid pc 8 .fetch = .ok t →
      (w = s.mem.num t.pa 8 ∨ w = l.code.num t.pa 8 ∨ ∃ c ∈ s.l1, w = leNat (s.coherentRead c.core t.pa 8))
      ∧ (l.code.num t.pa 8 = s.mem.num t.pa 8 → (∀ c ∈ s.l1, leNat (s.coherentRead c.core t.pa 8) = s.mem.num t.pa 8) →
          w = s.mem.num t.pa 8))
    ∧ r.next pc = (if r.native = true ∧ pc.toNat % 32 = 16 then pc + 16 else pc + 8)
    ∧ (r.native = false → isLiteralOp (Fields.ofWord w).op = false → s.fetch l die pc = .word w 0 none true (pc + 8))
    ∧ (r.native = false → isLiteralOp (Fields.ofWord w).op = true → ∀ lit, s.codeWord l die (pc + 8) = .ok lit →
        s.fetch l die pc = .word w (BitVec.ofNat 64 lit) none true (pc + 16))
    ∧ (r.native = true → isLiteralOp (Fields.ofWord w).op = false → ∀ c, s.codeWord l die (pc ||| 24#64) = .ok c →
        s.fetch l die pc = .word w 0 (some (BitVec.ofNat 21 (c / 2 ^ (21 * (pc.toNat % 32 / 8))))) (c.testBit 63) (r.next pc))

/-- A fragment but for what the end of a turn changes: whether it is found waiting, and since when it has been ready. -/
def untimed (f : Frag) : Frag := { f with stalled := false, since := 0, lift := .none }

/-- What follows an instruction: nothing changes but that no word issues any more, the tick, the latches, chains and single step of
the agent, since when each fragment has been ready, and, where it did not merely wait, that others that wait try again. -/
def Follows : Prop :=
  (∀ k s o, (∀ t, o = .next t → after k s o = .next (finishTurn k s t)) ∧ (∀ f, o = .fault f → after k s o = .fault f)
      ∧ ∀ r, o = .refused r → after k s o = .refused r)
  ∧ (∀ k (s t : State), finishTurn k s t = { t with launches := (finishTurn k s t).launches, cur := none, tick := t.tick + 1 })
  ∧ (∀ (s t : State) l b k u, t.team l b k = some u → ∃ v, (finishTurn .event s t).team l b k = some v
      ∧ v = { u with frags := v.frags } ∧ v.frags.map untimed = u.frags.map untimed
      ∧ ∀ f ∈ v.frags, f.parked = true ∨ f.stalled = true → f.since = 0 ∧ f.lift = .none)
  ∧ (∀ (s t : State) (x : Issue) l b k u, t.team l b k = some u → ∃ v, (finishTurn (.team x) s t).team l b k = some v
      ∧ (∃ w, v = { w with frags := v.frags } ∧ (w = u ∨ (l = x.l ∧ b = x.b ∧ k = x.ti ∧ w = x.after u))
        ∧ v.frags.map untimed = w.frags.map untimed))
  ∧ ∀ (x : Issue) (u : Team), x.hon = none → x.f.skip = none → x.after u = { u with stepDone := (x.after u).stepDone, past := [] }
      ∧ (u.stepping = false → x.after u = { u with past := [] })

/-- A past word's result may still be unwritten when the next word reads (R62, R68): no SBWAIT has waited on its scoreboard, and it is
of variable latency, or STALL counts have not put its latency between. -/
def unwritten (i : Instr) (op : Nat) (settled : Bool) (since : Nat) : Prop :=
  settled = false ∧ (varLatency i = true ∨ since < Config.latency op)

/-- What a word of honoured native code reads (R62, R68): the registers themselves where scoreboards or STALL counts order each earlier
word; in every case a value that the register holds or, where such a word writes it too near, held before one of the last sixteen words. -/
def Reads : Prop :=
  (∀ (t : Team) ctr i ls, (∀ p ∈ t.past, ¬unwritten p.ins p.op p.settled p.since) → t.reading ctr i ls = t)
  ∧ (∀ (t : Team) ctr i ls, (t.reading ctr i ls).seats.length = t.seats.length
      ∧ ∀ n r, n < t.seats.length → ((t.reading ctr i ls).seat n).rd r = (t.seat n).rd r
          ∨ (∃ p ∈ t.past, unwritten p.ins p.op p.settled p.since ∧ writesReg p.ins r = true)
            ∧ ∃ p ∈ t.past, ((t.reading ctr i ls).seat n).rd r = (p.seats.getD n (t.seat n)).rd r)
  ∧ (∀ (f : Foyer) ctr i ls, (∀ p ∈ f.past, ¬unwritten p.ins p.op p.settled p.since) → f.reading ctr i ls = f)
  ∧ (∀ (f : Foyer) ctr i ls (r : SReg), (f.reading ctr i ls).rd r = f.rd r
      ∨ (∃ p ∈ f.past, unwritten p.ins p.op p.settled p.since ∧ sdest p.ins = some r)
        ∧ ∃ p ∈ f.past, (f.reading ctr i ls).rd r = p.s.getD r.val 0)
  ∧ (∀ (t old : Team) f i op, ∃ p, (t.passed f i op old).past = ((p :: old.past).take 16).map (fun q => { q with since := q.since + 1 + bitsAt f 0 4 })
      ∧ p.ins = i ∧ p.op = op ∧ p.sb = bitsAt f 16 2 ∧ p.settled = interlocked i ∧ p.since = 0 ∧ p.seats = old.seats)
  ∧ (∀ (t : Team) k, (t.met k).past.length = t.past.length ∧ ∀ (j : Nat) p, t.past[j]? = some p → ∃ q, (t.met k).past[j]? = some q
      ∧ q = { p with settled := q.settled } ∧ (q.settled = true ↔ p.settled = true ∨ (p.sb ≠ 0 ∧ k.getLsbD (17 + p.sb) = true)))
  ∧ ∀ (t old : Foyer) f i op, ∃ p, (t.passed f i op old).past = ((p :: old.past).take 16).map (fun q => { q with since := q.since + 1 + bitsAt f 0 4 })
      ∧ p.ins = i ∧ p.op = op ∧ p.sb = bitsAt f 16 2 ∧ p.since = 0 ∧ p.s = old.s

/-- A word, as R45 lays it out, with the guard p0: the fields OP, FN, D, A, B, C and X. -/
def wordOf (op fn d a b c x : Nat) : Nat := op * 2 ^ 56 + fn * 2 ^ 45 + d * 2 ^ 37 + a * 2 ^ 29 + b * 2 ^ 21 + c * 2 ^ 13 + x

end Sys2Proof.Claims

/-! ### The machine as a whole -/

/-- R45 to R50 and the encodings of every chapter: every well-formed instruction that has a word is read back from its word and
literal, with every operand at every value. -/
def Obligations.DecodeEncode : Prop :=
  ∀ i w lit, encode i = some (w, lit) → i.wf = true → decodeAny w lit = .ok i

/-- Every step keeps the memory in its canonical form. -/
def Obligations.StepKeepsInv : Prop := ∀ s t, s.Inv → step s = .next t → t.Inv

/-- The state after reset has its memory in canonical form. -/
def Obligations.ResetInv : Prop := State.reset.Inv

/-- R10, R208, R363, R390, R404, R416, R484, R485: the values that the spec states for reset: start-up is in ROM, nothing runs, no
register responds; the class masks are all ones and each class keeps 16 slots; no address space translates; CTXSTAT, LERR, DBGCTL,
HWBP and QRESULT read 0; each function has the whole device's envelope and Aelyn's format key. -/
def Obligations.ResetValues : Prop :=
  let s := State.reset
  s.boot = .rom ∧ s.lastrst = 0 ∧ s.err = 0 ∧ s.fwver = 0
  ∧ s.launches = [] ∧ s.queues = [] ∧ s.pkts = [] ∧ s.records = [] ∧ s.marks = [] ∧ s.bindings = [] ∧ s.tiles = []
  ∧ (∀ fn, s.responds fn = false)
  ∧ (∀ k, k < 16 → s.acmask.getD k 0 = 0xFFFFFFFF#64) ∧ s.classmin = [16, 16, 16, 16]
  ∧ (∀ a, Regs.get s.asidctl a = 0) ∧ s.ctxaddr = 0 ∧ s.ctxlen = 0 ∧ s.ctxmap = 0 ∧ s.ctxq = 0 ∧ s.ctxstat = 0
  ∧ ∀ fn, fn < 64 → ∃ f, s.func fn = some f ∧ f.dstop = false ∧ f.lerr = 0 ∧ f.resumel = 0 ∧ f.qresult = 0 ∧ f.hwbp = [0, 0, 0, 0]
      ∧ f.keys = [Config.aelynKey] ∧ (f.fenv.getD 0 0).extractLsb' 8 8 = 1 ∧ (f.fenv.getD 1 0).extractLsb' 0 3 = 4
      ∧ (f.fenv.getD 1 0).extractLsb' 3 6 = 36 ∧ (f.fenv.getD 1 0).extractLsb' 12 4 = 8 ∧ (f.fenv.getD 1 0).extractLsb' 16 16 = 768
      ∧ (f.fenv.getD 2 0).extractLsb' 0 6 = 63 ∧ (f.fenv.getD 3 0).extractLsb' 0 32 = 768

/-- R44, R47, R53, R55 to R65, R148, R152, R154, R162, R374: when what stands at an agent's PC decodes to an instruction, and nothing comes before it (a
trap, a breakpoint, a safe point, a scoreboard), the step is exec of that instruction with what follows it. Registers that honoured
native code reads too soon after their writer read as R62 allows. A fetch gives the word in memory, or, where a store has reached the
code of its launch, the old word or the new one (R44). -/
def Obligations.StepRunsDecoded : Prop := TeamTurn ∧ FoyerTurn ∧ PrologueTurn ∧ Chooses ∧ Fetches ∧ Follows ∧ Reads

/-- R45, R46, R51: words laid out from the encodings of the spec, one of each family and more, decode to what they stand for. -/
def Obligations.DecodeWords : Prop :=
  decodeAny (wordOf 0x01 5 9 1 2 0 0x0 + 3 * 2 ^ 52 + 2 ^ 51) 0 = .ok (.min ⟨⟨3, true⟩, 9, 1, 2, .i32⟩)
  ∧ decodeAny (wordOf 0x03 0 10 12 0 0 0x30) 0x100000000 = .ok (.addLit ⟨⟨0, false⟩, 10, 12, .i64, false, 0x100000000⟩)
  ∧ decodeAny (wordOf 0x08 2 2 6 9 0 0x0) 0 = .ok (.setp ⟨⟨0, false⟩, 2, 6, 9, .i32, .lt⟩)
  ∧ decodeAny (wordOf 0x20 3 12 1 2 3 0x1) 0 = .ok (.ffma ⟨⟨0, false⟩, 12, 1, 2, 3, .f32, .rz, false⟩)
  ∧ decodeAny (wordOf 0x38 0 3 1 0 0 0x541) 0 = .ok (.cvt ⟨⟨0, false⟩, 3, 1, .f32, .f16, false, false, .rz⟩)
  ∧ decodeAny (wordOf 0x40 4 6 0 4 0 0x10) 0 = .ok (.ld ⟨⟨0, false⟩, 6, 4, .b32, 16⟩)
  ∧ decodeAny (wordOf 0x50 1 0 0 0 0 0x3 + 2 * 2 ^ 52) 0 = .ok (.bra ⟨⟨2, false⟩, true, 3⟩)
  ∧ decodeAny (wordOf 0x58 3 8 5 0 0 0x0) 0 = .ok (.ballot ⟨⟨0, false⟩, 8, 5, none⟩)
  ∧ decodeAny (wordOf 0x46 0 14 15 22 0 0xA8) 0 = .ok (.atom ⟨⟨0, false⟩, 14, 15, 22, .op .add, .global, false, .rel, .sys⟩)
  ∧ decodeAny (wordOf 0x6A 2 4 10 0 0 0x0) 0 = .ok (.cpyRed ⟨⟨0, false⟩, 4, 10, none⟩)
  ∧ decodeAny (wordOf 0x71 0 4 40 2 48 0x80) 0 = .ok (.mma ⟨⟨0, false⟩, 4, 40, 2, 3, none, false, .dense, .slot 0⟩)
  ∧ decodeAny (wordOf 0x82 0 3 2 1 0 0x0) 0 = .ok (.qsmooth ⟨⟨0, false⟩, 3, 2, 1⟩)
  ∧ decodeAny (wordOf 0x8E 4 7 8 9 0 0x0) 0 = .ok (.capop (.bin .xor 7 8 (.reg 9)))
  ∧ decodeAny (wordOf 0x92 0 18 0 0 0 0x8) 0 = .ok (.solveStat ⟨18, 1⟩)
  ∧ decodeAny (wordOf 0x9A 0 0 4 0 0 0x21) 0 = .ok (.trap ⟨4, 0x21⟩)
  ∧ decodeAny (wordOf 0xC3 2 6 5 3 0 0x0) 0 = .ok (.scmp ⟨6, 5, 3, true, .lt⟩)
  ∧ decodeAny (wordOf 0xCC 1 20 3 9 0 0x2) 0 = .ok (.fmswap ⟨20, 3, 9, 2⟩)
end

