-- ==== Sys2Proof/Laws/State.lean ====
section
/-!
SUPPORT. Laws/State.lean: for each update of the state, of a team and of a seat, every field that it leaves as it was;
and what a register reads after a write.
-/
namespace Sys2Proof.Laws
open Sys2Proof.Machine

/-! ### State.updFunc changes funcs alone -/

@[simp] theorem updFunc_mem (s : State) (fn : Nat) (f : Func → Func) : (s.updFunc fn f).mem = s.mem := rfl
@[simp] theorem updFunc_l1 (s : State) (fn : Nat) (f : Func → Func) : (s.updFunc fn f).l1 = s.l1 := rfl
@[simp] theorem updFunc_l2 (s : State) (fn : Nat) (f : Func → Func) : (s.updFunc fn f).l2 = s.l2 := rfl
@[simp] theorem updFunc_tlb (s : State) (fn : Nat) (f : Func → Func) : (s.updFunc fn f).tlb = s.tlb := rfl
@[simp] theorem updFunc_acmask (s : State) (fn : Nat) (f : Func → Func) : (s.updFunc fn f).acmask = s.acmask := rfl
@[simp] theorem updFunc_asidctl (s : State) (fn : Nat) (f : Func → Func) : (s.updFunc fn f).asidctl = s.asidctl := rfl
@[simp] theorem updFunc_marks (s : State) (fn : Nat) (f : Func → Func) : (s.updFunc fn f).marks = s.marks := rfl
@[simp] theorem updFunc_tiles (s : State) (fn : Nat) (f : Func → Func) : (s.updFunc fn f).tiles = s.tiles := rfl
@[simp] theorem updFunc_slots (s : State) (fn : Nat) (f : Func → Func) : (s.updFunc fn f).slots = s.slots := rfl
@[simp] theorem updFunc_bindings (s : State) (fn : Nat) (f : Func → Func) : (s.updFunc fn f).bindings = s.bindings := rfl
@[simp] theorem updFunc_binds (s : State) (fn : Nat) (f : Func → Func) : (s.updFunc fn f).binds = s.binds := rfl
@[simp] theorem updFunc_classmin (s : State) (fn : Nat) (f : Func → Func) : (s.updFunc fn f).classmin = s.classmin := rfl
@[simp] theorem updFunc_queues (s : State) (fn : Nat) (f : Func → Func) : (s.updFunc fn f).queues = s.queues := rfl
@[simp] theorem updFunc_pkts (s : State) (fn : Nat) (f : Func → Func) : (s.updFunc fn f).pkts = s.pkts := rfl
@[simp] theorem updFunc_graphs (s : State) (fn : Nat) (f : Func → Func) : (s.updFunc fn f).graphs = s.graphs := rfl
@[simp] theorem updFunc_prologues (s : State) (fn : Nat) (f : Func → Func) : (s.updFunc fn f).prologues = s.prologues := rfl
@[simp] theorem updFunc_launches (s : State) (fn : Nat) (f : Func → Func) : (s.updFunc fn f).launches = s.launches := rfl
@[simp] theorem updFunc_rings (s : State) (fn : Nat) (f : Func → Func) : (s.updFunc fn f).rings = s.rings := rfl
@[simp] theorem updFunc_records (s : State) (fn : Nat) (f : Func → Func) : (s.updFunc fn f).records = s.records := rfl
@[simp] theorem updFunc_intrs (s : State) (fn : Nat) (f : Func → Func) : (s.updFunc fn f).intrs = s.intrs := rfl
@[simp] theorem updFunc_ctxaddr (s : State) (fn : Nat) (f : Func → Func) : (s.updFunc fn f).ctxaddr = s.ctxaddr := rfl
@[simp] theorem updFunc_ctxlen (s : State) (fn : Nat) (f : Func → Func) : (s.updFunc fn f).ctxlen = s.ctxlen := rfl
@[simp] theorem updFunc_ctxmap (s : State) (fn : Nat) (f : Func → Func) : (s.updFunc fn f).ctxmap = s.ctxmap := rfl
@[simp] theorem updFunc_ctxq (s : State) (fn : Nat) (f : Func → Func) : (s.updFunc fn f).ctxq = s.ctxq := rfl
@[simp] theorem updFunc_ctxstat (s : State) (fn : Nat) (f : Func → Func) : (s.updFunc fn f).ctxstat = s.ctxstat := rfl
@[simp] theorem updFunc_ctxcmd (s : State) (fn : Nat) (f : Func → Func) : (s.updFunc fn f).ctxcmd = s.ctxcmd := rfl
@[simp] theorem updFunc_mydev (s : State) (fn : Nat) (f : Func → Func) : (s.updFunc fn f).mydev = s.mydev := rfl
@[simp] theorem updFunc_peerrt (s : State) (fn : Nat) (f : Func → Func) : (s.updFunc fn f).peerrt = s.peerrt := rfl
@[simp] theorem updFunc_pwbase (s : State) (fn : Nat) (f : Func → Func) : (s.updFunc fn f).pwbase = s.pwbase := rfl
@[simp] theorem updFunc_pwlen (s : State) (fn : Nat) (f : Func → Func) : (s.updFunc fn f).pwlen = s.pwlen := rfl
@[simp] theorem updFunc_ports (s : State) (fn : Nat) (f : Func → Func) : (s.updFunc fn f).ports = s.ports := rfl
@[simp] theorem updFunc_peerOut (s : State) (fn : Nat) (f : Func → Func) : (s.updFunc fn f).peerOut = s.peerOut := rfl
@[simp] theorem updFunc_linkUp (s : State) (fn : Nat) (f : Func → Func) : (s.updFunc fn f).linkUp = s.linkUp := rfl
@[simp] theorem updFunc_boot (s : State) (fn : Nat) (f : Func → Func) : (s.updFunc fn f).boot = s.boot := rfl
@[simp] theorem updFunc_lastrst (s : State) (fn : Nat) (f : Func → Func) : (s.updFunc fn f).lastrst = s.lastrst := rfl
@[simp] theorem updFunc_err (s : State) (fn : Nat) (f : Func → Func) : (s.updFunc fn f).err = s.err := rfl
@[simp] theorem updFunc_fwver (s : State) (fn : Nat) (f : Func → Func) : (s.updFunc fn f).fwver = s.fwver := rfl
@[simp] theorem updFunc_wdCount (s : State) (fn : Nat) (f : Func → Func) : (s.updFunc fn f).wdCount = s.wdCount := rfl
@[simp] theorem updFunc_floor (s : State) (fn : Nat) (f : Func → Func) : (s.updFunc fn f).floor = s.floor := rfl
@[simp] theorem updFunc_flash (s : State) (fn : Nat) (f : Func → Func) : (s.updFunc fn f).flash = s.flash := rfl
@[simp] theorem updFunc_rcvaddr (s : State) (fn : Nat) (f : Func → Func) : (s.updFunc fn f).rcvaddr = s.rcvaddr := rfl
@[simp] theorem updFunc_recovering (s : State) (fn : Nat) (f : Func → Func) : (s.updFunc fn f).recovering = s.recovering := rfl
@[simp] theorem updFunc_spdm (s : State) (fn : Nat) (f : Func → Func) : (s.updFunc fn f).spdm = s.spdm := rfl
@[simp] theorem updFunc_mmio (s : State) (fn : Nat) (f : Func → Func) : (s.updFunc fn f).mmio = s.mmio := rfl
@[simp] theorem updFunc_nextKey (s : State) (fn : Nat) (f : Func → Func) : (s.updFunc fn f).nextKey = s.nextKey := rfl
@[simp] theorem updFunc_agenda (s : State) (fn : Nat) (f : Func → Func) : (s.updFunc fn f).agenda = s.agenda := rfl
@[simp] theorem updFunc_cur (s : State) (fn : Nat) (f : Func → Func) : (s.updFunc fn f).cur = s.cur := rfl
@[simp] theorem updFunc_tick (s : State) (fn : Nat) (f : Func → Func) : (s.updFunc fn f).tick = s.tick := rfl
@[simp] theorem updFunc_freeCtr (s : State) (fn : Nat) (f : Func → Func) : (s.updFunc fn f).freeCtr = s.freeCtr := rfl

/-! ### State.updLaunch changes launches alone -/

@[simp] theorem updLaunch_mem (s : State) (l : Nat) (f : Launch → Launch) : (s.updLaunch l f).mem = s.mem := rfl
@[simp] theorem updLaunch_l1 (s : State) (l : Nat) (f : Launch → Launch) : (s.updLaunch l f).l1 = s.l1 := rfl
@[simp] theorem updLaunch_l2 (s : State) (l : Nat) (f : Launch → Launch) : (s.updLaunch l f).l2 = s.l2 := rfl
@[simp] theorem updLaunch_tlb (s : State) (l : Nat) (f : Launch → Launch) : (s.updLaunch l f).tlb = s.tlb := rfl
@[simp] theorem updLaunch_acmask (s : State) (l : Nat) (f : Launch → Launch) : (s.updLaunch l f).acmask = s.acmask := rfl
@[simp] theorem updLaunch_asidctl (s : State) (l : Nat) (f : Launch → Launch) : (s.updLaunch l f).asidctl = s.asidctl := rfl
@[simp] theorem updLaunch_funcs (s : State) (l : Nat) (f : Launch → Launch) : (s.updLaunch l f).funcs = s.funcs := rfl
@[simp] theorem updLaunch_marks (s : State) (l : Nat) (f : Launch → Launch) : (s.updLaunch l f).marks = s.marks := rfl
@[simp] theorem updLaunch_tiles (s : State) (l : Nat) (f : Launch → Launch) : (s.updLaunch l f).tiles = s.tiles := rfl
@[simp] theorem updLaunch_slots (s : State) (l : Nat) (f : Launch → Launch) : (s.updLaunch l f).slots = s.slots := rfl
@[simp] theorem updLaunch_bindings (s : State) (l : Nat) (f : Launch → Launch) : (s.updLaunch l f).bindings = s.bindings := rfl
@[simp] theorem updLaunch_binds (s : State) (l : Nat) (f : Launch → Launch) : (s.updLaunch l f).binds = s.binds := rfl
@[simp] theorem updLaunch_classmin (s : State) (l : Nat) (f : Launch → Launch) : (s.updLaunch l f).classmin = s.classmin := rfl
@[simp] theorem updLaunch_queues (s : State) (l : Nat) (f : Launch → Launch) : (s.updLaunch l f).queues = s.queues := rfl
@[simp] theorem updLaunch_pkts (s : State) (l : Nat) (f : Launch → Launch) : (s.updLaunch l f).pkts = s.pkts := rfl
@[simp] theorem updLaunch_graphs (s : State) (l : Nat) (f : Launch → Launch) : (s.updLaunch l f).graphs = s.graphs := rfl
@[simp] theorem updLaunch_prologues (s : State) (l : Nat) (f : Launch → Launch) : (s.updLaunch l f).prologues = s.prologues := rfl
@[simp] theorem updLaunch_rings (s : State) (l : Nat) (f : Launch → Launch) : (s.updLaunch l f).rings = s.rings := rfl
@[simp] theorem updLaunch_records (s : State) (l : Nat) (f : Launch → Launch) : (s.updLaunch l f).records = s.records := rfl
@[simp] theorem updLaunch_intrs (s : State) (l : Nat) (f : Launch → Launch) : (s.updLaunch l f).intrs = s.intrs := rfl
@[simp] theorem updLaunch_ctxaddr (s : State) (l : Nat) (f : Launch → Launch) : (s.updLaunch l f).ctxaddr = s.ctxaddr := rfl
@[simp] theorem updLaunch_ctxlen (s : State) (l : Nat) (f : Launch → Launch) : (s.updLaunch l f).ctxlen = s.ctxlen := rfl
@[simp] theorem updLaunch_ctxmap (s : State) (l : Nat) (f : Launch → Launch) : (s.updLaunch l f).ctxmap = s.ctxmap := rfl
@[simp] theorem updLaunch_ctxq (s : State) (l : Nat) (f : Launch → Launch) : (s.updLaunch l f).ctxq = s.ctxq := rfl
@[simp] theorem updLaunch_ctxstat (s : State) (l : Nat) (f : Launch → Launch) : (s.updLaunch l f).ctxstat = s.ctxstat := rfl
@[simp] theorem updLaunch_ctxcmd (s : State) (l : Nat) (f : Launch → Launch) : (s.updLaunch l f).ctxcmd = s.ctxcmd := rfl
@[simp] theorem updLaunch_mydev (s : State) (l : Nat) (f : Launch → Launch) : (s.updLaunch l f).mydev = s.mydev := rfl
@[simp] theorem updLaunch_peerrt (s : State) (l : Nat) (f : Launch → Launch) : (s.updLaunch l f).peerrt = s.peerrt := rfl
@[simp] theorem updLaunch_pwbase (s : State) (l : Nat) (f : Launch → Launch) : (s.updLaunch l f).pwbase = s.pwbase := rfl
@[simp] theorem updLaunch_pwlen (s : State) (l : Nat) (f : Launch → Launch) : (s.updLaunch l f).pwlen = s.pwlen := rfl
@[simp] theorem updLaunch_ports (s : State) (l : Nat) (f : Launch → Launch) : (s.updLaunch l f).ports = s.ports := rfl
@[simp] theorem updLaunch_peerOut (s : State) (l : Nat) (f : Launch → Launch) : (s.updLaunch l f).peerOut = s.peerOut := rfl
@[simp] theorem updLaunch_linkUp (s : State) (l : Nat) (f : Launch → Launch) : (s.updLaunch l f).linkUp = s.linkUp := rfl
@[simp] theorem updLaunch_boot (s : State) (l : Nat) (f : Launch → Launch) : (s.updLaunch l f).boot = s.boot := rfl
@[simp] theorem updLaunch_lastrst (s : State) (l : Nat) (f : Launch → Launch) : (s.updLaunch l f).lastrst = s.lastrst := rfl
@[simp] theorem updLaunch_err (s : State) (l : Nat) (f : Launch → Launch) : (s.updLaunch l f).err = s.err := rfl
@[simp] theorem updLaunch_fwver (s : State) (l : Nat) (f : Launch → Launch) : (s.updLaunch l f).fwver = s.fwver := rfl
@[simp] theorem updLaunch_wdCount (s : State) (l : Nat) (f : Launch → Launch) : (s.updLaunch l f).wdCount = s.wdCount := rfl
@[simp] theorem updLaunch_floor (s : State) (l : Nat) (f : Launch → Launch) : (s.updLaunch l f).floor = s.floor := rfl
@[simp] theorem updLaunch_flash (s : State) (l : Nat) (f : Launch → Launch) : (s.updLaunch l f).flash = s.flash := rfl
@[simp] theorem updLaunch_rcvaddr (s : State) (l : Nat) (f : Launch → Launch) : (s.updLaunch l f).rcvaddr = s.rcvaddr := rfl
@[simp] theorem updLaunch_recovering (s : State) (l : Nat) (f : Launch → Launch) : (s.updLaunch l f).recovering = s.recovering := rfl
@[simp] theorem updLaunch_spdm (s : State) (l : Nat) (f : Launch → Launch) : (s.updLaunch l f).spdm = s.spdm := rfl
@[simp] theorem updLaunch_mmio (s : State) (l : Nat) (f : Launch → Launch) : (s.updLaunch l f).mmio = s.mmio := rfl
@[simp] theorem updLaunch_nextKey (s : State) (l : Nat) (f : Launch → Launch) : (s.updLaunch l f).nextKey = s.nextKey := rfl
@[simp] theorem updLaunch_agenda (s : State) (l : Nat) (f : Launch → Launch) : (s.updLaunch l f).agenda = s.agenda := rfl
@[simp] theorem updLaunch_cur (s : State) (l : Nat) (f : Launch → Launch) : (s.updLaunch l f).cur = s.cur := rfl
@[simp] theorem updLaunch_tick (s : State) (l : Nat) (f : Launch → Launch) : (s.updLaunch l f).tick = s.tick := rfl
@[simp] theorem updLaunch_freeCtr (s : State) (l : Nat) (f : Launch → Launch) : (s.updLaunch l f).freeCtr = s.freeCtr := rfl

/-! ### State.updQueue changes queues alone -/

@[simp] theorem updQueue_mem (s : State) (q : Nat) (f : Queue → Queue) : (s.updQueue q f).mem = s.mem := rfl
@[simp] theorem updQueue_l1 (s : State) (q : Nat) (f : Queue → Queue) : (s.updQueue q f).l1 = s.l1 := rfl
@[simp] theorem updQueue_l2 (s : State) (q : Nat) (f : Queue → Queue) : (s.updQueue q f).l2 = s.l2 := rfl
@[simp] theorem updQueue_tlb (s : State) (q : Nat) (f : Queue → Queue) : (s.updQueue q f).tlb = s.tlb := rfl
@[simp] theorem updQueue_acmask (s : State) (q : Nat) (f : Queue → Queue) : (s.updQueue q f).acmask = s.acmask := rfl
@[simp] theorem updQueue_asidctl (s : State) (q : Nat) (f : Queue → Queue) : (s.updQueue q f).asidctl = s.asidctl := rfl
@[simp] theorem updQueue_funcs (s : State) (q : Nat) (f : Queue → Queue) : (s.updQueue q f).funcs = s.funcs := rfl
@[simp] theorem updQueue_marks (s : State) (q : Nat) (f : Queue → Queue) : (s.updQueue q f).marks = s.marks := rfl
@[simp] theorem updQueue_tiles (s : State) (q : Nat) (f : Queue → Queue) : (s.updQueue q f).tiles = s.tiles := rfl
@[simp] theorem updQueue_slots (s : State) (q : Nat) (f : Queue → Queue) : (s.updQueue q f).slots = s.slots := rfl
@[simp] theorem updQueue_bindings (s : State) (q : Nat) (f : Queue → Queue) : (s.updQueue q f).bindings = s.bindings := rfl
@[simp] theorem updQueue_binds (s : State) (q : Nat) (f : Queue → Queue) : (s.updQueue q f).binds = s.binds := rfl
@[simp] theorem updQueue_classmin (s : State) (q : Nat) (f : Queue → Queue) : (s.updQueue q f).classmin = s.classmin := rfl
@[simp] theorem updQueue_pkts (s : State) (q : Nat) (f : Queue → Queue) : (s.updQueue q f).pkts = s.pkts := rfl
@[simp] theorem updQueue_graphs (s : State) (q : Nat) (f : Queue → Queue) : (s.updQueue q f).graphs = s.graphs := rfl
@[simp] theorem updQueue_prologues (s : State) (q : Nat) (f : Queue → Queue) : (s.updQueue q f).prologues = s.prologues := rfl
@[simp] theorem updQueue_launches (s : State) (q : Nat) (f : Queue → Queue) : (s.updQueue q f).launches = s.launches := rfl
@[simp] theorem updQueue_rings (s : State) (q : Nat) (f : Queue → Queue) : (s.updQueue q f).rings = s.rings := rfl
@[simp] theorem updQueue_records (s : State) (q : Nat) (f : Queue → Queue) : (s.updQueue q f).records = s.records := rfl
@[simp] theorem updQueue_intrs (s : State) (q : Nat) (f : Queue → Queue) : (s.updQueue q f).intrs = s.intrs := rfl
@[simp] theorem updQueue_ctxaddr (s : State) (q : Nat) (f : Queue → Queue) : (s.updQueue q f).ctxaddr = s.ctxaddr := rfl
@[simp] theorem updQueue_ctxlen (s : State) (q : Nat) (f : Queue → Queue) : (s.updQueue q f).ctxlen = s.ctxlen := rfl
@[simp] theorem updQueue_ctxmap (s : State) (q : Nat) (f : Queue → Queue) : (s.updQueue q f).ctxmap = s.ctxmap := rfl
@[simp] theorem updQueue_ctxq (s : State) (q : Nat) (f : Queue → Queue) : (s.updQueue q f).ctxq = s.ctxq := rfl
@[simp] theorem updQueue_ctxstat (s : State) (q : Nat) (f : Queue → Queue) : (s.updQueue q f).ctxstat = s.ctxstat := rfl
@[simp] theorem updQueue_ctxcmd (s : State) (q : Nat) (f : Queue → Queue) : (s.updQueue q f).ctxcmd = s.ctxcmd := rfl
@[simp] theorem updQueue_mydev (s : State) (q : Nat) (f : Queue → Queue) : (s.updQueue q f).mydev = s.mydev := rfl
@[simp] theorem updQueue_peerrt (s : State) (q : Nat) (f : Queue → Queue) : (s.updQueue q f).peerrt = s.peerrt := rfl
@[simp] theorem updQueue_pwbase (s : State) (q : Nat) (f : Queue → Queue) : (s.updQueue q f).pwbase = s.pwbase := rfl
@[simp] theorem updQueue_pwlen (s : State) (q : Nat) (f : Queue → Queue) : (s.updQueue q f).pwlen = s.pwlen := rfl
@[simp] theorem updQueue_ports (s : State) (q : Nat) (f : Queue → Queue) : (s.updQueue q f).ports = s.ports := rfl
@[simp] theorem updQueue_peerOut (s : State) (q : Nat) (f : Queue → Queue) : (s.updQueue q f).peerOut = s.peerOut := rfl
@[simp] theorem updQueue_linkUp (s : State) (q : Nat) (f : Queue → Queue) : (s.updQueue q f).linkUp = s.linkUp := rfl
@[simp] theorem updQueue_boot (s : State) (q : Nat) (f : Queue → Queue) : (s.updQueue q f).boot = s.boot := rfl
@[simp] theorem updQueue_lastrst (s : State) (q : Nat) (f : Queue → Queue) : (s.updQueue q f).lastrst = s.lastrst := rfl
@[simp] theorem updQueue_err (s : State) (q : Nat) (f : Queue → Queue) : (s.updQueue q f).err = s.err := rfl
@[simp] theorem updQueue_fwver (s : State) (q : Nat) (f : Queue → Queue) : (s.updQueue q f).fwver = s.fwver := rfl
@[simp] theorem updQueue_wdCount (s : State) (q : Nat) (f : Queue → Queue) : (s.updQueue q f).wdCount = s.wdCount := rfl
@[simp] theorem updQueue_floor (s : State) (q : Nat) (f : Queue → Queue) : (s.updQueue q f).floor = s.floor := rfl
@[simp] theorem updQueue_flash (s : State) (q : Nat) (f : Queue → Queue) : (s.updQueue q f).flash = s.flash := rfl
@[simp] theorem updQueue_rcvaddr (s : State) (q : Nat) (f : Queue → Queue) : (s.updQueue q f).rcvaddr = s.rcvaddr := rfl
@[simp] theorem updQueue_recovering (s : State) (q : Nat) (f : Queue → Queue) : (s.updQueue q f).recovering = s.recovering := rfl
@[simp] theorem updQueue_spdm (s : State) (q : Nat) (f : Queue → Queue) : (s.updQueue q f).spdm = s.spdm := rfl
@[simp] theorem updQueue_mmio (s : State) (q : Nat) (f : Queue → Queue) : (s.updQueue q f).mmio = s.mmio := rfl
@[simp] theorem updQueue_nextKey (s : State) (q : Nat) (f : Queue → Queue) : (s.updQueue q f).nextKey = s.nextKey := rfl
@[simp] theorem updQueue_agenda (s : State) (q : Nat) (f : Queue → Queue) : (s.updQueue q f).agenda = s.agenda := rfl
@[simp] theorem updQueue_cur (s : State) (q : Nat) (f : Queue → Queue) : (s.updQueue q f).cur = s.cur := rfl
@[simp] theorem updQueue_tick (s : State) (q : Nat) (f : Queue → Queue) : (s.updQueue q f).tick = s.tick := rfl
@[simp] theorem updQueue_freeCtr (s : State) (q : Nat) (f : Queue → Queue) : (s.updQueue q f).freeCtr = s.freeCtr := rfl

/-! ### State.updPkt changes pkts alone -/

@[simp] theorem updPkt_mem (s : State) (k : Nat) (f : Pkt → Pkt) : (s.updPkt k f).mem = s.mem := rfl
@[simp] theorem updPkt_l1 (s : State) (k : Nat) (f : Pkt → Pkt) : (s.updPkt k f).l1 = s.l1 := rfl
@[simp] theorem updPkt_l2 (s : State) (k : Nat) (f : Pkt → Pkt) : (s.updPkt k f).l2 = s.l2 := rfl
@[simp] theorem updPkt_tlb (s : State) (k : Nat) (f : Pkt → Pkt) : (s.updPkt k f).tlb = s.tlb := rfl
@[simp] theorem updPkt_acmask (s : State) (k : Nat) (f : Pkt → Pkt) : (s.updPkt k f).acmask = s.acmask := rfl
@[simp] theorem updPkt_asidctl (s : State) (k : Nat) (f : Pkt → Pkt) : (s.updPkt k f).asidctl = s.asidctl := rfl
@[simp] theorem updPkt_funcs (s : State) (k : Nat) (f : Pkt → Pkt) : (s.updPkt k f).funcs = s.funcs := rfl
@[simp] theorem updPkt_marks (s : State) (k : Nat) (f : Pkt → Pkt) : (s.updPkt k f).marks = s.marks := rfl
@[simp] theorem updPkt_tiles (s : State) (k : Nat) (f : Pkt → Pkt) : (s.updPkt k f).tiles = s.tiles := rfl
@[simp] theorem updPkt_slots (s : State) (k : Nat) (f : Pkt → Pkt) : (s.updPkt k f).slots = s.slots := rfl
@[simp] theorem updPkt_bindings (s : State) (k : Nat) (f : Pkt → Pkt) : (s.updPkt k f).bindings = s.bindings := rfl
@[simp] theorem updPkt_binds (s : State) (k : Nat) (f : Pkt → Pkt) : (s.updPkt k f).binds = s.binds := rfl
@[simp] theorem updPkt_classmin (s : State) (k : Nat) (f : Pkt → Pkt) : (s.updPkt k f).classmin = s.classmin := rfl
@[simp] theorem updPkt_queues (s : State) (k : Nat) (f : Pkt → Pkt) : (s.updPkt k f).queues = s.queues := rfl
@[simp] theorem updPkt_graphs (s : State) (k : Nat) (f : Pkt → Pkt) : (s.updPkt k f).graphs = s.graphs := rfl
@[simp] theorem updPkt_prologues (s : State) (k : Nat) (f : Pkt → Pkt) : (s.updPkt k f).prologues = s.prologues := rfl
@[simp] theorem updPkt_launches (s : State) (k : Nat) (f : Pkt → Pkt) : (s.updPkt k f).launches = s.launches := rfl
@[simp] theorem updPkt_rings (s : State) (k : Nat) (f : Pkt → Pkt) : (s.updPkt k f).rings = s.rings := rfl
@[simp] theorem updPkt_records (s : State) (k : Nat) (f : Pkt → Pkt) : (s.updPkt k f).records = s.records := rfl
@[simp] theorem updPkt_intrs (s : State) (k : Nat) (f : Pkt → Pkt) : (s.updPkt k f).intrs = s.intrs := rfl
@[simp] theorem updPkt_ctxaddr (s : State) (k : Nat) (f : Pkt → Pkt) : (s.updPkt k f).ctxaddr = s.ctxaddr := rfl
@[simp] theorem updPkt_ctxlen (s : State) (k : Nat) (f : Pkt → Pkt) : (s.updPkt k f).ctxlen = s.ctxlen := rfl
@[simp] theorem updPkt_ctxmap (s : State) (k : Nat) (f : Pkt → Pkt) : (s.updPkt k f).ctxmap = s.ctxmap := rfl
@[simp] theorem updPkt_ctxq (s : State) (k : Nat) (f : Pkt → Pkt) : (s.updPkt k f).ctxq = s.ctxq := rfl
@[simp] theorem updPkt_ctxstat (s : State) (k : Nat) (f : Pkt → Pkt) : (s.updPkt k f).ctxstat = s.ctxstat := rfl
@[simp] theorem updPkt_ctxcmd (s : State) (k : Nat) (f : Pkt → Pkt) : (s.updPkt k f).ctxcmd = s.ctxcmd := rfl
@[simp] theorem updPkt_mydev (s : State) (k : Nat) (f : Pkt → Pkt) : (s.updPkt k f).mydev = s.mydev := rfl
@[simp] theorem updPkt_peerrt (s : State) (k : Nat) (f : Pkt → Pkt) : (s.updPkt k f).peerrt = s.peerrt := rfl
@[simp] theorem updPkt_pwbase (s : State) (k : Nat) (f : Pkt → Pkt) : (s.updPkt k f).pwbase = s.pwbase := rfl
@[simp] theorem updPkt_pwlen (s : State) (k : Nat) (f : Pkt → Pkt) : (s.updPkt k f).pwlen = s.pwlen := rfl
@[simp] theorem updPkt_ports (s : State) (k : Nat) (f : Pkt → Pkt) : (s.updPkt k f).ports = s.ports := rfl
@[simp] theorem updPkt_peerOut (s : State) (k : Nat) (f : Pkt → Pkt) : (s.updPkt k f).peerOut = s.peerOut := rfl
@[simp] theorem updPkt_linkUp (s : State) (k : Nat) (f : Pkt → Pkt) : (s.updPkt k f).linkUp = s.linkUp := rfl
@[simp] theorem updPkt_boot (s : State) (k : Nat) (f : Pkt → Pkt) : (s.updPkt k f).boot = s.boot := rfl
@[simp] theorem updPkt_lastrst (s : State) (k : Nat) (f : Pkt → Pkt) : (s.updPkt k f).lastrst = s.lastrst := rfl
@[simp] theorem updPkt_err (s : State) (k : Nat) (f : Pkt → Pkt) : (s.updPkt k f).err = s.err := rfl
@[simp] theorem updPkt_fwver (s : State) (k : Nat) (f : Pkt → Pkt) : (s.updPkt k f).fwver = s.fwver := rfl
@[simp] theorem updPkt_wdCount (s : State) (k : Nat) (f : Pkt → Pkt) : (s.updPkt k f).wdCount = s.wdCount := rfl
@[simp] theorem updPkt_floor (s : State) (k : Nat) (f : Pkt → Pkt) : (s.updPkt k f).floor = s.floor := rfl
@[simp] theorem updPkt_flash (s : State) (k : Nat) (f : Pkt → Pkt) : (s.updPkt k f).flash = s.flash := rfl
@[simp] theorem updPkt_rcvaddr (s : State) (k : Nat) (f : Pkt → Pkt) : (s.updPkt k f).rcvaddr = s.rcvaddr := rfl
@[simp] theorem updPkt_recovering (s : State) (k : Nat) (f : Pkt → Pkt) : (s.updPkt k f).recovering = s.recovering := rfl
@[simp] theorem updPkt_spdm (s : State) (k : Nat) (f : Pkt → Pkt) : (s.updPkt k f).spdm = s.spdm := rfl
@[simp] theorem updPkt_mmio (s : State) (k : Nat) (f : Pkt → Pkt) : (s.updPkt k f).mmio = s.mmio := rfl
@[simp] theorem updPkt_nextKey (s : State) (k : Nat) (f : Pkt → Pkt) : (s.updPkt k f).nextKey = s.nextKey := rfl
@[simp] theorem updPkt_agenda (s : State) (k : Nat) (f : Pkt → Pkt) : (s.updPkt k f).agenda = s.agenda := rfl
@[simp] theorem updPkt_cur (s : State) (k : Nat) (f : Pkt → Pkt) : (s.updPkt k f).cur = s.cur := rfl
@[simp] theorem updPkt_tick (s : State) (k : Nat) (f : Pkt → Pkt) : (s.updPkt k f).tick = s.tick := rfl
@[simp] theorem updPkt_freeCtr (s : State) (k : Nat) (f : Pkt → Pkt) : (s.updPkt k f).freeCtr = s.freeCtr := rfl

/-! ### State.updBlock changes launches alone -/

@[simp] theorem updBlock_mem (s : State) (l b : Nat) (f : Block → Block) : (s.updBlock l b f).mem = s.mem := rfl
@[simp] theorem updBlock_l1 (s : State) (l b : Nat) (f : Block → Block) : (s.updBlock l b f).l1 = s.l1 := rfl
@[simp] theorem updBlock_l2 (s : State) (l b : Nat) (f : Block → Block) : (s.updBlock l b f).l2 = s.l2 := rfl
@[simp] theorem updBlock_tlb (s : State) (l b : Nat) (f : Block → Block) : (s.updBlock l b f).tlb = s.tlb := rfl
@[simp] theorem updBlock_acmask (s : State) (l b : Nat) (f : Block → Block) : (s.updBlock l b f).acmask = s.acmask := rfl
@[simp] theorem updBlock_asidctl (s : State) (l b : Nat) (f : Block → Block) : (s.updBlock l b f).asidctl = s.asidctl := rfl
@[simp] theorem updBlock_funcs (s : State) (l b : Nat) (f : Block → Block) : (s.updBlock l b f).funcs = s.funcs := rfl
@[simp] theorem updBlock_marks (s : State) (l b : Nat) (f : Block → Block) : (s.updBlock l b f).marks = s.marks := rfl
@[simp] theorem updBlock_tiles (s : State) (l b : Nat) (f : Block → Block) : (s.updBlock l b f).tiles = s.tiles := rfl
@[simp] theorem updBlock_slots (s : State) (l b : Nat) (f : Block → Block) : (s.updBlock l b f).slots = s.slots := rfl
@[simp] theorem updBlock_bindings (s : State) (l b : Nat) (f : Block → Block) : (s.updBlock l b f).bindings = s.bindings := rfl
@[simp] theorem updBlock_binds (s : State) (l b : Nat) (f : Block → Block) : (s.updBlock l b f).binds = s.binds := rfl
@[simp] theorem updBlock_classmin (s : State) (l b : Nat) (f : Block → Block) : (s.updBlock l b f).classmin = s.classmin := rfl
@[simp] theorem updBlock_queues (s : State) (l b : Nat) (f : Block → Block) : (s.updBlock l b f).queues = s.queues := rfl
@[simp] theorem updBlock_pkts (s : State) (l b : Nat) (f : Block → Block) : (s.updBlock l b f).pkts = s.pkts := rfl
@[simp] theorem updBlock_graphs (s : State) (l b : Nat) (f : Block → Block) : (s.updBlock l b f).graphs = s.graphs := rfl
@[simp] theorem updBlock_prologues (s : State) (l b : Nat) (f : Block → Block) : (s.updBlock l b f).prologues = s.prologues := rfl
@[simp] theorem updBlock_rings (s : State) (l b : Nat) (f : Block → Block) : (s.updBlock l b f).rings = s.rings := rfl
@[simp] theorem updBlock_records (s : State) (l b : Nat) (f : Block → Block) : (s.updBlock l b f).records = s.records := rfl
@[simp] theorem updBlock_intrs (s : State) (l b : Nat) (f : Block → Block) : (s.updBlock l b f).intrs = s.intrs := rfl
@[simp] theorem updBlock_ctxaddr (s : State) (l b : Nat) (f : Block → Block) : (s.updBlock l b f).ctxaddr = s.ctxaddr := rfl
@[simp] theorem updBlock_ctxlen (s : State) (l b : Nat) (f : Block → Block) : (s.updBlock l b f).ctxlen = s.ctxlen := rfl
@[simp] theorem updBlock_ctxmap (s : State) (l b : Nat) (f : Block → Block) : (s.updBlock l b f).ctxmap = s.ctxmap := rfl
@[simp] theorem updBlock_ctxq (s : State) (l b : Nat) (f : Block → Block) : (s.updBlock l b f).ctxq = s.ctxq := rfl
@[simp] theorem updBlock_ctxstat (s : State) (l b : Nat) (f : Block → Block) : (s.updBlock l b f).ctxstat = s.ctxstat := rfl
@[simp] theorem updBlock_ctxcmd (s : State) (l b : Nat) (f : Block → Block) : (s.updBlock l b f).ctxcmd = s.ctxcmd := rfl
@[simp] theorem updBlock_mydev (s : State) (l b : Nat) (f : Block → Block) : (s.updBlock l b f).mydev = s.mydev := rfl
@[simp] theorem updBlock_peerrt (s : State) (l b : Nat) (f : Block → Block) : (s.updBlock l b f).peerrt = s.peerrt := rfl
@[simp] theorem updBlock_pwbase (s : State) (l b : Nat) (f : Block → Block) : (s.updBlock l b f).pwbase = s.pwbase := rfl
@[simp] theorem updBlock_pwlen (s : State) (l b : Nat) (f : Block → Block) : (s.updBlock l b f).pwlen = s.pwlen := rfl
@[simp] theorem updBlock_ports (s : State) (l b : Nat) (f : Block → Block) : (s.updBlock l b f).ports = s.ports := rfl
@[simp] theorem updBlock_peerOut (s : State) (l b : Nat) (f : Block → Block) : (s.updBlock l b f).peerOut = s.peerOut := rfl
@[simp] theorem updBlock_linkUp (s : State) (l b : Nat) (f : Block → Block) : (s.updBlock l b f).linkUp = s.linkUp := rfl
@[simp] theorem updBlock_boot (s : State) (l b : Nat) (f : Block → Block) : (s.updBlock l b f).boot = s.boot := rfl
@[simp] theorem updBlock_lastrst (s : State) (l b : Nat) (f : Block → Block) : (s.updBlock l b f).lastrst = s.lastrst := rfl
@[simp] theorem updBlock_err (s : State) (l b : Nat) (f : Block → Block) : (s.updBlock l b f).err = s.err := rfl
@[simp] theorem updBlock_fwver (s : State) (l b : Nat) (f : Block → Block) : (s.updBlock l b f).fwver = s.fwver := rfl
@[simp] theorem updBlock_wdCount (s : State) (l b : Nat) (f : Block → Block) : (s.updBlock l b f).wdCount = s.wdCount := rfl
@[simp] theorem updBlock_floor (s : State) (l b : Nat) (f : Block → Block) : (s.updBlock l b f).floor = s.floor := rfl
@[simp] theorem updBlock_flash (s : State) (l b : Nat) (f : Block → Block) : (s.updBlock l b f).flash = s.flash := rfl
@[simp] theorem updBlock_rcvaddr (s : State) (l b : Nat) (f : Block → Block) : (s.updBlock l b f).rcvaddr = s.rcvaddr := rfl
@[simp] theorem updBlock_recovering (s : State) (l b : Nat) (f : Block → Block) : (s.updBlock l b f).recovering = s.recovering := rfl
@[simp] theorem updBlock_spdm (s : State) (l b : Nat) (f : Block → Block) : (s.updBlock l b f).spdm = s.spdm := rfl
@[simp] theorem updBlock_mmio (s : State) (l b : Nat) (f : Block → Block) : (s.updBlock l b f).mmio = s.mmio := rfl
@[simp] theorem updBlock_nextKey (s : State) (l b : Nat) (f : Block → Block) : (s.updBlock l b f).nextKey = s.nextKey := rfl
@[simp] theorem updBlock_agenda (s : State) (l b : Nat) (f : Block → Block) : (s.updBlock l b f).agenda = s.agenda := rfl
@[simp] theorem updBlock_cur (s : State) (l b : Nat) (f : Block → Block) : (s.updBlock l b f).cur = s.cur := rfl
@[simp] theorem updBlock_tick (s : State) (l b : Nat) (f : Block → Block) : (s.updBlock l b f).tick = s.tick := rfl
@[simp] theorem updBlock_freeCtr (s : State) (l b : Nat) (f : Block → Block) : (s.updBlock l b f).freeCtr = s.freeCtr := rfl

/-! ### State.updTeam changes launches alone -/

@[simp] theorem updTeam_mem (s : State) (l b t : Nat) (f : Team → Team) : (s.updTeam l b t f).mem = s.mem := rfl
@[simp] theorem updTeam_l1 (s : State) (l b t : Nat) (f : Team → Team) : (s.updTeam l b t f).l1 = s.l1 := rfl
@[simp] theorem updTeam_l2 (s : State) (l b t : Nat) (f : Team → Team) : (s.updTeam l b t f).l2 = s.l2 := rfl
@[simp] theorem updTeam_tlb (s : State) (l b t : Nat) (f : Team → Team) : (s.updTeam l b t f).tlb = s.tlb := rfl
@[simp] theorem updTeam_acmask (s : State) (l b t : Nat) (f : Team → Team) : (s.updTeam l b t f).acmask = s.acmask := rfl
@[simp] theorem updTeam_asidctl (s : State) (l b t : Nat) (f : Team → Team) : (s.updTeam l b t f).asidctl = s.asidctl := rfl
@[simp] theorem updTeam_funcs (s : State) (l b t : Nat) (f : Team → Team) : (s.updTeam l b t f).funcs = s.funcs := rfl
@[simp] theorem updTeam_marks (s : State) (l b t : Nat) (f : Team → Team) : (s.updTeam l b t f).marks = s.marks := rfl
@[simp] theorem updTeam_tiles (s : State) (l b t : Nat) (f : Team → Team) : (s.updTeam l b t f).tiles = s.tiles := rfl
@[simp] theorem updTeam_slots (s : State) (l b t : Nat) (f : Team → Team) : (s.updTeam l b t f).slots = s.slots := rfl
@[simp] theorem updTeam_bindings (s : State) (l b t : Nat) (f : Team → Team) : (s.updTeam l b t f).bindings = s.bindings := rfl
@[simp] theorem updTeam_binds (s : State) (l b t : Nat) (f : Team → Team) : (s.updTeam l b t f).binds = s.binds := rfl
@[simp] theorem updTeam_classmin (s : State) (l b t : Nat) (f : Team → Team) : (s.updTeam l b t f).classmin = s.classmin := rfl
@[simp] theorem updTeam_queues (s : State) (l b t : Nat) (f : Team → Team) : (s.updTeam l b t f).queues = s.queues := rfl
@[simp] theorem updTeam_pkts (s : State) (l b t : Nat) (f : Team → Team) : (s.updTeam l b t f).pkts = s.pkts := rfl
@[simp] theorem updTeam_graphs (s : State) (l b t : Nat) (f : Team → Team) : (s.updTeam l b t f).graphs = s.graphs := rfl
@[simp] theorem updTeam_prologues (s : State) (l b t : Nat) (f : Team → Team) : (s.updTeam l b t f).prologues = s.prologues := rfl
@[simp] theorem updTeam_rings (s : State) (l b t : Nat) (f : Team → Team) : (s.updTeam l b t f).rings = s.rings := rfl
@[simp] theorem updTeam_records (s : State) (l b t : Nat) (f : Team → Team) : (s.updTeam l b t f).records = s.records := rfl
@[simp] theorem updTeam_intrs (s : State) (l b t : Nat) (f : Team → Team) : (s.updTeam l b t f).intrs = s.intrs := rfl
@[simp] theorem updTeam_ctxaddr (s : State) (l b t : Nat) (f : Team → Team) : (s.updTeam l b t f).ctxaddr = s.ctxaddr := rfl
@[simp] theorem updTeam_ctxlen (s : State) (l b t : Nat) (f : Team → Team) : (s.updTeam l b t f).ctxlen = s.ctxlen := rfl
@[simp] theorem updTeam_ctxmap (s : State) (l b t : Nat) (f : Team → Team) : (s.updTeam l b t f).ctxmap = s.ctxmap := rfl
@[simp] theorem updTeam_ctxq (s : State) (l b t : Nat) (f : Team → Team) : (s.updTeam l b t f).ctxq = s.ctxq := rfl
@[simp] theorem updTeam_ctxstat (s : State) (l b t : Nat) (f : Team → Team) : (s.updTeam l b t f).ctxstat = s.ctxstat := rfl
@[simp] theorem updTeam_ctxcmd (s : State) (l b t : Nat) (f : Team → Team) : (s.updTeam l b t f).ctxcmd = s.ctxcmd := rfl
@[simp] theorem updTeam_mydev (s : State) (l b t : Nat) (f : Team → Team) : (s.updTeam l b t f).mydev = s.mydev := rfl
@[simp] theorem updTeam_peerrt (s : State) (l b t : Nat) (f : Team → Team) : (s.updTeam l b t f).peerrt = s.peerrt := rfl
@[simp] theorem updTeam_pwbase (s : State) (l b t : Nat) (f : Team → Team) : (s.updTeam l b t f).pwbase = s.pwbase := rfl
@[simp] theorem updTeam_pwlen (s : State) (l b t : Nat) (f : Team → Team) : (s.updTeam l b t f).pwlen = s.pwlen := rfl
@[simp] theorem updTeam_ports (s : State) (l b t : Nat) (f : Team → Team) : (s.updTeam l b t f).ports = s.ports := rfl
@[simp] theorem updTeam_peerOut (s : State) (l b t : Nat) (f : Team → Team) : (s.updTeam l b t f).peerOut = s.peerOut := rfl
@[simp] theorem updTeam_linkUp (s : State) (l b t : Nat) (f : Team → Team) : (s.updTeam l b t f).linkUp = s.linkUp := rfl
@[simp] theorem updTeam_boot (s : State) (l b t : Nat) (f : Team → Team) : (s.updTeam l b t f).boot = s.boot := rfl
@[simp] theorem updTeam_lastrst (s : State) (l b t : Nat) (f : Team → Team) : (s.updTeam l b t f).lastrst = s.lastrst := rfl
@[simp] theorem updTeam_err (s : State) (l b t : Nat) (f : Team → Team) : (s.updTeam l b t f).err = s.err := rfl
@[simp] theorem updTeam_fwver (s : State) (l b t : Nat) (f : Team → Team) : (s.updTeam l b t f).fwver = s.fwver := rfl
@[simp] theorem updTeam_wdCount (s : State) (l b t : Nat) (f : Team → Team) : (s.updTeam l b t f).wdCount = s.wdCount := rfl
@[simp] theorem updTeam_floor (s : State) (l b t : Nat) (f : Team → Team) : (s.updTeam l b t f).floor = s.floor := rfl
@[simp] theorem updTeam_flash (s : State) (l b t : Nat) (f : Team → Team) : (s.updTeam l b t f).flash = s.flash := rfl
@[simp] theorem updTeam_rcvaddr (s : State) (l b t : Nat) (f : Team → Team) : (s.updTeam l b t f).rcvaddr = s.rcvaddr := rfl
@[simp] theorem updTeam_recovering (s : State) (l b t : Nat) (f : Team → Team) : (s.updTeam l b t f).recovering = s.recovering := rfl
@[simp] theorem updTeam_spdm (s : State) (l b t : Nat) (f : Team → Team) : (s.updTeam l b t f).spdm = s.spdm := rfl
@[simp] theorem updTeam_mmio (s : State) (l b t : Nat) (f : Team → Team) : (s.updTeam l b t f).mmio = s.mmio := rfl
@[simp] theorem updTeam_nextKey (s : State) (l b t : Nat) (f : Team → Team) : (s.updTeam l b t f).nextKey = s.nextKey := rfl
@[simp] theorem updTeam_agenda (s : State) (l b t : Nat) (f : Team → Team) : (s.updTeam l b t f).agenda = s.agenda := rfl
@[simp] theorem updTeam_cur (s : State) (l b t : Nat) (f : Team → Team) : (s.updTeam l b t f).cur = s.cur := rfl
@[simp] theorem updTeam_tick (s : State) (l b t : Nat) (f : Team → Team) : (s.updTeam l b t f).tick = s.tick := rfl
@[simp] theorem updTeam_freeCtr (s : State) (l b t : Nat) (f : Team → Team) : (s.updTeam l b t f).freeCtr = s.freeCtr := rfl

/-! ### State.putTeam changes launches alone -/

@[simp] theorem putTeam_mem (s : State) (e : TEnv) (t : Team) : (s.putTeam e t).mem = s.mem := rfl
@[simp] theorem putTeam_l1 (s : State) (e : TEnv) (t : Team) : (s.putTeam e t).l1 = s.l1 := rfl
@[simp] theorem putTeam_l2 (s : State) (e : TEnv) (t : Team) : (s.putTeam e t).l2 = s.l2 := rfl
@[simp] theorem putTeam_tlb (s : State) (e : TEnv) (t : Team) : (s.putTeam e t).tlb = s.tlb := rfl
@[simp] theorem putTeam_acmask (s : State) (e : TEnv) (t : Team) : (s.putTeam e t).acmask = s.acmask := rfl
@[simp] theorem putTeam_asidctl (s : State) (e : TEnv) (t : Team) : (s.putTeam e t).asidctl = s.asidctl := rfl
@[simp] theorem putTeam_funcs (s : State) (e : TEnv) (t : Team) : (s.putTeam e t).funcs = s.funcs := rfl
@[simp] theorem putTeam_marks (s : State) (e : TEnv) (t : Team) : (s.putTeam e t).marks = s.marks := rfl
@[simp] theorem putTeam_tiles (s : State) (e : TEnv) (t : Team) : (s.putTeam e t).tiles = s.tiles := rfl
@[simp] theorem putTeam_slots (s : State) (e : TEnv) (t : Team) : (s.putTeam e t).slots = s.slots := rfl
@[simp] theorem putTeam_bindings (s : State) (e : TEnv) (t : Team) : (s.putTeam e t).bindings = s.bindings := rfl
@[simp] theorem putTeam_binds (s : State) (e : TEnv) (t : Team) : (s.putTeam e t).binds = s.binds := rfl
@[simp] theorem putTeam_classmin (s : State) (e : TEnv) (t : Team) : (s.putTeam e t).classmin = s.classmin := rfl
@[simp] theorem putTeam_queues (s : State) (e : TEnv) (t : Team) : (s.putTeam e t).queues = s.queues := rfl
@[simp] theorem putTeam_pkts (s : State) (e : TEnv) (t : Team) : (s.putTeam e t).pkts = s.pkts := rfl
@[simp] theorem putTeam_graphs (s : State) (e : TEnv) (t : Team) : (s.putTeam e t).graphs = s.graphs := rfl
@[simp] theorem putTeam_prologues (s : State) (e : TEnv) (t : Team) : (s.putTeam e t).prologues = s.prologues := rfl
@[simp] theorem putTeam_rings (s : State) (e : TEnv) (t : Team) : (s.putTeam e t).rings = s.rings := rfl
@[simp] theorem putTeam_records (s : State) (e : TEnv) (t : Team) : (s.putTeam e t).records = s.records := rfl
@[simp] theorem putTeam_intrs (s : State) (e : TEnv) (t : Team) : (s.putTeam e t).intrs = s.intrs := rfl
@[simp] theorem putTeam_ctxaddr (s : State) (e : TEnv) (t : Team) : (s.putTeam e t).ctxaddr = s.ctxaddr := rfl
@[simp] theorem putTeam_ctxlen (s : State) (e : TEnv) (t : Team) : (s.putTeam e t).ctxlen = s.ctxlen := rfl
@[simp] theorem putTeam_ctxmap (s : State) (e : TEnv) (t : Team) : (s.putTeam e t).ctxmap = s.ctxmap := rfl
@[simp] theorem putTeam_ctxq (s : State) (e : TEnv) (t : Team) : (s.putTeam e t).ctxq = s.ctxq := rfl
@[simp] theorem putTeam_ctxstat (s : State) (e : TEnv) (t : Team) : (s.putTeam e t).ctxstat = s.ctxstat := rfl
@[simp] theorem putTeam_ctxcmd (s : State) (e : TEnv) (t : Team) : (s.putTeam e t).ctxcmd = s.ctxcmd := rfl
@[simp] theorem putTeam_mydev (s : State) (e : TEnv) (t : Team) : (s.putTeam e t).mydev = s.mydev := rfl
@[simp] theorem putTeam_peerrt (s : State) (e : TEnv) (t : Team) : (s.putTeam e t).peerrt = s.peerrt := rfl
@[simp] theorem putTeam_pwbase (s : State) (e : TEnv) (t : Team) : (s.putTeam e t).pwbase = s.pwbase := rfl
@[simp] theorem putTeam_pwlen (s : State) (e : TEnv) (t : Team) : (s.putTeam e t).pwlen = s.pwlen := rfl
@[simp] theorem putTeam_ports (s : State) (e : TEnv) (t : Team) : (s.putTeam e t).ports = s.ports := rfl
@[simp] theorem putTeam_peerOut (s : State) (e : TEnv) (t : Team) : (s.putTeam e t).peerOut = s.peerOut := rfl
@[simp] theorem putTeam_linkUp (s : State) (e : TEnv) (t : Team) : (s.putTeam e t).linkUp = s.linkUp := rfl
@[simp] theorem putTeam_boot (s : State) (e : TEnv) (t : Team) : (s.putTeam e t).boot = s.boot := rfl
@[simp] theorem putTeam_lastrst (s : State) (e : TEnv) (t : Team) : (s.putTeam e t).lastrst = s.lastrst := rfl
@[simp] theorem putTeam_err (s : State) (e : TEnv) (t : Team) : (s.putTeam e t).err = s.err := rfl
@[simp] theorem putTeam_fwver (s : State) (e : TEnv) (t : Team) : (s.putTeam e t).fwver = s.fwver := rfl
@[simp] theorem putTeam_wdCount (s : State) (e : TEnv) (t : Team) : (s.putTeam e t).wdCount = s.wdCount := rfl
@[simp] theorem putTeam_floor (s : State) (e : TEnv) (t : Team) : (s.putTeam e t).floor = s.floor := rfl
@[simp] theorem putTeam_flash (s : State) (e : TEnv) (t : Team) : (s.putTeam e t).flash = s.flash := rfl
@[simp] theorem putTeam_rcvaddr (s : State) (e : TEnv) (t : Team) : (s.putTeam e t).rcvaddr = s.rcvaddr := rfl
@[simp] theorem putTeam_recovering (s : State) (e : TEnv) (t : Team) : (s.putTeam e t).recovering = s.recovering := rfl
@[simp] theorem putTeam_spdm (s : State) (e : TEnv) (t : Team) : (s.putTeam e t).spdm = s.spdm := rfl
@[simp] theorem putTeam_mmio (s : State) (e : TEnv) (t : Team) : (s.putTeam e t).mmio = s.mmio := rfl
@[simp] theorem putTeam_nextKey (s : State) (e : TEnv) (t : Team) : (s.putTeam e t).nextKey = s.nextKey := rfl
@[simp] theorem putTeam_agenda (s : State) (e : TEnv) (t : Team) : (s.putTeam e t).agenda = s.agenda := rfl
@[simp] theorem putTeam_cur (s : State) (e : TEnv) (t : Team) : (s.putTeam e t).cur = s.cur := rfl
@[simp] theorem putTeam_tick (s : State) (e : TEnv) (t : Team) : (s.putTeam e t).tick = s.tick := rfl
@[simp] theorem putTeam_freeCtr (s : State) (e : TEnv) (t : Team) : (s.putTeam e t).freeCtr = s.freeCtr := rfl

/-! ### State.putFoyer changes launches alone -/

@[simp] theorem putFoyer_mem (s : State) (e : FEnv) (f : Foyer) : (s.putFoyer e f).mem = s.mem := rfl
@[simp] theorem putFoyer_l1 (s : State) (e : FEnv) (f : Foyer) : (s.putFoyer e f).l1 = s.l1 := rfl
@[simp] theorem putFoyer_l2 (s : State) (e : FEnv) (f : Foyer) : (s.putFoyer e f).l2 = s.l2 := rfl
@[simp] theorem putFoyer_tlb (s : State) (e : FEnv) (f : Foyer) : (s.putFoyer e f).tlb = s.tlb := rfl
@[simp] theorem putFoyer_acmask (s : State) (e : FEnv) (f : Foyer) : (s.putFoyer e f).acmask = s.acmask := rfl
@[simp] theorem putFoyer_asidctl (s : State) (e : FEnv) (f : Foyer) : (s.putFoyer e f).asidctl = s.asidctl := rfl
@[simp] theorem putFoyer_funcs (s : State) (e : FEnv) (f : Foyer) : (s.putFoyer e f).funcs = s.funcs := rfl
@[simp] theorem putFoyer_marks (s : State) (e : FEnv) (f : Foyer) : (s.putFoyer e f).marks = s.marks := rfl
@[simp] theorem putFoyer_tiles (s : State) (e : FEnv) (f : Foyer) : (s.putFoyer e f).tiles = s.tiles := rfl
@[simp] theorem putFoyer_slots (s : State) (e : FEnv) (f : Foyer) : (s.putFoyer e f).slots = s.slots := rfl
@[simp] theorem putFoyer_bindings (s : State) (e : FEnv) (f : Foyer) : (s.putFoyer e f).bindings = s.bindings := rfl
@[simp] theorem putFoyer_binds (s : State) (e : FEnv) (f : Foyer) : (s.putFoyer e f).binds = s.binds := rfl
@[simp] theorem putFoyer_classmin (s : State) (e : FEnv) (f : Foyer) : (s.putFoyer e f).classmin = s.classmin := rfl
@[simp] theorem putFoyer_queues (s : State) (e : FEnv) (f : Foyer) : (s.putFoyer e f).queues = s.queues := rfl
@[simp] theorem putFoyer_pkts (s : State) (e : FEnv) (f : Foyer) : (s.putFoyer e f).pkts = s.pkts := rfl
@[simp] theorem putFoyer_graphs (s : State) (e : FEnv) (f : Foyer) : (s.putFoyer e f).graphs = s.graphs := rfl
@[simp] theorem putFoyer_prologues (s : State) (e : FEnv) (f : Foyer) : (s.putFoyer e f).prologues = s.prologues := rfl
@[simp] theorem putFoyer_rings (s : State) (e : FEnv) (f : Foyer) : (s.putFoyer e f).rings = s.rings := rfl
@[simp] theorem putFoyer_records (s : State) (e : FEnv) (f : Foyer) : (s.putFoyer e f).records = s.records := rfl
@[simp] theorem putFoyer_intrs (s : State) (e : FEnv) (f : Foyer) : (s.putFoyer e f).intrs = s.intrs := rfl
@[simp] theorem putFoyer_ctxaddr (s : State) (e : FEnv) (f : Foyer) : (s.putFoyer e f).ctxaddr = s.ctxaddr := rfl
@[simp] theorem putFoyer_ctxlen (s : State) (e : FEnv) (f : Foyer) : (s.putFoyer e f).ctxlen = s.ctxlen := rfl
@[simp] theorem putFoyer_ctxmap (s : State) (e : FEnv) (f : Foyer) : (s.putFoyer e f).ctxmap = s.ctxmap := rfl
@[simp] theorem putFoyer_ctxq (s : State) (e : FEnv) (f : Foyer) : (s.putFoyer e f).ctxq = s.ctxq := rfl
@[simp] theorem putFoyer_ctxstat (s : State) (e : FEnv) (f : Foyer) : (s.putFoyer e f).ctxstat = s.ctxstat := rfl
@[simp] theorem putFoyer_ctxcmd (s : State) (e : FEnv) (f : Foyer) : (s.putFoyer e f).ctxcmd = s.ctxcmd := rfl
@[simp] theorem putFoyer_mydev (s : State) (e : FEnv) (f : Foyer) : (s.putFoyer e f).mydev = s.mydev := rfl
@[simp] theorem putFoyer_peerrt (s : State) (e : FEnv) (f : Foyer) : (s.putFoyer e f).peerrt = s.peerrt := rfl
@[simp] theorem putFoyer_pwbase (s : State) (e : FEnv) (f : Foyer) : (s.putFoyer e f).pwbase = s.pwbase := rfl
@[simp] theorem putFoyer_pwlen (s : State) (e : FEnv) (f : Foyer) : (s.putFoyer e f).pwlen = s.pwlen := rfl
@[simp] theorem putFoyer_ports (s : State) (e : FEnv) (f : Foyer) : (s.putFoyer e f).ports = s.ports := rfl
@[simp] theorem putFoyer_peerOut (s : State) (e : FEnv) (f : Foyer) : (s.putFoyer e f).peerOut = s.peerOut := rfl
@[simp] theorem putFoyer_linkUp (s : State) (e : FEnv) (f : Foyer) : (s.putFoyer e f).linkUp = s.linkUp := rfl
@[simp] theorem putFoyer_boot (s : State) (e : FEnv) (f : Foyer) : (s.putFoyer e f).boot = s.boot := rfl
@[simp] theorem putFoyer_lastrst (s : State) (e : FEnv) (f : Foyer) : (s.putFoyer e f).lastrst = s.lastrst := rfl
@[simp] theorem putFoyer_err (s : State) (e : FEnv) (f : Foyer) : (s.putFoyer e f).err = s.err := rfl
@[simp] theorem putFoyer_fwver (s : State) (e : FEnv) (f : Foyer) : (s.putFoyer e f).fwver = s.fwver := rfl
@[simp] theorem putFoyer_wdCount (s : State) (e : FEnv) (f : Foyer) : (s.putFoyer e f).wdCount = s.wdCount := rfl
@[simp] theorem putFoyer_floor (s : State) (e : FEnv) (f : Foyer) : (s.putFoyer e f).floor = s.floor := rfl
@[simp] theorem putFoyer_flash (s : State) (e : FEnv) (f : Foyer) : (s.putFoyer e f).flash = s.flash := rfl
@[simp] theorem putFoyer_rcvaddr (s : State) (e : FEnv) (f : Foyer) : (s.putFoyer e f).rcvaddr = s.rcvaddr := rfl
@[simp] theorem putFoyer_recovering (s : State) (e : FEnv) (f : Foyer) : (s.putFoyer e f).recovering = s.recovering := rfl
@[simp] theorem putFoyer_spdm (s : State) (e : FEnv) (f : Foyer) : (s.putFoyer e f).spdm = s.spdm := rfl
@[simp] theorem putFoyer_mmio (s : State) (e : FEnv) (f : Foyer) : (s.putFoyer e f).mmio = s.mmio := rfl
@[simp] theorem putFoyer_nextKey (s : State) (e : FEnv) (f : Foyer) : (s.putFoyer e f).nextKey = s.nextKey := rfl
@[simp] theorem putFoyer_agenda (s : State) (e : FEnv) (f : Foyer) : (s.putFoyer e f).agenda = s.agenda := rfl
@[simp] theorem putFoyer_cur (s : State) (e : FEnv) (f : Foyer) : (s.putFoyer e f).cur = s.cur := rfl
@[simp] theorem putFoyer_tick (s : State) (e : FEnv) (f : Foyer) : (s.putFoyer e f).tick = s.tick := rfl
@[simp] theorem putFoyer_freeCtr (s : State) (e : FEnv) (f : Foyer) : (s.putFoyer e f).freeCtr = s.freeCtr := rfl

/-! ### State.endRegion changes marks alone -/

@[simp] theorem endRegion_mem (s : State) (a : AgentId) : (s.endRegion a).mem = s.mem := rfl
@[simp] theorem endRegion_l1 (s : State) (a : AgentId) : (s.endRegion a).l1 = s.l1 := rfl
@[simp] theorem endRegion_l2 (s : State) (a : AgentId) : (s.endRegion a).l2 = s.l2 := rfl
@[simp] theorem endRegion_tlb (s : State) (a : AgentId) : (s.endRegion a).tlb = s.tlb := rfl
@[simp] theorem endRegion_acmask (s : State) (a : AgentId) : (s.endRegion a).acmask = s.acmask := rfl
@[simp] theorem endRegion_asidctl (s : State) (a : AgentId) : (s.endRegion a).asidctl = s.asidctl := rfl
@[simp] theorem endRegion_funcs (s : State) (a : AgentId) : (s.endRegion a).funcs = s.funcs := rfl
@[simp] theorem endRegion_tiles (s : State) (a : AgentId) : (s.endRegion a).tiles = s.tiles := rfl
@[simp] theorem endRegion_slots (s : State) (a : AgentId) : (s.endRegion a).slots = s.slots := rfl
@[simp] theorem endRegion_bindings (s : State) (a : AgentId) : (s.endRegion a).bindings = s.bindings := rfl
@[simp] theorem endRegion_binds (s : State) (a : AgentId) : (s.endRegion a).binds = s.binds := rfl
@[simp] theorem endRegion_classmin (s : State) (a : AgentId) : (s.endRegion a).classmin = s.classmin := rfl
@[simp] theorem endRegion_queues (s : State) (a : AgentId) : (s.endRegion a).queues = s.queues := rfl
@[simp] theorem endRegion_pkts (s : State) (a : AgentId) : (s.endRegion a).pkts = s.pkts := rfl
@[simp] theorem endRegion_graphs (s : State) (a : AgentId) : (s.endRegion a).graphs = s.graphs := rfl
@[simp] theorem endRegion_prologues (s : State) (a : AgentId) : (s.endRegion a).prologues = s.prologues := rfl
@[simp] theorem endRegion_launches (s : State) (a : AgentId) : (s.endRegion a).launches = s.launches := rfl
@[simp] theorem endRegion_rings (s : State) (a : AgentId) : (s.endRegion a).rings = s.rings := rfl
@[simp] theorem endRegion_records (s : State) (a : AgentId) : (s.endRegion a).records = s.records := rfl
@[simp] theorem endRegion_intrs (s : State) (a : AgentId) : (s.endRegion a).intrs = s.intrs := rfl
@[simp] theorem endRegion_ctxaddr (s : State) (a : AgentId) : (s.endRegion a).ctxaddr = s.ctxaddr := rfl
@[simp] theorem endRegion_ctxlen (s : State) (a : AgentId) : (s.endRegion a).ctxlen = s.ctxlen := rfl
@[simp] theorem endRegion_ctxmap (s : State) (a : AgentId) : (s.endRegion a).ctxmap = s.ctxmap := rfl
@[simp] theorem endRegion_ctxq (s : State) (a : AgentId) : (s.endRegion a).ctxq = s.ctxq := rfl
@[simp] theorem endRegion_ctxstat (s : State) (a : AgentId) : (s.endRegion a).ctxstat = s.ctxstat := rfl
@[simp] theorem endRegion_ctxcmd (s : State) (a : AgentId) : (s.endRegion a).ctxcmd = s.ctxcmd := rfl
@[simp] theorem endRegion_mydev (s : State) (a : AgentId) : (s.endRegion a).mydev = s.mydev := rfl
@[simp] theorem endRegion_peerrt (s : State) (a : AgentId) : (s.endRegion a).peerrt = s.peerrt := rfl
@[simp] theorem endRegion_pwbase (s : State) (a : AgentId) : (s.endRegion a).pwbase = s.pwbase := rfl
@[simp] theorem endRegion_pwlen (s : State) (a : AgentId) : (s.endRegion a).pwlen = s.pwlen := rfl
@[simp] theorem endRegion_ports (s : State) (a : AgentId) : (s.endRegion a).ports = s.ports := rfl
@[simp] theorem endRegion_peerOut (s : State) (a : AgentId) : (s.endRegion a).peerOut = s.peerOut := rfl
@[simp] theorem endRegion_linkUp (s : State) (a : AgentId) : (s.endRegion a).linkUp = s.linkUp := rfl
@[simp] theorem endRegion_boot (s : State) (a : AgentId) : (s.endRegion a).boot = s.boot := rfl
@[simp] theorem endRegion_lastrst (s : State) (a : AgentId) : (s.endRegion a).lastrst = s.lastrst := rfl
@[simp] theorem endRegion_err (s : State) (a : AgentId) : (s.endRegion a).err = s.err := rfl
@[simp] theorem endRegion_fwver (s : State) (a : AgentId) : (s.endRegion a).fwver = s.fwver := rfl
@[simp] theorem endRegion_wdCount (s : State) (a : AgentId) : (s.endRegion a).wdCount = s.wdCount := rfl
@[simp] theorem endRegion_floor (s : State) (a : AgentId) : (s.endRegion a).floor = s.floor := rfl
@[simp] theorem endRegion_flash (s : State) (a : AgentId) : (s.endRegion a).flash = s.flash := rfl
@[simp] theorem endRegion_rcvaddr (s : State) (a : AgentId) : (s.endRegion a).rcvaddr = s.rcvaddr := rfl
@[simp] theorem endRegion_recovering (s : State) (a : AgentId) : (s.endRegion a).recovering = s.recovering := rfl
@[simp] theorem endRegion_spdm (s : State) (a : AgentId) : (s.endRegion a).spdm = s.spdm := rfl
@[simp] theorem endRegion_mmio (s : State) (a : AgentId) : (s.endRegion a).mmio = s.mmio := rfl
@[simp] theorem endRegion_nextKey (s : State) (a : AgentId) : (s.endRegion a).nextKey = s.nextKey := rfl
@[simp] theorem endRegion_agenda (s : State) (a : AgentId) : (s.endRegion a).agenda = s.agenda := rfl
@[simp] theorem endRegion_cur (s : State) (a : AgentId) : (s.endRegion a).cur = s.cur := rfl
@[simp] theorem endRegion_tick (s : State) (a : AgentId) : (s.endRegion a).tick = s.tick := rfl
@[simp] theorem endRegion_freeCtr (s : State) (a : AgentId) : (s.endRegion a).freeCtr = s.freeCtr := rfl

/-! ### State.wake changes launches alone -/

@[simp] theorem wake_mem (s : State) : (s.wake).mem = s.mem := rfl
@[simp] theorem wake_l1 (s : State) : (s.wake).l1 = s.l1 := rfl
@[simp] theorem wake_l2 (s : State) : (s.wake).l2 = s.l2 := rfl
@[simp] theorem wake_tlb (s : State) : (s.wake).tlb = s.tlb := rfl
@[simp] theorem wake_acmask (s : State) : (s.wake).acmask = s.acmask := rfl
@[simp] theorem wake_asidctl (s : State) : (s.wake).asidctl = s.asidctl := rfl
@[simp] theorem wake_funcs (s : State) : (s.wake).funcs = s.funcs := rfl
@[simp] theorem wake_marks (s : State) : (s.wake).marks = s.marks := rfl
@[simp] theorem wake_tiles (s : State) : (s.wake).tiles = s.tiles := rfl
@[simp] theorem wake_slots (s : State) : (s.wake).slots = s.slots := rfl
@[simp] theorem wake_bindings (s : State) : (s.wake).bindings = s.bindings := rfl
@[simp] theorem wake_binds (s : State) : (s.wake).binds = s.binds := rfl
@[simp] theorem wake_classmin (s : State) : (s.wake).classmin = s.classmin := rfl
@[simp] theorem wake_queues (s : State) : (s.wake).queues = s.queues := rfl
@[simp] theorem wake_pkts (s : State) : (s.wake).pkts = s.pkts := rfl
@[simp] theorem wake_graphs (s : State) : (s.wake).graphs = s.graphs := rfl
@[simp] theorem wake_prologues (s : State) : (s.wake).prologues = s.prologues := rfl
@[simp] theorem wake_rings (s : State) : (s.wake).rings = s.rings := rfl
@[simp] theorem wake_records (s : State) : (s.wake).records = s.records := rfl
@[simp] theorem wake_intrs (s : State) : (s.wake).intrs = s.intrs := rfl
@[simp] theorem wake_ctxaddr (s : State) : (s.wake).ctxaddr = s.ctxaddr := rfl
@[simp] theorem wake_ctxlen (s : State) : (s.wake).ctxlen = s.ctxlen := rfl
@[simp] theorem wake_ctxmap (s : State) : (s.wake).ctxmap = s.ctxmap := rfl
@[simp] theorem wake_ctxq (s : State) : (s.wake).ctxq = s.ctxq := rfl
@[simp] theorem wake_ctxstat (s : State) : (s.wake).ctxstat = s.ctxstat := rfl
@[simp] theorem wake_ctxcmd (s : State) : (s.wake).ctxcmd = s.ctxcmd := rfl
@[simp] theorem wake_mydev (s : State) : (s.wake).mydev = s.mydev := rfl
@[simp] theorem wake_peerrt (s : State) : (s.wake).peerrt = s.peerrt := rfl
@[simp] theorem wake_pwbase (s : State) : (s.wake).pwbase = s.pwbase := rfl
@[simp] theorem wake_pwlen (s : State) : (s.wake).pwlen = s.pwlen := rfl
@[simp] theorem wake_ports (s : State) : (s.wake).ports = s.ports := rfl
@[simp] theorem wake_peerOut (s : State) : (s.wake).peerOut = s.peerOut := rfl
@[simp] theorem wake_linkUp (s : State) : (s.wake).linkUp = s.linkUp := rfl
@[simp] theorem wake_boot (s : State) : (s.wake).boot = s.boot := rfl
@[simp] theorem wake_lastrst (s : State) : (s.wake).lastrst = s.lastrst := rfl
@[simp] theorem wake_err (s : State) : (s.wake).err = s.err := rfl
@[simp] theorem wake_fwver (s : State) : (s.wake).fwver = s.fwver := rfl
@[simp] theorem wake_wdCount (s : State) : (s.wake).wdCount = s.wdCount := rfl
@[simp] theorem wake_floor (s : State) : (s.wake).floor = s.floor := rfl
@[simp] theorem wake_flash (s : State) : (s.wake).flash = s.flash := rfl
@[simp] theorem wake_rcvaddr (s : State) : (s.wake).rcvaddr = s.rcvaddr := rfl
@[simp] theorem wake_recovering (s : State) : (s.wake).recovering = s.recovering := rfl
@[simp] theorem wake_spdm (s : State) : (s.wake).spdm = s.spdm := rfl
@[simp] theorem wake_mmio (s : State) : (s.wake).mmio = s.mmio := rfl
@[simp] theorem wake_nextKey (s : State) : (s.wake).nextKey = s.nextKey := rfl
@[simp] theorem wake_agenda (s : State) : (s.wake).agenda = s.agenda := rfl
@[simp] theorem wake_cur (s : State) : (s.wake).cur = s.cur := rfl
@[simp] theorem wake_tick (s : State) : (s.wake).tick = s.tick := rfl
@[simp] theorem wake_freeCtr (s : State) : (s.wake).freeCtr = s.freeCtr := rfl

/-! ### State.drainCore changes launches alone -/

@[simp] theorem drainCore_mem (s : State) (u : Unit3) : (s.drainCore u).mem = s.mem := rfl
@[simp] theorem drainCore_l1 (s : State) (u : Unit3) : (s.drainCore u).l1 = s.l1 := rfl
@[simp] theorem drainCore_l2 (s : State) (u : Unit3) : (s.drainCore u).l2 = s.l2 := rfl
@[simp] theorem drainCore_tlb (s : State) (u : Unit3) : (s.drainCore u).tlb = s.tlb := rfl
@[simp] theorem drainCore_acmask (s : State) (u : Unit3) : (s.drainCore u).acmask = s.acmask := rfl
@[simp] theorem drainCore_asidctl (s : State) (u : Unit3) : (s.drainCore u).asidctl = s.asidctl := rfl
@[simp] theorem drainCore_funcs (s : State) (u : Unit3) : (s.drainCore u).funcs = s.funcs := rfl
@[simp] theorem drainCore_marks (s : State) (u : Unit3) : (s.drainCore u).marks = s.marks := rfl
@[simp] theorem drainCore_tiles (s : State) (u : Unit3) : (s.drainCore u).tiles = s.tiles := rfl
@[simp] theorem drainCore_slots (s : State) (u : Unit3) : (s.drainCore u).slots = s.slots := rfl
@[simp] theorem drainCore_bindings (s : State) (u : Unit3) : (s.drainCore u).bindings = s.bindings := rfl
@[simp] theorem drainCore_binds (s : State) (u : Unit3) : (s.drainCore u).binds = s.binds := rfl
@[simp] theorem drainCore_classmin (s : State) (u : Unit3) : (s.drainCore u).classmin = s.classmin := rfl
@[simp] theorem drainCore_queues (s : State) (u : Unit3) : (s.drainCore u).queues = s.queues := rfl
@[simp] theorem drainCore_pkts (s : State) (u : Unit3) : (s.drainCore u).pkts = s.pkts := rfl
@[simp] theorem drainCore_graphs (s : State) (u : Unit3) : (s.drainCore u).graphs = s.graphs := rfl
@[simp] theorem drainCore_prologues (s : State) (u : Unit3) : (s.drainCore u).prologues = s.prologues := rfl
@[simp] theorem drainCore_rings (s : State) (u : Unit3) : (s.drainCore u).rings = s.rings := rfl
@[simp] theorem drainCore_records (s : State) (u : Unit3) : (s.drainCore u).records = s.records := rfl
@[simp] theorem drainCore_intrs (s : State) (u : Unit3) : (s.drainCore u).intrs = s.intrs := rfl
@[simp] theorem drainCore_ctxaddr (s : State) (u : Unit3) : (s.drainCore u).ctxaddr = s.ctxaddr := rfl
@[simp] theorem drainCore_ctxlen (s : State) (u : Unit3) : (s.drainCore u).ctxlen = s.ctxlen := rfl
@[simp] theorem drainCore_ctxmap (s : State) (u : Unit3) : (s.drainCore u).ctxmap = s.ctxmap := rfl
@[simp] theorem drainCore_ctxq (s : State) (u : Unit3) : (s.drainCore u).ctxq = s.ctxq := rfl
@[simp] theorem drainCore_ctxstat (s : State) (u : Unit3) : (s.drainCore u).ctxstat = s.ctxstat := rfl
@[simp] theorem drainCore_ctxcmd (s : State) (u : Unit3) : (s.drainCore u).ctxcmd = s.ctxcmd := rfl
@[simp] theorem drainCore_mydev (s : State) (u : Unit3) : (s.drainCore u).mydev = s.mydev := rfl
@[simp] theorem drainCore_peerrt (s : State) (u : Unit3) : (s.drainCore u).peerrt = s.peerrt := rfl
@[simp] theorem drainCore_pwbase (s : State) (u : Unit3) : (s.drainCore u).pwbase = s.pwbase := rfl
@[simp] theorem drainCore_pwlen (s : State) (u : Unit3) : (s.drainCore u).pwlen = s.pwlen := rfl
@[simp] theorem drainCore_ports (s : State) (u : Unit3) : (s.drainCore u).ports = s.ports := rfl
@[simp] theorem drainCore_peerOut (s : State) (u : Unit3) : (s.drainCore u).peerOut = s.peerOut := rfl
@[simp] theorem drainCore_linkUp (s : State) (u : Unit3) : (s.drainCore u).linkUp = s.linkUp := rfl
@[simp] theorem drainCore_boot (s : State) (u : Unit3) : (s.drainCore u).boot = s.boot := rfl
@[simp] theorem drainCore_lastrst (s : State) (u : Unit3) : (s.drainCore u).lastrst = s.lastrst := rfl
@[simp] theorem drainCore_err (s : State) (u : Unit3) : (s.drainCore u).err = s.err := rfl
@[simp] theorem drainCore_fwver (s : State) (u : Unit3) : (s.drainCore u).fwver = s.fwver := rfl
@[simp] theorem drainCore_wdCount (s : State) (u : Unit3) : (s.drainCore u).wdCount = s.wdCount := rfl
@[simp] theorem drainCore_floor (s : State) (u : Unit3) : (s.drainCore u).floor = s.floor := rfl
@[simp] theorem drainCore_flash (s : State) (u : Unit3) : (s.drainCore u).flash = s.flash := rfl
@[simp] theorem drainCore_rcvaddr (s : State) (u : Unit3) : (s.drainCore u).rcvaddr = s.rcvaddr := rfl
@[simp] theorem drainCore_recovering (s : State) (u : Unit3) : (s.drainCore u).recovering = s.recovering := rfl
@[simp] theorem drainCore_spdm (s : State) (u : Unit3) : (s.drainCore u).spdm = s.spdm := rfl
@[simp] theorem drainCore_mmio (s : State) (u : Unit3) : (s.drainCore u).mmio = s.mmio := rfl
@[simp] theorem drainCore_nextKey (s : State) (u : Unit3) : (s.drainCore u).nextKey = s.nextKey := rfl
@[simp] theorem drainCore_agenda (s : State) (u : Unit3) : (s.drainCore u).agenda = s.agenda := rfl
@[simp] theorem drainCore_cur (s : State) (u : Unit3) : (s.drainCore u).cur = s.cur := rfl
@[simp] theorem drainCore_tick (s : State) (u : Unit3) : (s.drainCore u).tick = s.tick := rfl
@[simp] theorem drainCore_freeCtr (s : State) (u : Unit3) : (s.drainCore u).freeCtr = s.freeCtr := rfl

/-! ### Team.mapSeats changes seats alone -/

@[simp] theorem team_mapSeats_frags (t : Team) (p : Nat → Bool) (f : Seat → Seat) : (t.mapSeats p f).frags = t.frags := rfl
@[simp] theorem team_mapSeats_asf (t : Team) (p : Nat → Bool) (f : Seat → Seat) : (t.mapSeats p f).asf = t.asf := rfl
@[simp] theorem team_mapSeats_ate (t : Team) (p : Nat → Bool) (f : Seat → Seat) : (t.mapSeats p f).ate = t.ate := rfl
@[simp] theorem team_mapSeats_trapres (t : Team) (p : Nat → Bool) (f : Seat → Seat) : (t.mapSeats p f).trapres = t.trapres := rfl
@[simp] theorem team_mapSeats_qprog (t : Team) (p : Nat → Bool) (f : Seat → Seat) : (t.mapSeats p f).qprog = t.qprog := rfl
@[simp] theorem team_mapSeats_dqPos (t : Team) (p : Nat → Bool) (f : Seat → Seat) : (t.mapSeats p f).dqPos = t.dqPos := rfl
@[simp] theorem team_mapSeats_shapes (t : Team) (p : Nat → Bool) (f : Seat → Seat) : (t.mapSeats p f).shapes = t.shapes := rfl
@[simp] theorem team_mapSeats_creg (t : Team) (p : Nat → Bool) (f : Seat → Seat) : (t.mapSeats p f).creg = t.creg := rfl
@[simp] theorem team_mapSeats_inCap (t : Team) (p : Nat → Bool) (f : Seat → Seat) : (t.mapSeats p f).inCap = t.inCap := rfl
@[simp] theorem team_mapSeats_adopt (t : Team) (p : Nat → Bool) (f : Seat → Seat) : (t.mapSeats p f).adopt = t.adopt := rfl
@[simp] theorem team_mapSeats_capDue (t : Team) (p : Nat → Bool) (f : Seat → Seat) : (t.mapSeats p f).capDue = t.capDue := rfl
@[simp] theorem team_mapSeats_saved (t : Team) (p : Nat → Bool) (f : Seat → Seat) : (t.mapSeats p f).saved = t.saved := rfl
@[simp] theorem team_mapSeats_parked (t : Team) (p : Nat → Bool) (f : Seat → Seat) : (t.mapSeats p f).parked = t.parked := rfl
@[simp] theorem team_mapSeats_stop (t : Team) (p : Nat → Bool) (f : Seat → Seat) : (t.mapSeats p f).stop = t.stop := rfl
@[simp] theorem team_mapSeats_stepping (t : Team) (p : Nat → Bool) (f : Seat → Seat) : (t.mapSeats p f).stepping = t.stepping := rfl
@[simp] theorem team_mapSeats_stepDone (t : Team) (p : Nat → Bool) (f : Seat → Seat) : (t.mapSeats p f).stepDone = t.stepDone := rfl
@[simp] theorem team_mapSeats_pend (t : Team) (p : Nat → Bool) (f : Seat → Seat) : (t.mapSeats p f).pend = t.pend := rfl
@[simp] theorem team_mapSeats_scratch (t : Team) (p : Nat → Bool) (f : Seat → Seat) : (t.mapSeats p f).scratch = t.scratch := rfl
@[simp] theorem team_mapSeats_sb (t : Team) (p : Nat → Bool) (f : Seat → Seat) : (t.mapSeats p f).sb = t.sb := rfl
@[simp] theorem team_mapSeats_bar (t : Team) (p : Nat → Bool) (f : Seat → Seat) : (t.mapSeats p f).bar = t.bar := rfl
@[simp] theorem team_mapSeats_solve (t : Team) (p : Nat → Bool) (f : Seat → Seat) : (t.mapSeats p f).solve = t.solve := rfl
@[simp] theorem team_mapSeats_copy (t : Team) (p : Nat → Bool) (f : Seat → Seat) : (t.mapSeats p f).copy = t.copy := rfl
@[simp] theorem team_mapSeats_hearth (t : Team) (p : Nat → Bool) (f : Seat → Seat) : (t.mapSeats p f).hearth = t.hearth := rfl
@[simp] theorem team_mapSeats_past (t : Team) (p : Nat → Bool) (f : Seat → Seat) : (t.mapSeats p f).past = t.past := rfl

/-! ### Team.arrive changes frags alone -/

@[simp] theorem team_arrive_seats (t : Team) (l : Launch) (fi : Nat) (new : List Frag) : (t.arrive l fi new).seats = t.seats := rfl
@[simp] theorem team_arrive_asf (t : Team) (l : Launch) (fi : Nat) (new : List Frag) : (t.arrive l fi new).asf = t.asf := rfl
@[simp] theorem team_arrive_ate (t : Team) (l : Launch) (fi : Nat) (new : List Frag) : (t.arrive l fi new).ate = t.ate := rfl
@[simp] theorem team_arrive_trapres (t : Team) (l : Launch) (fi : Nat) (new : List Frag) : (t.arrive l fi new).trapres = t.trapres := rfl
@[simp] theorem team_arrive_qprog (t : Team) (l : Launch) (fi : Nat) (new : List Frag) : (t.arrive l fi new).qprog = t.qprog := rfl
@[simp] theorem team_arrive_dqPos (t : Team) (l : Launch) (fi : Nat) (new : List Frag) : (t.arrive l fi new).dqPos = t.dqPos := rfl
@[simp] theorem team_arrive_shapes (t : Team) (l : Launch) (fi : Nat) (new : List Frag) : (t.arrive l fi new).shapes = t.shapes := rfl
@[simp] theorem team_arrive_creg (t : Team) (l : Launch) (fi : Nat) (new : List Frag) : (t.arrive l fi new).creg = t.creg := rfl
@[simp] theorem team_arrive_inCap (t : Team) (l : Launch) (fi : Nat) (new : List Frag) : (t.arrive l fi new).inCap = t.inCap := rfl
@[simp] theorem team_arrive_adopt (t : Team) (l : Launch) (fi : Nat) (new : List Frag) : (t.arrive l fi new).adopt = t.adopt := rfl
@[simp] theorem team_arrive_capDue (t : Team) (l : Launch) (fi : Nat) (new : List Frag) : (t.arrive l fi new).capDue = t.capDue := rfl
@[simp] theorem team_arrive_saved (t : Team) (l : Launch) (fi : Nat) (new : List Frag) : (t.arrive l fi new).saved = t.saved := rfl
@[simp] theorem team_arrive_parked (t : Team) (l : Launch) (fi : Nat) (new : List Frag) : (t.arrive l fi new).parked = t.parked := rfl
@[simp] theorem team_arrive_stop (t : Team) (l : Launch) (fi : Nat) (new : List Frag) : (t.arrive l fi new).stop = t.stop := rfl
@[simp] theorem team_arrive_stepping (t : Team) (l : Launch) (fi : Nat) (new : List Frag) : (t.arrive l fi new).stepping = t.stepping := rfl
@[simp] theorem team_arrive_stepDone (t : Team) (l : Launch) (fi : Nat) (new : List Frag) : (t.arrive l fi new).stepDone = t.stepDone := rfl
@[simp] theorem team_arrive_pend (t : Team) (l : Launch) (fi : Nat) (new : List Frag) : (t.arrive l fi new).pend = t.pend := rfl
@[simp] theorem team_arrive_scratch (t : Team) (l : Launch) (fi : Nat) (new : List Frag) : (t.arrive l fi new).scratch = t.scratch := rfl
@[simp] theorem team_arrive_sb (t : Team) (l : Launch) (fi : Nat) (new : List Frag) : (t.arrive l fi new).sb = t.sb := rfl
@[simp] theorem team_arrive_bar (t : Team) (l : Launch) (fi : Nat) (new : List Frag) : (t.arrive l fi new).bar = t.bar := rfl
@[simp] theorem team_arrive_solve (t : Team) (l : Launch) (fi : Nat) (new : List Frag) : (t.arrive l fi new).solve = t.solve := rfl
@[simp] theorem team_arrive_copy (t : Team) (l : Launch) (fi : Nat) (new : List Frag) : (t.arrive l fi new).copy = t.copy := rfl
@[simp] theorem team_arrive_hearth (t : Team) (l : Launch) (fi : Nat) (new : List Frag) : (t.arrive l fi new).hearth = t.hearth := rfl
@[simp] theorem team_arrive_past (t : Team) (l : Launch) (fi : Nat) (new : List Frag) : (t.arrive l fi new).past = t.past := rfl

/-! ### Team.countBackward changes frags alone -/

@[simp] theorem team_countBackward_seats (t : Team) (pc : DWord) : (t.countBackward pc).seats = t.seats := rfl
@[simp] theorem team_countBackward_asf (t : Team) (pc : DWord) : (t.countBackward pc).asf = t.asf := rfl
@[simp] theorem team_countBackward_ate (t : Team) (pc : DWord) : (t.countBackward pc).ate = t.ate := rfl
@[simp] theorem team_countBackward_trapres (t : Team) (pc : DWord) : (t.countBackward pc).trapres = t.trapres := rfl
@[simp] theorem team_countBackward_qprog (t : Team) (pc : DWord) : (t.countBackward pc).qprog = t.qprog := rfl
@[simp] theorem team_countBackward_dqPos (t : Team) (pc : DWord) : (t.countBackward pc).dqPos = t.dqPos := rfl
@[simp] theorem team_countBackward_shapes (t : Team) (pc : DWord) : (t.countBackward pc).shapes = t.shapes := rfl
@[simp] theorem team_countBackward_creg (t : Team) (pc : DWord) : (t.countBackward pc).creg = t.creg := rfl
@[simp] theorem team_countBackward_inCap (t : Team) (pc : DWord) : (t.countBackward pc).inCap = t.inCap := rfl
@[simp] theorem team_countBackward_adopt (t : Team) (pc : DWord) : (t.countBackward pc).adopt = t.adopt := rfl
@[simp] theorem team_countBackward_capDue (t : Team) (pc : DWord) : (t.countBackward pc).capDue = t.capDue := rfl
@[simp] theorem team_countBackward_saved (t : Team) (pc : DWord) : (t.countBackward pc).saved = t.saved := rfl
@[simp] theorem team_countBackward_parked (t : Team) (pc : DWord) : (t.countBackward pc).parked = t.parked := rfl
@[simp] theorem team_countBackward_stop (t : Team) (pc : DWord) : (t.countBackward pc).stop = t.stop := rfl
@[simp] theorem team_countBackward_stepping (t : Team) (pc : DWord) : (t.countBackward pc).stepping = t.stepping := rfl
@[simp] theorem team_countBackward_stepDone (t : Team) (pc : DWord) : (t.countBackward pc).stepDone = t.stepDone := rfl
@[simp] theorem team_countBackward_pend (t : Team) (pc : DWord) : (t.countBackward pc).pend = t.pend := rfl
@[simp] theorem team_countBackward_scratch (t : Team) (pc : DWord) : (t.countBackward pc).scratch = t.scratch := rfl
@[simp] theorem team_countBackward_sb (t : Team) (pc : DWord) : (t.countBackward pc).sb = t.sb := rfl
@[simp] theorem team_countBackward_bar (t : Team) (pc : DWord) : (t.countBackward pc).bar = t.bar := rfl
@[simp] theorem team_countBackward_solve (t : Team) (pc : DWord) : (t.countBackward pc).solve = t.solve := rfl
@[simp] theorem team_countBackward_copy (t : Team) (pc : DWord) : (t.countBackward pc).copy = t.copy := rfl
@[simp] theorem team_countBackward_hearth (t : Team) (pc : DWord) : (t.countBackward pc).hearth = t.hearth := rfl
@[simp] theorem team_countBackward_past (t : Team) (pc : DWord) : (t.countBackward pc).past = t.past := rfl

/-! ### Team.land changes seats alone -/

@[simp] theorem team_land_frags (t : Team) (p : Pending) : (t.land p).frags = t.frags := rfl
@[simp] theorem team_land_asf (t : Team) (p : Pending) : (t.land p).asf = t.asf := rfl
@[simp] theorem team_land_ate (t : Team) (p : Pending) : (t.land p).ate = t.ate := rfl
@[simp] theorem team_land_trapres (t : Team) (p : Pending) : (t.land p).trapres = t.trapres := rfl
@[simp] theorem team_land_qprog (t : Team) (p : Pending) : (t.land p).qprog = t.qprog := rfl
@[simp] theorem team_land_dqPos (t : Team) (p : Pending) : (t.land p).dqPos = t.dqPos := rfl
@[simp] theorem team_land_shapes (t : Team) (p : Pending) : (t.land p).shapes = t.shapes := rfl
@[simp] theorem team_land_creg (t : Team) (p : Pending) : (t.land p).creg = t.creg := rfl
@[simp] theorem team_land_inCap (t : Team) (p : Pending) : (t.land p).inCap = t.inCap := rfl
@[simp] theorem team_land_adopt (t : Team) (p : Pending) : (t.land p).adopt = t.adopt := rfl
@[simp] theorem team_land_capDue (t : Team) (p : Pending) : (t.land p).capDue = t.capDue := rfl
@[simp] theorem team_land_saved (t : Team) (p : Pending) : (t.land p).saved = t.saved := rfl
@[simp] theorem team_land_parked (t : Team) (p : Pending) : (t.land p).parked = t.parked := rfl
@[simp] theorem team_land_stop (t : Team) (p : Pending) : (t.land p).stop = t.stop := rfl
@[simp] theorem team_land_stepping (t : Team) (p : Pending) : (t.land p).stepping = t.stepping := rfl
@[simp] theorem team_land_stepDone (t : Team) (p : Pending) : (t.land p).stepDone = t.stepDone := rfl
@[simp] theorem team_land_pend (t : Team) (p : Pending) : (t.land p).pend = t.pend := rfl
@[simp] theorem team_land_scratch (t : Team) (p : Pending) : (t.land p).scratch = t.scratch := rfl
@[simp] theorem team_land_sb (t : Team) (p : Pending) : (t.land p).sb = t.sb := rfl
@[simp] theorem team_land_bar (t : Team) (p : Pending) : (t.land p).bar = t.bar := rfl
@[simp] theorem team_land_solve (t : Team) (p : Pending) : (t.land p).solve = t.solve := rfl
@[simp] theorem team_land_copy (t : Team) (p : Pending) : (t.land p).copy = t.copy := rfl
@[simp] theorem team_land_hearth (t : Team) (p : Pending) : (t.land p).hearth = t.hearth := rfl
@[simp] theorem team_land_past (t : Team) (p : Pending) : (t.land p).past = t.past := rfl

/-! ### Team.post changes pend and scratch and sb alone -/

@[simp] theorem team_post_seats (t : Team) (p : Pending) : (t.post p).seats = t.seats := rfl
@[simp] theorem team_post_frags (t : Team) (p : Pending) : (t.post p).frags = t.frags := rfl
@[simp] theorem team_post_asf (t : Team) (p : Pending) : (t.post p).asf = t.asf := rfl
@[simp] theorem team_post_ate (t : Team) (p : Pending) : (t.post p).ate = t.ate := rfl
@[simp] theorem team_post_trapres (t : Team) (p : Pending) : (t.post p).trapres = t.trapres := rfl
@[simp] theorem team_post_qprog (t : Team) (p : Pending) : (t.post p).qprog = t.qprog := rfl
@[simp] theorem team_post_dqPos (t : Team) (p : Pending) : (t.post p).dqPos = t.dqPos := rfl
@[simp] theorem team_post_shapes (t : Team) (p : Pending) : (t.post p).shapes = t.shapes := rfl
@[simp] theorem team_post_creg (t : Team) (p : Pending) : (t.post p).creg = t.creg := rfl
@[simp] theorem team_post_inCap (t : Team) (p : Pending) : (t.post p).inCap = t.inCap := rfl
@[simp] theorem team_post_adopt (t : Team) (p : Pending) : (t.post p).adopt = t.adopt := rfl
@[simp] theorem team_post_capDue (t : Team) (p : Pending) : (t.post p).capDue = t.capDue := rfl
@[simp] theorem team_post_saved (t : Team) (p : Pending) : (t.post p).saved = t.saved := rfl
@[simp] theorem team_post_parked (t : Team) (p : Pending) : (t.post p).parked = t.parked := rfl
@[simp] theorem team_post_stop (t : Team) (p : Pending) : (t.post p).stop = t.stop := rfl
@[simp] theorem team_post_stepping (t : Team) (p : Pending) : (t.post p).stepping = t.stepping := rfl
@[simp] theorem team_post_stepDone (t : Team) (p : Pending) : (t.post p).stepDone = t.stepDone := rfl
@[simp] theorem team_post_bar (t : Team) (p : Pending) : (t.post p).bar = t.bar := rfl
@[simp] theorem team_post_solve (t : Team) (p : Pending) : (t.post p).solve = t.solve := rfl
@[simp] theorem team_post_copy (t : Team) (p : Pending) : (t.post p).copy = t.copy := rfl
@[simp] theorem team_post_hearth (t : Team) (p : Pending) : (t.post p).hearth = t.hearth := rfl
@[simp] theorem team_post_past (t : Team) (p : Pending) : (t.post p).past = t.past := rfl

@[simp] theorem seat_wr_lane (x : Seat) (r : Nat) (v : Word) : (x.wr r v).lane = x.lane := rfl
@[simp] theorem seat_wr_st (x : Seat) (r : Nat) (v : Word) : (x.wr r v).st = x.st := rfl
@[simp] theorem seat_wr_helper (x : Seat) (r : Nat) (v : Word) : (x.wr r v).helper = x.helper := rfl
@[simp] theorem seat_wr_preds (x : Seat) (r : Nat) (v : Word) : (x.wr r v).preds = x.preds := rfl
@[simp] theorem seat_wr2_lane (x : Seat) (r : Nat) (v : DWord) : (x.wr2 r v).lane = x.lane := rfl
@[simp] theorem seat_wr2_st (x : Seat) (r : Nat) (v : DWord) : (x.wr2 r v).st = x.st := rfl
@[simp] theorem seat_wr2_helper (x : Seat) (r : Nat) (v : DWord) : (x.wr2 r v).helper = x.helper := rfl
@[simp] theorem seat_wr2_preds (x : Seat) (r : Nat) (v : DWord) : (x.wr2 r v).preds = x.preds := rfl
@[simp] theorem seat_wr4_lane (x : Seat) (r : Nat) (v : BitVec 128) : (x.wr4 r v).lane = x.lane := rfl
@[simp] theorem seat_wr4_st (x : Seat) (r : Nat) (v : BitVec 128) : (x.wr4 r v).st = x.st := rfl
@[simp] theorem seat_wr4_helper (x : Seat) (r : Nat) (v : BitVec 128) : (x.wr4 r v).helper = x.helper := rfl
@[simp] theorem seat_wr4_preds (x : Seat) (r : Nat) (v : BitVec 128) : (x.wr4 r v).preds = x.preds := rfl
@[simp] theorem seat_setPred_lane (x : Seat) (p : PReg) (v : Bool) : (x.setPred p v).lane = x.lane := by
  unfold Seat.setPred
  split <;> rfl
@[simp] theorem seat_setPred_st (x : Seat) (p : PReg) (v : Bool) : (x.setPred p v).st = x.st := by
  unfold Seat.setPred
  split <;> rfl
@[simp] theorem seat_setPred_helper (x : Seat) (p : PReg) (v : Bool) : (x.setPred p v).helper = x.helper := by
  unfold Seat.setPred
  split <;> rfl
@[simp] theorem seat_setPred_vregs (x : Seat) (p : PReg) (v : Bool) : (x.setPred p v).vregs = x.vregs := by
  unfold Seat.setPred
  split <;> rfl
@[simp] theorem seat_wrs_lane (x : Seat) (r : Nat) (ws : List Word) : (x.wrs r ws).lane = x.lane := by
  induction ws generalizing x r with
  | nil => rfl
  | cons w ws ih => exact ih _ _
@[simp] theorem seat_wrs_st (x : Seat) (r : Nat) (ws : List Word) : (x.wrs r ws).st = x.st := by
  induction ws generalizing x r with
  | nil => rfl
  | cons w ws ih => exact ih _ _
@[simp] theorem seat_wrs_helper (x : Seat) (r : Nat) (ws : List Word) : (x.wrs r ws).helper = x.helper := by
  induction ws generalizing x r with
  | nil => rfl
  | cons w ws ih => exact ih _ _
@[simp] theorem seat_wrs_preds (x : Seat) (r : Nat) (ws : List Word) : (x.wrs r ws).preds = x.preds := by
  induction ws generalizing x r with
  | nil => rfl
  | cons w ws ih => exact ih _ _

/-! ### Registers -/

theorem rd_wr_same (x : Seat) (r : Nat) (v : Word) (h : r < x.vregs.length) : (x.wr r v).rd r = v := by
  simp [Seat.rd, Seat.wr, List.getD_eq_getElem?_getD, h]

theorem rd_wr_ne (x : Seat) (r k : Nat) (v : Word) (h : r ≠ k) : (x.wr r v).rd k = x.rd k := by
  simp [Seat.rd, Seat.wr, List.getD_eq_getElem?_getD, List.getElem?_set_ne h]

@[simp] theorem wr_vregs_length (x : Seat) (r : Nat) (v : Word) : (x.wr r v).vregs.length = x.vregs.length := by
  simp [Seat.wr]

/-- p0 reads 1 whatever has been written (R20). -/
@[simp] theorem pred_zero (x : Seat) : x.pred 0 = true := rfl

theorem pred_setPred_same (x : Seat) (p : PReg) (v : Bool) (h : p.val ≠ 0) : (x.setPred p v).pred p = v := by
  have hp := p.isLt
  have hx := x.preds.isLt
  cases v <;> simp [Seat.setPred, Seat.pred, h, hp]

theorem pred_setPred_ne (x : Seat) (p q : PReg) (v : Bool) (h : p ≠ q) : (x.setPred p v).pred q = x.pred q := by
  have hp := p.isLt
  have hq := q.isLt
  have hne : q.val ≠ p.val := fun e => h (Fin.ext e.symm)
  by_cases h0 : p.val = 0
  · simp [Seat.setPred, h0]
  · cases v <;> simp [Seat.setPred, Seat.pred, h0, hq, hne]

/-- s0 reads 0 whatever has been written (R157). -/
@[simp] theorem foyer_rd_zero (f : Foyer) : f.rd 0 = 0 := rfl

theorem foyer_wr_zero (f : Foyer) (v : DWord) : f.wr 0 v = f := rfl

theorem foyer_rd_wr_same (f : Foyer) (r : SReg) (v : DWord) (h : r.val ≠ 0) (hl : r.val < f.s.length) :
    (f.wr r v).rd r = v := by
  simp [Foyer.rd, Foyer.wr, h, List.getD_eq_getElem?_getD, hl]

theorem foyer_rd_wr_ne (f : Foyer) (r k : SReg) (v : DWord) (h : r ≠ k) : (f.wr r v).rd k = f.rd k := by
  have hne : r.val ≠ k.val := fun e => h (Fin.ext e)
  unfold Foyer.rd Foyer.wr
  by_cases h0 : r.val = 0
  · simp [h0]
  · simp [h0, List.getD_eq_getElem?_getD, List.getElem?_set_ne hne]

end Sys2Proof.Laws
end

