-- ==== Sys2Proof/Laws/Issue.lean ====
section
/-!
SUPPORT. Laws/Issue.lean: what the shared operations of issuing come to: the agent that State.cur names, the causes and
interlocks that precede an instruction's own meaning, election, effects on lanes, and checked accesses.
-/
namespace Sys2Proof.Laws
open Sys2Proof.Machine

/-! ### The agent whose instruction runs -/

/-- The team that State.cur names is part of the state. -/
theorem teamEnv_spec {s : State} {e : TEnv} (h : s.teamEnv = some e) :
    s.cur = some e.cur ∧ s.launch e.l.id = some e.l ∧ e.l.block e.b.id = some e.b ∧ e.b.teams[e.ti]? = some e.t
      ∧ e.t.frags[e.fi]? = some e.f := by
  unfold State.teamEnv at h
  cases hc : s.cur with
  | none => simp [hc] at h
  | some c =>
    cases ha : c.agent with
    | foyer l b => simp [hc, ha] at h
    | prologue k => simp [hc, ha] at h
    | team l b t f =>
      cases hl : s.launch l with
      | none => simp [hc, ha, hl] at h
      | some ln =>
        cases hb : ln.block b with
        | none => simp [hc, ha, hl, hb] at h
        | some bk =>
          cases ht : bk.teams[t]? with
          | none => simp [hc, ha, hl, hb, ht] at h
          | some tm =>
            cases hf : tm.frags[f]? with
            | none => simp [hc, ha, hl, hb, ht, hf] at h
            | some fr =>
              simp only [hc, ha, hl, hb, ht, hf, Option.some.injEq] at h
              subst h
              have h1 : ln.id = l := by simpa using List.find?_some hl
              have h2 : bk.id = b := by simpa using List.find?_some hb
              subst h1 h2
              exact ⟨rfl, hl, hb, ht, hf⟩

/-- The Foyer context that State.cur names is part of the state. -/
theorem foyerEnv_spec {s : State} {e : FEnv} (h : s.foyerEnv = some e) :
    s.cur = some e.cur ∧ s.launch e.l.id = some e.l ∧ e.l.block e.b.id = some e.b := by
  unfold State.foyerEnv at h
  cases hc : s.cur with
  | none => simp [hc] at h
  | some c =>
    cases ha : c.agent with
    | team l b t f => simp [hc, ha] at h
    | prologue k => simp [hc, ha] at h
    | foyer l b =>
      cases hl : s.launch l with
      | none => simp [hc, ha, hl] at h
      | some ln =>
        cases hb : ln.block b with
        | none => simp [hc, ha, hl, hb] at h
        | some bk =>
          simp only [hc, ha, hl, hb, Option.some.injEq] at h
          subst h
          have h1 : ln.id = l := by simpa using List.find?_some hl
          have h2 : bk.id = b := by simpa using List.find?_some hb
          subst h1 h2
          exact ⟨rfl, hl, hb⟩

/-- Finding after a replacement that keeps what is searched for. -/
theorem find_upd {α : Type} (p : α → Bool) (f : α → α) (hp : ∀ x, p x = true → p (f x) = true) (xs : List α) :
    (upd p f xs).find? p = (xs.find? p).map f := by
  induction xs with
  | nil => rfl
  | cons x xs ih =>
    simp only [upd, List.map_cons] at ih ⊢
    by_cases h : p x = true
    · simp [h, hp x h]
    · simp only [Bool.not_eq_true] at h
      simp only [h, Bool.false_eq_true, if_false, List.find?_cons]
      exact ih

theorem launch_updLaunch (s : State) (l : Nat) (f : Launch → Launch) (hf : ∀ x, (f x).id = x.id) :
    (s.updLaunch l f).launch l = (s.launch l).map f :=
  find_upd _ _ (fun x h => by simpa [hf x] using h) _

theorem block_upd (x : Launch) (b : Nat) (f : Block → Block) (hf : ∀ y, (f y).id = y.id) :
    ({ x with blocks := upd (fun y => y.id == b) f x.blocks } : Launch).block b = (x.block b).map f :=
  find_upd _ _ (fun y h => by simpa [hf y] using h) _

/-- What a team reads after it has been written back. -/
theorem team_putTeam {s : State} {e : TEnv} (t : Team) (h : s.teamEnv = some e) :
    (s.putTeam e t).team e.l.id e.b.id e.ti = some t := by
  obtain ⟨_, hl, hb, ht, _⟩ := teamEnv_spec h
  let g : Block → Block := fun x => { x with teams := x.teams.modify e.ti fun _ => t }
  have h1 : (s.putTeam e t).launch e.l.id
      = some { e.l with blocks := upd (fun y : Block => y.id == e.b.id) g e.l.blocks } := by
    have h3 := launch_updLaunch s e.l.id (fun x : Launch => { x with blocks := upd (fun y => y.id == e.b.id) g x.blocks })
      (fun _ => rfl)
    rw [hl] at h3
    exact h3
  have h2 := block_upd e.l e.b.id g (fun _ => rfl)
  rw [hb] at h2
  simp [State.team, h1, h2, g, ht]

/-! ### What precedes an instruction's own meaning -/

theorem issueTeam_run {i : Instr} {s : State} {e : TEnv} (k : TEnv → Out) (he : s.teamEnv = some e)
    (hp : preCause s e i = none) (hw : e.waits i = false) : issueTeam i s k = k e := by
  simp [issueTeam, withTeam, he, hp, hw]

theorem issueTeam_trap {i : Instr} {s : State} {e : TEnv} {c : Cause} (k : TEnv → Out) (he : s.teamEnv = some e)
    (hp : preCause s e i = some c) : issueTeam i s k = trap s e c := by
  simp [issueTeam, withTeam, he, hp]

theorem issueTeam_stall {i : Instr} {s : State} {e : TEnv} (k : TEnv → Out) (he : s.teamEnv = some e)
    (hp : preCause s e i = none) (hw : e.waits i = true) : issueTeam i s k = stallBefore s e i := by
  simp [issueTeam, withTeam, he, hp, hw]

theorem issueScalar_foyer {i : Instr} {s : State} {e : FEnv} (kf : FEnv → Out) (kp : PEnv → Out)
    (hn : s.inPrologue = false) (he : s.foyerEnv = some e) (hp : order6 s e.l.fn i = none) (hw : e.waits i = false) :
    issueScalar i s kf kp = kf e := by
  simp [issueScalar, issueFoyer, withFoyer, hn, he, hp, hw]

theorem issueScalar_trap {i : Instr} {s : State} {e : FEnv} {c : Cause} (kf : FEnv → Out) (kp : PEnv → Out)
    (hn : s.inPrologue = false) (he : s.foyerEnv = some e) (hp : order6 s e.l.fn i = some c) :
    issueScalar i s kf kp = trapF s e c := by
  simp [issueScalar, issueFoyer, withFoyer, hn, he, hp]

theorem issueScalar_prologue {i : Instr} {s : State} {e : PEnv} (kf : FEnv → Out) (kp : PEnv → Out)
    (hn : s.inPrologue = true) (he : s.prologueEnv = some e) (hp : permitted i = true)
    (hr : (sregs i).all (fun r => r.val < 16) = true) : issueScalar i s kf kp = kp e := by
  have h : (permitted i && (sregs i).all fun r => decide (r.val < 16)) = true := by simp [hp, hr]
  simp only [issueScalar, issuePrologue, withPrologue, hn, he, if_true, h]

/-- A form that a prologue may not use, or a register above s15, ends the run with outcome 3 (R374). -/
theorem issueScalar_refused {i : Instr} {s : State} {e : PEnv} (kf : FEnv → Out) (kp : PEnv → Out)
    (hn : s.inPrologue = true) (he : s.prologueEnv = some e)
    (hp : (permitted i && (sregs i).all fun r => decide (r.val < 16)) = false) :
    issueScalar i s kf kp = .next (endRun s e.p 3 0) := by
  simp only [issueScalar, issuePrologue, withPrologue, hn, he, if_true, hp, Bool.false_eq_true, if_false]

theorem issueKernel_run {i : Instr} {s : State} {e : FEnv} (kf : FEnv → Out)
    (hn : s.inPrologue = false) (he : s.foyerEnv = some e) (hp : order6 s e.l.fn i = none) (hw : e.waits i = false) :
    issueKernel i s kf = kf e := issueScalar_foyer _ _ hn he hp hw

/-! ### Election (R142) -/

theorem elect_some {s : State} {e : TEnv} {g : Guard} {i : Nat} (k : Nat → Out) (h : (e.workers g).head? = some i) :
    elect s e g k = k i := by
  cases hw : e.workers g with
  | nil => simp [hw] at h
  | cons j js =>
    simp only [hw, List.head?_cons, Option.some.injEq] at h
    simp [elect, hw, h]

theorem elect_none {s : State} {e : TEnv} {g : Guard} (k : Nat → Out) (h : e.enabled g = []) :
    elect s e g k = retire s e e.t := by
  simp [elect, TEnv.workers, h]

theorem elect_helpers {s : State} {e : TEnv} {g : Guard} (k : Nat → Out) (h : e.workers g = []) (h2 : e.enabled g ≠ []) :
    elect s e g k = trap s e 0x03#8 := by
  simp [elect, h, h2]

/-! ### Effects on lanes -/

theorem mem_active {e : TEnv} {k : Nat} : k ∈ e.active ↔ k < e.t.seats.length ∧ e.f.mask.getLsbD k = true := by
  simp [TEnv.active]

theorem mem_enabled {e : TEnv} {g : Guard} {k : Nat} :
    k ∈ e.enabled g ↔ k < e.t.seats.length ∧ e.f.mask.getLsbD k = true ∧ (e.t.seat k).guard g = true := by
  simp [TEnv.enabled, mem_active, and_assoc]

theorem enabled_lt {e : TEnv} {g : Guard} {k : Nat} (h : k ∈ e.enabled g) : k < e.t.seats.length := (mem_enabled.mp h).1

theorem workers_sub {e : TEnv} {g : Guard} {k : Nat} (h : k ∈ e.workers g) : k ∈ e.enabled g :=
  (List.mem_filter.mp h).1

/-- A seat after an effect on the seats that a test picks. -/
theorem mapSeats_seat (t : Team) (p : Nat → Bool) (f : Seat → Seat) (k : Nat) (hk : k < t.seats.length) :
    (t.mapSeats p f).seat k = if p k then f (t.seat k) else t.seat k := by
  simp [Team.seat, Team.mapSeats, List.getD_eq_getElem?_getD, hk]

theorem mapSeats_length (t : Team) (p : Nat → Bool) (f : Seat → Seat) :
    (t.mapSeats p f).seats.length = t.seats.length := by simp [Team.mapSeats]

/-- A seat of a number that the team does not have. -/
theorem seat_beyond (t : Team) (k : Nat) (hk : t.seats.length ≤ k) : t.seat k = ⟨0, .absent, false, 0, []⟩ := by
  simp [Team.seat, List.getD_eq_getElem?_getD, hk]

/-- A seat after an effect on the lanes that a guard enables. -/
theorem each_seat (e : TEnv) (g : Guard) (f : Seat → Seat) (k : Nat) :
    (e.each g f).seat k = if k ∈ e.enabled g then f (e.t.seat k) else e.t.seat k := by
  by_cases hk : k < e.t.seats.length
  · simp [TEnv.each, mapSeats_seat _ _ _ _ hk]
  · have hn : k ∉ e.enabled g := fun h => hk (enabled_lt h)
    rw [if_neg hn, seat_beyond _ _ (Nat.le_of_not_lt hk), seat_beyond]
    simpa [TEnv.each, Team.mapSeats] using hk

theorem eachIx_seat (e : TEnv) (g : Guard) (f : Nat → Seat → Seat) (k : Nat) :
    (e.eachIx g f).seat k = if k ∈ e.enabled g then f k (e.t.seat k) else e.t.seat k := by
  by_cases hk : k < e.t.seats.length
  · simp only [TEnv.eachIx, Team.seat, List.getD_eq_getElem?_getD, List.getElem?_mapIdx]
    simp [hk]
  · have hn : k ∉ e.enabled g := fun h => hk (enabled_lt h)
    rw [if_neg hn, seat_beyond _ _ (Nat.le_of_not_lt hk), seat_beyond]
    simpa [TEnv.eachIx] using hk

/-- An instruction of the lanes that is issued writes the enabled lanes and goes on. -/
theorem laneOp_run {i : Instr} {s : State} {e : TEnv} (g : Guard) (f : Seat → Seat) (fl : Seat → BitVec 7)
    (he : s.teamEnv = some e) (hp : preCause s e i = none) (hw : e.waits i = false) :
    laneOp i s g f fl = .next (s.putTeam e (e.goto ((e.each g f).raise (raised e g fl)) e.cur.fall)) :=
  issueTeam_run _ he hp hw

/-- A flag raised by an effect: one that some enabled lane that is no helper raises (R40). -/
theorem raised_bit (e : TEnv) (g : Guard) (f : Seat → BitVec 7) (b : Nat) :
    (raised e g f).getLsbD b = (e.workers g).any fun i => (f (e.t.seat i)).getLsbD b := by
  have h : ∀ (xs : List Nat) (a : BitVec 7), (xs.foldl (fun a i => a ||| f (e.t.seat i)) a).getLsbD b
      = (a.getLsbD b || xs.any fun i => (f (e.t.seat i)).getLsbD b) := by
    intro xs
    induction xs with
    | nil => simp
    | cons x xs ih => intro a; simp [ih, Bool.or_assoc]
  simp [raised, h]

theorem raised_none (e : TEnv) (g : Guard) : raised e g noFlag = 0 := by
  apply BitVec.eq_of_getLsbD_eq
  intro i _
  simp [raised_bit, noFlag]

theorem raise_zero (t : Team) : t.raise 0 = t := by
  simp [Team.raise]

/-! ### Checked accesses -/

/-- An access whose every lane passes its checks performs. -/
theorem teamAccess_run {s s' : State} {e : TEnv} {lv : Level} {size : Nat} {kind : AKind} {mk : MKind}
    {lanes : List (Nat × DWord)} {own : List Acc → Option Cause} {as : List Acc} (k : State → List Acc → Out)
    (hc : checkLanes s e lv size kind lanes = (as, [])) (ho : own as = none)
    (hb : ∀ a ∈ as, s.conflictIn e.agent a size mk = none)
    (ht : commitAll s e.b.die e.l.asid kind as = (s', true)) :
    teamAccess s e lv size kind mk lanes own k = k (markAll s' e.agent mk size as) as := by
  have hn : (as.filterMap fun a => (s.conflictIn e.agent a size mk).map fun c => (a.seat, c)) = [] := by
    rw [List.filterMap_eq_nil_iff]
    intro a ha
    simp [hb a ha]
  simp [teamAccess, hc, ho, hn, ht]

/-- An access on a page that is not checked touches no granule of one. -/
theorem granules_unchecked {a : Acc} (n : Nat) (h : a.checked = false) : a.granules n = [] := by
  simp [Acc.granules, h]

theorem conflictIn_unchecked {s : State} {ag : AgentId} {a : Acc} {n : Nat} {k : MKind} (h : a.checked = false) :
    s.conflictIn ag a n k = none := by
  simp [State.conflictIn, granules_unchecked n h]

/-- Accesses on pages that are not checked leave no mark. -/
theorem markAll_unchecked (s : State) (a : AgentId) (k : MKind) (n : Nat) (as : List Acc) (h : ∀ x ∈ as, x.checked = false) :
    markAll s a k n as = s := by
  induction as generalizing s with
  | nil => rfl
  | cons x xs ih =>
    have hx := granules_unchecked n (h x (List.mem_cons_self ..))
    have hm : s.markAcc a n k x = s := by simp [State.markAcc, hx]
    simp only [markAll, List.foldl_cons, hm]
    exact ih s fun y hy => h y (List.mem_cons_of_mem _ hy)

end Sys2Proof.Laws
end

