-- ==== Sys2Proof/Laws/Memory.lean ====
section
/-!
SUPPORT. Laws/Memory.lean: memories in canonical form: what a byte reads after a write, that every operation over a
memory keeps the form, and that equal reads make equal memories.
-/
namespace Sys2Proof.Laws
open Sys2Proof.Machine

/-! ### The canonical form -/

/-- Every listed address lies above a. -/
def Above (a : Nat) (m : Memory) : Prop := ∀ c ∈ m, a < c.1

theorem wf_cons {c : Host.Cell} {m : Memory} :
    Memory.wf (c :: m) = true ↔ c.2 ≠ Memory.unlisted ∧ Above c.1 m ∧ Memory.wf m = true := by
  induction m generalizing c with
  | nil => simp [Memory.wf, Above]
  | cons d m ih =>
    simp only [Memory.wf, Bool.and_eq_true, bne_iff_ne, decide_eq_true_eq]
    constructor
    · rintro ⟨⟨h1, h2⟩, h3⟩
      refine ⟨h1, ?_, h3⟩
      intro x hx
      rcases List.mem_cons.mp hx with rfl | hx
      · exact h2
      · exact Nat.lt_trans h2 ((ih.mp h3).2.1 x hx)
    · rintro ⟨h1, h2, h3⟩
      exact ⟨⟨h1, h2 d (List.mem_cons_self ..)⟩, h3⟩

theorem wf_nil : Memory.wf [] = true := rfl

theorem get_above {a : Nat} {m : Memory} (h : Above a m) : m.get a = Memory.unlisted := by
  induction m with
  | nil => rfl
  | cons c m ih =>
    have hc : c.1 ≠ a := Nat.ne_of_gt (h c (List.mem_cons_self ..))
    simp only [Memory.get, hc, if_false]
    exact ih fun x hx => h x (List.mem_cons_of_mem _ hx)

theorem set_mem {m : Memory} {a : Nat} {v : Byte} {c : Host.Cell} (h : c ∈ m.set a v) : c ∈ m ∨ c.1 = a := by
  induction m with
  | nil =>
    unfold Memory.set at h
    split at h
    · cases h
    · simp at h; exact .inr (by rw [h])
  | cons d m ih =>
    unfold Memory.set at h
    repeat' split at h
    · exact .inl h
    · rcases List.mem_cons.mp h with h | h
      · exact .inr (by rw [h])
      · exact .inl h
    · exact .inl (List.mem_cons_of_mem _ h)
    · rcases List.mem_cons.mp h with h | h
      · exact .inr (by rw [h])
      · exact .inl (List.mem_cons_of_mem _ h)
    · rcases List.mem_cons.mp h with h | h
      · exact .inl (h ▸ List.mem_cons_self ..)
      · rcases ih h with h | h
        · exact .inl (List.mem_cons_of_mem _ h)
        · exact .inr h

/-- Writing a byte keeps the canonical form. -/
theorem set_wf {m : Memory} (a : Nat) (v : Byte) (h : m.wf = true) : (m.set a v).wf = true := by
  induction m with
  | nil =>
    unfold Memory.set
    split
    · rfl
    · rename_i hv; simpa [Memory.wf] using hv
  | cons c m ih =>
    obtain ⟨h1, h2, h3⟩ := wf_cons.mp h
    unfold Memory.set
    split
    · rename_i ha
      split
      · exact h
      · rename_i hv
        refine wf_cons.mpr ⟨hv, ?_, h⟩
        intro x hx
        rcases List.mem_cons.mp hx with rfl | hx
        · exact ha
        · exact Nat.lt_trans ha (h2 x hx)
    · split
      · rename_i _ ha
        split
        · exact h3
        · rename_i hv
          exact wf_cons.mpr ⟨hv, fun x hx => ha ▸ h2 x hx, h3⟩
      · rename_i ha hb
        refine wf_cons.mpr ⟨h1, ?_, ih h3⟩
        intro x hx
        rcases set_mem hx with hx | hx
        · exact h2 x hx
        · omega

/-- Writing bytes keeps the canonical form. -/
theorem put_wf {m : Memory} (a : Nat) (bs : List Byte) (h : m.wf = true) : (m.put a bs).wf = true := by
  induction bs generalizing m a with
  | nil => exact h
  | cons b bs ih => exact ih _ (set_wf a b h)

/-- A fold of writes keeps the canonical form. -/
theorem foldl_wf {α : Type} (f : Memory → α → Memory) (hf : ∀ m x, m.wf = true → (f m x).wf = true) (xs : List α)
    {m : Memory} (h : m.wf = true) : (xs.foldl f m).wf = true := by
  induction xs generalizing m with
  | nil => exact h
  | cons x xs ih => exact ih (hf m x h)

theorem flush_wf (l : Line) {m : Memory} (h : m.wf = true) : (l.flush m).wf = true := by
  refine foldl_wf _ (fun m i hm => ?_) _ h
  split
  · exact set_wf _ _ hm
  · exact hm

/-! ### Reads after writes -/

theorem get_set_same {m : Memory} (a : Nat) (v : Byte) (h : m.wf = true) : (m.set a v).get a = v := by
  induction m with
  | nil =>
    unfold Memory.set
    split
    · rename_i hv; simp [Memory.get, hv]
    · simp [Memory.get]
  | cons c m ih =>
    obtain ⟨h1, h2, h3⟩ := wf_cons.mp h
    unfold Memory.set
    split
    · rename_i ha
      split
      · rename_i hv
        rw [hv]
        refine get_above fun x hx => ?_
        rcases List.mem_cons.mp hx with rfl | hx
        · exact ha
        · exact Nat.lt_trans ha (h2 x hx)
      · simp [Memory.get]
    · split
      · rename_i _ ha
        split
        · rename_i hv
          rw [hv]
          exact get_above fun x hx => ha ▸ h2 x hx
        · simp [Memory.get]
      · rename_i _ ha
        have hne : c.1 ≠ a := fun e => ha e.symm
        simp only [Memory.get, hne, if_false]
        exact ih h3

theorem get_set_ne (m : Memory) {a b : Nat} (v : Byte) (h : a ≠ b) : (m.set a v).get b = m.get b := by
  induction m with
  | nil =>
    unfold Memory.set
    split
    · rfl
    · simp [Memory.get, h]
  | cons c m ih =>
    unfold Memory.set
    split
    · split
      · rfl
      · simp [Memory.get, h]
    · split
      · rename_i _ ha
        have hne : c.1 ≠ b := fun e => h (ha.trans e)
        split
        · simp [Memory.get, hne]
        · simp [Memory.get, h, hne]
      · simp only [Memory.get, ih]

/-- A byte outside the bytes that a write covers reads as before. -/
theorem get_put_outside (m : Memory) (a b : Nat) (bs : List Byte) (h : b < a ∨ a + bs.length ≤ b) :
    (m.put a bs).get b = m.get b := by
  induction bs generalizing m a with
  | nil => rfl
  | cons x bs ih =>
    simp only [List.length_cons] at h
    have h1 : b < a + 1 ∨ a + 1 + bs.length ≤ b := by omega
    have h2 : a ≠ b := by omega
    exact (ih (m.set a x) (a + 1) h1).trans (get_set_ne m x h2)

/-- A byte that a write covers reads as written. -/
theorem get_put_inside {m : Memory} (a k : Nat) (bs : List Byte) (hm : m.wf = true) (h : k < bs.length) :
    (m.put a bs).get (a + k) = bs[k] := by
  induction bs generalizing m a k with
  | nil => exact absurd h (Nat.not_lt_zero k)
  | cons x bs ih =>
    cases k with
    | zero =>
      show ((m.set a x).put (a + 1) bs).get a = x
      rw [get_put_outside _ _ _ _ (.inl (Nat.lt_succ_self a)), get_set_same a x hm]
    | succ k =>
      have hk : k < bs.length := Nat.lt_of_succ_lt_succ h
      have := ih (m := m.set a x) (a + 1) k (set_wf a x hm) hk
      simpa [Memory.put, Nat.add_assoc, Nat.add_comm 1 k] using this

@[simp] theorem bytes_length (m : Memory) (a n : Nat) : (m.bytes a n).length = n := by
  induction n generalizing a with
  | zero => rfl
  | succ n ih => simp [Memory.bytes, ih]

theorem bytes_getElem (m : Memory) (a n k : Nat) (h : k < (m.bytes a n).length) : (m.bytes a n)[k] = m.get (a + k) := by
  induction n generalizing a k with
  | zero => exact absurd h (Nat.not_lt_zero k)
  | succ n ih =>
    cases k with
    | zero => rfl
    | succ k =>
      have hk : k < (m.bytes (a + 1) n).length := by simpa using h
      simpa [Memory.bytes, Nat.add_assoc, Nat.add_comm 1 k] using ih (a + 1) k hk

/-- Bytes read where they were written are the bytes written. -/
theorem bytes_put_same {m : Memory} (a : Nat) (bs : List Byte) (h : m.wf = true) :
    (m.put a bs).bytes a bs.length = bs := by
  refine List.ext_getElem (bytes_length _ _ _) fun k h1 h2 => ?_
  rw [bytes_getElem, get_put_inside a k bs h h2]

/-- Bytes read apart from where bytes were written are as before. -/
theorem bytes_put_outside (m : Memory) (a b n : Nat) (bs : List Byte) (h : b + n ≤ a ∨ a + bs.length ≤ b) :
    (m.put a bs).bytes b n = m.bytes b n := by
  refine List.ext_getElem (by simp) fun k h1 h2 => ?_
  have hk : k < n := by simpa using h2
  rw [bytes_getElem, bytes_getElem, get_put_outside]
  omega

/-! ### The form is canonical -/

theorem get_head {c : Host.Cell} {m : Memory} : Memory.get (c :: m) c.1 = c.2 := by simp [Memory.get]

/-- Memories in canonical form that read alike are equal. -/
theorem mem_ext {m n : Memory} (hm : m.wf = true) (hn : n.wf = true) (h : ∀ a, m.get a = n.get a) : m = n := by
  induction m generalizing n with
  | nil =>
    cases n with
    | nil => rfl
    | cons d n =>
      exact absurd (((h d.1).trans get_head).symm) (wf_cons.mp hn).1
  | cons c m ih =>
    obtain ⟨h1, h2, h3⟩ := wf_cons.mp hm
    cases n with
    | nil => exact absurd (get_head.symm.trans (h c.1)) h1
    | cons d n =>
      obtain ⟨g1, g2, g3⟩ := wf_cons.mp hn
      have hcd : c.1 = d.1 := by
        rcases Nat.lt_trichotomy c.1 d.1 with hlt | heq | hgt
        · refine absurd ((get_head.symm.trans (h c.1)).trans (get_above fun x hx => ?_)) h1
          rcases List.mem_cons.mp hx with rfl | hx
          · exact hlt
          · exact Nat.lt_trans hlt (g2 x hx)
        · exact heq
        · refine absurd ((get_head.symm.trans (h d.1).symm).trans (get_above fun x hx => ?_)) g1
          rcases List.mem_cons.mp hx with rfl | hx
          · exact hgt
          · exact Nat.lt_trans hgt (h2 x hx)
      have hv : c.2 = d.2 := by
        have := h c.1
        rw [get_head, hcd, get_head] at this
        exact this
      have hc : c = d := Prod.ext hcd hv
      subst hc
      refine congrArg _ (ih h3 g3 fun a => ?_)
      by_cases ha : c.1 = a
      · rw [get_above (ha ▸ h2), get_above (ha ▸ g2)]
      · simpa [Memory.get, ha] using h a

/-! ### Little-endian numbers (R9) -/

@[simp] theorem leBytes_length (n v : Nat) : (leBytes n v).length = n := by
  induction n generalizing v with
  | zero => rfl
  | succ n ih => simp [leBytes, ih]

theorem leNat_leBytes (n v : Nat) : leNat (leBytes n v) = v % 256 ^ n := by
  induction n generalizing v with
  | zero => simp [leBytes, leNat, Nat.mod_one]
  | succ n ih =>
    have h : v % 256 ^ (n + 1) = v % 256 + 256 * (v / 256 % 256 ^ n) := by
      rw [Nat.pow_succ, Nat.mul_comm (256 ^ n) 256, Nat.mod_mul]
    rw [h, leBytes, leNat, ih, BitVec.toNat_ofNat]

theorem leNat_lt (bs : List Byte) : leNat bs < 256 ^ bs.length := by
  induction bs with
  | nil => decide
  | cons b bs ih =>
    have := b.isLt
    simp only [leNat, List.length_cons, Nat.pow_succ]
    omega

/-- A number reads back where it was stored. -/
theorem num_put {m : Memory} (a n v : Nat) (h : m.wf = true) : (m.put a (leBytes n v)).num a n = v % 256 ^ n := by
  have := bytes_put_same a (leBytes n v) h
  rw [leBytes_length] at this
  rw [Memory.num, this, leNat_leBytes]

end Sys2Proof.Laws
end

