-- ==== Sys2Proof/Tests/Slice0.lean ====
section
/-!
SUPPORT. Tests/Slice0.lean: words written out from the encodings of the spec, ill-formed instructions, states that meet the
hypotheses of the claims, and results taken from the spec's worked examples.
-/
namespace Sys2Proof.Tests
set_option Elab.async false
open Sys2Proof Sys2Proof.Machine Sys2Proof.Claims

/-! ### Small states -/

/-- A launch of the image of Place, its one team at the entry point with the word that issues, changed by f, g and h. -/
def teamWith (f : Team → Team := id) (g : Block → Block := id) (h : State → State := id) (w : DWord := 0) : State :=
  let s := Place.inLaunch State.reset false 0
  h { s.updBlock 1 0 fun b => g { b with teams := b.teams.map f } with
      cur := some ⟨.team 1 0 0 0, Place.image.tent, w, 0, none, Place.image.tent + 8⟩ }

/-- The same at the Foyer's entry point, the Foyer context changed by f. -/
def foyerWith (f : Foyer → Foyer := id) (g : Block → Block := id) (h : State → State := id) : State :=
  let s := Place.inLaunch State.reset true 0
  h { s.updBlock 1 0 fun b => g { b with foyer := f b.foyer } with
      cur := some ⟨.foyer 1 0, Place.image.fent, 0, 0, none, Place.image.fent + 8⟩ }

/-- A run of a prologue at its first word, changed by f. -/
def runWith (f : Prologue → Prologue := id) (h : State → State := id) : State :=
  let s := Place.inPrologue State.reset 0
  h { s with
      prologues := s.prologues.map f
      cur := some ⟨.prologue State.reset.nextKey, BitVec.ofNat 64 Place.codeBase, 0, 0, none,
                   BitVec.ofNat 64 Place.codeBase + 8⟩ }

/-- A change of the launch. -/
def withLaunch (f : Launch → Launch) (s : State) : State := { s with launches := s.launches.map f }

/-- A change of the physical function. -/
def withFunc (f : Func → Func) (s : State) : State := s.updFunc 0 f

/-- A lane with registers set: register numbers and values. -/
def lane (rs : List (Nat × Word)) (k : Nat := 0) (preds : BitVec 16 := 0) (helper : Bool := false) : Seat :=
  rs.foldl (fun y p => y.wr p.1 p.2) ⟨k, .active, helper, preds, List.replicate 256 0⟩

/-- A team of these seats in one fragment. -/
def ofSeats (ys : List Seat) (t : Team) : Team :=
  { t with seats := ys, frags := [Frag.at Place.image.tent (maskOf (List.range ys.length))] }

/-- A team of one lane with these registers. -/
def regs (rs : List (Nat × Word)) : Team → Team := ofSeats [lane rs]

/-- The team of the small launch. -/
def only (s : State) : Team := (s.team 1 0 0).getD Place.team

/-- The Foyer context of the small launch. -/
def onlyFoyer (s : State) : Foyer := (((s.launch 1).bind fun l => l.block 0).map Block.foyer).getD Place.foyer

/-- The state that exec answers. -/
def run (i : Instr) (s : State) : Option State :=
  match exec i s with
  | .next t => some t
  | _ => none

/-- What an observation makes of the state that exec answers. -/
def after_ {α : Type} (i : Instr) (s : State) (f : State → α) : Option α := (run i s).map f

/-! ### Hypotheses of the claims on these states -/

/-- The instruction issues in the team of a state, and the team meets p. -/
theorem issues_of {i : Instr} {s : State} {p : TEnv → Prop} [DecidablePred p]
    (h : (match s.teamEnv with
      | some e => decide (preCause s e i = none ∧ e.waits i = false ∧ p e)
      | none => false) = true) : ∃ e, Issues i s e ∧ p e := by
  cases he : s.teamEnv with
  | none => simp [he] at h
  | some e => exact ⟨e, ⟨he, by simp_all, by simp_all⟩, by simp_all⟩

/-- The same for several instructions. -/
theorem all_issue {is : List Instr} {s : State}
    (h : (match s.teamEnv with
      | some e => is.all fun i => decide (preCause s e i = none ∧ e.waits i = false)
      | none => false) = true) : ∀ i ∈ is, ∃ e, Issues i s e := by
  cases he : s.teamEnv with
  | none => simp [he] at h
  | some e =>
    simp only [he, List.all_eq_true, decide_eq_true_eq] at h
    exact fun i hi => ⟨e, he, (h i hi).1, (h i hi).2⟩

/-- The same, where the team meets p. -/
theorem all_issues_of {is : List Instr} {s : State} {p : TEnv → Prop} [DecidablePred p]
    (h : (match s.teamEnv with
      | some e => is.all fun i => decide (preCause s e i = none ∧ e.waits i = false ∧ p e)
      | none => false) = true) : ∀ i ∈ is, ∃ e, Issues i s e ∧ p e := by
  cases he : s.teamEnv with
  | none => simp [he] at h
  | some e =>
    simp only [he, List.all_eq_true, decide_eq_true_eq] at h
    exact fun i hi => ⟨e, ⟨he, (h i hi).1, (h i hi).2.1⟩, (h i hi).2.2⟩

/-- The instruction issues in the Foyer context of a state. -/
theorem fissues_of {i : Instr} {s : State} {p : FEnv → Prop} [DecidablePred p]
    (h : (match s.foyerEnv with
      | some e => decide (s.inPrologue = false ∧ order6 s e.l.fn i = none ∧ e.waits i = false ∧ p e)
      | none => false) = true) : ∃ e, FIssues i s e ∧ p e := by
  cases he : s.foyerEnv with
  | none => simp [he] at h
  | some e => exact ⟨e, ⟨by simp_all, he, by simp_all, by simp_all⟩, by simp_all⟩

theorem all_fissue {is : List Instr} {s : State}
    (h : (match s.foyerEnv with
      | some e => is.all fun i => decide (s.inPrologue = false ∧ order6 s e.l.fn i = none ∧ e.waits i = false)
      | none => false) = true) : ∀ i ∈ is, ∃ e, FIssues i s e := by
  cases he : s.foyerEnv with
  | none => simp [he] at h
  | some e =>
    simp only [he, List.all_eq_true, decide_eq_true_eq] at h
    exact fun i hi => ⟨e, (h i hi).1, he, (h i hi).2.1, (h i hi).2.2⟩

/-- The instruction issues in the prologue run of a state. -/
theorem pissues_of {i : Instr} {s : State} {p : PEnv → Prop} [DecidablePred p]
    (h : (match s.prologueEnv with
      | some e => decide (s.inPrologue = true ∧ permitted i = true ∧ (∀ r ∈ sregs i, r.val < 16) ∧ p e)
      | none => false) = true) : ∃ e, PIssues i s e ∧ p e := by
  cases he : s.prologueEnv with
  | none => simp [he] at h
  | some e => exact ⟨e, ⟨by simp_all, he, by simp_all, by simp_all⟩, by simp_all⟩

theorem all_pissue {is : List Instr} {s : State}
    (h : (match s.prologueEnv with
      | some _ => is.all fun i => decide (s.inPrologue = true ∧ permitted i = true ∧ ∀ r ∈ sregs i, r.val < 16)
      | none => false) = true) : ∀ i ∈ is, ∃ e, PIssues i s e := by
  cases he : s.prologueEnv with
  | none => simp [he] at h
  | some e =>
    simp only [he, List.all_eq_true, decide_eq_true_eq] at h
    exact fun i hi => ⟨e, (h i hi).1, he, (h i hi).2.1, (h i hi).2.2⟩

/-- The accesses of an instruction that issues all perform, and p holds of them and of the state that they leave. -/
theorem granted_of {i : Instr} {s : State} {lv : Level} {n : Nat} {kind : AKind} {mk : MKind} {lanes : TEnv → List (Nat × DWord)}
    {p : TEnv → List Acc → State → Prop} [∀ e as s1, Decidable (p e as s1)]
    (h : (match s.teamEnv with
      | some e =>
        let r := checkLanes s e lv n kind (lanes e)
        let c := commitAll s e.b.die e.l.asid kind r.1
        decide (preCause s e i = none ∧ e.waits i = false ∧ r.2 = [] ∧ c.2 = true
          ∧ (∀ a ∈ r.1, s.conflictIn e.agent a n mk = none) ∧ p e r.1 (markAll c.1 e.agent mk n r.1))
      | none => false) = true) :
    ∃ e as s1, Issues i s e ∧ Granted s e lv n kind mk (lanes e) as s1 ∧ p e as s1 := by
  cases he : s.teamEnv with
  | none => simp [he] at h
  | some e =>
    simp only [he, decide_eq_true_eq] at h
    obtain ⟨h1, h2, h3, h4, h5, h6⟩ := h
    exact ⟨e, _, _, ⟨he, h1, h2⟩, ⟨Prod.ext rfl h3, h5, _, Prod.ext rfl h4, rfl⟩, h6⟩

/-- The same for the one access of a Foyer context. -/
theorem fgranted_of {i : Instr} {s : State} {va : FEnv → DWord} {n : Nat} {kind : AKind} {mk : MKind} {p : FEnv → Tr → State → Prop}
    [∀ e t s1, Decidable (p e t s1)]
    (h : (match s.foyerEnv with
      | some e => match s.check e.b.die e.l.asid (va e) n kind with
        | .ok t => match s.commitTr e.b.die e.l.asid (va e) kind t with
          | some s0 => decide (s.inPrologue = false ∧ order6 s e.l.fn i = none ∧ e.waits i = false
              ∧ s.conflictIn e.agent ⟨0, va e, t.pa, some t⟩ n mk = none
              ∧ p e t (s0.markAcc e.agent n mk ⟨0, va e, t.pa, some t⟩))
          | none => false
        | .error _ => false
      | none => false) = true) :
    ∃ e t s1, FIssues i s e ∧ FGranted s e (va e) n kind mk t s1 ∧ p e t s1 := by
  cases he : s.foyerEnv with
  | none => simp [he] at h
  | some e =>
    cases hc : s.check e.b.die e.l.asid (va e) n kind with
    | error x => simp [he, hc] at h
    | ok t =>
      cases ht : s.commitTr e.b.die e.l.asid (va e) kind t with
      | none => simp [he, hc, ht] at h
      | some s0 =>
        simp only [he, hc, ht, decide_eq_true_eq] at h
        obtain ⟨h1, h2, h3, h4, h5⟩ := h
        exact ⟨e, t, _, ⟨h1, he, h2, h3⟩, ⟨hc, h4, s0, ht, rfl⟩, h5⟩

/-- The same for the one access of a prologue run. -/
theorem pgranted_of {i : Instr} {s : State} {va : PEnv → DWord} {n : Nat} {kind : AKind} {mk : MKind} {p : PEnv → Tr → State → Prop}
    [∀ e t s1, Decidable (p e t s1)]
    (h : (match s.prologueEnv with
      | some e => match s.check none e.q.asid (va e) n kind with
        | .ok t => match s.commitTr none e.q.asid (va e) kind t with
          | some s0 => decide (s.inPrologue = true ∧ permitted i = true ∧ (∀ r ∈ sregs i, r.val < 16)
              ∧ s.conflictIn (.prologue e.p.key) ⟨0, va e, t.pa, some t⟩ n mk = none
              ∧ p e t ((s0.markAcc (.prologue e.p.key) n mk ⟨0, va e, t.pa, some t⟩).purgeFor t))
          | none => false
        | .error _ => false
      | none => false) = true) :
    ∃ e t s1, PIssues i s e ∧ PGranted s e (va e) n kind mk t s1 ∧ p e t s1 := by
  cases he : s.prologueEnv with
  | none => simp [he] at h
  | some e =>
    cases hc : s.check none e.q.asid (va e) n kind with
    | error x => simp [he, hc] at h
    | ok t =>
      cases ht : s.commitTr none e.q.asid (va e) kind t with
      | none => simp [he, hc, ht] at h
      | some s0 =>
        simp only [he, hc, ht, decide_eq_true_eq] at h
        obtain ⟨h1, h2, h3, h4, h5⟩ := h
        exact ⟨e, t, _, ⟨h1, he, h2, h3⟩, ⟨hc, h4, s0, ht, rfl⟩, h5⟩

/-- The instruction issues, and p holds of the environment because q does. -/
theorem issues_ex {i : Instr} {s : State} {p : TEnv → Prop} (q : TEnv → Bool) (hq : ∀ e, q e = true → p e)
    (h : (match s.teamEnv with
      | some e => decide (preCause s e i = none ∧ e.waits i = false ∧ q e = true)
      | none => false) = true) : ∃ e, Issues i s e ∧ p e :=
  (issues_of (p := fun e => q e = true) h).imp fun e h => ⟨h.1, hq e h.2⟩

theorem fissues_ex {i : Instr} {s : State} {p : FEnv → Prop} (q : FEnv → Bool) (hq : ∀ e, q e = true → p e)
    (h : (match s.foyerEnv with
      | some e => decide (s.inPrologue = false ∧ order6 s e.l.fn i = none ∧ e.waits i = false ∧ q e = true)
      | none => false) = true) : ∃ e, FIssues i s e ∧ p e :=
  (fissues_of (p := fun e => q e = true) h).imp fun e h => ⟨h.1, hq e h.2⟩

theorem pissues_ex {i : Instr} {s : State} {p : PEnv → Prop} (q : PEnv → Bool) (hq : ∀ e, q e = true → p e)
    (h : (match s.prologueEnv with
      | some e => decide (s.inPrologue = true ∧ permitted i = true ∧ (∀ r ∈ sregs i, r.val < 16) ∧ q e = true)
      | none => false) = true) : ∃ e, PIssues i s e ∧ p e :=
  (pissues_of (p := fun e => q e = true) h).imp fun e h => ⟨h.1, hq e h.2⟩

/-- Work of an engine or of the Porch succeeds, and p holds of what it gives; or it fails. -/
def Ends {α : Type} (r : Eng α) (q : State → α → Bool) : Bool :=
  match r with
  | .ok s v => q s v
  | _ => false
theorem ok_of {α : Type} {r : Eng α} {q : State → α → Bool} {p : State → α → Prop} (hq : ∀ s v, q s v = true → p s v)
    (h : Ends r q = true) : ∃ s v, r = .ok s v ∧ p s v := by
  cases r with
  | ok s v => exact ⟨s, v, rfl, hq s v h⟩
  | wait => simp [Ends] at h
  | fail s w => simp [Ends] at h
def Fails {α : Type} (r : Eng α) (q : Susp → Bool) : Bool :=
  match r with
  | .fail _ w => q w
  | _ => false
theorem fail_of {α : Type} {r : Eng α} {q : Susp → Bool} (h : Fails r q = true) : ∃ s w, r = .fail s w ∧ q w = true := by
  cases r with
  | ok s v => simp [Fails] at h
  | wait => simp [Fails] at h
  | fail s w => exact ⟨s, w, rfl, h⟩

/-- A kernel image of one team of one lane and one code region of one word (R367), and a LAUNCH packet of one block of it. -/
def kernel : List Byte :=
  leBytes 4 0x4B4E4C41 ++ leBytes 2 1 ++ leBytes 2 16 ++ leBytes 2 1 ++ leBytes 1 1 ++ leBytes 1 0 ++ leBytes 20 0 ++ leBytes 4 1
    ++ leBytes 4 0 ++ leBytes 8 128 ++ leBytes 8 256 ++ leBytes 8 256 ++ leBytes 64 0
    ++ leBytes 8 256 ++ leBytes 8 8 ++ leBytes 16 0
def launchOf (kaddr : Nat) : List Byte := leBytes 8 1 ++ leBytes 8 kaddr ++ leBytes 8 0 ++ leBytes 8 1 ++ leBytes 32 0

/-- A container of the codes 0, 1, -1 and NaN (R340 to R343), and slot 0 of an address space bound to it. -/
def container : Container where
  hash := []
  bytes := leBytes 4 0x53464E41 ++ leBytes 2 1 ++ leBytes 2 0x10 ++ leBytes 1 2 ++ leBytes 1 1 ++ leBytes 6 0 ++ leBytes 4 0x80
    ++ leBytes 4 16 ++ leBytes 4 0x90 ++ leBytes 4 32 ++ leBytes 4 0xB0 ++ leBytes 4 0 ++ leBytes 4 0xB0 ++ leBytes 4 0x148
    ++ leBytes 80 0 ++ leBytes 4 0 ++ leBytes 4 0x20008000 ++ leBytes 4 0xA0008000 ++ leBytes 4 0x60000000
    ++ leBytes 4 0 ++ leBytes 4 3 ++ leBytes 4 0 ++ leBytes 12 (2 ^ 96 - 1) ++ leBytes 8 0
def bound (c : Container := container) (s : State) : State :=
  { s with bindings := [⟨0, c, 0x10000, []⟩], binds := [⟨1, 0, some 0, 0, 0, 0, false⟩] }

/-- A shape of a format and a level with its extents, contiguous, at a base (R248). -/
def shape (fmt lvl base : Nat) (ext : List Nat) (grp : Nat := 0) : BitVec 512 :=
  let n (k : Nat) : Nat := ext.getD k 1
  BitVec.ofNat 512 (base + fmt * 2 ^ 64 + lvl * 2 ^ 72 + n 0 * 2 ^ 80 + 4 * 2 ^ 104 + n 1 * 2 ^ 144 + 4 * n 0 * 2 ^ 168
    + n 2 * 2 ^ 208 + 4 * n 0 * n 1 * 2 ^ 232 + n 3 * 2 ^ 272 + 4 * n 0 * n 1 * n 2 * 2 ^ 296 + grp * 2 ^ 336)

/-- A team whose shape registers from sh0 on are these. -/
def shaped (xs : List (BitVec 512)) (t : Team) : Team := { t with shapes := xs ++ t.shapes.drop xs.length }

/-- Bytes put into memory. -/
def stored (pa : Nat) (bs : List Byte) (s : State) : State := { s with mem := s.mem.put pa bs }

/-! ### Ill-formed instructions -/

/-- Each check of an instruction refuses a term that breaks it: register numbers by alignment (R19), types and modifiers (R99,
R121), CNT (R244), sparse formats (R306, R333), CAPCAS (R447). -/
theorem test_wf_refuses : ([.add ⟨always, 3, 4, 6, .i64, false⟩, .mov ⟨always, 8, 6, .w128⟩, .movi ⟨always, 1, true, 0⟩,
    .ld ⟨always, 0, 5, .b32, 0⟩, .featq ⟨3, 0⟩, .abs ⟨always, 0, 1, .n32, false⟩,
    .cvt ⟨always, 0, 1, .i8, .i32, false, true, .rn⟩, .cvt ⟨always, 0, 1, .i8, .i32, false, false, .rz⟩,
    .cvt ⟨always, 0, 1, .i8, .f32, true, false, .rn⟩, .bar ⟨0, false, 9⟩, .bar ⟨0, true, 33⟩, .barArv ⟨15, false, 9⟩,
    .mma ⟨always, 0, 0, 1, 0, some 2, false, .sp8, .f16⟩, .mdist ⟨always, 0, 0, 1, 0, some 2, false, .sp16, .i8⟩,
    .capcas ⟨true, 1, 2, 1, 3⟩] : List Instr).map Instr.wf = List.replicate 15 false := by rfl

/-- The same instructions with the broken operand mended are well-formed. -/
theorem test_wf_accepts : ([.add ⟨always, 2, 4, 6, .i64, false⟩, .mov ⟨always, 8, 4, .w128⟩, .movi ⟨always, 2, true, 0⟩,
    .ld ⟨always, 0, 4, .b32, 0⟩, .featq ⟨2, 0⟩, .abs ⟨always, 0, 1, .i32, false⟩,
    .cvt ⟨always, 0, 1, .f16, .i32, false, true, .rn⟩, .cvt ⟨always, 0, 1, .i8, .f32, false, false, .rz⟩,
    .cvt ⟨always, 0, 1, .i8, .i32, true, false, .rn⟩, .bar ⟨0, false, 8⟩, .bar ⟨0, true, 32⟩, .barArv ⟨15, false, 8⟩,
    .mma ⟨always, 0, 0, 1, 0, some 2, false, .sp8, .i8⟩, .mdist ⟨always, 0, 0, 1, 0, some 2, false, .dense, .i8⟩,
    .capcas ⟨true, 1, 2, 3, 3⟩] : List Instr).map Instr.wf = List.replicate 15 true := by rfl

/-- Registers at and above the team's count, and masks that name them, are refused (R18, R19, R181). -/
theorem test_okFor : (Instr.okFor 32 (.mov ⟨always, 31, 0, .w32⟩), Instr.okFor 32 (.mov ⟨always, 32, 0, .w32⟩),
    Instr.okFor 32 (.mov ⟨always, 28, 0, .w128⟩), Instr.okFor 32 (.mov ⟨always, 0, 32, .w128⟩),
    Instr.okFor 32 (.regroup 1 0x80), Instr.okFor 32 (.regroup 1 0x100), Instr.okFor 32 (.regatherLit 0x100),
    Instr.okFor 256 (.regroup 1 0x1FFFFFFF)) = (true, false, true, false, true, false, false, true) := by rfl


/-! ### Words written out from the encodings -/

/-- A word, its literal and the instruction that it stands for. -/
structure Word3 where
  word : Nat
  lit : DWord
  means : Instr
/-- Every word of a list is read as what it stands for. -/
def allRead (ws : List Word3) : Bool := ws.all fun x => match decodeAny x.word x.lit with
  | .ok i => i == x.means
  | .error _ => false

/-- Words written out from the encodings of the spec (family integer). -/
theorem test_decode_integer_1 : allRead [
    ⟨0x01000080C1000078, 0x0, .add ⟨⟨0, false⟩, 4, 6, 8, .n64, true⟩⟩,
    ⟨0x01002080C1000078, 0x0, .sub ⟨⟨0, false⟩, 4, 6, 8, .n64, true⟩⟩,
    ⟨0x01004080C1000078, 0x0, .mul ⟨⟨0, false⟩, 4, 6, 8, .n64, true⟩⟩,
    ⟨0x0128602040600010, 0x0, .mulhi ⟨⟨2, true⟩, 1, 2, 3, .i16⟩⟩,
    ⟨0x0128A02040600018, 0x0, .min ⟨⟨2, true⟩, 1, 2, 3, .n16⟩⟩,
    ⟨0x0128C02040600020, 0x0, .max ⟨⟨2, true⟩, 1, 2, 3, .i8⟩⟩,
    ⟨0x0128E02040600028, 0x0, .div ⟨⟨2, true⟩, 1, 2, 3, .n8⟩⟩,
    ⟨0x0129002040600000, 0x0, .rem ⟨⟨2, true⟩, 1, 2, 3, .i32⟩⟩,
    ⟨0x0100812141618040, 0x0, .mad ⟨⟨0, false⟩, 9, 10, 11, 12, .i32, true⟩⟩,
    ⟨0x010120A0C0000060, 0x0, .abs ⟨⟨0, false⟩, 5, 6, .i8, true⟩⟩,
    ⟨0x010140A0C0000018, 0x0, .neg ⟨⟨0, false⟩, 5, 6, .n16, false⟩⟩,
    ⟨0x020000E0DFFFFFFF, 0x0, .addImm ⟨⟨0, false⟩, 7, 6, .i32, 0x1FFFFFFF⟩⟩] = true := by rfl

/-- Words written out from the encodings of the spec (family integer). -/
theorem test_decode_integer_2 : allRead [
    ⟨0x020120E0DFFFFFFF, 0x0, .subImm ⟨⟨0, false⟩, 7, 6, .n32, 0x1FFFFFFF⟩⟩,
    ⟨0x020240E0DFFFFFFF, 0x0, .mulImm ⟨⟨0, false⟩, 7, 6, .i16, 0x1FFFFFFF⟩⟩,
    ⟨0x020360E0DFFFFFFF, 0x0, .minImm ⟨⟨0, false⟩, 7, 6, .n16, 0x1FFFFFFF⟩⟩,
    ⟨0x020480E0DFFFFFFF, 0x0, .maxImm ⟨⟨0, false⟩, 7, 6, .i8, 0x1FFFFFFF⟩⟩,
    ⟨0x0300014180000070, 0x123456789, .addLit ⟨⟨0, false⟩, 10, 12, .i64, true, 0x123456789⟩⟩,
    ⟨0x0300214180000070, 0x123456789, .subLit ⟨⟨0, false⟩, 10, 12, .i64, true, 0x123456789⟩⟩,
    ⟨0x0300414180000070, 0x123456789, .mulLit ⟨⟨0, false⟩, 10, 12, .i64, true, 0x123456789⟩⟩,
    ⟨0x0300614180000028, 0x1FF, .mulhiLit ⟨⟨0, false⟩, 10, 12, .n8, 0x1FF⟩⟩,
    ⟨0x0300A14180000028, 0x1FF, .minLit ⟨⟨0, false⟩, 10, 12, .n8, 0x1FF⟩⟩,
    ⟨0x0300C14180000028, 0x1FF, .maxLit ⟨⟨0, false⟩, 10, 12, .n8, 0x1FF⟩⟩,
    ⟨0x0300E14180000028, 0x1FF, .divLit ⟨⟨0, false⟩, 10, 12, .n8, 0x1FF⟩⟩,
    ⟨0x0301014180000028, 0x1FF, .remLit ⟨⟨0, false⟩, 10, 12, .n8, 0x1FF⟩⟩] = true := by rfl

/-- Words written out from the encodings of the spec (family logic). -/
theorem test_decode_logic_1 : allRead [
    ⟨0x0400006080A00008, 0x0, .and ⟨⟨0, false⟩, 3, 4, 5, .n32⟩⟩,
    ⟨0x0400206080A00008, 0x0, .or ⟨⟨0, false⟩, 3, 4, 5, .n32⟩⟩,
    ⟨0x0400406080A00008, 0x0, .xor ⟨⟨0, false⟩, 3, 4, 5, .n32⟩⟩,
    ⟨0x0400606080A00008, 0x0, .andn ⟨⟨0, false⟩, 3, 4, 5, .n32⟩⟩,
    ⟨0x0400A06080A00008, 0x0, .shl ⟨⟨0, false⟩, 3, 4, 5, .n32⟩⟩,
    ⟨0x0400C06080A00008, 0x0, .shr ⟨⟨0, false⟩, 3, 4, 5, .n32⟩⟩,
    ⟨0x0400E06080A00008, 0x0, .sar ⟨⟨0, false⟩, 3, 4, 5, .n32⟩⟩,
    ⟨0x0401006080A00008, 0x0, .rot ⟨⟨0, false⟩, 3, 4, 5, .n32⟩⟩,
    ⟨0x0400806080000010, 0x0, .not ⟨⟨0, false⟩, 3, 4, .i16⟩⟩,
    ⟨0x050400402000000A, 0x0, .andImm ⟨⟨0, false⟩, 2, 1, .i8, 10⟩⟩,
    ⟨0x050420402000000A, 0x0, .orImm ⟨⟨0, false⟩, 2, 1, .i8, 10⟩⟩,
    ⟨0x050440402000000A, 0x0, .xorImm ⟨⟨0, false⟩, 2, 1, .i8, 10⟩⟩] = true := by rfl

/-- Words written out from the encodings of the spec (family logic). -/
theorem test_decode_logic_2 : allRead [
    ⟨0x050460402000000A, 0x0, .andnImm ⟨⟨0, false⟩, 2, 1, .i8, 10⟩⟩,
    ⟨0x050480402000000A, 0x0, .shlImm ⟨⟨0, false⟩, 2, 1, .i8, 10⟩⟩,
    ⟨0x0504A0402000000A, 0x0, .shrImm ⟨⟨0, false⟩, 2, 1, .i8, 10⟩⟩,
    ⟨0x0504C0402000000A, 0x0, .sarImm ⟨⟨0, false⟩, 2, 1, .i8, 10⟩⟩,
    ⟨0x0504E0402000000A, 0x0, .rotImm ⟨⟨0, false⟩, 2, 1, .i8, 10⟩⟩,
    ⟨0x06000100C0000038, 0xFF00FF00FF00FF, .andLit ⟨⟨0, false⟩, 8, 6, .n64, 0x00FF00FF00FF00FF⟩⟩,
    ⟨0x06002100C0000038, 0xFF00FF00FF00FF, .orLit ⟨⟨0, false⟩, 8, 6, .n64, 0x00FF00FF00FF00FF⟩⟩,
    ⟨0x06004100C0000038, 0xFF00FF00FF00FF, .xorLit ⟨⟨0, false⟩, 8, 6, .n64, 0x00FF00FF00FF00FF⟩⟩,
    ⟨0x06006100C0000038, 0xFF00FF00FF00FF, .andnLit ⟨⟨0, false⟩, 8, 6, .n64, 0x00FF00FF00FF00FF⟩⟩,
    ⟨0x0600A100C0000038, 0xFF00FF00FF00FF, .shlLit ⟨⟨0, false⟩, 8, 6, .n64, 0x00FF00FF00FF00FF⟩⟩,
    ⟨0x0600C100C0000038, 0xFF00FF00FF00FF, .shrLit ⟨⟨0, false⟩, 8, 6, .n64, 0x00FF00FF00FF00FF⟩⟩,
    ⟨0x0600E100C0000038, 0xFF00FF00FF00FF, .sarLit ⟨⟨0, false⟩, 8, 6, .n64, 0x00FF00FF00FF00FF⟩⟩] = true := by rfl

/-- Words written out from the encodings of the spec (family logic). -/
theorem test_decode_logic_3 : allRead [
    ⟨0x06010100C0000038, 0xFF00FF00FF00FF, .rotLit ⟨⟨0, false⟩, 8, 6, .n64, 0x00FF00FF00FF00FF⟩⟩,
    ⟨0x070000C100000030, 0x0, .popc ⟨⟨0, false⟩, 6, 8, .i64⟩⟩,
    ⟨0x070020C100000030, 0x0, .clz ⟨⟨0, false⟩, 6, 8, .i64⟩⟩,
    ⟨0x070040C100000030, 0x0, .brev ⟨⟨0, false⟩, 6, 8, .i64⟩⟩,
    ⟨0x070060A0C0E10028, 0x0, .bfe ⟨⟨0, false⟩, 5, 6, 7, 8, .n8⟩⟩,
    ⟨0x070080A0C0E10028, 0x0, .bfi ⟨⟨0, false⟩, 5, 6, 7, 8, .n8⟩⟩] = true := by rfl

/-- Words written out from the encodings of the spec (family moves). -/
theorem test_decode_moves_1 : allRead [
    ⟨0x0800A1E0C1200018, 0x0, .setp ⟨⟨0, false⟩, 15, 6, 9, .n16, .ge⟩⟩,
    ⟨0x09046061BFFFFFFE, 0x0, .setpImm ⟨⟨0, false⟩, 3, 13, .i8, .le, 0x1FFFFFFE⟩⟩,
    ⟨0x0A00202080000038, 0x7, .setpLit ⟨⟨0, false⟩, 1, 4, .n64, .ne, 7⟩⟩,
    ⟨0x0B0000C0A0E00008, 0x0, .pand ⟨⟨0, false⟩, 6, 5, true, 7, false⟩⟩,
    ⟨0x0B0020C0A0E00018, 0x0, .por ⟨⟨0, false⟩, 6, 5, true, 7, true⟩⟩,
    ⟨0x0B0040C0A0E00008, 0x0, .pxor ⟨⟨0, false⟩, 6, 5, true, 7, false⟩⟩,
    ⟨0x0B0060C0A0000008, 0x0, .pnot ⟨⟨0, false⟩, 6, 5, true⟩⟩,
    ⟨0x0C00010081812010, 0x0, .sel ⟨⟨0, false⟩, 8, 4, 12, 9, .w128⟩⟩,
    ⟨0x0C00210080000008, 0x0, .mov ⟨⟨0, false⟩, 8, 4, .w64⟩⟩,
    ⟨0x0D0023C010000000, 0x0, .movi ⟨⟨0, false⟩, 30, true, 0x10000000⟩⟩,
    ⟨0x0E0002A000000000, 0xFFFFFFFF12345678, .movl ⟨⟨0, false⟩, 21, false, 0xFFFFFFFF12345678⟩⟩,
    ⟨0x0F000082C06001F8, 0x0, .lea ⟨⟨0, false⟩, 4, 22, 3, 31, true⟩⟩] = true := by rfl

/-- Words written out from the encodings of the spec (family float). -/
theorem test_decode_float_1 : allRead [
    ⟨0x2000002040600004, 0x0, .fadd ⟨⟨0, false⟩, 1, 2, 3, .f32, .rn, true⟩⟩,
    ⟨0x200020204060000D, 0x0, .fsub ⟨⟨0, false⟩, 1, 2, 3, .f16, .rz, true⟩⟩,
    ⟨0x2000402040600016, 0x0, .fmul ⟨⟨0, false⟩, 1, 2, 3, .bf16, .rd, true⟩⟩,
    ⟨0x200080204060000C, 0x0, .fdiv ⟨⟨0, false⟩, 1, 2, 3, .f16, .rn, true⟩⟩,
    ⟨0x2000618020406013, 0x0, .ffma ⟨⟨0, false⟩, 12, 1, 2, 3, .bf16, .ru, false⟩⟩,
    ⟨0x2000A02040000011, 0x0, .fsqrt ⟨⟨0, false⟩, 1, 2, .bf16, .rz, false⟩⟩,
    ⟨0x2000C02040000002, 0x0, .frcp ⟨⟨0, false⟩, 1, 2, .f32, .rd, false⟩⟩,
    ⟨0x2000E0204000000B, 0x0, .frsq ⟨⟨0, false⟩, 1, 2, .f16, .ru, false⟩⟩,
    ⟨0x2001002040000010, 0x0, .fexp2 ⟨⟨0, false⟩, 1, 2, .bf16, .rn, false⟩⟩,
    ⟨0x2001202040000001, 0x0, .flog2 ⟨⟨0, false⟩, 1, 2, .f32, .rz, false⟩⟩,
    ⟨0x2001402040600008, 0x0, .fmin ⟨⟨0, false⟩, 1, 2, 3, .f16⟩⟩,
    ⟨0x2001602040600008, 0x0, .fmax ⟨⟨0, false⟩, 1, 2, 3, .f16⟩⟩] = true := by rfl

/-- Words written out from the encodings of the spec (family float). -/
theorem test_decode_float_2 : allRead [
    ⟨0x2001C02040600008, 0x0, .fsgn ⟨⟨0, false⟩, 1, 2, 3, .f16⟩⟩,
    ⟨0x2001802040000010, 0x0, .fabs ⟨⟨0, false⟩, 1, 2, .bf16⟩⟩,
    ⟨0x2001A02040000010, 0x0, .fneg ⟨⟨0, false⟩, 1, 2, .bf16⟩⟩,
    ⟨0x2001E02040000010, 0x0, .fclass ⟨⟨0, false⟩, 1, 2, .bf16⟩⟩,
    ⟨0x210000A0C000000E, 0x3E00, .faddLit ⟨⟨0, false⟩, 5, 6, .f16, .rd, true, 0x3E00⟩⟩,
    ⟨0x210020A0C000000E, 0x3E00, .fsubLit ⟨⟨0, false⟩, 5, 6, .f16, .rd, true, 0x3E00⟩⟩,
    ⟨0x210040A0C000000E, 0x3E00, .fmulLit ⟨⟨0, false⟩, 5, 6, .f16, .rd, true, 0x3E00⟩⟩,
    ⟨0x210080A0C000000E, 0x3E00, .fdivLit ⟨⟨0, false⟩, 5, 6, .f16, .rd, true, 0x3E00⟩⟩,
    ⟨0x210140A0C0000000, 0x3F800000, .fminLit ⟨⟨0, false⟩, 5, 6, .f32, 0x3F800000⟩⟩,
    ⟨0x210160A0C0000000, 0x3F800000, .fmaxLit ⟨⟨0, false⟩, 5, 6, .f32, 0x3F800000⟩⟩,
    ⟨0x2201A02040600010, 0x0, .fsetp ⟨⟨0, false⟩, 1, 2, 3, .bf16, .nan⟩⟩,
    ⟨0x2300C040E0000008, 0x3C00, .fsetpLit ⟨⟨0, false⟩, 2, 7, .f16, .equ, 0x3C00⟩⟩] = true := by rfl

/-- Words written out from the encodings of the spec (family double). -/
theorem test_decode_double_1 : allRead [
    ⟨0x3000004080C00004, 0x0, .faddF64 ⟨⟨0, false⟩, 2, 4, 6, .rn, true⟩⟩,
    ⟨0x3100004080000001, 0x3FE0000000000000, .faddF64Lit ⟨⟨0, false⟩, 2, 4, .rz, false, 0x3FE0000000000000⟩⟩,
    ⟨0x3000204080C00005, 0x0, .fsubF64 ⟨⟨0, false⟩, 2, 4, 6, .rz, true⟩⟩,
    ⟨0x3100204080000001, 0x3FE0000000000000, .fsubF64Lit ⟨⟨0, false⟩, 2, 4, .rz, false, 0x3FE0000000000000⟩⟩,
    ⟨0x3000404080C00006, 0x0, .fmulF64 ⟨⟨0, false⟩, 2, 4, 6, .rd, true⟩⟩,
    ⟨0x3100404080000001, 0x3FE0000000000000, .fmulF64Lit ⟨⟨0, false⟩, 2, 4, .rz, false, 0x3FE0000000000000⟩⟩,
    ⟨0x3000804080C00004, 0x0, .fdivF64 ⟨⟨0, false⟩, 2, 4, 6, .rn, true⟩⟩,
    ⟨0x3100804080000001, 0x3FE0000000000000, .fdivF64Lit ⟨⟨0, false⟩, 2, 4, .rz, false, 0x3FE0000000000000⟩⟩,
    ⟨0x3000604080C10003, 0x0, .ffmaF64 ⟨⟨0, false⟩, 2, 4, 6, 8, .ru, false⟩⟩,
    ⟨0x3000A04080000002, 0x0, .fsqrtF64 ⟨⟨0, false⟩, 2, 4, .rd, false⟩⟩,
    ⟨0x3001404080C00000, 0x0, .fminF64 ⟨⟨0, false⟩, 2, 4, 6⟩⟩,
    ⟨0x3101404080000000, 0x1, .fminF64Lit ⟨⟨0, false⟩, 2, 4, 1⟩⟩] = true := by rfl

/-- Words written out from the encodings of the spec (family double). -/
theorem test_decode_double_2 : allRead [
    ⟨0x3001604080C00000, 0x0, .fmaxF64 ⟨⟨0, false⟩, 2, 4, 6⟩⟩,
    ⟨0x3101604080000000, 0x1, .fmaxF64Lit ⟨⟨0, false⟩, 2, 4, 1⟩⟩,
    ⟨0x320180A080C00000, 0x0, .fsetpF64 ⟨⟨0, false⟩, 5, 4, 6, .num⟩⟩,
    ⟨0x3301602080000000, 0x2, .fsetpF64Lit ⟨⟨0, false⟩, 1, 4, .geu, 2⟩⟩,
    ⟨0x3800006020000A00, 0x0, .cvt ⟨⟨0, false⟩, 3, 1, .i32, .i8, true, false, .rn⟩⟩,
    ⟨0x380000802000053E, 0x0, .cvt ⟨⟨0, false⟩, 4, 1, .f32, .n64, false, true, .rd⟩⟩,
    ⟨0x3800206080000000, 0x0, .cvtPackInt4 ⟨⟨0, false⟩, 3, 4⟩⟩,
    ⟨0x3800408060000000, 0x0, .cvtUnpackInt4 ⟨⟨0, false⟩, 4, 3⟩⟩] = true := by rfl

/-- Words written out from the encodings of the spec (family memory). -/
theorem test_decode_memory_1 : allRead [
    ⟨0x40000020009FFFF0, 0x0, .ld ⟨⟨0, false⟩, 1, 4, .i8, 0x1FFFF0⟩⟩,
    ⟨0x40002020009FFFF0, 0x0, .ld ⟨⟨0, false⟩, 1, 4, .n8, 0x1FFFF0⟩⟩,
    ⟨0x40004020009FFFF0, 0x0, .ld ⟨⟨0, false⟩, 1, 4, .i16, 0x1FFFF0⟩⟩,
    ⟨0x40006020009FFFF0, 0x0, .ld ⟨⟨0, false⟩, 1, 4, .n16, 0x1FFFF0⟩⟩,
    ⟨0x40008020009FFFF0, 0x0, .ld ⟨⟨0, false⟩, 1, 4, .b32, 0x1FFFF0⟩⟩,
    ⟨0x4000A040009FFFF0, 0x0, .ld ⟨⟨0, false⟩, 2, 4, .b64, 0x1FFFF0⟩⟩,
    ⟨0x4000C080009FFFF0, 0x0, .ld ⟨⟨0, false⟩, 4, 4, .b128, 0x1FFFF0⟩⟩,
    ⟨0x4100202000800008, 0x0, .st ⟨⟨0, false⟩, 1, 4, .b8, 8⟩⟩,
    ⟨0x4100602000800008, 0x0, .st ⟨⟨0, false⟩, 1, 4, .b16, 8⟩⟩,
    ⟨0x4100802000800008, 0x0, .st ⟨⟨0, false⟩, 1, 4, .b32, 8⟩⟩,
    ⟨0x4100A04000800008, 0x0, .st ⟨⟨0, false⟩, 2, 4, .b64, 8⟩⟩,
    ⟨0x4100C08000800008, 0x0, .st ⟨⟨0, false⟩, 4, 4, .b128, 8⟩⟩] = true := by rfl

/-- Words written out from the encodings of the spec (family memory). -/
theorem test_decode_memory_2 : allRead [
    ⟨0x4200A181A1400008, 0x0, .ldLevel ⟨⟨0, false⟩, 12, 10, .global, .b64, some .sys, 8⟩⟩,
    ⟨0x4300A18001400008, 0x0, .stLevel ⟨⟨0, false⟩, 12, 10, .global, .b64, none, 8⟩⟩,
    ⟨0x4201A18101400008, 0x0, .ldLevel ⟨⟨0, false⟩, 12, 10, .slice, .b64, some .team, 8⟩⟩,
    ⟨0x4301A18281400008, 0x0, .stLevel ⟨⟨0, false⟩, 12, 10, .slice, .b64, some .dev, 8⟩⟩,
    ⟨0x4202A18121400008, 0x0, .ldLevel ⟨⟨0, false⟩, 12, 10, .scratch, .b64, some .core, 8⟩⟩,
    ⟨0x4302A18001400008, 0x0, .stLevel ⟨⟨0, false⟩, 12, 10, .scratch, .b64, none, 8⟩⟩,
    ⟨0x4203A18141400008, 0x0, .ldLevel ⟨⟨0, false⟩, 12, 10, .cluster, .b64, some .clu, 8⟩⟩,
    ⟨0x4303A18281400008, 0x0, .stLevel ⟨⟨0, false⟩, 12, 10, .cluster, .b64, some .dev, 8⟩⟩,
    ⟨0x4204A18161400008, 0x0, .ldLevel ⟨⟨0, false⟩, 12, 10, .pantry, .b64, some .die, 8⟩⟩,
    ⟨0x4304A18001400008, 0x0, .stLevel ⟨⟨0, false⟩, 12, 10, .pantry, .b64, none, 8⟩⟩,
    ⟨0x460001C202C00100, 0x0, .atom ⟨⟨0, false⟩, 14, 16, 22, .op (.add), .global, true, .none, .team⟩⟩,
    ⟨0x460021C202C00B48, 0x0, .atom ⟨⟨0, false⟩, 14, 16, 22, .op (.min true), .scratch, true, .acq, .core⟩⟩] = true := by rfl

/-- Words written out from the encodings of the spec (family memory). -/
theorem test_decode_memory_3 : allRead [
    ⟨0x460041C202C00D90, 0x0, .atom ⟨⟨0, false⟩, 14, 16, 22, .op (.max false), .cluster, true, .rel, .clu⟩⟩,
    ⟨0x460061C202C011D8, 0x0, .atom ⟨⟨0, false⟩, 14, 16, 22, .op (.and), .pantry, true, .ar, .die⟩⟩,
    ⟨0x460081C202C00120, 0x0, .atom ⟨⟨0, false⟩, 14, 16, 22, .op (.or), .global, true, .none, .dev⟩⟩,
    ⟨0x4600A1C202C00968, 0x0, .atom ⟨⟨0, false⟩, 14, 16, 22, .op (.xor), .scratch, true, .acq, .sys⟩⟩,
    ⟨0x4600C1C202C00D80, 0x0, .atom ⟨⟨0, false⟩, 14, 16, 22, .op (.exch), .cluster, true, .rel, .team⟩⟩,
    ⟨0x4600E1C1E2C12808, 0x0, .atom ⟨⟨0, false⟩, 14, 15, 22, .cas 9, .scratch, false, .none, .core⟩⟩] = true := by rfl

/-- Words written out from the encodings of the spec (family control). -/
theorem test_decode_control_1 : allRead [
    ⟨0x502800001FFFFFFD, 0x0, .bra ⟨⟨2, true⟩, false, 0x1FFFFFFD⟩⟩,
    ⟨0x5100200140000000, 0x0, .brx ⟨⟨0, false⟩, true, 10⟩⟩,
    ⟨0x5200000000000002, 0x0, .bru 2⟩,
    ⟨0x9900010000000000, 0x0, .dqpop 8⟩,
    ⟨0x531003C000000005, 0x0, .call ⟨⟨1, false⟩, 30, 5⟩⟩,
    ⟨0x54480003C0000000, 0x0, .ret ⟨⟨4, true⟩, 30⟩⟩,
    ⟨0x5448200000000000, 0x0, .exit ⟨4, true⟩⟩,
    ⟨0x9878000000000000, 0x0, .nop ⟨7, true⟩⟩,
    ⟨0x98002043E0000000, 0x0, .srd ⟨⟨0, false⟩, 2, .occ 15⟩⟩,
    ⟨0x98004143E0000000, 0x0, .swr ⟨⟨0, false⟩, 31⟩⟩,
    ⟨0x5800004020000000, 0x0, .vote ⟨⟨0, false⟩, .any, 2, 1, none⟩⟩,
    ⟨0x5800204020000000, 0x0, .vote ⟨⟨0, false⟩, .all, 2, 1, none⟩⟩] = true := by rfl

/-- Words written out from the encodings of the spec (family control). -/
theorem test_decode_control_2 : allRead [
    ⟨0x5800404020000000, 0x0, .vote ⟨⟨0, false⟩, .uni, 2, 1, none⟩⟩,
    ⟨0x58006100A0012008, 0x0, .ballot ⟨⟨0, false⟩, 8, 5, some 9⟩⟩,
    ⟨0x580081C021A12008, 0x0, .ballotIndexed ⟨⟨0, false⟩, 14, 1, 13, some 9⟩⟩,
    ⟨0x59008181C2024408, 0x0, .swx ⟨⟨0, false⟩, .pick, true, 12, 14, .reg 16, .w16, some 18⟩⟩,
    ⟨0x5900A181C2024808, 0x0, .swx ⟨⟨0, false⟩, .rot, true, 12, 14, .reg 16, .w8, some 18⟩⟩,
    ⟨0x5900C181C2024C08, 0x0, .swx ⟨⟨0, false⟩, .flip, true, 12, 14, .reg 16, .w4, some 18⟩⟩,
    ⟨0x5900E181C2025008, 0x0, .swx ⟨⟨0, false⟩, .slide, true, 12, 14, .reg 16, .w2, some 18⟩⟩,
    ⟨0x5A0000C080000000, 0x0, .qxch ⟨⟨0, false⟩, .h, false, 6, 4⟩⟩,
    ⟨0x5A00A0C080000000, 0x0, .qxch ⟨⟨0, false⟩, .v, true, 6, 4⟩⟩,
    ⟨0x5A0040C080000000, 0x0, .qxch ⟨⟨0, false⟩, .d, false, 6, 4⟩⟩,
    ⟨0x5B000000BFFFFFFF, 0x0, .regroup 5 0x1FFFFFFF⟩,
    ⟨0x5C000000A0000000, 0x8000000000000001, .regroupLit 5 0x8000000000000001⟩] = true := by rfl

/-- Words written out from the encodings of the spec (family control). -/
theorem test_decode_control_3 : allRead [
    ⟨0x5D00000000000003, 0x0, .regather 3⟩,
    ⟨0x5E00000000000000, 0x8000000000000001, .regatherLit 0x8000000000000001⟩] = true := by rfl

/-- Words written out from the encodings of the spec (family foyer). -/
theorem test_decode_foyer_1 : allRead [
    ⟨0xC00000A0C0E00000, 0x0, .sadd ⟨5, 6, 7⟩⟩,
    ⟨0xC10000A0DFFFFFFF, 0x0, .saddImm ⟨5, 6, 0x1FFFFFFF⟩⟩,
    ⟨0xC20000A0C0000000, 0xFEDCBA9876543210, .saddLit ⟨5, 6, 0xFEDCBA9876543210⟩⟩,
    ⟨0xC00020A0C0E00000, 0x0, .ssub ⟨5, 6, 7⟩⟩,
    ⟨0xC10020A0DFFFFFFF, 0x0, .ssubImm ⟨5, 6, 0x1FFFFFFF⟩⟩,
    ⟨0xC20020A0C0000000, 0xFEDCBA9876543210, .ssubLit ⟨5, 6, 0xFEDCBA9876543210⟩⟩,
    ⟨0xC00040A0C0E00000, 0x0, .smul ⟨5, 6, 7⟩⟩,
    ⟨0xC10040A0DFFFFFFF, 0x0, .smulImm ⟨5, 6, 0x1FFFFFFF⟩⟩,
    ⟨0xC20040A0C0000000, 0xFEDCBA9876543210, .smulLit ⟨5, 6, 0xFEDCBA9876543210⟩⟩,
    ⟨0xC00060A0C0E00000, 0x0, .sand ⟨5, 6, 7⟩⟩,
    ⟨0xC10060A0DFFFFFFF, 0x0, .sandImm ⟨5, 6, 0x1FFFFFFF⟩⟩,
    ⟨0xC20060A0C0000000, 0xFEDCBA9876543210, .sandLit ⟨5, 6, 0xFEDCBA9876543210⟩⟩] = true := by rfl

/-- Words written out from the encodings of the spec (family foyer). -/
theorem test_decode_foyer_2 : allRead [
    ⟨0xC00080A0C0E00000, 0x0, .sor ⟨5, 6, 7⟩⟩,
    ⟨0xC10080A0DFFFFFFF, 0x0, .sorImm ⟨5, 6, 0x1FFFFFFF⟩⟩,
    ⟨0xC20080A0C0000000, 0xFEDCBA9876543210, .sorLit ⟨5, 6, 0xFEDCBA9876543210⟩⟩,
    ⟨0xC000A0A0C0E00000, 0x0, .sxor ⟨5, 6, 7⟩⟩,
    ⟨0xC100A0A0DFFFFFFF, 0x0, .sxorImm ⟨5, 6, 0x1FFFFFFF⟩⟩,
    ⟨0xC200A0A0C0000000, 0xFEDCBA9876543210, .sxorLit ⟨5, 6, 0xFEDCBA9876543210⟩⟩,
    ⟨0xC000C0A0C0E00000, 0x0, .sshl ⟨5, 6, 7⟩⟩,
    ⟨0xC100C0A0DFFFFFFF, 0x0, .sshlImm ⟨5, 6, 0x1FFFFFFF⟩⟩,
    ⟨0xC200C0A0C0000000, 0xFEDCBA9876543210, .sshlLit ⟨5, 6, 0xFEDCBA9876543210⟩⟩,
    ⟨0xC000E0A0C0E00000, 0x0, .sshr ⟨5, 6, 7⟩⟩,
    ⟨0xC100E0A0DFFFFFFF, 0x0, .sshrImm ⟨5, 6, 0x1FFFFFFF⟩⟩,
    ⟨0xC200E0A0C0000000, 0xFEDCBA9876543210, .sshrLit ⟨5, 6, 0xFEDCBA9876543210⟩⟩] = true := by rfl

/-- Words written out from the encodings of the spec (family foyer). -/
theorem test_decode_foyer_3 : allRead [
    ⟨0xC00100A0C0E00000, 0x0, .ssar ⟨5, 6, 7⟩⟩,
    ⟨0xC10100A0DFFFFFFF, 0x0, .ssarImm ⟨5, 6, 0x1FFFFFFF⟩⟩,
    ⟨0xC20100A0C0000000, 0xFEDCBA9876543210, .ssarLit ⟨5, 6, 0xFEDCBA9876543210⟩⟩,
    ⟨0xC00120A0C0000000, 0x0, .smov 5 6⟩,
    ⟨0xC00140A0C0E10000, 0x0, .ssel ⟨5, 6, 7, 8⟩⟩,
    ⟨0xC10120A000000009, 0x0, .smovi 5 9⟩,
    ⟨0xC20120A000000000, 0x9, .smovl 5 9⟩,
    ⟨0xC301A0C0A0600000, 0x0, .scmp ⟨6, 5, 3, false, .ge⟩⟩,
    ⟨0xC40020C0A0000004, 0x0, .scmpImm ⟨6, 5, true, .ne, 4⟩⟩,
    ⟨0xC5000060003FFFF8, 0x0, .sld ⟨3, 1, .i8, 0x1FFFF8⟩⟩,
    ⟨0xC5002060003FFFF8, 0x0, .sld ⟨3, 1, .n8, 0x1FFFF8⟩⟩,
    ⟨0xC5004060003FFFF8, 0x0, .sld ⟨3, 1, .i16, 0x1FFFF8⟩⟩] = true := by rfl

/-- Words written out from the encodings of the spec (family foyer). -/
theorem test_decode_foyer_4 : allRead [
    ⟨0xC5006060003FFFF8, 0x0, .sld ⟨3, 1, .n16, 0x1FFFF8⟩⟩,
    ⟨0xC5008060003FFFF8, 0x0, .sld ⟨3, 1, .n32, 0x1FFFF8⟩⟩,
    ⟨0xC500A060003FFFF8, 0x0, .sld ⟨3, 1, .b64, 0x1FFFF8⟩⟩,
    ⟨0xC500C060003FFFF8, 0x0, .sld ⟨3, 1, .i32, 0x1FFFF8⟩⟩,
    ⟨0xC600206000200008, 0x0, .sst ⟨3, 1, .b8, 8⟩⟩,
    ⟨0xC600606000200008, 0x0, .sst ⟨3, 1, .b16, 8⟩⟩,
    ⟨0xC600806000200008, 0x0, .sst ⟨3, 1, .b32, 8⟩⟩,
    ⟨0xC600A06000200008, 0x0, .sst ⟨3, 1, .b64, 8⟩⟩,
    ⟨0xC700E101412160E8, 0x0, .satom ⟨8, 10, 9, .cas 11, false, .ar, .sys⟩⟩,
    ⟨0xC700210141200300, 0x0, .satom ⟨8, 10, 9, .op (.min true), true, .none, .team⟩⟩,
    ⟨0xC80000001FFFFFFF, 0x0, .sbra 0x1FFFFFFF⟩,
    ⟨0xC8002000C0000003, 0x0, .sbz ⟨6, 3⟩⟩] = true := by rfl

/-- Words written out from the encodings of the spec (family foyer). -/
theorem test_decode_foyer_5 : allRead [
    ⟨0xC8004000C0000003, 0x0, .sbnz ⟨6, 3⟩⟩,
    ⟨0xC80060E000000003, 0x0, .scall ⟨7, 3⟩⟩,
    ⟨0xC9000000E0000000, 0x0, .sret 7⟩,
    ⟨0xC900200000000000, 0x0, .sexit⟩,
    ⟨0xCA00000000000068, 0x0, .sfence ⟨.acq, .sys⟩⟩,
    ⟨0xCB000000C0000000, 0x0, .dqpush 6⟩,
    ⟨0xCC0000A0C0E00003, 0x0, .fmbind ⟨5, 6, 7, 3⟩⟩,
    ⟨0xCC0020A0C0E00003, 0x0, .fmswap ⟨5, 6, 7, 3⟩⟩,
    ⟨0xCC0040A000000007, 0x0, .fmquery 5 7⟩,
    ⟨0xCD00000080000000, 0x0, .plaunch 4⟩,
    ⟨0xCD00200080000000, 0x0, .pcancel 4⟩,
    ⟨0xCD00400080000000, 0x0, .prepeat 4⟩] = true := by rfl

/-- Words written out from the encodings of the spec (family engines). -/
theorem test_decode_engines_1 : allRead [
    ⟨0x6000000000000050, 0x0, .fence ⟨.acq, .clu⟩⟩,
    ⟨0x60000000000000A0, 0x0, .fence ⟨.rel, .dev⟩⟩,
    ⟨0x60000000000000E8, 0x0, .fence ⟨.ar, .sys⟩⟩,
    ⟨0x6100002000000000, 0x0, .bar ⟨1, false, 0⟩⟩,
    ⟨0x6100004000000200, 0x0, .bar ⟨2, true, 0⟩⟩,
    ⟨0x6100206000000020, 0x0, .barArv ⟨3, false, 4⟩⟩,
    ⟨0x6200010000C00120, 0x0, .boarr ⟨⟨0, false⟩, 8, 6, none, .dev⟩⟩,
    ⟨0x6200010120C00020, 0x0, .boarr ⟨⟨0, false⟩, 8, 6, some 9, .dev⟩⟩,
    ⟨0x6300000100C00020, 0x0, .bowait ⟨⟨0, false⟩, 8, 6, .dev⟩⟩,
    ⟨0x64000000C1000028, 0x0, .tlwait ⟨6, 8, true⟩⟩,
    ⟨0x6800004003000040, 0x0, .shld ⟨⟨0, false⟩, 2, 24, 64⟩⟩,
    ⟨0x68002060031FFFC0, 0x0, .shst ⟨⟨0, false⟩, 3, 24, 0x1FFFC0⟩⟩] = true := by rfl

/-- Words written out from the encodings of the spec (family engines). -/
theorem test_decode_engines_2 : allRead [
    ⟨0x69000080C0000000, 0x0, .shset ⟨⟨0, false⟩, .base, 4, 6⟩⟩,
    ⟨0x69002080C0000000, 0x0, .shset ⟨⟨0, false⟩, .fmt, 4, 6⟩⟩,
    ⟨0x69004080C0000000, 0x0, .shset ⟨⟨0, false⟩, .lvl, 4, 6⟩⟩,
    ⟨0x69006080C0000000, 0x0, .shset ⟨⟨0, false⟩, .flags, 4, 6⟩⟩,
    ⟨0x69008080C0000000, 0x0, .shset ⟨⟨0, false⟩, .ext 0, 4, 6⟩⟩,
    ⟨0x6900A080C0000000, 0x0, .shset ⟨⟨0, false⟩, .ext 1, 4, 6⟩⟩,
    ⟨0x6900C080C0000000, 0x0, .shset ⟨⟨0, false⟩, .ext 2, 4, 6⟩⟩,
    ⟨0x6900E080C0000000, 0x0, .shset ⟨⟨0, false⟩, .ext 3, 4, 6⟩⟩,
    ⟨0x69010080C0000000, 0x0, .shset ⟨⟨0, false⟩, .str 0, 4, 6⟩⟩,
    ⟨0x69012080C0000000, 0x0, .shset ⟨⟨0, false⟩, .str 1, 4, 6⟩⟩,
    ⟨0x69014080C0000000, 0x0, .shset ⟨⟨0, false⟩, .str 2, 4, 6⟩⟩,
    ⟨0x69016080C0000000, 0x0, .shset ⟨⟨0, false⟩, .str 3, 4, 6⟩⟩] = true := by rfl

/-- Words written out from the encodings of the spec (family engines). -/
theorem test_decode_engines_3 : allRead [
    ⟨0x69018080C0000000, 0x0, .shset ⟨⟨0, false⟩, .grp, 4, 6⟩⟩,
    ⟨0x6901A080C0000000, 0x0, .shset ⟨⟨0, false⟩, .halo, 4, 6⟩⟩,
    ⟨0x6901C080C0000000, 0x0, .shset ⟨⟨0, false⟩, .anch, 4, 6⟩⟩,
    ⟨0x6901E080C0000000, 0x0, .shset ⟨⟨0, false⟩, .spn, 4, 6⟩⟩,
    ⟨0x69020080C0000000, 0x0, .shset ⟨⟨0, false⟩, .sbase, 4, 6⟩⟩,
    ⟨0x69022080C0000000, 0x0, .shset ⟨⟨0, false⟩, .mbase, 4, 6⟩⟩,
    ⟨0x6A0000E0C1400010, 0x0, .cpy ⟨⟨0, false⟩, 7, 6, false, some 10⟩⟩,
    ⟨0x6A00212101400070, 0x0, .cpyHalo ⟨⟨0, false⟩, 9, 8, 3, some 10⟩⟩,
    ⟨0x6A00408140400010, 0x0, .cpyRed ⟨⟨0, false⟩, 4, 10, some 2⟩⟩,
    ⟨0x6B00010000000000, 0x0, .cbatch 8⟩,
    ⟨0x6B00200100000010, 0x0, .cwait ⟨8, .clu⟩⟩,
    ⟨0x7300000100000010, 0x0, .mwait ⟨8, .clu⟩⟩] = true := by rfl

/-- Words written out from the encodings of the spec (family engines). -/
theorem test_decode_engines_4 : allRead [
    ⟨0x7300200000000010, 0x0, .mwaitAll .clu⟩,
    ⟨0x6B00200100000018, 0x0, .cwait ⟨8, .die⟩⟩,
    ⟨0x7300000100000018, 0x0, .mwait ⟨8, .die⟩⟩,
    ⟨0x7300200000000018, 0x0, .mwaitAll .die⟩,
    ⟨0x6B00200100000020, 0x0, .cwait ⟨8, .dev⟩⟩,
    ⟨0x7300000100000020, 0x0, .mwait ⟨8, .dev⟩⟩,
    ⟨0x7300200000000020, 0x0, .mwaitAll .dev⟩,
    ⟨0x6B00200100000028, 0x0, .cwait ⟨8, .sys⟩⟩,
    ⟨0x7300000100000028, 0x0, .mwait ⟨8, .sys⟩⟩,
    ⟨0x7300200000000028, 0x0, .mwaitAll .sys⟩,
    ⟨0x800000E0C0000028, 0x0, .qscan ⟨⟨0, false⟩, 7, 6, 5⟩⟩,
    ⟨0x830000E0C0000028, 0x0, .qcvt ⟨⟨0, false⟩, 7, 6, 5⟩⟩] = true := by rfl

/-- Words written out from the encodings of the spec (family engines). -/
theorem test_decode_engines_5 : allRead [
    ⟨0x810000C0A0E00008, 0x0, .qrot ⟨⟨0, false⟩, 6, 5, 7, .g32⟩⟩,
    ⟨0x810000C0A0C00010, 0x0, .qrot ⟨⟨0, false⟩, 6, 5, 6, .g64⟩⟩,
    ⟨0x810000C0A1000018, 0x0, .qrot ⟨⟨0, false⟩, 6, 5, 8, .g128⟩⟩,
    ⟨0x8200006040200000, 0x0, .qsmooth ⟨⟨0, false⟩, 3, 2, 1⟩⟩,
    ⟨0x840000A0200002F8, 0x0, .xcvtEncode ⟨⟨0, false⟩, 5, 1, none, .bf16, 3, 7⟩⟩,
    ⟨0x840020C0A1200508, 0x0, .xcvtDecode ⟨⟨0, false⟩, 6, 5, some 9, .f16, 0, 1⟩⟩,
    ⟨0x7000010080000008, 0x0, .mopen ⟨⟨0, false⟩, some 8, 4⟩⟩,
    ⟨0x70002000C00003F0, 0x0, .mclose ⟨⟨0, false⟩, none, 6, 0x3F⟩⟩,
    ⟨0x71000085005E6CB8, 0x0, .mma ⟨⟨0, false⟩, 4, 40, 2, 15, some 3, true, .dense, .slot 7⟩⟩,
    ⟨0x710020A500420000, 0x0, .mdist ⟨⟨0, false⟩, 5, 40, 2, 1, none, false, .dense, .i8⟩⟩,
    ⟨0x72000780A0400080, 0x0, .mtopk ⟨⟨0, false⟩, 60, 5, 2, 15⟩⟩] = true := by rfl

/-- Words written out from the encodings of the spec (family system). -/
theorem test_decode_system_1 : allRead [
    ⟨0x8800000081800028, 0x0, .capenter ⟨4, 12, 5⟩⟩,
    ⟨0x8900000040000000, 0x0, .capexit 2⟩,
    ⟨0x8A00010000000000, 0x0, .capres 8⟩,
    ⟨0x8B000040003FFFF8, 0x0, .capld ⟨false, 2, 1, 0x1FFFF8⟩⟩,
    ⟨0x8C00000040200000, 0x0, .capst ⟨false, 2, 1⟩⟩,
    ⟨0x8D000080A020C000, 0x0, .capcas ⟨false, 4, 5, 1, 6⟩⟩,
    ⟨0x8E0000E100001FF8, 0x0, .capop (.bin .add 7 8 (.imm 0x1FF))⟩,
    ⟨0x8E0020E100001FF8, 0x0, .capop (.bin .sub 7 8 (.imm 0x1FF))⟩,
    ⟨0x8E0040E100001FF8, 0x0, .capop (.bin .and 7 8 (.imm 0x1FF))⟩,
    ⟨0x8E0060E100001FF8, 0x0, .capop (.bin .or 7 8 (.imm 0x1FF))⟩,
    ⟨0x8E0080E100001FF8, 0x0, .capop (.bin .xor 7 8 (.imm 0x1FF))⟩,
    ⟨0x8E00A0E100001FF8, 0x0, .capop (.bin .shl 7 8 (.imm 0x1FF))⟩] = true := by rfl

/-- Words written out from the encodings of the spec (family system). -/
theorem test_decode_system_2 : allRead [
    ⟨0x8E00C0E100001FF8, 0x0, .capop (.bin .shr 7 8 (.imm 0x1FF))⟩,
    ⟨0x8E00E0E100001FF8, 0x0, .capop (.bin .sar 7 8 (.imm 0x1FF))⟩,
    ⟨0x8E0100E001200000, 0x0, .capop (.mov 7 (.reg 9))⟩,
    ⟨0x8F00000000001F80, 0x0, .capbr (.al 0xFC)⟩,
    ⟨0x8F00200020600080, 0x0, .capbr (.cond .eq 1 3 4)⟩,
    ⟨0x8F00400020600080, 0x0, .capbr (.cond .ne 1 3 4)⟩,
    ⟨0x8F00600020600080, 0x0, .capbr (.cond .lt 1 3 4)⟩,
    ⟨0x8F00800020600080, 0x0, .capbr (.cond .ge 1 3 4)⟩,
    ⟨0x8F00A00020600080, 0x0, .capbr (.cond .ltu 1 3 4)⟩,
    ⟨0x8F00C00020600080, 0x0, .capbr (.cond .geu 1 3 4)⟩,
    ⟨0x9000002040600010, 0x0, .solveBegin (.three 1 2 3)⟩,
    ⟨0x9000202040608018, 0x0, .solveEnd (.four 1 2 3 4)⟩] = true := by rfl

/-- Words written out from the encodings of the spec (family system). -/
theorem test_decode_system_3 : allRead [
    ⟨0x9100000180000000, 0x0, .solveSet ⟨.thresh, 12⟩⟩,
    ⟨0x9100200180000000, 0x0, .solveSet ⟨.ceil, 12⟩⟩,
    ⟨0x9100400180000000, 0x0, .solveSet ⟨.depth, 12⟩⟩,
    ⟨0x9100600180000000, 0x0, .solveSet ⟨.hbase, 12⟩⟩,
    ⟨0x9200020000000018, 0x0, .solveStat ⟨16, 3⟩⟩,
    ⟨0x9A0000008000FFFF, 0x0, .trap ⟨4, 0xFFFF⟩⟩,
    ⟨0x9B00000000000000, 0x0, .tfence⟩,
    ⟨0x9B002000000003F8, 0x0, .clrf 0x7F⟩,
    ⟨0x9B00200000000080, 0x0, .clrf 0x10⟩,
    ⟨0x9B00400000000000, 0x0, .brk⟩,
    ⟨0x9C00028000000018, 0x0, .featq ⟨20, 3⟩⟩] = true := by rfl
theorem witness_IntegerArithmetic_1 : ∀ i ∈ ([.add ⟨⟨0, false⟩, 4, 6, 8, .n64, true⟩, .sub ⟨⟨0, false⟩, 4, 6, 8, .n64, true⟩, .mul ⟨⟨0, false⟩, 4, 6, 8, .n64, true⟩,
    .mulhi ⟨⟨2, true⟩, 1, 2, 3, .i16⟩, .mad ⟨⟨0, false⟩, 9, 10, 11, 12, .i32, true⟩, .min ⟨⟨2, true⟩, 1, 2, 3, .n16⟩,
    .max ⟨⟨2, true⟩, 1, 2, 3, .i8⟩, .div ⟨⟨2, true⟩, 1, 2, 3, .n8⟩, .rem ⟨⟨2, true⟩, 1, 2, 3, .i32⟩,
    .abs ⟨⟨0, false⟩, 5, 6, .i8, true⟩, .neg ⟨⟨0, false⟩, 5, 6, .n16, false⟩, .addImm ⟨⟨0, false⟩, 7, 6, .i32, 0x1FFFFFFF⟩] : List Instr),
    ∃ e, Issues i (teamWith) e := all_issue (by decide +kernel)

theorem witness_IntegerArithmetic_2 : ∀ i ∈ ([.subImm ⟨⟨0, false⟩, 7, 6, .n32, 0x1FFFFFFF⟩, .mulImm ⟨⟨0, false⟩, 7, 6, .i16, 0x1FFFFFFF⟩, .minImm ⟨⟨0, false⟩, 7, 6, .n16, 0x1FFFFFFF⟩,
    .maxImm ⟨⟨0, false⟩, 7, 6, .i8, 0x1FFFFFFF⟩, .addLit ⟨⟨0, false⟩, 10, 12, .i64, true, 0x123456789⟩, .subLit ⟨⟨0, false⟩, 10, 12, .i64, true, 0x123456789⟩,
    .mulLit ⟨⟨0, false⟩, 10, 12, .i64, true, 0x123456789⟩, .mulhiLit ⟨⟨0, false⟩, 10, 12, .n8, 0x1FF⟩, .minLit ⟨⟨0, false⟩, 10, 12, .n8, 0x1FF⟩,
    .maxLit ⟨⟨0, false⟩, 10, 12, .n8, 0x1FF⟩, .divLit ⟨⟨0, false⟩, 10, 12, .n8, 0x1FF⟩, .remLit ⟨⟨0, false⟩, 10, 12, .n8, 0x1FF⟩] : List Instr),
    ∃ e, Issues i (teamWith) e := all_issue (by decide +kernel)

theorem witness_LogicShiftsAndFields_1 : ∀ i ∈ ([.and ⟨⟨0, false⟩, 3, 4, 5, .n32⟩, .or ⟨⟨0, false⟩, 3, 4, 5, .n32⟩, .xor ⟨⟨0, false⟩, 3, 4, 5, .n32⟩,
    .andn ⟨⟨0, false⟩, 3, 4, 5, .n32⟩, .not ⟨⟨0, false⟩, 3, 4, .i16⟩, .shl ⟨⟨0, false⟩, 3, 4, 5, .n32⟩,
    .shr ⟨⟨0, false⟩, 3, 4, 5, .n32⟩, .sar ⟨⟨0, false⟩, 3, 4, 5, .n32⟩, .rot ⟨⟨0, false⟩, 3, 4, 5, .n32⟩,
    .andImm ⟨⟨0, false⟩, 2, 1, .i8, 10⟩, .orImm ⟨⟨0, false⟩, 2, 1, .i8, 10⟩, .xorImm ⟨⟨0, false⟩, 2, 1, .i8, 10⟩] : List Instr),
    ∃ e, Issues i (teamWith) e := all_issue (by decide +kernel)

theorem witness_LogicShiftsAndFields_2 : ∀ i ∈ ([.andnImm ⟨⟨0, false⟩, 2, 1, .i8, 10⟩, .shlImm ⟨⟨0, false⟩, 2, 1, .i8, 10⟩, .shrImm ⟨⟨0, false⟩, 2, 1, .i8, 10⟩,
    .sarImm ⟨⟨0, false⟩, 2, 1, .i8, 10⟩, .rotImm ⟨⟨0, false⟩, 2, 1, .i8, 10⟩, .andLit ⟨⟨0, false⟩, 8, 6, .n64, 0x00FF00FF00FF00FF⟩,
    .orLit ⟨⟨0, false⟩, 8, 6, .n64, 0x00FF00FF00FF00FF⟩, .xorLit ⟨⟨0, false⟩, 8, 6, .n64, 0x00FF00FF00FF00FF⟩, .andnLit ⟨⟨0, false⟩, 8, 6, .n64, 0x00FF00FF00FF00FF⟩,
    .shlLit ⟨⟨0, false⟩, 8, 6, .n64, 0x00FF00FF00FF00FF⟩, .shrLit ⟨⟨0, false⟩, 8, 6, .n64, 0x00FF00FF00FF00FF⟩, .sarLit ⟨⟨0, false⟩, 8, 6, .n64, 0x00FF00FF00FF00FF⟩] : List Instr),
    ∃ e, Issues i (teamWith) e := all_issue (by decide +kernel)

theorem witness_LogicShiftsAndFields_3 : ∀ i ∈ ([.rotLit ⟨⟨0, false⟩, 8, 6, .n64, 0x00FF00FF00FF00FF⟩, .popc ⟨⟨0, false⟩, 6, 8, .i64⟩, .clz ⟨⟨0, false⟩, 6, 8, .i64⟩,
    .brev ⟨⟨0, false⟩, 6, 8, .i64⟩, .bfe ⟨⟨0, false⟩, 5, 6, 7, 8, .n8⟩, .bfi ⟨⟨0, false⟩, 5, 6, 7, 8, .n8⟩] : List Instr),
    ∃ e, Issues i (teamWith) e := all_issue (by decide +kernel)

theorem witness_Predicates : ∀ i ∈ ([.setp ⟨⟨0, false⟩, 15, 6, 9, .n16, .ge⟩, .setpImm ⟨⟨0, false⟩, 3, 13, .i8, .le, 0x1FFFFFFE⟩, .setpLit ⟨⟨0, false⟩, 1, 4, .n64, .ne, 7⟩,
    .pand ⟨⟨0, false⟩, 6, 5, true, 7, false⟩, .por ⟨⟨0, false⟩, 6, 5, true, 7, true⟩, .pxor ⟨⟨0, false⟩, 6, 5, true, 7, false⟩,
    .pnot ⟨⟨0, false⟩, 6, 5, true⟩] : List Instr),
    ∃ e, Issues i (teamWith) e := all_issue (by decide +kernel)

theorem witness_MovesAndAddresses : ∀ i ∈ ([.sel ⟨⟨0, false⟩, 8, 4, 12, 9, .w128⟩, .mov ⟨⟨0, false⟩, 8, 4, .w64⟩, .movi ⟨⟨0, false⟩, 30, true, 0x10000000⟩,
    .movl ⟨⟨0, false⟩, 21, false, 0xFFFFFFFF12345678⟩, .lea ⟨⟨0, false⟩, 4, 22, 3, 31, true⟩] : List Instr),
    ∃ e, Issues i (teamWith) e := all_issue (by decide +kernel)

theorem witness_FloatArithmetic_1 : ∀ i ∈ ([.fadd ⟨⟨0, false⟩, 1, 2, 3, .f32, .rn, true⟩, .fsub ⟨⟨0, false⟩, 1, 2, 3, .f16, .rz, true⟩, .fmul ⟨⟨0, false⟩, 1, 2, 3, .bf16, .rd, true⟩,
    .ffma ⟨⟨0, false⟩, 12, 1, 2, 3, .bf16, .ru, false⟩, .fdiv ⟨⟨0, false⟩, 1, 2, 3, .f16, .rn, true⟩, .fsqrt ⟨⟨0, false⟩, 1, 2, .bf16, .rz, false⟩,
    .frcp ⟨⟨0, false⟩, 1, 2, .f32, .rd, false⟩, .frsq ⟨⟨0, false⟩, 1, 2, .f16, .ru, false⟩, .fexp2 ⟨⟨0, false⟩, 1, 2, .bf16, .rn, false⟩,
    .flog2 ⟨⟨0, false⟩, 1, 2, .f32, .rz, false⟩, .faddLit ⟨⟨0, false⟩, 5, 6, .f16, .rd, true, 0x3E00⟩, .fsubLit ⟨⟨0, false⟩, 5, 6, .f16, .rd, true, 0x3E00⟩] : List Instr),
    ∃ e, Issues i (teamWith) e := all_issue (by decide +kernel)

theorem witness_FloatArithmetic_2 : ∀ i ∈ ([.fmulLit ⟨⟨0, false⟩, 5, 6, .f16, .rd, true, 0x3E00⟩, .fdivLit ⟨⟨0, false⟩, 5, 6, .f16, .rd, true, 0x3E00⟩, .faddF64 ⟨⟨0, false⟩, 2, 4, 6, .rn, true⟩,
    .fsubF64 ⟨⟨0, false⟩, 2, 4, 6, .rz, true⟩, .fmulF64 ⟨⟨0, false⟩, 2, 4, 6, .rd, true⟩, .ffmaF64 ⟨⟨0, false⟩, 2, 4, 6, 8, .ru, false⟩,
    .fdivF64 ⟨⟨0, false⟩, 2, 4, 6, .rn, true⟩, .fsqrtF64 ⟨⟨0, false⟩, 2, 4, .rd, false⟩, .faddF64Lit ⟨⟨0, false⟩, 2, 4, .rz, false, 0x3FE0000000000000⟩,
    .fsubF64Lit ⟨⟨0, false⟩, 2, 4, .rz, false, 0x3FE0000000000000⟩, .fmulF64Lit ⟨⟨0, false⟩, 2, 4, .rz, false, 0x3FE0000000000000⟩, .fdivF64Lit ⟨⟨0, false⟩, 2, 4, .rz, false, 0x3FE0000000000000⟩] : List Instr),
    ∃ e, Issues i (teamWith) e := all_issue (by decide +kernel)

theorem witness_FloatPicksAndSigns : ∀ i ∈ ([.fmin ⟨⟨0, false⟩, 1, 2, 3, .f16⟩, .fmax ⟨⟨0, false⟩, 1, 2, 3, .f16⟩, .fminLit ⟨⟨0, false⟩, 5, 6, .f32, 0x3F800000⟩,
    .fmaxLit ⟨⟨0, false⟩, 5, 6, .f32, 0x3F800000⟩, .fminF64 ⟨⟨0, false⟩, 2, 4, 6⟩, .fmaxF64 ⟨⟨0, false⟩, 2, 4, 6⟩,
    .fminF64Lit ⟨⟨0, false⟩, 2, 4, 1⟩, .fmaxF64Lit ⟨⟨0, false⟩, 2, 4, 1⟩, .fabs ⟨⟨0, false⟩, 1, 2, .bf16⟩,
    .fneg ⟨⟨0, false⟩, 1, 2, .bf16⟩, .fsgn ⟨⟨0, false⟩, 1, 2, 3, .f16⟩, .fclass ⟨⟨0, false⟩, 1, 2, .bf16⟩] : List Instr),
    ∃ e, Issues i (teamWith) e := all_issue (by decide +kernel)

theorem witness_FloatCompare : ∀ i ∈ ([.fsetp ⟨⟨0, false⟩, 1, 2, 3, .bf16, .nan⟩, .fsetpLit ⟨⟨0, false⟩, 2, 7, .f16, .equ, 0x3C00⟩, .fsetpF64 ⟨⟨0, false⟩, 5, 4, 6, .num⟩,
    .fsetpF64Lit ⟨⟨0, false⟩, 1, 4, .geu, 2⟩] : List Instr),
    ∃ e, Issues i (teamWith) e := all_issue (by decide +kernel)

theorem witness_Conversions : ∀ i ∈ ([.cvt ⟨⟨0, false⟩, 3, 1, .i32, .i8, true, false, .rn⟩, .cvtPackInt4 ⟨⟨0, false⟩, 3, 4⟩, .cvtUnpackInt4 ⟨⟨0, false⟩, 4, 3⟩] : List Instr),
    ∃ e, Issues i (teamWith) e := all_issue (by decide +kernel)

theorem witness_BranchesAndCalls : ∀ i ∈ ([.bra ⟨⟨2, true⟩, false, 0x1FFFFFFD⟩, .brx ⟨⟨0, false⟩, true, 10⟩, .call ⟨⟨1, false⟩, 30, 5⟩,
    .ret ⟨⟨4, true⟩, 30⟩, .exit ⟨4, true⟩, .nop ⟨7, true⟩] : List Instr),
    ∃ e, Issues i (teamWith) e := all_issue (by decide +kernel)

theorem witness_SystemRegisters : ∀ i ∈ ([.srd ⟨⟨0, false⟩, 2, .occ 15⟩, .swr ⟨⟨0, false⟩, 31⟩] : List Instr),
    ∃ e, Issues i (teamWith) e := all_issue (by decide +kernel)

/-- Signed types and the lowest value of one; an unsigned type and values at both ends of its range. -/
theorem witness_IntegerArithmetic_corners : IntTy.i8.signed = true ∧ tyLo .i8 = -128 ∧ IntTy.n16.signed = false
    ∧ ((0 : Int) < 1 ∧ (1 : Int) ≤ tyHi .n16) ∧ (0 : Int) < 65535 ∧ (65535 : Int) ≤ tyHi .n16 := by decide +kernel

/-- Values at the ends of a range, of a single register and of the last pair of a lane. -/
theorem witness_IntegerOperands : (tyLo .i8 ≤ -128 ∧ (-128 : Int) ≤ tyHi .i8 ∧ 255 + 0 < (lane []).vregs.length)
    ∧ (tyLo .n64 ≤ 2 ^ 64 - 1 ∧ (2 ^ 64 - 1 : Int) ≤ tyHi .n64 ∧ 254 + 1 < (lane []).vregs.length ∧ IntTy.n64.wide = true)
    ∧ (IntTy.n16.wide = false ∧ IntTy.n16.signed = false) ∧ (253 ≠ (254 : VReg).val ∧ 253 ≠ (254 : VReg).val + 1) := by decide +kernel

/-- Counts of zeros of 0, of 1 and of the highest bit; the lowest and highest bit of a register. -/
theorem witness_BitFields : (0 < 2 ^ tyWidth .n32 ∧ 1 < 2 ^ tyWidth .n32 ∧ 2 ^ 31 < 2 ^ tyWidth .n32 ∧ 2 ^ 31 ≠ 0)
    ∧ (0 < tyWidth .i8 ∧ 7 < tyWidth .i8) := by decide +kernel

/-- An IEEE number that is neither zero nor NaN, in each hard format, with a value. -/
theorem witness_FloatRoundsOnce : (fmtF16 ∈ hardFormats ∧ fmtBf16 ∈ hardFormats ∧ fmtF32 ∈ hardFormats ∧ fmtF64 ∈ hardFormats)
    ∧ 3 ≠ 0 ∧ number (.fin true 3 (-1)) = some (-3 / 2) := by decide +kernel

/-- Binary32 operands for each clause: 1 + 2, 1 - 2, 1 * 2, 1 / 2; products and sums that are 0; divisors that are 0; roots of 4 and
of 1/4, and of -1; NaNs of both kinds, infinities, and an infinity with a zero. -/
theorem witness_FloatExact : fmtF32 ∈ hardFormats
    ∧ (number (fmtF32.unpack 0x3F800000) = some 1 ∧ number (fmtF32.unpack 0x40000000) = some 2
      ∧ (1 : Rat) + 2 ≠ 0 ∧ (1 : Rat) - 2 ≠ 0 ∧ (1 : Rat) * 2 ≠ 0 ∧ (1 : Rat) ≠ 0 ∧ (2 : Rat) ≠ 0)
    ∧ (number (fmtF32.unpack 0xBF800000) = some (-1) ∧ (1 : Rat) + -1 = 0 ∧ (-1 : Rat) < 0)
    ∧ (number (fmtF32.unpack 0) = some 0 ∧ number (fmtF32.unpack 0x80000000) = some 0 ∧ (0 : Rat) + 0 = 0 ∧ (0 : Rat) * 1 = 0)
    ∧ (number (fmtF32.unpack 0x40800000) = some 4 ∧ (0 : Rat) < 2 ∧ (4 : Rat) = 2 * 2)
    ∧ (number (fmtF32.unpack 0x3E800000) = some (1 / 4) ∧ (1 / (1 / 4) : Rat) = 2 * 2)
    ∧ ((fmtF32.unpack 0x7FC00000).isNan = true ∧ (fmtF32.unpack 0x7FC00000).isSig = false
      ∧ (fmtF32.unpack 0x7F800001).isNan = true ∧ (fmtF32.unpack 0x7F800001).isSig = true)
    ∧ fmtF32.unpack 0x7F800000 = .inf false ∧ fmtF32.unpack 0xFF800000 = .inf true := by decide +kernel

/-- The poles and an exact power of two. -/
theorem witness_FloatTranscendental : fmtF32 ∈ hardFormats ∧ fmtF32.unpack 0xFF800000 = .inf true ∧ fmtF32.unpack 0x7F800000 = .inf false
    ∧ fmtF32.unpack 0 = .fin false 0 (-149) ∧ (number (fmtF32.unpack 0xC0000000) = some (-2) ∧ (-2 : Rat) < 0)
    ∧ number (fmtF32.unpack 0x3E000000) = some (2 ^ (-3 : Int)) ∧ (-3 : Int) ≠ 0 := by decide +kernel

/-- Pairs of operands for each clause of a minimum: a NaN on either side and on both, two numbers, zeros of both signs. -/
theorem witness_FloatPicks : ((fmtF32.unpack 0x7FC00000).isNan = true ∧ (fmtF32.unpack 0x3F800000).isNan = false)
    ∧ Greater (fmtF32.unpack 0x40000000) (fmtF32.unpack 0x3F800000) ∧ Greater (fmtF32.unpack 0) (fmtF32.unpack 0x80000000)
    ∧ Greater (fmtF32.unpack 0x7F800000) (fmtF32.unpack 0xFF800000) := by
  refine ⟨by decide, .inl ⟨2, 1, by decide +kernel, by decide +kernel, by decide +kernel⟩, .inr (by decide), ⟨rfl, rfl⟩⟩

/-- Conversions of each kind, with operands for their clauses: an integer that is not 0, NaN, infinities, numbers within a range
and at and beyond both ends. -/
theorem witness_Conversions_clauses : (cvtKind .i32 = .inl .i32 ∧ cvtKind .i8 = .inl .i8 ∧ cvtKind .f32 = .inr fmtF32 ∧ cvtKind .f16 = .inr fmtF16)
    ∧ asType .i32 ((lane [(1, 5)]).cvtSrc 1 .i32) ≠ 0
    ∧ (fmtF32.unpack ((lane [(1, 0x7FC00000)]).cvtSrc 1 .f32)).isNan = true
    ∧ fmtF32.unpack ((lane [(1, 0xFF800000)]).cvtSrc 1 .f32) = .inf true
    ∧ (number (fmtF32.unpack ((lane [(1, 0x42FE0000)]).cvtSrc 1 .f32)) = some ((127 : Int) : Rat) ∧ (127 : Int) ≤ tyHi .i8)
    ∧ (number (fmtF32.unpack ((lane [(1, 0x43000000)]).cvtSrc 1 .f32)) = some 128 ∧ (tyHi .i8 : Rat) + 1 ≤ 128)
    ∧ (number (fmtF32.unpack ((lane [(1, 0xC3010000)]).cvtSrc 1 .f32)) = some (-129) ∧ (-129 : Rat) ≤ (tyLo .i8 : Rat) - 1) := by decide +kernel

/-- Operands that are numbers, zeros and subnormals, which .ftz reads as zero; an integer that binary32 holds and a power of two. -/
theorem witness_FloatOperands : (operand fmtF32 false 1 = some (2 ^ (-149 : Int)) ∧ operand fmtF32 true 1 = some 0
      ∧ operand fmtF32 true 0x00800000 = some (2 ^ (-126 : Int)) ∧ operand fmtF32 true 0x7F800000 = none)
    ∧ (operand fmtF32 false 0x40400000 = some ((3 : Int) : Rat) ∧ operand fmtF32 true 0xC0400000 = some ((-3 : Int) : Rat)
      ∧ operand fmtF32 false 0x3E000000 = some (2 ^ (-3 : Int)) ∧ operand fmtF32 true 0x3F800000 = some 1)
    ∧ ((2 : Rat) * 0 + 3 ≠ 0 ∧ (2 : Rat) * 3 + -6 = 0 ∧ (1 : Rat) - 1 = 0)
    ∧ (fmtF32.unpack 0x7F800000 = .inf false ∧ operand fmtF32 true 1 = some 0) := by decide +kernel

/-- Conversions of 2.5 and of a subnormal under .ftz, of the integer 0, and of an infinity to a format. -/
theorem witness_ConversionOperands : operand fmtF32 false ((lane [(1, 0x40200000)]).cvtSrc 1 .f32) = some (5 / 2)
    ∧ operand fmtF32 true ((lane [(1, 1)]).cvtSrc 1 .f32) = some 0 ∧ asType .i32 ((lane [(1, 0)]).cvtSrc 1 .i32) = 0
    ∧ fmtF32.unpack ((lane [(1, 0x7F800000)]).cvtSrc 1 .f32) = .inf false := by decide +kernel

/-- A team of four lanes whose second and third have left for other addresses: the fragment that issues has two lanes. -/
def scattered (t : Team) : Team :=
  { ofSeats [lane [] 0 2, lane [] 1, lane [] 2, lane [] 3] t with
    frags := [Frag.at Place.image.tent 9, Frag.at (Place.image.tent + 64) 2, Frag.at (Place.image.tent + 128) 4] }

/-- Branches and NOP in one of three fragments; lanes that a guard enables and lanes that it does not. -/
theorem witness_BranchesCallsAndExit : (∀ i ∈ ([.bra ⟨⟨1, false⟩, false, 4⟩, .brx ⟨⟨1, false⟩, true, 10⟩, .call ⟨⟨1, false⟩, 30, 5⟩,
    .ret ⟨⟨1, false⟩, 30⟩, .nop ⟨1, false⟩, .exit ⟨1, false⟩] : List Instr), ∃ e, Issues i (teamWith scattered) e)
    ∧ ∃ e, Issues (.bra ⟨⟨1, false⟩, false, 4⟩) (teamWith scattered) e
      ∧ e.active = [0, 3] ∧ e.enabled ⟨1, false⟩ = [0] ∧ e.t.frags.length = 3 ∧ e.active ≠ [] :=
  ⟨all_issue (by decide +kernel), issues_of (by decide +kernel)⟩

/-- The last lanes of a team exit while another lane is parked. -/
theorem witness_Exits_last : ∃ e, Issues (.exit always) (teamWith fun t => { ofSeats [lane [] 0, lane [] 1] t with
      seats := [lane [] 0, { lane [] 1 with st := .parked }], frags := [Frag.at Place.image.tent 1] }) e
    ∧ e.t.frags.length ≤ 1 ∧ (∀ j ∈ e.active, j ∈ e.enabled always) ∧ (e.t.seat 1).st = .parked := issues_of (by decide +kernel)

/-- A team of one fragment; and NOP words with a D or an A. -/
theorem witness_NopChangesNothing : (∃ e, Issues (.nop always) (teamWith) e ∧ e.t.frags.length = 1)
    ∧ ((Fields.ofWord (wordOf 0x98 0 1 0 0 0 0)).op = 0x98 ∧ (Fields.ofWord (wordOf 0x98 0 1 0 0 0 0)).fn = 0
      ∧ (Fields.ofWord (wordOf 0x98 0 1 0 0 0 0)).d ≠ 0)
    ∧ (Fields.ofWord (wordOf 0x98 0 0 255 0 0 0)).op = 0x98 ∧ (Fields.ofWord (wordOf 0x98 0 0 255 0 0 0)).fn = 0
      ∧ (Fields.ofWord (wordOf 0x98 0 0 255 0 0 0)).a ≠ 0 := ⟨issues_of (by decide +kernel), by decide⟩

/-- SWR with a highest worker, and with no lane but a helper. -/
theorem witness_SystemRegisters_swr : (∃ e, Issues (.swr ⟨always, 31⟩) (teamWith (ofSeats [lane [] 0, lane [] 1])) e
      ∧ 1 ∈ e.workers always ∧ ∀ j ∈ e.workers always, j ≤ 1)
    ∧ ∃ e, Issues (.swr ⟨always, 31⟩) (teamWith (ofSeats [lane [] 0 0 true])) e ∧ e.workers always = [] :=
  ⟨issues_of (by decide +kernel), issues_of (by decide +kernel)⟩

/-- Pops of a decision that is there and of one that is not, before and after SEXIT; pushes with room and without. -/
theorem witness_Decisions : (∃ e, Issues (.dqpop 8) (teamWith id fun b => { b with dq := [7] }) e
      ∧ e.t.frags.length = 1 ∧ e.b.dq[e.t.dqPos - e.b.dqFreed]? = some 7)
    ∧ (∃ e, Issues (.bru 2) (teamWith id fun b => { b with dq := [0] }) e
      ∧ e.t.frags.length = 1 ∧ e.b.dq[e.t.dqPos - e.b.dqFreed]? = some 0)
    ∧ (∃ e, Issues (.bru 2) (teamWith) e ∧ e.t.frags.length = 1 ∧ e.b.dq[e.t.dqPos - e.b.dqFreed]? = none ∧ e.b.foyer.sexit = false)
    ∧ (∃ e, Issues (.dqpop 8) (teamWith id fun b => { b with foyer := { b.foyer with sexit := true } }) e
      ∧ e.t.frags.length = 1 ∧ e.b.dq[e.t.dqPos - e.b.dqFreed]? = none ∧ e.b.foyer.sexit = true)
    ∧ (∃ e, FIssues (.dqpush 6) (foyerWith id fun b => { b with dq := List.replicate 63 1 }) e ∧ e.b.dq.length < 64
      ∧ ∃ t ∈ e.b.teams, t.exited = false ∧ t.dqPos ≤ e.b.dqFreed + e.b.dq.length)
    ∧ ∃ e, FIssues (.dqpush 6) (foyerWith id fun b => { b with dq := List.replicate 64 1 }) e ∧ 64 ≤ e.b.dq.length := by
  and_intros <;> first
    | exact issues_of (by decide +kernel)
    | exact fissues_of (by decide +kernel)

theorem namesSelf_of {e : TEnv} {g : Guard} {r : VReg} {own : Nat → Prop}
    (h : ∀ k ∈ e.workers g, ((e.t.seat k).rd r.val).getLsbD (k % 32) = true) : NamesSelf e g (some r) own :=
  fun _ hr k hk _ => by cases hr; exact h k hk

/-- Two lanes, each named by the other's and its own mask; and two of which the second leaves itself out. -/
def naming : Team → Team := ofSeats [lane [(9, 3)] 0 2, lane [(9, 3)] 1]
def omitting : Team → Team := ofSeats [lane [(9, 3)] 0, lane [(9, 1)] 1]

/-- Votes with and without masks, of lanes that name themselves and of one that does not. -/
theorem witness_VotesAndBallots : (∃ e, Issues (.vote ⟨always, .all, 2, 1, some 9⟩) (teamWith naming) e
      ∧ NamesSelf e always (some 9) fun _ => True)
    ∧ (∃ e, Issues (.ballot ⟨always, 8, 5, some 9⟩) (teamWith naming) e ∧ NamesSelf e always (some 9) fun _ => True)
    ∧ (∃ e, Issues (.ballotIndexed ⟨always, 14, 1, 13, some 9⟩) (teamWith naming) e
      ∧ NamesSelf e always (some 9) fun k => ((e.t.seat k).rd 13).toNat = k / 32)
    ∧ (∃ e, Issues (.vote ⟨always, .any, 2, 1, none⟩) (teamWith naming) e ∧ Member e always 0 none none 1)
    ∧ (∃ e, Issues (.vote ⟨always, .all, 2, 1, some 9⟩) (teamWith omitting) e ∧ Omits e always (some 9) (fun _ => true) ≠ [])
    ∧ (∃ e, Issues (.ballot ⟨always, 8, 5, some 9⟩) (teamWith omitting) e ∧ Omits e always (some 9) (fun _ => true) ≠ [])
    ∧ ∃ e, Issues (.ballotIndexed ⟨always, 14, 1, 13, some 9⟩) (teamWith omitting) e
      ∧ Omits e always (some 9) (fun k => ((e.t.seat k).rd 13).toNat = k / 32) ≠ [] := by
  have hs (i : Instr) (h : _) : ∃ e, Issues i (teamWith naming) e
      ∧ ∀ k ∈ e.workers always, ((e.t.seat k).rd (9 : VReg).val).getLsbD (k % 32) = true := issues_of h
  refine ⟨?_, ?_, ?_, ?_, issues_of (by decide +kernel), issues_of (by decide +kernel), issues_of (by decide +kernel)⟩
  · exact (hs _ (by decide +kernel)).imp fun e h => ⟨h.1, namesSelf_of h.2⟩
  · exact (hs _ (by decide +kernel)).imp fun e h => ⟨h.1, namesSelf_of h.2⟩
  · exact (hs _ (by decide +kernel)).imp fun e h => ⟨h.1, namesSelf_of h.2⟩
  · have h : ∃ e, Issues (.vote ⟨always, .any, 2, 1, none⟩) (teamWith naming) e ∧ 1 ∈ e.workers always := issues_of (by decide +kernel)
    exact h.imp fun e h => ⟨h.1, h.2, by simp, by simp⟩

/-- Exchanges with and without a mask; the seat that a slide of one names; a lane left out of its mask. -/
theorem witness_Exchanges : (∃ e, Issues (.swx ⟨always, .slide, false, 12, 14, .imm 1, .w32, some 9⟩) (teamWith naming) e
      ∧ NamesSelf e always (some 9) (fun _ => True)
      ∧ swxNames ⟨always, .slide, false, 12, 14, .imm 1, .w32, some 9⟩ 0 (e.t.seat 0) 1 ∧ 1 ∈ e.enabled always)
    ∧ (∃ e, Issues (.swx ⟨always, .slide, false, 12, 14, .imm 1, .w32, none⟩) (teamWith naming) e
      ∧ ¬∃ t, swxNames ⟨always, .slide, false, 12, 14, .imm 1, .w32, none⟩ 31 (e.t.seat 31) t)
    ∧ (∃ e, Issues (.qxch ⟨always, .h, false, 6, 4⟩) (teamWith naming) e)
    ∧ ∃ e, Issues (.swx ⟨always, .pick, false, 12, 14, .imm 1, .w32, some 9⟩) (teamWith omitting) e
      ∧ Omits e always (some 9) (fun _ => true) ≠ [] := by
  refine ⟨?_, ?_, ?_, issues_of (by decide +kernel)⟩
  · have h : ∃ e, Issues (.swx ⟨always, .slide, false, 12, 14, .imm 1, .w32, some 9⟩) (teamWith naming) e
      ∧ (∀ k ∈ e.workers always, ((e.t.seat k).rd (9 : VReg).val).getLsbD (k % 32) = true) ∧ 1 ∈ e.enabled always :=
      issues_of (by decide +kernel)
    exact h.imp fun e h => ⟨h.1, namesSelf_of h.2.1, by simp only [swxNames, Claims.segment]; decide, h.2.2⟩
  · have h : ∃ e, Issues (.swx ⟨always, .slide, false, 12, 14, .imm 1, .w32, none⟩) (teamWith naming) e ∧ True := issues_of (by decide +kernel)
    exact h.imp fun e h => ⟨h.1, fun ⟨t, h⟩ => absurd h.2.1 (by simp only [Claims.segment]; decide)⟩
  · have h : ∃ e, Issues (.qxch ⟨always, .h, false, 6, 4⟩) (teamWith naming) e ∧ True := issues_of (by decide +kernel)
    exact h.imp fun e h => h.1

/-- One fragment with no map and with one; more than one fragment with each. -/
theorem witness_RegroupAndRegather :
    (∀ i ∈ ([.regroup 1 3, .regroupLit 1 3] : List Instr), ∃ e, Issues i (teamWith naming) e ∧ e.t.frags.length = 1 ∧ e.t.saved = none)
    ∧ (∀ i ∈ ([.regather 3, .regatherLit 3] : List Instr), ∃ e, Issues i (teamWith fun t => { naming t with saved := some [1, 0] }) e
      ∧ e.t.frags.length = 1 ∧ e.t.saved = some [1, 0] ∧ [1, 0].length = e.t.seats.length)
    ∧ (∃ e, Issues (.regroup 1 3) (teamWith scattered) e ∧ 1 < e.t.frags.length)
    ∧ (∃ e, Issues (.regroup 1 3) (teamWith fun t => { naming t with saved := some [1, 0] }) e ∧ e.t.frags.length ≤ 1 ∧ e.t.saved.isSome = true)
    ∧ (∃ e, Issues (.regather 3) (teamWith scattered) e ∧ e.t.saved = none)
    ∧ ∃ e, Issues (.regather 3) (teamWith fun t => { scattered t with saved := some [1, 0, 2, 3] }) e
      ∧ e.t.saved.isSome = true ∧ 1 < e.t.frags.length := by
  and_intros <;> first
    | exact all_issues_of (by decide +kernel)
    | exact issues_of (by decide +kernel)

/-- The page of the small launch with its data checked, or in the memory of device 1, to which a port leads. -/
def checkedPage (s : State) : State := { s with tlb := s.tlb.map fun t => { t with attrs := { t.attrs with checked := true } } }
def peerPage (s : State) : State :=
  { s with tlb := s.tlb.map fun t => { t with pa := 2 ^ 51 + 2 ^ 45 }
           peerrt := Regs.set s.peerrt 1 1, ports := [⟨0, true, 1, 4096, false⟩], mydev := 0 }

/-- An address register pair of each lane in the page: a lane, and the quad's helper. -/
def addressed : Team → Team := ofSeats [lane [(4, 0x10040), (1, 7)] 0, lane [(4, 0x10080), (1, 9)] 1, lane [(4, 0x100C0)] 2 0 true]

/-- Loads that perform: global and on-chip, with and without an acquire, in lanes and a helper; a slice; a posted level. -/
theorem witness_Loads : (∃ e as s1, Issues (.ld ⟨always, 6, 4, .b32, 0⟩) (teamWith addressed) e
      ∧ Granted (teamWith addressed) e .global (loadSize .b32).2 .load .plainLoad (accessing e always .global 4 0) as s1
      ∧ e.enabled always ≠ [] ∧ (0 ∈ e.workers always ∧ 2 ∉ e.workers always ∧ 2 ∈ e.enabled always ∧ (e.t.seat 2).helper = true))
    ∧ (∃ e as s1, Issues (.ldLevel ⟨always, 8, 4, .global, .b128, some .sys, 0⟩) (teamWith addressed id checkedPage) e
      ∧ Granted (teamWith addressed id checkedPage) e .global (loadSize .b128).2 .load .syncRead (accessing e always .global 4 0) as s1
      ∧ e.enabled always ≠ [])
    ∧ (∃ e as s1, Issues (.ldLevel ⟨always, 6, 20, .slice, .i8, none, 0x7FF⟩) (teamWith addressed) e
      ∧ Granted (teamWith addressed) e .slice (loadSize .i8).2 .load .plainLoad (accessing e always .slice 20 0x7FF) as s1
      ∧ e.enabled always ≠ [] ∧ 6 + 0 < (e.t.seat 0).vregs.length)
    ∧ ∃ e as s1, Issues (.ldLevel ⟨always, 6, 20, .scratch, .n16, some .core, 0⟩) (teamWith fun t => { addressed t with scratch := 254 }) e
      ∧ Granted (teamWith fun t => { addressed t with scratch := 254 }) e .scratch (loadSize .n16).2 .load .syncRead
          (accessing e always .scratch 20 0) as s1
      ∧ e.enabled always ≠ [] ∧ e.t.scratch < 255 := by
  and_intros <;> exact granted_of (by decide +kernel)

/-- Stores that perform: to addresses that do not meet on an unchecked page, to a checked one, and to each on-chip level. -/
theorem witness_Stores : (∃ e as s1, Issues (.st ⟨always, 8, 4, .b64, 0⟩) (teamWith addressed) e
      ∧ Granted (teamWith addressed) e .global (storeSize .b64) .store .plainStore (accessing e always .global 4 0) as s1
      ∧ s1.Inv ∧ as.length = 2 ∧ as.Pairwise (fun a c => a.at_ + storeSize .b64 ≤ c.at_ ∨ c.at_ + storeSize .b64 ≤ a.at_)
      ∧ (∀ x ∈ as, x.at_ % storeSize .b64 = 0 ∧ x.tr.all (fun t => !t.attrs.checked && !isPeer t.pa) = true))
    ∧ (∃ e as s1, Issues (.stLevel ⟨always, 8, 4, .global, .b8, some .dev, 0⟩) (teamWith addressed id checkedPage) e
      ∧ Granted (teamWith addressed id checkedPage) e .global (storeSize .b8) .store .syncWrite (accessing e always .global 4 0) as s1
      ∧ s1.Inv)
    ∧ (∃ e as s1, Issues (.stLevel ⟨always, 8, 20, .cluster, .b16, none, 0⟩) (teamWith (regs [(20, 4096)])) e
      ∧ Granted (teamWith (regs [(20, 4096)])) e .cluster (storeSize .b16) .store .plainStore (accessing e always .cluster 20 0) as s1
      ∧ s1.Inv ∧ (levelMem e.l e.b .cluster).wf = true ∧ ∃ z ∈ e.l.groups, z.id = e.b.id / e.l.img.clg)
    ∧ ∃ e as s1, Issues (.stLevel ⟨always, 8, 20, .pantry, .b32, none, 0⟩)
          (teamWith (regs [(20, 65532)]) id (withLaunch fun l => { l with pant := 65536 })) e
      ∧ Granted (teamWith (regs [(20, 65532)]) id (withLaunch fun l => { l with pant := 65536 })) e .pantry (storeSize .b32) .store .plainStore
          (accessing e always .pantry 20 0) as s1
      ∧ s1.Inv ∧ (levelMem e.l e.b .pantry).wf = true ∧ ∃ z ∈ e.l.pantry, z.1 = e.b.runsOn.die := by
  and_intros <;> exact granted_of (by decide +kernel)

/-- Accesses that fail: one lane of two at a wrong alignment; an address outside every page; and an offset one byte above the
last that fits. -/
theorem witness_AccessFaults :
    (∃ e, Issues (.ld ⟨always, 6, 4, .b32, 0⟩) (teamWith (ofSeats [lane [(4, 0x10040)] 0, lane [(4, 0x10081)] 1])) e ∧ e.t.scratch < 255
      ∧ (checkLanes (teamWith (ofSeats [lane [(4, 0x10040)] 0, lane [(4, 0x10081)] 1])) e .global (loadSize .b32).2 .load
          (accessing e always .global 4 0)).2 = [(1, 0x10081, ⟨0x23#8, none⟩)])
    ∧ (∃ e, Issues (.st ⟨always, 6, 4, .b32, 0⟩) (teamWith (regs [(4, 0x20000)])) e ∧ e.t.scratch < 255
      ∧ (checkLanes (teamWith (regs [(4, 0x20000)])) e .global (storeSize .b32) .store (accessing e always .global 4 0)).2
          = [(0, 0x20000, ⟨0x20#8, none⟩)])
    ∧ (∃ e, Issues (.stLevel ⟨always, 6, 4, .scratch, .b8, none, 0⟩) (teamWith (regs [(4, 4096)])) e ∧ e.t.scratch < 255
      ∧ (checkLanes (teamWith (regs [(4, 4096)])) e .scratch (storeSize .b8) .store (accessing e always .scratch 4 0)).2
          = [(0, 4096, ⟨0x25#8, none⟩)])
    ∧ (¬Canonical 0x200000000000000 ∧ Canonical 0x7FFFFFFFFFFFFE ∧ Canonical 0xFF00000000000000 ∧ (0x7FFFFFFFFFFFFE : DWord).toNat % 4 ≠ 0)
    ∧ Level.pantry ≠ .global :=
  ⟨issues_of (by decide +kernel), issues_of (by decide +kernel), issues_of (by decide +kernel), by unfold Canonical; decide, by decide⟩

/-- A translation of the last bytes of a line on an unchecked page, a checked one, and one of peer memory; an L1 with a dirty
byte. -/
def trAt (pa : Nat) (checked : Bool) : Tr := ⟨pa, pa, 12, ⟨true, true, true, checked, none, true, true⟩, true, 0, none, 0, 0⟩
theorem witness_GlobalReads : ((trAt 0x1007F false).pa % 128 + 1 ≤ 128 ∧ 0 < 1 ∧ (trAt 0x1007F false).attrs.checked = false
      ∧ isPeer (trAt 0x1007F false).pa = false)
    ∧ ((trAt 0x10070 true).attrs.checked = true ∧ (trAt 0x10070 true).pa % 128 + 16 ≤ 128) ∧ isPeer (trAt (2 ^ 51) false).pa = true
    ∧ (teamWith).Inv := by decide +kernel

/-- Old values at both ends of a width. -/
theorem witness_AtomicValues : (2 ^ 32 - 1 < 2 ^ (if false = true then 64 else 32) ∧ 2 ^ 64 - 1 < 2 ^ (if true = true then 64 else 32))
    ∧ ∀ bs : List Byte, bs.length = 4 → (bs.reverse).length = 4 := ⟨by decide, fun bs h => by simp [h]⟩

/-- Atomics that perform at each kind of level, and in peer memory; scopes that a level does not allow. -/
theorem witness_Atomics : (∃ e as s1, Issues (.atom ⟨always, 14, 16, 4, .op .add, .global, true, .ar, .clu⟩) (teamWith addressed) e
      ∧ Granted (teamWith addressed) e .global 8 .atomic .syncWrite (accessing e always .global 4 0) as s1
      ∧ e.enabled always ≠ [] ∧ scopeAllowed .global .clu = true ∧ ∀ a ∈ as, a.tr.all (fun t => !isPeer t.pa) = true)
    ∧ (∃ e as s1, Issues (.atom ⟨always, 14, 15, 20, .cas 16, .scratch, false, .none, .core⟩) (teamWith addressed) e
      ∧ Granted (teamWith addressed) e .scratch 4 .atomic .syncWrite (accessing e always .scratch 20 0) as s1
      ∧ e.enabled always ≠ [] ∧ scopeAllowed .scratch .core = true)
    ∧ (∃ e as s1, Issues (.atom ⟨always, 14, 15, 4, .op .exch, .global, false, .none, .sys⟩) (teamWith addressed id peerPage) e
      ∧ Granted (teamWith addressed id peerPage) e .global 4 .atomic .syncWrite (accessing e always .global 4 0) as s1
      ∧ e.enabled always ≠ [] ∧ ∃ a ∈ as, a.tr.any (fun t => isPeer t.pa) = true)
    ∧ (∃ e as s1, Issues (.atom ⟨always, 14, 15, 4, .op .exch, .global, false, .none, .dev⟩) (teamWith addressed id peerPage) e
      ∧ Granted (teamWith addressed id peerPage) e .global 4 .atomic .syncWrite (accessing e always .global 4 0) as s1
      ∧ ∃ a ∈ as, a.tr.any (fun t => isPeer t.pa) = true)
    ∧ ∃ e as s1, Issues (.atom ⟨always, 14, 15, 20, .op .add, .pantry, false, .none, .dev⟩)
          (teamWith addressed id (withLaunch fun l => { l with pant := 65536 })) e
      ∧ Granted (teamWith addressed id (withLaunch fun l => { l with pant := 65536 })) e .pantry 4 .atomic .syncWrite
          (accessing e always .pantry 20 0) as s1
      ∧ scopeAllowed .pantry .dev = false := by
  and_intros <;> exact granted_of (by decide +kernel)

/-- Loads and an atomic of a fragment of which no lane is enabled. -/
theorem witness_AccessesOfNone :
    (∃ e as s1, Issues (.ld ⟨⟨1, false⟩, 6, 4, .b32, 0⟩) (teamWith addressed) e
      ∧ Granted (teamWith addressed) e .global (loadSize .b32).2 .load .plainLoad (accessing e ⟨1, false⟩ .global 4 0) as s1 ∧ e.enabled ⟨1, false⟩ = [])
    ∧ ∃ e as s1, Issues (.atom ⟨⟨1, false⟩, 14, 16, 4, .op .add, .global, true, .ar, .clu⟩) (teamWith addressed) e
      ∧ Granted (teamWith addressed) e .global 8 .atomic .syncWrite (accessing e ⟨1, false⟩ .global 4 0) as s1 ∧ e.enabled ⟨1, false⟩ = [] :=
  ⟨granted_of (by decide +kernel), granted_of (by decide +kernel)⟩

/-- A checked page of which no L1 holds a line. -/
theorem witness_Undisturbed : Undisturbed (teamWith) ⟨0, 0, 0⟩ (trAt 0x10070 true)
    ∧ ∀ v x, ((teamWith).l1Of v).find ((trAt 0x10070 true).pa / 128) = some x → x.dirty.getLsbD ((trAt 0x10070 true).pa % 128 + 0) = false := by
  refine ⟨fun _ v _ x hx => ?_, fun v x hx => ?_⟩ <;>
  · have hn : none = some x := hx
    cases hn

/-- A Foyer context and a run whose s1 holds an address in the page. -/
def scalarAt (rs : List (Nat × DWord)) (f : Foyer) : Foyer := { f with s := rs.foldl (fun s p => s.set p.1 p.2) f.s }
def runAt_ (rs : List (Nat × DWord)) (p : Prologue) : Prologue := { p with s := rs.foldl (fun s q => s.set q.1 q.2) p.s }

theorem witness_FoyerMemory : (∃ e t s1, FIssues (.sld ⟨3, 1, .b64, 8⟩) (foyerWith (scalarAt [(1, 0x10000)])) e
      ∧ FGranted (foyerWith (scalarAt [(1, 0x10000)])) e (e.b.foyer.rd 1 + BitVec.ofInt 64 (8 : BitVec 21).toInt) (sldBytes .b64) .load .plainLoad t s1
      ∧ True)
    ∧ (∃ e t s1, FIssues (.sst ⟨3, 1, .b8, 0x1FFFFF⟩) (foyerWith (scalarAt [(1, 0x10001)])) e
      ∧ FGranted (foyerWith (scalarAt [(1, 0x10001)])) e (e.b.foyer.rd 1 + BitVec.ofInt 64 (0x1FFFFF : BitVec 21).toInt) (sstBytes .b8) .store
          .plainStore t s1
      ∧ s1.Inv ∧ t.attrs.checked = false ∧ isPeer t.pa = false ∧ t.pa % sstBytes .b8 = 0)
    ∧ ∃ e t s1, FIssues (.satom ⟨3, 2, 1, .op (.min true), false, .ar, .die⟩) (foyerWith (scalarAt [(1, 0x10000)])) e
      ∧ FGranted (foyerWith (scalarAt [(1, 0x10000)])) e (e.b.foyer.rd 1) 4 .atomic .syncWrite t s1
      ∧ isPeer t.pa = false := by
  and_intros <;> exact fgranted_of (by decide +kernel)

theorem witness_PrologueMemory : (∃ e t s1, PIssues (.sld ⟨3, 1, .b64, 8⟩) (runWith (runAt_ [(1, 0x10000)])) e
      ∧ PGranted (runWith (runAt_ [(1, 0x10000)])) e (e.p.rd 1 + BitVec.ofInt 64 (8 : BitVec 21).toInt) (sldBytes .b64) .load .plainLoad t s1
      ∧ e.p.steps + 1 < 4096 ∧ (3 : SReg).val < e.p.s.length)
    ∧ (∃ e t s1, PIssues (.sld ⟨15, 1, .i8, 8⟩) (runWith fun p => { runAt_ [(1, 0x10000)] p with steps := 4095 }) e
      ∧ PGranted (runWith fun p => { runAt_ [(1, 0x10000)] p with steps := 4095 }) e (e.p.rd 1 + BitVec.ofInt 64 (8 : BitVec 21).toInt) (sldBytes .i8)
          .load .plainLoad t s1
      ∧ 4096 ≤ e.p.steps + 1)
    ∧ (∃ e t s1, PIssues (.sst ⟨3, 1, .b32, 0⟩) (runWith (runAt_ [(1, 0x10FFC)])) e
      ∧ PGranted (runWith (runAt_ [(1, 0x10FFC)])) e (e.p.rd 1 + BitVec.ofInt 64 (0 : BitVec 21).toInt) (sstBytes .b32) .store .plainStore t s1
      ∧ s1.Inv)
    ∧ ∃ e t s1, PIssues (.satom ⟨3, 2, 1, .cas 4, true, .none, .sys⟩) (runWith (runAt_ [(1, 0x10000)])) e
      ∧ PGranted (runWith (runAt_ [(1, 0x10000)])) e (e.p.rd 1) 8 .atomic .syncWrite t s1 ∧ s1.Inv ∧ isPeer t.pa = false := by
  and_intros <;> exact pgranted_of (by decide +kernel)

theorem witness_ScalarArithmetic_1 : (∀ i ∈ ([.sadd ⟨5, 6, 7⟩, .saddImm ⟨5, 6, 0x1FFFFFFF⟩, .saddLit ⟨5, 6, 0xFEDCBA9876543210⟩,
    .ssub ⟨5, 6, 7⟩, .ssubImm ⟨5, 6, 0x1FFFFFFF⟩, .ssubLit ⟨5, 6, 0xFEDCBA9876543210⟩,
    .smul ⟨5, 6, 7⟩, .smulImm ⟨5, 6, 0x1FFFFFFF⟩, .smulLit ⟨5, 6, 0xFEDCBA9876543210⟩,
    .sand ⟨5, 6, 7⟩, .sandImm ⟨5, 6, 0x1FFFFFFF⟩, .sandLit ⟨5, 6, 0xFEDCBA9876543210⟩] : List Instr),
    ∃ e, FIssues i (foyerWith) e) ∧ ∀ i ∈ ([.sadd ⟨5, 6, 7⟩, .saddImm ⟨5, 6, 0x1FFFFFFF⟩, .saddLit ⟨5, 6, 0xFEDCBA9876543210⟩,
    .ssub ⟨5, 6, 7⟩, .ssubImm ⟨5, 6, 0x1FFFFFFF⟩, .ssubLit ⟨5, 6, 0xFEDCBA9876543210⟩,
    .smul ⟨5, 6, 7⟩, .smulImm ⟨5, 6, 0x1FFFFFFF⟩, .smulLit ⟨5, 6, 0xFEDCBA9876543210⟩,
    .sand ⟨5, 6, 7⟩, .sandImm ⟨5, 6, 0x1FFFFFFF⟩, .sandLit ⟨5, 6, 0xFEDCBA9876543210⟩] : List Instr),
    ∃ e, PIssues i (runWith) e := ⟨all_fissue (by decide +kernel), all_pissue (by decide +kernel)⟩

theorem witness_ScalarArithmetic_2 : (∀ i ∈ ([.sor ⟨5, 6, 7⟩, .sorImm ⟨5, 6, 0x1FFFFFFF⟩, .sorLit ⟨5, 6, 0xFEDCBA9876543210⟩,
    .sxor ⟨5, 6, 7⟩, .sxorImm ⟨5, 6, 0x1FFFFFFF⟩, .sxorLit ⟨5, 6, 0xFEDCBA9876543210⟩,
    .sshl ⟨5, 6, 7⟩, .sshlImm ⟨5, 6, 0x1FFFFFFF⟩, .sshlLit ⟨5, 6, 0xFEDCBA9876543210⟩,
    .sshr ⟨5, 6, 7⟩, .sshrImm ⟨5, 6, 0x1FFFFFFF⟩, .sshrLit ⟨5, 6, 0xFEDCBA9876543210⟩] : List Instr),
    ∃ e, FIssues i (foyerWith) e) ∧ ∀ i ∈ ([.sor ⟨5, 6, 7⟩, .sorImm ⟨5, 6, 0x1FFFFFFF⟩, .sorLit ⟨5, 6, 0xFEDCBA9876543210⟩,
    .sxor ⟨5, 6, 7⟩, .sxorImm ⟨5, 6, 0x1FFFFFFF⟩, .sxorLit ⟨5, 6, 0xFEDCBA9876543210⟩,
    .sshl ⟨5, 6, 7⟩, .sshlImm ⟨5, 6, 0x1FFFFFFF⟩, .sshlLit ⟨5, 6, 0xFEDCBA9876543210⟩,
    .sshr ⟨5, 6, 7⟩, .sshrImm ⟨5, 6, 0x1FFFFFFF⟩, .sshrLit ⟨5, 6, 0xFEDCBA9876543210⟩] : List Instr),
    ∃ e, PIssues i (runWith) e := ⟨all_fissue (by decide +kernel), all_pissue (by decide +kernel)⟩

theorem witness_ScalarArithmetic_3 : (∀ i ∈ ([.ssar ⟨5, 6, 7⟩, .ssarImm ⟨5, 6, 0x1FFFFFFF⟩, .ssarLit ⟨5, 6, 0xFEDCBA9876543210⟩,
    .smov 5 6, .smovi 5 9, .smovl 5 9,
    .ssel ⟨5, 6, 7, 8⟩, .scmp ⟨6, 5, 3, false, .ge⟩, .scmpImm ⟨6, 5, true, .ne, 4⟩,
    .sbra 0x1FFFFFFF, .sbz ⟨6, 3⟩, .sbnz ⟨6, 3⟩] : List Instr),
    ∃ e, FIssues i (foyerWith) e) ∧ ∀ i ∈ ([.ssar ⟨5, 6, 7⟩, .ssarImm ⟨5, 6, 0x1FFFFFFF⟩, .ssarLit ⟨5, 6, 0xFEDCBA9876543210⟩,
    .smov 5 6, .smovi 5 9, .smovl 5 9,
    .ssel ⟨5, 6, 7, 8⟩, .scmp ⟨6, 5, 3, false, .ge⟩, .scmpImm ⟨6, 5, true, .ne, 4⟩,
    .sbra 0x1FFFFFFF, .sbz ⟨6, 3⟩, .sbnz ⟨6, 3⟩] : List Instr),
    ∃ e, PIssues i (runWith) e := ⟨all_fissue (by decide +kernel), all_pissue (by decide +kernel)⟩

/-- Registers of both streams up to the last. -/
theorem witness_ScalarArithmetic_registers : (63 : SReg).val < (onlyFoyer (foyerWith)).s.length
    ∧ (∀ p ∈ (runWith).prologues, (15 : SReg).val < p.s.length ∧ p.steps < 4096) := by decide +kernel

/-- SBRA with IMM 0 in a run and the calls and returns that end one; the forms of a kernel's Foyer context. -/
theorem witness_ScalarControl : (∃ e, PIssues (.sbra 0) (runWith) e)
    ∧ (∀ i ∈ ([.scall ⟨7, 3⟩, .sret 7, .sexit, .sbra 1] : List Instr), ∃ e, FIssues i (foyerWith) e)
    ∧ (7 : SReg).val < (onlyFoyer (foyerWith)).s.length
    ∧ ((runWith).inPrologue = true ∧ (runWith).prologueEnv.isSome = true) :=
  ⟨(all_pissue (is := [.sbra 0]) (by decide +kernel)) _ (by simp), all_fissue (by decide +kernel), by decide +kernel, by decide +kernel⟩

/-- A run whose s1 holds the address of a LAUNCH packet: one that starts, one that is refused because no image stands at its
KADDR, one whose NBLK is 0, and one at an address that no page has. -/
def plaunching (pkt : List Byte) (at_ : DWord := 0x10400) : State :=
  runWith (fun p => { p with s := p.s.set 1 at_ }) fun s => stored 0x10400 pkt (stored 0x10000 kernel s)

/-- The checks on a LAUNCH packet pass, and the launch then starts; or they refuse it for a reason. -/
def Starts (r : LaunchCheck) (go : State → Image → Eng Nat) : Bool :=
  match r with
  | .ok s i => match go s i with
    | .ok _ _ => true
    | _ => false
  | _ => false
def RefusedBy (r : LaunchCheck) (n : Nat) : Bool :=
  match r with
  | .refused _ m => m == n
  | _ => false
theorem started_of {r : LaunchCheck} {go : State → Image → Eng Nat} (h : Starts r go = true) :
    ∃ s i s' l, r = .ok s i ∧ go s i = .ok s' l := by
  unfold Starts at h
  split at h
  next s i =>
    split at h
    next s' l hg => exact ⟨s, i, s', l, rfl, hg⟩
    next => simp at h
  next => simp at h
theorem refused_of {r : LaunchCheck} {n : Nat} (h : RefusedBy r n = true) : ∃ s, r = .refused s n := by
  cases r <;> simp_all [RefusedBy]

theorem witness_PrologueEnds : (∃ e, PIssues (.pcancel 4) (runWith) e)
    ∧ (∃ e, PIssues (.plaunch 1) (plaunching (launchOf 0x10000)) e
      ∧ ∃ s1 bs, (plaunching (launchOf 0x10000)).devRead (.prologue e.p.key) e.q.asid (e.p.rd 1) .plainLoad 64 64 = .ok s1 bs
        ∧ pkBits bs 0 8 = 1 ∧ packetOk (withoutPh bs) = true ∧ ∃ s2 i s3 l, checkedLaunch s1 e.q e.p.key (withoutPh bs) = .ok s2 i
          ∧ beginLaunch s2 e.q e.p.key (withoutPh bs) i = .ok s3 l)
    ∧ (∃ e, PIssues (.prepeat 1) (plaunching (launchOf 0x11000)) e
      ∧ ∃ s1 bs, (plaunching (launchOf 0x11000)).devRead (.prologue e.p.key) e.q.asid (e.p.rd 1) .plainLoad 64 64 = .ok s1 bs
        ∧ pkBits bs 0 8 = 1 ∧ packetOk (withoutPh bs) = true ∧ ∃ s2, checkedLaunch s1 e.q e.p.key (withoutPh bs) = .refused s2 7)
    ∧ (∃ e, PIssues (.plaunch 1) (plaunching (leBytes 8 1 ++ leBytes 56 0)) e
      ∧ ∃ s1 bs, (plaunching (leBytes 8 1 ++ leBytes 56 0)).devRead (.prologue e.p.key) e.q.asid (e.p.rd 1) .plainLoad 64 64 = .ok s1 bs
        ∧ packetOk (withoutPh bs) = false)
    ∧ (∃ e, PIssues (.plaunch 1) (plaunching [] 0x20000) e
      ∧ ∃ s1 w, (plaunching [] 0x20000).devRead (.prologue e.p.key) e.q.asid (e.p.rd 1) .plainLoad 64 64 = .fail s1 w ∧ true = true)
    ∧ ((foyerWith).inPrologue = false ∧ (foyerWith).foyerEnv.isSome = true)
    ∧ (runWith).inPrologue = true ∧ (runWith).prologueEnv.isSome = true ∧ ∃ r ∈ sregs (.plaunch 16), 16 ≤ r.val := by
  refine ⟨all_pissue (is := [.pcancel 4]) (by decide +kernel) _ (by simp), ?_, ?_, ?_, ?_, ?_⟩
  case refine_5 => and_intros <;> decide +kernel
  · exact pissues_ex (fun e => Ends ((plaunching (launchOf 0x10000)).devRead (.prologue e.p.key) e.q.asid (e.p.rd 1) .plainLoad 64 64) fun s1 bs =>
      decide (pkBits bs 0 8 = 1) && packetOk (withoutPh bs) && Starts (checkedLaunch s1 e.q e.p.key (withoutPh bs)) (fun s i => beginLaunch s e.q e.p.key (withoutPh bs) i))
      (fun e h => ok_of (fun s1 bs h => by
        simp only [Bool.and_eq_true, decide_eq_true_eq] at h; exact ⟨h.1.1, h.1.2, started_of h.2⟩) h) (by decide +kernel)
  · exact pissues_ex (fun e => Ends ((plaunching (launchOf 0x11000)).devRead (.prologue e.p.key) e.q.asid (e.p.rd 1) .plainLoad 64 64) fun s1 bs =>
      decide (pkBits bs 0 8 = 1) && packetOk (withoutPh bs) && RefusedBy (checkedLaunch s1 e.q e.p.key (withoutPh bs)) 7)
      (fun e h => ok_of (fun s1 bs h => by
        simp only [Bool.and_eq_true, decide_eq_true_eq] at h; exact ⟨h.1.1, h.1.2, refused_of h.2⟩) h) (by decide +kernel)
  · exact pissues_ex (fun e => Ends ((plaunching (leBytes 8 1 ++ leBytes 56 0)).devRead (.prologue e.p.key) e.q.asid (e.p.rd 1) .plainLoad 64 64)
      fun _ bs => !packetOk (withoutPh bs)) (fun e h => ok_of (fun s1 bs h => by simpa using h) h) (by decide +kernel)
  · exact pissues_ex (fun e => Fails ((plaunching [] 0x20000).devRead (.prologue e.p.key) e.q.asid (e.p.rd 1) .plainLoad 64 64) fun _ => true)
      (fun e h => fail_of h) (by decide +kernel)

/-- A stream of 256 requests that are not complete. -/
def fullStream (f : Func) : Func :=
  { f with stream := ⟨List.replicate 256 ⟨1, 1, 0, false, 0, 0, none, none, .queued, none, none⟩, 257, 0⟩ }
/-- Requests with room and without; a slot that is bound. -/
theorem witness_FormatSlots : (∃ e, FIssues (.fmbind ⟨5, 6, 7, 3⟩) (foyerWith) e
      ∧ (∃ f, (foyerWith).func e.l.fn = some f ∧ f.stream.reqs.length < 256) ∧ (5 : SReg).val < e.b.foyer.s.length)
    ∧ (∃ e, FIssues (.fmswap ⟨5, 6, 7, 3⟩)
        (foyerWith id id (withFunc fullStream)) e
      ∧ ∃ f, (foyerWith id id (withFunc fullStream)).func
          e.l.fn = some f ∧ 256 ≤ f.stream.reqs.length)
    ∧ ∃ e, FIssues (.fmquery 5 0) (foyerWith id id (bound)) e
      ∧ (∃ b, (foyerWith id id (bound)).bindEntry e.l.asid 0 = some b ∧ b.pend = 0)
      ∧ ∃ y, (foyerWith id id (bound)).boundTo e.l.asid 0 = some y ∧ y.ct.ew < 64 ∧ y.ct.cb < 256 ∧ y.ct.fid < 65536 := by
  refine ⟨?_, ?_, ?_⟩
  · exact fissues_ex (fun e => ((foyerWith).func e.l.fn).any (fun f => f.stream.reqs.length < 256) && decide ((5 : SReg).val < e.b.foyer.s.length))
      (fun e h => by simp only [Bool.and_eq_true, Option.any_eq_true, decide_eq_true_eq] at h; exact h) (by decide +kernel)
  · exact fissues_ex (fun e => ((foyerWith id id (withFunc fullStream)).func e.l.fn).any fun f => decide (256 ≤ f.stream.reqs.length))
      (fun e h => by simp only [Option.any_eq_true, decide_eq_true_eq] at h; exact h) (by decide +kernel)
  · exact fissues_ex (fun e => ((foyerWith id id (bound)).bindEntry e.l.asid 0).any (fun b => b.pend == 0)
      && ((foyerWith id id (bound)).boundTo e.l.asid 0).any fun y => decide (y.ct.ew < 64 ∧ y.ct.cb < 256 ∧ y.ct.fid < 65536))
      (fun e h => by simp only [Bool.and_eq_true, Option.any_eq_true, decide_eq_true_eq, beq_iff_eq] at h; exact h) (by decide +kernel)

/-- A pending load of register 100, and of s40. -/
def pending : Pending := ⟨100, 1, [some [7]], false, 0, []⟩

/-- Fences of teams and Foyer contexts with and without pending data; a line of the FIFO with a dirty byte. -/
theorem witness_Fences : (∃ e, Issues (.fence ⟨.ar, .clu⟩) (teamWith) e ∧ (teamWith).Inv ∧ e.t.pend = [])
    ∧ (∃ e, Issues (.fence ⟨.rel, .sys⟩) (teamWith fun t => { t with pend := [pending] }) e ∧ (teamWith).Inv)
    ∧ (∃ e, Issues (.fence ⟨.acq, .team⟩) (teamWith fun t => { t with pend := [pending] }) e ∧ FenceOrd.acq ≠ .rel ∧ e.t.pend ≠ [])
    ∧ (∃ e, FIssues (.sfence ⟨.acq, .dev⟩) (foyerWith) e ∧ (foyerWith).Inv ∧ e.b.foyer.pend = [])
    ∧ (∃ e, FIssues (.sfence ⟨.ar, .die⟩) (foyerWith fun f => { f with pend := [⟨40, 7, 0, none⟩] }) e ∧ FenceOrd.ar ≠ .rel ∧ e.b.foyer.pend ≠ [])
    ∧ beyondCore .clu = true ∧ beyondCore .core = false := by
  and_intros <;> first
    | exact issues_of (by decide +kernel)
    | exact fissues_of (by decide +kernel)
    | decide +kernel

/-- Arrivals: by one of two fragments; a second one of the same team, and one with another CNT; the last of a block and of a
group, and one that is not the last while another team waits; a wait whose phase is over and one whose phase is not. -/
def two (b : Block) : Block := { b with teams := b.teams ++ b.teams.map fun t => { t with bar := some ⟨1, false, false⟩ } }
theorem witness_NamedBarriers : (∃ e, Issues (.bar ⟨1, false, 0⟩) (teamWith scattered) e ∧ 1 < e.t.frags.length)
    ∧ (∃ e, Issues (.bar ⟨1, false, 0⟩) (teamWith id fun b => two { b with bars := [(1, ⟨0, 0, true, 1⟩)] }) e
      ∧ e.t.frags.length = 1 ∧ e.t.bar = none ∧ (e.barNow false 1).arr.getLsbD (arrivalNo e false) = true)
    ∧ (∃ e, Issues (.barArv ⟨1, false, 3⟩) (teamWith id fun b => two { b with bars := [(1, ⟨0, 8, true, 2⟩)] }) e
      ∧ e.t.frags.length = 1 ∧ e.t.bar = none ∧ (e.barNow false 1).isOpen = true ∧ (e.barNow false 1).cnt ≠ 3)
    ∧ (∃ e, Issues (.bar ⟨1, false, 0⟩) (teamWith id fun b => two { b with bars := [(1, ⟨0, 0, true, 2⟩)] }) e
      ∧ e.t.frags.length = 1 ∧ e.t.bar = none ∧ (e.barNow false 1).arr.getLsbD (arrivalNo e false) = false ∧ (e.barNow false 1).cnt = 0
      ∧ (teamWith id fun b => two { b with bars := [(1, ⟨0, 0, true, 2⟩)] }).Inv
      ∧ ∃ w, (e.b.teams[1]?.bind Team.bar) = some w ∧ w.clu = false ∧ w.bn = 1)
    ∧ (∃ e, Issues (.barArv ⟨15, true, 32⟩) (teamWith) e
      ∧ e.t.frags.length = 1 ∧ e.t.bar = none ∧ (e.barNow true 15).arr.getLsbD (arrivalNo e true) = false ∧ (e.barNow true 15).isOpen = false
      ∧ ∃ g ∈ e.l.groups, g.id = e.b.id / e.l.img.clg)
    ∧ (∃ e, Issues (.bar ⟨1, false, 0⟩) (teamWith fun t => { t with bar := some ⟨1, false, false⟩ }) e
      ∧ e.t.frags.length = 1 ∧ e.t.bar = some ⟨1, false, false⟩)
    ∧ ∃ e, Issues (.bar ⟨1, false, 0⟩) (teamWith fun t => { t with bar := some ⟨1, false, true⟩ }) e
      ∧ e.t.frags.length = 1 ∧ e.t.bar = some ⟨1, false, true⟩ := by
  refine ⟨issues_of (by decide +kernel), issues_of (by decide +kernel), issues_of (by decide +kernel), ?_, issues_of (by decide +kernel),
    issues_of (by decide +kernel), issues_of (by decide +kernel)⟩
  have h : ∃ e, Issues (.bar ⟨1, false, 0⟩) (teamWith id fun b => two { b with bars := [(1, ⟨0, 0, true, 2⟩)] }) e
      ∧ e.t.frags.length = 1 ∧ e.t.bar = none ∧ (e.barNow false 1).arr.getLsbD (arrivalNo e false) = false ∧ (e.barNow false 1).cnt = 0
      ∧ (teamWith id fun b => two { b with bars := [(1, ⟨0, 0, true, 2⟩)] }).Inv
      ∧ (e.b.teams[1]?.bind Team.bar) = some ⟨1, false, false⟩ := issues_of (by decide +kernel)
  exact h.imp fun e h => ⟨h.1, h.2.1, h.2.2.1, h.2.2.2.1, h.2.2.2.2.1, h.2.2.2.2.2.1, _, h.2.2.2.2.2.2, rfl, rfl⟩

/-- A barrier object in the page: EXPECT, PENDING and PHASE; a lane that names it, with a count in r7. -/
def object (x p ph : Nat) (s : State) : State := stored 0x10040 (leBytes 4 x ++ leBytes 4 p ++ leBytes 4 ph ++ leBytes 4 0) s
def atObject (n : Word) : Team → Team := regs [(6, 0x10040), (10, n), (8, 5)]

theorem elected_of {e : TEnv} {g : Guard} {k : Nat} (h : decide (k ∈ e.workers g ∧ ∀ j ∈ e.workers g, k ≤ j) = true) : Elected e g k := by
  simpa [Elected] using h

/-- The elected lane is the first; its one access is granted, and q holds of it, its translation and the state that it leaves. -/
def OneAccess (s : State) (e : TEnv) (g : Guard) (n : Nat) (kind : AKind) (mk : MKind) (va : DWord) (q : Acc → Tr → State → Bool) : Bool :=
  let r := checkLanes s e .global n kind [(0, va)]
  let c := commitAll s e.b.die e.l.asid kind r.1
  match r.1 with
  | [a] => decide (r.2 = [] ∧ c.2 = true ∧ s.conflictIn e.agent a n mk = none)
      && decide (0 ∈ e.workers g ∧ ∀ j ∈ e.workers g, 0 ≤ j) && a.tr.any fun t => q a t (markAll c.1 e.agent mk n r.1)
  | _ => false

theorem oneAccess_of {s : State} {e : TEnv} {g : Guard} {n : Nat} {kind : AKind} {mk : MKind} {va : DWord} {q : Acc → Tr → State → Bool}
    (h : OneAccess s e g n kind mk va q = true) : Elected e g 0 ∧ ∃ a s1 tr, Granted s e .global n kind mk [(0, va)] [a] s1
      ∧ a.tr = some tr ∧ q a tr s1 = true := by
  unfold OneAccess at h
  simp only at h
  split at h
  next a hr =>
    simp only [Bool.and_eq_true, decide_eq_true_eq, Option.any_eq_true] at h
    obtain ⟨⟨⟨h1, h2, h3⟩, h4⟩, t, ht, hq⟩ := h
    refine ⟨h4, a, _, t, ⟨Prod.ext hr h1, ?_, _, Prod.ext rfl (by rw [hr] at h2; exact h2), rfl⟩, ht, ?_⟩
    · intro x hx
      rw [List.mem_singleton.mp hx]
      exact h3
    · rw [hr] at hq
      exact hq
  next => simp at h

def word (bs : List Byte) (n : Nat) : Nat := leNat ((bs.drop (4 * n)).take 4)

/-- Arrivals that a barrier object refuses, takes, and takes as the last of a phase; waits of a phase that is over and one that is
not; no worker but an enabled lane, and no enabled lane. -/
theorem witness_BarrierObjects :
    (∃ e, Issues (.boarr ⟨always, 9, 6, some 10, .dev⟩) (teamWith (atObject 2) id (object 2 1 5)) e ∧ Elected e always 0
      ∧ ∃ a s1 tr, Granted (teamWith (atObject 2) id (object 2 1 5)) e .global 16 .arrive .syncWrite [(0, (e.t.seat 0).rd2 (6 : VReg).val)] [a] s1
        ∧ a.tr = some tr ∧ decide (word (s1.globalRead e.l e.b.runsOn tr 16 true).2 0
            < word (s1.globalRead e.l e.b.runsOn tr 16 true).2 1 + ((e.t.seat 0).rd 10).toNat) = true)
    ∧ (∃ e, Issues (.boarr ⟨always, 9, 6, none, .core⟩) (teamWith (atObject 1) id (object 2 1 5)) e ∧ Elected e always 0
      ∧ ∃ a s1 tr, Granted (teamWith (atObject 1) id (object 2 1 5)) e .global 16 .arrive .syncWrite [(0, (e.t.seat 0).rd2 (6 : VReg).val)] [a] s1
        ∧ a.tr = some tr ∧ decide (word (s1.globalRead e.l e.b.runsOn tr 16 true).2 0
            = word (s1.globalRead e.l e.b.runsOn tr 16 true).2 1 + 1) = true)
    ∧ (∃ e, Issues (.bowait ⟨always, 8, 6, .dev⟩) (teamWith (atObject 1) id (object 2 1 5)) e ∧ Elected e always 0
      ∧ ∃ a s1 tr, Granted (teamWith (atObject 1) id (object 2 1 5)) e .global 16 .load .syncRead [(0, (e.t.seat 0).rd2 (6 : VReg).val)] [a] s1
        ∧ a.tr = some tr ∧ decide (word (s1.globalRead e.l e.b.runsOn tr 16 true).2 2 = ((e.t.seat 0).rd 8).toNat) = true)
    ∧ (∃ e, Issues (.bowait ⟨always, 8, 6, .clu⟩) (teamWith (atObject 1) id (object 2 1 6)) e ∧ Elected e always 0
      ∧ ∃ a s1 tr, Granted (teamWith (atObject 1) id (object 2 1 6)) e .global 16 .load .syncRead [(0, (e.t.seat 0).rd2 (6 : VReg).val)] [a] s1
        ∧ a.tr = some tr ∧ decide (word (s1.globalRead e.l e.b.runsOn tr 16 true).2 2 ≠ ((e.t.seat 0).rd 8).toNat) = true)
    ∧ (∃ e, Issues (.boarr ⟨⟨1, false⟩, 9, 6, none, .core⟩) (teamWith) e ∧ e.workers ⟨1, false⟩ = [] ∧ e.enabled ⟨1, false⟩ = [])
    ∧ ∃ e, Issues (.bowait ⟨always, 8, 6, .dev⟩) (teamWith (ofSeats [lane [] 0 0 true])) e ∧ e.workers always = [] ∧ e.enabled always ≠ [] := by
  let at_ (e : TEnv) : DWord := (e.t.seat 0).rd2 (6 : VReg).val
  let got (e : TEnv) (tr : Tr) (s1 : State) : List Byte := (s1.globalRead e.l e.b.runsOn tr 16 true).2
  refine ⟨?_, ?_, ?_, ?_, issues_of (by decide +kernel), issues_of (by decide +kernel)⟩
  · exact issues_ex (fun e => OneAccess _ e always 16 .arrive .syncWrite (at_ e)
      fun _ t u => decide (word (got e t u) 0 < word (got e t u) 1 + ((e.t.seat 0).rd 10).toNat)) (fun e h => oneAccess_of h) (by decide +kernel)
  · exact issues_ex (fun e => OneAccess _ e always 16 .arrive .syncWrite (at_ e)
      fun _ t u => decide (word (got e t u) 0 = word (got e t u) 1 + 1)) (fun e h => oneAccess_of h) (by decide +kernel)
  · exact issues_ex (fun e => OneAccess _ e always 16 .load .syncRead (at_ e)
      fun _ t u => decide (word (got e t u) 2 = ((e.t.seat 0).rd 8).toNat)) (fun e h => oneAccess_of h) (by decide +kernel)
  · exact issues_ex (fun e => OneAccess _ e always 16 .load .syncRead (at_ e)
      fun _ t u => decide (word (got e t u) 2 ≠ ((e.t.seat 0).rd 8).toNat)) (fun e h => oneAccess_of h) (by decide +kernel)

/-- A copy of a batch at a position, in progress, suspended or done; and a Hearth operation of a number. -/
def copyOp (batch pos : Nat) (susp : Option Susp := none) (done : Bool := false) : CopyOp where
  key := 64 * batch + pos
  batch := batch
  pos := pos
  form := 0
  xbits := 0
  src := shape 7 2 0x10000 [8]
  dst := shape 7 2 0x10100 [8]
  bo := none
  pc := 0x10000
  progress := 0
  susp := susp
  done := done
  flags := 0
  bind := none
def hearthOp (n : Nat) (kind : HKind) (susp : Option Susp := none) : HOp where
  num := n
  kind := kind
  word := 0
  pc := 0x10000
  sweep := 0
  cSh := shape 7 0 0x10000 [16, 16]
  bSh := 0
  aSh := 0
  base := 0
  reg := 0
  rpp := 4
  np := 1
  passes := 0
  waiting := false
  granted := false
  age := 0
  susp := susp
  bind := none
def copies (ops : List CopyOp) (next tl : Nat) (t : Team) : Team := { t with copy := ⟨ops, next, tl, [(1, 4#7)]⟩ }
def hearths (ops : List HOp) (next tl : Nat) (t : Team) : Team := { t with hearth := ⟨ops, next, tl, [(1, 4#7)]⟩ }

/-- REGROUP and REGATHER beside an MMA that has read its registers of A, and beside one that has not (R183). -/
theorem witness_RegroupWaits :
    (∃ e, Issues (.regroup 1 2) (teamWith fun t => hearths [{ hearthOp 2 .mma with np := 1, passes := 0 }] 3 1 (naming t)) e
      ∧ e.t.frags.length = 1 ∧ e.t.saved = none ∧ ∃ o ∈ e.t.hearth.ops, o.reading = true)
    ∧ (∃ e, Issues (.regather 2) (teamWith fun t => hearths [{ hearthOp 2 .mma with np := 1, passes := 1 }] 3 1 { naming t with saved := some [1, 0] }) e
      ∧ e.t.frags.length = 1 ∧ e.t.saved = some [1, 0] ∧ [1, 0].length = e.t.seats.length ∧ ∀ o ∈ e.t.hearth.ops, o.reading = false) :=
  ⟨issues_of (by decide +kernel), issues_of (by decide +kernel)⟩
def fault24 : Susp := ⟨0x24#8, 0, 0x10100, none⟩

/-- The wait lane is the first. -/
theorem waitLane_of {e : TEnv} (h : 0 ∈ e.active ∧ (e.t.seat 0).helper = false) : IsWaitLane e 0 :=
  ⟨h.1, .inl ⟨h.2, fun _ _ _ => Nat.zero_le _⟩⟩

/-- CBATCH with room and without; waits of a fragment of no lane; a batch not closed, one not settled, one complete and one whose copy
is suspended; and the same of the Hearth. -/
theorem witness_Waits_own :
    (∃ e, Issues (.cbatch 8) (teamWith (copies [copyOp 1 0, copyOp 0 0] 3 0)) e ∧ e.t.copy.nextBatch < e.t.copy.timeline + 33
      ∧ e.t.copy.timeline < e.t.copy.nextBatch)
    ∧ (∃ e, Issues (.cbatch 8) (teamWith (copies [copyOp 1 0] 33 0)) e ∧ e.t.copy.timeline + 33 ≤ e.t.copy.nextBatch)
    ∧ (∀ i ∈ ([.cwait ⟨8, .clu⟩, .mwait ⟨8, .clu⟩, .mwaitAll .clu, .tlwait ⟨6, 8, true⟩] : List Instr),
        ∃ e, Issues i (teamWith fun t => { t with frags := [Frag.at Place.image.tent 0] }) e ∧ e.active = [])
    ∧ (∃ e, Issues (.cwait ⟨8, .clu⟩) (teamWith (regs [(8, 3)])) e ∧ IsWaitLane e 0 ∧ e.t.copy.nextBatch ≤ ((e.t.seat 0).rd2 8).toNat)
    ∧ (∃ e, Issues (.cwait ⟨8, .clu⟩) (teamWith fun t => copies [copyOp 1 0] 2 0 (regs [(8, 1)] t)) e ∧ IsWaitLane e 0
      ∧ ((e.t.seat 0).rd2 8).toNat < e.t.copy.nextBatch ∧ e.t.copy.timeline < 1 ∧ 1 ≤ ((e.t.seat 0).rd2 8).toNat
      ∧ (∃ o ∈ e.t.copy.ops, o.batch = 1 ∧ o.done = false) ∧ ∀ o ∈ e.t.copy.ops, o.batch = 1 → o.susp = none)
    ∧ (∃ e, Issues (.cwait ⟨8, .sys⟩) (teamWith fun t => copies [] 2 1 (regs [(8, 1)] t)) e ∧ IsWaitLane e 0
      ∧ ((e.t.seat 0).rd2 8).toNat < e.t.copy.nextBatch ∧ ((e.t.seat 0).rd2 8).toNat ≤ e.t.copy.timeline ∧ (teamWith).Inv)
    ∧ (∃ e, Issues (.cwait ⟨8, .sys⟩) (teamWith fun t => copies [copyOp 1 0 (some fault24), copyOp 1 1] 2 0 (regs [(8, 1)] t)) e ∧ IsWaitLane e 0
      ∧ ((e.t.seat 0).rd2 8).toNat < e.t.copy.nextBatch ∧ ∃ o ∈ e.t.copy.ops, o.batch = 1 ∧ o.susp = some fault24 ∧ o.pos = 0)
    ∧ (∃ e, Issues (.mwait ⟨8, .clu⟩) (teamWith (regs [(8, 1)])) e ∧ IsWaitLane e 0 ∧ e.t.hearth.nextNum ≤ ((e.t.seat 0).rd2 8).toNat)
    ∧ (∃ e, Issues (.mwait ⟨8, .die⟩) (teamWith fun t => hearths [hearthOp 2 .mma] 3 1 (regs [(8, 1)] t)) e ∧ IsWaitLane e 0
      ∧ ((e.t.seat 0).rd2 8).toNat < e.t.hearth.nextNum ∧ ((e.t.seat 0).rd2 8).toNat ≤ e.t.hearth.timeline ∧ (teamWith).Inv)
    ∧ (∃ e, Issues (.mwaitAll .die) (teamWith (hearths [hearthOp 2 .mma] 3 1)) e ∧ e.active ≠ []
      ∧ e.t.hearth.timeline < e.t.hearth.nextNum - 1 ∧ ∀ o ∈ e.t.hearth.ops, o.susp = none)
    ∧ ∃ e, Issues (.mwaitAll .die) (teamWith (hearths [hearthOp 2 .mma (some fault24)] 3 1)) e ∧ e.active ≠ []
      ∧ e.t.hearth.ops = [] ++ [hearthOp 2 .mma (some fault24)] ∧ (hearthOp 2 .mma (some fault24)).num ≤ e.t.hearth.nextNum - 1 := by
  have h1 {i : Instr} {s : State} {p : TEnv → Prop} (h : ∃ e, Issues i s e ∧ (0 ∈ e.active ∧ (e.t.seat 0).helper = false) ∧ p e) :
      ∃ e, Issues i s e ∧ IsWaitLane e 0 ∧ p e := h.imp fun e h => ⟨h.1, waitLane_of h.2.1, h.2.2⟩
  and_intros <;> first
    | exact issues_of (by decide +kernel)
    | exact all_issues_of (by decide +kernel)
    | exact h1 (issues_of (by decide +kernel))

/-- A bulk queue, and its timeline; and waits on timelines that a launch may name and one that it may not, reached and not. -/
def bulk (tl : Nat) (s : State) : State := { s with queues := [{ Place.queue 5 1 with bulk := true, timeline := tl }] }
theorem witness_Waits_timelines :
    (∃ e, Issues (.tlwait ⟨6, 8, false⟩) (teamWith (regs [(6, 0x40000000)])) e ∧ IsWaitLane e 0
      ∧ (teamWith (regs [(6, 0x40000000)])).counter e.l.fn (some e.l) ((e.t.seat 0).rd 6).toNat = none)
    ∧ (∃ e, Issues (.tlwait ⟨6, 8, false⟩) (teamWith (regs [(6, 0x10000005), (8, 4)]) id (bulk 3)) e ∧ IsWaitLane e 0
      ∧ (teamWith (regs [(6, 0x10000005), (8, 4)]) id (bulk 3)).counter e.l.fn (some e.l) ((e.t.seat 0).rd 6).toNat = some 3
      ∧ 3 < ((e.t.seat 0).rd2 8).toNat)
    ∧ (∃ e, Issues (.tlwait ⟨6, 8, true⟩) (teamWith (regs [(6, 0x10000005), (8, 4)]) id (bulk 4)) e ∧ IsWaitLane e 0
      ∧ (teamWith (regs [(6, 0x10000005), (8, 4)]) id (bulk 4)).counter e.l.fn (some e.l) ((e.t.seat 0).rd 6).toNat = some 4
      ∧ ((e.t.seat 0).rd2 8).toNat ≤ 4 ∧ (teamWith).Inv)
    ∧ (0x20000000 / 2 ^ 28 = 2 ∧ 0x10000005 / 2 ^ 28 = 1 ∧ (bulk 4 State.reset).queue (0x10000005 % 2 ^ 28) = some { Place.queue 5 1 with bulk := true, timeline := 4 })
    ∧ (0x30000000 / 2 ^ 28 = 3 ∧ 0x30000000 % 2 ^ 28 < (Place.launch 1 1 ⟨0, 0, 0⟩).nblk ∧ ((Place.launch 1 1 ⟨0, 0, 0⟩).block 0).isSome = true)
    ∧ 0x0FFFFFFF / 2 ^ 28 = 0 ∧ 4 ≤ 0x40000000 / 2 ^ 28 := by
  have h1 {i : Instr} {s : State} {p : TEnv → Prop} (h : ∃ e, Issues i s e ∧ (0 ∈ e.active ∧ (e.t.seat 0).helper = false) ∧ p e) :
      ∃ e, Issues i s e ∧ IsWaitLane e 0 ∧ p e := h.imp fun e h => ⟨h.1, waitLane_of h.2.1, h.2.2⟩
  and_intros <;> first
    | exact h1 (issues_of (by decide +kernel))
    | decide +kernel

/-- CBATCH of a context whose copies are all done. -/
theorem witness_CopyBatches : ∃ e, Issues (.cbatch 8) (teamWith (copies [copyOp 1 0 none true, copyOp 0 0 none true] 2 0)) e
    ∧ e.t.copy.nextBatch < e.t.copy.timeline + 33 ∧ e.t.copy.timeline < e.t.copy.nextBatch ∧ ∀ o ∈ e.t.copy.ops, o.done = true :=
  issues_of (by decide +kernel)

/-- Counters of blocks: one beyond NBLK, one that has completed, one that is not yet resident. -/
theorem witness_BlockCounters : (0x30000002 / 2 ^ 28 = 3 ∧ (Place.launch 1 1 ⟨0, 0, 0⟩).nblk ≤ 0x30000002 % 2 ^ 28)
    ∧ (let l := { Place.launch 1 1 ⟨0, 0, 0⟩ with blocks := [], finals := [(1, 7)], nextB := 0 }
       1 < l.nblk ∧ l.block 1 = none ∧ l.finals.find? (fun p => p.1 == 1) = some (1, 7) ∧ l.block 0 = none
        ∧ (∀ p ∈ l.finals, p.1 ≠ 0) ∧ l.nextB ≤ 0) := by decide +kernel

/-- An address of SHLD that is aligned to 32 bytes only. -/
theorem witness_ShapeAlignment : ∃ e, Issues (.shld ⟨always, 2, 24, 0⟩) (teamWith (regs [(24, 0x10020)])) e ∧ Elected e always 0
    ∧ (formed .global (e.t.seat 0) 24 0).toNat % 64 ≠ 0 :=
  issues_ex (fun e => decide (0 ∈ e.workers always ∧ ∀ j ∈ e.workers always, 0 ≤ j) && decide ((formed .global (e.t.seat 0) 24 0).toNat % 64 ≠ 0))
    (fun e h => by
      simp only [Bool.and_eq_true] at h
      exact ⟨elected_of h.1, of_decide_eq_true h.2⟩) (by decide +kernel)

/-- Accesses of 64 bytes that are granted, a field that an elected lane writes, and no worker with and without an enabled lane. -/
theorem witness_ShapeRegisters :
    (∃ e, Issues (.shld ⟨always, 2, 24, 64⟩) (teamWith (regs [(24, 0x10040)])) e ∧ Elected e always 0
      ∧ ∃ a s1 tr, Granted (teamWith (regs [(24, 0x10040)])) e .global 64 .load .plainLoad [(0, formed .global (e.t.seat 0) 24 64)] [a] s1
        ∧ a.tr = some tr ∧ true = true)
    ∧ (∃ e, Issues (.shst ⟨always, 2, 24, 0x1FFFC0⟩) (teamWith (regs [(24, 0x10040)])) e ∧ Elected e always 0
      ∧ ∃ a s1 tr, Granted (teamWith (regs [(24, 0x10040)])) e .global 64 .store .plainStore [(0, formed .global (e.t.seat 0) 24 0x1FFFC0)] [a] s1
        ∧ a.tr = some tr ∧ (decide s1.Inv && !tr.attrs.checked && !isPeer tr.pa && decide (tr.pa % 64 = 0) && decide (a.at_ = tr.pa)) = true)
    ∧ (∃ e, Issues (.shset ⟨always, .str 3, 4, 6⟩) (teamWith) e ∧ Elected e always 0)
    ∧ (∀ i ∈ ([.shld ⟨⟨1, false⟩, 2, 24, 64⟩, .shst ⟨⟨1, false⟩, 2, 24, 64⟩, .shset ⟨⟨1, false⟩, .grp, 4, 6⟩] : List Instr),
        ∃ e, Issues i (teamWith) e ∧ e.workers ⟨1, false⟩ = [] ∧ e.enabled ⟨1, false⟩ = [])
    ∧ ∃ e, Issues (.shset ⟨always, .grp, 4, 6⟩) (teamWith (ofSeats [lane [] 0 0 true])) e ∧ e.workers always = [] ∧ e.enabled always ≠ [] := by
  refine ⟨?_, ?_, ?_, all_issues_of (by decide +kernel), issues_of (by decide +kernel)⟩
  · exact issues_ex (fun e => OneAccess _ e always 64 .load .plainLoad (formed .global (e.t.seat 0) 24 64) fun _ _ _ => true)
      (fun e h => oneAccess_of h) (by decide +kernel)
  · exact issues_ex (fun e => OneAccess _ e always 64 .store .plainStore (formed .global (e.t.seat 0) 24 0x1FFFC0)
      fun a tr s1 => decide s1.Inv && !tr.attrs.checked && !isPeer tr.pa && decide (tr.pa % 64 = 0) && decide (a.at_ = tr.pa))
      (fun e h => oneAccess_of h) (by decide +kernel)
  · exact issues_ex (fun e => decide (0 ∈ e.workers always ∧ ∀ j ∈ e.workers always, 0 ≤ j)) (fun e h => elected_of h) (by decide +kernel)

/-- The shapes of a team pass their checks (ShapesPass), from a test that evaluates. -/
def passes (s : State) (e : TEnv) (uses : Bool) (xs : List (BitVec 512)) : Bool :=
  xs.all (fun x => !(uses && s.shapeBlocked e.l.asid x)) && s.shapesCause e.l.fn e.l.asid xs == none
theorem passes_of {s : State} {e : TEnv} {uses : Bool} {xs : List (BitVec 512)} (h : passes s e uses xs = true) :
    ShapesPass s e uses xs := by
  simp only [passes, Bool.and_eq_true, List.all_eq_true, Bool.not_eq_true', beq_iff_eq] at h
  exact ⟨fun hu x hx => by simpa [hu] using h.1 x hx, h.2⟩

/-- The elected lane is the first, the shapes pass, and p holds because q does. -/
theorem tile_ex {i : Instr} {s : State} {g : Guard} {uses : Bool} {xs : TEnv → List (BitVec 512)} {p : TEnv → Prop} (q : TEnv → Bool)
    (hq : ∀ e, q e = true → p e)
    (h : (match s.teamEnv with
      | some e => decide (preCause s e i = none ∧ e.waits i = false
          ∧ (decide (0 ∈ e.workers g ∧ ∀ j ∈ e.workers g, 0 ≤ j) && passes s e uses (xs e) && q e) = true)
      | none => false) = true) : ∃ e, Issues i s e ∧ Elected e g 0 ∧ ShapesPass s e uses (xs e) ∧ p e :=
  issues_ex (fun e => decide (0 ∈ e.workers g ∧ ∀ j ∈ e.workers g, 0 ≤ j) && passes s e uses (xs e) && q e)
    (fun e h => by
      simp only [Bool.and_eq_true] at h
      exact ⟨elected_of h.1.1, passes_of h.1.2, hq e h.2⟩) h

theorem tile_of {i : Instr} {s : State} {g : Guard} {uses : Bool} {xs : TEnv → List (BitVec 512)} {p : TEnv → Prop} [DecidablePred p]
    (h : (match s.teamEnv with
      | some e => decide (preCause s e i = none ∧ e.waits i = false
          ∧ (decide (0 ∈ e.workers g ∧ ∀ j ∈ e.workers g, 0 ≤ j) && passes s e uses (xs e) && decide (p e)) = true)
      | none => false) = true) : ∃ e, Issues i s e ∧ Elected e g 0 ∧ ShapesPass s e uses (xs e) ∧ p e :=
  tile_ex (fun e => decide (p e)) (fun _ h => of_decide_eq_true h) h

/-- Two tiles in the page that pass; one of a wrong format; a C tile. -/
def f32At (o : Nat) (ext : List Nat) : BitVec 512 := shape 7 0 (0x10000 + o) ext
def cTile : BitVec 512 := f32At 0 [16, 16]
def full64 (t : Team) : Team := copies (List.replicate 64 (copyOp 0 0)) 1 0 t

/-- Copies whose shapes fail, whose own conditions fail, that find 64 in the pending set, and that join it; each form. -/
theorem witness_CopyIssue :
    (∃ e, Issues (.cpy ⟨always, 1, 0, false, none⟩) (teamWith (shaped [cTile, 0])) e ∧ Elected e always 0
      ∧ (∀ x ∈ [e.t.shape 0, e.t.shape 1], (teamWith (shaped [cTile, 0])).shapeBlocked e.l.asid x = false)
      ∧ (teamWith (shaped [cTile, 0])).shapesCause e.l.fn e.l.asid [e.t.shape 0, e.t.shape 1] = some 0x83#8)
    ∧ (∃ e, Issues (.cpy ⟨always, 1, 0, false, none⟩) (teamWith (shaped [cTile, f32At 0x100 [4]])) e ∧ Elected e always 0
      ∧ ShapesPass (teamWith (shaped [cTile, f32At 0x100 [4]])) e true [e.t.shape 0, e.t.shape 1] ∧ shExt (e.t.shape 0) 0 ≠ shExt (e.t.shape 1) 0)
    ∧ (∃ e, Issues (.cpy ⟨always, 1, 0, false, some 10⟩) (teamWith (shaped [cTile, f32At 0x400 [16, 16]])) e ∧ Elected e always 0
      ∧ ShapesPass (teamWith (shaped [cTile, f32At 0x400 [16, 16]])) e true [e.t.shape 0, e.t.shape 1] ∧ (shLvl (e.t.shape 0) ≠ 1 ∧ shLvl (e.t.shape 1) ≠ 1
        ∧ (∀ k, k < 4 → shExt (e.t.shape 0) k = shExt (e.t.shape 1) k) ∧ shFmt (e.t.shape 0) = shFmt (e.t.shape 1)
        ∧ spanCause e.l (e.t.shape 0) 4 = none ∧ (teamWith).Inv ∧ (e.t.copy.ops.filter fun o => o.batch == 0).length < 64))
    ∧ (∃ e, Issues (.cpy ⟨always, 1, 0, true, none⟩) (teamWith fun t => full64 (shaped [shape 0 0 0x10000 [8], shape 2 0 0x10100 [8] ] t)) e
      ∧ Elected e always 0 ∧ ShapesPass (teamWith fun t => full64 (shaped [shape 0 0 0x10000 [8], shape 2 0 0x10100 [8]] t)) e true [e.t.shape 0]
      ∧ cvOk (e.t.shape 0) (e.t.shape 1) = true ∧ 64 ≤ (e.t.copy.ops.filter fun o => o.batch == 0).length)
    ∧ (∃ e, Issues (.cpyHalo ⟨always, 1, 0, 0, none⟩) (teamWith (shaped [shape 7 2 0 [8], shape 7 2 64 [8]])) e ∧ Elected e always 0
      ∧ ShapesPass (teamWith (shaped [shape 7 2 0 [8], shape 7 2 64 [8]])) e true [e.t.shape 0, e.t.shape 1]
      ∧ (∀ k, k < 4 → shExt (e.t.shape 1) k
          = if k = 0 then shHaloLo (e.t.shape 0) 0 + shExt (e.t.shape 0) 0 + shHaloHi (e.t.shape 0) 0 else shExt (e.t.shape 0) k))
    ∧ ∃ e, Issues (.cpyRed ⟨always, 1, 0, none⟩) (teamWith (shaped [cTile, cTile])) e ∧ Elected e always 0
      ∧ ShapesPass (teamWith (shaped [cTile, cTile])) e false [e.t.shape 0, e.t.shape 1]
      ∧ (shFmt (e.t.shape 1) = 7 ∧ shLvl (e.t.shape 1) = 0 ∧ shExt (e.t.shape 1) 0 = 16 ∧ shExt (e.t.shape 1) 1 = 16
        ∧ shExt (e.t.shape 1) 2 = 1 ∧ shExt (e.t.shape 1) 3 = 1 ∧ shGrp (e.t.shape 1) = 0 ∧ shSpn (e.t.shape 1) = 0) := by
  refine ⟨?_, ?_⟩
  case refine_2 => and_intros <;> exact tile_of (by decide +kernel)
  exact issues_ex (fun e => decide (0 ∈ e.workers always ∧ ∀ j ∈ e.workers always, 0 ≤ j)
      && [e.t.shape 0, e.t.shape 1].all (fun x => !(teamWith (shaped [cTile, 0])).shapeBlocked e.l.asid x)
      && decide ((teamWith (shaped [cTile, 0])).shapesCause e.l.fn e.l.asid [e.t.shape 0, e.t.shape 1] = some 0x83#8))
    (fun e h => by
      simp only [Bool.and_eq_true, List.all_eq_true, Bool.not_eq_true'] at h
      exact ⟨elected_of h.1.1, h.1.2, of_decide_eq_true h.2⟩) (by decide +kernel)

/-- What the checks of MMA and MDIST answer. -/
def Answers (r : Except CauseAt Nat) (x : CauseAt ⊕ Nat) : Bool :=
  match r, x with
  | .ok n, .inr m => n == m
  | .error c, .inl d => c == d
  | _, _ => false
theorem ok_answer {r : Except CauseAt Nat} {n : Nat} (h : Answers r (.inr n) = true) : r = .ok n := by
  cases r <;> simp_all [Answers]
theorem error_answer {r : Except CauseAt Nat} {c : CauseAt} (h : Answers r (.inl c) = true) : r = .error c := by
  cases r <;> simp_all [Answers]

/-- The Hearth forms: a C tile and none, a full context and room, an MMA that fails its checks and one that passes them, with a pending
load of its A and without; an MTOPK of each kind. -/
def bTile : BitVec 512 := shape 6 2 0 [16, 32]
/-- A dense MMA of BF16, its B tile and its team. -/
def mmaOk : MmaOp := ⟨always, 0, 40, 1, 0, none, false, .dense, .bf16⟩
def mmaTeam : Team → Team := shaped [f32At 0 [32, 16], bTile]
/-- An MDIST of a slot format whose A, r40 to r47, a pending load reaches beyond what the word decides. -/
def slotPending : State :=
  teamWith (fun t => { shaped [f32At 0 [32, 16], shape 0x10 3 0 [64, 32]] t with pend := [{ pending with reg := 44, count := 4 }] }) id
    fun s => withLaunch (fun l => { l with img := { l.img with cmem := 16384 } }) (bound container s)
theorem witness_HearthIssue :
    (∃ e, Issues (.mopen ⟨always, some 8, 0⟩) (teamWith (shaped [cTile])) e ∧ Elected e always 0
      ∧ ShapesPass (teamWith (shaped [cTile])) e false [e.t.shape 0]
      ∧ (shFmt (e.t.shape 0) = 7 ∧ shLvl (e.t.shape 0) = 0 ∧ shExt (e.t.shape 0) 0 = 16 ∧ shExt (e.t.shape 0) 1 = 16
        ∧ shExt (e.t.shape 0) 2 = 1 ∧ shExt (e.t.shape 0) 3 = 1 ∧ shGrp (e.t.shape 0) = 0 ∧ shSpn (e.t.shape 0) = 0)
      ∧ e.t.hearth.ops.length < 64 ∧ (teamWith (shaped [cTile])).Inv)
    ∧ (∃ e, Issues (.mclose ⟨always, none, 0, 0⟩) (teamWith (shaped [f32At 0 [16, 8]])) e ∧ Elected e always 0
      ∧ ShapesPass (teamWith (shaped [f32At 0 [16, 8]])) e false [e.t.shape 0] ∧ shExt (e.t.shape 0) 1 ≠ 16)
    ∧ (∃ e, Issues (.mclose ⟨always, none, 0, 0⟩) (teamWith fun t => hearths (List.replicate 64 (hearthOp 2 .mopen)) 66 1 (shaped [cTile] t)) e
      ∧ Elected e always 0 ∧ ShapesPass (teamWith fun t => hearths (List.replicate 64 (hearthOp 2 .mopen)) 66 1 (shaped [cTile] t)) e false [e.t.shape 0]
      ∧ 64 ≤ e.t.hearth.ops.length)
    ∧ (∃ e, Issues (.mma mmaOk) (teamWith mmaTeam) e ∧ Elected e always 0 ∧ ShapesPass (teamWith mmaTeam) e true [e.t.shape 0, e.t.shape 1]
      ∧ mmaCheck (teamWith mmaTeam) e mmaOk (e.t.shape 0) (e.t.shape 1) none = .ok 4 ∧ e.t.pend = [])
    ∧ (∃ e, Issues (.mma { mmaOk with fm := .slot 0 }) (teamWith mmaTeam) e ∧ Elected e always 0
      ∧ ShapesPass (teamWith mmaTeam) e true [e.t.shape 0, e.t.shape 1] ∧ (teamWith mmaTeam).slotBlocked e.l.asid 0 = false
      ∧ mmaCheck (teamWith mmaTeam) e { mmaOk with fm := .slot 0 } (e.t.shape 0) (e.t.shape 1) none = .error (0x84#8, 0))
    ∧ (∃ e, Issues (.mdist { mmaOk with fm := .slot 0 }) slotPending e ∧ Elected e always 0 ∧ ShapesPass slotPending e true [e.t.shape 0, e.t.shape 1]
      ∧ mmaCheck slotPending e { mmaOk with fm := .slot 0 } (e.t.shape 0) (e.t.shape 1) none = .ok 8
      ∧ (∃ p ∈ e.t.pend, meets p.reg p.count 40 (1 * 8) = true))
    ∧ (∃ e, Issues (.mtopk ⟨always, 60, 5, 0, 3⟩) (teamWith (shaped [f32At 0 [16, 16]])) e ∧ Elected e always 0
      ∧ ShapesPass (teamWith (shaped [f32At 0 [16, 16]])) e false [e.t.shape 0]
      ∧ (shFmt (e.t.shape 0) = 7 ∧ shLvl (e.t.shape 0) ≠ 1 ∧ shExt (e.t.shape 0) 1 = 16 ∧ shExt (e.t.shape 0) 0 ≤ 65536 ∧ shExt (e.t.shape 0) 2 = 1
        ∧ shExt (e.t.shape 0) 3 = 1 ∧ shGrp (e.t.shape 0) = 0 ∧ shSpn (e.t.shape 0) = 0)
      ∧ spanCause e.l (e.t.shape 0) 4 = none ∧ (teamWith (shaped [f32At 0 [16, 16]])).entries 0 0 < 32)
    ∧ (∃ e, Issues (.mtopk ⟨always, 60, 5, 0, 3⟩) (teamWith (shaped [shape 7 2 0 [65, 16]])) e ∧ Elected e always 0
      ∧ ShapesPass (teamWith (shaped [shape 7 2 0 [65, 16]])) e false [e.t.shape 0] ∧ spanCause e.l (e.t.shape 0) 4 = some (0x25#8, 4159))
    ∧ ∃ e, Issues (.mtopk ⟨always, 60, 5, 0, 3⟩) (teamWith fun t => hearths (List.replicate 32 { hearthOp 2 .mma with waiting := true }) 34 1 (shaped [cTile] t)) e
      ∧ Elected e always 0 ∧ ShapesPass (teamWith fun t => hearths (List.replicate 32 { hearthOp 2 .mma with waiting := true }) 34 1 (shaped [cTile] t)) e false [e.t.shape 0]
      ∧ 32 ≤ (teamWith fun t => hearths (List.replicate 32 { hearthOp 2 .mma with waiting := true }) 34 1 (shaped [cTile] t)).entries 0 0 :=
  ⟨tile_of (by decide +kernel), tile_of (by decide +kernel), tile_of (by decide +kernel),
    tile_ex (fun e => Answers (mmaCheck (teamWith mmaTeam) e mmaOk (e.t.shape 0) (e.t.shape 1) none) (.inr 4) && e.t.pend.isEmpty)
      (fun e h => by simp only [Bool.and_eq_true, List.isEmpty_iff] at h; exact ⟨ok_answer h.1, h.2⟩) (by decide +kernel),
    tile_ex (fun e => !(teamWith mmaTeam).slotBlocked e.l.asid 0
        && Answers (mmaCheck (teamWith mmaTeam) e { mmaOk with fm := .slot 0 } (e.t.shape 0) (e.t.shape 1) none) (.inl (0x84#8, 0)))
      (fun e h => by simp only [Bool.and_eq_true, Bool.not_eq_true'] at h; exact ⟨h.1, error_answer h.2⟩) (by decide +kernel),
    tile_ex (fun e => Answers (mmaCheck slotPending e { mmaOk with fm := .slot 0 } (e.t.shape 0) (e.t.shape 1) none) (.inr 8)
        && e.t.pend.any fun p => meets p.reg p.count 40 (1 * 8))
      (fun e h => by simp only [Bool.and_eq_true, List.any_eq_true] at h; exact ⟨ok_answer h.1, h.2⟩) (by decide +kernel),
    tile_of (by decide +kernel), tile_of (by decide +kernel), tile_of (by decide +kernel)⟩

def scaleAt (x : BitVec 512) (a : Nat) : BitVec 512 := x ||| BitVec.ofNat 512 (a * 2 ^ 384)
def slotTile : BitVec 512 := scaleAt (shape 0x10 0 0x10200 [32] 32) 0x10300
def quantTeam : Team → Team := shaped [f32At 0 [32], slotTile, f32At 0x100 [32]]

/-- Both stages' tables of the page, each one leaf of 1 GiB, in place of its TLB entry, and a dirty log that is full (R407, R414). -/
def fullLog (s : State) : State :=
  let put (s : State) (p : Nat × Nat) : State := stored p.1 (leBytes 8 p.2) s
  let s := [(0x20000, 0x21001), (0x21000, 0x22001), (0x22000, 0x827), (0x24000, 0x25001), (0x25000, 0x26001), (0x26000, 0x827)].foldl put s
  withFunc (fun f => { f with s2ctl := 0x24001, dlEn := true }) { s with tlb := [], asidctl := Regs.set s.asidctl 1 0x20001 }

/-- The step that a tile instruction comes to is done, waits for the log, or fails; and how many others follow it. -/
def Comes (s : State) (e : TEnv) (todo : List TStep) (q : TRun → Bool) (more : Nat) : Bool :=
  match todo with
  | st :: rest => q (runStep s e 0 st) && rest.length == more
  | [] => false
def isDone : TRun → Bool
  | .done _ _ => true
  | _ => false
def isWait : TRun → Bool
  | .wait _ => true
  | _ => false
def isBad : TRun → Bool
  | .bad _ => true
  | _ => false
theorem comes_of {s : State} {e : TEnv} {todo : List TStep} {q : TRun → Bool} {n : Nat} (h : Comes s e todo q n = true) :
    ∃ st rest, todo = st :: rest ∧ q (runStep s e 0 st) = true ∧ rest.length = n := by
  unfold Comes at h
  split at h
  next st rest =>
    rw [Bool.and_eq_true, beq_iff_eq] at h
    exact ⟨st, rest, rfl, h⟩
  next => simp at h
theorem isDone_of {r : TRun} (h : isDone r = true) : ∃ s fl, r = .done s fl := by cases r <;> simp_all [isDone]
theorem isWait_of {r : TRun} (h : isWait r = true) : ∃ s, r = .wait s := by cases r <;> simp_all [isWait]
theorem isBad_of {r : TRun} (h : isBad r = true) : ∃ y, r = .bad y := by cases r <;> simp_all [isBad]

/-- The states of the tile instructions: FP32 tiles and a slot's tile; one of two steps, and of a second with one element; a tile at an address that no page has; and a
slot tile and a scale table that leave their levels. -/
def quant : State := teamWith quantTeam id (bound)
def twoSteps (q : DWord) : State := teamWith fun t => { shaped [f32At 0 [64], f32At 0x100 [64]] t with qprog := q }
def oneLeft : State := teamWith fun t => { shaped [f32At 0 [33], f32At 0x100 [33]] t with qprog := 1 }
def noPage : State := teamWith (shaped [shape 7 0 0x30000 [32], slotTile]) id (bound)
def leaving : State := teamWith (shaped [f32At 0 [32], scaleAt (shape 0x10 2 0 [32] 32) 4096, shape 7 2 4096 [32]]) id (bound)

/-- Tile instructions whose last step is done, whose first of two is, with none left, that wait for a full log, whose step fails, whose
own conditions fail, whose shapes fail, and whose span leaves its level. -/
theorem witness_TileInstructions :
    (∃ e, Issues (.qscan ⟨always, 1, 0, 0⟩) quant e ∧ Elected e always 0 ∧ ShapesPass quant e true [e.t.shape 0, e.t.shape 1]
      ∧ (shFmt (e.t.shape 0) = 7 ∧ shGrp (e.t.shape 0) = 0 ∧ shSlot (e.t.shape 1) = some 0 ∧ shGrp (e.t.shape 1) ≠ 0)
      ∧ ∃ st rest, (scanSteps (e.t.shape 0) (e.t.shape 1) (ctOf quant e (e.t.shape 1))).drop e.t.qprog.toNat = st :: rest
        ∧ isDone (runStep quant e 0 st) = true ∧ rest.length = 0)
    ∧ (∃ e, Issues (.qrot ⟨always, 0, 0, 7, .g32⟩) quant e ∧ Elected e always 0 ∧ ShapesPass quant e false [e.t.shape 0, e.t.shape 0]
      ∧ (shExt (e.t.shape 0) 0 % 32 = 0 ∧ tileSpan quant e (e.t.shape 0) = none)
      ∧ ∃ st rest, (rotSteps (e.t.shape 0) (e.t.shape 0) 32 ((e.t.seat 0).rd (7 : VReg).val).toNat).drop e.t.qprog.toNat = st :: rest
        ∧ isDone (runStep quant e 0 st) = true ∧ rest.length = 0)
    ∧ (∃ e, Issues (.qcvt ⟨always, 1, 0, 0⟩) quant e ∧ Elected e always 0 ∧ ShapesPass quant e true [e.t.shape 0, e.t.shape 1]
      ∧ (shFmt (e.t.shape 0) = 7 ∧ shGrp (e.t.shape 0) = 0 ∧ shSlot (e.t.shape 1) = some 0)
      ∧ ∃ st rest, (cvtSteps (e.t.shape 0) (e.t.shape 1) (ctOf quant e)).drop e.t.qprog.toNat = st :: rest
        ∧ isDone (runStep quant e 0 st) = true ∧ rest.length = 0)
    ∧ (∃ e, Issues (.qsmooth ⟨always, 1, 0, 0⟩) (twoSteps 0) e ∧ Elected e always 0
      ∧ ShapesPass (twoSteps 0) e false [e.t.shape 0, e.t.shape 1, e.t.shape 0]
      ∧ (shExt (e.t.shape 0) 1 = 1 ∧ shExt (e.t.shape 0) 2 = 1 ∧ shExt (e.t.shape 0) 3 = 1)
      ∧ ∃ st rest, (smoothSteps (e.t.shape 0) (e.t.shape 0) (e.t.shape 1)).drop e.t.qprog.toNat = st :: rest
        ∧ isDone (runStep (twoSteps 0) e 0 st) = true ∧ rest.length = 1)
    ∧ (∃ e, Issues (.qsmooth ⟨always, 1, 0, 0⟩) (twoSteps 2) e
      ∧ (smoothSteps (e.t.shape 0) (e.t.shape 0) (e.t.shape 1)).drop e.t.qprog.toNat = [])
    ∧ (∃ e, Issues (.qsmooth ⟨always, 1, 0, 0⟩) (fullLog oneLeft) e
      ∧ ∃ st rest, (smoothSteps (e.t.shape 0) (e.t.shape 0) (e.t.shape 1)).drop e.t.qprog.toNat = st :: rest
        ∧ isWait (runStep (fullLog oneLeft) e 0 st) = true ∧ rest.length = 0)
    ∧ (∃ e, Issues (.qcvt ⟨always, 0, 1, 0⟩) noPage e
      ∧ ∃ st rest, (cvtSteps (e.t.shape 1) (e.t.shape 0) (ctOf noPage e)).drop e.t.qprog.toNat = st :: rest
        ∧ isBad (runStep noPage e 0 st) = true ∧ rest.length = 0)
    ∧ (∃ e, Issues (.qscan ⟨always, 1, 0, 1⟩) quant e ∧ Elected e always 0 ∧ ShapesPass quant e true [e.t.shape 0, e.t.shape 1]
      ∧ shSlot (e.t.shape 1) ≠ some 1)
    ∧ (∃ e, Issues (.qrot ⟨always, 3, 0, 7, .g32⟩) quant e ∧ quant.shapesCause e.l.fn e.l.asid [e.t.shape 0, e.t.shape 3] = some 0x83#8)
    ∧ (∃ e, Issues (.qscan ⟨always, 1, 0, 0⟩) leaving e ∧ Elected e always 0 ∧ ShapesPass leaving e true [e.t.shape 0, e.t.shape 1]
      ∧ tileSpan leaving e (e.t.shape 0) = none ∧ scaleSpanCause e.l (e.t.shape 1) = some (0x25#8, 4096))
    ∧ (∃ e, Issues (.qrot ⟨always, 2, 0, 7, .g32⟩) leaving e ∧ tileSpan leaving e (e.t.shape 2) = some (0x25#8, 4096))
    ∧ (fmtF32 ∈ [fmtF16, fmtBf16, fmtF32] ∧ (∀ x ∈ [0x3F800000, 0xC0000000], (number (fmtF32.unpack x)).isSome)
      ∧ (scanGroup (2 ^ 79) (-2 ^ 79) ([0x3F800000, 0xC0000000].map fmtF32.unpack)).2 = 0) := by
  have both {p : Prop} [Decidable p] {s : State} {e : TEnv} {todo : List TStep} {q : TRun → Bool} {n : Nat}
      (h : (decide p && Comes s e todo q n) = true) :
      p ∧ ∃ st rest, todo = st :: rest ∧ q (runStep s e 0 st) = true ∧ rest.length = n := by
    rw [Bool.and_eq_true, decide_eq_true_eq] at h
    exact ⟨h.1, comes_of h.2⟩
  have one {i : Instr} {s : State} {g : Guard} {uses : Bool} {xs : TEnv → List (BitVec 512)} {p : TEnv → Prop} [DecidablePred p]
      {todo : TEnv → List TStep} {q : TRun → Bool} {n : Nat} (h : _ = true) :
      ∃ e, Issues i s e ∧ Elected e g 0 ∧ ShapesPass s e uses (xs e)
        ∧ p e ∧ ∃ st rest, todo e = st :: rest ∧ q (runStep s e 0 st) = true ∧ rest.length = n :=
    tile_ex (fun e => decide (p e) && Comes s e (todo e) q n) (fun _ h => both h) h
  and_intros <;> first
    | decide +kernel
    | exact one (by decide +kernel)
    | exact tile_of (by decide +kernel)
    | exact issues_of (by decide +kernel)
    | exact issues_ex (fun e => Comes _ e _ _ _) (fun e h => comes_of h) (by decide +kernel)

/-- XCVT with no binding, with a container that lies in the register, and with one that does not; codes of a number, of 0 and of NaN,
a scale of 1, and a value between two candidates; a container with an infinity. -/
def infContainer : Container := { container with bytes := container.bytes.take 0x88 ++ leBytes 4 0x40000000 ++ container.bytes.drop 0x8C }
theorem witness_SlotConversions :
    (∃ e, Issues (.xcvtEncode ⟨always, 5, 1, none, .f32, 0, 0⟩) (teamWith) e ∧ (teamWith).slotBlocked e.l.asid 0 = false
      ∧ (teamWith).boundTo e.l.asid 0 = none)
    ∧ (∃ e, Issues (.xcvtEncode ⟨always, 5, 1, none, .f32, 3, 0⟩) (teamWith id id (bound)) e ∧ (teamWith id id (bound)).slotBlocked e.l.asid 0 = false
      ∧ ∃ b, (teamWith id id (bound)).boundTo e.l.asid 0 = some b ∧ b.ct.cb = 1)
    ∧ (∃ e, Issues (.xcvtDecode ⟨always, 6, 5, some 9, .f16, 0, 0⟩) (teamWith id id (bound)) e
      ∧ (teamWith id id (bound)).slotBlocked e.l.asid 0 = false ∧ ∃ b, (teamWith id id (bound)).boundTo e.l.asid 0 = some b ∧ b.ct.cb = 1)
    ∧ (let wide : Container := { container with bytes := container.bytes.take 8 ++ leBytes 1 9 ++ leBytes 1 2 ++ container.bytes.drop 10 }
       wide.cb = 2 ∧ ¬(wide.cb = 1 ∨ (wide.cb = 2 ∧ 2 < 2) ∨ (wide.cb ≠ 1 ∧ wide.cb ≠ 2 ∧ 2 = 0)))
    ∧ ((FVal.fin false 1 0).isNan = false ∧ s16 0xFFFF = none)
    ∧ (container.enc 0 1 = 0 ∧ number (.fin false 1 (-1)) = some (1 / 2) ∧ s16Value 0x3F80 = some 1
      ∧ (∃ y ∈ container.candidates, (y.2 : Rat) * 2 ^ (-79 : Int) ≤ 1 / 2 / 1)
      ∧ ∃ y ∈ container.candidates, (1 / 2 / 1 : Rat) ≤ y.2 * 2 ^ (-79 : Int))
    ∧ (number (container.decode 1) = some 1 ∧ number (container.decode 0) = some 0 ∧ (container.decode 3).isNan = true)
    ∧ infContainer.decode 2 = .inf false := by
  refine ⟨issues_of (by decide +kernel), ?_, ?_, ?_, ?_, ⟨?_, ?_, ?_, ⟨(0, 0), ?_⟩, (1, 2 ^ 79), ?_⟩, ?_, ?_⟩
  case refine_1 | refine_2 =>
    exact issues_ex (fun e => !(teamWith id id (bound)).slotBlocked e.l.asid 0
        && ((teamWith id id (bound)).boundTo e.l.asid 0).any fun b => b.ct.cb == 1)
      (fun e h => by simp only [Bool.and_eq_true, Bool.not_eq_true', Option.any_eq_true, beq_iff_eq] at h; exact h) (by decide +kernel)
  all_goals decide +kernel


/-- A lock object: the lock word, COMMIT, CODE, STATE, LEN and the frame's EPOCH; all else 0 (R433 to R435). -/
def lockObj (w commit : Nat) (code : Nat := 0x10000) (state : Nat := 1) (len : Nat := 4) (epoch : Nat := 3) : List Byte :=
  leBytes 16 w ++ leBytes 8 commit ++ leBytes 8 0 ++ leBytes 16 code ++ leBytes 1 0 ++ leBytes 1 state ++ leBytes 1 len ++ leBytes 1 0
    ++ leBytes 4 epoch ++ leBytes 216 0
/-- The object at 0x10400, and a team that enters it. -/
def locked (w commit : Nat) (more : State → State := id) (code : Nat := 0x10000) (state len epoch : Nat := 3) : State :=
  teamWith (regs [(12, 0x10400)]) id fun s => more (stored 0x10400 (lockObj w commit code (state % 3 + 1) len epoch) s)
/-- A team inside its capsule of epoch 3, and its object. -/
def inside (w commit : Nat) (more : State → State := id) (len : Nat := 4) (state : Nat := 1) : State :=
  teamWith (fun t => { t with inCap := true, creg := List.replicate 14 0 ++ [3, 0x10400] }) id
    fun s => more (stored 0x10400 (lockObj w commit 0x10000 state len 3) s)
def entry : CapenterOp := ⟨4, 12, 5⟩

/-- The elected lane is the first, the object is reached, and q holds of it. -/
def Reached (s : State) (e : TEnv) (va : DWord) (q : State → CapObj → Bool) : Bool :=
  decide (0 ∈ e.workers always ∧ ∀ j ∈ e.workers always, 0 ≤ j) && Ends (openObj s e va (List.range 17)) q
theorem reached_of {i : Instr} {s : State} {va : TEnv → DWord} {r : TEnv → Prop} {p : TEnv → State → CapObj → Prop} [DecidablePred r]
    [∀ e s1 o, Decidable (p e s1 o)]
    (h : (match s.teamEnv with
      | some e => decide (preCause s e i = none ∧ e.waits i = false
          ∧ (decide (r e) && Reached s e (va e) fun s1 o => decide (p e s1 o)) = true)
      | none => false) = true) : ∃ e, Issues i s e ∧ r e ∧ Elected e always 0 ∧ ∃ s1 o, openObj s e (va e) (List.range 17) = .ok s1 o ∧ p e s1 o :=
  issues_ex _ (fun e h => by
    simp only [Reached, Bool.and_eq_true] at h
    exact ⟨of_decide_eq_true h.1, elected_of h.2.1, ok_of (fun _ _ h => of_decide_eq_true h) h.2.2⟩) h

/-- CAPENTER on an object that is broken, free, held, and adoptable with a delivery slot that is free; CAPEXIT of a holder at the end
of its capsule, and of a displaced holder with no slot, with a slot that waits, and with one that is delivered. -/
theorem witness_CapsuleControl :
    (∀ w ∈ [8, 0x300000000, 0x300000001], ∃ e, Issues (.capenter entry) (locked w 0) e ∧ (e.t.frags.length = 1 ∧ e.t.adopt = none
        ∧ capRegionOk e.l e.cur.pc (entry.len.val + 1) = true) ∧ Elected e always 0
      ∧ ∃ s1 o, openObj (locked w 0) e ((e.t.seat 0).rd2 (12 : VReg).val) (List.range 17) = .ok s1 o
        ∧ (o.get s1 0 8 = w ∧ o.va.toNat % 4096 + 272 ≤ 4096 ∧ s1.Inv))
    ∧ (lkBroken 8 = true ∧ (lkBroken 0x300000000 = false ∧ lkHeld 0x300000000 = false)
      ∧ lkBroken 0x300000001 = false ∧ lkHeld 0x300000001 = true ∧ lkAdoptable 0x300000001 = false)
    ∧ (∃ e, Issues (.capenter entry) (locked 0x300000003 0) e ∧ (e.t.frags.length = 1 ∧ e.t.adopt = none
        ∧ capRegionOk e.l e.cur.pc (entry.len.val + 1) = true) ∧ Elected e always 0
      ∧ ∃ s1 o, openObj (locked 0x300000003 0) e ((e.t.seat 0).rd2 (12 : VReg).val) (List.range 17) = .ok s1 o
        ∧ (lkBroken (o.get s1 0 8) = false ∧ lkHeld (o.get s1 0 8) = true ∧ lkAdoptable (o.get s1 0 8) = true ∧ frameOk o s1 = true
          ∧ bits (o.dslot s1 3) 32 1 = 0))
    ∧ (∃ e, Issues (.capexit 5) (inside 0x300000001 0x300000000 id 1) e ∧ True ∧ Elected e always 0
      ∧ ∃ s1 o, openObj (inside 0x300000001 0x300000000 id 1) e (e.t.creg.getD 15 0) (List.range 17) = .ok s1 o
        ∧ (Ends (applyWhole (reclaim s1 o 3 false) e o e.t.creg (o.commit (reclaim s1 o 3 false))) fun s3 _ => decide s3.Inv) = true
        ∧ (bitsAt (e.t.creg.getD 14 0) 0 32 = 3 ∧ holds (o.get (reclaim s1 o 3 false) 0 8) 3 false = true
          ∧ (e.cur.pc.toNat - o.get (reclaim s1 o 3 false) 0x20 8) / 8 + 1 = o.get (reclaim s1 o 3 false) 0x32 1
          ∧ frameOk o (reclaim s1 o 3 false) = true ∧ o.va.toNat % 4096 + 272 ≤ 4096 ∧ bypass o.lo = false))
    ∧ (∃ e, Issues (.capexit 5) (inside 0x400000001 0) e ∧ True ∧ Elected e always 0
      ∧ ∃ s1 o, openObj (inside 0x400000001 0) e (e.t.creg.getD 15 0) (List.range 17) = .ok s1 o
        ∧ holds (o.get (reclaim s1 o 3 false) 0 8) 3 false = false ∧ o.slotOf (reclaim s1 o 3 false) 3 = none)
    ∧ ∀ b ∈ [0, 1], ∃ e, Issues (.capexit 5) (inside 0x400000005 0 (stored 0x104F0 (leBytes 8 (0x100000003 + b * 2 ^ 33)))) e ∧ True ∧ Elected e always 0
      ∧ ∃ s1 o, openObj (inside 0x400000005 0 (stored 0x104F0 (leBytes 8 (0x100000003 + b * 2 ^ 33)))) e (e.t.creg.getD 15 0) (List.range 17) = .ok s1 o
        ∧ holds (o.get (reclaim s1 o 3 false) 0 8) 3 false = false ∧ o.slotOf (reclaim s1 o 3 false) 3 = some 2
        ∧ bits (o.dslot (reclaim s1 o 3 false) 2) 33 1 = b := by
  and_intros <;> first
    | exact reached_of (by decide +kernel)
    | decide
    | simp only [List.forall_mem_cons]; exact ⟨reached_of (by decide +kernel), reached_of (by decide +kernel), reached_of (by decide +kernel), by simp⟩
    | simp only [List.forall_mem_cons]; exact ⟨reached_of (by decide +kernel), reached_of (by decide +kernel), by simp⟩

/-- The executor holds the lock at index x, as Holding says, and q holds of what the step computes from there. -/
def HoldsAt (s : State) (e : TEnv) (x : Nat) (q : State → CapObj → Commit → State → List DWord → Bool) : Bool :=
  Ends (openObj s e (e.t.creg.getD 15 0) stepUnits) fun s1 o =>
    let h := bitsAt (e.t.creg.getD 14 0) 0 32
    let s2 := reclaim s1 o h false
    decide (holds (o.get s2 0 8) h false = true ∧ x = (e.cur.pc.toNat - o.get s1 0x20 8) / 8 ∧ x + 1 ≠ o.get s2 0x32 1
      ∧ frameOk o s2 = true ∧ (o.commit s2).step ≠ 256)
      && Ends (applyWhole s2 e o e.t.creg (o.commit s2)) fun s3 c => q s2 o (o.commit s2) s3 c
theorem holding_of {s : State} {e : TEnv} {x : Nat} {q : State → CapObj → Commit → State → List DWord → Bool} (h : HoldsAt s e x q = true) :
    ∃ o k s3 c, Holding s e o x k s3 c ∧ ∃ s2, q s2 o k s3 c = true := by
  obtain ⟨s1, o, ho, h⟩ := ok_of (p := fun s1 o => _) (fun _ _ h => h) h
  simp only [Bool.and_eq_true, decide_eq_true_eq] at h
  obtain ⟨s3, c, hc, h3⟩ := ok_of (p := fun s3 c => _) (fun _ _ h => h) h.2
  exact ⟨o, _, s3, c, ⟨⟨s1, _, ho, rfl, h.1.1, h.1.2.1, h.1.2.2.1, h.1.2.2.2.1, rfl, hc⟩, h.1.2.2.2.2⟩, _, h3⟩

/-- The step computes, and what it commits applies; or it fails. -/
def stepGoes (e : TEnv) (i : Instr) (o : CapObj) (x : Nat) (k : Commit) (s3 : State) (c : List DWord) : Bool :=
  Ends (capCompute s3 e i x (o.get s3 0x32 1) c (lkEpoch (o.get s3 0 8)) k.step) fun s4 new =>
    Ends (applyCommit (o.put (o.put s4 0x10 8 new.w) 0x18 8 new.value) e o c new) fun _ _ => true
def stepBad (e : TEnv) (i : Instr) (o : CapObj) (x : Nat) (k : Commit) (s3 : State) (c : List DWord) : Bool :=
  Fails (capCompute s3 e i x (o.get s3 0x32 1) c (lkEpoch (o.get s3 0 8)) k.step) fun _ => true

/-- A holder at index 0 whose step goes on, and whose step fails; D of c14; an access that is granted; targets at the ends of a
capsule; a condition that holds and one that does not. -/
theorem witness_CapsuleSteps :
    (∃ e, Issues (.capop (.mov 13 (.imm 7))) (inside 0x300000001 0x300000000) e ∧ ∃ o k s3 c, Holding (inside 0x300000001 0x300000000) e o 0 k s3 c
      ∧ ∃ _s2 : State, stepGoes e (.capop (.mov 13 (.imm 7))) o 0 k s3 c = true)
    ∧ (∃ e, Issues (.capbr (.al 0xFF)) (inside 0x300000001 0x300000000) e ∧ ∃ o k s3 c, Holding (inside 0x300000001 0x300000000) e o 0 k s3 c
      ∧ ∃ _s2 : State, stepBad e (.capbr (.al 0xFF)) o 0 k s3 c = true)
    ∧ (StepForm (.capop (.mov 13 (.imm 7))) ∧ StepForm (.capbr (.al 0xFF)))
    ∧ ((∃ d, capDest (.capop (.mov 14 (.imm 7))) = some d ∧ 14 ≤ d.val) ∧ (∃ d, capDest (.capcas ⟨true, 15, 2, 3, 4⟩) = some d ∧ 14 ≤ d.val)
      ∧ (13 : CReg).val < 14)
    ∧ (∃ e, Issues (.nop always) (teamWith) e ∧ (∃ s4 t, capAccess (teamWith) e 0x10200 8 .load .syncRead = .ok s4 t ∧ True)
      ∧ ∃ s4 t, capAccess (teamWith) e 0x10204 4 .store .syncWrite = .ok s4 t ∧ True)
    ∧ (¬(0 ≤ (63 : Int) + (1 : BitVec 8).toInt ∧ (63 : Int) + (1 : BitVec 8).toInt < 64) ∧ 0 ≤ (3 : Int) + (0xFD : BitVec 8).toInt
      ∧ (3 : Int) + (0xFD : BitVec 8).toInt < 4)
    ∧ ((([5, 9] : List DWord).getD 0 0).toInt < (([5, 9] : List DWord).getD 1 0).toInt ∧ ¬([5, 9] : List DWord).getD 0 0 = ([5, 9] : List DWord).getD 1 0) := by
  refine ⟨?_, ?_, ⟨Or.inr (Or.inr (Or.inr (Or.inl ⟨_, rfl⟩))), Or.inr (Or.inr (Or.inr (Or.inr ⟨_, rfl⟩)))⟩,
    ⟨⟨14, rfl, by decide⟩, ⟨15, rfl, by decide⟩, by decide⟩, ?_, by decide, by decide⟩
  · exact issues_ex (fun e => HoldsAt _ e 0 fun _ o k s3 c => stepGoes e _ o 0 k s3 c) (fun e h => holding_of h) (by decide +kernel)
  · exact issues_ex (fun e => HoldsAt _ e 0 fun _ o k s3 c => stepBad e _ o 0 k s3 c) (fun e h => holding_of h) (by decide +kernel)
  · exact issues_ex (fun e => Ends (capAccess (teamWith) e 0x10200 8 .load .syncRead) (fun _ _ => true)
        && Ends (capAccess (teamWith) e 0x10204 4 .store .syncWrite) (fun _ _ => true))
      (fun e h => by
        simp only [Bool.and_eq_true] at h
        exact ⟨ok_of (fun _ _ _ => trivial) h.1, ok_of (fun _ _ _ => trivial) h.2⟩) (by decide +kernel)

/-- The team with a solve state, and the block's solve context changed. -/
def solving (w : SolveWait) (g : Solve → Solve := id) (more : State → State := id) : State :=
  teamWith (fun t => { shaped [shape 7 2 0 [4], shape 7 2 64 [4]] t with solve := w }) (fun b => { b with solve := g b.solve }) more
def solveTile : BitVec 512 := shape 7 2 0 [4]

/-- SOLVE.BEGIN and SOLVE.END of a team that leaves, that repeats, that arrives first and last; histories that fit and do not; named
tiles that differ, and that break the checks; values of SOLVE.SET at their bounds; SBRA with IMM 0 in each case. -/
theorem witness_Solving :
    (∃ e, Issues (.solveBegin (.one 0)) (solving .exitNow) e ∧ (e.t.frags.length = 1 ∧ e.t.solve = .exitNow ∧ (solving .exitNow).Inv))
    ∧ (∃ e, Issues (.solveBegin (.one 9)) (solving .none) e ∧ (e.t.frags.length = 1 ∧ e.t.solve = .none
      ∧ (carriedCause (solving .none) e ((namedTiles (.one 9)).map e.t.shape)).isSome = true))
    ∧ (∃ e, Issues (.solveBegin (.one 0)) (solving .none fun v => { v with hbase := 128, depth := 8 }) e ∧ (e.t.frags.length = 1 ∧ e.t.solve = .none
      ∧ carriedCause (solving .none fun v => { v with hbase := 128, depth := 8 }) e ((namedTiles (.one 0)).map e.t.shape) = none ∧ e.b.solve.state ≠ 1
      ∧ e.l.pant < e.b.solve.hbase.toNat + (3 * e.b.solve.depth.toNat + 2) * 4 * carriedCount ((namedTiles (.one 0)).map e.t.shape)))
    ∧ (∃ e, Issues (.solveBegin (.one 0)) (solving .none (fun v => { v with hbase := 128, depth := 8 }) (withLaunch fun l => { l with pant := 544 })) e
      ∧ (e.t.frags.length = 1 ∧ e.t.solve = .none ∧ (solving .none).Inv
        ∧ e.b.solve.hbase.toNat + (3 * e.b.solve.depth.toNat + 2) * 4 * carriedCount ((namedTiles (.one 0)).map e.t.shape) = e.l.pant
        ∧ carriedCause (solving .none (fun v => { v with hbase := 128, depth := 8 }) (withLaunch fun l => { l with pant := 544 })) e
          ((namedTiles (.one 0)).map e.t.shape) = none ∧ e.b.solve.state ≠ 1))
    ∧ (∃ e, Issues (.solveBegin (.one 1)) (solving .none fun v => { v with state := 1, tiles := [solveTile] }) e ∧ (e.t.frags.length = 1 ∧ e.t.solve = .none
      ∧ carriedCause (solving .none fun v => { v with state := 1, tiles := [solveTile] }) e ((namedTiles (.one 1)).map e.t.shape) = none
      ∧ e.b.solve.state = 1 ∧ sameTiles ((namedTiles (.one 1)).map e.t.shape) e.b.solve.tiles = false))
    ∧ (∃ e, Issues (.solveBegin (.one 0)) (solving .none fun v => { v with state := 1, tiles := [solveTile] }) e ∧ (e.t.frags.length = 1 ∧ e.t.solve = .none
      ∧ carriedCause (solving .none fun v => { v with state := 1, tiles := [solveTile] }) e ((namedTiles (.one 0)).map e.t.shape) = none
      ∧ e.b.solve.state = 1 ∧ sameTiles ((namedTiles (.one 0)).map e.t.shape) e.b.solve.tiles = true ∧ ∀ tm ∈ e.b.teams, tm.solve ≠ .atBegin))
    ∧ (∃ e, Issues (.solveEnd (.one 0)) (solving .exitNow) e ∧ (e.t.frags.length = 1 ∧ e.t.solve = .exitNow ∧ (solving .exitNow).Inv))
    ∧ (∃ e, Issues (.solveEnd (.one 0)) (solving .repeatTo) e ∧ (e.t.frags.length = 1 ∧ e.t.solve = .repeatTo ∧ (solving .repeatTo).Inv))
    ∧ (∃ e, Issues (.solveEnd (.one 0)) (solving .none) e ∧ (e.t.frags.length = 1 ∧ e.t.solve = .none ∧ e.b.solve.state ≠ 1))
    ∧ (∃ e, Issues (.solveEnd (.one 1)) (solving .none fun v => { v with state := 1, tiles := [solveTile] }) e ∧ (e.t.frags.length = 1 ∧ e.t.solve = .none
      ∧ e.b.solve.state = 1 ∧ sameTiles ((namedTiles (.one 1)).map e.t.shape) e.b.solve.tiles = false
      ∧ carriedCause (solving .none fun v => { v with state := 1, tiles := [solveTile] }) e ((namedTiles (.one 1)).map e.t.shape) = none))
    ∧ (∃ e, Issues (.solveEnd (.one 0)) (solving .none fun v => { v with state := 1, tiles := [solveTile] }) e ∧ (e.t.frags.length = 1 ∧ e.t.solve = .none
      ∧ e.b.solve.state = 1 ∧ sameTiles ((namedTiles (.one 0)).map e.t.shape) e.b.solve.tiles = true
      ∧ carriedCause (solving .none fun v => { v with state := 1, tiles := [solveTile] }) e ((namedTiles (.one 0)).map e.t.shape) = none))
    ∧ (∀ r ∈ [(9 : Word), 8], ∃ e, Issues (.solveSet ⟨.depth, 3⟩) (teamWith (regs [(3, r)])) e ∧ (0 ∈ e.workers always ∧ (∀ j ∈ e.workers always, 0 ≤ j)
      ∧ (e.t.seat 0).rd 3 = r ∧ e.b.solve.state ≠ 1))
    ∧ (∃ e, FIssues (.sbra 0) (foyerWith id fun b => { b with solve := { b.solve with repeats := 1, exits := 1 } }) e
      ∧ (e.b.solve.repeats ≠ 0 ∧ (foyerWith).Inv))
    ∧ (∃ e, FIssues (.sbra 0) (foyerWith id fun b => { b with solve := { b.solve with exits := 1 } }) e ∧ (e.b.solve.repeats = 0 ∧ e.b.solve.exits ≠ 0))
    ∧ (∀ v ∈ [1, 3], ∃ e, FIssues (.sbra 0) (foyerWith id fun b => { b with solve := { b.solve with state := v } }) e
      ∧ (e.b.solve.repeats = 0 ∧ e.b.solve.exits = 0 ∧ (e.b.solve.state = 1 ∨ e.b.solve.state = 3)))
    ∧ ∀ v ∈ [0, 2], ∃ e, FIssues (.sbra 0) (foyerWith id fun b => { b with solve := { b.solve with state := v } }) e
      ∧ (e.b.solve.repeats = 0 ∧ e.b.solve.exits = 0 ∧ e.b.solve.state ≠ 1 ∧ e.b.solve.state ≠ 3) := by
  and_intros <;> first
    | exact issues_of (by decide +kernel)
    | exact fissues_of (by decide +kernel)
    | simp only [List.forall_mem_cons]; exact ⟨issues_of (by decide +kernel), issues_of (by decide +kernel), by simp⟩
    | simp only [List.forall_mem_cons]; exact ⟨fissues_of (by decide +kernel), fissues_of (by decide +kernel), by simp⟩

/-- Bytes 0 to 4095 of the code page are no longer translated. -/
def unmapped (s : State) : State := { s with tlb := [] }
/-- A translation of both streams: native code at 0x20000 and 0x20800, entered at the entry points and left at the second addresses. -/
def translation (active : Bool) : Xlat :=
  ⟨[⟨0x20000, 2048, false, true, 0, none⟩, ⟨0x20800, 2048, true, true, 0, none⟩],
    [(0x10010, 0x20000), (Place.image.tent, 0x20000), (Place.image.fent, 0x20800)], active⟩
def moved (active : Bool) : Launch → Launch := fun l => { l with xlats := [⟨[], [], true⟩, translation active] }
def translated (active : Bool) : Launch := moved active (Place.launch 1 1 ⟨0, 0, 0⟩)
/-- An agent at an entry point moves to native code, and one in native code that has been uninstalled moves back. -/
theorem moves_to (foyer active : Bool) :
    MovesTo (translated active) foyer
      (if active then (if foyer then Place.image.fent else Place.image.tent) else if foyer then 0x20800 else 0x20000)
      (if active then (if foyer then 0x20800 else 0x20000) else if foyer then Place.image.fent else Place.image.tent) := by
  have older : ∀ y ∈ ([⟨[], [], true⟩] : List Xlat), ∀ q ∈ y.points, ¬Fits (translated active) foyer y
      (if active then (if foyer then Place.image.fent else Place.image.tent) else if foyer then 0x20800 else 0x20000) q := by
    intro y hy q hq
    rw [List.mem_singleton.mp hy] at hq
    cases hq
  have first : ¬Fits (translated active) foyer (translation active)
      (if active then (if foyer then Place.image.fent else Place.image.tent) else if foyer then 0x20800 else 0x20000) (0x10010, 0x20000) := by
    unfold Fits
    cases foyer <;> cases active <;> decide +kernel
  have second : ¬Fits (translated active) true (translation active) (if active then Place.image.fent else 0x20800)
      (Place.image.tent, 0x20000) := by
    unfold Fits
    cases active <;> decide +kernel
  cases foyer
  · refine ⟨[⟨[], [], true⟩], translation active, [], [(0x10010, 0x20000)], (Place.image.tent, 0x20000), [(Place.image.fent, 0x20800)],
      rfl, rfl, ?_, older, fun q hq => List.mem_singleton.mp hq ▸ first, by cases active <;> decide +kernel⟩
    unfold Fits
    cases active <;> decide +kernel
  · refine ⟨[⟨[], [], true⟩], translation active, [], [(0x10010, 0x20000), (Place.image.tent, 0x20000)], (Place.image.fent, 0x20800), [],
      rfl, rfl, ?_, older, List.forall_mem_cons.mpr ⟨first, fun q hq => List.mem_singleton.mp hq ▸ second⟩, by cases active <;> decide +kernel⟩
    unfold Fits
    cases active <;> decide +kernel
/-- A check fails with a cause and with no second-stage part. -/
def failsWith (r : Except XErr Tr) (c : Cause) : Bool :=
  match r with
  | .error x => x.cause == c && x.s2 == none
  | .ok _ => false

/-- Each agent issues; a fetch that no translation reaches; fragments that wait long enough and one cycle short of it, and that parked
long enough and one branch short of it; agents that move at a safe point, both ways, with and without results due; loads that may be
written, over an older one to the same register and beside a load of another. -/
theorem witness_IssueEvents :
    ((∃ e, IsTeam (teamWith) e) ∧ (∃ e, IsFoyer (foyerWith) e) ∧ ∃ e p, IsRun (runWith) e ∧ runAt (runWith) e = some p ∧ e.p.key = p.key)
    ∧ (∀ s ∈ [unmapped (teamWith), unmapped (foyerWith)], s.fetchSpace.any (fun d => failsWith (s.check d.1 d.2 0x10000 8 .fetch) 0x20#8) = true)
    ∧ (∀ p ∈ [((1024 : Nat), true), (1023, true), (1024, false)], ((teamWith fun t => { t with frags := t.frags.map fun f => { f with parked := p.2, bec := p.1 } }).team 1 0 0).any
        (fun x => (x.frags[0]?).any fun g => (decide (g.parked = true ∧ 1024 ≤ g.bec)) == (p.1 == 1024 && p.2)) = true)
    ∧ (∀ p ∈ [((1030 : Nat), true), (1029, false)],
        let s := teamWith (fun t => { t with frags := t.frags.map fun f => { f with since := 6 } }) id fun s => { s with tick := p.1 }
        (s.team 1 0 0).any (fun x => (x.frags[0]?).any fun g =>
          decide (g.parked = false ∧ g.stalled = false ∧ g.since ≠ 0 ∧ g.since + 1024 ≤ s.tick) == p.2) = true)
    ∧ (∀ p ∈ [((1030 : Nat), true), (1029, false)], let s := foyerWith (fun f => { f with since := 6 }) id fun s => { s with tick := p.1 }
        ((s.launch 1).bind fun l => l.block 0).any (fun x =>
          decide (x.foyer.stalled = false ∧ x.foyer.since ≠ 0 ∧ x.foyer.since + 1024 ≤ s.tick) == p.2) = true)
    ∧ (∃ ln, (teamWith id id (withLaunch (moved true))).launch 1 = some ln ∧ MovesTo ln false Place.image.tent 0x20000)
    ∧ (∀ p ∈ [([pending], ([] : List HOp)), ([], [hearthOp 1 .mtopk]), ([], [])], ((teamWith fun t => hearths p.2 1 0 { t with pend := p.1 }).team 1 0 0).any
        fun x => decide (x.frags.map Frag.pc = [Place.image.tent]) && decide (x.pend ≠ [] ∨ ∃ o ∈ x.hearth.ops, o.kind = .mtopk) == (p != ([], [])))
    ∧ (∃ ln x, (foyerWith id id (withLaunch (moved true))).launch 1 = some ln ∧ ln.block 0 = some x ∧ x.foyer.pend = [] ∧ MovesTo ln true x.foyer.pc 0x20800)
    ∧ ((teamWith fun t => { t with pend := [{ pending with sb := 2 }, pending, { pending with reg := 101 }] }).team 1 0 0).any (fun x =>
        (x.pend[1]?).any (fun p => p.peers.isEmpty) && (x.pend[2]?).any fun p => decide (∀ q ∈ x.pend.take 2, q.reg + q.count ≤ p.reg)) = true
    ∧ (((foyerWith fun f => { f with pend := [⟨40, 7, 2, none⟩] }).launch 1).bind fun l => l.block 0).any
        (fun x => (x.foyer.pend[0]?).any fun p => p.peer == none && decide ((sreg p.reg).val < x.foyer.s.length)) = true := by
  obtain ⟨x, hx, hp, hc⟩ : ∃ x, (translated true).block 0 = some x ∧ x.foyer.pend = [] ∧ x.foyer.pc = Place.image.fent := by
    have h : ((translated true).block 0).any (fun x => decide (x.foyer.pend = [] ∧ x.foyer.pc = Place.image.fent)) = true := by
      decide +kernel
    obtain ⟨x, hx, h⟩ := (Option.any_eq_true _ _).mp h
    exact ⟨x, hx, of_decide_eq_true h⟩
  have inTeam : (teamWith id id (withLaunch (moved true))).launch 1 = some (translated true) := by decide +kernel
  have inFoyer : (foyerWith id id (withLaunch (moved true))).launch 1 = some (translated true) := by decide +kernel
  have toFoyer : MovesTo (translated true) true x.foyer.pc 0x20800 := hc ▸ moves_to true true
  refine ⟨⟨?_, ?_, ?_⟩, ?_, ?_, ?_, ?_, ⟨_, inTeam, moves_to false true⟩, ?_, ⟨_, _, inFoyer, hx, hp, toFoyer⟩, ?_⟩
  case refine_4 | refine_5 | refine_6 | refine_7 | refine_8 | refine_9 => and_intros <;> decide +kernel
  · exact (issues_of (i := .nop always) (p := fun e => (teamWith).inPrologue = false) (by decide +kernel)).imp fun e h => ⟨h.2, h.1.env⟩
  · exact (fissues_of (i := .smov 0 0) (s := foyerWith) (p := fun _ => foyerWith.teamEnv.isNone = true) (by decide +kernel)).imp
      fun e h => ⟨h.1.kernel, Option.isNone_iff_eq_none.mp h.2, h.1.env⟩
  · exact (pissues_of (i := .smov 0 0) (s := runWith) (p := fun e => (runAt (runWith) e).any fun p => e.p.key == p.key) (by decide +kernel)).elim fun e h => by
      obtain ⟨p, hp, hk⟩ := (Option.any_eq_true _ _).mp h.2
      exact ⟨e, p, ⟨h.1.1, h.1.2⟩, hp, by simpa using hk⟩

/-- The launch has a service ring whose header is at 0x10800 and whose 64 entries begin at 0x10000. -/
def ringed (dstop : Bool := false) (pidx : Nat := 0) : State → State := fun s =>
  { withLaunch (fun l => { l with ring := some 0x10800, dstop := dstop }) s with rings := [⟨0x10800, 0x10000, 6, pidx⟩], linkUp := true }

/-- Traps of a team and of a Foyer context, with a service ring and without, without debug stop. -/
theorem witness_TrapEntry :
    (∃ e, Issues (.nop always) (teamWith id id ringed) e ∧ (e.l.ring = some 0x10800 ∧ e.t.lockOf = none ∧ e.l.dstop = false))
    ∧ (∃ e, Issues (.nop always) (teamWith) e ∧ e.l.ring = none)
    ∧ (∃ e, FIssues (.smov 0 0) (foyerWith id id ringed) e ∧ (e.l.ring = some 0x10800 ∧ e.b.foyer.pend = [] ∧ e.l.dstop = false))
    ∧ ∃ e, FIssues (.smov 0 0) (foyerWith) e ∧ e.l.ring = none := by
  and_intros <;> first
    | exact issues_of (by decide +kernel)
    | exact fissues_of (by decide +kernel)

/-- TRAP with a ring and without; TRAP of a system code in a launch that is none; TFENCE with no flag that is enabled, and with the
lowest of two; what an envelope withholds. -/
def withheld (k : Nat) (v : DWord) : State → State := withFunc fun f => { f with fenv := f.fenv.set k v }
theorem witness_SystemInstructions :
    (∃ e, Issues (.trap ⟨4, 0x21⟩) (teamWith id id ringed) e ∧ (0 ∈ e.workers always ∧ (∀ j ∈ e.workers always, 0 ≤ j) ∧ e.l.ring.isSome = true))
    ∧ (∃ e, Issues (.trap ⟨4, 0x21⟩) (teamWith) e ∧ (0 ∈ e.workers always ∧ (∀ j ∈ e.workers always, 0 ≤ j) ∧ e.l.ring = none))
    ∧ ((teamWith id id (withLaunch fun l => { l with fn := 1 })).teamEnv.any fun e =>
        order5 e.l (.trap ⟨4, 0xFF00⟩) && !e.t.inCap && decide (e.l.fn ≠ 0)) = true
    ∧ (∃ e, Issues .tfence (teamWith fun t => { t with asf := 0x48, ate := 0x37 }) e
      ∧ ∀ k, k < 7 → ¬(e.t.asf.getLsbD k = true ∧ e.t.ate.getLsbD k = true))
    ∧ (∃ e, Issues .tfence (teamWith fun t => { t with asf := 0x48, ate := 0x4F }) e
      ∧ (e.t.asf.getLsbD 3 = true ∧ e.t.ate.getLsbD 3 = true ∧ ∀ j, j < 3 → ¬(e.t.asf.getLsbD j = true ∧ e.t.ate.getLsbD j = true)))
    ∧ (∃ e, Issues (.clrf 0x7F) (teamWith) e) ∧ (∃ e, Issues .brk (teamWith) e)
    ∧ (∃ e, Issues (.featq ⟨2, 1⟩) (teamWith) e ∧ ((teamWith).func e.l.fn).isSome = true)
    ∧ ((teamWith id id (withheld 2 0x3D)).teamEnv.any fun e => order5 e.l (.fsqrtF64 ⟨always, 2, 4, .rn, false⟩)
        && usesFp64 (.fsqrtF64 ⟨always, 2, 4, .rn, false⟩) && ((teamWith id id (withheld 2 0x3D)).func e.l.fn).any fun f => !(f.fenv.getD 2 0).getLsbD 1) = true
    ∧ ((teamWith id id (withheld 1 0x7000)).teamEnv.any fun e => order5 e.l (.mma { mmaOk with fm := .slot 7 })
        && ((teamWith id id (withheld 1 0x7000)).func e.l.fn).any fun f => decide (slotOf (.mma { mmaOk with fm := .slot 7 }) = some 7
          ∧ ((f.fenv.getD 1 0).extractLsb' 12 4).toNat ≤ 7)) = true := by
  and_intros <;> first
    | exact issues_of (by decide +kernel)
    | exact (issues_of (p := fun _ => True) (by decide +kernel)).imp fun e h => h.1
    | decide +kernel

/-- A team, a Foyer context, a copy and a Hearth operation whose record stands at index 5 of the ring. -/
def record (a : AgentId) (r : ResumeTo) (ix : Option Nat := some 5) (pc : DWord := Place.image.tent) : Record :=
  ⟨9, 1, a, 2, 0x24#8, 4, [], pc, 0, r, ix⟩
def reported (a : AgentId) (r : ResumeTo) (ix : Option Nat := some 5) (cidx : Nat := 0) (pidx : Nat := 62) : State :=
  { teamWith (fun t => { t with parked := some 9 }) (fun b => { b with foyer := { b.foyer with parked := some 9 } })
      fun s => stored 0x10810 (leBytes 8 cidx) (ringed true pidx (withFunc (fun f => { f with resumel := 1 }) s)) with
    records := [record a r ix (match a with | .foyer _ _ => Place.image.fent | _ => Place.image.tent)] }

/-- The record of a state is the one that an index names, as Named says. -/
def NamesIt (s : State) : Bool :=
  (s.func 0).any fun f => (s.launch (f.resumel.extractLsb' 0 32).toNat).any fun named => named.fn == 0 && match s.records with
    | [r] => (s.launch r.launch).any fun ln => r.ix == some 5 && ln.ring == named.ring && ln.fn == 0
    | _ => false
theorem named_of {s : State} (h : NamesIt s = true) : ∃ r ln, Named s 0 5 r ln ∧ s.records = [r] ∧ s.launch r.launch = some ln := by
  simp only [NamesIt, Option.any_eq_true, Bool.and_eq_true, beq_iff_eq] at h
  obtain ⟨f, hf, named, hn, h0, h⟩ := h
  split at h
  next r hr =>
    simp only [Option.any_eq_true, Bool.and_eq_true, beq_iff_eq] at h
    obtain ⟨ln, hl, ⟨h5, h6⟩, h7⟩ := h
    exact ⟨r, ln, ⟨f, named, [], [], hf, hn, h0, by simp [hr], ⟨hl, by simpa using h5, h6, h7⟩, by simp⟩, hr, hl⟩
  next => simp at h

/-- The Porch, too, reaches the page. -/
def porched (s : State) : State := { s with tlb := Place.page none 1 :: s.tlb }

/-- The ring has room for a record after the padding, and has not; a record of each agent that resume may release; the launch of TERM in
each state. -/
theorem witness_ServiceRing :
    (∀ p ∈ [((3 : Nat), true), (4, false)], ((reported (.team 1 0 0) .reissue none p.1).records.find? fun r => r.id == 9).any (fun r =>
        ((reported (.team 1 0 0) .reissue none p.1).launch r.launch).any fun ln =>
          ((reported (.team 1 0 0) .reissue none p.1).rings.find? fun g => some g.hdr == ln.ring).any fun g =>
            r.ix == none && (decide ((reported (.team 1 0 0) .reissue none p.1).mem.num (g.hdr + 0x10) 8 + 2 ^ g.lsize < startAt (2 ^ g.lsize) g.pidx r.len + r.len)) == p.2) = true)
    ∧ (∀ c ∈ [ResumeTo.after 0x10008, .reissue, .skip, .syscall 0x10008], (reported (.team 1 0 0) c).responds 0 = true ∧ NamesIt (reported (.team 1 0 0) c) = true
        ∧ ((reported (.team 1 0 0) c).team 1 0 0).any (fun x => x.parked == some 9 && (x.fragOf (record (.team 1 0 0) c)).any fun i => (x.frags[i]?).isSome) = true)
    ∧ ((porched (reported (.team 1 0 0) (.syscall 0x10008))).launch 1).any (fun ln => ((porched (reported (.team 1 0 0) (.syscall 0x10008))).replyOf ln 5).isSome) = true
    ∧ ((unmapped (reported (.team 1 0 0) (.syscall 0x10008))).launch 1).any
        (fun ln => ln.dstop && ((unmapped (reported (.team 1 0 0) (.syscall 0x10008))).replyOf ln 5).isNone) = true
    ∧ (∀ a ∈ [(AgentId.foyer 1 0, ResumeTo.after 0x10808), (.foyer 1 0, .reissue), (.copy 1 0 0, .copyOp 1 0), (.hearth 1 0 0, .hearthOp 2)],
        NamesIt (reported a.1 a.2) = true ∧ ((reported a.1 a.2).launch 1).any (fun ln => ln.st != .evicted && ln.st != .ended
          && (ln.block 0).any fun x => x.foyer.parked == some 9 && x.teams.length == 1) = true)
    ∧ (∀ st ∈ [LaunchSt.waiting, .running, .stopped, .evicted], ((withLaunch (fun l => { l with st := st }) (reported (.team 1 0 0) .reissue)).launch 1).any
        (fun ln => ln.fn == 0 && ln.st == st) = true)
    ∧ ((reported (.team 1 0 0) .none).launch 2).isNone = true := by decide +kernel
theorem witness_ServiceRing_named : ∃ r ln, Named (reported (.team 1 0 0) .reissue) 0 5 r ln ∧ (reported (.team 1 0 0) .reissue).records = [r]
    ∧ (reported (.team 1 0 0) .reissue).launch r.launch = some ln := named_of (by decide +kernel)

/-- Records that may be written and that may not: the first of its core, one behind it, one while a chain of the core is open, and one
of an engine. -/
def laterRecord : Record := { record (.foyer 1 0) .reissue none Place.image.fent with id := 10 }
def twoRecords : State :=
  let s := reported (.team 1 0 0) .reissue none
  { s with records := s.records ++ [laterRecord] }
def openChain (s : State) : State := withLaunch (fun l => { l with blocks := l.blocks.map fun b =>
  { b with foyer := { b.foyer with parked := none, chain := some [] } } }) s
theorem witness_RecordWrites :
    WritesAt (twoRecords) (record (.team 1 0 0) .reissue none) ((twoRecords).drainCore ⟨0, 0, 0⟩)
    ∧ ((twoRecords).coreOf laterRecord.agent = some ⟨0, 0, 0⟩ ∧ ∃ q, (twoRecords).coreStop ⟨0, 0, 0⟩ = some q ∧ q.id ≠ laterRecord.id)
    ∧ (openChain (reported (.team 1 0 0) .reissue none)).coreChained ⟨0, 0, 0⟩ = true
    ∧ WritesAt (twoRecords) { record (.copy 1 0 0) .none none with kind := 3 } (twoRecords)
    ∧ (let s := porched ((twoRecords).drainCore ⟨0, 0, 0⟩)
       match s.putEntries 1 0x10000 64 0 (entriesOf 64 0 (record (.team 1 0 0) .reissue none)), s.putEntries 1 0x20000 64 0 (entriesOf 64 0 laterRecord) with
       | .ok (some _), .error _ => true
       | _, _ => false) = true := by
  refine ⟨.inl ⟨.inr rfl, ⟨0, 0, 0⟩, record (.team 1 0 0) .reissue none, ?_, ?_, rfl, ?_, rfl⟩, ⟨?_, record (.team 1 0 0) .reissue none, ?_, ?_⟩, ?_,
    .inr ⟨fun h => absurd h.1 (by decide), rfl⟩, ?_⟩ <;> decide +kernel

/-- A module that is ready, with an address space 1 whose page at 0x10000 the Porch reaches, and queue 5 changed by f. -/
def up : State := porched { State.reset with boot := .ready, linkUp := true, asidctl := [(1, 1)] }
def baseQueue : Queue :=
  { Place.queue 5 1 with
    ring := 0x10000
    widxa := 0x10F00
    ridxa := 0x10F08
    cring := 0x10000
    cidxa := 0x10F10
    lsize := 6
    clsz := 6
    mapped := true }
def withQueue (f : Queue → Queue) (s : State := up) : State := { s with queues := [f baseQueue] }
/-- A format key record of a body. -/
def keyBody : List Byte := 4 :: List.replicate 96 0 ++ [0, 0, 0, 5, 0, 0, 0, 1] ++ List.replicate 48 0
def key : List Byte := (sha384 keyBody).take 16 ++ keyBody ++ List.replicate 7 0
theorem key_ok : keyOk key = true := by decide +kernel

/-- Each state of start-up and of recovery; a function that responds; a key that is well formed, room for it and none; the images of
BOOT_VERIFY that are refused (one that is accepted needs a key of Aelyn's, which Config leaves open). -/
theorem witness_BringUpEvents :
    (∀ b ∈ [BootSt.ready, .rom, .verifying, .recovery, .halted], ({ up with boot := b } : State).boot = b)
    ∧ imageErr 0 [] ≠ 0 ∧ leNat (([] : List Byte).take 4) ≠ 0x57464E41
    ∧ (up.linkUp = true ∧ up.recovering = false ∧ ({ up with recovering := true } : State).recovering = true ∧ up.responds 0 = true)
    ∧ (up.func 63).isSome = true ∧ (3 : Nat) ≤ ({ up with wdCount := 3 } : State).wdCount
    ∧ (((withFunc (fun f => { f with keys := [] }) up).func 0).any fun f => decide (f.keys.length < 8 ∧ key ∉ f.keys)) = true
    ∧ (((withFunc (fun f => { f with keys := List.replicate 8 key }) up).func 0).any fun f => decide (8 ≤ f.keys.length)) = true
    ∧ keyOk [] = false := by
  and_intros <;> decide +kernel
theorem witness_key : keyOk key = true := key_ok

/-- Each register has its function; values of FENV at their bounds; a function 1 that is live and not fixed, and one that is fixed. -/
theorem witness_RegisterWrites :
    (up.responds 0 = true ∧ up.responds 1 = false ∧ (∀ k, k < 64 → (up.func k).isSome = true))
    ∧ (({ up with boot := .recovery } : State).linkUp = true)
    ∧ (envelopeOk 0 1 ∧ ¬envelopeOk 0 0x100 ∧ envelopeOk 1 0x3008124 ∧ ¬envelopeOk 1 0x3018124 ∧ ¬envelopeOk 1 0x3009124 ∧ ¬envelopeOk 1 0x300812C ∧ ¬envelopeOk 1 0x3008125
      ∧ envelopeOk 2 0 ∧ envelopeOk 3 768 ∧ ¬envelopeOk 3 769)
    ∧ (((up.updFunc 1 fun f => { f with live := true }).func 1).any fun f => f.live && !f.fenvFixed) = true
    ∧ (Rising up.asidctl ∧ Rising up.peerrt ∧ ((Regs.get up.asidctl 1).extractLsb' 1 6).toNat = 0
      ∧ (Regs.get up.asidctl 4095).getLsbD 0 = false ∧ (Regs.get up.asidctl 1).getLsbD 0 = true)
    ∧ ((∀ p ∈ up.peerrt, p.2.getLsbD 0 = false) ∧ ∃ p ∈ ({ up with peerrt := [(3, 1)] } : State).peerrt, p.2.getLsbD 0 = true) := by
  refine ⟨?_, ?_, ?_, ?_, ⟨List.pairwise_singleton _ _, List.Pairwise.nil, ?_⟩, ?_, (3, 1), ?_⟩ <;> first
    | decide +kernel
    | simp [envelopeOk]

/-- A packet of dwords. -/
def packet (ds : List Nat) : List Byte := (ds ++ List.replicate (8 - ds.length) 0).flatMap (leBytes 8)
/-- A descriptor of a command queue in the page, whose VA the physical function's second stage passes. -/
def descriptor (bulk : Nat) (asid : Nat := 1) : List Byte :=
  leBytes 8 (bulk * 2 ^ 16 + 6 * 2 ^ 26 + bulk * 6 * 2 ^ 31 + asid * 2 ^ 36) ++ leBytes 8 0x10000 ++ leBytes 8 0x10F00 ++ leBytes 8 0x10F08
    ++ leBytes 8 (bulk * 0x10000) ++ leBytes 8 (bulk * 0x10F10) ++ leBytes 16 0
/-- The second stage passes an address of a function. -/
def passed (s : State) (fn at_ : Nat) : Bool :=
  match s.stage2 fn at_ .load with
  | .ok (_, pa) => backed pa && pa == at_
  | .error _ => false
def refusedAt (s : State) (fn at_ : Nat) : Bool :=
  match s.stage2 fn at_ .load with
  | .ok _ => false
  | .error _ => true

/-- A descriptor that can be reached and is valid, one that is not, one out of reach; an ID that is free and one that is not; a queue that
is halted and one that is not; packets in flight and none; a NOTIFY write; the parser's reads. -/
theorem witness_QueueEvents :
    (up.responds 0 = true ∧ passed up 0 0x10040 = true ∧ refusedAt (up.updFunc 1 fun f => { f with live := true, s2ctl := 1 }) 1 0x10040 = true)
    ∧ (descriptorOk (descriptor 0) false = true ∧ descriptorOk (descriptor 1) true = true ∧ descriptorOk (descriptor 2) false = false
      ∧ fieldOf (descriptor 0) 36 12 = 1 ∧ ((Regs.get up.asidctl 1).extractLsb' 1 6).toNat = 0)
    ∧ (up.idOk 0 0 = true ∧ (withQueue id).idOk 0 5 = false ∧ (∀ j, j < 0 → up.idOk 0 j = false)
      ∧ Ends (up.devRead (.porch up.nextKey) 1 0x10F08 .syncRead 8 8) (fun _ bs => leNat bs == 0) = true)
    ∧ ((withQueue fun q => { q with halted := true, destroy := true }).queue 5).any (fun x => x.halted && x.destroy && x.fn == 0) = true
    ∧ ((withQueue id).queue 5).any (fun x => !x.halted && !x.destroy && x.fn == 0 && (withQueue id).pkts.isEmpty) = true
    ∧ ((withQueue fun q => { q with mapped := false, notified := true }).queues.any fun q => q.ready && !q.mapped
        && decide (0 < (withQueue fun q => { q with mapped := false, notified := true }).freeSlots)
        && decide ((withQueue fun q => { q with mapped := false, notified := true }).held q.prio
            < (withQueue fun q => { q with mapped := false, notified := true }).classmin.getD q.prio 0)) = true
    ∧ ((withQueue id).queues.any fun q => q.mapped && q.ridx == q.widx && !q.notified) = true
    ∧ ((withQueue fun q => { q with notified := true }).queue 5).any (fun x => x.parsed
        && Ends ((stored 0x10F00 (leBytes 8 65) (withQueue id)).parserRead x x.widxa 8) (fun _ bs => decide (x.ridx + 2 ^ x.lsize < leNat bs))
        && Ends ((stored 0x10F00 (leBytes 8 64) (withQueue id)).parserRead x x.widxa 8) (fun _ bs => decide (x.ridx + 2 ^ x.lsize = leNat bs))
        && Fails ((unmapped (withQueue id)).parserRead x x.widxa 8) (fun _ => true)) = true
    ∧ (∀ n ∈ [0x100, 0x105, 0], ((withQueue fun q => { q with widx := 1 }).queue 5).any (fun x => x.parsed && decide (x.ridx < x.widx)
        && Ends ((stored 0x10000 (leBytes 8 n) (withQueue id)).parserRead x (x.slot x.ridx) 8)
          (fun s1 h => (fieldOf h 8 1 == (x.ridx / 2 ^ x.lsize + 1) % 2) == (n != 0)
            && Ends (s1.parserRead x (x.slot x.ridx) 64) fun s2 bs => match preStart { s2 with nextKey := s2.nextKey + 1 } x s2.nextKey bs with
              | .ok _ aux _ => aux.isEmpty
              | _ => false)) = true)
    ∧ ((withQueue id).queue 5).any (fun q => Ends ((withQueue id).devPut (.porch 7) q.asid q.ridxa (leBytes 8 (q.ridx + 1)) .syncWrite)
        fun _ _ => true) = true
    ∧ (∀ a ∈ [((0 : Nat), (0 : Nat)), (5, 0), (5, 1)],
        let s := { withQueue (fun q => { q with widx := 1 }) with pkts := [⟨7, 5, none, 0, packet [a.1], .held, a.2, [], none⟩] }
        (s.queue 5).any (fun x => x.mapped && !x.halted && s.pkts.all fun p => fieldOf p.bytes 0 8 == a.1 && p.sub == a.2) = true)
    ∧ (packetOk (packet [1, 0x10000, 0, 1]) = true ∧ fieldOf (packet [1, 0x10000, 0, 1]) 0 8 = 1
      ∧ (match checkedLaunch (withQueue id) (baseQueue) 7 (packet [1, 0x10000, 0, 1]) with | .refused _ n => n == 1 | _ => false) = true)
    ∧ (match (withQueue id).parserRead baseQueue (baseQueue.slot 0) 64 with
      | .ok s _ => (match preStart s baseQueue 7 (packet [6, 0x30000000]) with | .halt _ st _ => st == 6 | _ => false)
      | _ => false) = true := by
  refine ⟨?_, ?_, ⟨?_, ?_, by simp, ?_⟩, ?_, ?_, ?_, ?_, ?_, ?_, ?_, ?_, ⟨?_, ?_, ?_⟩, ?_⟩ <;> decide +kernel

/-- A packet of dwords in flight of queue 5 with the key 7. -/
def inHand (ds : List Nat) (f : Pkt → Pkt := id) (g : Queue → Queue := id) (s : State := up) : State :=
  { withQueue g s with pkts := [f ⟨7, 5, none, 0, packet ds, .started, 0, [], none⟩], nextKey := 8 }
/-- The packet of a TYPE is in hand, and q holds of it and its queue. -/
def Handed (s : State) (type : Nat) (q : Pkt → Queue → Bool) : Bool :=
  (s.pkt 7).any fun p => (s.queue p.queue).any fun x => fieldOf p.bytes 0 8 == type && p.st == .started && q p x
theorem handed_of {s : State} {type : Nat} {q : Pkt → Queue → Bool} (h : Handed s type q = true) : ∃ p x, InHand s 7 type p x ∧ q p x = true := by
  simp only [Handed, Option.any_eq_true, Bool.and_eq_true, beq_iff_eq] at h
  obtain ⟨p, hp, x, hx, ⟨h1, h2⟩, h3⟩ := h
  exact ⟨p, x, ⟨hp, hx, h1, h2⟩, h3⟩
def bulkDone (r : BulkRun) : Bool :=
  match r with
  | .done _ => true
  | _ => false
def bulkHolds (r : BulkRun) : Bool :=
  match r with
  | .held _ _ => true
  | _ => false
def bulkStops (r : BulkRun) : Option Nat :=
  match r with
  | .stop _ d _ => some d
  | _ => none
def launchPkt (k : Nat) : List Nat := [1, k, 0, 1]
/-- A LAUNCH that has been checked, and one with an earlier LAUNCH of its queue that has not started. -/
def checked : State := inHand (launchPkt 0x10000) fun p => { p with img := some Place.image }
def earlier : State := { checked with pkts := ⟨6, 5, none, 0, packet (launchPkt 0x10000), .started, 0, [], some Place.image⟩
                                              :: checked.pkts.map fun p => { p with ix := 1 } }
/-- A run of a prologue that has ended. -/
def ended (repeats : Bool) (launches : Nat) (res : Nat) : State :=
  { inHand [2, 0x10000, 0, res, 1] with prologues := [⟨7, 1, launches, 3, 0, [], false, some (1, 0), repeats, none⟩] }
/-- A FORMAT packet of a stream with this many requests. -/
def formatPkt (res sub n : Nat) : State :=
  (inHand [8, 0x10000, 0, res] fun p => { p with sub := sub, aux := [0x105] }).updFunc 0 fun f =>
    { f with stream := ⟨List.replicate n ⟨1, 1, 0, false, 0, 0, none, none, .queued, none, none⟩, 300, 0⟩ }
def running (next : Nat) : State := { inHand [7, 0x10000] with graphs := [⟨7, 64, [packet [0], packet [4]], next⟩] }

/-- Packets of each TYPE in hand: a LAUNCH that starts and one that is refused, shares at and beyond their bounds; runs of a prologue
that repeat and that have ended; a FENCE that is met, one that is not, one that cannot be reached; a SIGNAL; a TIMELINE of a counter and
of none; a COPY that is whole and one that stops; a FORMAT with room and without; a graph's packets. -/
theorem witness_PacketEvents :
    (∃ p x, InHand (inHand [0]) 7 0 p x ∧ !x.halted)
    ∧ Handed (inHand (launchPkt 0x10000)) 1 (fun p x => packetOk p.bytes && RefusedBy (checkedLaunch (inHand []) x 7 p.bytes) 1
        && Starts (checkedLaunch (stored 0x10000 kernel (inHand [])) x 7 p.bytes) fun s i => beginLaunch s x 7 p.bytes i) = true
    ∧ Handed (checked) 1 (fun p x => p.sub == 0 && p.img == some Place.image && (checked).pkts.all (fun r => r.key == 7)
        && Ends (beginLaunch (checked) x 7 p.bytes Place.image) fun _ l => l / 65536 == 5) = true
    ∧ Handed (earlier) 1 (fun p _ => (earlier).pkts.any fun r => r.queue == p.queue && r.parent == p.parent && decide (r.ix < p.ix)
        && fieldOf r.bytes 0 8 == 1 && r.sub == 0) = true
    ∧ (let i := Place.image; i.regShare ≤ 65536 ∧ i.sramShare ≤ 524288 ∧ i.sliceShare ≤ 65536 ∧ i.clg ≠ 0 ∧ fieldOf (packet (launchPkt 0)) 192 32 % i.clg ≠ 0
        ∧ 65536 < ({ i with lanes := 257, teams := 9 } : Image).regShare ∧ 524288 < ({ i with scra := 524289 } : Image).sramShare
        ∧ 65536 < ({ i with slice := 2049 } : Image).sliceShare)
    ∧ Handed (inHand [2, 0x10000, 0, 0, 2]) 2 (fun _ _ => (inHand [2, 0x10000, 0, 0, 2]).prologues.isEmpty) = true
    ∧ (∀ a ∈ [(true, (0 : Nat), (0 : Nat)), (true, 1, 0), (false, 0, 0), (false, 0, 0x10F20)], Handed (ended a.1 a.2.1 a.2.2) 2 (fun p _ =>
        ((ended a.1 a.2.1 a.2.2).prologues.find? fun r => r.key == 7).any fun r => r.outcome.isSome && !r.active && r.launch.isNone
          && r.repeats == a.1 && decide (r.launches < fieldOf p.bytes 256 16) == (a.2.1 == 0) && fieldOf p.bytes 192 64 == a.2.2) = true)
    ∧ Handed (ended false 0 0x10F20) 2 (fun p x => Ends ((ended false 0 0x10F20).devPut (.porch 7) x.asid (BitVec.ofNat 64 (fieldOf p.bytes 192 64))
        (leBytes 8 1) .plainStore) fun _ _ => true) = true
    ∧ (∀ n ∈ [0, 1], Handed (inHand [4, 0x10F40, 1] fun p => { p with aux := [0x10F60, BitVec.ofNat 64 n] }) 4 (fun p x =>
        Ends (pollFence (inHand [4]) 7 x.asid p.bytes p.aux 0 p.sub) fun _ m => m == 1 - n) = true)
    ∧ Handed (inHand [4, 0x10F40, 1] fun p => { p with aux := [0x20F60, 0] }) 4 (fun p x =>
        Fails (pollFence (inHand [4]) 7 x.asid p.bytes p.aux 0 p.sub) fun _ => true) = true
    ∧ Handed (inHand [4, 0x10F40, 1]) 4 (fun p x => p.aux.isEmpty && Ends (fenceList (stored 0x10F40 (leBytes 8 0x10F60) (inHand [4])) 7 x.asid p.bytes) fun s1 l =>
        Ends (pollFence s1 7 x.asid p.bytes l 0 p.sub) fun _ m => m == 1) = true
    ∧ (∀ n ∈ [0, 1], Handed (inHand [4, 0x10F40, 1] fun p => { p with sub := n }) 4 (fun p _ => (p.sub + 1 == 2 ^ fieldOf p.bytes 128 4) == (n == 1)) = true)
    ∧ (∀ a ∈ [0x10F28, 0x20F28], Handed (inHand [5, a, 1]) 5 (fun p x => p.sub == 0 && !x.halted && p.parent.isNone
        && (Ends ((inHand [5]).devAccess (.porch 7) x.asid (BitVec.ofNat 64 (fieldOf p.bytes 64 64)) 8 .atomic .syncWrite) (fun _ _ => true)
          || Fails ((inHand [5]).devAccess (.porch 7) x.asid (BitVec.ofNat 64 (fieldOf p.bytes 64 64)) 8 .atomic .syncWrite) (fun _ => a == 0x20F28))) = true)
    ∧ (∀ n ∈ [0, 1], Handed (inHand [6, 0x20000000, n]) 6 (fun p x => ((inHand [6]).counter x.fn none (fieldOf p.bytes 64 32)).any fun c =>
        decide (fieldOf p.bytes 128 64 ≤ c) == (n == 0)) = true)
    ∧ Handed (inHand [6, 0x30000000, 0]) 6 (fun p x => ((inHand [6]).counter x.fn none (fieldOf p.bytes 64 32)).isNone) = true
    ∧ Handed (inHand [3, 0x10100, 0x10300, 130]) 3 (fun p x => bulkDone (bulkCopy (inHand [3]) (.porch 7) x.asid 0x10100 0x10300 130 p.sub)) = true
    ∧ Handed (fullLog (inHand [3, 0x10100, 0x10300, 130])) 3 (fun p x =>
        bulkHolds (bulkCopy (fullLog (inHand [3])) (.porch 7) x.asid 0x10100 0x10300 130 p.sub)) = true
    ∧ Handed (inHand [3, 0x10100, 0x10F80, 130]) 3 (fun p x => bulkStops (bulkCopy (inHand [3]) (.porch 7) x.asid 0x10100 0x10F80 130 p.sub) == some 128) = true
    ∧ (∀ a ∈ [((0 : Nat), (0 : Nat), (255 : Nat)), (0, 0, 256), (0, 1, 1), (0, 2, 0), (0x10F20, 2, 0)], Handed (formatPkt a.1 a.2.1 a.2.2) 8 (fun p x =>
        ((formatPkt a.1 a.2.1 a.2.2).func x.fn).any fun f => p.sub == a.2.1 && f.stream.reqs.length == a.2.2 && fieldOf p.bytes 192 64 == a.1) = true)
    ∧ (∀ n ∈ [0, 1, 2], Handed (running n) 7 (fun _ _ => ((running n).graphs.find? fun g => g.key == 7).any fun g => (g.next < g.pkts.length) == (n < 2)) = true)
    ∧ (mayStart [] (packet [0]) = true ∧ mayStart [⟨7, 5, some 7, 0, packet [0], .started, 0, [], none⟩] (packet [4]) = false) := by
  refine ⟨handed_of (q := fun _ x => !x.halted) (by decide +kernel), ?_⟩
  and_intros <;> decide +kernel

/-- The oldest packet of a bulk queue: not valid, done at once, stopped at a boundary, done with and without an arrival that fails, its
record with room. -/
def bulkPkt (ds : List Nat) (f : Pkt → Pkt := id) : State := inHand ds f fun q => { q with bulk := true }
def Oldest (s : State) (q : Queue → Pkt → Bool) : Bool :=
  (s.queue 5).any fun x => x.bulk && match s.pkts.filter fun r => r.queue == 5 && r.parent == none with
    | p :: _ => p.st == .started && s.pkts.length == 1 && q x p
    | [] => false
theorem witness_BulkEvents :
    (∀ d ∈ [true, false], (withLaunch (fun l => { l with blocks := l.blocks.map fun b => { b with foyer := { b.foyer with stop := d } } })
        { bulkPkt [0] with launches := [Place.launch 1 1 ⟨0, 0, 0⟩] }).launches.any (fun l => l.asid == 1 && l.held == d) = true) ∧
    Oldest (bulkPkt [3]) (fun _ p => p.aux.isEmpty && !bulkOk p.bytes) = true
    ∧ Oldest (bulkPkt [1, 0x10100, 0x10300, 130]) (fun x p => p.aux.isEmpty && bulkOk p.bytes && bulkDone (bulkWork (bulkPkt []) x p)) = true
    ∧ Oldest (fullLog (bulkPkt [1, 0x10100, 0x10300, 130])) (fun x p => p.aux.isEmpty && bulkOk p.bytes && bulkHolds (bulkWork (fullLog (bulkPkt [])) x p)) = true
    ∧ Oldest (bulkPkt [2, 0, 0x10F00, 260, 0, 0x55]) (fun x p => p.aux.isEmpty && bulkOk p.bytes && bulkStops (bulkWork (bulkPkt []) x p) == some 256
        && Ends (writeRecord (bulkPkt []) x p (bulkRecord x p 1 0x20#8 256 0)) fun _ _ => true) = true
    ∧ Oldest (bulkPkt [0x200, 0, 0, 0, 0x20000] fun p => { p with aux := [0, 0] }) (fun x p => Fails (bulkArrive (bulkPkt []) x p) fun _ => true) = true
    ∧ Oldest (bulkPkt [0] fun p => { p with aux := [0, 0], ix := 63 }) (fun x p => Ends (recordRoom (bulkPkt []) x p) (fun s1 _ =>
        Ends (bulkArrive s1 x p) fun s2 refused => !refused && Ends (writeRecord s2 x p (bulkRecord x p 0 0 0 0)) fun _ _ => true)) = true
    ∧ (fieldOf (packet [0]) 0 8 = 0 ∧ (255 : Nat) < 256) := by
  and_intros <;> decide +kernel

/-- A launch of queue 5 that waits for its Pantry, with no block resident. -/
def fresh (clg : Nat) (pant : Nat := 65536) (f : Launch → Launch := id) : State :=
  { up with launches := [f { Place.launch 1 1 ⟨0, 0, 0⟩ with
    st := .waiting
    nextB := 0
    blocks := []
    groups := []
    pantry := []
    pant := pant
    img := { Place.image with clg := clg, cmem := if clg = 0 then 0 else 4096 } }] }
/-- Launches: one that gets its Pantry, one whose Pantry a die does not have; cores that can take a block or a group, and one that
cannot; a block that is done and one that is not; a launch that is complete, with SIG and without; each that is not. -/
theorem witness_Residency :
    (∀ g ∈ [0, 2], ((fresh g).launch 1).any (fun ln => ln.st == .waiting && decide (ln.nextB < ln.nblk) && ln.img.clg == g
      && ((fresh g).givePantry ln).any fun s1 => (List.range (max g 1)).all fun j => s1.canTake ln ⟨3, 35, j⟩) = true)
    ∧ ((fresh 0).launch 1).any (fun ln => ((fresh 0).givePantry ln).any fun s1 => !s1.canTake ln ⟨3, 36, 0⟩ && !s1.canTake ln ⟨0, 0, 4⟩) = true
    ∧ ((fresh 0 0x3000001).launch 1).any (fun ln => ((fresh 0 0x3000001).givePantry ln).isNone) = true
    ∧ ((fresh 0 0x3000000).launch 1).any (fun ln => ((fresh 0).diesOf ln).all fun d => decide ((fresh 0).pantryUsed d + ln.pant ≤ 48 * 2 ^ 20)) = true
    ∧ ((fresh 0 0 fun l => { l with nextB := 2 }).launch 1).any (fun ln => decide (ln.nblk ≤ ln.nextB)) = true
    ∧ fitsCore [Place.image] = true
    ∧ (∀ d ∈ [true, false], ((teamWith (fun t => { t with seats := t.seats.map fun y => { y with st := .exited }, frags := [] }) fun b => { b with foyer := { b.foyer with sexit := d } }).launch 1).any (fun ln =>
        ln.st == .running && (ln.block 0).any fun x => (x.foyer.sexit && x.teams.all fun u => u.exited && u.copy.ops.all (·.done) && u.hearth.ops.isEmpty) == d) = true)
    ∧ ([0, 0x10F28].all (fun sig : DWord => ((fresh 0 0 fun l => { l with st := .running, nextB := 2, sig := sig }).launch 1).any (fun ln =>
        ln.st == .running && decide (ln.nblk ≤ ln.nextB) && ln.blocks.isEmpty && (fresh 0).tiles.isEmpty && (fresh 0).records.isEmpty
          && (ln.sig == 0 || Ends ((fresh 0).drainAll.devAccess (.porch ln.pkt) ln.asid ln.sig 8 .atomic .syncWrite) fun _ _ => true))) = true)
    ∧ (∀ st ∈ [LaunchSt.waiting, .stopped, .evicted, .ended], ((fresh 0 0 fun l => { l with st := st }).launch 1).any (fun ln => ln.st == st) = true)
    ∧ ((teamWith).launch 1).any (fun ln => ln.st == .running && !ln.blocks.isEmpty) = true := by
  refine ⟨?_, ?_, ?_, ?_, ?_, ?_, ?_, ?_, ?_, ?_⟩ <;> decide +kernel

/-- A team at work in engines. -/
def copying (o : CopyOp) (h : State → State := id) : State := teamWith (copies [o] 2 0) id h
def hearthWith (o : HOp) (h : State → State := id) : State := teamWith (fun t => hearths [o] 3 1 t) id h
def copyOk : CopyOp := { copyOp 1 0 with src := f32At 0 [8], dst := f32At 0x100 [8] }
def ranTo (r : CopyRun) : Option Nat :=
  match r with
  | .done _ _ => none
  | .held _ p _ => some p
  | .stop _ p _ _ => some p
def runHolds (r : CopyRun) : Bool :=
  match r with
  | .held _ _ _ => true
  | _ => false
/-- The operation n of a team is at work, as AtWork says, and q holds. -/
def WorkOn (s : State) (n : Nat) (q : EngAgent → Team → HOp → Bool) : Bool :=
  (s.launch 1).any fun ln => (ln.block 0).any fun b => match b.teams[0]? with
    | some tm => match tm.hearth.ops with
      | o :: _ => ln.st == .running && !tm.stop && o.num == n && o.susp.isNone && o.bind.isNone && (o.kind == .mopen || o.kind == .mclose || o.granted)
          && q ⟨.hearth 1 0 0, o.num, ln, b⟩ tm o
      | [] => false
    | none => false
theorem atWork_of {s : State} {n : Nat} {q : EngAgent → Team → HOp → Bool} (h : WorkOn s n q = true) :
    ∃ x tm o rest, AtWork s 1 0 0 n x tm o rest none ∧ q x tm o = true := by
  simp only [WorkOn, Option.any_eq_true] at h
  obtain ⟨ln, hl, b, hb, h⟩ := h
  split at h
  next tm ht =>
    split at h
    next o rest ho =>
      simp only [Bool.and_eq_true, beq_iff_eq, Bool.not_eq_true', Option.isNone_iff_eq_none, Bool.or_eq_true] at h
      obtain ⟨⟨⟨⟨⟨⟨h1, h2⟩, h3⟩, h4⟩, h5⟩, h6⟩, h7⟩ := h
      refine ⟨_, tm, o, rest, ⟨⟨hl, hb, ht, rfl, rfl⟩, ⟨h1, h2⟩, ⟨ho, h3, h4⟩, fun a b => ?_, by simp [h5]⟩, h7⟩
      rcases h6 with (h6 | h6) | h6
      · exact absurd h6 a
      · exact absurd h6 b
      · exact h6
    next => simp at h
  next => simp at h
def op (k : HKind) (f : HOp → HOp := id) : HOp := f { hearthOp 2 k with granted := true, cSh := shape 7 0 0x10000 [16, 16] }
def tileAt : Tile := ⟨0x10000, 0x10000, 1, 0, 16, 1, false, false, List.replicate 256 ⟨false, false, false, false, 0⟩, .hearth 1 0 0, 2, false⟩
def tiled (t : Tile := tileAt) : State → State := fun s => { s with tiles := [t] }
/-- A phase in which no engine fault is open and no decision is taken. -/
def goingOn (p : SolvePhase) : Bool :=
  match p with
  | .suspended _ _ => false
  | .decided _ => false
  | _ => true
/-- The solve context of a block is ready, as SolveReady says, and q holds. -/
def ReadyOn (s : State) (w : SolveWait) (q : EngAgent → Bool) : Bool :=
  (s.launch 1).any fun ln => (ln.block 0).any fun b => ln.st == .running && b.solve.state == 1 && goingOn b.solve.phase
    && b.teams.any (fun t => !t.exited) && b.teams.all (fun t => t.exited || (t.solve == w && !t.stop)) && q ⟨.solve 1 0, 0, ln, b⟩
theorem ready_of {s : State} {w : SolveWait} {q : EngAgent → Bool} (h : ReadyOn s w q = true) : ∃ x, SolveReady s 1 0 w x ∧ q x = true := by
  simp only [ReadyOn, Option.any_eq_true, Bool.and_eq_true, beq_iff_eq, Bool.or_eq_true, List.any_eq_true, List.all_eq_true, Bool.not_eq_true'] at h
  obtain ⟨ln, hl, b, hb, ⟨⟨⟨⟨h1, h2⟩, h3⟩, t, ht, h4⟩, h5⟩, h6⟩ := h
  refine ⟨_, ⟨hl, hb, rfl, rfl, h1, h2, ?_, ?_, ⟨t, ht, h4⟩, fun t ht hx => ?_⟩, h6⟩
  · intro y k hp
    have hp : b.solve.phase = .suspended y k := hp
    rw [hp] at h3
    exact absurd h3 Bool.false_ne_true
  · intro r hp
    have hp : b.solve.phase = .decided r := hp
    rw [hp] at h3
    exact absurd h3 Bool.false_ne_true
  · rcases h5 t ht with h | h
    · simp [h] at hx
    · exact h
def solveAt' (w : SolveWait) (ext : List Nat := [4]) (ceil : Nat := 65535) (thresh : Nat := 0) (lvl : Nat := 2) (g : Solve → Solve := id) : State :=
  solving w (fun v => g { v with state := 1, tiles := [shape 7 lvl 0 ext], ceil := BitVec.ofNat 16 ceil, thresh := BitVec.ofNat 32 thresh }) ringed

/-- Copies that are whole, that stop and the halo form's; the one operation of a cluster; MMA between passes and after the last; tiles that
open, that wait for cells, that close and that fail; contributions below and at the bound; cells of each kind; the mixing engine in each
of its steps. -/
theorem witness_EngineEvents :
    ((copying copyOk).copyEnv 1 0 0 1 0).any (fun p => (ranTo (runCopy (copying copyOk) p.1 p.2.1 p.2.2)).isNone) = true
    ∧ ((copying { copyOp 1 0 with src := f32At 0 [64], dst := f32At 0xF80 [64] }).copyEnv 1 0 0 1 0).any (fun p =>
        ranTo (runCopy (copying { copyOp 1 0 with src := f32At 0 [64], dst := f32At 0xF80 [64] }) p.1 p.2.1 p.2.2) == some 128) = true
    ∧ ((fullLog (copying copyOk)).copyEnv 1 0 0 1 0).any (fun p => runHolds (runCopy (fullLog (copying copyOk)) p.1 p.2.1 p.2.2)) = true
    ∧ ((teamWith).launch 1).any (fun ln =>
        !(({ copyOp 1 0 with form := 1, xbits := 0, src := shape 7 2 0 [8] ||| BitVec.ofNat 512 (2 ^ 352), dst := shape 7 2 64 [9] } : CopyOp).moves ln 0).isEmpty) = true
    ∧ ((hearthWith (hearthOp 2 .mma)).team 1 0 0).any (fun x => match x.hearth.ops with
        | [o] => (hearthWith (hearthOp 2 .mma)).clusterOps 0 0 == [⟨1, 0, 0, o.num, 2, o.age, o.quads 0, false⟩]
        | _ => false) = true
    ∧ (∃ x tm o rest, AtWork (hearthWith (op .mma fun o => { o with bSh := bTile })  (tiled)) 1 0 0 2 x tm o rest none
        ∧ (o.kind == .mma && decide (o.passes < o.np)) = true)
    ∧ (∃ x tm o rest, AtWork (hearthWith (op .mdist fun o => { o with passes := 1 })) 1 0 0 2 x tm o rest none
        ∧ (o.kind == .mdist && decide (o.np ≤ o.passes)) = true)
    ∧ (∃ x tm o rest, AtWork (hearthWith (op .mopen)) 1 0 0 2 x tm o rest none
        ∧ (o.kind == .mopen && Ends (openTile (hearthWith (op .mopen)) x o) (fun _ _ => !o.waiting && decide ((hearthWith (op .mopen)).tiles.length < 32))
          && Ends (hearthTile (hearthWith (op .mopen)) x o.cSh .load) fun _ pa => isHbm pa) = true)
    ∧ (∃ x tm o rest, AtWork (hearthWith (op .mopen fun o => { o with waiting := true })) 1 0 0 2 x tm o rest none
        ∧ (o.kind == .mopen && Ends (openTile (hearthWith (op .mopen)) x o) fun s1 _ => o.waiting && cellsFit s1.openTiles) = true)
    ∧ (∃ x tm o rest, AtWork (hearthWith (op .mclose) tiled) 1 0 0 2 x tm o rest none
        ∧ (o.kind == .mclose && Ends (closeTile (hearthWith (op .mclose) tiled) x o) fun _ f => f == 0) = true)
    ∧ (∃ x tm o rest, AtWork (hearthWith (op .mtopk)) 1 0 0 2 x tm o rest none
        ∧ (o.kind == .mtopk && Ends (topRows (hearthWith (op .mtopk)) x o.cSh) fun _ rows => rows.length == 16) = true)
    ∧ (∃ x tm o rest, AtWork (hearthWith (op .mclose)) 1 0 0 2 x tm o rest none
        ∧ (!tm.exited && Fails (opWork (hearthWith (op .mclose)) x tm o none) fun w => w.cause == 0x83#8) = true)
    ∧ (number (.fin false 1 14) = some ((2 : Rat) ^ (14 : Nat)) ∧ (2 : Rat) ^ ((0 : Int) + 14) ≤ ((2 : Rat) ^ (14 : Nat)).abs ∧ number (.fin true 1 13) = some (-(2 : Rat) ^ (13 : Nat))
      ∧ (-(2 : Rat) ^ (13 : Nat)).abs < (2 : Rat) ^ ((0 : Int) + 14) ∧ (FVal.nan false).isNan = true)
    ∧ (∃ x, SolveReady (solveAt' .atBegin) 1 0 .atBegin x ∧ Ends (readCarried (solveAt' .atBegin) x (carried x.b.solve.tiles)) (fun _ vs => vs == [0, 0, 0, 0]) = true)
    ∧ (∃ x, SolveReady (solveAt' .atBegin [1024] 65535 0 0) 1 0 .atBegin x
        ∧ (x.l.ring.isSome && !x.l.dstop && Fails (readCarried (solveAt' .atBegin [1024] 65535 0 0) x (carried x.b.solve.tiles)) fun _ => true) = true)
    ∧ (∃ x, SolveReady (solveAt' .atEnd [4] 65535 0x3F800000) 1 0 .atEnd x ∧ ((evaluate (solveAt' .atEnd [4] 65535 0x3F800000) x).2 == none
        && (fmtF32.compare .lt 0 x.b.solve.thresh.toNat).1) = true)
    ∧ (∃ x, SolveReady (solveAt' .atEnd [4] 1) 1 0 .atEnd x ∧ (!(fmtF32.compare .lt 0 x.b.solve.thresh.toNat).1
        && decide (x.b.solve.ceil.toNat ≤ x.b.solve.iter + 1)) = true)
    ∧ (∃ x, SolveReady (solveAt' .atEnd [4] 2) 1 0 .atEnd x ∧ (!(fmtF32.compare .lt 0 x.b.solve.thresh.toNat).1
        && decide (x.b.solve.iter + 1 < x.b.solve.ceil.toNat)) = true)
    ∧ (∃ x, SolveReady (solveAt' .atEnd [4] 65535 0 2 fun v => { v with phase := .evaluating 1 }) 1 0 .atEnd x
        ∧ (let ps := (List.range 4).zip (carried x.b.solve.tiles) |>.map fun p => (⟨p.2, p.1⟩ : Mix)
           (match writeBackAll (solveAt' .atEnd) x 4 ((ps.drop 0).take 32) 0 x.b.solve.flags with | (n, _, .ok _ _) => n == 4 | _ => false)) = true)
    ∧ (∀ a ∈ [(true, (126 : Nat), (0 : Nat), true), (true, 127, 0, false), (false, 0, 0, true), (false, 0, 1, false)],
        (((solveAt' .atEnd [4] 1 0 2 fun v => { v with phase := .decided a.1, repeats := a.2.1, exits := a.2.2.1 }).launch 1).bind fun l => l.block 0).any
          (fun x => x.solve.phase == .decided a.1 && decide (if a.1 = true then x.solve.repeats < 127 else x.solve.exits < 1) == a.2.2.2) = true) := by
  and_intros <;> first
    | exact atWork_of (by decide +kernel)
    | exact ready_of (by decide +kernel)
    | decide +kernel

/-- Launches in each state, with a record that is written and one that is not, an image that fits CTXLEN and one that does not. -/
def ctxState (st : LaunchSt := .running) (len : DWord := 0x100000) (records : List Record := []) : State :=
  { teamWith id id (withLaunch fun l => { l with st := st, lpkt := packet (launchPkt 0x10000), nextB := 1, blocks := [], groups := [], pantry := [] }) with
    linkUp := true, ctxaddr := 0x100000, ctxlen := len, records := records }
/-- The image of the launch of a state fits CTXLEN. -/
def fitsCtx (s : State) : Bool :=
  (s.launch 1).any fun x => ((s.stopLaunch x).launch 1).any fun y => decide ((imageBytes (s.stopLaunch x) y true).length ≤ s.ctxlen.toNat)
def request (swap : Bool) (ct obj : DWord) (phase : FmPhase) (loaded : Option Container := none) (bind : Option Nat := none) : FmReq :=
  ⟨4, 1, 0, swap, ct, obj, none, none, phase, loaded, bind⟩
def streaming (r : FmReq) (s : State := up) : State := s.updFunc 0 fun f => { f with stream := ⟨[r], 5, 3⟩ }
def fmSays (r : Eng (Except Nat Container)) : Option Nat :=
  match r with
  | .ok _ (.error st) => some st
  | _ => none

/-- Commands in progress and none; launches in each state and none; images that fit and that do not, and one that is refused; queues of a
function, a packet that QUIESCE waits for and none; requests in each phase. -/
theorem witness_ContextEvents :
    (((ctxState).responds 0 && (ctxState).ctxcmd.isNone) = true ∧ ({ ctxState with ctxcmd := some (2, 1) } : State).ctxcmd ≠ none)
    ∧ [LaunchSt.running, .stopped, .evicted, .ended].all (fun st => ((ctxState st).launch 1).any fun x => x.st == st) = true
    ∧ (fitsCtx (ctxState) = true ∧ fitsCtx (ctxState .running 0) = false)
    ∧ ((ctxState .running 0 [record (.team 1 0 0) .reissue none]).records.any fun r => r.launch == 1 && r.ix.isNone) = true
    ∧ ((ctxState).launch 1).any (fun l => l.lpkt.length == 64) = true
    ∧ (((ctxState).launch 9).isNone && (ctxState).prologues.all fun p => p.key != 0) = true
    ∧ ((ctxState).readPhys (ctxState).ctxaddr.toNat 256).any (fun h => ((ctxState).readPhys 0x100000 (leNat ((h.drop 8).take 8))).any fun img =>
        (parseImage img).isNone && ((ctxState).readPhys 0 304).isSome) = true
    ∧ ((({ ctxState with ctxaddr := 0xFFFFFFFFFF000 } : State)).readPhys 0xFFFFFFFFFF000 256).isNone = true
    ∧ ((withQueue id).queues.any fun x => x.fn == 0 && !x.halted) = true
    ∧ Handed (inHand [3]) 3 (fun p x => x.fn == 0 && !x.bulk && p.parent.isNone) = true
    ∧ ((withQueue id).pkts.isEmpty && ((withQueue id).fmHead 0).isNone) = true
    ∧ (((streaming (request false 0 0 .queued)).func 0).any fun f => f.stream.reqs == [request false 0 0 .queued]) = true
    ∧ (objectOk up 1 0 = true ∧ objectOk up 1 0x10F20 = true ∧ objectOk up 1 0x20F20 = false)
    ∧ ((up.boundTo 1 0).isNone = true ∧ ((bound container up).boundTo 1 0).any (fun b => !(bound container up).inUse b.id) = true)
    ∧ (fmSays (verify up 0 1 0x10000)).isSome = true
    ∧ ((up.chooseAll container (up.boundTo 1 0) allDies).isSome = true ∧ (up.boundTo 1 0).isNone = true)
    ∧ (((streaming (request true 0x10000 0 .draining (some container))).func 0).any fun f => match f.stream.reqs with
        | r :: _ => r.phase == .draining && r.loaded.isSome
        | [] => false) = true
    ∧ (((streaming (request true 0x10000 0 .reconfig (some container) (some 0)) (bound container up)).func 0).any fun f => match f.stream.reqs with
        | r :: _ => r.phase == .reconfig && r.obj == 0 && (bound container up).bindings.any fun b => r.bind == some b.id
        | [] => false) = true := by
  and_intros <;> decide +kernel

/-- Ports in each state, windows at their bounds, a TLB entry and an invalidation of each kind, and an access from outside of each kind. -/
def portAt (trained retraining : Bool) : Port := ⟨2, trained, 7, 4096, retraining⟩
def losing : State :=
  { teamWith (fun t => { t with pend := [⟨100, 1, [some [7]], false, 0, [(0, 7, 0x10000)]⟩] }) id ringed with ports := [portAt true true] }
theorem witness_PeerAndHostEvents :
    (up.responds 0 = true ∧ ((Regs.get up.asidctl 1).extractLsb' 1 6).toNat = 0 ∧ ((Regs.get (Regs.set up.asidctl 2 3) 2).extractLsb' 1 6).toNat ≠ 0)
    ∧ (((up.updFunc 0 fun f => { f with tlbq := [.page 1 0x10FFF, .asid 1, .func 0] }).func 0).any fun f => match f.tlbq with
        | .page a va :: _ => up.tlb.any fun e => e.asid == a && e.va / 2 ^ e.bits == va % 2 ^ 57 / 2 ^ e.bits
        | _ => false) = true
    ∧ (Rising up.pwbase ∧ Rising up.pwlen ∧ ((0xC000000000 - 4096 : DWord).toNat + (1 : DWord).toNat * 4096 ≤ 0xC000000000)
      ∧ ¬((0xC000000000 - 4096 : DWord).toNat + (2 : DWord).toNat * 4096 ≤ 0xC000000000))
    ∧ ([(true, false), (true, true), (false, false)].all fun a => ({ up with ports := [portAt a.1 a.2] } : State).ports.any fun q => q.ix == 2 && q.trained == a.1 && q.retraining == a.2) = true
    ∧ ((losing.team 1 0 0).any fun u => u.pend.any fun x => x.peers.any fun q => q.2.1 == 7) = true
    ∧ ((losing.launch 1).any fun ln => ln.ring.isSome) = true
    ∧ ([(4088 : Nat), 4089].all fun o => decide (o + outsideBytes (.store (leBytes 8 0)) ≤ 4096) == (o == 4088)) = true
    ∧ (outsideBytes (.load 64) = 64 ∧ outsideBytes (.cas false 0 0) = 4 ∧ outsideBytes (.contribute []) = 1)
    ∧ (spanBacked 0xBFFFFFFFF8 8 = true ∧ isPeer 0x10000 = false ∧ isPeer (2 ^ 51 + 2 ^ 45) = true ∧ spanBacked 0xFFFFFFFFFFFF8 8 = false) := by
  refine ⟨?_, ?_, ⟨List.Pairwise.nil, List.Pairwise.nil, ?_⟩, ?_, ?_, ?_, ?_, ?_, ?_⟩ <;> decide +kernel

/-- Words of each stream: ADD r7, r6, 5 of addImm, and SADD s3, s4, s5. -/
def addWord : Nat := 0x020000E0C0000005
def teamAbout (w : Nat := addWord) (h : State → State := id) : State := h (Place.inLaunch State.reset false w)
/-- The code region is native, honoured, with a schedule field in the packet's last word. -/
def nativeAt (field sb : Nat) : State :=
  let s := stored 0x10018 (leBytes 8 (2 ^ 63 + field)) (teamAbout)
  withLaunch (fun l => { l with
    img := { l.img with regions := [⟨Place.codeBase, 2048, false, true, 1, none⟩] }, code := s.mem
    blocks := l.blocks.map fun b => { b with teams := b.teams.map fun t => { t with sb := BitVec.ofNat 4 sb } } }) s

/-- An enabled breakpoint at an address of a stream (R400). -/
def breakpoint (pc : DWord) (foyer : Bool) (s : State) : State :=
  withFunc (fun f => { f with hwbp := f.hwbp.set 1 (pc ||| (if foyer then 3#64 else 1#64)) })
    (withLaunch (fun l => { l with blocks := l.blocks.map fun b => { b with foyer := { b.foyer with skip := none }
                                                                            teams := b.teams.map fun t => { t with frags := t.frags.map fun f => { f with skip := none } } } }) s)

/-- The hypotheses of TeamTurn on a state, but for the honoured field and the breakpoint, of which q holds. -/
def TurnsTeam (s : State) (q : Option (BitVec 21) → Team → Bool → Bool) : Bool :=
  match s.agenda with
  | .team l b t f :: rest =>
    let u : State := { s with agenda := rest }
    s.boot == .ready && (u.launch l).any fun ln => ln.st == .running && (ln.block b).any fun bk => match bk.teams[t]? with
      | none => false
      | some tm => u.mayIssue ln bk t tm && tm.capDue == none && !tm.stepDone && tm.toRelease.isNone
          && (tm.chosen (u.late ln.id bk.id t) f u.tick).any fun fi => match tm.frags[fi]? with
          | none => false
          | some fr => (ln.moveTo false fr.pc).isNone && match u.fetch ln (some bk.runsOn.die) fr.pc with
              | .word w lit sc true _ => ((ln.region fr.pc.toNat).any fun r => !r.foyer) && (match decode false w lit with
                  | .ok _ => true
                  | .error _ => false) && q (honouredField ln fr.pc sc) tm (u.hwbpAt ln.fn false fr.pc && fr.skip != some fr.pc)
              | _ => false
  | _ => false
def TurnsFoyer (s : State) (q : Option (BitVec 21) → Foyer → Bool → Bool) : Bool :=
  match s.agenda with
  | .foyer l b :: rest =>
    let u : State := { s with agenda := rest }
    s.boot == .ready && (u.launch l).any fun ln => ln.st == .running && (ln.block b).any fun bk => u.mayIssueFoyer ln bk
      && !bk.foyer.stepDone && (ln.moveTo true bk.foyer.pc).isNone && match u.fetch ln (some bk.runsOn.die) bk.foyer.pc with
        | .word w lit sc true _ => ((ln.region bk.foyer.pc.toNat).any fun r => r.foyer) && (Fields.ofWord w).op != 0xCD && (match decode true w lit with
            | .ok _ => true
            | .error _ => false)
            && q (honouredField ln bk.foyer.pc sc) bk.foyer (u.hwbpAt ln.fn true bk.foyer.pc && bk.foyer.skip != some bk.foyer.pc)
        | _ => false
  | _ => false
def TurnsRun (s : State) : Bool :=
  match s.agenda with
  | .prologue k :: rest =>
    let u : State := { s with agenda := rest }
    s.boot == .ready && (u.prologues.find? fun p => p.key == k).any fun p => (u.pkt k).any fun pk => (u.queue pk.queue).any fun q =>
      let prog := leNat ((pk.bytes.drop 8).take 8)
      p.active && pk.st == .started && decide (prog ≤ p.pc.toNat ∧ p.pc.toNat < prog + 2048) && match u.fetchWord none q.asid p.pc, u.fetchWord none q.asid (p.pc + 8) with
        | .ok w, .ok v => (match decode true w (if isLiteralOp (Fields.ofWord w).op then BitVec.ofNat 64 v else 0) with
            | .ok _ => true
            | .error _ => false)
        | _, _ => false
  | _ => false

/-- Two fragments, of which g changes the second; and a Foyer context in native, honoured code. -/
def twoFrags (g : Frag → Frag) : Team :=
  { ofSeats [lane [] 0, lane [] 1] Place.team with
    frags := [{ Frag.at 0x10100 (maskOf [0]) with since := 3, lift := .waited16384 }, g { Frag.at 0x10000 (maskOf [1]) with since := 2 }] }
def nativeFoyer (field sb : Nat) : State :=
  let s := stored 0x10818 (leBytes 8 (2 ^ 63 + field)) (Place.instruction State.reset 64 0xC000006080A00000)
  withLaunch (fun l => { l with
    img := { l.img with regions := [⟨Place.codeBase + 2048, 2048, true, true, 1, none⟩] }, code := s.mem
    blocks := l.blocks.map fun b => { b with foyer := { b.foyer with sb := BitVec.ofNat 4 sb } } }) s

/-- A turn of a team in portable code, with a breakpoint and without, in honoured native code whose scoreboard is free and whose is not,
of a Foyer context likewise, and of a run, with a literal and without; which of two fragments issues; a turn of a team that may not
issue; fetches; and words of the past whose results may be unwritten and may not. -/
theorem witness_StepRunsDecoded :
    (TurnsTeam (teamAbout) (fun k _ bp => k.isNone && !bp) = true
      ∧ TurnsTeam (breakpoint Place.image.tent false (teamAbout)) (fun k _ bp => k.isNone && bp) = true
      ∧ TurnsTeam (nativeAt 0 0) (fun k tm _ => k.any fun k => !sbWaits k tm.sb) = true
      ∧ TurnsTeam (nativeAt (2 ^ 20 - 1) 2) (fun k tm _ => k.any fun k => sbWaits k tm.sb) = true)
    ∧ (TurnsFoyer (Place.instruction State.reset 64 0xC000006080A00000) (fun k _ bp => k.isNone && !bp) = true
      ∧ TurnsFoyer (breakpoint Place.image.fent true (Place.instruction State.reset 64 0xC000006080A00000)) (fun k _ bp => k.isNone && bp) = true
      ∧ TurnsFoyer (nativeFoyer 0 0) (fun k f _ => k.any fun k => !sbWaits k f.sb) = true
      ∧ TurnsFoyer (nativeFoyer (2 ^ 20 - 1) 2) (fun k f _ => k.any fun k => sbWaits k f.sb) = true)
    ∧ (TurnsRun (Place.inPrologue State.reset 0xC000006080A00000) = true ∧ TurnsRun (Place.inPrologue State.reset (0x03 * 2 ^ 56)) = false)
    ∧ ((twoFrags id).chosen (fun _ _ => false) none 5 = some 0 ∧ (twoFrags fun f => { f with lift := .waited16384 }).chosen (fun _ _ => false) none 5 = some 1
      ∧ (twoFrags fun f => { f with parked := true }).chosen (fun _ _ => false) (some 0) 5 = some 0
      ∧ ({ twoFrags id with frags := (twoFrags id).frags.map fun f => { f with lift := .none } } : Team).chosen (fun _ _ => false) none 5 = some 1)
    ∧ (match (withLaunch (fun l => { l with blocks := l.blocks.map fun b => { b with teams := b.teams.map fun t => { t with stop := true } } }) (teamAbout)).agenda with
      | .team l b t _ :: _ => ((withLaunch (fun l => { l with blocks := l.blocks.map fun b => { b with teams := b.teams.map fun t => { t with stop := true } } })
          (teamAbout)).launch l).any fun ln => (ln.block b).any fun bk => (bk.teams[t]?).any fun tm => !(withLaunch (fun l => { l with blocks := l.blocks.map fun b =>
            { b with teams := b.teams.map fun t => { t with stop := true } } }) (teamAbout)).mayIssue ln bk t tm
      | _ => false) = true
    ∧ ((teamAbout).launches.any (fun l => (l.region 0x10000).any (fun r => !r.native) && (match (teamAbout).codeWord l (some 0) 0x10000 with
      | .ok w => w == addWord && l.code.num 0x10000 8 == w
      | .error _ => false)) = true ∧ canonical 0x10000 = true)
    ∧ (unwritten (.ld ⟨always, 6, 4, .b32, 0⟩) 0x40 false 99 ∧ ¬unwritten (.ld ⟨always, 6, 4, .b32, 0⟩) 0x40 true 0
      ∧ writesReg (.ld ⟨always, 6, 4, .b32, 0⟩) 6 = true ∧ sdest (.sld ⟨5, 4, .b64, 0⟩) = some 5) := by
  refine ⟨?_, ?_, ?_, ?_, ?_, ?_, ⟨⟨rfl, Or.inl rfl⟩, fun h => Bool.noConfusion (h.1 : true = false), rfl, rfl⟩⟩ <;> decide +kernel

/-- A QUIESCE while every packet may be rolled back; registers that answer; a function that does not respond; and a port that there is
and one that there is not. -/
theorem witness_OutsideOfLaunches :
    (((inHand [4, 0x10F40, 1]).pkts.all fun p => (inHand [4, 0x10F40, 1]).queues.all fun x => x.id == p.queue && !x.bulk && p.parent.isNone
        && p.st != .held && [4, 6].contains (fieldOf p.bytes 0 8)) && ((inHand [4]).fmHead 0).isNone) = true
    ∧ ((up.responds 0 = true ∧ (up.func 0).isSome = true) ∧ up.responds 1 = false
      ∧ (let s := up.updFunc 1 fun f => { f with live := true }
         s.responds 1 = true ∧ ((s.func 1).any fun f => (s.ownRead f 0xA0000).isNone && (s.ownRead f 0x70018).isSome) = true)
      ∧ ({ up with boot := .rom } : State).responds 0 = false ∧ ({ up with boot := .rom } : State).earlyRead 0x50000 = none)
    ∧ (15 < 16 ∧ ¬16 < 16)
    ∧ (((withLaunch (fun l => { l with blocks := l.blocks.map fun b => { b with teams := List.replicate 3 Place.team } }) (teamAbout)).cands ⟨0, 0, 0⟩ false).length = 3
      ∧ ((withLaunch (fun l => { l with blocks := l.blocks.map fun b => { b with teams := List.replicate 3 Place.team } }) (teamAbout)).coreCands ⟨0, 0, 0⟩).length = 2) := by
  and_intros <;> decide +kernel

/-- Every well-formed instruction with a word: one of a literal. -/
theorem witness_DecodeEncode : Instr.wf (.addLit ⟨always, 10, 12, .i64, true, 0x123456789⟩) = true
    ∧ (encode (.addLit ⟨always, 10, 12, .i64, true, 0x123456789⟩)).isSome = true := by decide +kernel

/-- A step from a state whose memory is in canonical form. -/
theorem witness_StepKeepsInv : (teamAbout).Inv ∧ (match step (teamAbout) with
    | .next _ => true
    | _ => false) = true := by decide +kernel

/-! ### A context image that is accepted -/

/-- The launch of the image: no block is resident. -/
def savedLaunch : Launch := { Place.launch 0x50000 1 ⟨0, 0, 0⟩ with lpkt := packet (launchPkt 0x10000), nextB := 1, blocks := [], groups := [], queue := 5, st := .evicted }
def imgBody : List Byte := (imageSections up savedLaunch).flatten
def image : List Byte := imageBytes up savedLaunch true
def imgSecs : List Sec := (parseSecs 53 imgBody).getD []
theorem image_parses : parseImage image = some imgSecs := by decide +kernel

/-- The queue, the kernel image and the restore map of a state that accepts the image; the image itself is read back from memory as it
is put there. -/
def accepting : State := stored 0x10000 kernel (withQueue id { up with ctxaddr := 0x100000, ctxlen := 0x100000, ctxmap := 0x10C00, ctxq := 5 })
theorem image_reads (m : Memory) (h : m.wf = true) : (m.put 0x100000 image).bytes 0x100000 image.length = image :=
  Laws.bytes_put_same _ _ h

/-- Every later check of a RESTORE of the image passes, and the device has room. -/
theorem witness_ContextRestore : parseImage image = some imgSecs ∧ accessCause accepting 0 1 imgSecs = none
    ∧ (accepting.readPhys 0x10C00 304).any (fun map => mapReserved map && (accepting.launch 0x50000).isNone
      && mapOk (accepting.units 0) image map && (match readImage (accepting.forget 0x50000) (.porch accepting.nextKey) 1 0x10000 0 with
        | .ok s1 (.ok im) => (accepting.queue 5).any fun q => (setUp s1 q image map imgSecs im [] none).isSome
        | _ => false)) = true
    ∧ (List.range 4).all (fun k => leNat ((image.drop (0x60 + 8 * k)).take 8) == (Func.wholeDevice.getD k 0).toNat) = true :=
  ⟨image_parses, by and_intros <;> decide +kernel⟩

/-! ### Results that the spec's examples state -/

/-- What an instruction leaves in a register of the first lane, and the team's %asf. -/
def gives (i : Instr) (rs : List (Nat × Word)) (d : Nat) : Option (Word × Word) :=
  after_ i (teamWith (regs rs)) fun t => (((only t).seat 0).rd d, (only t).asf)

/-- Wrapping and saturating, division and remainder, and BFE (the example of chapter 4). -/
theorem test_integer_results :
    gives (.add ⟨always, 9, 1, 2, .i8, false⟩) [(1, 100), (2, 100)] 9 = some (0xFFFFFFC8, 0)
    ∧ gives (.add ⟨always, 9, 1, 2, .i8, true⟩) [(1, 100), (2, 100)] 9 = some (0x7F, 0)
    ∧ gives (.sub ⟨always, 9, 1, 2, .n16, false⟩) [(1, 5), (2, 7)] 9 = some (0xFFFE, 0)
    ∧ gives (.sub ⟨always, 9, 1, 2, .n16, true⟩) [(1, 5), (2, 7)] 9 = some (0, 0)
    ∧ gives (.mul ⟨always, 9, 1, 2, .i32, true⟩) [(1, 65536), (2, 65536)] 9 = some (0x7FFFFFFF, 0)
    ∧ gives (.mulhi ⟨always, 9, 1, 2, .n32⟩) [(1, 0xFFFFFFFF), (2, 0xFFFFFFFF)] 9 = some (0xFFFFFFFE, 0)
    ∧ gives (.div ⟨always, 9, 1, 2, .i32⟩) [(1, 0xFFFFFFF9), (2, 2)] 9 = some (0xFFFFFFFD, 0)
    ∧ gives (.rem ⟨always, 9, 1, 2, .i32⟩) [(1, 0xFFFFFFF9), (2, 2)] 9 = some (0xFFFFFFFF, 0)
    ∧ gives (.bfe ⟨always, 9, 1, 2, 3, .i32⟩) [(1, 0xF0), (2, 4), (3, 4)] 9 = some (0xFFFFFFFF, 0)
    ∧ gives (.bfe ⟨always, 9, 1, 2, 3, .n32⟩) [(1, 0xF0), (2, 4), (3, 4)] 9 = some (0xF, 0) := by decide +kernel

/-- Conversions at their edges (the example of chapter 4); OF is bit 2 of %asf, UF bit 3, NX bit 4 and IV bit 0 (R29). -/
theorem test_conversion_results :
    gives (.cvt ⟨always, 9, 1, .f32, .f16, false, false, .rn⟩) [(1, 0x477FF000)] 9 = some (0x7C00, 0x14)
    ∧ gives (.cvt ⟨always, 9, 1, .f32, .f16, false, false, .rz⟩) [(1, 0x477FF000)] 9 = some (0x7BFF, 0x10)
    ∧ gives (.cvt ⟨always, 9, 1, .f32, .bf16, false, false, .rn⟩) [(1, 0x3F808000)] 9 = some (0x3F80, 0x10)
    ∧ gives (.cvt ⟨always, 9, 1, .f32, .f16, false, false, .rn⟩) [(1, 0x35800000)] 9 = some (0x0010, 0)
    ∧ gives (.cvt ⟨always, 9, 1, .f32, .f16, false, true, .rn⟩) [(1, 0x35800000)] 9 = some (0, 0x18)
    ∧ gives (.cvt ⟨always, 9, 1, .f32, .i32, false, false, .ru⟩) [(1, 0x40200000)] 9 = some (3, 0x10)
    ∧ gives (.cvt ⟨always, 9, 1, .f32, .i32, false, false, .rn⟩) [(1, 0x7FC00000)] 9 = some (0, 1)
    ∧ gives (.cvt ⟨always, 9, 1, .i32, .f32, false, false, .rn⟩) [(1, 16777217)] 9 = some (0x4B800000, 0x10)
    ∧ gives (.cvt ⟨always, 9, 1, .i32, .i8, true, false, .rn⟩) [(1, 300)] 9 = some (0x7F, 0) := by decide +kernel

/-- One store of every lane to a word: the last lane that is no helper remains, and under a guard the last that it enables (the example
of chapter 1, with three lanes and a helper). -/
theorem test_store_seat_order : ([always, ⟨1, false⟩] : List Guard).map (fun g =>
      after_ (.st ⟨g, 2, 4, .b32, 0⟩) (teamWith (ofSeats [lane [(4, 0x10040), (2, 10)] 0 2, lane [(4, 0x10040), (2, 11)] 1 2,
        lane [(4, 0x10040), (2, 12)] 2, lane [(4, 0x10040), (2, 13)] 3 2 true])) fun t => (t.release ⟨0, 0, 0⟩ .host .sys).mem.num 0x10040 4)
    = [some 12, some 11] := by decide +kernel

/-- A store of which one lane's page is not present stores nothing, and the team parks with a record of cause 0x20 (R126). -/
theorem test_store_fault_exact : after_ (.st ⟨always, 2, 4, .b32, 0⟩) (teamWith (ofSeats [lane [(4, 0x10040), (2, 7)] 0, lane [(4, 0x20040), (2, 7)] 1])
      id ringed) (fun t => ((t.release ⟨0, 0, 0⟩ .host .sys).mem.num 0x10040 4, t.records.map Record.cause, (only t).parked.isSome)) = some (0, [0x20#8], true) := by decide +kernel

/-- A vote over named members (the example of chapter 6): seats 0, 1, 3, 4 and 7 of which 4 and 7 have p1 set. -/
def voters (low : Word) : Team → Team := fun t =>
  { ofSeats ((List.range 8).map fun k => { lane [(9, if k < 4 then low else 0xF0)] k (if k == 4 || k == 7 then 2 else 0) with
      st := if k == 6 then .exited else .active }) t with frags := [Frag.at Place.image.tent (maskOf [0, 1, 3, 4, 7]), Frag.at 0x10100 (maskOf [2, 5])] }
theorem test_vote_members : after_ (.vote ⟨always, .all, 2, 1, some 9⟩) (teamWith (voters 0xFF) id ringed)
      (fun t => ([0, 1, 3, 4, 7].map fun k => ((only t).seat k).preds.getLsbD 2)) = some [false, false, false, true, true]
    ∧ after_ (.vote ⟨always, .all, 2, 1, some 9⟩) (teamWith (voters 0xF0) id ringed) (fun t => t.records.map Record.cause) = some [0x05#8] := by
  decide +kernel

/-- The lanes of an atomic add one after another (the example of chapter 7). -/
theorem test_atomic_seat_order : after_ (.atom ⟨always, 1, 2, 8, .op .add, .scratch, false, .none, .core⟩)
      (teamWith (ofSeats [lane [(2, 1)] 0, lane [(2, 2)] 1])) (fun t => (only t).pend.map Pending.words) = some [[some [0], some [1]]] := by
  decide +kernel

/-- R44: a fetch sees the word itself where no store has reached it, else the old word or the new one. -/
theorem test_store_to_code (k : Nat) : oneWord [7, 7, 7] k = 7 ∧ (oneWord [7, 9] k = 7 ∨ oneWord [7, 9] k = 9) := by
  refine ⟨by simp [oneWord], ?_⟩
  rcases Nat.mod_two_eq_zero_or_one k with h | h <;> simp [oneWord, h]

/-- R62: a read too near a word that writes the register may give what it has held; one of a register that only distant words write
gives the newest value. -/
theorem test_read_too_near : readOf 5 [(true, 3)] 1 = (3 : Nat) ∧ readOf 5 [(false, 3)] 1 = (5 : Nat)
    ∧ readOf 5 [(false, 3), (true, 4)] 1 = (3 : Nat) := by decide

/-- The edge codes of T8 and T6 (the table of R282). -/
theorem test_tapered_codes : ([0x00, 0x01, 0x03, 0x3F, 0x41, 0x5F, 0x7B, 0x7F, 0x80, 0xC0].map fun c => decodeTapered c 7)
    = [0, wordOf false 1 (-12) 0x8000, wordOf false 1 (-9) 0x8000, wordOf false 1 (-1) 0xF800, wordOf false 1 0 0x8800,
       wordOf false 1 1 0xF800, wordOf false 1 7 0xC000, wordOf false 1 12 0x8000, wordOf false 3 0 0, wordOf true 1 0 0x8000]
    ∧ ([0x02, 0x0F, 0x11, 0x17, 0x1D, 0x1F, 0x20, 0x21].map fun c => decodeTapered c 5)
      = [wordOf false 1 (-6) 0x8000, wordOf false 1 (-1) 0xE000, wordOf false 1 0 0xA000, wordOf false 1 1 0xE000,
         wordOf false 1 5 0x8000, wordOf false 1 8 0x8000, wordOf false 3 0 0, wordOf true 1 (-8) 0x8000] := by decide

/-- The codes of L5 (the table of R283). -/
theorem test_l5_codes : ([0, 1, 2, 7, 8, 9, 15, 16, 24].map decodeL5)
    = [0, wordOf false 1 (-4) 0xB505, wordOf false 1 (-3) 0x8000, wordOf false 1 (-1) 0xB505, wordOf false 1 0 0x8000,
       wordOf false 1 0 0xB505, wordOf false 1 3 0xB505, wordOf false 3 0 0, wordOf true 1 0 0x8000] := by decide

/-- SHA-384 of "abc" (the example of FIPS 180-4, which R344 names). -/
theorem test_sha384 : (sha384 [0x61, 0x62, 0x63]).take 16
    = [0xCB, 0x00, 0x75, 0x3F, 0x45, 0xA3, 0x5E, 0x8B, 0xB5, 0xA0, 0x3D, 0x69, 0x9A, 0xC6, 0x50, 0x07] := by decide +kernel

/-- R62: a pair that is pending leaves a register that has a newer write, and still writes the other. -/
theorem test_pending_overwritten : (Pending.without ⟨4, 2, [some [7, 8], none], false, 1, []⟩ fun i r => i == 0 && r == 4)
    = [⟨4, 1, [none, none], false, 1, []⟩, ⟨5, 1, [some [8], none], false, 1, []⟩] := by decide

end Sys2Proof.Tests
end

section
/-!
Decoding and encoding (R45 to R51): the per-instruction round trips of Laws/PerInstr.lean put together, and the words that
the spec's encodings lay out.
-/
namespace Sys2Proof.Proofs
open Sys2Proof.Laws

/-- Every instruction is read back from its word: one of a stream by the round trip of its own encoding, a step of the device
because it has no word. -/
theorem encoding_statement (i : Instr) : Encoding.Statement i := by
  cases i with
  | add x => exact Encoding.add x | sub x => exact Encoding.sub x | mul x => exact Encoding.mul x
  | mulhi x => exact Encoding.mulhi x | mad x => exact Encoding.mad x | min x => exact Encoding.min x
  | max x => exact Encoding.max x | div x => exact Encoding.div x | rem x => exact Encoding.rem x
  | abs x => exact Encoding.abs x | neg x => exact Encoding.neg x | addImm x => exact Encoding.addImm x
  | subImm x => exact Encoding.subImm x | mulImm x => exact Encoding.mulImm x | minImm x => exact Encoding.minImm x
  | maxImm x => exact Encoding.maxImm x | addLit x => exact Encoding.addLit x | subLit x => exact Encoding.subLit x
  | mulLit x => exact Encoding.mulLit x | mulhiLit x => exact Encoding.mulhiLit x
  | minLit x => exact Encoding.minLit x | maxLit x => exact Encoding.maxLit x | divLit x => exact Encoding.divLit x
  | remLit x => exact Encoding.remLit x | and x => exact Encoding.and x | or x => exact Encoding.or x
  | xor x => exact Encoding.xor x | andn x => exact Encoding.andn x | not x => exact Encoding.not x
  | shl x => exact Encoding.shl x | shr x => exact Encoding.shr x | sar x => exact Encoding.sar x
  | rot x => exact Encoding.rot x | andImm x => exact Encoding.andImm x | orImm x => exact Encoding.orImm x
  | xorImm x => exact Encoding.xorImm x | andnImm x => exact Encoding.andnImm x | shlImm x => exact Encoding.shlImm x
  | shrImm x => exact Encoding.shrImm x | sarImm x => exact Encoding.sarImm x | rotImm x => exact Encoding.rotImm x
  | andLit x => exact Encoding.andLit x | orLit x => exact Encoding.orLit x | xorLit x => exact Encoding.xorLit x
  | andnLit x => exact Encoding.andnLit x | shlLit x => exact Encoding.shlLit x | shrLit x => exact Encoding.shrLit x
  | sarLit x => exact Encoding.sarLit x | rotLit x => exact Encoding.rotLit x | popc x => exact Encoding.popc x
  | clz x => exact Encoding.clz x | brev x => exact Encoding.brev x | bfe x => exact Encoding.bfe x
  | bfi x => exact Encoding.bfi x | setp x => exact Encoding.setp x | setpImm x => exact Encoding.setpImm x
  | setpLit x => exact Encoding.setpLit x | pand x => exact Encoding.pand x | por x => exact Encoding.por x
  | pxor x => exact Encoding.pxor x | pnot x => exact Encoding.pnot x | sel x => exact Encoding.sel x
  | mov x => exact Encoding.mov x | movi x => exact Encoding.movi x | movl x => exact Encoding.movl x
  | lea x => exact Encoding.lea x | fadd x => exact Encoding.fadd x | fsub x => exact Encoding.fsub x
  | fmul x => exact Encoding.fmul x | ffma x => exact Encoding.ffma x | fdiv x => exact Encoding.fdiv x
  | fsqrt x => exact Encoding.fsqrt x | frcp x => exact Encoding.frcp x | frsq x => exact Encoding.frsq x
  | fexp2 x => exact Encoding.fexp2 x | flog2 x => exact Encoding.flog2 x | fmin x => exact Encoding.fmin x
  | fmax x => exact Encoding.fmax x | fabs x => exact Encoding.fabs x | fneg x => exact Encoding.fneg x
  | fsgn x => exact Encoding.fsgn x | fclass x => exact Encoding.fclass x | faddLit x => exact Encoding.faddLit x
  | fsubLit x => exact Encoding.fsubLit x | fmulLit x => exact Encoding.fmulLit x
  | fdivLit x => exact Encoding.fdivLit x | fminLit x => exact Encoding.fminLit x
  | fmaxLit x => exact Encoding.fmaxLit x | fsetp x => exact Encoding.fsetp x
  | fsetpLit x => exact Encoding.fsetpLit x | faddF64 x => exact Encoding.faddF64 x
  | fsubF64 x => exact Encoding.fsubF64 x | fmulF64 x => exact Encoding.fmulF64 x
  | ffmaF64 x => exact Encoding.ffmaF64 x | fdivF64 x => exact Encoding.fdivF64 x
  | fsqrtF64 x => exact Encoding.fsqrtF64 x | fminF64 x => exact Encoding.fminF64 x
  | fmaxF64 x => exact Encoding.fmaxF64 x | faddF64Lit x => exact Encoding.faddF64Lit x
  | fsubF64Lit x => exact Encoding.fsubF64Lit x | fmulF64Lit x => exact Encoding.fmulF64Lit x
  | fdivF64Lit x => exact Encoding.fdivF64Lit x | fminF64Lit x => exact Encoding.fminF64Lit x
  | fmaxF64Lit x => exact Encoding.fmaxF64Lit x | fsetpF64 x => exact Encoding.fsetpF64 x
  | fsetpF64Lit x => exact Encoding.fsetpF64Lit x | cvt x => exact Encoding.cvt x
  | cvtPackInt4 x => exact Encoding.cvtPackInt4 x | cvtUnpackInt4 x => exact Encoding.cvtUnpackInt4 x
  | ld x => exact Encoding.ld x | st x => exact Encoding.st x | ldLevel x => exact Encoding.ldLevel x
  | stLevel x => exact Encoding.stLevel x | atom x => exact Encoding.atom x | bra x => exact Encoding.bra x
  | brx x => exact Encoding.brx x | nop g => exact Encoding.nop g | srd x => exact Encoding.srd x
  | swr x => exact Encoding.swr x | bru imm => exact Encoding.bru imm | dqpop d => exact Encoding.dqpop d
  | call x => exact Encoding.call x | ret x => exact Encoding.ret x | exit g => exact Encoding.exit g
  | vote x => exact Encoding.vote x | ballot x => exact Encoding.ballot x
  | ballotIndexed x => exact Encoding.ballotIndexed x | swx x => exact Encoding.swx x
  | qxch x => exact Encoding.qxch x | regroup pa imm => exact Encoding.regroup pa imm
  | regroupLit pa lit => exact Encoding.regroupLit pa lit | regather imm => exact Encoding.regather imm
  | regatherLit lit => exact Encoding.regatherLit lit | sadd x => exact Encoding.sadd x
  | ssub x => exact Encoding.ssub x | smul x => exact Encoding.smul x | sand x => exact Encoding.sand x
  | sor x => exact Encoding.sor x | sxor x => exact Encoding.sxor x | sshl x => exact Encoding.sshl x
  | sshr x => exact Encoding.sshr x | ssar x => exact Encoding.ssar x | smov d a => exact Encoding.smov d a
  | ssel x => exact Encoding.ssel x | saddImm x => exact Encoding.saddImm x | ssubImm x => exact Encoding.ssubImm x
  | smulImm x => exact Encoding.smulImm x | sandImm x => exact Encoding.sandImm x
  | sorImm x => exact Encoding.sorImm x | sxorImm x => exact Encoding.sxorImm x
  | sshlImm x => exact Encoding.sshlImm x | sshrImm x => exact Encoding.sshrImm x
  | ssarImm x => exact Encoding.ssarImm x | smovi d imm => exact Encoding.smovi d imm
  | saddLit x => exact Encoding.saddLit x | ssubLit x => exact Encoding.ssubLit x
  | smulLit x => exact Encoding.smulLit x | sandLit x => exact Encoding.sandLit x
  | sorLit x => exact Encoding.sorLit x | sxorLit x => exact Encoding.sxorLit x
  | sshlLit x => exact Encoding.sshlLit x | sshrLit x => exact Encoding.sshrLit x
  | ssarLit x => exact Encoding.ssarLit x | smovl d lit => exact Encoding.smovl d lit
  | scmp x => exact Encoding.scmp x | scmpImm x => exact Encoding.scmpImm x | sld x => exact Encoding.sld x
  | sst x => exact Encoding.sst x | satom x => exact Encoding.satom x | sbra imm => exact Encoding.sbra imm
  | sbz x => exact Encoding.sbz x | sbnz x => exact Encoding.sbnz x | scall x => exact Encoding.scall x
  | sret a => exact Encoding.sret a | sexit => exact Encoding.sexit | sfence x => exact Encoding.sfence x
  | dqpush a => exact Encoding.dqpush a | fmbind x => exact Encoding.fmbind x | fmswap x => exact Encoding.fmswap x
  | fmquery d k => exact Encoding.fmquery d k | plaunch a => exact Encoding.plaunch a
  | pcancel a => exact Encoding.pcancel a | prepeat a => exact Encoding.prepeat a | fence x => exact Encoding.fence x
  | bar x => exact Encoding.bar x | barArv x => exact Encoding.barArv x | boarr x => exact Encoding.boarr x
  | bowait x => exact Encoding.bowait x | tlwait x => exact Encoding.tlwait x | shld x => exact Encoding.shld x
  | shst x => exact Encoding.shst x | shset x => exact Encoding.shset x | cpy x => exact Encoding.cpy x
  | cpyHalo x => exact Encoding.cpyHalo x | cpyRed x => exact Encoding.cpyRed x | cbatch d => exact Encoding.cbatch d
  | cwait x => exact Encoding.cwait x | qscan x => exact Encoding.qscan x | qrot x => exact Encoding.qrot x
  | qsmooth x => exact Encoding.qsmooth x | qcvt x => exact Encoding.qcvt x
  | xcvtEncode x => exact Encoding.xcvtEncode x | xcvtDecode x => exact Encoding.xcvtDecode x
  | mopen x => exact Encoding.mopen x | mclose x => exact Encoding.mclose x | mma x => exact Encoding.mma x
  | mdist x => exact Encoding.mdist x | mtopk x => exact Encoding.mtopk x | mwait x => exact Encoding.mwait x
  | mwaitAll sc => exact Encoding.mwaitAll sc | capenter x => exact Encoding.capenter x
  | capexit a => exact Encoding.capexit a | capres d => exact Encoding.capres d | capld x => exact Encoding.capld x
  | capst x => exact Encoding.capst x | capcas x => exact Encoding.capcas x | capop x => exact Encoding.capop x
  | capbr x => exact Encoding.capbr x | solveBegin x => exact Encoding.solveBegin x
  | solveEnd x => exact Encoding.solveEnd x | solveSet x => exact Encoding.solveSet x
  | solveStat x => exact Encoding.solveStat x | trap x => exact Encoding.trap x | tfence => exact Encoding.tfence
  | clrf m => exact Encoding.clrf m | brk => exact Encoding.brk | featq x => exact Encoding.featq x
  | _ => exact fun _ _ h => nomatch h

/-- Settles O55: the round trip of every instruction that has a word. -/
theorem decodeEncode : Obligations.DecodeEncode := encoding_statement

/-- Settles O60: the decoder is run on each word. -/
theorem decodeWords : Obligations.DecodeWords := by
  unfold Obligations.DecodeWords
  and_intros <;> rfl

end Sys2Proof.Proofs
end

section
/-!
Events of issue (R51, R54, R69 to R71, R131, R153, R154, R158, R199, R400, R401). First what is read back after a block, a team or
the run of a prologue has been changed; then one rule for each operation that the events use; then one theorem for each event.
-/
namespace Sys2Proof.Proofs
open Sys2Proof.Machine Sys2Proof.Claims Sys2Proof.Laws

/-! ### What is read back after a change -/

theorem team_eq_some {s : State} {l b t : Nat} {x : Team} :
    s.team l b t = some x ↔ ∃ ln bk, s.launch l = some ln ∧ ln.block b = some bk ∧ bk.teams[t]? = some x := by
  simp [State.team, Option.bind_eq_some_iff]

theorem launch_updLaunch_of {s : State} {l : Nat} {ln : Launch} (f : Launch → Launch) (hf : ∀ x, (f x).id = x.id)
    (hl : s.launch l = some ln) : (s.updLaunch l f).launch l = some (f ln) := by
  rw [launch_updLaunch _ _ _ hf, hl, Option.map_some]

theorem launch_updBlock {s : State} {l b : Nat} {ln : Launch} {x : Block} (f : Block → Block) (hf : ∀ y, (f y).id = y.id)
    (hl : s.launch l = some ln) (hb : ln.block b = some x) :
    ∃ ln', (s.updBlock l b f).launch l = some ln' ∧ ln'.block b = some (f x) := by
  refine ⟨_, launch_updLaunch_of _ (fun _ => rfl) hl, ?_⟩
  rw [block_upd _ _ _ hf, hb, Option.map_some]

theorem team_updTeam {s : State} {l b t : Nat} {x : Team} (f : Team → Team) (h : s.team l b t = some x) :
    (s.updTeam l b t f).team l b t = some (f x) := by
  obtain ⟨ln, bk, hl, hb, ht⟩ := team_eq_some.mp h
  obtain ⟨ln', hl', hb'⟩ := launch_updBlock (fun y => { y with teams := y.teams.modify t f }) (fun _ => rfl) hl hb
  exact team_eq_some.mpr ⟨ln', _, hl', hb', by simp [ht]⟩

theorem modify_eq_set {α : Type} {xs : List α} {k : Nat} {x : α} (f : α → α) (h : xs[k]? = some x) :
    xs.modify k f = xs.set k (f x) := by
  refine List.ext_getElem? fun j => ?_
  rw [List.getElem?_modify, List.getElem?_set']
  by_cases hj : k = j
  · subst hj
    simp [h]
  · simp [hj]

/-- An event that changes one team, and of it one fragment. -/
theorem fragBecomes_of_updTeam {i : Instr} {s : State} {l b t k : Nat} {x : Team} {g : Frag} {f : Team → Team}
    (he : exec i s = .next (s.updTeam l b t f)) (ht : s.team l b t = some x)
    (hf : f x = { x with frags := x.frags.set k g }) : FragBecomes i s l b t k x g :=
  ⟨_, he, hf ▸ team_updTeam f ht, rfl, rfl⟩

/-- An event that changes one block. -/
theorem exec_updBlock {i : Instr} {s : State} {l b : Nat} {ln : Launch} {x : Block} {f : Block → Block}
    (he : exec i s = .next (s.updBlock l b f)) (hf : ∀ y, (f y).id = y.id) (hl : s.launch l = some ln) (hb : ln.block b = some x) :
    ∃ t ln', exec i s = .next t ∧ t.launch l = some ln' ∧ t.mem = s.mem ∧ ln'.block b = some (f x) := by
  obtain ⟨ln', hl', hb'⟩ := launch_updBlock f hf hl hb
  exact ⟨_, ln', he, hl', rfl, hb'⟩

/-! ### Raising a cause in the agent that issues -/

/-- A run that has ended is found with its outcome, its registers as they were. -/
theorem runEnded_endRun {s : State} {e : PEnv} {p : Prologue} (outcome value : Nat) (hr : runAt s e = some p) :
    RunEnded (endRun s e.p outcome value) e outcome value := by
  refine ⟨{ e.p with active := false, outcome := some (outcome, value) }, ?_, rfl, rfl, rfl⟩
  have h := find_upd (fun x : Prologue => x.key == e.p.key)
    (fun _ => { e.p with active := false, outcome := some (outcome, value) }) (fun _ _ => by simp) s.prologues
  exact h.trans (congrArg _ hr)

theorem raise_team {s : State} {e : TEnv} (c : Cause) (a : DWord) (outcome value : Nat) (h : IsTeam s e) :
    raise s c a outcome value = .next (takeTrap s e c { e.info c with addr := a }) := by
  obtain ⟨hn, he⟩ := h
  simp [raise, hn, he]

theorem raise_foyer {s : State} {e : FEnv} (c : Cause) (a : DWord) (outcome value : Nat) (h : IsFoyer s e) :
    raise s c a outcome value = .next (takeTrapFoyer s e c { e.info c with addr := a }) := by
  obtain ⟨hn, ht, he⟩ := h
  simp [raise, withFoyer, hn, ht, he]

theorem raise_run {s : State} {e : PEnv} {p : Prologue} (c : Cause) (a : DWord) (outcome value : Nat) (h : IsRun s e)
    (hr : runAt s e = some p) : ∃ t, raise s c a outcome value = .next t ∧ t.mem = s.mem ∧ RunEnded t e outcome value := by
  obtain ⟨hn, he⟩ := h
  exact ⟨endRun s e.p outcome value, by simp [raise, withPrologue, hn, he], rfl, runEnded_endRun outcome value hr⟩

theorem raises_of_exec {i : Instr} {c : Cause} {a : DWord} {outcome value : Nat}
    (h : ∀ s, exec i s = raise s c a outcome value) : Raises i c a outcome value :=
  ⟨fun s _ ht => (h s).trans (raise_team c a outcome value ht), fun s _ hf => (h s).trans (raise_foyer c a outcome value hf),
    fun s _ _ hr hp _ => h s ▸ raise_run c a outcome value hr hp⟩

/-- A failing fetch whose failure has no second-stage part notes nothing before it raises its cause (R131). -/
theorem exec_instructionFetchFault {c : Cause} {a : DWord} {s : State}
    (h : s.fetchSpace = none ∨ ∀ die asid x, s.fetchSpace = some (die, asid) → s.check die asid a 8 .fetch = .error x →
      x.cause = c → x.s2 = none) : exec (.instructionFetchFault c a) s = raise s c a 4 c.toNat := by
  show execInstructionFetchFault c a s = _
  unfold execInstructionFetchFault
  cases hs : s.fetchSpace with
  | none => rfl
  | some d =>
    cases hc : s.check d.1 d.2 a 8 .fetch with
    | ok _ => simp [hc]
    | error x =>
      by_cases hx : x.cause = c
      · have h2 : x.s2 = none := (h.resolve_left (by simp [hs])) d.1 d.2 x hs hc hx
        simp [hc, hx, State.noteErr, h2]
      · simp [hc, hx]

/-! ### Lifts and releases (R153, R154, R158) -/

theorem ready_iff {s : State} {g : Frag} {n : Nat} :
    s.ready g n = true ↔ g.parked = false ∧ g.stalled = false ∧ g.since ≠ 0 ∧ g.since + n ≤ s.tick := by
  simp [State.ready, State.waited, and_assoc]

theorem starvationLift_frag (s : State) (l b t k : Nat) (long : Bool) (x : Team) (g : Frag) (ht : s.team l b t = some x)
    (hg : x.frags[k]? = some g) : FragBecomes (.starvationLift l b t k long) s l b t k x
      (if g.parked = false ∧ g.stalled = false ∧ g.since ≠ 0 ∧ g.since + (if long then 16384 else 1024) ≤ s.tick then
        { g with lift := if long then .waited16384 else .waited1024 } else g) := by
  refine fragBecomes_of_updTeam rfl ht ?_
  simp only [modify_eq_set _ hg, State.lifted, ready_iff]

theorem joinParkRelease_frag (s : State) (l b t k : Nat) (x : Team) (g : Frag) (ht : s.team l b t = some x)
    (hg : x.frags[k]? = some g) : FragBecomes (.joinParkRelease l b t k) s l b t k x
      (if g.parked = true ∧ 1024 ≤ g.bec then { g with parked := false, released := true } else g) := by
  refine fragBecomes_of_updTeam rfl ht ?_
  simp only [modify_eq_set _ hg, Bool.and_eq_true, decide_eq_true_eq]

theorem foyerStarvationLift_block (s : State) (l b : Nat) (ln : Launch) (x : Block) (hl : s.launch l = some ln)
    (hb : ln.block b = some x) : ∃ t ln', exec (.foyerStarvationLift l b) s = .next t ∧ t.launch l = some ln' ∧ t.mem = s.mem
      ∧ ln'.block b = some (if x.foyer.stalled = false ∧ x.foyer.since ≠ 0 ∧ x.foyer.since + 1024 ≤ s.tick then
          { x with foyer := { x.foyer with lift := .waited1024 } } else x) := by
  obtain ⟨t, ln', he, hl', hm, hb'⟩ := exec_updBlock (i := .foyerStarvationLift l b) rfl (by intro; split <;> rfl) hl hb
  exact ⟨t, ln', he, hl', hm, hb'.trans (by simp [State.waited])⟩

/-! ### Moves at safe points (R69 to R71) -/

theorem fits_iff {l : Launch} {foyer : Bool} {x : Xlat} {a : DWord} {p : DWord × DWord} : Fits l foyer x a p ↔
    (l.safePoint foyer p.1 && l.nativeAt foyer p.2 && (if x.active then p.1 else p.2) == a) = true := by
  simp [Fits, and_assoc]

/-- The first pair that fits decides the move. -/
theorem moveTo_of_movesTo {l : Launch} {foyer : Bool} {a b : DWord} (h : MovesTo l foyer a b) : l.moveTo foyer a = some b := by
  obtain ⟨pre, x, post, ps, p, qs, hx, hp, hfit, older, earlier, rfl⟩ := h
  have hnone : ∀ y ∈ pre, ((y.points.find? fun p => l.safePoint foyer p.1 && l.nativeAt foyer p.2
      && (if y.active then p.1 else p.2) == a).map fun p => if y.active then p.2 else p.1) = none := by
    intro y hy
    rw [Option.map_eq_none_iff, List.find?_eq_none]
    exact fun q hq => (not_congr fits_iff).mp (older y hy q hq)
  have hfirst : (x.points.find? fun p => l.safePoint foyer p.1 && l.nativeAt foyer p.2
      && (if x.active then p.1 else p.2) == a) = some p := by
    rw [List.find?_eq_some_iff_append]
    refine ⟨fits_iff.mp hfit, ps, qs, hp, fun q hq => ?_⟩
    simpa only [Bool.not_eq_true'] using Bool.eq_false_iff.mpr ((not_congr fits_iff).mp (earlier q hq))
  rw [Launch.moveTo, hx, List.findSome?_append, List.findSome?_eq_none_iff.mpr hnone]
  simp [hfirst]

theorem written_iff {x : Team} : x.written = true ↔ x.pend = [] ∧ ∀ o ∈ x.hearth.ops, o.kind ≠ .mtopk := by
  simp [Team.written]

theorem safePointMove_team (s : State) (l b t : Nat) (ln : Launch) (x : Team) (f : Frag) (pc : DWord) (hl : s.launch l = some ln)
    (ht : s.team l b t = some x) (hf : x.frags = [f]) (hm : MovesTo ln false f.pc pc) :
    (x.pend = [] → (∀ o ∈ x.hearth.ops, o.kind ≠ .mtopk) →
      FragBecomes (.safePointMove l b (some t)) s l b t 0 x { f with pc := pc, chain := none, chainPc := pc })
    ∧ (x.pend ≠ [] ∨ (∃ o ∈ x.hearth.ops, o.kind = .mtopk) →
      ∃ u, exec (.safePointMove l b (some t)) s = .next u ∧ u.team l b t = some x) := by
  have he : exec (.safePointMove l b (some t)) s = execSafePointMove l b (some t) s := rfl
  have hmove := moveTo_of_movesTo hm
  simp only [execSafePointMove, hl] at he
  constructor
  · intro hp ho
    refine fragBecomes_of_updTeam he ht ?_
    simp [hf, hmove, written_iff.mpr ⟨hp, ho⟩]
  · intro hw
    have hnot : ¬x.written = true := fun h => by
      obtain ⟨hp, ho⟩ := written_iff.mp h
      exact hw.elim (· hp) fun ⟨o, hm, hk⟩ => ho o hm hk
    refine ⟨_, he, (team_updTeam _ ht).trans ?_⟩
    simp [hf, hmove, hnot]

theorem safePointMove_foyer (s : State) (l b : Nat) (ln : Launch) (x : Block) (pc : DWord) (hl : s.launch l = some ln)
    (hb : ln.block b = some x) (hp : x.foyer.pend = []) (hm : MovesTo ln true x.foyer.pc pc) :
    ∃ t ln', exec (.safePointMove l b none) s = .next t ∧ t.launch l = some ln' ∧ t.mem = s.mem
      ∧ ln'.block b = some { x with foyer := { x.foyer with pc := pc, chain := none, chainPc := pc } } := by
  have he : exec (.safePointMove l b none) s = execSafePointMove l b none s := rfl
  simp only [execSafePointMove, hl] at he
  obtain ⟨t, ln', he, hl', hmem, hb'⟩ := exec_updBlock he (by intro; (repeat' split) <;> rfl) hl hb
  exact ⟨t, ln', he, hl', hmem, hb'.trans (by simp [moveTo_of_movesTo hm, hp])⟩

theorem translationInstall_launch (s : State) (l : Nat) (ln : Launch) (x : XlatArg) (hl : s.launch l = some ln) :
    ∃ t y, exec (.translationInstall l x) s = .next t ∧ t.launch l = some { ln with xlats := y :: ln.xlats } ∧ y.active = true
      ∧ y.points = x.points ∧ y.regions = x.regions.map fun r => ⟨r.start, r.len, r.foyer, true, r.dialect, r.jmap⟩ :=
  ⟨_, ⟨x.regions.map fun r => ⟨r.start, r.len, r.foyer, true, r.dialect, r.jmap⟩, x.points, true⟩, rfl,
    launch_updLaunch_of _ (by intro; rfl) hl, rfl, rfl, rfl⟩

theorem translationUninstall_launch (s : State) (l : Nat) (ln : Launch) (hl : s.launch l = some ln) :
    ∃ t ys, exec (.translationUninstall l) s = .next t ∧ t.launch l = some { ln with xlats := ys }
      ∧ (∀ y ∈ ys, y.active = false) ∧ ys.map Xlat.points = ln.xlats.map Xlat.points
      ∧ ys.map Xlat.regions = ln.xlats.map Xlat.regions :=
  ⟨_, ln.xlats.map fun o => { o with active := false }, rfl, launch_updLaunch_of _ (by intro; rfl) hl, by simp, by simp, by simp⟩

/-! ### Results of a team that are written (R59, R62, R199) -/

/-- The pending load p writes register r of seat i. -/
def lands (p : Pending) (i r : Nat) : Bool := (p.words.getD i none).isSome && p.reg ≤ r && r < p.reg + p.count

/-- The loads older than the k-th, without the registers that p, the k-th, writes. -/
def olderThan (t : Team) (k : Nat) (p : Pending) : List Pending := (t.pend.take k).flatMap fun q => q.without (lands p)

theorem writeBack_eq {t : Team} {k : Nat} {p : Pending} (h : t.pend[k]? = some p) :
    t.writeBack k = { t.land p with
      pend := olderThan t k p ++ t.pend.drop (k + 1)
      scratch := t.scratch - (if p.posted then 1 else 0)
      sb := t.boards (olderThan t k p ++ t.pend.drop (k + 1)) } := by
  simp only [Team.writeBack, h]
  rfl

theorem lands_iff {p : Pending} {i r : Nat} :
    lands p i r = true ↔ (∃ ws, p.words[i]? = some (some ws)) ∧ p.reg ≤ r ∧ r < p.reg + p.count := by
  simp [lands, List.getD_eq_getElem?_getD, Option.isSome_iff_exists, and_assoc, Option.getD_eq_iff]

/-- A newer write that has none of a load's registers leaves the load as it is. -/
theorem without_eq_self {q : Pending} {newer : Nat → Nat → Bool} (h : ∀ i, ∀ j < q.count, newer i (q.reg + j) = false) :
    q.without newer = [q] := by
  have hany : ((List.range q.words.length).any fun i => (List.range q.count).any fun j => newer i (q.reg + j)) = false := by
    simp only [List.any_eq_false, List.mem_range, Bool.not_eq_true]
    exact fun i _ j hj => h i j hj
  simp [Pending.without, hany]

/-- No load that a newer write has left still names, in a seat, a register that the write has there. -/
theorem without_avoids {o q : Pending} {newer : Nat → Nat → Bool} (hq : q ∈ o.without newer) (hp : q.posted = false) {i r : Nat}
    {vs : List Word} (hv : q.words[i]? = some (some vs)) (hr : q.reg ≤ r) (hlt : r < q.reg + q.count) : newer i r = false := by
  unfold Pending.without at hq
  split at hq
  next hkept =>
    obtain rfl : q = o := List.mem_singleton.mp hq
    obtain ⟨hi, -⟩ := List.getElem?_eq_some_iff.mp hv
    simp only [hp, Bool.false_or, Bool.not_eq_true', List.any_eq_false, List.mem_range, Bool.not_eq_true] at hkept
    have hj := hkept i hi (r - q.reg) (by omega)
    rwa [Nat.add_sub_cancel' hr] at hj
  next =>
    obtain ⟨j, -, rfl⟩ := List.mem_map.mp hq
    obtain rfl : r = o.reg + j := by simp only at hr hlt; omega
    refine Bool.eq_false_iff.mpr fun hn => ?_
    simp [List.getElem?_mapIdx, Option.map_eq_some_iff, hn] at hv

theorem olderThan_eq_take {t : Team} {k : Nat} {p : Pending}
    (h : ∀ q ∈ t.pend.take k, q.posted = true ∨ q.reg + q.count ≤ p.reg ∨ p.reg + p.count ≤ q.reg) :
    olderThan t k p = t.pend.take k := by
  have hself : ∀ q ∈ t.pend.take k, q.without (lands p) = [q] := fun q hq => by
    rcases h q hq with hpost | hapart
    · simp [Pending.without, hpost]
    · refine without_eq_self fun i j hj => Bool.eq_false_iff.mpr fun hl => ?_
      obtain ⟨-, hlo, hhi⟩ := lands_iff.mp hl
      omega
  rw [olderThan, List.flatMap_def, List.map_congr_left hself, ← List.flatMap_def, List.flatMap_singleton']

/-- The bit of a scoreboard is set exactly where one that sets it is listed. -/
theorem getLsbD_scoreboards (sbs : List Nat) {j : Nat} (h0 : 0 < j) (h4 : j < 4) :
    (scoreboards sbs).getLsbD j = true ↔ j ∈ sbs := by
  have hfold : ∀ (ks : List Nat) (m : BitVec 4),
      (ks.foldl (fun m k => if k = 0 then m else m ||| BitVec.twoPow 4 k) m).getLsbD j = true ↔ m.getLsbD j = true ∨ j ∈ ks := by
    intro ks
    induction ks with
    | nil => simp
    | cons k ks ih =>
      intro m
      rw [List.foldl_cons, ih, List.mem_cons, ← or_assoc]
      by_cases hk : k = 0
      · simp [hk, Nat.ne_of_gt h0]
      · simp [hk, h4]
  simpa [scoreboards] using hfold sbs 0

theorem getLsbD_boards (t : Team) (ps : List Pending) {j : Nat} (h0 : 0 < j) (h4 : j < 4) :
    (t.boards ps).getLsbD j = true ↔ (∃ q ∈ ps, q.sb = j) ∨ ∃ o ∈ t.hearth.ops, o.sb = j := by
  simp [Team.boards, getLsbD_scoreboards _ h0 h4]

theorem land_seat_kept (t : Team) (p : Pending) {i : Nat} (h : (p.words[i]?).join = none) : (t.land p).seat i = t.seat i := by
  have hw : p.words[i]?.getD none = none := by
    simpa [Option.join_eq_none_iff, Option.getD_eq_iff, or_comm] using h
  cases hs : t.seats[i]? with
  | none => simp [Team.seat, Team.land, List.getD_eq_getElem?_getD, hs]
  | some y => simp [Team.seat, Team.land, List.getD_eq_getElem?_getD, hs, hw]

theorem land_seat_written (t : Team) (p : Pending) {i : Nat} {ws : List Word} (hi : i < t.seats.length)
    (h : p.words[i]? = some (some ws)) : (t.land p).seat i = (t.seat i).wrs p.reg ws := by
  simp [Team.seat, Team.land, List.getD_eq_getElem?_getD, hi, h]

/-- A load whose peers' ports are up is not still outstanding (R481). -/
theorem linkDown_eq_false {s : State} {dev : Nat} (h : ∀ w ∈ s.ports, w.retraining = true → w.dev ≠ dev) :
    s.linkDown dev = false := by
  simpa [State.linkDown] using h

theorem resultWriteBack_team (s : State) (l b t k : Nat) (x : Team) (p : Pending) (ht : s.team l b t = some x)
    (hk : x.pend[k]? = some p) (hup : ∀ q ∈ p.peers, ∀ w ∈ s.ports, w.retraining = true → w.dev ≠ q.2.1) :
    ∃ u, exec (.resultWriteBack l b (some t) k) s = .next u ∧ u.team l b t = some (x.writeBack k) := by
  refine ⟨_, rfl, (team_updTeam _ ht).trans ?_⟩
  have hout : (p.peers.any fun q => s.linkDown q.2.1) = false :=
    List.any_eq_false.mpr fun q hq => by simp [linkDown_eq_false (hup q hq)]
  simp [hk, hout]

/-! ### Results of a Foyer context that are written (R59, R62, R199) -/

theorem foyer_writeBack_eq {f : Foyer} {k : Nat} {p : FPending} (h : f.pend[k]? = some p) :
    f.writeBack k = { f.wr (sreg p.reg) p.val with
      pend := ((f.pend.take k).map fun q => q.without p.reg) ++ f.pend.drop (k + 1)
      sb := scoreboards ((((f.pend.take k).map fun q => q.without p.reg) ++ f.pend.drop (k + 1)).map FPending.sb) } := by
  simp only [Foyer.writeBack, h]

theorem foyer_without_of_ne {q : FPending} {r : Nat} (h : q.reg ≠ r) : q.without r = q := by
  simp [FPending.without, h]

theorem foyer_without_reg (q : FPending) {r : Nat} (h : (q.without r).reg = r) : (q.without r).reg = 0 := by
  by_cases hq : q.reg = r
  · simp [FPending.without, hq]
  · rw [foyer_without_of_ne hq] at h
    exact absurd h hq

/-- A write to an s-register changes its value alone; s0 reads 0 all the same (R157). -/
theorem wrote_wr (f : Foyer) (d : SReg) (v : DWord) (h : d.val < f.s.length) : Wrote d v f.rd (f.wr d v).rd := by
  intro r
  by_cases h0 : d = 0
  · subst h0
    rw [foyer_wr_zero, if_neg fun ⟨hr, hne⟩ => hne hr]
  by_cases hr : r = d
  · subst hr
    rw [foyer_rd_wr_same f r v (fun hv => h0 (Fin.ext hv)) h, if_pos ⟨rfl, h0⟩]
  · rw [foyer_rd_wr_ne f d r v (Ne.symm hr), if_neg fun ⟨he, _⟩ => hr he]

theorem resultWriteBack_foyer (s : State) (l b k : Nat) (ln : Launch) (x : Block) (p : FPending) (hl : s.launch l = some ln)
    (hb : ln.block b = some x) (hk : x.foyer.pend[k]? = some p)
    (hup : ∀ q, p.peer = some q → ∀ w ∈ s.ports, w.retraining = true → w.dev ≠ q.1) :
    ∃ t ln', exec (.resultWriteBack l b none k) s = .next t ∧ t.launch l = some ln'
      ∧ ln'.block b = some { x with foyer := x.foyer.writeBack k } := by
  have hout : (p.peer.any fun q => s.linkDown q.1) = false := by
    cases hq : p.peer with
    | none => rfl
    | some q => exact linkDown_eq_false (hup q hq)
  obtain ⟨t, ln', he, hl', -, hb'⟩ := exec_updBlock (i := .resultWriteBack l b none k) rfl (by intro; rfl) hl hb
  exact ⟨t, ln', he, hl', hb'.trans (by simp [hk, hout])⟩

/-! ### The events together -/

/-- Settles O44: each event by its own rule; what a write-back leaves and writes is read off the equations of Team.writeBack and
Foyer.writeBack. -/
theorem issueEvents : Obligations.IssueEvents := by
  unfold Obligations.IssueEvents
  refine ⟨raises_of_exec fun _ => rfl, raises_of_exec fun _ => rfl, fun c => raises_of_exec fun _ => rfl, ?fetch,
    starvationLift_frag, joinParkRelease_frag, foyerStarvationLift_block, safePointMove_team, safePointMove_foyer,
    translationInstall_launch, translationUninstall_launch, ?team, ?foyer⟩
  case fetch =>
    intro c a s h
    rw [exec_instructionFetchFault h]
    exact ⟨fun _ he => raise_team c a 4 _ he, fun _ he => raise_foyer c a 4 _ he, fun _ _ he hr _ => raise_run c a 4 _ he hr⟩
  case team =>
    intro s l b t k x p ht hk hup
    obtain ⟨u, he, hu⟩ := resultWriteBack_team s l b t k x p ht hk hup
    rw [writeBack_eq hk] at hu
    refine ⟨u, _, he, hu, rfl, fun h => ?_, ⟨_, rfl, fun q hq hp i ws vs hw hv r hlo hhi hin => ?_⟩,
      fun j h0 h4 => getLsbD_boards x _ h0 h4, List.length_mapIdx, fun i h => land_seat_kept x p h,
      fun i ws hi h => land_seat_written x p hi h⟩
    · rw [olderThan_eq_take h, List.eraseIdx_eq_take_drop_succ]
    · obtain ⟨o, -, hq⟩ := List.mem_flatMap.mp hq
      have hn := without_avoids hq hp hv hin.1 hin.2
      exact absurd (lands_iff.mpr ⟨⟨ws, hw⟩, hlo, hhi⟩) (by simp [hn])
  case foyer =>
    intro s l b k ln x p hl hb hk hup
    obtain ⟨t, ln', he, hl', hb'⟩ := resultWriteBack_foyer s l b k ln x p hl hb hk hup
    rw [foyer_writeBack_eq hk] at hb'
    refine ⟨t, ln', _, he, hl', hb', ?_, fun h => ?_, ⟨_, rfl, fun q hq hr => ?_⟩, wrote_wr x.foyer (sreg p.reg) p.val⟩
    · by_cases h0 : (sreg p.reg).val = 0 <;> simp [Foyer.wr, h0]
    · rw [List.map_congr_left fun q hq => foyer_without_of_ne (h q hq), List.map_id', List.eraseIdx_eq_take_drop_succ]
    · obtain ⟨o, -, rfl⟩ := List.mem_map.mp hq
      exact foyer_without_reg o hr

end Sys2Proof.Proofs
end

section
/-!
Work on memory and the launches (R203, R230, R235, R328, R369, R411, R415): a write-back, a translation and an access on the I/O die
neither read nor change the launches, the prologues and the peer stores that are out. Each operation is said to commute with
carrying, which puts those of another state in their place: with the state itself in that place, it says that they stay.
-/
namespace Sys2Proof.Proofs
open Sys2Proof.Machine

/-! ### What memory work neither reads nor changes -/

/-- A state with the launches, the prologues and the outstanding peer stores of another. -/
def carrying (r s : State) : State :=
  { s with launches := r.launches, prologues := r.prologues, peerOut := r.peerOut }

theorem putL1_carrying (r s : State) (c : L1) : (carrying r s).putL1 c = carrying r (s.putL1 c) := by
  simp only [State.putL1, apply_ite (carrying r)]
  rfl

theorem carrying_mem (r s : State) : (carrying r s).mem = s.mem := rfl

theorem putMem_carrying (r s : State) (m : Memory) : ({ carrying r s with mem := m } : State) = carrying r { s with mem := m } := rfl

theorem l2Touch_carrying (r s : State) (cls tag : Nat) : (carrying r s).l2Touch cls tag = carrying r (s.l2Touch cls tag) := rfl

theorem writeBack_carrying (r s : State) (u : Unit3) (tag : Nat) :
    (carrying r s).writeBack u tag = carrying r (s.writeBack u tag) := by
  have hu : (carrying r s).l1Of u = s.l1Of u := rfl
  cases h : (s.l1Of u).find tag with
  | none => simp only [State.writeBack, hu, h]
  | some l =>
    simp only [State.writeBack, hu, h]
    split
    · exact putL1_carrying r s _
    · rw [carrying_mem, putMem_carrying, l2Touch_carrying, putL1_carrying]

theorem drainL1_carrying (r s : State) (u : Unit3) : (carrying r s).drainL1 u = carrying r (s.drainL1 u) :=
  List.foldl_hom (carrying r) fun s tag => writeBack_carrying r s u tag

theorem drainAll_carrying (r s : State) : (carrying r s).drainAll = carrying r s.drainAll :=
  List.foldl_hom (carrying r) fun s c => drainL1_carrying r s c.core

theorem l1Purge_carrying (r s : State) (pa : Nat) : (carrying r s).l1Purge pa = carrying r (s.l1Purge pa) :=
  List.foldl_hom (carrying r) fun s c => by
    show ((carrying r s).writeBack c.core (pa / 128)).putL1 _ = _
    rw [writeBack_carrying]
    exact putL1_carrying r _ _

theorem purgeFor_carrying (r s : State) (t : Tr) : (carrying r s).purgeFor t = carrying r (s.purgeFor t) := by
  simp only [State.purgeFor, l1Purge_carrying, apply_ite (carrying r)]

theorem interrupt_carrying (r s : State) (fn vec : Nat) : (carrying r s).interrupt fn vec = carrying r (s.interrupt fn vec) := by
  simp only [State.interrupt, apply_ite (carrying r)]
  rfl

theorem logDirty_carrying (r s : State) (fn page sz : Nat) :
    (carrying r s).logDirty fn page sz = carrying r (s.logDirty fn page sz) := by
  have hf : (carrying r s).func fn = s.func fn := rfl
  unfold State.logDirty
  rw [hf]
  cases s.func fn with
  | none => rfl
  | some f =>
    simp only [apply_ite (carrying r), ← interrupt_carrying]
    rfl

/-- An access that writes sets D in a stage-2 entry that has it clear (R411). -/
def newDirty (s : State) (kind : AKind) (t : Tr) : Bool :=
  match t.leaf2 with
  | some p => kind.writes && !s.dirtyAt p
  | none => false

/-- The dirty log of a function is full (R414). -/
def logIsFull (s : State) (fn : Nat) : Bool :=
  match s.func fn with
  | some f => f.logFull
  | none => false

/-- The A and D bits that a translation sets (R411). -/
def setBits (kind : AKind) (t : Tr) (s : State) : State :=
  let v : Byte := if kind.writes then 0xC0#8 else 0x40#8
  let s := s.orEntry t.leaf1 v
  match t.leaf2 with
  | some p => s.orEntry p v
  | none => s

/-- The TLB entry that a translation leaves (R412). -/
def fillTlb (die : Option Nat) (fn asid : Nat) (va : DWord) (kind : AKind) (t : Tr) (s : State) : State :=
  let o := va.toNat % 2 ^ t.bits
  let e : TlbEntry :=
    { die := die, fn := fn, asid := asid, va := va.toNat % 2 ^ 57 - o, bits := t.bits, pa := t.pa - o, gpa := t.gpa - o,
      attrs := { t.attrs with d1 := t.attrs.d1 || kind.writes, d2 := t.attrs.d2 || kind.writes } }
  { s with tlb := (e :: s.tlb.filter fun x =>
      !(x.die == die && x.fn == fn && x.asid == asid && x.va == e.va && x.bits == e.bits)).take (5 * 32768) }

theorem commitTr_eq (s : State) (die : Option Nat) (asid : Nat) (va : DWord) (kind : AKind) (t : Tr) :
    s.commitTr die asid va kind t = if t.hit then some s
      else if newDirty s kind t && logIsFull s (s.asid asid).2.1 then none
      else some (fillTlb die (s.asid asid).2.1 asid va kind t
        (setBits kind t (if newDirty s kind t then s.logDirty (s.asid asid).2.1 t.page2 t.sz2 else s))) := rfl

theorem setBits_carrying (r s : State) (kind : AKind) (t : Tr) :
    setBits kind t (carrying r s) = carrying r (setBits kind t s) := by
  unfold setBits
  cases t.leaf2 <;> rfl

theorem fillTlb_carrying (r s : State) (die : Option Nat) (fn asid : Nat) (va : DWord) (kind : AKind) (t : Tr) :
    fillTlb die fn asid va kind t (carrying r s) = carrying r (fillTlb die fn asid va kind t s) := rfl

theorem commitTr_carrying (r s : State) (die : Option Nat) (asid : Nat) (va : DWord) (kind : AKind) (t : Tr) :
    (carrying r s).commitTr die asid va kind t = (s.commitTr die asid va kind t).map (carrying r) := by
  have hd : newDirty (carrying r s) kind t = newDirty s kind t := rfl
  have hf : logIsFull (carrying r s) (s.asid asid).2.1 = logIsFull s (s.asid asid).2.1 := rfl
  have ha : (carrying r s).asid asid = s.asid asid := rfl
  simp only [commitTr_eq, hd, hf, ha, logDirty_carrying, ← fillTlb_carrying, ← setBits_carrying, apply_ite (carrying r),
    apply_ite (Option.map (carrying r)), Option.map_some, Option.map_none]

theorem updFunc_carrying (r s : State) (fn : Nat) (f : Func → Func) :
    (carrying r s).updFunc fn f = carrying r (s.updFunc fn f) := rfl

theorem noteErr_carrying (r s : State) (e : XErr) : (carrying r s).noteErr e = carrying r (s.noteErr e) := by
  unfold State.noteErr
  rcases e.s2 with _ | ⟨fn, gpa⟩
  · rfl
  · simp only [updFunc_carrying, interrupt_carrying]

theorem markAcc_carrying (r s : State) (a : AgentId) (n : Nat) (k : MKind) (c : Acc) :
    (carrying r s).markAcc a n k c = carrying r (s.markAcc a n k c) :=
  List.foldl_hom (carrying r) fun s g => by
    cases k <;> simp only [State.mark, apply_ite (carrying r)] <;> rfl

theorem check_carrying (r s : State) (die : Option Nat) (asid : Nat) (va : DWord) (size : Nat) (kind : AKind) :
    (carrying r s).check die asid va size kind = s.check die asid va size kind := rfl

/-- The outcome of an engine's work, its state carrying what another has. -/
def carryingEng {α : Type} (r : State) : Eng α → Eng α
  | .ok s v => .ok (carrying r s) v
  | .wait => .wait
  | .fail s w => .fail (carrying r s) w

theorem devAccess_carrying (r s : State) (a : AgentId) (asid : Nat) (va : DWord) (size : Nat) (kind : AKind) (mk : MKind) :
    (carrying r s).devAccess a asid va size kind mk = carryingEng r (s.devAccess a asid va size kind mk) := by
  unfold State.devAccess
  rw [check_carrying]
  cases s.check none asid va size kind with
  | error e => exact congrArg (Eng.fail · _) (noteErr_carrying r s e)
  | ok t =>
    have hc : (carrying r s).conflictIn a ⟨0, va, t.pa, some t⟩ size mk = s.conflictIn a ⟨0, va, t.pa, some t⟩ size mk := rfl
    simp only [hc, commitTr_carrying]
    cases s.conflictIn a ⟨0, va, t.pa, some t⟩ size mk with
    | some w => rfl
    | none =>
      cases s.commitTr none asid va kind t with
      | none => rfl
      | some s => simp only [Option.map_some, markAcc_carrying, purgeFor_carrying, carryingEng]

theorem watch_carrying (r s : State) (pa n : Nat) : (carrying r s).watch pa n = carrying r (s.watch pa n) := rfl

theorem decSignal_carrying (r s : State) (k asid : Nat) (sig : DWord) :
    (carrying r s).decSignal k asid sig = carrying r (s.decSignal k asid sig) := by
  unfold State.decSignal
  rw [devAccess_carrying, apply_ite (carrying r)]
  cases s.devAccess (.porch k) asid sig 8 .atomic .syncWrite with
  | ok s t => rfl
  | wait => rfl
  | fail s w => rfl

end Sys2Proof.Proofs
end

section
/-!
Residency (R85, R138 to R140, R157, R202, R328, R369): a team and a block at entry, the blocks that enter, a block that completes and
a launch that completes.
-/
namespace Sys2Proof.Proofs
open Sys2Proof.Machine Sys2Proof.Claims Sys2Proof.Laws

/-! ### A team and a block at entry (R18, R20 to R23, R84, R85) -/

theorem getLsbD_maskOf (is : List Nat) {j : Nat} (hj : j < 1024) : (maskOf is).getLsbD j = true ↔ j ∈ is := by
  have hfold : ∀ m : BitVec 1024, (is.foldl (fun m i => m ||| BitVec.twoPow 1024 i) m).getLsbD j = true
      ↔ m.getLsbD j = true ∨ j ∈ is := by
    induction is with
    | nil => simp
    | cons i is ih =>
      intro m
      have hbit : (BitVec.twoPow 1024 i).getLsbD j = true ↔ j = i := by
        rw [BitVec.getLsbD_twoPow, Bool.and_eq_true, decide_eq_true_eq, decide_eq_true_eq]
        omega
      rw [List.foldl_cons, ih, List.mem_cons, ← or_assoc, BitVec.getLsbD_or, Bool.or_eq_true, hbit]
  simpa [maskOf] using hfold 0

/-- The seat of a lane of a team at entry: block lane k·n + j, in the state of its number (R84). -/
theorem entry_seat (i : Image) (k : Nat) {j : Nat} (hj : j < teamSize i.lanes i.teams) : (Team.entry i k).seat j =
    ⟨j, (laneAt i.lanes (k * teamSize i.lanes i.teams + j)).1, (laneAt i.lanes (k * teamSize i.lanes i.teams + j)).2, 0,
      List.replicate i.regs 0⟩ := by
  simp [Team.seat, Team.entry, List.getD_eq_getElem?_getD, hj]

/-- The lanes that are present in a team at entry. -/
def presentLanes (i : Image) (k : Nat) : List Nat :=
  (List.range (teamSize i.lanes i.teams)).filter fun x => (laneAt i.lanes (k * teamSize i.lanes i.teams + x)).1 == .active

theorem entry_frags (i : Image) (k : Nat) : (Team.entry i k).frags =
    if (presentLanes i k).isEmpty then [] else [Frag.at i.tent (maskOf (presentLanes i k))] := rfl

theorem mem_presentLanes {i : Image} {k j : Nat} (hj : j < teamSize i.lanes i.teams) :
    j ∈ presentLanes i k ↔ ((Team.entry i k).seat j).st = .active := by
  simp [presentLanes, entry_seat i k hj, hj]

theorem presentLanes_eq_nil {i : Image} {k : Nat} :
    presentLanes i k = [] ↔ ∀ j, j < teamSize i.lanes i.teams → ((Team.entry i k).seat j).st ≠ .active := by
  rw [List.eq_nil_iff_forall_not_mem]
  constructor
  · exact fun h j hj ha => h j ((mem_presentLanes hj).mpr ha)
  · intro h j hm
    have hj : j < teamSize i.lanes i.teams := List.mem_range.mp (List.mem_filter.mp hm).1
    exact h j hj ((mem_presentLanes hj).mp hm)

theorem laneAt_present {lanes b : Nat} (h : b < lanes) : laneAt lanes b = (.active, false) := by simp [laneAt, h]

theorem laneAt_helper {lanes b : Nat} (h : lanes ≤ b) (hq : b / 4 = (lanes - 1) / 4) : laneAt lanes b = (.active, true) := by
  simp [laneAt, Nat.not_lt.mpr h, hq]

theorem laneAt_absent {lanes b : Nat} (h : lanes ≤ b) (hq : b / 4 ≠ (lanes - 1) / 4) : laneAt lanes b = (.absent, false) := by
  simp [laneAt, Nat.not_lt.mpr h, hq]

theorem teamEnters_entry (i : Image) (k : Nat) : TeamEnters i i.tent k (Team.entry i k) := by
  refine ⟨by simp [Team.entry, teamSize], fun j hj => ?seats, ?frags, ?none, ?one, rfl, rfl, rfl, rfl, rfl, rfl, rfl, rfl, rfl, rfl⟩
  case seats =>
    rw [entry_seat i k hj]
    refine ⟨rfl, rfl, rfl, fun h => ?_, fun h hq => ?_, fun h hq => ?_⟩
    · exact Prod.mk.inj (laneAt_present h)
    · exact Prod.mk.inj (laneAt_helper h hq)
    · exact (Prod.mk.inj (laneAt_absent h hq)).1
  case frags =>
    intro f hf
    rw [entry_frags] at hf
    split at hf
    · exact absurd hf List.not_mem_nil
    · obtain rfl := List.mem_singleton.mp hf
      exact ⟨rfl, rfl, rfl, fun j hj hn => (getLsbD_maskOf _ (Nat.lt_of_lt_of_le hj hn)).trans (mem_presentLanes hj)⟩
  case none =>
    rw [entry_frags]
    refine Iff.trans ?_ presentLanes_eq_nil
    split <;> simp_all
  case one =>
    rw [entry_frags]
    split <;> simp

theorem entry_foyer_reg (i : Image) (param : DWord) (b : Nat) {r : Nat} (h : r < 64) : (Foyer.entry i param b).s.getD r 0 =
    if r = 1 then param else if r = 2 then BitVec.ofNat 64 b else 0 := by
  show (((List.replicate 64 (0 : DWord)).set 1 param).set 2 (BitVec.ofNat 64 b)).getD r 0 = _
  rw [List.getD_eq_getElem?_getD, List.getElem?_set, List.getElem?_set, List.length_set, List.length_replicate,
    List.getElem?_replicate, if_pos h]
  by_cases h1 : r = 1
  · simp [h1]
  by_cases h2 : r = 2
  · simp [h2]
  simp [h1, h2, Ne.symm h1, Ne.symm h2]

theorem blockEnters_entry (ln : Launch) (b age : Nat) (u : Unit3) : BlockEnters ln b u (Block.entry ln b age u) := by
  refine ⟨rfl, rfl, rfl, rfl, rfl, rfl, rfl, rfl, rfl, fun r hr => entry_foyer_reg _ _ _ hr, rfl, rfl, ?_,
    fun k t ht => ?_, rfl, rfl, rfl⟩
  · simp [Block.entry]
  · obtain ⟨j, hj, rfl⟩ := Option.map_eq_some_iff.mp (List.getElem?_map.symm.trans ht)
    obtain rfl : j = k := by
      obtain ⟨_, hk⟩ := List.getElem?_eq_some_iff.mp hj
      rw [← hk, List.getElem_range]
    exact teamEnters_entry ln.entryImage j

/-- A debug stop holds a block without a change to its entry state (R383). -/
theorem blockEnters_hold {ln : Launch} {b : Nat} {u : Unit3} {x : Block} (h : BlockEnters ln b u x) : BlockEnters ln b u x.hold := by
  obtain ⟨hid, hplace, hruns, hdq, hbars, hscratch, hslices, hpc, hlen, hregs, hexit, hparked, hcount, hteams, hsolve⟩ := h
  refine ⟨hid, hplace, hruns, hdq, hbars, hscratch, hslices, hpc, hlen, hregs, hexit, hparked, by simpa [Block.hold] using hcount,
    fun k t ht => ?_, hsolve⟩
  obtain ⟨t0, ht0, rfl⟩ : ∃ t0, x.teams[k]? = some t0 ∧ { t0 with stop := true } = t := by simpa [Block.hold] using ht
  exact hteams k t0 ht0

/-! ### Blocks become resident (R85, R138 to R140, R202) -/

/-- The cores that the next block of a launch needs, or its next group. -/
def coresFor (ln : Launch) (d c k : Nat) : List Unit3 :=
  if ln.img.clg = 0 then [⟨d, c, k⟩] else (List.range ln.img.clg).map fun i => ⟨d, c, i⟩

/-- The next blocks of a launch at entry on cores. -/
def entering (ln : Launch) (age : Nat) (us : List Unit3) : List Block :=
  let bs := (us.zip (List.range us.length)).map fun p => Block.entry ln (ln.nextB + p.2) age p.1
  if ln.held then bs.map Block.hold else bs

/-- A launch with blocks that have become resident on cores. -/
def withBlocks (ln : Launch) (us : List Unit3) (bs : List Block) (x : Launch) : Launch :=
  { x with blocks := x.blocks ++ bs, nextB := x.nextB + us.length, cores := (x.cores ++ us).eraseDups
           groups := if ln.img.clg = 0 then x.groups else x.groups ++ [⟨ln.nextB / ln.img.clg, [], []⟩] }

theorem entering_length (ln : Launch) (age : Nat) (us : List Unit3) : (entering ln age us).length = us.length := by
  cases h : ln.held <;> simp [entering, h]

theorem blockEnters_entering {ln : Launch} {age j : Nat} {us : List Unit3} {u : Unit3} {x : Block} (hu : us[j]? = some u)
    (hx : (entering ln age us)[j]? = some x) : BlockEnters ln (ln.nextB + j) u x := by
  obtain ⟨hj, rfl⟩ := List.getElem?_eq_some_iff.mp hu
  cases h : ln.held with
  | false =>
    obtain rfl : Block.entry ln (ln.nextB + j) age us[j] = x := by simpa [entering, h, hj] using hx
    exact blockEnters_entry ln _ age _
  | true =>
    obtain rfl : (Block.entry ln (ln.nextB + j) age us[j]).hold = x := by simpa [entering, h, hj] using hx
    exact blockEnters_hold (blockEnters_entry ln _ age _)

theorem exec_blockResident {s s1 : State} {l d c k : Nat} {ln : Launch} (hl : s.launch l = some ln)
    (hst : ln.st = .waiting ∨ ln.st = .running) (hn : ln.nextB < ln.nblk) (hg : s.givePantry ln = some s1) :
    exec (.blockResident l d c k) s = .next (if (coresFor ln d c k).all (s1.canTake ln) then
      ((coresFor ln d c k).foldl (fun s u => s.acquire u .sys) s1).updLaunch l
        (withBlocks ln (coresFor ln d c k) (entering ln s1.tick (coresFor ln d c k)))
      else s1) := by
  show execBlockResident l d c k s = _
  have hgo : ((ln.st != .waiting && ln.st != .running) || decide (ln.nblk ≤ ln.nextB)) = false := by
    rcases hst with h | h <;> simp [h, hn]
  simp only [execBlockResident, hl, hgo, hg, Bool.false_eq_true, if_false, apply_ite Host.Outcome.next]
  rfl

theorem exec_blockResident_none {s : State} {l d c k : Nat} {ln : Launch} (hl : s.launch l = some ln)
    (h : ln.nblk ≤ ln.nextB ∨ s.givePantry ln = none) : exec (.blockResident l d c k) s = .next s := by
  show execBlockResident l d c k s = _
  rcases h with h | h <;> simp [execBlockResident, hl, h]

theorem givePantry_launch {s s1 : State} {l : Nat} {ln : Launch} (hl : s.launch l = some ln)
    (hst : ln.st = .waiting ∨ ln.st = .running) (hg : s.givePantry ln = some s1) :
    s1.mem = s.mem ∧ ∃ p m, s1.launch l = some { ln with st := .running, pantry := p, code := m } := by
  obtain rfl : ln.id = l := by simpa using List.find?_some hl
  rcases hst with hw | hr
  · simp only [State.givePantry, hw, bne_self_eq_false, Bool.false_eq_true, if_false] at hg
    split at hg
    · obtain rfl := Option.some.inj hg
      exact ⟨rfl, _, _, launch_updLaunch_of _ (fun _ => rfl) hl⟩
    · exact nomatch hg
  · obtain rfl : s = s1 := by simpa [State.givePantry, hr] using hg
    exact ⟨rfl, ln.pantry, ln.code, by rw [hl, ← hr]⟩

/-- The acquires with which cores take blocks change L1s alone (R233). -/
theorem acquires_keep (us : List Unit3) (s : State) :
    let t := us.foldl (fun s u => s.acquire u .sys) s
    t.mem = s.mem ∧ t.launches = s.launches := by
  induction us generalizing s with
  | nil => exact ⟨rfl, rfl⟩
  | cons u us ih =>
    have hput (c : L1) : (s.putL1 c).mem = s.mem ∧ (s.putL1 c).launches = s.launches := by
      unfold State.putL1
      repeat' split
      all_goals exact ⟨rfl, rfl⟩
    obtain ⟨hm, hl⟩ := ih (s.acquire u .sys)
    exact ⟨hm.trans (hput _).1, hl.trans (hput _).2⟩

/-- Where the cores can take them, the next block of a launch or its next group becomes resident. -/
theorem blocks_enter {s s1 : State} {l d c k : Nat} {ln : Launch} (hl : s.launch l = some ln)
    (hst : ln.st = .waiting ∨ ln.st = .running) (hn : ln.nextB < ln.nblk) (hg : s.givePantry ln = some s1)
    (hc : ∀ u ∈ coresFor ln d c k, s1.canTake ln u = true) :
    ∃ t ln', exec (.blockResident l d c k) s = .next t ∧ t.launch l = some ln' ∧ t.mem = s.mem ∧ ln'.st = .running
      ∧ ln'.nextB = ln.nextB + (coresFor ln d c k).length ∧ ln'.blocks = ln.blocks ++ entering ln s1.tick (coresFor ln d c k)
      ∧ ln'.groups = if ln.img.clg = 0 then ln.groups else ln.groups ++ [⟨ln.nextB / ln.img.clg, [], []⟩] := by
  obtain ⟨hmem, p, m, hl1⟩ := givePantry_launch hl hst hg
  have he := exec_blockResident (d := d) (c := c) (k := k) hl hst hn hg
  rw [if_pos (List.all_eq_true.mpr hc)] at he
  obtain ⟨hm, hla⟩ := acquires_keep (coresFor ln d c k) s1
  exact ⟨_, _, he, launch_updLaunch_of _ (fun _ => rfl) ((congrArg (List.find? _) hla).trans hl1), hm.trans hmem,
    rfl, rfl, rfl, rfl⟩

theorem coresFor_block {ln : Launch} {d c k : Nat} (hg : ln.img.clg = 0) : coresFor ln d c k = [⟨d, c, k⟩] := if_pos hg

theorem coresFor_group {ln : Launch} {d c k : Nat} (hg : ln.img.clg ≠ 0) :
    coresFor ln d c k = (List.range ln.img.clg).map fun i => ⟨d, c, i⟩ := if_neg hg

/-- The first of the cores that a launch needs. -/
theorem first_mem_coresFor (ln : Launch) (d c k : Nat) : ⟨d, c, if ln.img.clg = 0 then k else 0⟩ ∈ coresFor ln d c k := by
  by_cases hg : ln.img.clg = 0
  · simp [coresFor, hg]
  · simp only [coresFor, hg, if_false, List.mem_map, List.mem_range]
    exact ⟨0, Nat.pos_of_ne_zero hg, rfl⟩

theorem block_enters {s s1 : State} {l d c k : Nat} {ln : Launch} (hl : s.launch l = some ln)
    (hst : ln.st = .waiting ∨ ln.st = .running) (hn : ln.nextB < ln.nblk) (hp : s.givePantry ln = some s1)
    (hg : ln.img.clg = 0) (hc : s1.canTake ln ⟨d, c, k⟩ = true) :
    ∃ t ln' x, exec (.blockResident l d c k) s = .next t ∧ t.launch l = some ln'
      ∧ ln'.st = .running ∧ ln'.nextB = ln.nextB + 1 ∧ ln'.blocks = ln.blocks ++ [x] ∧ ln'.groups = ln.groups
      ∧ BlockEnters ln ln.nextB ⟨d, c, k⟩ x ∧ t.mem = s.mem := by
  have hus := coresFor_block (d := d) (c := c) (k := k) hg
  obtain ⟨t, ln', he, hl', hm, hr, hb, hbs, hgs⟩ := blocks_enter (d := d) (c := c) (k := k) hl hst hn hp (by simpa [hus] using hc)
  rw [hus] at hb hbs
  obtain ⟨x, hx⟩ := List.length_eq_one_iff.mp (entering_length ln s1.tick [⟨d, c, k⟩])
  refine ⟨t, ln', x, he, hl', hr, hb, hx ▸ hbs, by rw [hgs, if_pos hg], ?_, hm⟩
  exact blockEnters_entering (age := s1.tick) (us := [⟨d, c, k⟩]) (j := 0) rfl (by rw [hx]; rfl)

theorem group_enters {s s1 : State} {l d c k : Nat} {ln : Launch} (hl : s.launch l = some ln)
    (hst : ln.st = .waiting ∨ ln.st = .running) (hn : ln.nextB < ln.nblk) (hp : s.givePantry ln = some s1)
    (hg : ln.img.clg ≠ 0) (hc : ∀ j, j < ln.img.clg → s1.canTake ln ⟨d, c, j⟩ = true) :
    ∃ t ln' xs, exec (.blockResident l d c k) s = .next t ∧ t.launch l = some ln' ∧ ln'.st = .running
      ∧ ln'.nextB = ln.nextB + ln.img.clg ∧ ln'.blocks = ln.blocks ++ xs ∧ xs.length = ln.img.clg
      ∧ (∀ j x, xs[j]? = some x → BlockEnters ln (ln.nextB + j) ⟨d, c, j⟩ x)
      ∧ ln'.groups = ln.groups ++ [⟨ln.nextB / ln.img.clg, [], []⟩] := by
  have hus := coresFor_group (d := d) (c := c) (k := k) hg
  have hlen : (coresFor ln d c k).length = ln.img.clg := by simp [hus]
  obtain ⟨t, ln', he, hl', -, hr, hb, hbs, hgs⟩ := blocks_enter (d := d) (c := c) (k := k) hl hst hn hp (by simpa [hus] using hc)
  refine ⟨t, ln', _, he, hl', hr, hlen ▸ hb, hbs, (entering_length ..).trans hlen, fun j x hx => ?_, by rw [hgs, if_neg hg]⟩
  have hj : j < ln.img.clg := hlen ▸ entering_length ln s1.tick _ ▸ (List.getElem?_eq_some_iff.mp hx).1
  exact blockEnters_entering (by simp [hus, hj]) hx

/-- Where the first core cannot take a block, the launch has its Pantry and no block enters. -/
theorem exec_blockResident_full {s s1 : State} {l d c k : Nat} {ln : Launch} (hl : s.launch l = some ln)
    (hst : ln.st = .waiting ∨ ln.st = .running) (hn : ln.nextB < ln.nblk) (hp : s.givePantry ln = some s1)
    (hc : s1.canTake ln ⟨d, c, if ln.img.clg = 0 then k else 0⟩ = false) : exec (.blockResident l d c k) s = .next s1 := by
  rw [exec_blockResident hl hst hn hp, if_neg]
  intro hall
  have := List.all_eq_true.mp hall _ (first_mem_coresFor ln d c k)
  simp [hc] at this

theorem givePantry_of_fits {s : State} {ln : Launch} (hw : ln.st = .waiting)
    (hfit : ∀ d ∈ s.diesOf ln, s.pantryUsed d + ln.pant ≤ 48 * 2 ^ 20) (hl : s.launch ln.id = some ln) :
    ∃ s1, s.givePantry ln = some s1
      ∧ s1.launch ln.id = some { ln with st := .running, pantry := (s.diesOf ln).map (fun d => (d, [])), code := s.mem } := by
  have hall : ((s.diesOf ln).all fun d => decide (s.pantryUsed d + ln.pant ≤ 48 * 2 ^ 20)) = true :=
    List.all_eq_true.mpr fun d hd => decide_eq_true (hfit d hd)
  refine ⟨_, ?_, launch_updLaunch_of (fun x => { x with st := .running, pantry := (s.diesOf ln).map fun d => (d, []), code := s.mem })
    (fun _ => rfl) hl⟩
  simp only [State.givePantry, hw, bne_self_eq_false, Bool.false_eq_true, if_false, hall, if_true]

theorem canTake_spec {s : State} {ln : Launch} {u : Unit3} (h : s.canTake ln u = true) :
    u.core < 4 ∧ u.cluster < (s.units ln.fn).2 ∧ u.die < (s.units ln.fn).1 ∧ (∀ p, ln.pin = some p → p = u)
      ∧ (ln.diem ≠ 0 → ln.diem.testBit u.die = true) ∧ fitsCore (ln.img :: s.residents u) = true := by
  simp only [State.canTake, State.diesOf, Bool.and_eq_true, decide_eq_true_eq, List.contains_iff_mem, List.mem_filter, Bool.or_eq_true,
    beq_iff_eq] at h
  obtain ⟨⟨⟨⟨hcl, hco⟩, -, ⟨hdie, hdiem⟩, -⟩, hpin⟩, hfit⟩ := h
  refine ⟨hco, hcl, hdie, fun p hp => ?_, fun h0 => hdiem.resolve_left h0, hfit⟩
  simpa [hp] using hpin

theorem fitsCore_iff {is : List Image} : fitsCore is = true ↔ is.length ≤ 4 ∧ (is.map Image.regShare).sum ≤ 65536
    ∧ (is.map Image.sramShare).sum ≤ 524288 ∧ (is.map Image.sliceShare).sum ≤ 65536 := by
  simp [fitsCore, List.sum_eq_foldl, List.foldl_map, and_assoc]

/-! ### A launch completes (R328, R369) -/

/-- The state in which a launch signals its completion: every L1 drained, its peer stores acknowledged, SIG counted down. -/
def signalled (s : State) (ln : Launch) (out : List PeerOp) : State :=
  carrying { s with peerOut := out } (s.drainAll.decSignal ln.pkt ln.asid ln.sig)

theorem decSignal_drainAll (s : State) (ln : Launch) (out : List PeerOp) :
    ({ s.drainAll with peerOut := out } : State).decSignal ln.pkt ln.asid ln.sig = signalled s ln out := by
  have hkept : s.drainAll = carrying s s.drainAll := drainAll_carrying s s
  have hout : ({ s.drainAll with peerOut := out } : State) = carrying { s with peerOut := out } s.drainAll := by
    rw [hkept]
    rfl
  rw [hout, decSignal_carrying, signalled]

theorem signalled_launch (s : State) (ln : Launch) (out : List PeerOp) (j : Nat) : (signalled s ln out).launch j = s.launch j := rfl

theorem signalled_prologues (s : State) (ln : Launch) (out : List PeerOp) : (signalled s ln out).prologues = s.prologues := rfl

theorem signalled_mem (s : State) (ln : Launch) (out : List PeerOp) :
    (signalled s ln out).mem = (s.drainAll.decSignal ln.pkt ln.asid ln.sig).mem := rfl

theorem decSignal_zero (s : State) (k asid : Nat) : s.decSignal k asid 0 = s := rfl

theorem decSignal_mem_of_ok {s s1 : State} {k asid : Nat} {sig : DWord} {tr : Tr} (h0 : sig ≠ 0)
    (h : s.devAccess (.porch k) asid sig 8 .atomic .syncWrite = .ok s1 tr) :
    (s.decSignal k asid sig).mem = s1.mem.put tr.pa (leBytes 8 ((s1.mem.num tr.pa 8 + (2 ^ 64 - 1)) % 2 ^ 64)) := by
  simp only [State.decSignal, beq_iff_eq, h0, if_false, h]
  rfl

theorem dropLaunch_mem (s : State) (l : Nat) : (s.dropLaunch l).mem = s.mem := rfl

theorem dropLaunch_launch_same (s : State) (l : Nat) : (s.dropLaunch l).launch l = none := by
  show (s.launches.filter fun x => x.id != l).find? (fun x => x.id == l) = none
  simp

theorem dropLaunch_launch_ne (s : State) {l j : Nat} (h : j ≠ l) : (s.dropLaunch l).launch j = s.launch j := by
  show (s.launches.filter fun x => x.id != l).find? (fun x => x.id == j) = s.launches.find? fun x => x.id == j
  rw [List.find?_filter]
  refine congrArg (s.launches.find? ·) (funext fun x => ?_)
  by_cases hx : x.id = j <;> simp [hx, h]

theorem dropLaunch_records {s : State} {l : Nat} : ∀ r ∈ (s.dropLaunch l).records, r.launch ≠ l := by
  show ∀ r ∈ s.records.filter fun r => r.launch != l, r.launch ≠ l
  simp

theorem dropLaunch_prologues (s : State) (l : Nat) : (s.dropLaunch l).prologues = s.prologues := rfl

theorem finishPkt_mem (s : State) (k : Nat) : (s.finishPkt k).mem = s.mem := by
  unfold State.finishPkt
  split <;> rfl

theorem finishPkt_records (s : State) (k : Nat) : (s.finishPkt k).records = s.records := by
  unfold State.finishPkt
  split <;> rfl

theorem finishPkt_launch (s : State) (k j : Nat) : (s.finishPkt k).launch j = s.launch j := by
  unfold State.finishPkt
  split <;> rfl

theorem finishPkt_pkt {s : State} {k : Nat} (h : ∀ p ∈ s.prologues, p.key ≠ k) : (s.finishPkt k).pkt k = none := by
  have hno : (s.prologues.any fun p => p.key == k) = false := by simpa using h
  simp [State.finishPkt, hno, State.completePkt, State.pkt, State.endRegion]

theorem mem_finishPkt_prologues {s : State} {k : Nat} {p : Prologue} (hp : p ∈ s.prologues) (hk : p.key = k) :
    { p with launch := none } ∈ (s.finishPkt k).prologues := by
  have hany : (s.prologues.any fun p => p.key == k) = true := List.any_eq_true.mpr ⟨p, hp, by simp [hk]⟩
  simp only [State.finishPkt, hany, if_true, upd]
  exact List.mem_map.mpr ⟨p, hp, by simp [hk]⟩

/-- Every block of a launch has completed and no tile of it is open, or the launch was ended; and its records are written. -/
theorem exec_launchComplete {s : State} {l : Nat} {ln : Launch} (hl : s.launch l = some ln)
    (hr : ∀ r ∈ s.records, r.launch = l → r.ix ≠ none)
    (hend : ln.st = .ended
      ∨ (ln.st = .running ∧ ln.nblk ≤ ln.nextB ∧ ln.blocks = [] ∧ ∀ t ∈ s.tiles, t.owner.ofLaunch l = false)) :
    exec (.launchComplete l) s =
      .next (((signalled s ln (s.peerOut.filter fun p => !p.agent.ofLaunch l)).dropLaunch l).finishPkt ln.pkt) := by
  show execLaunchComplete l s = _
  have hrec : (s.records.any fun r => r.launch == l && r.ix.isNone) = false := by
    simpa [Option.isNone_iff_eq_none] using hr
  have htiles : (ln.st != .ended && s.tiles.any fun t => t.owner.ofLaunch l) = false := by
    rcases hend with h | ⟨-, -, -, h⟩
    · simp [h]
    · rw [List.any_eq_false.mpr fun t ht => by simp [h t ht], Bool.and_false]
  have hover : (ln.st == .ended || (ln.st == .running && ln.nblk ≤ ln.nextB && ln.blocks.isEmpty)) = true := by
    rcases hend with h | ⟨h1, h2, h3, -⟩
    · simp [h]
    · simp [h1, h2, h3]
  simp only [execLaunchComplete, hl, hover, htiles, hrec, Bool.not_true, Bool.false_eq_true, if_false, decSignal_drainAll]

theorem exec_launchComplete_waits {s : State} {l : Nat} {ln : Launch} (hl : s.launch l = some ln)
    (h : ln.st = .waiting ∨ ln.st = .stopped ∨ ln.st = .evicted ∨ (ln.st = .running ∧ ln.nextB < ln.nblk)
      ∨ (ln.st = .running ∧ ln.blocks ≠ [])) : exec (.launchComplete l) s = .next s := by
  show execLaunchComplete l s = _
  have hover : (ln.st == .ended || (ln.st == .running && ln.nblk ≤ ln.nextB && ln.blocks.isEmpty)) = false := by
    rcases h with h | h | h | ⟨h, hb⟩ | ⟨h, hb⟩ <;> simp [h]
    · omega
    · exact fun _ => hb
  simp only [execLaunchComplete, hl, hover, Bool.not_false, if_true]

/-! ### A block completes (R157, R268) -/

theorem block_over_iff {x : Block} : x.over = true ↔
    x.foyer.sexit = true ∧ ∀ u ∈ x.teams, u.exited = true ∧ (∀ o ∈ u.copy.ops, o.done = true) ∧ u.hearth.ops = [] := by
  simp [Block.over, Team.quiet]

/-- A launch without a block, whose final count is kept; a group whose blocks have all completed goes with the last. -/
def withoutBlock (b : Nat) (count : Nat) (x : Launch) : Launch :=
  let left := x.blocks.filter fun y => y.id != b
  { x with
    blocks := left
    finals := x.finals ++ [(b, count)]
    groups := x.groups.filter fun g => left.any fun y => groupOf x y.id == g.id }

/-- A group stays exactly while one of its blocks is resident. -/
theorem mem_withoutBlock_groups {b count : Nat} {x : Launch} {g : Group} (hg : g ∈ x.groups) :
    g ∈ (withoutBlock b count x).groups ↔ ∃ y ∈ (withoutBlock b count x).blocks, y.id / x.img.clg = g.id := by
  simp only [withoutBlock, List.mem_filter, hg, true_and, List.any_eq_true, beq_iff_eq, groupOf]

theorem exec_blockComplete {s : State} {l b : Nat} {ln : Launch} {x : Block} (hl : s.launch l = some ln) (hb : ln.block b = some x)
    (hst : ln.st = .running) : exec (.blockComplete l b) s =
      .next (if x.over then ((s.endRegion (.foyer l b)).endRegion (.solve l b)).updLaunch l (withoutBlock b x.solve.timeline) else s) := by
  show execBlockComplete l b s = _
  cases ho : x.over with
  | false => simp [execBlockComplete, hl, hb, hst, ho]
  | true =>
    simp only [execBlockComplete, hl, hb, hst, ho]
    rfl

/-! ### The events together -/

/-- Settles O51: what the block, or the whole group, holds at entry is read off Block.entry; completions are read off what a launch
without the block, or a state without the launch, still holds. -/
theorem residency : Obligations.Residency := by
  unfold Obligations.Residency
  refine ⟨?resident, fun s l d c k ln => exec_blockResident_none, fun s ln => givePantry_of_fits, fun s ln u => canTake_spec,
    fun is => fitsCore_iff.mp, ?block, ?launch, fun s l ln => exec_launchComplete_waits⟩
  case resident =>
    intro s l d c k ln hl hst hn s1 hp
    exact ⟨block_enters hl hst hn hp, group_enters hl hst hn hp, exec_blockResident_full hl hst hn hp⟩
  case block =>
    intro s l b ln x hl hb hst done
    have he := exec_blockComplete hl hb hst
    refine ⟨fun hd => ?_, fun hd => ?_⟩
    · rw [if_pos (block_over_iff.mpr hd)] at he
      refine ⟨_, withoutBlock b x.solve.timeline ln, he, launch_updLaunch_of _ (fun _ => rfl) hl, rfl, rfl, rfl, fun g hg => ?_⟩
      exact mem_withoutBlock_groups hg
    · rw [he, if_neg (mt block_over_iff.mp hd)]
  case launch =>
    intro s l ln hl hr hend
    refine ⟨_, exec_launchComplete hl hr hend, ?_, ?_, ?_, ?_, ?_, ?_, ?_⟩
    · rw [finishPkt_launch, dropLaunch_launch_same]
    · rw [finishPkt_records]
      exact dropLaunch_records
    · intro j hj
      rw [finishPkt_launch, dropLaunch_launch_ne _ hj, signalled_launch]
    · intro h0
      rw [finishPkt_mem, dropLaunch_mem, signalled_mem, h0, decSignal_zero]
    · intro h0 s1 tr hok
      rw [finishPkt_mem, dropLaunch_mem, signalled_mem, decSignal_mem_of_ok h0 hok]
    · intro hno
      exact finishPkt_pkt (by rwa [dropLaunch_prologues, signalled_prologues])
    · intro p hp hk
      exact mem_finishPkt_prologues (by rwa [dropLaunch_prologues, signalled_prologues]) hk

end Sys2Proof.Proofs
end

section
/-!
The decision queue (R159, R160, R169, R170, R191): what a pop reads and where it leaves its team, what a push leaves of the queue, and
where the one fragment of a team stands after it has gone on or branched whole.
-/
namespace Sys2Proof.Proofs
open Sys2Proof.Machine Sys2Proof.Claims Sys2Proof.Laws

/-! ### A team of one fragment -/

/-- The fragment that issues is the only one of its team. -/
theorem eraseIdx_eq_nil_of_alone {s : State} {e : TEnv} (he : s.teamEnv = some e) (h1 : e.t.frags.length = 1) :
    e.t.frags.eraseIdx e.fi = [] := by
  obtain ⟨_, _, _, _, hf⟩ := teamEnv_spec he
  obtain ⟨hi, _⟩ := List.getElem?_eq_some_iff.mp hf
  rw [← List.length_eq_zero_iff, List.length_eraseIdx_of_lt hi, h1]

theorem arrive_frags_alone {t : Team} {fi : Nat} (l : Launch) (pc : DWord) (m : BitVec 1024) (h : t.frags.eraseIdx fi = []) :
    (t.arrive l fi [Frag.at pc m]).frags = [Frag.at pc m] := by
  simp [Team.arrive, h, fuseInto, settle, Frag.at]

theorem countBackward_eraseIdx_nil {t : Team} {fi : Nat} (pc : DWord) (h : t.frags.eraseIdx fi = []) :
    (t.countBackward pc).frags.eraseIdx fi = [] := by
  rw [← List.length_eq_zero_iff, List.length_eraseIdx] at h ⊢
  rw [Team.countBackward, List.length_map]
  exact h

/-- One destination that every lane has. -/
theorem distinct_map_const {α : Type} (d : DWord) (x : α) (xs : List α) : distinct ((x :: xs).map fun _ => d) = [d] := by
  show (xs.map fun _ => d).foldl (fun a y => if a.contains y then a else a ++ [y]) [d] = [d]
  induction xs with
  | nil => rfl
  | cons y ys ih => simpa using ih

theorem scatter_changes_frags (e : TEnv) (t : Team) (dest : Nat → DWord) (dflt : DWord) :
    e.scatter t dest dflt = { t with frags := (e.scatter t dest dflt).frags } := by
  unfold TEnv.scatter
  split
  · rfl
  · dsimp only
    split <;> rfl

/-- All active lanes of the only fragment branch to one address: the fragment goes there whole (R170). -/
theorem scatter_frags_alone {e : TEnv} {t : Team} (d : DWord) (h : t.frags.eraseIdx e.fi = []) :
    ∃ m, (e.scatter t (fun _ => d) d).frags = [Frag.at d m] ∧ ∀ k ∈ e.active, m.getLsbD k = true := by
  unfold TEnv.scatter
  cases hact : e.active with
  | nil => exact ⟨e.f.mask, arrive_frags_alone _ _ _ h, nofun⟩
  | cons i is =>
    refine ⟨maskOf (i :: is), ?_, fun k hk => ?_⟩
    · have hall : (i :: is).filter (fun _ => d == d) = i :: is := List.filter_eq_self.mpr fun _ _ => beq_self_eq_true d
      simp only [distinct_map_const, List.map_singleton, hall]
      apply arrive_frags_alone
      split
      · exact countBackward_eraseIdx_nil _ h
      · exact h
    · have hbit := (mem_active.mp (hact ▸ hk)).2
      exact (getLsbD_maskOf _ (BitVec.lt_of_getLsbD hbit)).mpr hk

/-- The target of a branch, counted in words of 8 bytes from the branch (R128). -/
theorem relTarget_eq (pc : DWord) (imm : BitVec 29) : relTarget pc imm = pc + BitVec.ofInt 64 (imm.toInt * 8) := by
  rw [relTarget, BitVec.ofInt_mul, BitVec.signExtend]
  rfl

/-! ### A pop -/

theorem enabled_always (e : TEnv) : e.enabled always = e.active := by
  simp [TEnv.enabled, Seat.guard, Seat.pred, always]

/-- What DQPOP and BRU come to: a pop that waits, one that traps, or one that goes on with the entry popped. -/
def popping (s : State) (e : TEnv) (go : DWord → Out) : Out :=
  match popDq e with
  | none => stall s e
  | some none => trap s e 0x03#8
  | some (some v) => go v

theorem exec_dqpop {d : VReg} {s : State} {e : TEnv} (h : Issues (.dqpop d) s e) : exec (.dqpop d) s =
    popping s e fun v => afterPop s e (e.goto (e.each always fun y => y.wr2 d.val v) e.cur.fall) := by
  simp only [TEnv.each, enabled_always]
  exact issueTeam_run _ h.env h.pre h.ready

theorem exec_bru {imm : BitVec 29} {s : State} {e : TEnv} (h : Issues (.bru imm) s e) : exec (.bru imm) s =
    popping s e fun v =>
      let d := if v = 0 then e.cur.fall else relTarget e.cur.pc imm
      afterPop s e (e.scatter e.t (fun _ => d) d) :=
  issueTeam_run _ h.env h.pre h.ready

theorem popping_held {s : State} {e : TEnv} {v : DWord} (go : DWord → Out) (h1 : e.t.frags.length = 1)
    (hv : e.b.dq[e.t.dqPos - e.b.dqFreed]? = some v) : popping s e go = go v := by
  simp [popping, popDq, h1, hv]

theorem popping_empty {s : State} {e : TEnv} (go : DWord → Out) (h1 : e.t.frags.length = 1)
    (hv : e.b.dq[e.t.dqPos - e.b.dqFreed]? = none) :
    popping s e go = if e.b.foyer.sexit then trap s e 0x03#8 else stall s e := by
  cases hx : e.b.foyer.sexit <;> simp [popping, popDq, h1, hv, hx]

/-- A change of a block that keeps its teams. -/
theorem team_updBlock_of_teams_eq {s : State} {l b t : Nat} {x : Team} {f : Block → Block} (hid : ∀ y, (f y).id = y.id)
    (hteams : ∀ y, (f y).teams = y.teams) (h : s.team l b t = some x) : (s.updBlock l b f).team l b t = some x := by
  obtain ⟨ln, bk, hl, hb, ht⟩ := team_eq_some.mp h
  obtain ⟨ln', hl', hb'⟩ := launch_updBlock f hid hl hb
  exact team_eq_some.mpr ⟨ln', f bk, hl', hb', by rwa [hteams]⟩

/-- After a pop the read position has advanced by one and the team's region has ended (R159, R223). -/
theorem afterPop_spec {s : State} {e : TEnv} (he : s.teamEnv = some e) (t : Team) : ∃ s', afterPop s e t = .next s'
    ∧ s'.team e.l.id e.b.id e.ti = some { t with dqPos := e.t.dqPos + 1 }
    ∧ s'.mem = s.mem ∧ s'.marks = s.marks.filter fun m => m.agent != e.agent :=
  ⟨_, rfl, team_updBlock_of_teams_eq (fun _ => rfl) (fun _ => rfl) (team_putTeam _ he), rfl, rfl⟩

/-! ### A push -/

theorem lowest_le_of_mem {d x : Nat} {xs : List Nat} (h : x ∈ xs) : lowest d xs ≤ x := by
  induction xs generalizing d with
  | nil => cases h
  | cons y ys ih =>
    rw [lowest]
    rcases List.mem_cons.mp h with rfl | hx
    · split <;> omega
    · have := ih (d := y) hx
      split <;> omega

/-- Freeing entries moves the end of the queue only where no team has entries left to read. -/
theorem freeDq_end (b : Block) : b.freeDq.dqFreed + b.freeDq.dq.length = max (b.dqFreed + b.dq.length) b.freeDq.dqFreed := by
  simp only [Block.freeDq, List.length_drop]
  omega

/-- The last entry stays held while a team that has not exited has not popped it. -/
theorem freeDq_getLast {b : Block} {t : Team} (ht : t ∈ b.teams) (hx : t.exited = false)
    (hpos : t.dqPos < b.dqFreed + b.dq.length) : b.freeDq.dq.getLast? = b.dq.getLast? := by
  have hmem : t.dqPos ∈ (b.teams.filter fun u => !u.exited).map Team.dqPos :=
    List.mem_map_of_mem (List.mem_filter.mpr ⟨ht, by simp [hx]⟩)
  have hlow := lowest_le_of_mem (d := b.dqFreed + b.dq.length) hmem
  simp only [Block.freeDq, List.getLast?_drop]
  split
  next hall => rw [List.eq_nil_of_length_eq_zero (l := b.dq) (by omega), List.getLast?_nil]
  next => rfl

/-- The block after a push of an entry. -/
def pushed (v : DWord) (b : Block) : Block := ({ b with dq := b.dq ++ [v] } : Block).freeDq

theorem pushed_end (v : DWord) (b : Block) :
    (pushed v b).dqFreed + (pushed v b).dq.length = max (b.dqFreed + b.dq.length + 1) (pushed v b).dqFreed := by
  rw [pushed, freeDq_end, List.length_append, List.length_singleton, Nat.add_assoc]

theorem pushed_getLast {v : DWord} {b : Block} {t : Team} (ht : t ∈ b.teams) (hx : t.exited = false)
    (hpos : t.dqPos ≤ b.dqFreed + b.dq.length) : (pushed v b).dq.getLast? = some v := by
  rw [pushed, freeDq_getLast (b := { b with dq := b.dq ++ [v] }) ht hx (by simp; omega), List.getLast?_concat]

theorem exec_dqpush {a : SReg} {s : State} {e : FEnv} (h : FIssues (.dqpush a) s e) : exec (.dqpush a) s =
    if 64 ≤ e.b.dq.length then stallFoyer s e
    else retireFoyer ((s.endRegion e.agent).updBlock e.l.id e.b.id (pushed (e.b.foyer.rd a))) e e.b.foyer e.cur.fall :=
  issueKernel_run _ h.kernel h.env h.pre h.ready

/-- A Foyer instruction that completes changes no s-register by that. -/
theorem retireFoyer_eq_putFoyer (s : State) (e : FEnv) (f : Foyer) (pc : DWord) :
    ∃ g, retireFoyer s e f pc = .next (s.putFoyer e g) ∧ g.pc = pc ∧ g.s = f.s :=
  ⟨_, rfl, rfl, rfl⟩

theorem block_putFoyer {s : State} {e : FEnv} {ln : Launch} {x : Block} (g : Foyer) (hl : s.launch e.l.id = some ln)
    (hb : ln.block e.b.id = some x) :
    ∃ ln', (s.putFoyer e g).launch e.l.id = some ln' ∧ ln'.block e.b.id = some { x with foyer := g } :=
  launch_updBlock _ (fun _ => rfl) hl hb

/-- A push with room goes on, its block the pushed one with the Foyer context at the fall-through (R159, R191). -/
theorem exec_dqpush_room {a : SReg} {s : State} {e : FEnv} (h : FIssues (.dqpush a) s e) (hroom : e.b.dq.length < 64) :
    ∃ t l g, exec (.dqpush a) s = .next t ∧ t.launch e.l.id = some l
      ∧ l.block e.b.id = some { pushed (e.b.foyer.rd a) e.b with foyer := g } ∧ g.pc = e.cur.fall ∧ g.s = e.b.foyer.s := by
  obtain ⟨_, hl, hb⟩ := foyerEnv_spec h.env
  obtain ⟨l1, hl1, hb1⟩ := launch_updBlock (s := s.endRegion e.agent) (pushed (e.b.foyer.rd a)) (fun _ => rfl) hl hb
  obtain ⟨g, hg, hpc, hs⟩ := retireFoyer_eq_putFoyer
    ((s.endRegion e.agent).updBlock e.l.id e.b.id (pushed (e.b.foyer.rd a))) e e.b.foyer e.cur.fall
  obtain ⟨l, hl2, hb2⟩ := block_putFoyer g hl1 hb1
  exact ⟨_, l, g, by rw [exec_dqpush h, if_neg (Nat.not_le.mpr hroom), hg], hl2, hb2, hpc, hs⟩

/-- Settles O16: a pop is read off popping and afterPop, a push off exec_dqpush and pushed. -/
theorem decisions : Obligations.Decisions := by
  unfold Obligations.Decisions
  refine ⟨?dqpop, ?bru, ?empty, ?dqpush⟩
  case dqpop =>
    intro d s e v h h1 hv
    rw [exec_dqpop h, popping_held _ h1 hv]
    obtain ⟨t, ht, hteam, hmem, hmarks⟩ := afterPop_spec h.env (e.goto (e.each always fun y => y.wr2 d.val v) e.cur.fall)
    have hone := eraseIdx_eq_nil_of_alone h.env h1
    refine ⟨t, _, ht, hteam, fun k => ?_, rfl, ⟨_, arrive_frags_alone _ _ _ hone, rfl, rfl⟩, hmem, hmarks⟩
    rw [← enabled_always]
    exact each_seat ..
  case bru =>
    intro imm s e v h h1 hv
    rw [exec_bru h, popping_held _ h1 hv, relTarget_eq]
    obtain ⟨m, hfrags, hmask⟩ := scatter_frags_alone (if v = 0 then e.cur.fall else e.cur.pc + BitVec.ofInt 64 (imm.toInt * 8))
      (eraseIdx_eq_nil_of_alone h.env h1)
    obtain ⟨t, ht, hteam, hmem, hmarks⟩ := afterPop_spec h.env (e.scatter e.t (fun _ => _) _)
    refine ⟨t, _, ht, hteam, ?_, ⟨_, hfrags, rfl, hmask⟩, hmem, hmarks⟩
    rw [scatter_changes_frags]
  case empty =>
    rintro i s e (⟨d, rfl⟩ | ⟨imm, rfl⟩) h h1 hv
    · rw [exec_dqpop h, popping_empty _ h1 hv]
      rfl
    · rw [exec_bru h, popping_empty _ h1 hv]
      rfl
  case dqpush =>
    intro a s e h
    refine ⟨fun hroom => ?_, fun hfull => by rw [exec_dqpush h, if_pos hfull]; rfl⟩
    obtain ⟨t, l, g, ht, hl, hb, hpc, hs⟩ := exec_dqpush_room h hroom
    refine ⟨t, l, _, ht, hl, hb, hpc, hs, pushed_end .., ?_⟩
    rintro ⟨tm, htm, hx, hpos⟩
    exact pushed_getLast htm hx hpos

end Sys2Proof.Proofs
end
